-- ==== Sys2Proof/Word.lean ====
section
/-! DEFINITION. The word types of the Ulvarin 340: bytes, register words, and the fixed-length byte strings of R188. -/
namespace Sys2Proof

/-- One byte of host memory or of a card. -/
abbrev Byte := BitVec 8

/-- A 16-bit number (a ticket, a command code, an event code). -/
abbrev Word16 := BitVec 16

/-- A 32-bit number (a register, the settle tally, a tick count). -/
abbrev Word32 := BitVec 32

/-- A 64-bit number (the base address of the area, the address of an extent). -/
abbrev Word64 := BitVec 64

/-- A digest, an HMAC code or a chain value: a 32-byte string.
A byte string of fixed length is held as one bit vector whose least significant byte is the string's first byte. -/
abbrev Digest := BitVec 256

/-- A 32-byte secret, AES-256 key or seed. -/
abbrev Key256 := BitVec 256

/-- The 32-byte private scalar of a P-256 key pair. -/
abbrev Scalar := BitVec 256

/-- A P-256 public key: x then y, 64 bytes. -/
abbrev PublicKey := BitVec 512

/-- A P-256 signature: r then s, 64 bytes. -/
abbrev Signature := BitVec 512

/-- The 12-byte nonce of AES-256-GCM. -/
abbrev Nonce := BitVec 96

/-- The 16-byte tag of AES-256-GCM. -/
abbrev Tag := BitVec 128

/-- The 16-byte salt of a credential record. -/
abbrev Salt := BitVec 128

end Sys2Proof
end

