-- ==== Sys2Proof/Syntax.lean ====
section
/-! DEFINITION. The commands and events of the part: one constructor of `Instr` for each row of spec/opcode_table.json.

The part's requests travel in cards. A row named after a command code is the step in which the command's unit BEGINS the card at
the head of its queue, so such a row has no operands of its own: its fields are the card's bytes. The operands of the other rows
are what comes from outside the part: the value of a register write, the level of a pin, the answer to a DMA access and how much a
failed write had stored, the bytes the host has left in its memory, the read-back results of the store's locations, and the counts
of the oscillators. -/
namespace Sys2Proof

/-- The bytes the host has stored into its own memory since the part last read it. -/
abbrev HostWrites := List Host.Cell

/-- Which accesses of an OPEN are answered (R171): both, or one whose completion is still awaited when the step ends. -/
inductive OpenAnswer
  | both          -- the header read and, for a valid header, the opening write complete
  | readAwaited   -- the header read is still awaited
  | writeAwaited  -- the header is read and valid; the opening write is still awaited
  deriving DecidableEq, Repr

/-- Which access to the header page or to a card failed (R171, R173, R174, R179). -/
inductive FailedAccess
  | headerRead       -- the header read of an opening
  | openingWrite     -- the header write of an opening
  | linkRead         -- the read of a link entry
  | headRead         -- the read of a candidate's head
  | cardRead         -- the read of a candidate's 256 bytes
  | takenStateWrite  -- the write of state TAKEN
  | takenTicketWrite -- the write of the taken ticket, after state TAKEN has been written
  | replyWrite       -- the write of a reply region
  | settledWrite     -- the write of state SETTLED, after the reply
  | tallyWrite       -- the write of the settle tally, after the reply and the state
  | faultWrite       -- the header read of an opening finds an invalid header, and the write of its fault code fails
  deriving DecidableEq, Repr

/-- A failed access of the exchange: which it was, and what the host had stored before it (R184). -/
structure AccessFailure where
  access : FailedAccess
  host   : HostWrites
  deriving DecidableEq, Repr

/-- Where a loss of supply cuts the store's write in progress (R161, R162). -/
inductive WriteCut
  | firstProgramming
  | secondProgramming
  deriving DecidableEq, Repr

/-- The units that make DMA accesses of their own to a card's extents. -/
inductive DmaUnit
  | custody | measure | update | lifecycle
  deriving DecidableEq, Repr

/-- How a unit's DMA access ended: answered, or failed when the first `written` bytes of an output had been written (R25, R47). -/
inductive DmaResult
  | answered
  | failed (written : Nat)
  deriving DecidableEq, Repr

/-- The units that answer wipe orders (R133). -/
inductive WipeUnit
  | custody | credential | update
  deriving DecidableEq, Repr

/-- The 84 rows of spec/opcode_table.json. -/
inductive Instr
  -- cards of the custody unit
  | keyGenerate | keyImport | keySign | keyMac | keyWrapOut
  | keySetAttributes | keyFinalize | keyErase | keyDescribe | drawRandom
  -- cards of the measure unit
  | extend | closeChain | readChains | readRecords | quote
  -- cards of the update unit
  | anchorInstall | anchorRemove | updateOpen | updateFeed | updateCancel
  | updateCommit | updateConfirm | updateRevert | bootAdvice
  -- cards of the credential unit
  | credEnroll | credVerify | credRelease | credReplace | credRemove | credDescribe
  -- cards of the lifecycle controller
  | factoryIdentity | factoryRoot | factoryCertificate | factoryPairing | factoryFinish
  | ownershipRelease | ownerWithdraw | lifecycleDescribe | identityDescribe
  -- writes to the register window
  | areaOpen (enable : Bool) (host : HostWrites) (answer : OpenAnswer)
  | areaClose (enable : Bool)
  | areaAbandon (enable : Bool)
  | interruptEnableWrite (enable : Bool)
  | nudge (value : Word32)
  | settleAck (value : Word32)
  | attentionClear (value : Word32)
  | registerWrite (offset : BitVec 5) (value : Word32)
  -- the exchange's own work
  | readingPass (host : HostWrites)
  | cardTake (host : HostWrites)
  | settle
  | areaFaulted (failure : AccessFailure) (faultWriteAnswered : Bool)
  -- the link, the supply and the reset line
  | linkLoss
  | linkReturn
  | powerUp
  | powerLoss (cut : WriteCut)
  | platformReset (asserted : Bool)
  | startUp
  -- the pace clock and what falls due at its ticks
  | paceTick (ownerLineLow : Bool)
  | ownerReleaseHold
  | presenceExpiry
  | decayStep
  | storedDebtRefresh
  | idleTimerExpiry
  | guardTimerExpiry
  | periodTimerExpiry
  | censusRunEnd (a b r : Byte) (bounded : Bool) (jitter : List Byte)
  -- the shared engines and the store
  | hashPieceEnd (host : HostWrites) (readAnswered : Bool)
  | curveOperationComplete
  | storeWriteEnd (firstMatches secondMatches : Bool)
  -- internal requests
  | partEvent
  | bindingCheck
  | chainRead
  | installationRequest
  | removalRequest
  | custodyWipeOrder
  | credentialWipeOrder
  | updateWipeOrder
  | pairingInstallationRequest
  | presenceOpeningRequest
  | claimCompletionRequest
  | sessionLeftCheckedNotice
  | censusFailedReport
  | wipeAnswer (unit : WipeUnit)
  | extentDmaEnd (unit : DmaUnit) (host : HostWrites) (result : DmaResult)
  deriving DecidableEq, Repr

end Sys2Proof
end

