-- ==== Sys2Proof/Decode.lean ====
section
/-! DEFINITION. The command that a word spells. The rows of spec/opcode_table.json carry no bits (a request reaches the part as the
bytes of a card, and an event is no word at all), so no word spells a row. -/
namespace Sys2Proof

/-- The command that the low `nbits` bits of `w` spell by the table's bits: no row of the table has any. -/
def decodeTableWord (_nbits _w : Nat) : Option Instr := none

end Sys2Proof
end

