-- ==== Sys2Proof/Config.lean ====
section
/-! DEFINITION. What the manual treats as fixed functions of their inputs (the cryptographic functions), what is fixed when a part
is made, and the free values: every constant here is opaque, so that no proof can see what it is. -/
namespace Sys2Proof.Config

/-- SHA-256 over a byte string (introduction, "About this manual": a fixed function, 32-byte result). -/
opaque sha256 : List Byte → Digest

/-- HMAC-SHA-256 under a 32-byte key. -/
opaque hmacSha256 : Key256 → List Byte → Digest

/-- An ECDSA signature over P-256; the per-signature secret is derived from the scalar and the digest (R144), so it is a
function of these two. -/
opaque ecdsaSign : Scalar → Digest → Signature

/-- Whether a P-256 signature verifies over a digest under a key, for a point of the curve and halves in range; what a verify answers for
other keys and signatures is `Machine.verifySignature`'s (R144). -/
opaque ecdsaVerify : PublicKey → Digest → Signature → Bool

/-- The prime of the field that P-256 is defined over (taken from outside the manual, log entry 66). PRESUMED. -/
def curvePrime : Nat := 0xFFFFFFFF00000001000000000000000000000000FFFFFFFFFFFFFFFFFFFFFFFF

/-- The constant term of the equation of P-256, whose linear coefficient is -3 (taken from outside the manual, log entry 66). PRESUMED. -/
def curveConstant : Nat := 0x5AC635D8AA3A93E7B3EBBD55769886BC651D06B0CC53B0F63BCE3C3E27D2604B

/-- The order of the curve P-256 (R145 names it; its value is taken from outside the manual, log entry 20). PRESUMED. -/
def curveOrder : Nat := 0xFFFFFFFF00000000FFFFFFFFFFFFFFFFBCE6FAADA7179E84F3B9CAC2FC632551

/-- The candidate for a private scalar that the curve engine derives from a seed and a count (R145). -/
opaque scalarCandidate : Key256 → Nat → Scalar

/-- FREE VALUE: what the search for a private scalar comes to when its first 64 candidates are all out of range (log entry 20). -/
opaque lateCandidate : Key256 → Nat

/-- The public key of a private scalar (R145). -/
opaque publicOfScalar : Scalar → PublicKey

/-- Byte `i` of the counter-mode key stream of AES-256-GCM under a key and a nonce (log entry 4). -/
opaque gcmStream : Key256 → Nonce → Nat → Byte

/-- The tag of AES-256-GCM over a ciphertext, with no associated data (R196). -/
opaque gcmTag : Key256 → Nonce → List Byte → Tag

/-- The generator's conditioning function: the seed state after collected jitter has been folded in (R154). -/
opaque conditioning : Key256 → List Byte → Key256

/-- Byte `i` of a draw from a seed state (R154). -/
opaque drawByte : Key256 → Nat → Byte

/-- The seed state after a draw of `n` bytes (R154). -/
opaque drawAdvance : Key256 → Nat → Key256

/-- The internal credential key, set in the part when it is made (R94). -/
opaque credentialKey : Key256

/-- FREE VALUE: the detail word that names a record of the store, by the record's number in the order of R158 (R65, R109, log entry
31). -/
opaque recordName : Nat → Word32

/-- FREE VALUE: the detail word in which LIFECYCLE DESCRIBE reports the record count and the TRUNCATED flag; R31 has it report them, and
states no coding (log entry 50). -/
opaque recordReport : Nat → Bool → Word32

/-- FREE VALUE: the `n`th 32-bit word that the manual leaves open (a detail word it does not state). -/
opaque freeWord : Nat → Word32

/-- FREE VALUE: the `n`th byte that the manual leaves open (a byte of a reply or of an output that carries no stated value). -/
opaque freeByte : Nat → Byte

end Sys2Proof.Config
end

