-- ==== Sys2Proof/Machine/State.lean ====
section
/-! DEFINITION. The state of the Ulvarin 340 as plain data: every register, queue, table, timer, pin and persistent record that
spec/ names, with the model's own fields (host memory, the count of free values, the count of interrupt messages, the queue of
waiting commands); the state right after power-up; and the reasons a step can stop. -/
namespace Sys2Proof.Machine

/-- Why a step stops with a fault: never. The manual gives every command an effect or none, and describes no fault that stops the
part. -/
inductive Fault
  deriving DecidableEq, Repr

/-- Why a command is refused by the model. -/
inductive Refusal
  /-- Raised by `exec` alone, for a command without a meaning (none is left). Safe: the run stops. -/
  | notModelled (mnemonic : String)
  deriving DecidableEq, Repr

/-- A byte of a reply or of an output; `none` where the manual states no value for it (it becomes a free value when it is
written). -/
abbrev OutByte := Option Byte

/-! ## Chapter 11: outcomes, areas and the states named in the enumerations (R193) -/

/-- The outcomes of R193. -/
inductive CardOutcome
  | done | matched | mismatch | unknownCommand | badRequest | wrongLifecycle | needsPresence | unbound
  | slotEmpty | slotInUse | notPermitted | spent | oneWay | entropy | chainClosed | reservedChain
  | badSignature | notAnAnchor | kindNotPermitted | badBlob | noSession | sessionBusy | overrun
  | digestMismatch | notRunning | rollback | trialPending | noTrial | throttled | tooSoon | tableFull
  | wiping | storeFault | linkFault | abandoned
  deriving DecidableEq, Repr

inductive AreaState
  | closed | opening | opened | draining | abandoning | faulted
  deriving DecidableEq, Repr

inductive LifecycleState
  | blank | unclaimed | claimed
  deriving DecidableEq, Repr

inductive CensusState
  | healthy | doubt | failed
  deriving DecidableEq, Repr

/-- The five units that own commands (R177). -/
inductive UnitName
  | custody | measure | update | credential | lifecycle
  deriving DecidableEq, Repr

/-! ## Chapter 10: the exchange -/

/-- The part's copy of a taken card: which take since reset it was, its number, its ticket and command code as its head gave them, and
its 256 bytes (R174). The take tells two cards of one ticket apart: tickets come round after 65535 takes (R174, log entry 41). -/
structure Card where
  take   : Nat
  num    : Nat
  ticket : Word16
  code   : Word16
  bytes  : List Byte
  deriving DecidableEq, Repr

/-- Where a taken card stands: in its unit's queue and not begun, the card in work, or handed back for settling (R178, R179). -/
inductive Phase
  | waiting | begun | handedBack
  deriving DecidableEq, Repr

/-- One of the 24 card buffers in use, with the unit whose queue place the card holds, if any (R175, R178, R183). -/
structure Buffer where
  card  : Card
  unit  : Option UnitName
  phase : Phase
  deriving DecidableEq, Repr

/-- A card on the settle list, with its outcome, detail word and reply body (R179). -/
structure Settlement where
  card    : Card
  outcome : CardOutcome
  detail  : Word32
  body    : List Byte
  deriving DecidableEq, Repr

/-- The fetcher (R172); a held fetcher remembers what it waits for (R174, R176). -/
inductive Fetcher
  | stopped
  | waitingStartUp
  | reading
  | sleeping
  | heldForRoom (code : Word16)
  | heldByOrdered
  deriving DecidableEq, Repr

structure Exchange where
  area           : AreaState
  base           : Word64
  enable         : Bool
  ack            : Word32
  tally          : Word32
  takes          : Nat
  cards          : Nat
  expected       : Word16
  cursor         : Option Nat
  fetcher        : Fetcher
  nudge          : Bool
  reRead         : Bool
  mismatch       : Option Nat
  candidate      : Option (Nat × Word16 × Word16)
  openAwait      : Option OpenAnswer
  buffers        : List Buffer
  settleList     : List Settlement
  closeRequested : Bool
  attention      : BitVec 9
  takenTicket    : Word16
  faultCode      : Word16
  faultCard      : Byte
  deriving DecidableEq, Repr

/-- The card a unit has in work: the copy in its buffer, how far the work has got, whether it is to be handed back ABANDONED when
the work it waits for ends, whether it is committed (R24, R46, R60, R90, R117, R137), and whether a loss of the link has cut its access
to host memory, which then fails although the link may be up again at its end (R91, R168, R186). No access is cut when a card begins. -/
structure Work (σ : Type) where
  card      : Card
  stage     : σ
  abandoned : Bool
  committed : Bool
  cut       : Bool := false
  deriving DecidableEq, Repr

/-! ## Chapter 1: the key table -/

inductive KeyClass
  | root | identity | delegate | ownerAnchor | owner | platform | session
  deriving DecidableEq, Repr

/-- The states of a slot that is not EMPTY. -/
inductive KeyState
  | provisional | live | spent
  deriving DecidableEq, Repr

/-- The key in a slot. The algorithm of R2 is the constructor. An anchor holds the public key alone. -/
inductive KeyMaterial
  | p256 (scalar : Option Scalar) (pub : PublicKey)
  | hmac256 (secret : Key256)
  | wrap256 (secret : Key256)
  deriving DecidableEq, Repr

/-- The capability flags and the restriction flag (R3). -/
structure KeyFlags where
  sign          : Bool
  mac           : Bool
  wrap          : Bool
  exportable    : Bool
  needsPresence : Bool
  deriving DecidableEq, Repr

/-- A binding (R2, R41). -/
inductive Binding
  | exactly (mask : BitVec 12) (composite : Digest)
  | acceptedImage (kind : Fin 8) (chain : Fin 11)
  deriving DecidableEq, Repr

structure UseLimit where
  limit     : Nat
  remaining : Nat
  deriving DecidableEq, Repr

/-- The anchor attachment of slots 2 to 5 (R2). -/
structure Anchor where
  kinds  : Byte
  serial : Option Word32
  deriving DecidableEq, Repr

/-- The record of a slot that is not EMPTY (R2). -/
structure KeyRecord where
  state    : KeyState
  cls      : KeyClass
  material : KeyMaterial
  flags    : KeyFlags
  binding  : Option Binding
  limit    : Option UseLimit
  total    : Nat
  label    : List Byte
  anchor   : Option Anchor
  deriving DecidableEq, Repr

/-- The use whose use check (R11) a custody card has reached. -/
inductive KeyUse
  | sign | mac | unwrap | wrapping | source
  deriving DecidableEq, Repr

/-- What a custody card goes on to when the record it sent to the store has been written. -/
inductive CustodyThen
  | settle (outcome : CardOutcome) (detail : Option Word32) (body : List OutByte)
  | writeBlob (blob : List Byte)
  | importTarget (target : Fin 48) (record : KeyRecord)
  deriving DecidableEq, Repr

inductive CustodyStage
  | gate                                                     -- at the randomness gate, a waiter of the census (R10)
  | binding (use : KeyUse)                                   -- awaiting a binding answer (R11)
  | curveSign                                                -- awaiting the curve engine (R13)
  | curveGenerate                                            -- awaiting the curve engine (R8)
  | mac                                                      -- an HMAC job at the hash engine (R14)
  | readBlob                                                 -- reading the blob (R9)
  | record (slot : Fin 48) (value : Option KeyRecord) (faultDetail : Option Word32) (next : CustodyThen)
  | writeOut (bytes : List Byte) (detail : Option Word32) (body : List OutByte)   -- writing the extent (R15, R20)
  deriving DecidableEq, Repr

/-- The block that asked for an installation or a removal (R21). -/
inductive Installer
  | lifecycle | update
  deriving DecidableEq, Repr

/-- A request from another block that changes the key table (R5, R21, R23). -/
inductive CustodyRequest
  | install (slot : Fin 6) (record : KeyRecord) (by_ : Installer)
  | remove (slot : Fin 6)
  | wipe
  deriving DecidableEq, Repr

/-- A custody request in service, awaiting its store writes. -/
inductive CustodyService
  | install (slot : Fin 6) (record : KeyRecord) (by_ : Installer)
  | remove (slot : Fin 6)
  | wipe (erased outstanding failed : Nat)
  deriving DecidableEq, Repr

structure Custody where
  table   : Vector (Option KeyRecord) 48
  work    : Option (Work CustodyStage)
  undo    : Option (Fin 48 × KeyRecord)
  held    : List CustodyRequest
  service : Option CustodyService
  deriving DecidableEq, Repr

/-! ## Chapter 4: signers and image kinds (read by other chapters) -/

inductive SignerClass
  | root | delegate | owner
  deriving DecidableEq, Repr

structure Confirmed where
  version : Nat
  digest  : Digest
  signer  : SignerClass
  deriving DecidableEq, Repr

structure Trial where
  version : Nat
  digest  : Digest
  signer  : SignerClass
  boots   : Nat
  deriving DecidableEq, Repr

/-- The record of an image kind (R69). -/
structure KindRecord where
  floor     : Nat
  confirmed : Option Confirmed
  trial     : Option Trial
  deriving DecidableEq, Repr

inductive LapseReason
  | bootsExhausted | ownerSignerRemoved
  deriving DecidableEq, Repr

/-! ## Chapters 2 and 3: the measure unit -/

/-- The part events of R34. -/
inductive PartEvent
  | updateConfirmed (kind : Fin 8) (version : Nat) (signer : SignerClass) (belowFloor : Bool)
  | updateLapsed (kind : Fin 8) (version : Nat) (reason : LapseReason)
  | ownerAnchorInstalled
  | ownershipClaimed
  | ownershipReleased
  | censusFailed
  deriving DecidableEq, Repr

/-- The units that send binding checks (R41). -/
inductive Checker
  | custody | credential
  deriving DecidableEq, Repr

/-- An entry of the internal request list (R38). A check or a chain read whose sender has given it up is not `wanted`: its answer is
discarded when it comes (R24, R90, R117). -/
inductive MeasureRequest
  | event (e : PartEvent)
  | check (by_ : Checker) (b : Binding) (wanted : Bool)
  | chainRead (chain : Fin 11) (wanted : Bool)
  deriving DecidableEq, Repr

/-- An entry of the record list (R30). -/
structure Record where
  seq    : Nat
  chain  : Fin 12
  event  : Word16
  digest : Digest
  deriving DecidableEq, Repr

inductive MeasureStage
  | extendHash (chain : Fin 11) (event : Word16) (digest : Digest)          -- R28
  | chainsHash (values : List Byte) (tail : List OutByte)                   -- R33: the copy of the values, the reply's tail
  | writeOut (bytes : List Byte) (detail : Option Word32) (body : List OutByte)
  | fingerprint (rest : List Byte) (seq : Nat)                              -- R55: the body after the fingerprint
  | quoteHash (body : List Byte) (seq : Nat)                                -- R57
  | quoteSign (body : List Byte) (seq : Nat)                                -- R57
  deriving DecidableEq, Repr

/-- The function of a hash job (R139). -/
inductive HashFunction
  | sha256
  | hmac (key : Key256)
  deriving DecidableEq, Repr

/-- Where a hash job's bytes come from: bytes the requester holds, or extents (index, address, bytes left) in host memory (R139). -/
inductive ByteSource
  | own (bytes : List Byte)
  | extents (left : List (Nat × Word64 × Nat))
  deriving DecidableEq, Repr

/-- A hash job (R139). Its continuation state is the whole of the computation so far, held as the bytes taken in. -/
structure HashJob where
  fn       : HashFunction
  absorbed : List Byte
  source   : ByteSource
  finalize : Bool
  deriving DecidableEq, Repr

/-- What a card of the measure unit resumes with when the serving point ends (R39, R40). -/
inductive MeasureResume
  | job (j : HashJob)
  | transfer
  | signature (sig : Signature)
  deriving DecidableEq, Repr

/-- The internal request in service at the front of the list (R35, R42, R43). -/
inductive MeasureService
  | eventDigest (e : PartEvent)
  | eventExtend (e : PartEvent) (digest : Digest)
  | composite (by_ : Checker) (expected : Digest)
  | candidates (by_ : Checker) (chainValue : Digest) (left : List Digest) (hit : Bool)
  deriving DecidableEq, Repr

structure Measure where
  chains    : Vector Digest 12
  closed    : BitVec 11
  records   : List Record
  missed    : Nat
  truncated : Bool
  quoteSeq  : Nat
  starting  : Bool
  internal  : List MeasureRequest
  service   : Option MeasureService
  work      : Option (Work MeasureStage)
  paused    : Option MeasureResume
  deriving DecidableEq, Repr

/-! ## Chapter 4: the update unit -/

/-- The session context of OPEN (R72). -/
structure OpenSession where
  kind       : Fin 8
  version    : Nat
  length     : Nat
  digest     : Digest
  slot       : Nat
  signer     : SignerClass
  belowFloor : Bool
  fed        : Nat
  running    : List Byte
  idleStart  : Word32
  deriving DecidableEq, Repr

/-- The session context of CHECKED (R72). -/
structure CheckedSession where
  kind       : Fin 8
  version    : Nat
  digest     : Digest
  slot       : Nat
  signer     : SignerClass
  guardStart : Word32
  deriving DecidableEq, Repr

inductive Session
  | idle
  | opened (c : OpenSession)
  | checked (c : CheckedSession)
  deriving DecidableEq, Repr

inductive UpdateStage
  | verifyHash (pub : PublicKey)
  | verifyCurve
  | installSlot | installMark | removeMark | removeSlot | ownerInstall | ownerRemove
  | feed
  | commit (record : KindRecord)
  | confirmHash
  | confirmChain (expected : Digest)
  | confirm (record : KindRecord) (version : Nat) (signer : SignerClass) (belowFloor : Bool)
  | sendingEvent                                             -- the part event awaits room in the internal request list (R38)
  | revert (record : KindRecord)
  | writeOut (bytes : List Byte) (detail : Option Word32) (body : List OutByte)
  deriving DecidableEq, Repr

/-- The wipe order at the update unit: none, arrived, or held until the session leaves CHECKED (R89). -/
inductive UpdateWipe
  | none | arrived | held
  deriving DecidableEq, Repr

structure WipeCount where
  removed     : Nat
  outstanding : Nat
  failed      : Nat
  deriving DecidableEq, Repr

structure Update where
  marks   : Vector Word32 3
  kinds   : Vector KindRecord 8
  session : Session
  guardOn : Bool
  work    : Option (Work UpdateStage)
  wipe    : UpdateWipe
  service : Option WipeCount
  deriving DecidableEq, Repr

/-! ## Chapter 5: the credential unit -/

inductive CredKind
  | admin | releasable | pairing
  deriving DecidableEq, Repr

inductive CredClass
  | factory | owner
  deriving DecidableEq, Repr

structure Policy where
  charge : Nat
  decay  : Nat
  lock   : Nat
  deriving DecidableEq, Repr

structure SealedSecret where
  nonce  : Nonce
  cipher : List Byte
  tag    : Tag
  deriving DecidableEq, Repr

/-- A credential record as the store holds it (R92); `debt` is the stored debt. -/
structure CredRecord where
  kind      : CredKind
  cls       : CredClass
  label     : List Byte
  salt      : Salt
  verifier  : Digest
  secret    : Option SealedSecret
  binding   : Option Binding
  policy    : Policy
  debt      : Nat
  saturated : Bool
  failures  : Nat
  lastTick  : Word32
  deriving DecidableEq, Repr

/-- A place of the credential table that holds a record: the record with its working debt, the writes of it that are in the store's
queue, and whether an admitted attempt is in progress on it. It is busy while either is so (R98, R100). -/
structure CredEntry where
  record  : CredRecord
  working : Nat
  writes  : Nat
  attempt : Bool
  deriving DecidableEq, Repr

inductive CredStage
  | gate
  | awaitRecord (id : Fin 32) (salt : Option Salt)                       -- an attempt at a busy record (R98)
  | compare (id : Fin 32) (debt : Nat) (tick : Word32) (salt : Option Salt)   -- R99
  | attemptWrite (id : Fin 32) (record : CredRecord) (hit : Bool) (salt : Option Salt)   -- R100
  | awaitPresence (debt : Nat)                                           -- R106
  | enrolHash (salt : Salt) (secret : Option SealedSecret)               -- R107
  | enrolWrite (id : Fin 32) (record : CredRecord)                       -- R107
  | claimHash (salt : Salt) (pairingDebt : Nat)                          -- R109 step 1
  | claimWrite (id : Fin 32) (record : CredRecord) (pairingDebt : Nat)   -- R109 step 1
  | awaitClaim (id : Fin 32) (record : CredRecord) (pairingDebt : Nat)   -- R109 step 2
  | claimUndo (id : Fin 32)                                              -- R109, second fault
  | replaceHash (id : Fin 32) (salt : Salt) (secret : Option SealedSecret) (attempt : Option (Nat × Word32))   -- R112
  | replaceWrite (id : Fin 32) (record : CredRecord) (attempt : Bool)    -- R112
  | binding (id : Fin 32)                                                -- R110
  | removeWrite (id : Fin 32)                                            -- R113
  deriving DecidableEq, Repr

/-- A request from the lifecycle controller that changes the credential table (R95, R115, R116). -/
inductive CredRequest
  | wipe
  | pairing (code label : List Byte) (policy : Policy)
  deriving DecidableEq, Repr

inductive CredService
  | wipe (c : WipeCount)
  | pairingGate (code label : List Byte) (policy : Policy)
  | pairingHash (salt : Salt) (label : List Byte) (policy : Policy)
  | pairingWrite (id : Fin 32) (record : CredRecord)
  deriving DecidableEq, Repr

structure Credential where
  table   : Vector (Option CredEntry) 32
  work    : Option (Work CredStage)
  held    : List CredRequest
  service : Option CredService
  deriving DecidableEq, Repr

/-! ## Chapter 6: the lifecycle controller -/

inductive Progress
  | none | marking | deferred | wiping | closing | incomplete
  deriving DecidableEq, Repr

structure WipeCounts where
  slots : Nat
  records : Nat
  trials : Nat
  slotsFailed : Nat
  recordsFailed : Nat
  trialsFailed : Nat
  deriving DecidableEq, Repr

inductive LifeStage
  | gate                                     -- FACTORY IDENTITY at the randomness gate
  | generate                                 -- FACTORY IDENTITY at the curve engine
  | install (body : List OutByte)            -- FACTORY IDENTITY and FACTORY ROOT awaiting the custody unit
  | readCertificate
  | certificateWrite (bytes : List Byte)
  | pairing
  | finish
  | release
  | writeOut (bytes : List Byte) (detail : Option Word32) (body : List OutByte)
  deriving DecidableEq, Repr

/-- One thing for each of the three units that answer wipe orders. -/
structure Trio (α : Type) where
  custody    : α
  credential : α
  update     : α
  deriving DecidableEq, Repr

/-- A unit's answer to a wipe order: what it erased and how many of its writes failed. -/
structure WipeTally where
  erased : Nat
  failed : Nat
  deriving DecidableEq, Repr

structure Lifecycle where
  effective    : LifecycleState
  marker       : Bool
  requested    : LifecycleState
  pending      : Bool
  progress     : Progress
  counts       : WipeCounts
  presence     : Option Word32
  hold         : Nat
  holdDue      : Bool
  certificate  : Option (List Byte)
  work         : Option (Work LifeStage)
  claiming     : Bool
  notices      : Nat
  reports      : Nat
  answersSent  : Trio (Option WipeTally)
  answersTaken : Trio (Option WipeTally)
  deriving DecidableEq, Repr

/-! ## Chapter 7: the engines -/

inductive HashClient
  | measure | credential | custody | update
  deriving DecidableEq, Repr

structure HashRun where
  client    : HashClient
  job       : HashJob
  withdrawn : Bool
  deriving DecidableEq, Repr

structure HashEngine where
  running    : Option HashRun
  measure    : Option HashJob
  credential : Option HashJob
  custody    : Option HashJob
  update     : Option HashJob
  pointer    : HashClient
  deriving DecidableEq, Repr

inductive CurveClient
  | update | measure | custody | lifecycle
  deriving DecidableEq, Repr

/-- The operations of R144. The scalar of a sign by identity is taken from slot 1 at the grant (R146). -/
inductive CurveOp
  | verify (pub : PublicKey) (digest : Digest) (sig : Signature)
  | sign (scalar : Scalar) (digest : Digest)
  | signByIdentity (scalar : Option Scalar) (digest : Digest)
  | generate (seed : Key256)
  deriving DecidableEq, Repr

structure CurveRun where
  client : CurveClient
  op     : CurveOp
  deriving DecidableEq, Repr

structure CurveEngine where
  running   : Option CurveRun
  update    : Option CurveOp
  measure   : Option CurveOp
  custody   : Option CurveOp
  lifecycle : Option CurveOp
  pointer   : CurveClient
  deriving DecidableEq, Repr

/-! ## Chapter 8: the census and the pace clock -/

/-- The blocks that wait at a randomness gate (R153). -/
inductive Waiter
  | custody | credential | lifecycle
  deriving DecidableEq, Repr

structure PeriodTimer where
  start : Word32
  limit : Nat
  deriving DecidableEq, Repr

/-- A census run in progress, with its three counters (R148, R149). -/
structure CensusRun where
  a : Byte
  b : Byte
  r : Byte
  deriving DecidableEq, Repr

structure Census where
  state   : CensusState
  run     : Option CensusRun
  a       : Byte
  b       : Byte
  r       : Byte
  period  : Option PeriodTimer
  waiters : List Waiter
  seed    : Key256
  deriving DecidableEq, Repr

/-- The tick count, and whether a decay step or a refresh that the last tick brought is still to be taken (R101, R103, R155). -/
structure Pace where
  tick       : Word32
  decayDue   : Bool
  refreshDue : Bool
  deriving DecidableEq, Repr

/-! ## Chapter 9: the retention store and start-up -/

/-- A location of the store: one of the two a record is made with, or one of the 64 spares (R159, R161). The names are the model's (DESIGN
CHOICE, log entry 71). -/
inductive Loc
  | home (record : Nat) (second : Bool)
  | spare (n : Nat)
  deriving DecidableEq, Repr

/-- A copy of a record: its value (`none`: the record is absent), its generation, and whether it passes its check (R159). -/
structure Copy (α : Type) where
  value  : Option α
  gen    : Word32
  intact : Bool
  deriving DecidableEq, Repr

structure Spot (α : Type) where
  loc  : Loc
  copy : Option (Copy α)
  deriving DecidableEq, Repr

/-- The current and the alternate location of a record (R159). -/
structure Cells (α : Type) where
  current   : Spot α
  alternate : Option (Spot α)
  deriving DecidableEq, Repr

/-- The lifecycle record of the store (R119). -/
structure LifeRecord where
  effective : LifecycleState
  marker    : Bool
  deriving DecidableEq, Repr

/-- The write of a record, or its removal (R158, R160). -/
inductive Write
  | lifecycle (v : LifeRecord)
  | certificate (v : List Byte)
  | slot (i : Fin 32) (v : Option KeyRecord)
  | mark (i : Fin 3) (v : Word32)
  | cred (i : Fin 32) (v : Option CredRecord)
  | kind (k : Fin 8) (v : KindRecord)
  deriving DecidableEq, Repr

/-- The requester a write is answered to; `nobody` for a write sent before a platform reset (R160, R163). -/
inductive WriteTo
  | nobody
  | custodyCard | custodyRequest | custodyWipe
  | credCard | credReplace | credRequest | credWipe | credRefresh | credStartUp
  | updateCard | updateWipe | updateStartUp
  | lifeCard | lifeMarker | lifeClaim | lifeClosing
  deriving DecidableEq, Repr

structure WriteRequest where
  write : Write
  answerTo : WriteTo
  deriving DecidableEq, Repr

/-- The pieces of work that send store writes and internal requests, each with a waiting place of its own (R38, R160). A block that
sends both keeps them apart, so that a request that waits at the measure unit holds back the block's further requests alone: the
names in `Ask` are those of the requests. The update unit's wipe order sends its writes and its events in one order (R89). -/
inductive Client
  | custody | custodyAsk | credential | credentialAsk | refresh | update | updateAsk | updateWipe
  | lifecycle | lifecycleAsk | census
  deriving DecidableEq, Repr

/-- What a sender does when the requests before it have been accepted (R34, R38). -/
inductive After
  | updateSettle (outcome : CardOutcome) (detail : Option Word32) (body : List OutByte)   -- R66, R85
  | trialLapsed                                                                           -- R83
  | updateWipeSent                                                                        -- R89
  | claimDone                                                                             -- R126 steps 3 and 4
  | releaseDone                                                                           -- R134 step 4
  | censusAttention                                                                       -- R152 step 4
  deriving DecidableEq, Repr

/-- A request that a sender has still to send, or what it does next (R38, R103, R160). -/
inductive Out
  | write (w : Write) (answerTo : WriteTo)
  | refresh (id : Fin 32)
  | request (r : MeasureRequest)
  | act (a : After)
  deriving DecidableEq, Repr

structure Outboxes where
  custody       : List Out
  custodyAsk    : List Out
  credential    : List Out
  credentialAsk : List Out
  refresh       : List Out
  update        : List Out
  updateAsk     : List Out
  updateWipe    : List Out
  lifecycle     : List Out
  lifecycleAsk  : List Out
  census        : List Out
  deriving DecidableEq, Repr

/-- The spare locations left and the locations retired (R159, R161). -/
structure LocationMap where
  spares  : Nat
  retired : List Loc
  deriving DecidableEq, Repr

structure Store where
  lifecycle    : Cells LifeRecord
  certificate  : Cells (List Byte)
  slots        : Vector (Cells KeyRecord) 32
  marks        : Vector (Cells Word32) 3
  creds        : Vector (Cells CredRecord) 32
  kinds        : Vector (Cells KindRecord) 8
  map          : LocationMap
  queue        : List WriteRequest
  waiting      : List Client
  startUpFault : Bool
  deriving DecidableEq, Repr

/-- How far start-up has got (R164): not begun since the reset, a step that waits for something (steps 3 and 4 with the writes still
awaited, step 5 with the held part events still to be served), or ended. -/
inductive StartUp
  | notBegun
  | step3 (outstanding : Nat)
  | step4 (outstanding : Nat)
  | step5
  | step6
  | step7
  | ended
  deriving DecidableEq, Repr

/-! ## The whole part -/

structure State where
  exch           : Exchange
  custody        : Custody
  measure        : Measure
  update         : Update
  credential     : Credential
  lifecycle      : Lifecycle
  hash           : HashEngine
  curve          : CurveEngine
  census         : Census
  pace           : Pace
  store          : Store
  startUp        : StartUp
  outboxes       : Outboxes
  measureWaiting : List Client
  powered        : Bool
  linkUp         : Bool
  resetLine      : Bool
  ownerLineLow   : Bool
  host           : List Host.Cell
  messages       : Nat
  free           : Nat
  pending        : List Instr
  deriving DecidableEq, Repr

/-! ## After power-up or platform reset, before start-up loads (R167) -/

def Exchange.reset : Exchange :=
  { area := .closed, base := 0#64, enable := false, ack := 0#32, tally := 0#32, takes := 0, cards := 0, expected := 1#16, cursor := none,
    fetcher := .stopped, nudge := false, reRead := false, mismatch := none, candidate := none, openAwait := none, buffers := [],
    settleList := [], closeRequested := false, attention := 0#9, takenTicket := 0#16, faultCode := 0#16, faultCard := 0#8 }

def Custody.reset : Custody :=
  { table := Vector.replicate 48 none, work := none, undo := none, held := [], service := none }

def Measure.reset : Measure :=
  { chains := Vector.replicate 12 0#256, closed := 0#11, records := [], missed := 0, truncated := false, quoteSeq := 0,
    starting := true, internal := [], service := none, work := none, paused := none }

/-- A kind record absent from the store (R158). -/
def KindRecord.fresh : KindRecord := { floor := 0, confirmed := none, trial := none }

def Update.reset : Update :=
  { marks := Vector.replicate 3 0#32, kinds := Vector.replicate 8 KindRecord.fresh, session := .idle, guardOn := false,
    work := none, wipe := .none, service := none }

def Credential.reset : Credential :=
  { table := Vector.replicate 32 none, work := none, held := [], service := none }

def WipeCounts.zero : WipeCounts :=
  { slots := 0, records := 0, trials := 0, slotsFailed := 0, recordsFailed := 0, trialsFailed := 0 }

def Trio.empty {α : Type} : Trio (Option α) := { custody := none, credential := none, update := none }

def Lifecycle.reset : Lifecycle :=
  { effective := .blank, marker := false, requested := .blank, pending := false, progress := .none, counts := WipeCounts.zero,
    presence := none, hold := 0, holdDue := false, certificate := none, work := none, claiming := false, notices := 0,
    reports := 0, answersSent := Trio.empty, answersTaken := Trio.empty }

def HashEngine.reset : HashEngine :=
  { running := none, measure := none, credential := none, custody := none, update := none, pointer := .update }

def CurveEngine.reset : CurveEngine :=
  { running := none, update := none, measure := none, custody := none, lifecycle := none, pointer := .lifecycle }

def Census.reset : Census :=
  { state := .doubt, run := none, a := 0#8, b := 0#8, r := 0#8, period := none, waiters := [], seed := 0#256 }

def Pace.reset : Pace := { tick := 0#32, decayDue := false, refreshDue := false }

def Outboxes.empty : Outboxes :=
  { custody := [], custodyAsk := [], credential := [], credentialAsk := [], refresh := [], update := [], updateAsk := [],
    updateWipe := [], lifecycle := [], lifecycleAsk := [], census := [] }

/-- The two locations of a record that has never been written. -/
def Cells.fresh {α : Type} (record : Nat) : Cells α :=
  { current := { loc := .home record false, copy := none }, alternate := some { loc := .home record true, copy := none } }

/-- The store of a part fresh from the factory: every record absent, 64 spares (R158, R161). Its 77 records are numbered here in the
order of R158's table. -/
def Store.fresh : Store :=
  { lifecycle := Cells.fresh 0, certificate := Cells.fresh 1,
    slots := Vector.ofFn fun i => Cells.fresh (2 + i.val), marks := Vector.ofFn fun i => Cells.fresh (34 + i.val),
    creds := Vector.ofFn fun i => Cells.fresh (37 + i.val), kinds := Vector.ofFn fun i => Cells.fresh (69 + i.val),
    map := { spares := 64, retired := [] }, queue := [], waiting := [], startUpFault := false }

/-- The part fresh from the factory, right after power-up and before start-up (R158, R167, R187). -/
def State.reset : State :=
  { exch := Exchange.reset, custody := Custody.reset, measure := Measure.reset, update := Update.reset,
    credential := Credential.reset, lifecycle := Lifecycle.reset, hash := HashEngine.reset, curve := CurveEngine.reset,
    census := Census.reset, pace := Pace.reset, store := Store.fresh, startUp := .notBegun, outboxes := Outboxes.empty,
    measureWaiting := [], powered := true, linkUp := true, resetLine := false, ownerLineLow := false, host := [], messages := 0, free := 0,
    pending := [] }

end Sys2Proof.Machine
end

