-- ==== Sys2Proof/Machine/Bytes.lean ====
section
/-! DEFINITION. Byte order and byte strings (R188), and the host's memory as the part sees it over DMA. -/
namespace Sys2Proof.Machine

/-- The `n` bytes of a number, least significant byte first (R188). -/
def leBytes (n v : Nat) : List Byte := (List.range n).map fun i => BitVec.ofNat 8 (v >>> (8 * i))

/-- The number that bytes spell, least significant byte first (R188). -/
def leNat : List Byte → Nat
  | [] => 0
  | b :: t => b.toNat + 256 * leNat t

/-- The number that bytes spell, most significant byte first: the order of each half of a public key or a signature (R188). -/
def bigNat (l : List Byte) : Nat := leNat l.reverse

/-- The bytes of a fixed-length byte string, in its own order. -/
def strBytes {w : Nat} (v : BitVec w) : List Byte := leBytes (w / 8) v.toNat

/-- The fixed-length byte string that bytes spell. -/
def strOf (w : Nat) (l : List Byte) : BitVec w := BitVec.ofNat w (leNat l)

/-- The 32 bytes of a private scalar, most significant byte first (R188). -/
def scalarBytes (k : Scalar) : List Byte := (strBytes k).reverse

/-- The private scalar that 32 bytes spell, most significant byte first (R188). -/
def scalarOfBytes (l : List Byte) : Scalar := strOf 256 l.reverse

/-- `n` bytes of a byte list from an offset; bytes beyond its end read 0. -/
def sliceBytes (l : List Byte) (off n : Nat) : List Byte := (List.range n).map fun i => l.getD (off + i) 0#8

/-- One byte holding a small number. -/
def byteOf (n : Nat) : Byte := BitVec.ofNat 8 n

/-- A flag field: 1 means set (R188). -/
def flagByte (b : Bool) : Byte := if b then 1#8 else 0#8

/-- A number as reply bytes. -/
def outNum (n v : Nat) : List OutByte := (leBytes n v).map some

/-- Bytes as reply bytes. -/
def outBytes (l : List Byte) : List OutByte := l.map some

/-- `n` reply bytes without a stated value. -/
def outOpen (n : Nat) : List OutByte := List.replicate n none

/-- A string in a field of `n` bytes: the string first, then bytes without a stated value (R188). -/
def outPadded (n : Nat) (l : List Byte) : List OutByte := outBytes l ++ outOpen (n - l.length)

/-- A present-or-absent value in a field of `n` bytes; the bytes have no stated value when it is absent. -/
def outOption (n : Nat) : Option Nat → List OutByte
  | none => outOpen n
  | some v => outNum n v

/-! ## Host memory -/

/-- Host memory: bytes by address, in one canonical form (`Memory.wf`). -/
abbrev Memory := List Host.Cell

/-- What an address that is not listed reads as (log entry 3). -/
def Memory.unlisted : Byte := 0#8

/-- One byte of host memory. -/
def Memory.read : Memory → Nat → Byte
  | [], _ => Memory.unlisted
  | (b, v) :: t, a => if b = a then v else Memory.read t a

/-- Store one byte, keeping the canonical form. -/
def Memory.write : Memory → Nat → Byte → Memory
  | [], a, v => if v = Memory.unlisted then [] else [(a, v)]
  | (b, w) :: t, a, v =>
    if a < b then (if v = Memory.unlisted then (b, w) :: t else (a, v) :: (b, w) :: t)
    else if a = b then (if v = Memory.unlisted then t else (a, v) :: t)
    else (b, w) :: Memory.write t a v

/-- The size of the host's address space: the address of an extent has 64 bits (R191). -/
def Memory.size : Nat := 2 ^ 64

/-- The canonical form above a lower bound: addresses strictly rising and in range, no entry equal to an unlisted byte. -/
def Memory.wfFrom : Nat → Memory → Bool
  | _, [] => true
  | lo, (a, v) :: t => decide (lo ≤ a) && decide (a < Memory.size) && decide (v ≠ Memory.unlisted) && Memory.wfFrom (a + 1) t

/-- The canonical form of host memory. -/
def Memory.wf (m : Memory) : Bool := Memory.wfFrom 0 m

/-- Read `n` bytes from an address up. R191 gives an extent any 64-bit address and does not say what an access past the last of them does:
the model goes on at address 0 (DESIGN CHOICE, log entry 64). -/
def Memory.readBytes (m : Memory) (a n : Nat) : List Byte := (List.range n).map fun i => m.read ((a + i) % Memory.size)

/-- Store bytes from an address up; past the last 64-bit address the model goes on at address 0 (DESIGN CHOICE, log entry 64). -/
def Memory.writeBytes : Memory → Nat → List Byte → Memory
  | m, _, [] => m
  | m, a, b :: t => Memory.writeBytes (m.write (a % Memory.size) b) (a + 1) t

/-- The bytes the host has stored are in place. -/
def Memory.hostStores : Memory → List Host.Cell → Memory
  | m, [] => m
  | m, (a, v) :: t => Memory.hostStores (m.write (a % Memory.size) v) t

end Sys2Proof.Machine
end

