-- ==== Sys2Proof/Machine/Flags.lean ====
section
/-! DEFINITION. The flag and code computations: the codes of R193, the key flags of R3 and R17, the debt arithmetic of R97 to R101,
the census band of R149, and what the register window reads (R169, R189). -/
namespace Sys2Proof.Machine

/-! ## Codes (R193) -/

def CardOutcome.code : CardOutcome → Nat
  | .done => 0x0000 | .matched => 0x0001 | .mismatch => 0x0002
  | .unknownCommand => 0x0101 | .badRequest => 0x0102
  | .wrongLifecycle => 0x0201 | .needsPresence => 0x0202 | .unbound => 0x0203
  | .slotEmpty => 0x0301 | .slotInUse => 0x0302 | .notPermitted => 0x0303
  | .spent => 0x0304 | .oneWay => 0x0305 | .entropy => 0x0306
  | .chainClosed => 0x0401 | .reservedChain => 0x0402
  | .badSignature => 0x0501 | .notAnAnchor => 0x0502 | .kindNotPermitted => 0x0503 | .badBlob => 0x0504
  | .noSession => 0x0505 | .sessionBusy => 0x0506 | .overrun => 0x0507 | .digestMismatch => 0x0508 | .notRunning => 0x0509
  | .rollback => 0x050A | .trialPending => 0x050B | .noTrial => 0x050C
  | .throttled => 0x0601 | .tooSoon => 0x0602 | .tableFull => 0x0603
  | .wiping => 0x0701 | .storeFault => 0x0702 | .linkFault => 0x0703 | .abandoned => 0x0704

def AreaState.code : AreaState → Nat
  | .closed => 0 | .opening => 1 | .opened => 2 | .draining => 3 | .abandoning => 4 | .faulted => 5

def LifecycleState.code : LifecycleState → Nat
  | .blank => 0 | .unclaimed => 1 | .claimed => 2

def CensusState.code : CensusState → Nat
  | .healthy => 0 | .doubt => 1 | .failed => 2

def KeyState.code : KeyState → Nat
  | .provisional => 1 | .live => 2 | .spent => 3

def KeyClass.code : KeyClass → Nat
  | .root => 1 | .identity => 2 | .delegate => 3 | .ownerAnchor => 4 | .owner => 5 | .platform => 6 | .session => 7

def KeyClass.ofCode : Nat → Option KeyClass
  | 1 => some .root | 2 => some .identity | 3 => some .delegate | 4 => some .ownerAnchor
  | 5 => some .owner | 6 => some .platform | 7 => some .session | _ => none

/-- The algorithms of R2. -/
inductive Algorithm
  | p256Sign | hmac256 | wrap256
  deriving DecidableEq, Repr

def Algorithm.code : Algorithm → Nat
  | .p256Sign => 1 | .hmac256 => 2 | .wrap256 => 3

def Algorithm.ofCode : Nat → Option Algorithm
  | 1 => some .p256Sign | 2 => some .hmac256 | 3 => some .wrap256 | _ => none

def KeyMaterial.algorithm : KeyMaterial → Algorithm
  | .p256 _ _ => .p256Sign | .hmac256 _ => .hmac256 | .wrap256 _ => .wrap256

def SignerClass.code : SignerClass → Nat
  | .root => 1 | .delegate => 2 | .owner => 3

def CredKind.code : CredKind → Nat
  | .admin => 1 | .releasable => 2 | .pairing => 3

def CredClass.code : CredClass → Nat
  | .factory => 1 | .owner => 2

def Session.code : Session → Nat
  | .idle => 0 | .opened _ => 1 | .checked _ => 2

def Progress.code : Progress → Nat
  | .none => 0 | .marking => 1 | .deferred => 2 | .wiping => 3 | .closing => 4 | .incomplete => 5

def LapseReason.code : LapseReason → Nat
  | .bootsExhausted => 1 | .ownerSignerRemoved => 2

/-- The fault codes of the header page (R191). -/
inductive FaultCode
  | none | badHeader | cardRead | cardWrite | linkLost
  deriving DecidableEq, Repr

def FaultCode.code : FaultCode → Nat
  | .none => 0 | .badHeader => 1 | .cardRead => 2 | .cardWrite => 3 | .linkLost => 4

/-- The unit that owns a command code (R177, R193). -/
def unitOf (code : Word16) : Option UnitName :=
  let n := code.toNat
  if 0x0101 ≤ n ∧ n ≤ 0x010A then some .custody
  else if 0x0201 ≤ n ∧ n ≤ 0x0205 then some .measure
  else if 0x0301 ≤ n ∧ n ≤ 0x0309 then some .update
  else if 0x0401 ≤ n ∧ n ≤ 0x0406 then some .credential
  else if 0x0501 ≤ n ∧ n ≤ 0x0509 then some .lifecycle
  else none

/-- The capacities of the unit queues (R177). -/
def UnitName.capacity : UnitName → Nat
  | .custody => 6 | .measure => 8 | .update => 4 | .credential => 4 | .lifecycle => 2

/-! ## Key flags (R3, R17, R193) -/

def KeyFlags.none : KeyFlags :=
  { sign := false, mac := false, wrap := false, exportable := false, needsPresence := false }

/-- The flags of a key flags byte. A card's bits 5 to 7 are refused by its form check (R190); those of a blob are ignored (DESIGN CHOICE,
log entry 13). -/
def KeyFlags.ofByte (b : Byte) : KeyFlags :=
  { sign := b.getLsbD 0, mac := b.getLsbD 1, wrap := b.getLsbD 2, exportable := b.getLsbD 3, needsPresence := b.getLsbD 4 }

def KeyFlags.toNat (f : KeyFlags) : Nat :=
  f.sign.toNat + 2 * f.mac.toNat + 4 * f.wrap.toNat + 8 * f.exportable.toNat + 16 * f.needsPresence.toNat

/-- Every capability set fits the algorithm (R3). -/
def KeyFlags.fits (f : KeyFlags) (a : Algorithm) : Bool :=
  (!f.sign || a == .p256Sign) && (!f.mac || a == .hmac256) && (!f.wrap || a == .wrap256)

/-- The flags the mask selects take their value from the request; the others stay (R17). -/
def KeyFlags.merge (cur mask value : KeyFlags) : KeyFlags :=
  { sign := if mask.sign then value.sign else cur.sign
    mac := if mask.mac then value.mac else cur.mac
    wrap := if mask.wrap then value.wrap else cur.wrap
    exportable := if mask.exportable then value.exportable else cur.exportable
    needsPresence := if mask.needsPresence then value.needsPresence else cur.needsPresence }

/-- A merge loosens when it sets a capability that is clear or clears NEEDS PRESENCE while it is set (R17). -/
def KeyFlags.loosens (cur new : KeyFlags) : Bool :=
  (new.sign && !cur.sign) || (new.mac && !cur.mac) || (new.wrap && !cur.wrap) || (new.exportable && !cur.exportable)
    || (cur.needsPresence && !new.needsPresence)

/-- The capability that a use needs (R11). -/
def KeyFlags.permits (f : KeyFlags) : KeyUse → Bool
  | .sign => f.sign | .mac => f.mac | .unwrap => f.wrap | .wrapping => f.wrap | .source => f.exportable

/-- A saturating count. -/
def satAdd (top n k : Nat) : Nat := min top (n + k)

/-- The slot record after one successful use (R12). -/
def KeyRecord.used (r : KeyRecord) : KeyRecord :=
  let limit := r.limit.map fun l => { l with remaining := l.remaining - 1 }
  { r with
    total := satAdd 4294967295 r.total 1
    limit := limit
    state := match limit with
      | some l => if l.remaining = 0 then .spent else .live
      | none => .live }

/-- A completion that is written to the store before the result: one that changes the state or the remaining count (R12). -/
def KeyRecord.useIsWritten (r : KeyRecord) : Bool := decide (r.state ≠ .live) || r.limit.isSome

/-! ## Debt arithmetic (R97 to R101) -/

/-- A policy raised to the lowest values of its ranges (R97). -/
def Policy.clamped (p : Policy) : Policy :=
  { charge := max p.charge 256, decay := max p.decay 32768, lock := max p.lock 4096 }

/-- The spacing of a debt, in pace ticks (R98). -/
def spacing (debt : Nat) : Nat := debt / 512

/-- The debt after a mismatch (R99). -/
def debtAfterMismatch (debt charge : Nat) : Nat := min 65535 (debt + charge)

/-- The debt after a match (R99). -/
def debtAfterMatch (debt : Nat) : Nat := debt / 4

/-- One decay step of a debt under a decay factor (R101). -/
def decayed (debt factor : Nat) : Nat :=
  let d := (debt * factor + 32768) / 65536
  if d = debt then debt - 1 else d

/-- Pace ticks passed since a tick count, modulo 2^32 (R155). -/
def elapsed (now since : Word32) : Nat := (now - since).toNat

/-- The ticks still to wait before a spacing is met (R98). -/
def ticksToWait (now last : Word32) (debt : Nat) : Nat := spacing debt - elapsed now last

/-- How an attempt is admitted (R98). -/
inductive Admission
  | throttled | tooSoon (wait : Nat) | admitted
  deriving DecidableEq, Repr

def admission (now : Word32) (debt lock : Nat) (last : Word32) : Admission :=
  if lock ≤ debt then .throttled
  else if elapsed now last < spacing debt then .tooSoon (ticksToWait now last debt)
  else .admitted

/-! ## The census band (R149) -/

/-- The three counts of a run are in band, and the window was not ended by the 4 ms bound (R149). -/
def censusPasses (a b r : Byte) (bounded : Bool) : Bool :=
  !bounded && decide (240 ≤ a.toNat) && decide (240 ≤ r.toNat) && decide (208 ≤ b.toNat) && decide (b.toNat ≤ 238)

/-- The state after a run (R150). -/
def CensusState.after (c : CensusState) (pass : Bool) : CensusState :=
  match c, pass with
  | .healthy, true => .healthy
  | .healthy, false => .doubt
  | .doubt, true => .healthy
  | .doubt, false => .failed
  | .failed, true => .doubt
  | .failed, false => .failed

/-- The limit of the period timer for the state a run left (R151). -/
def CensusState.period : CensusState → Nat
  | .healthy => 256 | .doubt => 256 | .failed => 16

/-! ## Attention bits (R181, R189) -/

inductive Attention
  | areaFault | chainMismatch | controlIgnored | storeFault | trialLapsed | censusFailed | recordsTruncated | releaseDone
  | presenceEnded
  deriving DecidableEq, Repr

def Attention.bit : Attention → BitVec 9
  | .areaFault => 1#9 | .chainMismatch => 2#9 | .controlIgnored => 4#9 | .storeFault => 8#9 | .trialLapsed => 16#9
  | .censusFailed => 32#9 | .recordsTruncated => 64#9 | .releaseDone => 128#9 | .presenceEnded => 256#9

/-! ## What the register window reads (R169, R189) -/

def Fetcher.isHeld : Fetcher → Bool
  | .heldForRoom _ => true
  | .heldByOrdered => true
  | .stopped => false
  | .waitingStartUp => false
  | .reading => false
  | .sleeping => false

/-- The items of STATUS at the positions of R189. -/
def State.status (s : State) : Word32 :=
  BitVec.ofNat 32
    (s.exch.area.code + 2 ^ 3 * s.exch.fetcher.isHeld.toNat + 2 ^ 4 * (decide (s.startUp ≠ .ended)).toNat
      + 2 ^ 5 * s.lifecycle.effective.code + 2 ^ 7 * s.lifecycle.requested.code + 2 ^ 9 * s.lifecycle.pending.toNat
      + 2 ^ 10 * s.census.state.code + 2 ^ 12 * s.lifecycle.presence.isSome.toNat
      + 2 ^ 31 * (decide (s.exch.attention ≠ 0#9)).toNat)

/-- What a read of the register window returns: zero while the reset line is asserted (R169), and the registers of R189. -/
def State.readRegister (s : State) (offset : BitVec 5) : Word32 :=
  if s.resetLine then 0#32
  else if offset = 0x00#5 then s.exch.base.setWidth 32 &&& 0xFFFFFF00#32
  else if offset = 0x04#5 then (s.exch.base >>> 32).setWidth 32
  else if offset = 0x08#5 then (if s.exch.enable then 0x100#32 else 0#32)
  else if offset = 0x10#5 then s.exch.ack
  else if offset = 0x14#5 then s.status
  else if offset = 0x18#5 then s.exch.attention.setWidth 32
  else 0#32

end Sys2Proof.Machine
end

