-- ==== Sys2Proof/Machine/Operands.lean ====
section
/-! DEFINITION. The operand forms: the fields of a card (R191, R194), the form check of every command with the field number of its
BAD REQUEST (R192), and the signed structures and bodies of R195. -/
namespace Sys2Proof.Machine

/-! ## The card head, the extents and the body (R191) -/

/-- One byte of a card. -/
def Card.byte (c : Card) (i : Nat) : Byte := c.bytes.getD i 0#8

/-- A number of `n` bytes at an offset of a card. -/
def Card.num16 (c : Card) (off n : Nat) : Nat := leNat (sliceBytes c.bytes off n)

/-- A number of `n` bytes at an offset of the request body, which begins at byte 16. -/
def Card.field (c : Card) (off n : Nat) : Nat := c.num16 (16 + off) n

/-- `n` bytes at an offset of the request body. -/
def Card.fieldBytes (c : Card) (off n : Nat) : List Byte := sliceBytes c.bytes (16 + off) n

/-- A fixed-length byte string of `w` bits at an offset of the request body. -/
def Card.fieldStr (c : Card) (off w : Nat) : BitVec w := strOf w (c.fieldBytes off (w / 8))

/-- The extent count of the head. -/
def Card.extentCount (c : Card) : Nat := (c.byte 6).toNat

/-- Extent `i`: its address and its length; extent `i` is at byte 176 − 16 × (extent count − i). -/
def Card.extent (c : Card) (i : Nat) : Word64 × Nat :=
  let at_ := 176 - 16 * (c.extentCount - i)
  (BitVec.ofNat 64 (c.num16 at_ 8), c.num16 (at_ + 8) 4)

/-- The length of extent `i`. -/
def Card.extentLength (c : Card) (i : Nat) : Nat := (c.extent i).2

/-- The address of extent `i`. -/
def Card.extentAddress (c : Card) (i : Nat) : Nat := (c.extent i).1.toNat

/-- All the card's extents as a byte source: index, address, length (R139). -/
def Card.extentSource (c : Card) : List (Nat × Word64 × Nat) :=
  (List.range c.extentCount).map fun i => (i, c.extent i)

/-- The total length of the card's extents (R75). -/
def Card.extentTotal (c : Card) : Nat := ((List.range c.extentCount).map c.extentLength).sum

/-! ## Form checks (R6, R96, R192) -/

/-- The number of the first check that fails. -/
def firstBad : List (Bool × Nat) → Option Nat
  | [] => none
  | (bad, n) :: t => if bad then some n else firstBad t

/-- Too few extents: the extent count is the offending field (R192). -/
def fewExtents (c : Card) (least : Nat) : Bool × Nat := (decide (c.extentCount < least), 0x101)

/-- An extent the command does not allow: the first one beyond the most allowed is the offending field (R192). -/
def extraExtents (c : Card) (most : Nat) : Bool × Nat := (decide (most < c.extentCount), 0x110 + most)

/-- Extent 0 is shorter than the command needs. -/
def shortExtent (c : Card) (least : Nat) : Bool × Nat := (decide (0 < c.extentCount ∧ c.extentLength 0 < least), 0x110)

/-- The exchange's own check of flags and extents, with the offending field (R175, R192). -/
def exchangeForm (c : Card) : Option Nat :=
  firstBad <|
    [(decide (c.byte 1 &&& 0xFE#8 ≠ 0#8), 0x100), (decide (8 < c.extentCount), 0x101)]
      ++ (List.range c.extentCount).map fun i =>
          (decide (c.extentLength i = 0 ∨ 16777216 < c.extentLength i), 0x110 + i)

/-- The ORDERED flag (R176, R191). -/
def Card.ordered (c : Card) : Bool := (c.byte 1).getLsbD 0

/-- A slot number as a table index (R2). -/
def slotIndex (n : Nat) : Option (Fin 48) := if h : n < 48 then some ⟨n, h⟩ else none

/-- A binding field of 36 bytes; `none` when its form is wrong (R6, R193). -/
def bindingOf (l : List Byte) : Option (Option Binding) :=
  match (l.getD 0 0#8).toNat with
  | 0 => some none
  | 1 =>
    let mask := leNat (sliceBytes l 2 2)
    if mask = 0 ∨ 4096 ≤ mask then none
    else some (some (.exactly (BitVec.ofNat 12 mask) (strOf 256 (sliceBytes l 4 32))))
  | 2 =>
    let kind := (l.getD 1 0#8).toNat
    let chain := (l.getD 2 0#8).toNat
    if hk : kind < 8 then
      if hc : chain < 11 then some (some (.acceptedImage ⟨kind, hk⟩ ⟨chain, hc⟩)) else none
    else none
  | _ => none

/-- A binding as a binding field; the bytes R193 does not name have no stated value. -/
def bindingField : Option Binding → List OutByte
  | none => outNum 1 0 ++ outOpen 35
  | some (.exactly mask composite) => outNum 1 1 ++ outOpen 1 ++ outNum 2 mask.toNat ++ outBytes (strBytes composite)
  | some (.acceptedImage kind chain) => outNum 1 2 ++ outNum 1 kind.val ++ outNum 1 chain.val ++ outOpen 33

/-- A limit field: a limit-present byte, then the use limit (R194). -/
def limitOf (present : Byte) (value : Nat) : Option UseLimit :=
  if present = 1#8 then some { limit := value, remaining := value } else none

/-! ### Custody commands (R194) -/

structure CreateFields where
  target : Fin 48
  cls    : KeyClass
  limit  : Option UseLimit
  label  : List Byte
  deriving DecidableEq, Repr

def classBad (n : Nat) : Bool := (KeyClass.ofCode n).isNone

/-- A key flags byte with a bit set that R193's enumeration table does not define: bits 5 to 7 (R190). -/
def flagsBad (b : Byte) : Bool := decide (32 ≤ b.toNat)

def keyGenerateForm (c : Card) : Option Nat :=
  firstBad [extraExtents c 0, (decide (47 < c.field 0 1), 1), (classBad (c.field 1 1), 2),
    ((Algorithm.ofCode (c.field 2 1)).isNone, 3), (flagsBad (c.byte 19), 4), (decide (c.byte 20 = 1#8 ∧ c.field 5 2 = 0), 5),
    (decide (16 < c.field 7 1), 6), ((bindingOf (c.fieldBytes 24 36)).isNone, 8)]

def keyGenerateFields (c : Card) : CreateFields :=
  { target := (slotIndex (c.field 0 1)).getD 0, cls := (KeyClass.ofCode (c.field 1 1)).getD .session,
    limit := limitOf (c.byte 20) (c.field 5 2), label := c.fieldBytes 8 (c.field 7 1) }

def keyGenerateAlgorithm (c : Card) : Algorithm := (Algorithm.ofCode (c.field 2 1)).getD .p256Sign

def keyGenerateFlags (c : Card) : KeyFlags := KeyFlags.ofByte (c.byte 19)

def keyGenerateBinding (c : Card) : Option Binding := (bindingOf (c.fieldBytes 24 36)).getD none

def keyImportForm (c : Card) : Option Nat :=
  firstBad [fewExtents c 1, extraExtents c 1, (decide (47 < c.field 0 1), 1), (decide (47 < c.field 1 1), 2),
    (classBad (c.field 2 1), 3), (decide (c.byte 19 = 1#8 ∧ c.field 4 2 = 0), 4), (decide (16 < c.field 6 1), 5)]

def keyImportFields (c : Card) : CreateFields :=
  { target := (slotIndex (c.field 0 1)).getD 0, cls := (KeyClass.ofCode (c.field 2 1)).getD .session,
    limit := limitOf (c.byte 19) (c.field 4 2), label := c.fieldBytes 7 (c.field 6 1) }

/-- The slot a card names in body byte `off`. -/
def Card.slot (c : Card) (off : Nat) : Fin 48 := (slotIndex (c.field off 1)).getD 0

def keySignForm (c : Card) : Option Nat :=
  firstBad [extraExtents c 0, (decide (47 < c.field 0 1), 1), (decide (c.field 1 1 ≠ 32), 2)]

def keyMacForm (c : Card) : Option Nat :=
  firstBad [fewExtents c 1, extraExtents c 8, (decide (47 < c.field 0 1), 1)]

/-- The form of a KEY WRAP OUT, with check 1 of R15: the two slots are the same, or the extent is shorter than a blob. -/
def keyWrapOutForm (c : Card) : Option Nat :=
  firstBad [fewExtents c 1, shortExtent c 163, extraExtents c 1, (decide (47 < c.field 0 1), 1), (decide (47 < c.field 1 1), 2),
    (decide (c.slot 0 = c.slot 1), 2)]

def keySlotForm (c : Card) : Option Nat := firstBad [extraExtents c 0, (decide (47 < c.field 0 1), 1)]

/-- The form of a KEY SET ATTRIBUTES: its mask and its value are key flags bytes (R17, R190). -/
def keySetForm (c : Card) : Option Nat :=
  firstBad [extraExtents c 0, (decide (47 < c.field 0 1), 1), (flagsBad (c.byte 17), 2), (flagsBad (c.byte 18), 3)]

def keyDescribeForm (c : Card) : Option Nat :=
  firstBad [shortExtent c 64, extraExtents c 1, (decide (47 < c.field 0 1), 1)]

def drawRandomForm (c : Card) : Option Nat :=
  firstBad [extraExtents c 0, (decide (c.field 0 1 = 0 ∨ 64 < c.field 0 1), 1)]

/-! ### Measure commands -/

/-- A chain number 0 to 10. -/
def hostChain (n : Nat) : Option (Fin 11) := if h : n < 11 then some ⟨n, h⟩ else none

def extendForm (c : Card) : Option Nat :=
  firstBad [extraExtents c 0, (decide (11 < c.field 0 1), 1), (decide (0xF000 ≤ c.field 1 2 ∧ c.field 1 2 ≤ 0xF0FF), 2)]

def closeChainForm (c : Card) : Option Nat := firstBad [extraExtents c 0, (decide (11 < c.field 0 1), 1)]

/-- The chains a mask selects, in ascending order (R36). -/
def maskChains (mask : BitVec 12) : List (Fin 12) := (List.finRange 12).filter fun i => mask.getLsbD i.val

def Card.mask (c : Card) (off : Nat) : BitVec 12 := BitVec.ofNat 12 (c.field off 2)

def readChainsForm (c : Card) : Option Nat :=
  firstBad [fewExtents c 1, extraExtents c 1, (decide (c.field 0 2 = 0 ∨ 4096 ≤ c.field 0 2), 1),
    shortExtent c (32 * (maskChains (c.mask 0)).length)]

def readRecordsForm (c : Card) : Option Nat :=
  firstBad [fewExtents c 1, shortExtent c 40, extraExtents c 1, (decide (95 < c.field 0 1), 1),
    (decide (c.field 1 1 = 0 ∨ 96 < c.field 1 1), 2)]

/-- The records-included flag of a QUOTE (R51, R194). -/
def quoteRecords (c : Card) : Bool := decide (c.byte 50 = 1#8)

def quoteForm (c : Card) : Option Nat :=
  firstBad [fewExtents c 1, extraExtents c 1, (decide (4096 ≤ c.field 32 2), 2),
    (quoteRecords c && decide (95 < c.field 35 1), 4), (quoteRecords c && decide (c.field 36 1 = 0 ∨ 96 < c.field 36 1), 5)]

/-! ### Update commands -/

/-- A delegate slot, 2 to 4 (R1). -/
def isDelegateSlot (slot : Nat) : Bool := decide (2 ≤ slot) && decide (slot ≤ 4)

/-- The form of an ANCHOR INSTALL, checked before the signature (R64, R66, R196; log entry 74). -/
def anchorInstallForm (c : Card) : Option Nat :=
  let slot := c.field 0 1
  firstBad <| extraExtents c 0 ::
    if slot = 5 then [(decide (c.field 65 1 = 0), 3)]
    else [(!isDelegateSlot slot, 1), (decide (c.field 1 2 ≠ 1), 2), (decide (c.field 3 1 ≠ slot), 3),
      (decide (c.field 68 1 = 0), 5)]

/-- The form of an ANCHOR REMOVE, checked before the signature (R67, R68, R196; log entry 74). -/
def anchorRemoveForm (c : Card) : Option Nat :=
  let slot := c.field 0 1
  firstBad <| extraExtents c 0 ::
    if slot = 5 then []
    else [(!isDelegateSlot slot, 1), (decide (c.field 1 2 ≠ 2), 2), (decide (c.field 3 1 ≠ slot), 3)]

/-- The bytes a signature covers: those from `off` that precede it (R196). -/
def Card.signedBytes (c : Card) (off n : Nat) : List Byte := c.fieldBytes off n

/-- The form of an UPDATE OPEN, checked before the signature (R73, R196; log entry 74). -/
def updateOpenForm (c : Card) : Option Nat :=
  firstBad [extraExtents c 0, (decide (7 < c.field 0 1), 1), (decide (c.field 5 4 = 0 ∨ 268435456 < c.field 5 4), 3),
    (decide (47 < c.field 41 1), 5)]

/-- The image kind a card names in body byte 0. -/
def Card.kind (c : Card) : Fin 8 := ⟨c.field 0 1 % 8, Nat.mod_lt _ (by decide)⟩

def feedForm (c : Card) : Option Nat := firstBad [fewExtents c 1, extraExtents c 8]

def noFieldsForm (c : Card) : Option Nat := firstBad [extraExtents c 0]

def updateConfirmForm (c : Card) : Option Nat :=
  firstBad [extraExtents c 0, (decide (7 < c.field 0 1), 1), (decide (10 < c.field 1 1), 2)]

def updateRevertForm (c : Card) : Option Nat := firstBad [extraExtents c 0, (decide (7 < c.field 0 1), 1)]

/-- The length of the BOOT ADVICE output (R195). -/
def adviceLength : Nat := 632

def bootAdviceForm (c : Card) : Option Nat := firstBad [fewExtents c 1, shortExtent c adviceLength, extraExtents c 1]

/-! ### Credential commands -/

structure EnrolFields where
  kind    : CredKind
  policy  : Policy
  secret  : List Byte
  pairing : List Byte
  label   : List Byte
  binding : Option Binding
  deriving DecidableEq, Repr

/-- The binding-present flag of CRED ENROLL's head parameter area. -/
def enrolHasBinding (c : Card) : Bool := decide (c.byte 15 = 1#8)

/-- Where the packed binding of a CRED ENROLL begins in the body. -/
def enrolBindingAt (c : Card) : Nat := 3 + c.field 0 1 + c.field 1 1 + c.field 2 1

def enrolEnd (c : Card) : Nat := enrolBindingAt c + (if enrolHasBinding c then 36 else 0)

/-- The form of a CRED ENROLL (R96, R107). A binding that is present and of kind none is refused as a binding whose form is wrong: R107
does not say whether it is no binding or an error (DESIGN CHOICE, log entry 47). -/
def credEnrollForm (c : Card) : Option Nat :=
  firstBad [extraExtents c 0, (decide (c.byte 8 ≠ 1#8 ∧ c.byte 8 ≠ 2#8), 1), (enrolHasBinding c && decide (c.byte 8 = 1#8), 5),
    (decide (c.field 0 1 = 0 ∨ 64 < c.field 0 1), 6), (decide (64 < c.field 1 1), 7), (decide (24 < c.field 2 1), 8),
    (enrolHasBinding c && ((bindingOf (c.fieldBytes (enrolBindingAt c) 36)).getD none).isNone, 12),
    (decide (160 < enrolEnd c), 12)]

def credEnrollFields (c : Card) : EnrolFields :=
  { kind := if c.byte 8 = 1#8 then .admin else .releasable
    policy := { charge := c.num16 9 2, decay := c.num16 11 2, lock := c.num16 13 2 }
    secret := c.fieldBytes 3 (c.field 0 1)
    pairing := c.fieldBytes (3 + c.field 0 1) (c.field 1 1)
    label := c.fieldBytes (3 + c.field 0 1 + c.field 1 1) (c.field 2 1)
    binding := if enrolHasBinding c then (bindingOf (c.fieldBytes (enrolBindingAt c) 36)).getD none else none }

/-- The place an id names: id n is place n − 1 of the vector. -/
def Card.place (c : Card) : Fin 32 := ⟨(c.field 0 1 - 1) % 32, Nat.mod_lt _ (by decide)⟩

def idBad (c : Card) : Bool × Nat := (decide (c.field 0 1 = 0 ∨ 32 < c.field 0 1), 1)

def credVerifyForm (c : Card) : Option Nat :=
  firstBad [extraExtents c 0, idBad c, (decide (c.field 1 1 = 0 ∨ 64 < c.field 1 1), 2)]

def credIdForm (c : Card) : Option Nat := firstBad [extraExtents c 0, idBad c]

def credReplaceForm (c : Card) : Option Nat :=
  firstBad [extraExtents c 0, idBad c, (decide (c.field 1 1 = 0 ∨ 64 < c.field 1 1), 2), (decide (64 < c.field 2 1), 3)]

/-! ### Lifecycle commands -/

def factoryCertificateForm (c : Card) : Option Nat :=
  firstBad [fewExtents c 1, (decide (0 < c.extentCount ∧ 512 < c.extentLength 0), 0x110), extraExtents c 1]

def factoryPairingForm (c : Card) : Option Nat :=
  firstBad [extraExtents c 0, (decide (c.field 0 1 = 0 ∨ 64 < c.field 0 1), 1), (decide (24 < c.field 65 1), 3)]

def oneExtentForm (c : Card) : Option Nat := firstBad [fewExtents c 1, extraExtents c 1]

/-! ## Records and signed structures (R195) -/

/-- A record list entry, 40 bytes. -/
def recordEntry (r : Record) : List OutByte :=
  outNum 4 r.seq ++ outNum 1 r.chain.val ++ outOpen 1 ++ outNum 2 r.event.toNat ++ outBytes (strBytes r.digest)

def PartEvent.code : PartEvent → Word16
  | .updateConfirmed _ _ _ _ => 0xF001#16
  | .updateLapsed _ _ _ => 0xF002#16
  | .ownerAnchorInstalled => 0xF003#16
  | .ownershipClaimed => 0xF010#16
  | .ownershipReleased => 0xF011#16
  | .censusFailed => 0xF020#16

/-- The parameter record of a part event (R34, R195). -/
def PartEvent.parameters (e : PartEvent) : List Byte :=
  leBytes 2 e.code.toNat ++
    match e with
    | .updateConfirmed kind version signer below =>
      leBytes 1 kind.val ++ leBytes 4 version ++ leBytes 1 signer.code ++ [flagByte below]
    | .updateLapsed kind version reason => leBytes 1 kind.val ++ leBytes 4 version ++ leBytes 1 reason.code
    | .ownerAnchorInstalled => []
    | .ownershipClaimed => []
    | .ownershipReleased => []
    | .censusFailed => []

/-- The composite digest input of a mask over a set of chain values (R36, R195). -/
def compositeInput (mask : BitVec 12) (chains : Vector Digest 12) : List Byte :=
  leBytes 2 mask.toNat ++ (maskChains mask).flatMap fun i => strBytes (chains.get i)

/-- An extension's input: the old value, then the digest (R28). -/
def extendInput (old digest : Digest) : List Byte := strBytes old ++ strBytes digest

/-- The value a chain takes when it is extended once from zero with a digest (R43, R84). -/
def candidateInput (digest : Digest) : List Byte := extendInput 0#256 digest

/-- A BOOT ADVICE entry, 79 bytes (R87, R195). -/
def adviceEntry (k : KindRecord) : List Byte :=
  leBytes 4 k.floor
    ++ (match k.confirmed with
        | some c => [flagByte true] ++ leBytes 4 c.version ++ strBytes c.digest
        | none => [flagByte false] ++ leBytes 36 0)
    ++ (match k.trial with
        | some t => [flagByte true] ++ leBytes 4 t.version ++ strBytes t.digest ++ leBytes 1 t.boots
        | none => [flagByte false] ++ leBytes 37 0)

/-- The kind element of a quote, 15 bytes (R56, R195). -/
def kindElement (k : KindRecord) : List OutByte :=
  outNum 4 k.floor
    ++ (match k.confirmed with
        | some c => outNum 1 1 ++ outNum 4 c.version ++ outNum 1 c.signer.code
        | none => outNum 1 0 ++ outNum 4 0 ++ outNum 1 0)
    ++ (match k.trial with
        | some t => outNum 1 1 ++ outNum 4 t.version
        | none => outNum 1 0 ++ outNum 4 0)

/-- The key material of a blob, 96 bytes (R195); the scalar is stored most significant byte first (R188). -/
def materialBytes : KeyMaterial → List Byte
  | .p256 scalar pub => scalarBytes (scalar.getD 0#256) ++ strBytes pub
  | .hmac256 secret => strBytes secret ++ leBytes 64 0
  | .wrap256 secret => strBytes secret ++ leBytes 64 0

/-- The plaintext of a wrapped-key blob, 135 bytes (R195). -/
def blobPlaintext (r : KeyRecord) : List OutByte :=
  outNum 1 1 ++ outNum 1 r.material.algorithm.code ++ outNum 1 r.flags.toNat ++ bindingField r.binding
    ++ outBytes (materialBytes r.material)

/-- What a wrapped-key blob holds of a key (R9). -/
structure BlobContents where
  flags    : KeyFlags
  binding  : Option Binding
  material : KeyMaterial
  deriving DecidableEq, Repr

/-- The opened contents of a blob; `none` when they are refused BAD BLOB (R9 step 4). -/
def blobContents (l : List Byte) : Option BlobContents :=
  let flags := KeyFlags.ofByte (l.getD 2 0#8)
  match Algorithm.ofCode (l.getD 1 0#8).toNat, bindingOf (sliceBytes l 3 36) with
  | some alg, some binding =>
    if l.getD 0 0#8 ≠ 1#8 ∨ flags.fits alg = false then none
    else
      let secret : Key256 := strOf 256 (sliceBytes l 39 32)
      some { flags := flags, binding := binding
             material := match alg with
               | .p256Sign => .p256 (some (scalarOfBytes (sliceBytes l 39 32))) (strOf 512 (sliceBytes l 71 64))
               | .hmac256 => .hmac256 secret
               | .wrap256 => .wrap256 secret }
  | _, _ => none

end Sys2Proof.Machine
end

