-- ==== Sys2Proof/Machine/Crypto.lean ====
section
/-! DEFINITION. The part's own use of the fixed functions: the wrap cipher and seal paths (AES-256-GCM), the verifier of a
credential, and draws from the random generator (R94, R154, R195). -/
namespace Sys2Proof.Machine

/-- The bytes of a text under the counter-mode key stream, from position `i` (log entry 4). -/
def gcmXor (key : Key256) (nonce : Nonce) : Nat → List Byte → List Byte
  | _, [] => []
  | i, b :: t => (b ^^^ Config.gcmStream key nonce i) :: gcmXor key nonce (i + 1) t

/-- AES-256-GCM sealing: the ciphertext and the tag. -/
def gcmSeal (key : Key256) (nonce : Nonce) (text : List Byte) : List Byte × Tag :=
  let cipher := gcmXor key nonce 0 text
  (cipher, Config.gcmTag key nonce cipher)

/-- AES-256-GCM opening: `none` when the tag does not verify. -/
def gcmOpen (key : Key256) (nonce : Nonce) (cipher : List Byte) (tag : Tag) : Option (List Byte) :=
  if tag = Config.gcmTag key nonce cipher then some (gcmXor key nonce 0 cipher) else none

/-- The input of a verifier's HMAC job: the salt followed by the secret (R94). -/
def verifierInput (salt : Salt) (secret : List Byte) : List Byte := strBytes salt ++ secret

/-- The secret sealed under the internal credential key (R92, R94). -/
def sealSecret (nonce : Nonce) (secret : List Byte) : SealedSecret :=
  { nonce := nonce, cipher := (gcmSeal Config.credentialKey nonce secret).1
    tag := (gcmSeal Config.credentialKey nonce secret).2 }

/-- The secret of a sealed copy (R110). -/
def openSecret (x : SealedSecret) : List Byte := (gcmOpen Config.credentialKey x.nonce x.cipher x.tag).getD []

/-- The wrapped-key blob of a plaintext: nonce, ciphertext, tag (R195). -/
def sealBlob (key : Key256) (nonce : Nonce) (text : List Byte) : List Byte :=
  strBytes nonce ++ (gcmSeal key nonce text).1 ++ strBytes (gcmSeal key nonce text).2

/-- The plaintext of a wrapped-key blob of 163 bytes; `none` when its tag does not verify (R9, R196). -/
def openBlob (key : Key256) (blob : List Byte) : Option (List Byte) :=
  gcmOpen key (strOf 96 (sliceBytes blob 0 12)) (sliceBytes blob 12 135) (strOf 128 (sliceBytes blob 147 16))

/-- The secret of a WRAP256 key; other keys have no wrap key and never pass the use check with WRAP (R3, R11). -/
def KeyMaterial.wrapKey : KeyMaterial → Key256
  | .wrap256 k => k
  | .hmac256 _ => 0#256
  | .p256 _ _ => 0#256

/-- The secret of an HMAC256 key. -/
def KeyMaterial.macKey : KeyMaterial → Key256
  | .hmac256 k => k
  | .wrap256 _ => 0#256
  | .p256 _ _ => 0#256

/-- The private scalar of a key pair. -/
def KeyMaterial.scalar : KeyMaterial → Option Scalar
  | .p256 scalar _ => scalar
  | .hmac256 _ => none
  | .wrap256 _ => none

/-- The public key of a key pair or an anchor. -/
def KeyMaterial.publicKey : KeyMaterial → Option PublicKey
  | .p256 _ pub => some pub
  | .hmac256 _ => none
  | .wrap256 _ => none

/-- A private scalar is in range: not zero, and below the order of the curve (R145). -/
def scalarInRange (k : Scalar) : Bool := decide (k ≠ 0#256) && decide (k.toNat < Config.curveOrder)

/-- One of the two 32-byte halves of a public key or a signature, as the number it spells (R188). -/
def halfOf (v : BitVec 512) (i : Nat) : Nat := bigNat (sliceBytes (strBytes v) (32 * i) 32)

/-- A public key is a point of the curve P-256: both coordinates below the prime, and y² = x³ − 3x + b over the field (R144; the curve's
constants are the standard's, log entry 66). -/
def onCurve (pub : PublicKey) : Bool :=
  let x := halfOf pub 0
  let y := halfOf pub 1
  decide (x < Config.curvePrime) && decide (y < Config.curvePrime)
    && decide ((y * y + 3 * x) % Config.curvePrime = (x * x * x + Config.curveConstant) % Config.curvePrime)

/-- A half of a signature is in the range that a P-256 signature can take: from 1 up to, and without, the order of the curve (R144; the
range is the standard's, log entry 66). -/
def halfInRange (n : Nat) : Bool := decide (0 < n) && decide (n < Config.curveOrder)

/-- The answer of a verify: invalid for a key that is no point of the curve, for a half of the signature out of range, and for a signature
that does not verify over the digest (R144). -/
def verifySignature (pub : PublicKey) (digest : Digest) (sig : Signature) : Bool :=
  onCurve pub && halfInRange (halfOf sig 0) && halfInRange (halfOf sig 1) && Config.ecdsaVerify pub digest sig

/-- The first candidate in range, counting on from `n`; after the tries given, a free value in range (R145, log entry 20). -/
def scalarSearch (seed : Key256) : Nat → Nat → Scalar
  | 0, _ => BitVec.ofNat 256 (1 + Config.lateCandidate seed % (Config.curveOrder - 1))
  | tries + 1, n =>
    if scalarInRange (Config.scalarCandidate seed n) then Config.scalarCandidate seed n else scalarSearch seed tries (n + 1)

/-- The private scalar the curve engine derives from a seed: the first of its candidates that is in range (R145). -/
def scalarOfSeed (seed : Key256) : Scalar := scalarSearch seed 64 0

/-- The `n` bytes a draw yields from a seed state (R154). -/
def drawnBytes (seed : Key256) (n : Nat) : List Byte := (List.range n).map (Config.drawByte seed)

/-- The part after a draw of `n` bytes: the seed state has moved past them (R154). -/
def State.afterDraw (n : Nat) (s : State) : State :=
  { s with census := { s.census with seed := Config.drawAdvance s.census.seed n } }

/-- `n` bytes from the random generator, as the next draw yields them. -/
def State.drawn (s : State) (n : Nat) : List Byte := drawnBytes s.census.seed n

end Sys2Proof.Machine
end

