-- ==== Sys2Proof/Machine/Ops.lean ====
section
/-! DEFINITION. The named operations over the part's state: free values, the key table, attention and the interrupt, the handing
back of a card, the area's faults, the two engines, the store's writes, the requests that blocks send to one another, and
presence. Every meaning is written over them. -/
namespace Sys2Proof.Machine

/-! ## Reading and writing tables -/

/-- Entry `i` of a table. -/
def tableGet {α : Type} {n : Nat} (v : Vector α n) (i : Fin n) : α := v[i.val]

/-- A table with entry `i` replaced. -/
def tableSet {α : Type} {n : Nat} (v : Vector α n) (i : Fin n) (x : α) : Vector α n := v.set i.val x

/-- The record of a slot; `none` for EMPTY. -/
def State.slot (s : State) (i : Fin 48) : Option KeyRecord := tableGet s.custody.table i

def State.setSlot (i : Fin 48) (r : Option KeyRecord) (s : State) : State :=
  { s with custody := { s.custody with table := tableSet s.custody.table i r } }

def State.kindRecord (s : State) (k : Fin 8) : KindRecord := tableGet s.update.kinds k

def State.setKind (k : Fin 8) (r : KindRecord) (s : State) : State :=
  { s with update := { s.update with kinds := tableSet s.update.kinds k r } }

def State.mark (s : State) (i : Fin 3) : Word32 := tableGet s.update.marks i

def State.setMark (i : Fin 3) (v : Word32) (s : State) : State :=
  { s with update := { s.update with marks := tableSet s.update.marks i v } }

def State.cred (s : State) (i : Fin 32) : Option CredEntry := tableGet s.credential.table i

def State.setCred (i : Fin 32) (e : Option CredEntry) (s : State) : State :=
  { s with credential := { s.credential with table := tableSet s.credential.table i e } }

def State.chain (s : State) (c : Fin 12) : Digest := tableGet s.measure.chains c

/-- Whether presence is open (R127). -/
def State.presenceOpen (s : State) : Bool := s.lifecycle.presence.isSome

/-- Whether the part has its supply and a register access can reach it: the link is up and the reset line is not asserted (R169,
R186). -/
def State.reachable (s : State) : Bool := s.powered && s.linkUp && !s.resetLine

/-- Nothing happens in a part without supply. -/
def State.whenPowered (f : State → State) (s : State) : State := if s.powered then f s else s

/-! ## The numbers of the store's records, in the order of R158's table -/

def lifecycleRecord : Nat := 0

def markRecord (i : Fin 3) : Nat := 34 + i.val

def credRecord (i : Fin 32) : Nat := 37 + i.val

/-! ## Free values -/

/-- Bytes with the ones that have no stated value filled in from the free values. -/
def fillOpen : Nat → List OutByte → List Byte
  | _, [] => []
  | n, some b :: t => b :: fillOpen n t
  | n, none :: t => Config.freeByte n :: fillOpen (n + 1) t

/-- How many free values a byte list takes. -/
def countOpen : List OutByte → Nat
  | [] => 0
  | some _ :: t => countOpen t
  | none :: t => countOpen t + 1

def State.filled (s : State) (l : List OutByte) : List Byte := fillOpen s.free l

def State.afterFill (l : List OutByte) (s : State) : State := { s with free := s.free + countOpen l }

/-- The detail word of a reply: the stated one, or a free value. -/
def State.detailWord (s : State) : Option Word32 → Word32
  | some w => w
  | none => Config.freeWord s.free

def State.afterDetail : Option Word32 → State → State
  | some _, s => s
  | none, s => { s with free := s.free + 1 }

/-! ## Attention and the interrupt (R180, R181) -/

/-- One interrupt message, when the enable is set and the link is up (R180). -/
def State.sendMessage (s : State) : State :=
  if s.exch.enable && s.linkUp then { s with messages := s.messages + 1 } else s

/-- A request to set an attention bit; a message when the bits go from none set to some set (R180, R181). -/
def State.ask (a : Attention) (s : State) : State :=
  let s' := { s with exch := { s.exch with attention := s.exch.attention ||| a.bit } }
  if s.exch.attention = 0#9 then s'.sendMessage else s'

/-- The store's request for STORE FAULT: held back until start-up has ended (R161, R165). -/
def State.askStoreFault (s : State) : State :=
  if s.resetLine || decide (s.startUp ≠ .ended) then { s with store := { s.store with startUpFault := true } }
  else s.ask .storeFault

/-! ## Host memory over DMA (R171, R174, R179) -/

/-- The host's stores since the last read are in place. -/
def State.hostStores (h : HostWrites) (s : State) : State := { s with host := Memory.hostStores s.host h }

/-- The address of byte `off` of a page of the area; a page that would stand past the last 64-bit address wraps to address 0 (DESIGN CHOICE,
log entry 64). -/
def State.pageAddress (s : State) (page off : Nat) : Nat := (s.exch.base.toNat + 256 * page + off) % Memory.size

def State.readPage (s : State) (page off n : Nat) : List Byte := Memory.readBytes s.host (s.pageAddress page off) n

def State.writePage (page off : Nat) (l : List Byte) (s : State) : State :=
  { s with host := Memory.writeBytes s.host (s.pageAddress page off) l }

def State.writeHost (addr : Nat) (l : List Byte) (s : State) : State := { s with host := Memory.writeBytes s.host addr l }

/-- The write of an output to a card's extent has ended: whole when it succeeded, and otherwise with as many bytes as were written before
the access failed (R47, R50, R58, R60, log entry 9). -/
def State.writeOutput (card : Card) (ok : Bool) (written : Nat) (l : List Byte) (s : State) : State :=
  s.writeHost (card.extentAddress 0) (if ok then l else l.take written)

/-! ## Buffers and the area -/

/-- The buffers whose cards hold a place in a unit's queue (R178). -/
def State.queueOf (s : State) (u : UnitName) : List Buffer := s.exch.buffers.filter fun b => b.unit == some u

/-- The command code of UPDATE FEED. -/
def feedCode : Word16 := 0x0304#16

/-- Whether an UPDATE FEED card is in the update queue (R79). -/
def State.feedQueued (s : State) : Bool := (s.queueOf .update).any fun b => b.card.code == feedCode

/-- A feed has left the update queue: the idle timer of an OPEN session restarts (R79). -/
def State.restartIdle (s : State) : State :=
  match s.update.session with
  | .opened c => { s with update := { s.update with session := .opened { c with idleStart := s.pace.tick } } }
  | .idle => s
  | .checked _ => s

/-- Whether a buffer holds a card: the one taken by the same take (R178). -/
def Buffer.holds (b : Buffer) (card : Card) : Bool := b.card.take == card.take

/-- A card's buffer is freed, and its queue place with it (R178, R179). -/
def State.freeBuffer (card : Card) (s : State) : State :=
  let leaving := s.exch.buffers.any fun b => b.holds card && b.unit == some .update && b.card.code == feedCode
  let s := { s with exch := { s.exch with buffers := s.exch.buffers.filter fun b => !b.holds card } }
  if leaving then s.restartIdle else s

/-- The area is CLOSED (R182, R183, R185). -/
def State.closeArea (s : State) : State := { s with exch := { s.exch with area := .closed, closeRequested := false } }

/-- The part hands a card back: it joins the settle list; in FAULTED its outcome is discarded and its buffer freed, and the last one
completes a requested close (R179, R184, R185). -/
def State.handBack (card : Card) (o : CardOutcome) (detail : Option Word32) (body : List OutByte) (s : State) : State :=
  if s.exch.area = .faulted then
    let s := s.freeBuffer card
    if s.exch.closeRequested && s.exch.buffers.isEmpty then s.closeArea else s
  else
    let entry : Settlement := { card := card, outcome := o, detail := s.detailWord detail
                                body := (s.afterDetail detail).filled body }
    let s := (s.afterDetail detail).afterFill body
    { s with exch := { s.exch with
        settleList := s.exch.settleList ++ [entry]
        buffers := s.exch.buffers.map fun b => if b.card.take = card.take then { b with phase := .handedBack } else b } }

/-- The first card of a unit's queue that has not begun (R178). -/
def State.nextCard (s : State) (u : UnitName) : Option Card :=
  ((s.queueOf u).find? fun b => b.phase == .waiting).map (·.card)

/-- The card is in work (R178). -/
def State.beginCard (card : Card) (s : State) : State :=
  { s with exch := { s.exch with
      buffers := s.exch.buffers.map fun b => if b.card.take = card.take then { b with phase := .begun } else b } }

/-- The fetcher stops, and the nudge latch is cleared (R172). -/
def State.stopFetcher (s : State) : State :=
  { s with exch := { s.exch with fetcher := .stopped, nudge := false, reRead := false, candidate := none, openAwait := none } }

/-- Whether the area can enter FAULTED (R184). -/
def AreaState.isActive : AreaState → Bool
  | .closed => false
  | .opening => true
  | .opened => true
  | .draining => true
  | .abandoning => true
  | .faulted => false

/-- Entry into FAULTED (R184): the fetcher stops, AREA FAULT is asked for, the fault code and fault card are recorded and, unless the
link is lost or that write fails, written to the header page; the settle list is discarded with its buffers. -/
def State.enterFaulted (code : FaultCode) (card : Nat) (headerWritten : Bool) (s : State) : State :=
  if s.exch.area.isActive then
    let s := s.stopFetcher
    let s := { s with exch := { s.exch with
      area := .faulted, closeRequested := false, faultCode := BitVec.ofNat 16 code.code, faultCard := byteOf card } }
    let s := s.ask .areaFault
    let s := if headerWritten && s.linkUp && decide (code ≠ .linkLost)
      then s.writePage 0 14 (leBytes 2 code.code ++ leBytes 1 card) else s
    let discarded := s.exch.settleList.map (·.card)
    let s := { s with exch := { s.exch with settleList := [] } }
    discarded.foldl (fun s c => s.freeBuffer c) s
  else s

/-! ## The hash engine (R138 to R143) -/

def HashEngine.waiting (e : HashEngine) : HashClient → Option HashJob
  | .measure => e.measure | .credential => e.credential | .custody => e.custody | .update => e.update

def HashEngine.setWaiting (e : HashEngine) (c : HashClient) (j : Option HashJob) : HashEngine :=
  match c with
  | .measure => { e with measure := j }
  | .credential => { e with credential := j }
  | .custody => { e with custody := j }
  | .update => { e with update := j }

/-- The rotation measure, credential, custody, update, from the requester after the one named (R141). -/
def HashClient.rotation : HashClient → List HashClient
  | .measure => [.credential, .custody, .update, .measure]
  | .credential => [.custody, .update, .measure, .credential]
  | .custody => [.update, .measure, .credential, .custody]
  | .update => [.measure, .credential, .custody, .update]

/-- The job is granted its piece. -/
def HashEngine.grantTo (e : HashEngine) (c : HashClient) (j : HashJob) : HashEngine :=
  { (e.setWaiting c none) with running := some { client := c, job := j, withdrawn := false } }

/-- A job arrives: a free engine grants its first piece at once (R141). -/
def HashEngine.submit (e : HashEngine) (c : HashClient) (j : HashJob) : HashEngine :=
  match e.running with
  | none => e.grantTo c j
  | some _ => e.setWaiting c (some j)

/-- The first waiting job of a rotation. -/
def HashEngine.firstWaiting (e : HashEngine) : List HashClient → Option (HashClient × HashJob)
  | [] => none
  | c :: t => match e.waiting c with
    | some j => some (c, j)
    | none => e.firstWaiting t

/-- The piece in progress has ended: the next one is granted in rotation (R141). -/
def HashEngine.release (e : HashEngine) : HashEngine :=
  let e := { e with running := none }
  match e.firstWaiting e.pointer.rotation with
  | some (c, j) => e.grantTo c j
  | none => e

/-- A withdrawal: a waiting job leaves its place; one in progress ends at its piece (R143). -/
def HashEngine.withdraw (e : HashEngine) (c : HashClient) : HashEngine :=
  let e := e.setWaiting c none
  match e.running with
  | some run => if run.client = c then { e with running := some { run with withdrawn := true } } else e
  | none => e

/-- Whether a client's job is in progress and has not been withdrawn. -/
def HashEngine.serves (e : HashEngine) (c : HashClient) : Bool :=
  match e.running with
  | some run => decide (run.client = c) && !run.withdrawn
  | none => false

def State.hashSubmit (c : HashClient) (j : HashJob) (s : State) : State := { s with hash := s.hash.submit c j }

def State.hashWithdraw (c : HashClient) (s : State) : State := { s with hash := s.hash.withdraw c }

/-- A one-piece SHA-256 job over bytes the requester holds. -/
def shaJob (l : List Byte) : HashJob := { fn := .sha256, absorbed := [], source := .own l, finalize := true }

/-- The HMAC job of a verifier (R94). -/
def verifierJob (salt : Salt) (secret : List Byte) : HashJob :=
  { fn := .hmac Config.credentialKey, absorbed := [], source := .own (verifierInput salt secret), finalize := true }

/-- The longest piece (R140). -/
def pieceSize : Nat := 4096

/-- The bytes of a job's next piece (R140). -/
def HashJob.pieceBytes (m : Memory) (j : HashJob) : List Byte :=
  match j.source with
  | .own l => l.take pieceSize
  | .extents [] => []
  | .extents ((_, a, n) :: _) => m.readBytes a.toNat (min n pieceSize)

/-- What a job has left after its next piece (R140). -/
def ByteSource.afterPiece : ByteSource → ByteSource
  | .own l => .own (l.drop pieceSize)
  | .extents [] => .extents []
  | .extents ((i, a, n) :: t) =>
    if n ≤ pieceSize then .extents t else .extents ((i, a + BitVec.ofNat 64 pieceSize, n - pieceSize) :: t)

def ByteSource.isEmpty : ByteSource → Bool
  | .own l => l.isEmpty
  | .extents l => l.isEmpty

/-- The index of the extent that a job's next piece reads (R140). -/
def ByteSource.extent : ByteSource → Nat
  | .own _ => 0
  | .extents [] => 0
  | .extents ((i, _, _) :: _) => i

/-- Whether a job reads host memory. -/
def ByteSource.isExtents : ByteSource → Bool
  | .own _ => false
  | .extents _ => true

/-- The job after a piece (R142). -/
def HashJob.afterPiece (m : Memory) (j : HashJob) : HashJob :=
  { j with absorbed := j.absorbed ++ j.pieceBytes m, source := j.source.afterPiece }

/-- The 32-byte result of a finished job (R139). -/
def HashJob.result (j : HashJob) : Digest :=
  match j.fn with
  | .sha256 => Config.sha256 j.absorbed
  | .hmac k => Config.hmacSha256 k j.absorbed

/-! ## The curve engine (R144 to R147) -/

def CurveEngine.waiting (e : CurveEngine) : CurveClient → Option CurveOp
  | .update => e.update | .measure => e.measure | .custody => e.custody | .lifecycle => e.lifecycle

def CurveEngine.setWaiting (e : CurveEngine) (c : CurveClient) (o : Option CurveOp) : CurveEngine :=
  match c with
  | .update => { e with update := o }
  | .measure => { e with measure := o }
  | .custody => { e with custody := o }
  | .lifecycle => { e with lifecycle := o }

/-- The rotation update, measure, custody, lifecycle, from the requester after the one named (R146). -/
def CurveClient.rotation : CurveClient → List CurveClient
  | .update => [.measure, .custody, .lifecycle, .update]
  | .measure => [.custody, .lifecycle, .update, .measure]
  | .custody => [.lifecycle, .update, .measure, .custody]
  | .lifecycle => [.update, .measure, .custody, .lifecycle]

/-- The operation as it is granted: a sign by identity takes the scalar of slot 1 (R22, R146). -/
def CurveOp.granted (identity : Option Scalar) : CurveOp → CurveOp
  | .signByIdentity _ d => .signByIdentity identity d
  | .verify p d g => .verify p d g
  | .sign k d => .sign k d
  | .generate seed => .generate seed

def CurveEngine.grantTo (e : CurveEngine) (identity : Option Scalar) (c : CurveClient) (o : CurveOp) : CurveEngine :=
  { (e.setWaiting c none) with running := some { client := c, op := o.granted identity } }

def CurveEngine.submit (e : CurveEngine) (identity : Option Scalar) (c : CurveClient) (o : CurveOp) : CurveEngine :=
  match e.running with
  | none => e.grantTo identity c o
  | some _ => e.setWaiting c (some o)

def CurveEngine.firstWaiting (e : CurveEngine) : List CurveClient → Option (CurveClient × CurveOp)
  | [] => none
  | c :: t => match e.waiting c with
    | some o => some (c, o)
    | none => e.firstWaiting t

/-- The operation in progress has completed: the next one is granted in rotation (R146). -/
def CurveEngine.release (e : CurveEngine) (identity : Option Scalar) : CurveEngine :=
  let e := { e with running := none }
  match e.firstWaiting e.pointer.rotation with
  | some (c, o) => e.grantTo identity c o
  | none => e

/-- Whether a client holds a granted operation. -/
def CurveEngine.serves (e : CurveEngine) (c : CurveClient) : Bool :=
  match e.running with
  | some run => decide (run.client = c)
  | none => false

/-- The private scalar in slot 1 (R22). -/
def State.identityScalar (s : State) : Option Scalar := (s.slot 1).bind fun r => r.material.scalar

def State.curveSubmit (c : CurveClient) (o : CurveOp) (s : State) : State :=
  { s with curve := s.curve.submit s.identityScalar c o }

/-- A waiting request leaves its place (R147). -/
def State.curveWithdraw (c : CurveClient) (s : State) : State := { s with curve := s.curve.setWaiting c none }

/-! ## The store's writes (R158 to R162) -/

/-- A spare location, if one is left (R161): the spares are taken in the order of their numbers (DESIGN CHOICE, log entry 71). -/
def LocationMap.takeSpare (m : LocationMap) : Option (Loc × LocationMap) :=
  if m.spares = 0 then none else some (.spare (64 - m.spares), { m with spares := m.spares - 1 })

def LocationMap.retire (m : LocationMap) (l : Loc) : LocationMap := { m with retired := l :: m.retired }

/-- Step 1 of a write: the record's alternate location, or a spare (R161). -/
def Cells.locate {α : Type} (c : Cells α) (m : LocationMap) : Option (Loc × LocationMap) :=
  match c.alternate with
  | some spot => some (spot.loc, m)
  | none => m.takeSpare

/-- The generation a write programs (R159). -/
def Cells.nextGen {α : Type} (c : Cells α) : Word32 :=
  match c.current.copy with
  | some k => k.gen + 1#32
  | none => 1#32

/-- The copy a write programs. -/
def Cells.newCopy {α : Type} (c : Cells α) (v : Option α) : Copy α := { value := v, gen := c.nextGen, intact := true }

/-- Step 4: the location holding the new copy becomes the current one and the former current one the alternate (R161). -/
def Cells.confirm {α : Type} (c : Cells α) (l : Loc) (v : Option α) : Cells α :=
  { current := { loc := l, copy := some (c.newCopy v) }, alternate := some c.current }

/-- A write by program and verify (R161): the record's cells, the location map and whether the write ended DONE, given whether the
first and the second read-back match. -/
def Cells.program {α : Type} (c : Cells α) (v : Option α) (m : LocationMap) (first second : Bool) : Cells α × LocationMap × Bool :=
  match c.locate m with
  | none => (c, m, false)
  | some (l, m) =>
    if first then (c.confirm l v, m, true)
    else
      match (m.retire l).takeSpare with
      | none => ({ c with alternate := none }, m.retire l, false)
      | some (l2, m2) =>
        if second then (c.confirm l2 v, m2, true) else ({ c with alternate := none }, m2.retire l2, false)

/-- A write cut by a loss of supply: the copy being programmed is left incomplete, and the location map keeps its changes (R162). -/
def Cells.tear {α : Type} (c : Cells α) (v : Option α) (m : LocationMap) (cut : WriteCut) : Cells α × LocationMap :=
  let torn : Copy α := { c.newCopy v with intact := false }
  match c.locate m with
  | none => (c, m)
  | some (l, m) =>
    match cut with
    | .firstProgramming => ({ c with alternate := some { loc := l, copy := some torn } }, m)
    | .secondProgramming =>
      match (m.retire l).takeSpare with
      | none => ({ c with alternate := none }, m.retire l)
      | some (l2, m2) => ({ c with alternate := some { loc := l2, copy := some torn } }, m2)

/-- The copy of a spot that passes its check. -/
def Spot.passing {α : Type} (p : Spot α) : Option (Copy α) :=
  match p.copy with
  | some k => if k.intact then some k else none
  | none => none

/-- Whether the alternate copy is the one taken when both pass their check (R159). -/
def takesAlternate (current alternate : Word32) : Bool :=
  if alternate = current + 1#32 then true
  else if current = alternate + 1#32 then false
  else decide (current.toNat < alternate.toNat)

/-- A record's cells as start-up loads them: the copy taken stands at the current location (R159). -/
def Cells.settled {α : Type} (c : Cells α) : Cells α :=
  match c.alternate with
  | none => c
  | some alt =>
    match c.current.passing, alt.passing with
    | some k, some l => if takesAlternate k.gen l.gen then { current := alt, alternate := some c.current } else c
    | none, some _ => { current := alt, alternate := some c.current }
    | _, none => c

/-- The value a record is loaded with; `none`: absent (R159). -/
def Cells.loaded {α : Type} (c : Cells α) : Option α := (c.settled.current.passing).bind (·.value)

/-- One write of the store, carried out on the record it names. -/
def Store.program (st : Store) (w : Write) (first second : Bool) : Store × Bool :=
  match w with
  | .lifecycle v =>
    let (c, m, ok) := st.lifecycle.program (some v) st.map first second
    ({ st with lifecycle := c, map := m }, ok)
  | .certificate v =>
    let (c, m, ok) := st.certificate.program (some v) st.map first second
    ({ st with certificate := c, map := m }, ok)
  | .slot i v =>
    let (c, m, ok) := (tableGet st.slots i).program v st.map first second
    ({ st with slots := tableSet st.slots i c, map := m }, ok)
  | .mark i v =>
    let (c, m, ok) := (tableGet st.marks i).program (some v) st.map first second
    ({ st with marks := tableSet st.marks i c, map := m }, ok)
  | .cred i v =>
    let (c, m, ok) := (tableGet st.creds i).program v st.map first second
    ({ st with creds := tableSet st.creds i c, map := m }, ok)
  | .kind k v =>
    let (c, m, ok) := (tableGet st.kinds k).program (some v) st.map first second
    ({ st with kinds := tableSet st.kinds k c, map := m }, ok)

/-- One write of the store, cut by a loss of supply. -/
def Store.tear (st : Store) (w : Write) (cut : WriteCut) : Store :=
  match w with
  | .lifecycle v =>
    let (c, m) := st.lifecycle.tear (some v) st.map cut
    { st with lifecycle := c, map := m }
  | .certificate v =>
    let (c, m) := st.certificate.tear (some v) st.map cut
    { st with certificate := c, map := m }
  | .slot i v =>
    let (c, m) := (tableGet st.slots i).tear v st.map cut
    { st with slots := tableSet st.slots i c, map := m }
  | .mark i v =>
    let (c, m) := (tableGet st.marks i).tear (some v) st.map cut
    { st with marks := tableSet st.marks i c, map := m }
  | .cred i v =>
    let (c, m) := (tableGet st.creds i).tear v st.map cut
    { st with creds := tableSet st.creds i c, map := m }
  | .kind k v =>
    let (c, m) := (tableGet st.kinds k).tear (some v) st.map cut
    { st with kinds := tableSet st.kinds k c, map := m }

/-- The capacity of the store's request queue (R160). -/
def storeCapacity : Nat := 8

/-- The capacity of the measure unit's internal request list (R38). -/
def internalCapacity : Nat := 16

/-! ## Outboxes: what each block has still to send -/

def Outboxes.get (o : Outboxes) : Client → List Out
  | .custody => o.custody | .custodyAsk => o.custodyAsk | .credential => o.credential | .credentialAsk => o.credentialAsk
  | .refresh => o.refresh | .update => o.update | .updateAsk => o.updateAsk | .updateWipe => o.updateWipe
  | .lifecycle => o.lifecycle | .lifecycleAsk => o.lifecycleAsk | .census => o.census

def Outboxes.set (o : Outboxes) (c : Client) (l : List Out) : Outboxes :=
  match c with
  | .custody => { o with custody := l }
  | .custodyAsk => { o with custodyAsk := l }
  | .credential => { o with credential := l }
  | .credentialAsk => { o with credentialAsk := l }
  | .refresh => { o with refresh := l }
  | .update => { o with update := l }
  | .updateAsk => { o with updateAsk := l }
  | .updateWipe => { o with updateWipe := l }
  | .lifecycle => { o with lifecycle := l }
  | .lifecycleAsk => { o with lifecycleAsk := l }
  | .census => { o with census := l }

/-- The work of one block: its requests to the measure unit keep their order (R38). -/
def Client.sameBlock (c : Client) : Client → Bool
  | .custody => c == .custody || c == .custodyAsk
  | .custodyAsk => c == .custody || c == .custodyAsk
  | .credential => c == .credential || c == .credentialAsk || c == .refresh
  | .credentialAsk => c == .credential || c == .credentialAsk || c == .refresh
  | .refresh => c == .credential || c == .credentialAsk || c == .refresh
  | .update => c == .update || c == .updateAsk || c == .updateWipe
  | .updateAsk => c == .update || c == .updateAsk || c == .updateWipe
  | .updateWipe => c == .update || c == .updateAsk || c == .updateWipe
  | .lifecycle => c == .lifecycle || c == .lifecycleAsk
  | .lifecycleAsk => c == .lifecycle || c == .lifecycleAsk
  | .census => c == .census

def State.setOutbox (c : Client) (l : List Out) (s : State) : State := { s with outboxes := s.outboxes.set c l }

/-- What a block is to send joins what it has still to send. -/
def State.push (c : Client) (l : List Out) (s : State) : State := s.setOutbox c (s.outboxes.get c ++ l)

/-- A unit's card in work becomes committed (R24, R90, R117, R137). -/
def Work.commit {σ : Type} (w : Work σ) : Work σ := { w with committed := true }

/-- The link has cut an access of the card in work, when it has one (R186). -/
def Work.cutWhen {σ : Type} (b : Bool) (w : Work σ) : Work σ := { w with cut := w.cut || b }

def State.commitCard (s : State) : WriteTo → State
  | .custodyCard => { s with custody := { s.custody with work := s.custody.work.map Work.commit } }
  | .credCard => { s with credential := { s.credential with work := s.credential.work.map Work.commit } }
  | .credReplace => { s with credential := { s.credential with work := s.credential.work.map Work.commit } }
  | .updateCard => { s with update := { s.update with work := s.update.work.map Work.commit } }
  | .lifeCard => { s with lifecycle := { s.lifecycle with work := s.lifecycle.work.map Work.commit } }
  | .lifeMarker => s
  | .nobody => s
  | .custodyRequest => s
  | .custodyWipe => s
  | .credRequest => s
  | .credWipe => s
  | .credRefresh => s
  | .credStartUp => s
  | .updateWipe => s
  | .updateStartUp => s
  | .lifeClaim => s
  | .lifeClosing => s

/-- A held refresh of a record is discarded when another write of the record is sent or the record is removed (R103). -/
def State.dropRefresh (id : Fin 32) (s : State) : State :=
  s.setOutbox .refresh (s.outboxes.refresh.filter fun o => !(o == .refresh id))

/-- A record with one more write of it in the queue (R100). -/
def CredEntry.writeSent (e : CredEntry) : CredEntry := { e with writes := e.writes + 1 }

/-- The record a write of a record carries: the working debt as its stored debt (R100). -/
def CredEntry.carried (e : CredEntry) : CredRecord := { e.record with debt := e.working }

/-- The write as it is sent: a replacement without the old secret carries the working debt and the last attempt tick as they stand
(R100, R112). -/
def State.asSent (s : State) (w : Write) (answerTo : WriteTo) : Write :=
  match w, answerTo with
  | .cred i (some r), .credReplace =>
    match s.cred i with
    | some e => .cred i (some { r with debt := e.working, lastTick := e.record.lastTick })
    | none => w
  | _, _ => w

/-- The sending of a write: it joins the store's queue at its end (R160); a credential record is busy from then (R100). -/
def State.enqueue (w : Write) (answerTo : WriteTo) (s : State) : State :=
  let w := s.asSent w answerTo
  let s := s.commitCard answerTo
  let s := match w with
    | .cred i _ => (s.dropRefresh i).setCred i ((s.cred i).map CredEntry.writeSent)
    | .lifecycle _ => s
    | .certificate _ => s
    | .slot _ _ => s
    | .mark _ _ => s
    | .kind _ _ => s
  { s with store := { s.store with queue := s.store.queue ++ [{ write := w, answerTo := answerTo }] } }

/-! ## Presence and the release (R127, R128, R131, R133) -/

/-- The conditions on which presence opens (R127). -/
def State.presenceMayOpen (s : State) : Bool :=
  decide (s.lifecycle.effective = .claimed) && !s.lifecycle.pending && decide (s.census.state ≠ .failed)

/-- The opening or renewal of presence, 1200 ticks from now, when its conditions hold (R127). -/
def State.openPresence (s : State) : State :=
  if s.presenceMayOpen then { s with lifecycle := { s.lifecycle with presence := some (s.pace.tick + 1200#32) } } else s

/-- Open presence ends (R128). -/
def State.closePresence (s : State) : State := { s with lifecycle := { s.lifecycle with presence := none } }

/-- Open presence ends with PRESENCE ENDED; closed presence stays closed and nothing is asked for (R128). -/
def State.endPresence (s : State) : State := if s.presenceOpen then s.closePresence.ask .presenceEnded else s

/-- The ticks remaining of open presence (R127); read only while presence is open. -/
def State.presenceLeft (s : State) : Nat :=
  match s.lifecycle.presence with
  | some e => elapsed e s.pace.tick
  | none => 0

/-- The presence flag and the ticks remaining of a reply (R106); the ticks have no stated value when presence is closed. -/
def State.presenceReply (s : State) : List OutByte :=
  if s.presenceOpen then outNum 1 1 ++ outNum 2 s.presenceLeft else outNum 1 0 ++ outOpen 2

/-- The wipe orders go out (R133). -/
def State.sendWipeOrders (s : State) : State :=
  { s with
    lifecycle := { s.lifecycle with progress := .wiping, answersSent := Trio.empty, answersTaken := Trio.empty }
    custody := { s.custody with held := s.custody.held ++ [.wipe] }
    credential := { s.credential with held := s.credential.held ++ [.wipe] }
    update := { s.update with wipe := .arrived } }

/-! ## The update session (R72, R80, R89) -/

/-- The session leaves CHECKED: IDLE, the guard line released, the lifecycle controller told (R80). -/
def State.leaveChecked (s : State) : State :=
  { s with
    update := { s.update with session := .idle, guardOn := false }
    lifecycle := { s.lifecycle with notices := s.lifecycle.notices + 1 } }

/-- The session returns to IDLE from any state (R72). -/
def State.dropSession (s : State) : State :=
  match s.update.session with
  | .checked _ => s.leaveChecked
  | .opened _ => { s with update := { s.update with session := .idle } }
  | .idle => s

/-- The kinds, in ascending order, whose trial has signer class OWNER (R89). -/
def State.ownerTrials (s : State) : List (Fin 8) :=
  (List.finRange 8).filter fun k => decide ((s.kindRecord k).trial.map Trial.signer = some SignerClass.owner)

/-- A kind record without its trial. -/
def KindRecord.withoutTrial (k : KindRecord) : KindRecord := { k with trial := none }

/-- What the wipe sends for one kind: the write, then the part event (R89). -/
def State.wipeSends (s : State) (k : Fin 8) : List Out :=
  [.write (.kind k (s.kindRecord k).withoutTrial) .updateWipe,
   .request (.event (.updateLapsed k (((s.kindRecord k).trial.map (·.version)).getD 0) .ownerSignerRemoved))]

/-- The update unit has done all its wipe order asks for, every write ended and every event sent: it answers the order (R89). -/
def State.answerUpdateWipe (c : WipeCount) (s : State) : State :=
  { s with
    update := { s.update with service := none }
    lifecycle := { s.lifecycle with
      answersSent := { s.lifecycle.answersSent with update := some { erased := c.removed, failed := c.failed } } } }

/-- The last event of the wipe order has been sent: the order is answered here when its writes have ended before (R38, R89). -/
def State.updateWipeSent (s : State) : State :=
  match s.update.service with
  | some c => if c.outstanding = 0 then s.answerUpdateWipe c else s
  | none => s

/-- The update unit's wipe order is served with the session not CHECKED (R89): its sends join its outbox, and behind them the act that
goes on when the last of them has been sent (R38). -/
def State.serveUpdateWipe (s : State) : State :=
  let kinds := s.ownerTrials
  let sends := kinds.flatMap s.wipeSends
  let s := match s.update.session with
    | .opened c => if c.signer = SignerClass.owner then { s with update := { s.update with session := .idle } } else s
    | .idle => s
    | .checked _ => s
  let s := kinds.foldl (fun s k => s.setKind k (s.kindRecord k).withoutTrial) s
  let s := { s with update := { s.update with wipe := .none } }
  if kinds.isEmpty then
    { s with lifecycle := { s.lifecycle with
        answersSent := { s.lifecycle.answersSent with update := some { erased := 0, failed := 0 } } } }
  else
    ({ s with update := { s.update with
        service := some { removed := kinds.length, outstanding := kinds.length, failed := 0 } } }).push .updateWipe
      (sends ++ [Out.act .updateWipeSent])

/-- Whether a held wipe order can be served: the session has left CHECKED and no card is in work. R89 has it served when the session
leaves CHECKED, R88 serves a request when the card in work has been handed back; where a guard expiry leaves CHECKED with another card
in work, the order waits for that card (DESIGN CHOICE, log entry 42). -/
def State.heldWipeIsFree (s : State) : Bool :=
  decide (s.update.wipe = .held) && s.update.work.isNone && decide (s.update.session.code ≠ 2)

/-- The update unit hands its card in work back. -/
def State.updateRelease (o : CardOutcome) (detail : Option Word32) (body : List OutByte) (s : State) : State :=
  match s.update.work with
  | some w => ({ s with update := { s.update with work := none } }).handBack w.card o detail body
  | none => s

/-! ## The credential unit's end of a claim (R109, R126) -/

def State.credHandBack (o : CardOutcome) (detail : Option Word32) (body : List OutByte) (s : State) : State :=
  match s.credential.work with
  | some w => ({ s with credential := { s.credential with work := none } }).handBack w.card o detail body
  | none => s

/-- A record placed in the table (R107, R109, R115). -/
def CredEntry.placed (r : CredRecord) : CredEntry := { record := r, working := r.debt, writes := 0, attempt := false }

/-- A policy in a reply body. -/
def policyBody (p : Policy) : List OutByte := outNum 2 p.charge ++ outNum 2 p.decay ++ outNum 2 p.lock

/-- The id of a place, from 1. -/
def idOf (i : Fin 32) : Nat := i.val + 1

/-- The lifecycle controller answers the claim DONE: the table takes the administrator record and the card settles MATCHED (R109
step 3). -/
def State.claimAnswered (s : State) : State :=
  match s.credential.work with
  | some w => match w.stage with
    | .awaitClaim id r debt =>
      let s := s.setCred id (some (CredEntry.placed r))
      s.credHandBack .matched none (outNum 1 (idOf id) ++ policyBody r.policy ++ outNum 2 debt ++ s.presenceReply)
    | _ => s
  | none => s

/-! ## Sending (R38, R103, R160) -/

/-- What follows a request that has been accepted. -/
def State.perform : After → State → State
  | .updateSettle o d b, s =>
    let s := s.updateRelease o d b
    if s.heldWipeIsFree then s.serveUpdateWipe else s
  | .trialLapsed, s => s.ask .trialLapsed
  | .updateWipeSent, s => s.updateWipeSent
  | .claimDone, s =>
    ({ s with lifecycle := { s.lifecycle with claiming := false } }).openPresence.claimAnswered
  | .releaseDone, s => s.ask .releaseDone
  | .censusAttention, s => s.ask .censusFailed

/-- Whether a refresh write of a record is still due: its working debt is below its stored debt (R103). -/
def State.refreshIsDue (s : State) (id : Fin 32) : Bool :=
  match s.cred id with
  | some e => decide (e.working < e.record.debt)
  | none => false

/-- Whether an internal request joins the list as it is sent: there is room, no earlier request of its block waits, and it is no part
event. A part event is sent in an act of its own, after the change of state it reports, and so waits for the next PART_EVENT row
(R59, R85, R156, log entry 43); while the measure unit is starting it joins at once, since no card can begin in between (R45). -/
def State.joinsAtOnce (s : State) (c : Client) (r : MeasureRequest) : Bool :=
  decide (s.measure.internal.length < internalCapacity) && !(s.measureWaiting.any c.sameBlock) &&
    (s.measure.starting || match r with
      | .event _ => false
      | .check _ _ _ => true
      | .chainRead _ _ => true)

/-- A request joins the internal request list at its end (R38). -/
def State.joinList (r : MeasureRequest) (s : State) : State :=
  { s with measure := { s.measure with internal := s.measure.internal ++ [r] } }

/-- A block sends what it has to send, in order, until something does not fit; it then waits in its own place (R38, R103, R160). -/
def State.sendAll (c : Client) : Nat → State → State
  | 0, s => s
  | fuel + 1, s =>
    match s.outboxes.get c with
    | [] => s
    | .write w answerTo :: rest =>
      if s.store.queue.length < storeCapacity then State.sendAll c fuel ((s.setOutbox c rest).enqueue w answerTo)
      else { s with store := { s.store with waiting := s.store.waiting ++ [c] } }
    | .refresh id :: rest =>
      if s.refreshIsDue id then
        if s.store.queue.length < storeCapacity then
          match s.cred id with
          | some e => State.sendAll c fuel ((s.setOutbox c rest).enqueue (.cred id (some e.carried)) .credRefresh)
          | none => State.sendAll c fuel (s.setOutbox c rest)
        else { s with store := { s.store with waiting := s.store.waiting ++ [c] } }
      else State.sendAll c fuel (s.setOutbox c rest)
    | .request r :: rest =>
      if s.joinsAtOnce c r then State.sendAll c fuel ((s.joinList r).setOutbox c rest)
      else { s with measureWaiting := s.measureWaiting ++ [c] }
    | .act a :: rest => State.sendAll c fuel ((s.setOutbox c rest).perform a)

/-- Room for the sends of one block: what it has to send and what its sends can add. -/
def State.sendFuel (s : State) (c : Client) : Nat := (s.outboxes.get c).length + 32

/-- A block that waits for room sends nothing past the request that waits. -/
def State.isWaiting (s : State) (c : Client) : Bool := s.store.waiting.contains c || s.measureWaiting.contains c

/-- A piece of work sends as much as it can; the end of an update card may let the update unit serve a held wipe order, which then sends
as much as it can (R89). -/
def State.sendLane (c : Client) (s : State) : State :=
  let s := State.sendAll c (s.sendFuel c) s
  if c == .updateAsk && !s.isWaiting .updateWipe then State.sendAll .updateWipe (s.sendFuel .updateWipe) s else s

/-- A block has more to send. -/
def State.send (c : Client) (l : List Out) (s : State) : State :=
  let s' := s.push c l
  if s.isWaiting c then s' else s'.sendLane c

/-- A wipe order held until the session left CHECKED is served at that moment (R89). -/
def State.serveHeldWipe (s : State) : State := if s.heldWipeIsFree then s.serveUpdateWipe.send .updateWipe [] else s

/-- The update unit hands its card in work back, and a held wipe order that has become free is served. -/
def State.updateHandBack (o : CardOutcome) (detail : Option Word32) (body : List OutByte) (s : State) : State :=
  (s.updateRelease o detail body).serveHeldWipe

/-- Room in the store's queue goes to the requester that has waited longest (R160). -/
def State.pumpStore : Nat → State → State
  | 0, s => s
  | fuel + 1, s =>
    match s.store.waiting with
    | [] => s
    | c :: rest =>
      if s.store.queue.length < storeCapacity then
        let s := { s with store := { s.store with waiting := rest } }
        State.pumpStore fuel (s.sendLane c)
      else s

/-- The request at the front of a waiting block's work joins the list, and the work goes on (R38). -/
def State.joinFirst (c : Client) (s : State) : State :=
  match s.outboxes.get c with
  | .request r :: rest => ((s.joinList r).setOutbox c rest).sendLane c
  | _ => s.sendLane c

/-- Requests that wait unsent join the internal request list while there is room. R38 does not say which of several waiting blocks
takes a place: the one that has waited longest does (DESIGN CHOICE, log entry 44). -/
def State.pumpMeasure : Nat → State → State
  | 0, s => s
  | fuel + 1, s =>
    match s.measureWaiting with
    | [] => s
    | c :: rest =>
      if s.measure.internal.length < internalCapacity then
        State.pumpMeasure fuel (({ s with measureWaiting := rest }).joinFirst c)
      else s

/-- Room for the requests that can come to wait while others join. -/
def State.pumpFuel (s : State) : Nat := s.measureWaiting.length + internalCapacity

/-- The write a block holds unsent is withdrawn with the card it was for (log entry 12). -/
def State.withdrawWrite (c : Client) (answerTo : WriteTo) (s : State) : State :=
  let l := (s.outboxes.get c).filter fun o => match o with
    | .write _ t => !(t == answerTo)
    | .refresh _ => true
    | .request _ => true
    | .act _ => true
  let s := s.setOutbox c l
  if l.isEmpty then { s with store := { s.store with waiting := s.store.waiting.filter fun d => !(d == c) } } else s

/-- Whether a unit's binding check or chain read is the one given up. -/
def MeasureRequest.isFrom (r : MeasureRequest) (who : Option Checker) : Bool :=
  match r, who with
  | .check c _ _, some d => c == d
  | .chainRead _ _, none => true
  | .event _, _ => false
  | .check _ _ _, none => false
  | .chainRead _ _, some _ => false

/-- The answer of a request is no longer wanted (R24, R90, R117). -/
def MeasureRequest.givenUp : MeasureRequest → MeasureRequest
  | .event e => .event e
  | .check c b _ => .check c b false
  | .chainRead c _ => .chainRead c false

/-- A card gives up its binding check or chain read: the answer is discarded when it comes; `none` names the update unit's chain
read (R24, R90, R117). A request that is still unsent, because the list is full, is not dropped: it goes on waiting for room, joins the list
in its turn and is served, and its answer is discarded, as for one that stands in the list (DESIGN CHOICE, log entry 72). -/
def State.giveUpRequest (who : Option Checker) (s : State) : State :=
  let drop (r : MeasureRequest) : MeasureRequest := if r.isFrom who then r.givenUp else r
  { s with
    measure := { s.measure with internal := s.measure.internal.map drop }
    outboxes :=
      { s.outboxes with
        custodyAsk := s.outboxes.custodyAsk.map fun o => match o with
          | .request r => .request (drop r)
          | .write w t => .write w t
          | .refresh i => .refresh i
          | .act a => .act a
        credentialAsk := s.outboxes.credentialAsk.map fun o => match o with
          | .request r => .request (drop r)
          | .write w t => .write w t
          | .refresh i => .refresh i
          | .act a => .act a
        updateAsk := s.outboxes.updateAsk.map fun o => match o with
          | .request r => .request (drop r)
          | .write w t => .write w t
          | .refresh i => .refresh i
          | .act a => .act a } }

/-! ## The randomness gate (R10, R153) -/

/-- What a block finds at its randomness gate. -/
inductive Gate
  | pass | wait | refuse
  deriving DecidableEq, Repr

def State.gate (s : State) : Gate :=
  match s.census.state with
  | .healthy => .pass
  | .doubt => .wait
  | .failed => .refuse

def State.joinWaiters (w : Waiter) (s : State) : State :=
  { s with census := { s.census with waiters := s.census.waiters ++ [w] } }

def State.leaveWaiters (w : Waiter) (s : State) : State :=
  { s with census := { s.census with waiters := s.census.waiters.filter fun x => !(x == w) } }

/-! ## Binding checks (R11, R41) -/

def State.sendCheck (c : Client) (by_ : Checker) (b : Binding) (s : State) : State := s.send c [.request (.check by_ b true)]

end Sys2Proof.Machine
end

