-- ==== Sys2Proof/Machine/Update.lean ====
section
/-! DEFINITION. Chapter 4: the update unit's cards, what its waits end in, its timers, and its answer to an abandon. -/
namespace Sys2Proof.Machine

/-! ## The card in work -/

/-- The update unit can begin a card: none is in work, no wipe order waits to be served or is in service, and the first waiting card
of its queue carries the code (R88). -/
def State.updateReady (s : State) (code : Word16) : Option Card :=
  if s.powered && s.update.work.isNone && s.update.service.isNone && decide (s.update.wipe ≠ .arrived) then
    (s.nextCard .update).filter fun c => c.code == code
  else none

/-- The update unit begins the card of a code, if it can. -/
def State.beginUpdate (code : Word16) (stage : UpdateStage) (body : Card → State → State) (s : State) : State :=
  match s.updateReady code with
  | some c =>
    body c ({ s with update := { s.update with
      work := some { card := c, stage := stage, abandoned := false, committed := false } } }.beginCard c)
  | none => s

/-- The card in work moves to another stage. -/
def State.updateStage (stage : UpdateStage) (s : State) : State :=
  { s with update := { s.update with work := s.update.work.map fun w => { w with stage := stage } } }

/-- The card in work has sent an installation or a removal request: it is committed (R90). -/
def State.updateCommit (s : State) : State :=
  { s with update := { s.update with work := s.update.work.map Work.commit } }

/-- The card is refused BAD REQUEST with a field number (R192). -/
def State.updateBad (field : Nat) (s : State) : State := s.updateHandBack .badRequest (some (BitVec.ofNat 32 field)) []

/-- The card is refused with an outcome whose detail word the manual does not state. -/
def State.updateRefuse (o : CardOutcome) (s : State) : State := s.updateHandBack o none []

/-- A store write of the card in work. -/
def State.updateWrite (w : Write) (stage : UpdateStage) (s : State) : State :=
  (s.updateStage stage).send .update [.write w .updateCard]

/-! ## Signers and anchors (R62 to R68) -/

/-- The signer slot of the session, when it is not IDLE. -/
def Session.signerSlot : Session → Option Nat
  | .idle => none
  | .opened c => some c.slot
  | .checked c => some c.slot

/-- The signer class of a signer slot (R62). -/
def signerClassOf (slot : Nat) : SignerClass := if slot = 0 then .root else if slot = 5 then .owner else .delegate

/-- Slots that are signers (R62). -/
def isSignerSlot (slot : Nat) : Bool :=
  decide (slot = 0) || decide (slot = 2) || decide (slot = 3) || decide (slot = 4) || decide (slot = 5)

/-- The public key of a slot that holds one (R22). -/
def State.publicKeyOf (s : State) (i : Fin 48) : Option PublicKey := (s.slot i).bind fun r => r.material.publicKey

/-- The serial of the delegate a slot holds. -/
def State.serialOf (s : State) (i : Fin 48) : Option Word32 := (s.slot i).bind fun r => r.anchor.bind (·.serial)

/-- The mark of a delegate slot 2 to 4. -/
def markIndex (slot : Nat) : Fin 3 := ⟨(slot - 2) % 3, Nat.mod_lt _ (by decide)⟩

/-- The serial high-water value of a delegate slot (R63). -/
def State.highWater (s : State) (slot : Fin 48) : Nat :=
  max (s.mark (markIndex slot.val)).toNat ((s.serialOf slot).map BitVec.toNat |>.getD 0)

/-- The record of an anchor as it is installed: LIVE, no capability, restriction, binding or limit (R2, R21). -/
def anchorRecord (cls : KeyClass) (pub : PublicKey) (anchor : Option Anchor) : KeyRecord :=
  { state := .live, cls := cls, material := .p256 none pub, flags := KeyFlags.none, binding := none, limit := none, total := 0,
    label := [], anchor := anchor }

/-- A fixed slot 2 to 5 that an anchor card names. -/
def anchorSlot (n : Nat) : Fin 6 := ⟨n % 6, Nat.mod_lt _ (by decide)⟩

/-- A request to the custody unit joins its held requests (R5, R21). -/
def State.askCustody (r : CustodyRequest) (s : State) : State :=
  { s with custody := { s.custody with held := s.custody.held ++ [r] } }

/-- A card that has passed the checks before its signature sends the signed bytes to the hash engine (R64, R67, R73). -/
def State.verifySigned (pub : PublicKey) (signed : List Byte) (s : State) : State :=
  (s.updateStage (.verifyHash pub)).hashSubmit .update (shaJob signed)

/-- The checks of R64 that follow the form, up to the signature. Where R196 has a signed field read only after the signature has verified,
the checks keep R64's order, the fields of the form before the signature (DESIGN CHOICE, log entry 74). -/
def State.anchorInstallDelegate (c : Card) (s : State) : State :=
  let slot := c.slot 0
  if s.lifecycle.effective = .blank then s.updateRefuse .wrongLifecycle
  else match s.publicKeyOf 0 with
    | none => s.updateRefuse .notAnAnchor
    | some root =>
      if s.update.session.signerSlot = some slot.val then s.updateRefuse .sessionBusy
      else s.verifySigned root (c.signedBytes 1 72)

/-- The owner's operations need CLAIMED, no release pending and open presence (R66, R68). -/
def State.ownerRefusal (s : State) : Option CardOutcome :=
  if s.lifecycle.effective ≠ .claimed then some .wrongLifecycle
  else if s.lifecycle.pending then some .wiping
  else if s.presenceOpen then none
  else some .needsPresence

def State.anchorInstallOwner (c : Card) (s : State) : State :=
  match s.ownerRefusal with
  | some o => s.updateRefuse o
  | none =>
    if s.update.session.signerSlot = some 5 then s.updateRefuse .sessionBusy
    else
      let record := anchorRecord .ownerAnchor (c.fieldStr 1 512) (some { kinds := c.byte 81, serial := none })
      ((s.updateStage .ownerInstall).updateCommit).askCustody (.install 5 record .update)

def State.anchorInstall (c : Card) (s : State) : State :=
  match anchorInstallForm c with
  | some n => s.updateBad n
  | none => if c.field 0 1 = 5 then s.anchorInstallOwner c else s.anchorInstallDelegate c

/-- The checks of R67 that follow the form, up to the signature, in R67's order: the slot and the serial are compared before the signature
has verified, R196 notwithstanding (DESIGN CHOICE, log entry 74). -/
def State.anchorRemoveDelegate (c : Card) (s : State) : State :=
  let slot := c.slot 0
  match s.publicKeyOf 0, s.slot slot with
  | some root, some r =>
    if (r.anchor.bind (·.serial)) ≠ some (c.fieldStr 4 32) then s.updateRefuse .notAnAnchor
    else if s.update.session.signerSlot = some slot.val then s.updateRefuse .sessionBusy
    else s.verifySigned root (c.signedBytes 1 7)
  | _, _ => s.updateRefuse .notAnAnchor

def State.anchorRemoveOwner (s : State) : State :=
  match s.ownerRefusal with
  | some o => s.updateRefuse o
  | none =>
    if (s.slot 5).isNone then s.updateRefuse .notAnAnchor
    else if s.update.session.signerSlot = some 5 then s.updateRefuse .sessionBusy
    else ((s.updateStage .ownerRemove).updateCommit).askCustody (.remove 5)

def State.anchorRemove (c : Card) (s : State) : State :=
  match anchorRemoveForm c with
  | some n => s.updateBad n
  | none => if c.field 0 1 = 5 then s.anchorRemoveOwner else s.anchorRemoveDelegate c

/-- A delegate certificate has verified: check 6 of R64, then the installation request of R65. -/
def State.delegateVerified (c : Card) (s : State) : State :=
  let slot := c.slot 0
  let serial : Word32 := c.fieldStr 69 32
  if serial.toNat ≤ s.highWater slot then s.updateRefuse .rollback
  else
    let record := anchorRecord .delegate (c.fieldStr 4 512) (some { kinds := c.byte 84, serial := some serial })
    ((s.updateStage .installSlot).updateCommit).askCustody (.install (anchorSlot slot.val) record .update)

/-- The removal request of R67, once the mark is in place. -/
def State.delegateRemoval (c : Card) (s : State) : State :=
  ((s.updateStage .removeSlot).updateCommit).askCustody (.remove (anchorSlot (c.slot 0).val))

/-- A removal order has verified: the mark is raised first, unless it is already at or above the order's serial (R67). -/
def State.removalVerified (c : Card) (s : State) : State :=
  let i := markIndex (c.slot 0).val
  let serial : Word32 := c.fieldStr 4 32
  if (s.mark i).toNat < serial.toNat then s.updateWrite (.mark i serial) .removeMark else s.delegateRemoval c

/-! ## The update session (R71 to R82) -/

/-- The kinds a signer slot permits (R62). -/
def State.signerPermits (s : State) (slot : Fin 48) (kind : Fin 8) : Bool :=
  decide (slot.val = 0) || match s.slot slot with
    | some r => match r.anchor with
      | some a => a.kinds.getLsbD kind.val
      | none => false
    | none => false

/-- UPDATE OPEN's checks 1 to 6, in R73's order: kind, length, signer slot and permitted kind are checked before the signature, R196
notwithstanding, so that a card with a bad field and a bad signature is refused for the field (DESIGN CHOICE, log entry 74). -/
def State.updateOpen (c : Card) (s : State) : State :=
  match updateOpenForm c with
  | some n => s.updateBad n
  | none =>
    let slot := c.slot 41
    if s.update.session ≠ .idle then s.updateRefuse .sessionBusy
    else match (if isSignerSlot slot.val then s.publicKeyOf slot else none) with
      | none => s.updateRefuse .notAnAnchor
      | some pub =>
        if s.signerPermits slot c.kind = false then s.updateRefuse .kindNotPermitted
        else if slot.val = 5 ∧ s.lifecycle.effective ≠ .claimed then s.updateRefuse .wrongLifecycle
        else if slot.val = 5 ∧ s.presenceOpen = false then s.updateRefuse .needsPresence
        else s.verifySigned pub (c.signedBytes 0 43)

/-- The downgrade exception of check 8 (R73). -/
def State.downgradeApplies (s : State) (c : Card) : Bool :=
  (c.byte 58).getLsbD 0 && decide (signerClassOf (c.field 41 1) ≠ .owner) && s.presenceOpen

/-- The session context a manifest opens (R74). -/
def State.sessionOf (s : State) (c : Card) : OpenSession :=
  { kind := c.kind, version := c.field 1 4, length := c.field 5 4, digest := c.fieldStr 9 256, slot := c.field 41 1,
    signer := signerClassOf (c.field 41 1), belowFloor := decide (c.field 1 4 < (s.kindRecord c.kind).floor), fed := 0,
    running := [], idleStart := s.pace.tick }

/-- A manifest has verified: checks 7 and 8 of R73, then the opening of R74; the guard line, which follows CHECKED alone, stays
released (R80). -/
def State.manifestVerified (c : Card) (s : State) : State :=
  let k := s.kindRecord c.kind
  let x := s.sessionOf c
  if k.trial.isSome then s.updateRefuse .trialPending
  else if x.belowFloor && !s.downgradeApplies c then s.updateRefuse .rollback
  else
    ({ s with update := { s.update with session := .opened x, guardOn := false } }).updateHandBack .done none
      (outNum 1 x.kind.val ++ outNum 4 x.version ++ outNum 4 x.length ++ outNum 1 x.signer.code
        ++ outNum 1 x.belowFloor.toNat)

/-- The hash job of a feed: the session's running digest continued over the card's extents (R76, R139). -/
def feedJob (c : Card) (x : OpenSession) : HashJob :=
  { fn := .sha256, absorbed := x.running, source := .extents c.extentSource
    finalize := decide (x.fed + c.extentTotal = x.length) }

def State.updateFeed (c : Card) (s : State) : State :=
  match feedForm c with
  | some n => s.updateBad n
  | none => match s.update.session with
    | .opened x =>
      if x.length < x.fed + c.extentTotal then
        s.updateHandBack .overrun (some (BitVec.ofNat 32 (x.length - x.fed))) []
      else (s.updateStage .feed).hashSubmit .update (feedJob c x)
    | .idle => s.updateRefuse .noSession
    | .checked _ => s.updateRefuse .noSession

/-- A piece of a feed has ended: its bytes are counted and the running digest state is kept (R76). -/
def State.feedPiece (consumed : Nat) (absorbed : List Byte) (s : State) : State :=
  match s.update.session with
  | .opened x =>
    { s with update := { s.update with session := .opened { x with fed := x.fed + consumed, running := absorbed } } }
  | .idle => s
  | .checked _ => s

/-- The last piece of a feed that does not complete the image has ended: its job yields no result, and the card settles MORE (R76,
R139). -/
def State.feedMore (s : State) : State :=
  match s.update.session with
  | .opened x => s.updateHandBack .done (some 1#32) (outNum 4 x.fed ++ outNum 4 (x.length - x.fed))
  | .idle => s.updateRefuse .noSession
  | .checked _ => s.updateRefuse .noSession

/-- The last piece of the feed that completes the image has ended with the image's digest (R76, R77). -/
def State.feedEnd (result : Digest) (s : State) : State :=
  match s.update.session with
  | .opened x =>
    if result = x.digest then
      ({ s with update := { s.update with
          session := .checked { kind := x.kind, version := x.version, digest := x.digest, slot := x.slot, signer := x.signer,
                                guardStart := s.pace.tick }
          guardOn := true } }).updateHandBack .done (some 2#32)
        (outNum 1 x.kind.val ++ outNum 4 x.version ++ outBytes (strBytes x.digest))
    else
      ({ s with update := { s.update with session := .idle } }).updateHandBack .digestMismatch none
        (outBytes (strBytes result))
  | .idle => s.updateRefuse .noSession
  | .checked _ => s.updateRefuse .noSession

/-- A read of a feed's extent has failed: the session ends (R78). -/
def State.feedFault (s : State) : State :=
  match s.update.session with
  | .opened x =>
    ({ s with update := { s.update with session := .idle } }).updateHandBack .linkFault (some (BitVec.ofNat 32 x.fed)) []
  | .idle => s.updateRefuse .linkFault
  | .checked _ => s.updateRefuse .linkFault

def State.updateCancel (c : Card) (s : State) : State :=
  match noFieldsForm c with
  | some n => s.updateBad n
  | none => s.dropSession.updateHandBack .done (some (BitVec.ofNat 32 s.update.session.code)) []

/-- The kind record with the session's trial added (R82). -/
def CheckedSession.committed (x : CheckedSession) (k : KindRecord) : KindRecord :=
  { k with trial := some { version := x.version, digest := x.digest, signer := x.signer, boots := 3 } }

def State.updateCommitCard (c : Card) (s : State) : State :=
  match noFieldsForm c with
  | some n => s.updateBad n
  | none => match s.update.session with
    | .checked x =>
      let r := x.committed (s.kindRecord x.kind)
      s.updateWrite (.kind x.kind r) (.commit r)
    | .idle => s.updateRefuse .noSession
    | .opened _ => s.updateRefuse .noSession

/-- The commit's write has completed (R82). -/
def State.commitDone (k : Fin 8) (r : KindRecord) (s : State) : State :=
  let body := match r.trial with
    | some t => outNum 1 k.val ++ outNum 4 t.version ++ outNum 1 t.boots
    | none => []
  ((s.setKind k r).leaveChecked).updateHandBack .done none body

/-! ## Trials (R84 to R87) -/

def State.updateConfirm (c : Card) (s : State) : State :=
  match updateConfirmForm c with
  | some n => s.updateBad n
  | none => match (s.kindRecord c.kind).trial with
    | none => s.updateRefuse .noTrial
    | some t => (s.updateStage .confirmHash).hashSubmit .update (shaJob (candidateInput t.digest))

/-- The expected chain value is known: the measure unit is asked for the chain (R84). -/
def State.confirmExpect (c : Card) (expected : Digest) (s : State) : State :=
  (s.updateStage (.confirmChain expected)).send .updateAsk
    [.request (.chainRead ⟨c.field 1 1 % 11, Nat.mod_lt _ (by decide)⟩ true)]

/-- The kind record a confirm writes (R70, R85). -/
def KindRecord.confirmedBy (k : KindRecord) (t : Trial) : KindRecord :=
  { floor := max k.floor t.version
    confirmed := some { version := t.version, digest := t.digest, signer := t.signer }
    trial := none }

/-- The chain's value has come (R84, R85). -/
def State.confirmChain (c : Card) (expected value : Digest) (s : State) : State :=
  let k := s.kindRecord c.kind
  match k.trial with
  | some t =>
    if value = expected then
      s.updateWrite (.kind c.kind (k.confirmedBy t))
        (.confirm (k.confirmedBy t) t.version t.signer (decide (t.version < k.floor)))
    else s.updateRefuse .notRunning
  | none => s.updateRefuse .noTrial

/-- The confirm's write has completed: the table takes the record, the part event goes out, the card settles (R85). -/
def State.confirmDone (k : Fin 8) (r : KindRecord) (version : Nat) (signer : SignerClass) (below : Bool) (s : State) : State :=
  ((s.setKind k r).updateStage .sendingEvent).send .updateAsk
    [.request (.event (.updateConfirmed k version signer below)),
     .act (.updateSettle .done none (outNum 4 r.floor ++ outNum 4 version ++ outNum 1 below.toNat))]

def State.updateRevert (c : Card) (s : State) : State :=
  match updateRevertForm c with
  | some n => s.updateBad n
  | none =>
    let k := s.kindRecord c.kind
    if k.trial.isNone then s.updateRefuse .noTrial else s.updateWrite (.kind c.kind k.withoutTrial) (.revert k.withoutTrial)

/-- The limit of the guard timer (R80). -/
def guardLimit : Nat := 3600

/-- The limit of the idle timer (R79). -/
def idleLimit : Nat := 480

/-- The session part of a BOOT ADVICE reply (R87, R194); a field the state does not give has no stated value. -/
def State.adviceReply (s : State) : List OutByte :=
  outNum 1 s.update.session.code ++
    match s.update.session with
    | .idle => outOpen 9
    | .opened x => outNum 1 x.kind.val ++ outNum 4 x.fed ++ outOpen 4
    | .checked x => outOpen 5 ++ outNum 4 (guardLimit - elapsed s.pace.tick x.guardStart)

/-- BOOT ADVICE. R87 fixes the kind values to the card's beginning and no instant for the session part of the reply: the model reads
that part at the card's beginning as well (DESIGN CHOICE, log entry 46). -/
def State.bootAdvice (c : Card) (s : State) : State :=
  match bootAdviceForm c with
  | some n => s.updateBad n
  | none =>
    s.updateStage (.writeOut ((List.finRange 8).flatMap fun k => adviceEntry (s.kindRecord k)) none s.adviceReply)

/-! ## Timers (R79, R80) -/

/-- The idle timer of an OPEN session expires (R79). -/
def State.idleExpires (s : State) : Bool :=
  match s.update.session with
  | .opened x => decide (idleLimit ≤ elapsed s.pace.tick x.idleStart) && !s.feedQueued
  | .idle => false
  | .checked _ => false

def State.idleExpiry (s : State) : State :=
  if s.idleExpires then { s with update := { s.update with session := .idle } } else s

/-- Whether an UPDATE COMMIT is in work, which holds the guard timer (R80). -/
def State.commitInWork (s : State) : Bool :=
  match s.update.work with
  | some w => w.card.code == 0x0306#16
  | none => false

/-- The guard timer of a CHECKED session expires (R80). -/
def State.guardExpires (s : State) : Bool :=
  match s.update.session with
  | .checked x => decide (guardLimit ≤ elapsed s.pace.tick x.guardStart) && !s.commitInWork
  | .idle => false
  | .opened _ => false

def State.guardExpiry (s : State) : State := if s.guardExpires then s.leaveChecked.serveHeldWipe else s

/-! ## What the update unit's waits end in -/

/-- The update unit's hash job has yielded its result. -/
def State.updateHashEnd (result : Digest) (s : State) : State :=
  match s.update.work with
  | none => s
  | some w => match w.stage with
    | .verifyHash pub =>
      let sig : Signature :=
        if w.card.code = 0x0301#16 then w.card.fieldStr 73 512
        else if w.card.code = 0x0302#16 then w.card.fieldStr 8 512
        else w.card.fieldStr 43 512
      (s.updateStage .verifyCurve).curveSubmit .update (.verify pub result sig)
    | .feed => s.feedEnd result
    | .confirmHash => s.confirmExpect w.card result
    | _ => s

/-- The update unit's hash job has ended with a continuation state and no result: a feed that does not complete the image (R139). -/
def State.updateHashContinued (s : State) : State :=
  match s.update.work with
  | none => s
  | some w => match w.stage with
    | .feed => s.feedMore
    | _ => s

/-- A piece of the update unit's job has ended: only a feed keeps anything of it (R142). -/
def State.updateHashPiece (consumed : Nat) (absorbed : List Byte) (s : State) : State :=
  match s.update.work with
  | none => s
  | some w => match w.stage with
    | .feed => s.feedPiece consumed absorbed
    | _ => s

/-- A read failure of the update unit's job, with the extent it names: only a feed reads extents, and its reply gives the bytes fed
rather than the extent (R78, R140). -/
def State.updateHashFault (_extent : Nat) (s : State) : State :=
  match s.update.work with
  | none => s
  | some w => match w.stage with
    | .feed => s.feedFault
    | _ => s

/-- A withdrawn job of the update unit has ended. A feed's session goes to IDLE and the card is handed back (R90); the cards of the other
hash jobs were handed back when they gave the job up, so the notice is discarded (R142). -/
def State.updateHashWithdrawn (s : State) : State :=
  match s.update.work with
  | none => s
  | some w => match w.stage with
    | .feed => if w.abandoned then s.dropSession.updateRefuse .abandoned else s
    | _ => s

/-- The curve engine has answered a verify. -/
def State.updateCurveEnd (valid : Bool) (s : State) : State :=
  match s.update.work with
  | none => s
  | some w => match w.stage with
    | .verifyCurve =>
      if w.abandoned then s.updateRefuse .abandoned
      else if valid = false then s.updateRefuse .badSignature
      else if w.card.code = 0x0301#16 then s.delegateVerified w.card
      else if w.card.code = 0x0302#16 then s.removalVerified w.card
      else s.manifestVerified w.card
    | _ => s

/-- The measure unit has answered a chain read. -/
def State.updateChainAnswer (value : Digest) (s : State) : State :=
  match s.update.work with
  | none => s
  | some w => match w.stage with
    | .confirmChain expected => s.confirmChain w.card expected value
    | _ => s

/-- The custody unit has answered an installation or removal request (R65 to R68). -/
def State.updateCustodyAnswer (ok : Bool) (s : State) : State :=
  match s.update.work with
  | none => s
  | some w => match w.stage with
    | .installSlot =>
      if ok then s.updateWrite (.mark (markIndex (w.card.slot 0).val) (w.card.fieldStr 69 32)) .installMark
      else s.updateHandBack .storeFault (some (BitVec.ofNat 32 (w.card.slot 0).val)) []
    | .ownerInstall =>
      if ok then
        (s.updateStage .sendingEvent).send .updateAsk
          [.request (.event .ownerAnchorInstalled), .act (.updateSettle .done none [])]
      else s.updateRefuse .storeFault
    | .removeSlot => s.updateRefuse (if ok then .done else .storeFault)
    | .ownerRemove => s.updateRefuse (if ok then .done else .storeFault)
    | _ => s

/-- A store write of the update unit's card has ended. -/
def State.updateWriteEnd (w : Write) (ok : Bool) (s : State) : State :=
  match s.update.work with
  | none => s
  | some x => match x.stage, w with
    | .installMark, .mark i v =>
      if ok then
        (s.setMark i v).updateHandBack .done none (outNum 1 (x.card.slot 0).val ++ outNum 4 v.toNat)
      else s.updateHandBack .storeFault (some (Config.recordName (markRecord i))) []
    | .removeMark, .mark i v => if ok then (s.setMark i v).delegateRemoval x.card else s.updateRefuse .storeFault
    | .commit r, .kind k _ => if ok then s.commitDone k r else (s.updateRefuse .storeFault).guardExpiry
    | .confirm r version signer below, .kind k _ =>
      if ok then s.confirmDone k r version signer below else s.updateRefuse .storeFault
    | .revert r, .kind k _ => if ok then (s.setKind k r).updateRefuse .done else s.updateRefuse .storeFault
    | _, _ => s

/-- The update unit's own DMA write has ended (R87, R90). -/
def State.updateDmaEnd (ok : Bool) (written : Nat) (s : State) : State :=
  match s.update.work with
  | none => s
  | some w => match w.stage with
    | .writeOut bytes detail body =>
      let s := s.writeOutput w.card ok written bytes
      if w.abandoned then s.updateRefuse .abandoned
      else if ok then s.updateHandBack .done detail body
      else s.updateRefuse .linkFault
    | _ => s

/-- A write of the wipe order has ended; with the last one the order is answered, when its last event has been sent: the work that sends
an event that waits for room goes on only when the event has joined the measure unit's list (R38, R89). -/
def State.updateWipeEnd (ok : Bool) (s : State) : State :=
  match s.update.service with
  | none => s
  | some c =>
    let c := { c with outstanding := c.outstanding - 1, failed := c.failed + (!ok).toNat }
    if c.outstanding = 0 ∧ s.outboxes.updateWipe = [] then s.answerUpdateWipe c
    else { s with update := { s.update with service := some c } }

/-- The wipe order reaches its serving point: it is held while the session is CHECKED, and served otherwise (R88, R89). -/
def State.updateWipeOrder (s : State) : State :=
  if decide (s.update.wipe = .arrived) && s.update.work.isNone && s.update.service.isNone then
    match s.update.session with
    | .checked _ => { s with update := { s.update with wipe := .held } }
    | .idle => s.serveUpdateWipe.send .updateWipe []
    | .opened _ => s.serveUpdateWipe.send .updateWipe []
  else s

/-! ## Abandon (R90) -/

/-- The update unit answers the abandon notice for its card in work (R90). R90 speaks of waiting hash jobs; an UPDATE OPEN, a delegate's
anchor card or an UPDATE CONFIRM whose hash piece is in progress is handed back at once, and what the piece gives is discarded (DESIGN
CHOICE, log entry 45). R90 does not say whether an UPDATE CONFIRM that waits for its chain read is handed back at the notice or when the
answer comes: the model hands it back at the notice, and discards the answer when it comes (DESIGN CHOICE, log entry 68). A COMMIT whose
write is withdrawn unsent (log entry 12) leaves the session CHECKED though the guard limit has passed during its hold: R80 has the timer expire
at once behind a STORE FAULT alone, and here the expiry is the row of its own that it is elsewhere (DESIGN CHOICE, log entry 73). -/
def State.updateAbandon (s : State) : State :=
  match s.update.work with
  | none => s
  | some w =>
    let wait : State := { s with update := { s.update with work := some { w with abandoned := true } } }
    if w.committed then s
    else match w.stage with
      | .feed =>
        if s.hash.serves .update then wait.hashWithdraw .update
        else (s.hashWithdraw .update).dropSession.updateRefuse .abandoned
      | .verifyHash _ => (s.hashWithdraw .update).updateRefuse .abandoned
      | .confirmHash => (s.hashWithdraw .update).updateRefuse .abandoned
      | .verifyCurve =>
        if s.curve.serves .update then wait else (s.curveWithdraw .update).updateRefuse .abandoned
      | .confirmChain _ => (s.giveUpRequest none).updateRefuse .abandoned
      | .writeOut _ _ _ => wait
      | .installMark => (s.withdrawWrite .update .updateCard).updateRefuse .abandoned
      | .removeMark => (s.withdrawWrite .update .updateCard).updateRefuse .abandoned
      | .commit _ => (s.withdrawWrite .update .updateCard).updateRefuse .abandoned
      | .confirm _ _ _ _ => (s.withdrawWrite .update .updateCard).updateRefuse .abandoned
      | .revert _ => (s.withdrawWrite .update .updateCard).updateRefuse .abandoned
      | .installSlot => s
      | .removeSlot => s
      | .ownerInstall => s
      | .ownerRemove => s
      | .sendingEvent => s

/-! ## The meanings of the update unit's rows -/

/-- ANCHOR INSTALL begins (R64 to R66). -/
def execAnchorInstall (s : State) : Host.Outcome State Fault Refusal :=
  .next (s.beginUpdate 0x0301#16 .verifyCurve State.anchorInstall)

/-- ANCHOR REMOVE begins (R67, R68). -/
def execAnchorRemove (s : State) : Host.Outcome State Fault Refusal :=
  .next (s.beginUpdate 0x0302#16 .verifyCurve State.anchorRemove)

/-- UPDATE OPEN begins (R73). -/
def execUpdateOpen (s : State) : Host.Outcome State Fault Refusal :=
  .next (s.beginUpdate 0x0303#16 .verifyCurve State.updateOpen)

/-- UPDATE FEED begins (R75, R76). -/
def execUpdateFeed (s : State) : Host.Outcome State Fault Refusal :=
  .next (s.beginUpdate 0x0304#16 .feed State.updateFeed)

/-- UPDATE CANCEL (R81). -/
def execUpdateCancel (s : State) : Host.Outcome State Fault Refusal :=
  .next (s.beginUpdate 0x0305#16 .confirmHash State.updateCancel)

/-- UPDATE COMMIT begins (R82). -/
def execUpdateCommit (s : State) : Host.Outcome State Fault Refusal :=
  .next (s.beginUpdate 0x0306#16 .confirmHash State.updateCommitCard)

/-- UPDATE CONFIRM begins (R84). -/
def execUpdateConfirm (s : State) : Host.Outcome State Fault Refusal :=
  .next (s.beginUpdate 0x0307#16 .confirmHash State.updateConfirm)

/-- UPDATE REVERT begins (R86). -/
def execUpdateRevert (s : State) : Host.Outcome State Fault Refusal :=
  .next (s.beginUpdate 0x0308#16 .confirmHash State.updateRevert)

/-- BOOT ADVICE begins (R87). -/
def execBootAdvice (s : State) : Host.Outcome State Fault Refusal :=
  .next (s.beginUpdate 0x0309#16 .confirmHash State.bootAdvice)

/-- The idle timer's expiry (R79). -/
def execIdleTimerExpiry (s : State) : Host.Outcome State Fault Refusal := .next (s.whenPowered State.idleExpiry)

/-- The guard timer's expiry (R80). -/
def execGuardTimerExpiry (s : State) : Host.Outcome State Fault Refusal := .next (s.whenPowered State.guardExpiry)

/-- The wipe order at the update unit (R89). -/
def execUpdateWipeOrder (s : State) : Host.Outcome State Fault Refusal := .next (s.whenPowered State.updateWipeOrder)

end Sys2Proof.Machine
end

