-- ==== Sys2Proof/Machine/Lifecycle.lean ====
section
/-! DEFINITION. Chapter 6 and R49, R50: the lifecycle controller's cards, its release of ownership, what its waits end in, its
answer to an abandon, and the arrivals it acts on. -/
namespace Sys2Proof.Machine

/-! ## The card in work (R120) -/

/-- The lifecycle controller can begin a card: none is in work, and the first waiting card of its queue carries the code. -/
def State.lifeReady (s : State) (code : Word16) : Option Card :=
  if s.powered && s.lifecycle.work.isNone then (s.nextCard .lifecycle).filter fun c => c.code == code else none

/-- The lifecycle controller begins the card of a code, if it can. -/
def State.beginLife (code : Word16) (stage : LifeStage) (body : Card → State → State) (s : State) : State :=
  match s.lifeReady code with
  | some c =>
    body c ({ s with lifecycle := { s.lifecycle with
      work := some { card := c, stage := stage, abandoned := false, committed := false } } }.beginCard c)
  | none => s

def State.lifeStage (stage : LifeStage) (s : State) : State :=
  { s with lifecycle := { s.lifecycle with work := s.lifecycle.work.map fun w => { w with stage := stage } } }

/-- The card in work has sent an installation request, or has taken a release request: it is committed (R137). -/
def State.lifeCommit (s : State) : State :=
  { s with lifecycle := { s.lifecycle with work := s.lifecycle.work.map Work.commit } }

def State.lifeHandBack (o : CardOutcome) (detail : Option Word32) (body : List OutByte) (s : State) : State :=
  match s.lifecycle.work with
  | some w => ({ s with lifecycle := { s.lifecycle with work := none } }).handBack w.card o detail body
  | none => s

def State.lifeBad (field : Nat) (s : State) : State := s.lifeHandBack .badRequest (some (BitVec.ofNat 32 field)) []

def State.lifeRefuse (o : CardOutcome) (s : State) : State := s.lifeHandBack o none []

/-! ## Factory setup (R121 to R125) -/

/-- A factory card: its form, then the lifecycle, then its own steps (R121). -/
def State.factory (form : Card → Option Nat) (body : Card → State → State) (c : Card) (s : State) : State :=
  match form c with
  | some n => s.lifeBad n
  | none => if s.lifecycle.effective = .blank then body c s else s.lifeRefuse .wrongLifecycle

/-- FACTORY IDENTITY has passed its randomness gate: it draws the seed and asks the curve engine (R122, R145). -/
def State.identityDraw (s : State) : State :=
  ((s.lifeStage .generate).afterDraw 32).curveSubmit .lifecycle (.generate (strOf 256 (s.drawn 32)))

def State.factoryIdentity (s : State) : State :=
  if (s.slot 1).isSome then s.lifeRefuse .slotInUse
  else match s.gate with
    | .pass => s.identityDraw
    | .wait => (s.lifeStage .gate).joinWaiters .lifecycle
    | .refuse => s.lifeRefuse .entropy

/-- The record of slot 1: the identity key pair (R1, R2, R21, R48). The spec states neither the use total nor the label of an installed
record: total 0 and an empty label (DESIGN CHOICE, log entry 49). -/
def identityRecord (scalar : Scalar) (pub : PublicKey) : KeyRecord :=
  { state := .live, cls := .identity, material := .p256 (some scalar) pub, flags := KeyFlags.none, binding := none,
    limit := none, total := 0, label := [], anchor := none }

/-- The key pair is generated: the custody unit is asked to install it (R122 step 4). -/
def State.identityGenerated (scalar : Scalar) (pub : PublicKey) (s : State) : State :=
  ((s.lifeStage (.install (outBytes (strBytes pub)))).lifeCommit).askCustody
    (.install 1 (identityRecord scalar pub) .lifecycle)

/-- FACTORY ROOT (R123). -/
def State.factoryRoot (c : Card) (s : State) : State :=
  ((s.lifeStage (.install [])).lifeCommit).askCustody
    (.install 0 (anchorRecord .root (c.fieldStr 0 512) none) .lifecycle)

/-- The policy of a FACTORY PAIRING (R194). -/
def pairingPolicy (c : Card) : Policy := { charge := c.field 90 2, decay := c.field 92 2, lock := c.field 94 2 }

/-- FACTORY PAIRING sends the credential unit its installation request (R124). -/
def State.factoryPairing (c : Card) (s : State) : State :=
  let s := (s.lifeStage .pairing).lifeCommit
  { s with credential := { s.credential with
      held := s.credential.held ++ [.pairing (c.fieldBytes 1 (c.field 0 1)) (c.fieldBytes 66 (c.field 65 1)) (pairingPolicy c)] } }

/-- Whether the credential table holds a FACTORY PAIRING record (R125). -/
def State.hasPairing (s : State) : Bool :=
  s.credential.table.toList.any fun e => match e with
    | some x => x.record.kind == .pairing && x.record.cls == .factory
    | none => false

/-- The first factory installation that is missing (R125, R192). -/
def State.missingInstallation (s : State) : Option Nat :=
  firstBad [((s.slot 0).isNone, 1), ((s.slot 1).isNone, 2), (s.lifecycle.certificate.isNone, 3), (!s.hasPairing, 4)]

def State.factoryFinish (s : State) : State :=
  match s.missingInstallation with
  | some n => s.lifeBad n
  | none => (s.lifeStage .finish).send .lifecycle [.write (.lifecycle { effective := .unclaimed, marker := false }) .lifeCard]

/-! ## Releasing ownership (R130 to R134) -/

/-- Whether a release request can be taken (R131, R132). A line hold that reaches 40 after a claim's write has ended and before OWNERSHIP
CLAIMED has been accepted finds the part CLAIMED with no release pending: the request is taken, and the claim's presence then stays closed,
where R126 has the census alone keep it closed (DESIGN CHOICE, log entry 39). -/
def State.releaseMayBegin (s : State) : Bool := decide (s.lifecycle.effective = .claimed) && !s.lifecycle.pending

/-- A release request is taken, in one act (R131). -/
def State.takeRelease (s : State) : State :=
  ({ s with lifecycle := { s.lifecycle with
      requested := .unclaimed, pending := true, progress := .marking, presence := none } }).send .lifecycle
    [.write (.lifecycle { effective := .claimed, marker := true }) .lifeMarker]

def State.ownershipRelease (c : Card) (s : State) : State :=
  match noFieldsForm c with
  | some n => s.lifeBad n
  | none =>
    if s.lifecycle.effective ≠ .claimed then s.lifeRefuse .wrongLifecycle
    else if s.lifecycle.pending then s.lifeRefuse .wiping
    else if s.presenceOpen = false then s.lifeRefuse .needsPresence
    else ((s.lifeStage .release).lifeCommit).takeRelease

/-- An OWNERSHIP RELEASE card in work is handed back. -/
def State.settleRelease (o : CardOutcome) (detail : Option Word32) (s : State) : State :=
  match s.lifecycle.work with
  | some w => match w.stage with
    | .release => s.lifeHandBack o detail []
    | _ => s
  | none => s

/-- The marker write has ended (R130, R131). -/
def State.markerEnd (ok : Bool) (s : State) : State :=
  if s.lifecycle.progress ≠ .marking then s
  else if ok then
    let s : State := { s with lifecycle := { s.lifecycle with marker := true } }
    let s := match s.update.session with
      | .checked _ => { s with lifecycle := { s.lifecycle with progress := .deferred } }
      | .idle => s.sendWipeOrders
      | .opened _ => s.sendWipeOrders
    s.settleRelease .done (some (BitVec.ofNat 32 s.lifecycle.progress.code))
  else
    ({ s with lifecycle := { s.lifecycle with
        requested := .claimed, pending := false, progress := .none } }).settleRelease .storeFault none

/-- The closing write has ended (R134). -/
def State.closingEnd (ok : Bool) (s : State) : State :=
  if s.lifecycle.progress ≠ .closing then s
  else if ok then
    ({ s with lifecycle := { s.lifecycle with
        effective := .unclaimed, marker := false, pending := false, progress := .none } }).send .lifecycleAsk
      [.request (.event .ownershipReleased), .act .releaseDone]
  else { s with lifecycle := { s.lifecycle with progress := .incomplete } }

/-- The counts of the three answers (R134). -/
def wipeCountsOf (custody credential update : WipeTally) : WipeCounts :=
  { slots := custody.erased, records := credential.erased, trials := update.erased
    slotsFailed := custody.failed, recordsFailed := credential.failed, trialsFailed := update.failed }

def WipeCounts.anyFailed (c : WipeCounts) : Bool := decide (0 < c.slotsFailed + c.recordsFailed + c.trialsFailed)

/-- All three answers have arrived: their counts are recorded, and the release goes to CLOSING or INCOMPLETE (R134). -/
def State.answersComplete (c : WipeCounts) (s : State) : State :=
  if s.lifecycle.progress ≠ .wiping then s else
  let s : State := { s with lifecycle := { s.lifecycle with counts := c, answersTaken := Trio.empty } }
  if c.anyFailed then { s with lifecycle := { s.lifecycle with progress := .incomplete } }
  else
    ({ s with lifecycle := { s.lifecycle with progress := .closing } }).send .lifecycle
      [.write (.lifecycle { effective := .unclaimed, marker := false }) .lifeClosing]

def Trio.get {α : Type} (t : Trio α) : WipeUnit → α
  | .custody => t.custody
  | .credential => t.credential
  | .update => t.update

def Trio.put {α : Type} (t : Trio α) (u : WipeUnit) (x : α) : Trio α :=
  match u with
  | .custody => { t with custody := x }
  | .credential => { t with credential := x }
  | .update => { t with update := x }

/-- A unit's answer to its wipe order reaches the controller (R133, R134). -/
def State.wipeAnswer (u : WipeUnit) (s : State) : State :=
  match s.lifecycle.answersSent.get u with
  | none => s
  | some t =>
    let taken := s.lifecycle.answersTaken.put u (some t)
    let s : State := { s with lifecycle := { s.lifecycle with
      answersSent := s.lifecycle.answersSent.put u none, answersTaken := taken } }
    match taken.custody, taken.credential, taken.update with
    | some a, some b, some d => s.answersComplete (wipeCountsOf a b d)
    | _, _, _ => s

/-- The session-left-checked notice (R133). -/
def State.sessionLeftChecked (s : State) : State :=
  if 0 < s.lifecycle.notices then
    let s : State := { s with lifecycle := { s.lifecycle with notices := s.lifecycle.notices - 1 } }
    if s.lifecycle.progress = .deferred then s.sendWipeOrders else s
  else s

/-! ## Presence and the owner-release line (R128, R129, R132) -/

/-- The detail word of OWNER WITHDRAW (R129, R194): bit 16 says whether presence was open, and bits 15:0 the ticks it had left. R129 has it
state ticks only if presence was open, and the ticks of closed presence are a free value; bits 31:17, to which R194 gives no field, are 0
(DESIGN CHOICE, log entry 65). -/
def State.withdrawDetail (s : State) : Word32 :=
  if s.presenceOpen then BitVec.ofNat 32 (65536 + s.presenceLeft) else Config.freeWord s.free &&& 0xFFFF#32

/-- The part after that detail word: the ticks of closed presence have taken a free value. -/
def State.afterWithdrawDetail (s : State) : State := { s with free := s.free + if s.presenceOpen then 0 else 1 }

/-- OWNER WITHDRAW closes presence and settles DONE (R129). -/
def State.ownerWithdraw (c : Card) (s : State) : State :=
  match noFieldsForm c with
  | some n => s.lifeBad n
  | none => s.afterWithdrawDetail.closePresence.lifeHandBack .done (some s.withdrawDetail) []

/-- The census's report that it has entered FAILED (R128). -/
def State.censusFailedReport (s : State) : State :=
  if 0 < s.lifecycle.reports then
    ({ s with lifecycle := { s.lifecycle with reports := s.lifecycle.reports - 1 } }).endPresence
  else s

/-- The present tick is the expiry tick of open presence (R128). -/
def State.presenceDue (s : State) : Bool := decide (s.lifecycle.presence = some s.pace.tick)

def State.presenceExpiry (s : State) : State := if s.presenceDue then s.endPresence else s

/-- The sample that brought the hold count to 40 makes its release request (R132). -/
def State.ownerReleaseHold (s : State) : State :=
  if s.lifecycle.holdDue then
    let s : State := { s with lifecycle := { s.lifecycle with holdDue := false } }
    if s.releaseMayBegin then s.takeRelease else s
  else s

/-- The hold count after a sample of the line (R132). -/
def holdAfter (hold : Nat) (low : Bool) : Nat := if low then min 40 (hold + 1) else 0

/-- The line is sampled (R132). -/
def State.sampleLine (low : Bool) (s : State) : State :=
  { s with lifecycle := { s.lifecycle with
      hold := holdAfter s.lifecycle.hold low
      holdDue := low && decide (s.lifecycle.hold = 39) } }

/-! ## Describing (R50, R136) -/

def WipeCounts.body (c : WipeCounts) : List OutByte :=
  outNum 1 c.slots ++ outNum 1 c.records ++ outNum 1 c.trials
    ++ outNum 1 c.slotsFailed ++ outNum 1 c.recordsFailed ++ outNum 1 c.trialsFailed

/-- The reply body of LIFECYCLE DESCRIBE (R136, R194). -/
def State.lifecycleReply (s : State) : List OutByte :=
  outNum 1 s.lifecycle.effective.code ++ outNum 1 s.lifecycle.requested.code ++ outNum 1 s.lifecycle.pending.toNat
    ++ outNum 1 s.lifecycle.progress.code ++ s.lifecycle.counts.body ++ s.presenceReply ++ outNum 1 s.lifecycle.hold
    ++ outNum 1 s.census.state.code ++ outNum 1 s.census.a.toNat ++ outNum 1 s.census.b.toNat ++ outNum 1 s.census.r.toNat
    ++ outNum 4 s.pace.tick.toNat ++ outNum 1 s.store.map.spares ++ outNum 2 s.measure.missed

/-- LIFECYCLE DESCRIBE (R31, R136). R31 has it report the missed count, the TRUNCATED flag and the record count; the reply body of R136 and
R194 holds the first alone, so the detail word, for which no rule states another content, reports the other two (DESIGN CHOICE, log entry
50). -/
def State.lifecycleDescribe (c : Card) (s : State) : State :=
  match noFieldsForm c with
  | some n => s.lifeBad n
  | none => s.lifeHandBack .done (some (Config.recordReport s.measure.records.length s.measure.truncated)) s.lifecycleReply

/-- The bytes IDENTITY DESCRIBE writes: the identity public key, then the certificate (R50). -/
def State.identityOutput (s : State) : List Byte :=
  (match s.publicKeyOf 1 with
    | some pub => strBytes pub
    | none => []) ++ s.lifecycle.certificate.getD []

/-- The reply body of IDENTITY DESCRIBE (R50, R194). -/
def State.identityReply (s : State) : List OutByte :=
  outNum 1 (s.slot 1).isSome.toNat ++ outNum 1 s.lifecycle.certificate.isSome.toNat
    ++ outNum 2 (s.lifecycle.certificate.getD []).length ++ outNum 1 s.lifecycle.effective.code

/-- IDENTITY DESCRIBE. R50 has slot 1 and the certificate read at one instant and names none for the effective lifecycle of the reply: the
model reads all three when the card begins, before the DMA write (DESIGN CHOICE, log entry 54). -/
def State.identityDescribe (c : Card) (s : State) : State :=
  match oneExtentForm c with
  | some n => s.lifeBad n
  | none =>
    let out := s.identityOutput
    if c.extentLength 0 < out.length then s.lifeBad out.length
    else if out.isEmpty then s.lifeHandBack .done (some 0#32) s.identityReply
    else s.lifeStage (.writeOut out (some (BitVec.ofNat 32 out.length)) s.identityReply)

/-! ## What the controller's waits end in -/

/-- The census has answered FACTORY IDENTITY at its gate (R122, R153). -/
def State.lifeGate (healthy : Bool) (s : State) : State :=
  match s.lifecycle.work with
  | none => s
  | some w => match w.stage with
    | .gate => if healthy then s.identityDraw else s.lifeRefuse .entropy
    | _ => s

/-- The curve engine has generated the identity (R122, R137). -/
def State.lifeCurveEnd (scalar : Scalar) (pub : PublicKey) (s : State) : State :=
  match s.lifecycle.work with
  | none => s
  | some w => match w.stage with
    | .generate => if w.abandoned then s.lifeRefuse .abandoned else s.identityGenerated scalar pub
    | _ => s

/-- The custody unit has answered an installation request (R122, R123). -/
def State.lifeInstallAnswer (ok : Bool) (s : State) : State :=
  match s.lifecycle.work with
  | none => s
  | some w => match w.stage with
    | .install body => if ok then s.lifeHandBack .done none body else s.lifeRefuse .storeFault
    | _ => s

/-- The credential unit has answered the pairing installation request (R124). -/
def State.lifePairingAnswer (o : CardOutcome) (body : List OutByte) (s : State) : State :=
  match s.lifecycle.work with
  | none => s
  | some w => match w.stage with
    | .pairing => s.lifeHandBack o none body
    | _ => s

/-- A store write of the controller's card has ended (R123, R125). -/
def State.lifeWriteEnd (ok : Bool) (s : State) : State :=
  match s.lifecycle.work with
  | none => s
  | some w => match w.stage with
    | .certificateWrite bytes =>
      if ok then
        ({ s with lifecycle := { s.lifecycle with certificate := some bytes } }).lifeHandBack .done
          (some (BitVec.ofNat 32 bytes.length)) []
      else s.lifeRefuse .storeFault
    | .finish =>
      if ok then
        ({ s with lifecycle := { s.lifecycle with
            effective := .unclaimed, requested := .unclaimed, marker := false } }).lifeRefuse .done
      else s.lifeRefuse .storeFault
    | _ => s

/-- The controller's own DMA access has ended (R50, R123, R137). -/
def State.lifeDmaEnd (ok : Bool) (written : Nat) (s : State) : State :=
  match s.lifecycle.work with
  | none => s
  | some w => match w.stage with
    | .readCertificate =>
      let bytes := Memory.readBytes s.host (w.card.extentAddress 0) (w.card.extentLength 0)
      if w.abandoned then s.lifeRefuse .abandoned
      else if ok then (s.lifeStage (.certificateWrite bytes)).send .lifecycle [.write (.certificate bytes) .lifeCard]
      else s.lifeRefuse .linkFault
    | .writeOut bytes detail body =>
      let s := s.writeOutput w.card ok written bytes
      if w.abandoned then s.lifeRefuse .abandoned
      else if ok then s.lifeHandBack .done detail body
      else s.lifeRefuse .linkFault
    | _ => s

/-! ## Abandon (R137) -/

def State.lifeAbandon (s : State) : State :=
  match s.lifecycle.work with
  | none => s
  | some w =>
    let wait : State := { s with lifecycle := { s.lifecycle with work := some { w with abandoned := true } } }
    if w.committed then s
    else match w.stage with
      | .gate => (s.leaveWaiters .lifecycle).lifeRefuse .abandoned
      | .generate => if s.curve.serves .lifecycle then wait else (s.curveWithdraw .lifecycle).lifeRefuse .abandoned
      | .readCertificate => wait
      | .writeOut _ _ _ => wait
      | .certificateWrite _ => (s.withdrawWrite .lifecycle .lifeCard).lifeRefuse .abandoned
      | .finish => (s.withdrawWrite .lifecycle .lifeCard).lifeRefuse .abandoned
      | .install _ => s
      | .pairing => s
      | .release => s

/-! ## The meanings of the controller's rows -/

/-- FACTORY IDENTITY begins (R122). -/
def execFactoryIdentity (s : State) : Host.Outcome State Fault Refusal :=
  .next (s.beginLife 0x0501#16 .gate (State.factory noFieldsForm fun _ => State.factoryIdentity))

/-- FACTORY ROOT begins (R123). -/
def execFactoryRoot (s : State) : Host.Outcome State Fault Refusal :=
  .next (s.beginLife 0x0502#16 .pairing (State.factory noFieldsForm State.factoryRoot))

/-- FACTORY CERTIFICATE begins (R123). -/
def execFactoryCertificate (s : State) : Host.Outcome State Fault Refusal :=
  .next (s.beginLife 0x0503#16 .readCertificate (State.factory factoryCertificateForm fun _ s => s))

/-- FACTORY PAIRING begins (R124). -/
def execFactoryPairing (s : State) : Host.Outcome State Fault Refusal :=
  .next (s.beginLife 0x0504#16 .pairing (State.factory factoryPairingForm State.factoryPairing))

/-- FACTORY FINISH begins (R125). -/
def execFactoryFinish (s : State) : Host.Outcome State Fault Refusal :=
  .next (s.beginLife 0x0505#16 .finish (State.factory noFieldsForm fun _ => State.factoryFinish))

/-- OWNERSHIP RELEASE begins (R130). -/
def execOwnershipRelease (s : State) : Host.Outcome State Fault Refusal :=
  .next (s.beginLife 0x0506#16 .release State.ownershipRelease)

/-- OWNER WITHDRAW (R129). -/
def execOwnerWithdraw (s : State) : Host.Outcome State Fault Refusal :=
  .next (s.beginLife 0x0507#16 .pairing State.ownerWithdraw)

/-- LIFECYCLE DESCRIBE (R136). -/
def execLifecycleDescribe (s : State) : Host.Outcome State Fault Refusal :=
  .next (s.beginLife 0x0508#16 .pairing State.lifecycleDescribe)

/-- IDENTITY DESCRIBE begins (R50). -/
def execIdentityDescribe (s : State) : Host.Outcome State Fault Refusal :=
  .next (s.beginLife 0x0509#16 .pairing State.identityDescribe)

/-- The owner-release hold reaches 40 (R132). -/
def execOwnerReleaseHold (s : State) : Host.Outcome State Fault Refusal := .next (s.whenPowered State.ownerReleaseHold)

/-- Presence reaches its expiry tick (R128). -/
def execPresenceExpiry (s : State) : Host.Outcome State Fault Refusal := .next (s.whenPowered State.presenceExpiry)

/-- The session-left-checked notice (R133). -/
def execSessionLeftCheckedNotice (s : State) : Host.Outcome State Fault Refusal :=
  .next (s.whenPowered State.sessionLeftChecked)

/-- The census's report of entering FAILED (R128). -/
def execCensusFailedReport (s : State) : Host.Outcome State Fault Refusal := .next (s.whenPowered State.censusFailedReport)

end Sys2Proof.Machine
end

