-- ==== Sys2Proof/Machine/Custody.lean ====
section
/-! DEFINITION. Chapter 1: the custody unit's cards, the requests other blocks send it, what its waits end in, and its answer to an
abandon. -/
namespace Sys2Proof.Machine

/-! ## The card in work (R5) -/

/-- The custody unit can begin a card: none is in work, no request of another block is held or in service, and the first waiting card
of its queue carries the code. -/
def State.custodyReady (s : State) (code : Word16) : Option Card :=
  if s.powered && s.custody.work.isNone && s.custody.service.isNone && s.custody.held.isEmpty then
    (s.nextCard .custody).filter fun c => c.code == code
  else none

/-- The custody unit begins the card of a code, if it can. -/
def State.beginCustody (code : Word16) (body : Card → State → State) (s : State) : State :=
  match s.custodyReady code with
  | some c =>
    body c ({ s with custody := { s.custody with
      work := some { card := c, stage := .gate, abandoned := false, committed := false }, undo := none } }.beginCard c)
  | none => s

def State.custodyStage (stage : CustodyStage) (s : State) : State :=
  { s with custody := { s.custody with work := s.custody.work.map fun w => { w with stage := stage } } }

def State.custodyCommit (s : State) : State :=
  { s with custody := { s.custody with work := s.custody.work.map Work.commit } }

def State.custodyHandBack (o : CardOutcome) (detail : Option Word32) (body : List OutByte) (s : State) : State :=
  match s.custody.work with
  | some w => ({ s with custody := { s.custody with work := none, undo := none } }).handBack w.card o detail body
  | none => s

/-- The key table without the use that the card in work has completed in the table alone: the slot has its former record (R6, R24, R25;
DEDUCED, log entry 25). A use that the store has written leaves nothing to take back, and stays counted (R9, R15). -/
def Custody.takenBack (u : Custody) : Vector (Option KeyRecord) 48 :=
  match u.undo with
  | some (i, r) => tableSet u.table i (some r)
  | none => u.table

/-- The use that the card in work has completed in the table alone is taken back (R6, R24, R25). -/
def State.takeBackUse (s : State) : State := { s with custody := { s.custody with table := s.custody.takenBack } }

/-- A card handed back ABANDONED leaves the table as it was before the card began (R24). -/
def State.custodyGiveUp (s : State) : State := s.takeBackUse.custodyHandBack .abandoned none []

def State.custodyBad (field : Nat) (s : State) : State := s.custodyHandBack .badRequest (some (BitVec.ofNat 32 field)) []

def State.custodyRefuse (o : CardOutcome) (s : State) : State := s.custodyHandBack o none []

/-- A refusal whose detail word names the slot refused (R9, R11). -/
def State.custodyRefuseSlot (o : CardOutcome) (i : Fin 48) (s : State) : State :=
  s.custodyHandBack o (some (BitVec.ofNat 32 i.val)) []

/-! ## Slots (R1) -/

/-- The store's record of a slot: slots 0 to 31 are persistent (R1, R4). -/
def storeSlot (i : Fin 48) : Option (Fin 32) := if h : i.val < 32 then some ⟨i.val, h⟩ else none

/-- A fixed slot, 0 to 5. -/
def isFixed (i : Fin 48) : Bool := decide (i.val < 6)

/-- The class fits the slot (R1, R7). -/
def classFits (cls : KeyClass) (i : Fin 48) : Bool :=
  match cls with
  | .owner => decide (6 ≤ i.val ∧ i.val ≤ 31)
  | .platform => decide (6 ≤ i.val ∧ i.val ≤ 31)
  | .session => decide (32 ≤ i.val)
  | .root => false
  | .identity => false
  | .delegate => false
  | .ownerAnchor => false

/-! ## Writing a record (R8, R12, R17 to R19) -/

/-- A changed record of the card's slot: a persistent slot is written to the store before the table takes it, a volatile slot takes it
at once. -/
def State.custodyPlace (i : Fin 48) (value : Option KeyRecord) (faultDetail : Option Word32) (detail : Option Word32)
    (body : List OutByte) (s : State) : State :=
  match storeSlot i with
  | some j =>
    (s.custodyStage (.record i value faultDetail (.settle .done detail body))).send .custody [.write (.slot j value) .custodyCard]
  | none => (s.setSlot i value).custodyHandBack .done detail body

/-- What a completed record leads to. A target's write names its slot in the detail word of STORE FAULT, also when it is the only write
of its KEY IMPORT (R9; DESIGN CHOICE for one write, log entry 59). -/
def State.custodyThen (t : CustodyThen) (s : State) : State :=
  match t with
  | .settle o detail body => s.custodyHandBack o detail body
  | .writeBlob blob => s.custodyStage (.writeOut blob (some 163#32) [])
  | .importTarget target record => s.custodyPlace target (some record) (some (BitVec.ofNat 32 target.val)) none []

/-- Whether the use a card makes of its slot is counted. -/
def State.isCounted (s : State) (i : Fin 48) : Bool := ((s.slot i).bind (·.limit)).isSome

/-- A counted use whose curve operation or hash job has ended with a result is committed (R24). -/
def State.custodyCommitCounted (i : Fin 48) (s : State) : State := if s.isCounted i then s.custodyCommit else s

/-- A use has succeeded: it is completed on the slot record, in the store first where R12 says so, and the card goes on (R12). The
former record of a use completed in the table alone is kept, for a card that is refused or handed back ABANDONED after it
(`State.takeBackUse`). -/
def State.completeUse (i : Fin 48) (faultDetail : Option Word32) (t : CustodyThen) (s : State) : State :=
  match s.slot i with
  | none => s.custodyThen t
  | some r =>
    match (if r.useIsWritten then storeSlot i else none) with
    | some j =>
      (s.custodyStage (.record i (some r.used) faultDetail t)).send .custody
        [.write (.slot j (some r.used)) .custodyCard]
    | none =>
      let s := s.setSlot i (some r.used)
      ({ s with custody := { s.custody with undo := some (i, r) } }).custodyThen t

/-! ## The use check (R11) -/

/-- Checks 1 to 5 of the use check. -/
def State.useRefusal (s : State) (use : KeyUse) (i : Fin 48) : Option CardOutcome :=
  match s.slot i with
  | none => some .slotEmpty
  | some r =>
    if r.state = .spent then some .spent
    else if r.flags.permits use = false then some .notPermitted
    else if r.cls = .owner ∧ s.lifecycle.pending = true then some .wiping
    else if r.flags.needsPresence = true ∧ s.presenceOpen = false then some .needsPresence
    else none

/-- The use check; a bound slot waits for the measure unit's answer. -/
def State.useCheck (use : KeyUse) (i : Fin 48) (next : State → State) (s : State) : State :=
  match s.useRefusal use i with
  | some o => s.custodyRefuseSlot o i
  | none =>
    match (s.slot i).bind (·.binding) with
    | some b => (s.custodyStage (.binding use)).sendCheck .custodyAsk .custody b
    | none => next s

/-! ## Creation (R7 to R10) -/

/-- Checks 5 and 6 of R7. -/
def State.creationRefusal (s : State) (cls : KeyClass) : Option CardOutcome :=
  if s.lifecycle.effective = .blank then some .wrongLifecycle
  else if cls ≠ .owner then none
  else s.ownerRefusal

/-- The card is at its randomness gate (R10). -/
def State.custodyGate (next : State → State) (s : State) : State :=
  match s.gate with
  | .pass => next s
  | .wait => (s.custodyStage .gate).joinWaiters .custody
  | .refuse => s.custodyRefuse .entropy

/-- The record a KEY GENERATE makes (R8). -/
def generatedRecord (c : Card) (m : KeyMaterial) : KeyRecord :=
  let f := keyGenerateFields c
  { state := .provisional, cls := f.cls, material := m, flags := keyGenerateFlags c, binding := keyGenerateBinding c,
    limit := f.limit, total := 0, label := f.label, anchor := none }

/-- The key material of a KEY GENERATE is ready (R8). -/
def State.generated (c : Card) (m : KeyMaterial) (body : List OutByte) (s : State) : State :=
  s.custodyPlace (keyGenerateFields c).target (some (generatedRecord c m)) none none body

/-- KEY GENERATE after its gate: checks 5 to 7 of R7, then R8. -/
def State.generateAfterGate (c : Card) (s : State) : State :=
  match s.creationRefusal (keyGenerateFields c).cls with
  | some o => s.custodyRefuse o
  | none =>
    if (keyGenerateFlags c).fits (keyGenerateAlgorithm c) = false then s.custodyBad 4
    else
      match keyGenerateAlgorithm c with
      | .p256Sign =>
        ((s.custodyStage .curveGenerate).afterDraw 32).curveSubmit .custody (.generate (strOf 256 (s.drawn 32)))
      | .hmac256 => (s.afterDraw 32).generated c (.hmac256 (strOf 256 (s.drawn 32))) []
      | .wrap256 => (s.afterDraw 32).generated c (.wrap256 (strOf 256 (s.drawn 32))) []

/-- Checks 1 to 3 of R7; `n` is the number of the class field. -/
def State.creationChecks (f : CreateFields) (n : Nat) (next : State → State) (s : State) : State :=
  if isFixed f.target then s.custodyRefuse .notPermitted
  else if classFits f.cls f.target = false then s.custodyBad n
  else if (s.slot f.target).isSome then s.custodyRefuse .slotInUse
  else next s

def State.keyGenerate (c : Card) (s : State) : State :=
  match keyGenerateForm c with
  | some n => s.custodyBad n
  | none => s.creationChecks (keyGenerateFields c) 2 (State.custodyGate (State.generateAfterGate c))

/-- The unwrapping slot of KEY IMPORT, and the wrapping slot of KEY WRAP OUT. -/
def wrapSlot (c : Card) : Fin 48 := c.slot 1

/-- KEY IMPORT's unwrapping slot has passed its use check (R9 steps 1 and 2). R9 does not say whether an extent of another length than the
blob's is refused before the read is tried: the model refuses it BAD REQUEST first and makes no access, so that such an extent is never
LINK FAULT (DESIGN CHOICE, log entry 55). -/
def State.importRead (c : Card) (s : State) : State :=
  if c.extentLength 0 ≠ 163 then s.custodyBad 0x110 else s.custodyStage .readBlob

def State.keyImport (c : Card) (s : State) : State :=
  match keyImportForm c with
  | some n => s.custodyBad n
  | none =>
    s.creationChecks (keyImportFields c) 3 fun s =>
      match s.creationRefusal (keyImportFields c).cls with
      | some o => s.custodyRefuse o
      | none => s.useCheck .unwrap (wrapSlot c) (State.importRead c)

/-- The record a KEY IMPORT makes (R9). -/
def importedRecord (c : Card) (b : BlobContents) : KeyRecord :=
  let f := keyImportFields c
  { state := .provisional, cls := f.cls, material := b.material, flags := b.flags, binding := b.binding, limit := f.limit,
    total := 0, label := f.label, anchor := none }

/-- The wrap key of a slot. -/
def State.wrapKeyOf (s : State) (i : Fin 48) : Key256 := ((s.slot i).map fun r => r.material.wrapKey).getD 0#256

/-- What a blob holds when it is opened under a slot's key; `none` when it is refused BAD BLOB (R9 steps 3 and 4). -/
def State.opened (s : State) (i : Fin 48) (blob : List Byte) : Option BlobContents :=
  (openBlob (s.wrapKeyOf i) blob).bind blobContents

/-- KEY IMPORT has read its blob (R9 steps 3 and 4). R9 names the detail words of STORE FAULT for two writes alone; with one write due, the
model gives the number of the slot whose write failed there too (DESIGN CHOICE, log entry 59). -/
def State.importBlob (c : Card) (blob : List Byte) (s : State) : State :=
  match s.opened (wrapSlot c) blob with
  | none => s.custodyRefuse .badBlob
  | some b =>
    s.completeUse (wrapSlot c) (some (BitVec.ofNat 32 (wrapSlot c).val))
      (.importTarget (keyImportFields c).target (importedRecord c b))

/-! ## Uses (R13 to R16) -/

/-- The scalar of a slot's key pair. -/
def State.scalarOf (s : State) (i : Fin 48) : Scalar := ((s.slot i).bind fun r => r.material.scalar).getD 0#256

/-- KEY SIGN has passed its use check (R13). -/
def State.signStart (c : Card) (s : State) : State :=
  (s.custodyStage .curveSign).curveSubmit .custody (.sign (s.scalarOf (c.slot 0)) (c.fieldStr 2 256))

def State.keySign (c : Card) (s : State) : State :=
  match keySignForm c with
  | some n => s.custodyBad n
  | none => s.useCheck .sign (c.slot 0) (State.signStart c)

/-- The secret of a slot's HMAC key. -/
def State.macKeyOf (s : State) (i : Fin 48) : Key256 := ((s.slot i).map fun r => r.material.macKey).getD 0#256

/-- KEY MAC has passed its use check (R14). -/
def State.macStart (c : Card) (s : State) : State :=
  (s.custodyStage .mac).hashSubmit .custody
    { fn := .hmac (s.macKeyOf (c.slot 0)), absorbed := [], source := .extents c.extentSource, finalize := true }

def State.keyMac (c : Card) (s : State) : State :=
  match keyMacForm c with
  | some n => s.custodyBad n
  | none => s.useCheck .mac (c.slot 0) (State.macStart c)

/-- KEY WRAP OUT has passed its gate: the nonce is drawn, the blob sealed and the wrapping slot's use completed (R15). -/
def State.wrapSeal (c : Card) (s : State) : State :=
  let nonce : Nonce := strOf 96 (s.drawn 12)
  let text := ((s.slot (c.slot 0)).map blobPlaintext).getD []
  let blob := sealBlob (s.wrapKeyOf (wrapSlot c)) nonce (s.filled text)
  ((s.afterDraw 12).afterFill text).completeUse (wrapSlot c) none (.writeBlob blob)

/-- The source of KEY WRAP OUT has passed its use check: checks 4 and 5 of R15. The refusal of a source with a use limit names the source slot
in its detail word, as R11 has the refusals of its own checks do; R15 gives no detail word (DEDUCED, log entry 70). -/
def State.wrapSource (c : Card) (s : State) : State :=
  if ((s.slot (c.slot 0)).bind (·.limit)).isSome then s.custodyRefuseSlot .notPermitted (c.slot 0)
  else s.custodyGate (State.wrapSeal c)

/-- The wrapping slot of KEY WRAP OUT has passed its use check: check 3 of R15. -/
def State.wrapWrapping (c : Card) (s : State) : State := s.useCheck .source (c.slot 0) (State.wrapSource c)

def State.keyWrapOut (c : Card) (s : State) : State :=
  match keyWrapOutForm c with
  | some n => s.custodyBad n
  | none => s.useCheck .wrapping (wrapSlot c) (State.wrapWrapping c)

/-- DRAW RANDOM has passed its gate (R16). -/
def State.drawAfterGate (c : Card) (s : State) : State :=
  let n := c.field 0 1
  (s.afterDraw n).custodyHandBack .done (some (BitVec.ofNat 32 n)) (outBytes (s.drawn n))

def State.drawRandom (c : Card) (s : State) : State :=
  match drawRandomForm c with
  | some n => s.custodyBad n
  | none => s.custodyGate (State.drawAfterGate c)

/-! ## Changing, finalizing, erasing and describing (R17 to R20) -/

/-- The checks that R17 and R18 share, in order; the record they leave. -/
def State.changeable (s : State) (i : Fin 48) : CardOutcome ⊕ KeyRecord :=
  if isFixed i then .inl .notPermitted
  else match s.slot i with
    | none => .inl .slotEmpty
    | some r =>
      if r.state = .spent then .inl .spent
      else if r.cls = .owner ∧ s.lifecycle.pending = true then .inl .wiping
      else .inr r

def State.keySetAttributes (c : Card) (s : State) : State :=
  match keySetForm c with
  | some n => s.custodyBad n
  | none => match s.changeable (c.slot 0) with
    | .inl o => s.custodyRefuse o
    | .inr r =>
      let new := r.flags.merge (KeyFlags.ofByte (c.byte 17)) (KeyFlags.ofByte (c.byte 18))
      let detail := some (BitVec.ofNat 32 new.toNat)
      if r.state = .provisional ∧ new.fits r.material.algorithm = false then s.custodyBad 3
      else if r.state = .provisional ∧ r.cls = .owner ∧ new ≠ r.flags ∧ s.presenceOpen = false then
        s.custodyRefuse .needsPresence
      else if r.state = .live ∧ r.flags.loosens new = true then s.custodyRefuse .oneWay
      else if new = r.flags then s.custodyHandBack .done detail []
      else s.custodyPlace (c.slot 0) (some { r with flags := new }) none detail []

def State.keyFinalize (c : Card) (s : State) : State :=
  match keySlotForm c with
  | some n => s.custodyBad n
  | none => match s.changeable (c.slot 0) with
    | .inl o => s.custodyRefuse o
    | .inr r =>
      if r.state = .live then s.custodyRefuse .done
      else s.custodyPlace (c.slot 0) (some { r with state := .live }) none none []

def State.keyErase (c : Card) (s : State) : State :=
  match keySlotForm c with
  | some n => s.custodyBad n
  | none =>
    if isFixed (c.slot 0) then s.custodyRefuse .notPermitted
    else match s.slot (c.slot 0) with
      | none => s.custodyRefuse .done
      | some r =>
        if r.cls = .owner ∧ s.presenceOpen = false ∧ s.lifecycle.pending = false then s.custodyRefuse .needsPresence
        else s.custodyPlace (c.slot 0) none none none []

/-- The reply body of KEY DESCRIBE, 72 bytes (R20, R194); the bytes of a limit, a remaining count, an anchor mask or a serial that a
slot in use does not have are free values (log entry 5). -/
def describeReply (i : Fin 48) : Option KeyRecord → List OutByte
  | none => outNum 1 i.val ++ outNum 71 0
  | some r =>
    outNum 1 i.val ++ outNum 1 r.state.code ++ outNum 1 r.cls.code ++ outNum 1 r.material.algorithm.code
      ++ outNum 1 r.flags.toNat ++ bindingField r.binding
      ++ outNum 1 r.limit.isSome.toNat ++ outOption 2 (r.limit.map (·.limit)) ++ outOption 2 (r.limit.map (·.remaining))
      ++ outNum 4 r.total ++ outNum 1 r.label.length ++ outPadded 16 r.label
      ++ outOption 1 (r.anchor.map fun a => a.kinds.toNat) ++ outOption 4 (r.anchor.bind fun a => a.serial.map BitVec.toNat)

def State.keyDescribe (c : Card) (s : State) : State :=
  match keyDescribeForm c with
  | some n => s.custodyBad n
  | none =>
    let reply := describeReply (c.slot 0) (s.slot (c.slot 0))
    match (if c.extentCount = 0 then none else s.publicKeyOf (c.slot 0)) with
    | some pub => s.custodyStage (.writeOut (strBytes pub) none reply)
    | none => s.custodyHandBack .done none reply

/-! ## What the custody unit's waits end in -/

/-- The census has answered the card at its gate (R10, R153). -/
def State.custodyGateAnswer (healthy : Bool) (s : State) : State :=
  match s.custody.work with
  | none => s
  | some w => match w.stage with
    | .gate =>
      if healthy = false then s.custodyRefuse .entropy
      else if w.card.code = 0x0101#16 then s.generateAfterGate w.card
      else if w.card.code = 0x0105#16 then s.wrapSeal w.card
      else s.drawAfterGate w.card
    | _ => s

/-- The measure unit has answered the card's binding check (R11). -/
def State.custodyBindingAnswer (satisfied : Bool) (s : State) : State :=
  match s.custody.work with
  | none => s
  | some w => match w.stage with
    | .binding .sign => if satisfied then s.signStart w.card else s.custodyRefuseSlot .unbound (w.card.slot 0)
    | .binding .mac => if satisfied then s.macStart w.card else s.custodyRefuseSlot .unbound (w.card.slot 0)
    | .binding .unwrap => if satisfied then s.importRead w.card else s.custodyRefuseSlot .unbound (wrapSlot w.card)
    | .binding .wrapping => if satisfied then s.wrapWrapping w.card else s.custodyRefuseSlot .unbound (wrapSlot w.card)
    | .binding .source => if satisfied then s.wrapSource w.card else s.custodyRefuseSlot .unbound (w.card.slot 0)
    | _ => s

/-- The curve engine has signed (R12, R13, R24). -/
def State.custodySigned (sig : Signature) (s : State) : State :=
  match s.custody.work with
  | none => s
  | some w => match w.stage with
    | .curveSign =>
      if w.abandoned then s.custodyGiveUp
      else (s.custodyCommitCounted (w.card.slot 0)).completeUse (w.card.slot 0) none
        (.settle .done none (outBytes (strBytes sig)))
    | _ => s

/-- The curve engine has generated a key pair (R8, R24). -/
def State.custodyKeyPair (scalar : Scalar) (pub : PublicKey) (s : State) : State :=
  match s.custody.work with
  | none => s
  | some w => match w.stage with
    | .curveGenerate =>
      if w.abandoned then s.custodyGiveUp
      else s.generated w.card (.p256 (some scalar) pub) (outBytes (strBytes pub))
    | _ => s

/-- The custody unit's hash job has ended (R14). -/
def State.custodyHashEnd (result : Digest) (s : State) : State :=
  match s.custody.work with
  | none => s
  | some w => match w.stage with
    | .mac => (s.custodyCommitCounted (w.card.slot 0)).completeUse (w.card.slot 0) none
        (.settle .done none (outBytes (strBytes result)))
    | _ => s

/-- A read of KEY MAC's extents has failed, with the extent the engine names (R14, R25, R140); the manual states no detail word for this
refusal. -/
def State.custodyHashFault (_extent : Nat) (s : State) : State :=
  match s.custody.work with
  | none => s
  | some w => match w.stage with
    | .mac => s.custodyRefuse .linkFault
    | _ => s

/-- A withdrawn job of the custody unit has ended (R24). -/
def State.custodyHashWithdrawn (s : State) : State :=
  match s.custody.work with
  | none => s
  | some w => if w.abandoned then s.custodyGiveUp else s

/-- A store write of the card in work has ended (R8, R9, R12, R17 to R19); a refusal takes back a use that no write has made durable
(R6). -/
def State.custodyWriteEnd (ok : Bool) (s : State) : State :=
  match s.custody.work with
  | none => s
  | some w => match w.stage with
    | .record i value faultDetail t =>
      if ok then (s.setSlot i value).custodyThen t else s.takeBackUse.custodyHandBack .storeFault faultDetail []
    | _ => s

/-- A DMA access of the custody unit's own has ended (R9, R15, R20, R24, R25); LINK FAULT takes back an uncommitted card's use. -/
def State.custodyDmaEnd (ok : Bool) (written : Nat) (s : State) : State :=
  match s.custody.work with
  | none => s
  | some w => match w.stage with
    | .readBlob =>
      if w.abandoned then s.custodyGiveUp
      else if ok then s.importBlob w.card (Memory.readBytes s.host (w.card.extentAddress 0) 163)
      else s.custodyRefuse .linkFault
    | .writeOut bytes detail body =>
      let s := s.writeOutput w.card ok written bytes
      if w.abandoned then s.custodyGiveUp
      else if ok then s.custodyHandBack .done detail body
      else s.takeBackUse.custodyRefuse .linkFault
    | _ => s

/-! ## Requests from other blocks (R21, R23) -/

/-- The custody unit is at its serving point: no card is in work and no request is in service (R5). -/
def State.custodyServes (s : State) : Bool := s.custody.work.isNone && s.custody.service.isNone

/-- A fixed slot as a table index. -/
def fixedSlot (i : Fin 6) : Fin 48 := ⟨i.val, by omega⟩

/-- A fixed slot as a store record. -/
def fixedStore (i : Fin 6) : Fin 32 := ⟨i.val, by omega⟩

def State.installationRequest (s : State) : State :=
  match s.custody.held with
  | .install i r by_ :: rest =>
    if s.custodyServes then
      ({ s with custody := { s.custody with held := rest, service := some (.install i r by_) } }).send .custody
        [.write (.slot (fixedStore i) (some r)) .custodyRequest]
    else s
  | _ => s

def State.removalRequest (s : State) : State :=
  match s.custody.held with
  | .remove i :: rest =>
    if s.custodyServes then
      ({ s with custody := { s.custody with held := rest, service := some (.remove i) } }).send .custody
        [.write (.slot (fixedStore i) none) .custodyRequest]
    else s
  | _ => s

/-- The slots a wipe order erases: those of class OWNER and slot 5, where they are not EMPTY, in ascending order (R23). -/
def State.wipedSlots (s : State) : List (Fin 32) :=
  (List.finRange 32).filter fun i => match s.slot ⟨i.val, by omega⟩ with
    | some r => decide (r.cls = .owner) || decide (i.val = 5)
    | none => false

/-- The table with the wiped slots EMPTY. -/
def State.eraseSlots (l : List (Fin 32)) (s : State) : State := l.foldl (fun s i => s.setSlot ⟨i.val, by omega⟩ none) s

def State.answerCustodyWipe (t : WipeTally) (s : State) : State :=
  { s with lifecycle := { s.lifecycle with answersSent := { s.lifecycle.answersSent with custody := some t } } }

def State.custodyWipeOrder (s : State) : State :=
  match s.custody.held with
  | .wipe :: rest =>
    if s.custodyServes then
      let l := s.wipedSlots
      let s := ({ s with custody := { s.custody with held := rest } }).eraseSlots l
      if l.isEmpty then s.answerCustodyWipe { erased := 0, failed := 0 }
      else
        ({ s with custody := { s.custody with service := some (.wipe l.length l.length 0) } }).send .custody
          (l.map fun i => .write (.slot i none) .custodyWipe)
    else s
  | _ => s

/-- The write of an installation or a removal has ended: the table changes, and the requester is answered (R21). -/
def State.custodyRequestEnd (ok : Bool) (s : State) : State :=
  match s.custody.service with
  | some (.install i r by_) =>
    let s : State := { s with custody := { s.custody with service := none } }
    let s := if ok then s.setSlot (fixedSlot i) (some r) else s
    match by_ with
    | .lifecycle => s.lifeInstallAnswer ok
    | .update => s.updateCustodyAnswer ok
  | some (.remove i) =>
    let s : State := { s with custody := { s.custody with service := none } }
    let s := if ok then s.setSlot (fixedSlot i) none else s
    s.updateCustodyAnswer ok
  | some (.wipe _ _ _) => s
  | none => s

/-- A write of a wipe order has ended; with the last one the order is answered (R23). -/
def State.custodyWipeEnd (ok : Bool) (s : State) : State :=
  match s.custody.service with
  | some (.wipe erased outstanding failed) =>
    let failed := failed + (!ok).toNat
    if outstanding ≤ 1 then
      ({ s with custody := { s.custody with service := none } }).answerCustodyWipe { erased := erased, failed := failed }
    else { s with custody := { s.custody with service := some (.wipe erased (outstanding - 1) failed) } }
  | some (.install _ _ _) => s
  | some (.remove _) => s
  | none => s

/-! ## Abandon (R24) -/

def State.custodyAbandon (s : State) : State :=
  match s.custody.work with
  | none => s
  | some w =>
    let wait : State := { s with custody := { s.custody with work := some { w with abandoned := true } } }
    if w.committed then s
    else match w.stage with
      | .gate => (s.leaveWaiters .custody).custodyGiveUp
      | .binding _ => (s.giveUpRequest (some .custody)).custodyGiveUp
      | .curveSign =>
        if s.curve.serves .custody then (if s.isCounted (w.card.slot 0) then s.custodyCommit else wait)
        else (s.curveWithdraw .custody).custodyGiveUp
      | .curveGenerate => if s.curve.serves .custody then wait else (s.curveWithdraw .custody).custodyGiveUp
      | .mac =>
        if s.hash.serves .custody then wait.hashWithdraw .custody else (s.hashWithdraw .custody).custodyGiveUp
      | .readBlob => wait
      | .writeOut _ _ _ => wait
      | .record _ _ _ _ => (s.withdrawWrite .custody .custodyCard).custodyGiveUp

/-! ## The meanings of the custody unit's rows -/

/-- KEY GENERATE begins (R8). -/
def execKeyGenerate (s : State) : Host.Outcome State Fault Refusal := .next (s.beginCustody 0x0101#16 State.keyGenerate)

/-- KEY IMPORT begins (R9). -/
def execKeyImport (s : State) : Host.Outcome State Fault Refusal := .next (s.beginCustody 0x0102#16 State.keyImport)

/-- KEY SIGN begins (R13). -/
def execKeySign (s : State) : Host.Outcome State Fault Refusal := .next (s.beginCustody 0x0103#16 State.keySign)

/-- KEY MAC begins (R14). -/
def execKeyMac (s : State) : Host.Outcome State Fault Refusal := .next (s.beginCustody 0x0104#16 State.keyMac)

/-- KEY WRAP OUT begins (R15). -/
def execKeyWrapOut (s : State) : Host.Outcome State Fault Refusal := .next (s.beginCustody 0x0105#16 State.keyWrapOut)

/-- KEY SET ATTRIBUTES (R17). -/
def execKeySetAttributes (s : State) : Host.Outcome State Fault Refusal :=
  .next (s.beginCustody 0x0106#16 State.keySetAttributes)

/-- KEY FINALIZE (R18). -/
def execKeyFinalize (s : State) : Host.Outcome State Fault Refusal := .next (s.beginCustody 0x0107#16 State.keyFinalize)

/-- KEY ERASE (R19). -/
def execKeyErase (s : State) : Host.Outcome State Fault Refusal := .next (s.beginCustody 0x0108#16 State.keyErase)

/-- KEY DESCRIBE (R20). -/
def execKeyDescribe (s : State) : Host.Outcome State Fault Refusal := .next (s.beginCustody 0x0109#16 State.keyDescribe)

/-- DRAW RANDOM (R16). -/
def execDrawRandom (s : State) : Host.Outcome State Fault Refusal := .next (s.beginCustody 0x010A#16 State.drawRandom)

/-- The custody unit serves an installation request (R21). -/
def execInstallationRequest (s : State) : Host.Outcome State Fault Refusal :=
  .next (s.whenPowered State.installationRequest)

/-- The custody unit serves a removal request (R21). -/
def execRemovalRequest (s : State) : Host.Outcome State Fault Refusal := .next (s.whenPowered State.removalRequest)

/-- The custody unit serves a wipe order (R23). -/
def execCustodyWipeOrder (s : State) : Host.Outcome State Fault Refusal := .next (s.whenPowered State.custodyWipeOrder)

end Sys2Proof.Machine
end

