-- ==== Sys2Proof/Machine/Credential.lean ====
section
/-! DEFINITION. Chapter 5: the credential unit's cards, attempts and their pacing, decay and refresh, the requests of the lifecycle
controller, what its waits end in, and its answer to an abandon; and the two requests it sends the lifecycle controller (R126,
R127). -/
namespace Sys2Proof.Machine

/-! ## The card in work (R95) -/

/-- The credential unit can begin a card: none is in work, no request is held or in service, and the first waiting card of its queue
carries the code. -/
def State.credReady (s : State) (code : Word16) : Option Card :=
  if s.powered && s.credential.work.isNone && s.credential.service.isNone && s.credential.held.isEmpty then
    (s.nextCard .credential).filter fun c => c.code == code
  else none

/-- The credential unit begins the card of a code, if it can. -/
def State.beginCred (code : Word16) (body : Card → State → State) (s : State) : State :=
  match s.credReady code with
  | some c =>
    body c ({ s with credential := { s.credential with
      work := some { card := c, stage := .gate, abandoned := false, committed := false } } }.beginCard c)
  | none => s

def State.credStage (stage : CredStage) (s : State) : State :=
  { s with credential := { s.credential with work := s.credential.work.map fun w => { w with stage := stage } } }

def State.credCommit (s : State) : State :=
  { s with credential := { s.credential with work := s.credential.work.map Work.commit } }

def State.credBad (field : Nat) (s : State) : State := s.credHandBack .badRequest (some (BitVec.ofNat 32 field)) []

def State.credRefuse (o : CardOutcome) (s : State) : State := s.credHandBack o none []

/-- A store write of the card in work. -/
def State.credWrite (i : Fin 32) (r : Option CredRecord) (answerTo : WriteTo) (stage : CredStage) (s : State) : State :=
  (s.credStage stage).send .credential [.write (.cred i r) answerTo]

/-! ## The table (R92, R93) -/

/-- The lowest-numbered empty place. -/
def State.emptyPlace (s : State) : Option (Fin 32) := (List.finRange 32).find? fun i => (s.cred i).isNone

/-- The place of the FACTORY record. -/
def State.factoryPlace (s : State) : Option (Fin 32) :=
  (List.finRange 32).find? fun i => match s.cred i with
    | some e => decide (e.record.cls = .factory)
    | none => false

/-- The set of occupied places: bit id − 1 for each id (R114). -/
def State.occupied (s : State) : Word32 :=
  BitVec.ofNat 32 (((List.finRange 32).map fun i => if (s.cred i).isSome then 2 ^ i.val else 0).sum)

/-- A record is busy from an attempt's admission and while a write of it is in the store's queue (R98, R100). -/
def CredEntry.busy (e : CredEntry) : Bool := e.attempt || decide (0 < e.writes)

/-- The checks of R96 after the form: WIPING, then SLOT EMPTY. -/
def State.onRecord (c : Card) (body : CredEntry → State → State) (s : State) : State :=
  if s.lifecycle.pending then s.credRefuse .wiping
  else match s.cred c.place with
    | none => s.credRefuse .slotEmpty
    | some e => body e s

/-- A debt and its spacing in a reply. -/
def debtBody (debt : Nat) : List OutByte := outNum 2 debt ++ outNum 1 (spacing debt)

/-! ## Attempts (R98 to R100) -/

/-- The secret a card presents for comparison: a CRED VERIFY's secret, a claim's pairing code, a CRED REPLACE's old secret. -/
def presentedSecret (c : Card) : List Byte :=
  if c.code = 0x0402#16 then c.fieldBytes 2 (c.field 1 1)
  else if c.code = 0x0401#16 then (credEnrollFields c).pairing
  else c.fieldBytes 67 (c.field 2 1)

/-- The attempt is admitted: the record is busy, the card is committed and the HMAC job goes to the engine (R98, R99). -/
def State.startAttempt (c : Card) (id : Fin 32) (e : CredEntry) (salt : Option Salt) (s : State) : State :=
  (((s.setCred id (some { e with attempt := true })).credCommit).credStage (.compare id e.working s.pace.tick salt)).hashSubmit
    .credential (verifierJob e.record.salt (presentedSecret c))

/-- An attempt reaches a record: it waits for a write of the record, and is then admitted or refused (R98). -/
def State.attempt (c : Card) (id : Fin 32) (salt : Option Salt) (s : State) : State :=
  match s.cred id with
  | none => s.credRefuse .slotEmpty
  | some e =>
    if e.busy then s.credStage (.awaitRecord id salt)
    else match admission s.pace.tick e.working e.record.policy.lock e.record.lastTick with
      | .throttled =>
        s.credHandBack .throttled (some (BitVec.ofNat 32 e.working))
          (outNum 2 e.working ++ outNum 2 e.record.policy.lock ++ outNum 1 (spacing e.working))
      | .tooSoon wait => s.credHandBack .tooSoon (some (BitVec.ofNat 32 wait)) (debtBody e.working)
      | .admitted => s.startAttempt c id e salt

/-- The record as an attempt's result leaves it (R99). -/
def CredRecord.attempted (r : CredRecord) (debt : Nat) (tick : Word32) (hit : Bool) : CredRecord :=
  if hit then { r with debt := debtAfterMatch debt, lastTick := tick }
  else
    { r with
      debt := debtAfterMismatch debt r.policy.charge
      saturated := r.saturated || decide (65535 < debt + r.policy.charge)
      failures := satAdd 65535 r.failures 1
      lastTick := tick }

/-- The draw of a new secret: 16 bytes of salt, and 12 of nonce when the secret is sealed (R94, R107, R112). -/
def drawSize (sealed : Bool) : Nat := if sealed then 28 else 16

/-- The salt of a draw. -/
def State.drawnSalt (s : State) (sealed : Bool) : Salt := strOf 128 (sliceBytes (s.drawn (drawSize sealed)) 0 16)

/-- The sealed secret of a draw, for a RELEASABLE record. -/
def State.drawnSeal (s : State) (sealed : Bool) (secret : List Byte) : Option SealedSecret :=
  if sealed then some (sealSecret (strOf 96 (sliceBytes (s.drawn 28) 16 12)) secret) else none

/-- A CRED REPLACE's new secret. -/
def newSecret (c : Card) : List Byte := c.fieldBytes 3 (c.field 1 1)

/-- CRED REPLACE draws its salt and computes the new verifier (R112). -/
def State.replaceDraw (c : Card) (e : CredEntry) (att : Option (Nat × Word32)) (s : State) : State :=
  let sealed := decide (e.record.kind = .releasable)
  let salt := s.drawnSalt sealed
  ((s.credStage (.replaceHash c.place salt (s.drawnSeal sealed (newSecret c)) att)).afterDraw (drawSize sealed)).hashSubmit
    .credential (verifierJob salt (newSecret c))

/-- The comparison's verifier has come (R99, R100, R111). -/
def State.compared (c : Card) (id : Fin 32) (debt : Nat) (tick : Word32) (salt : Option Salt) (result : Digest) (s : State) :
    State :=
  match s.cred id with
  | none => s.credRefuse .slotEmpty
  | some e =>
    let hit := decide (result = e.record.verifier)
    if c.code = 0x0404#16 ∧ hit = true then s.replaceDraw c e (some (debtAfterMatch debt, tick))
    else
      let r := e.record.attempted debt tick hit
      s.credWrite id (some r) .credCard (.attemptWrite id r hit salt)

/-- The attempt on a record is over. -/
def CredEntry.attemptOver (e : CredEntry) : CredEntry := { e with attempt := false }

/-- A written record taken by the table: its working debt is the debt written (R100, R112). -/
def CredEntry.written (e : CredEntry) (r : CredRecord) : CredEntry := { e with record := r, working := r.debt, attempt := false }

/-- The MISMATCH reply body (R105, R194). -/
def mismatchBody (r : CredRecord) : List OutByte :=
  debtBody r.debt ++ outNum 1 r.saturated.toNat ++ outNum 2 r.failures ++ outNum 1 (decide (r.policy.lock ≤ r.debt)).toNat

/-- The claim goes on: the new administrator verifier is computed (R109 step 1). -/
def State.claimHash (c : Card) (salt : Salt) (pairingDebt : Nat) (s : State) : State :=
  (s.credStage (.claimHash salt pairingDebt)).hashSubmit .credential (verifierJob salt (credEnrollFields c).secret)

/-- An attempt's write has ended (R100, R105, R106, R108, R109). A MATCHED reply for a RELEASABLE or PAIRING record has the six bytes of
R194, of which R105 states the debt and the spacing alone: the presence flag and the presence left are free values (log entry 28). -/
def State.attemptWritten (c : Card) (id : Fin 32) (r : CredRecord) (hit : Bool) (salt : Option Salt) (ok : Bool) (s : State) :
    State :=
  if ok then
    let s := s.setCred id ((s.cred id).map fun e => e.written r)
    if hit = false then s.credHandBack .mismatch none (mismatchBody r)
    else match salt with
      | some x => s.claimHash c x r.debt
      | none =>
        if r.kind = .admin then s.credStage (.awaitPresence r.debt)
        else s.credHandBack .matched none (debtBody r.debt ++ outOpen 3)
  else (s.setCred id ((s.cred id).map CredEntry.attemptOver)).credRefuse .storeFault

def State.credVerify (c : Card) (s : State) : State :=
  match credVerifyForm c with
  | some n => s.credBad n
  | none => s.onRecord c fun _ s => s.attempt c c.place none

/-! ## Enrolment and the claim (R107 to R109) -/

/-- A new OWNER record (R107, R109). -/
def enrolled (f : EnrolFields) (salt : Salt) (verifier : Digest) (secret : Option SealedSecret) (tick : Word32) : CredRecord :=
  { kind := f.kind, cls := .owner, label := f.label, salt := salt, verifier := verifier, secret := secret, binding := f.binding,
    policy := f.policy.clamped, debt := 0, saturated := false, failures := 0, lastTick := tick }

/-- CRED ENROLL has passed its gate: the presence check of an enrolment, or the attempt of a claim (R107, R108). -/
def State.enrolAfterGate (c : Card) (s : State) : State :=
  let f := credEnrollFields c
  if f.pairing.isEmpty then
    if s.presenceOpen = false then s.credRefuse .needsPresence
    else
      let sealed := decide (f.kind = .releasable)
      let salt := s.drawnSalt sealed
      ((s.credStage (.enrolHash salt (s.drawnSeal sealed f.secret))).afterDraw (drawSize sealed)).hashSubmit .credential
        (verifierJob salt f.secret)
  else match s.factoryPlace with
    | some id => (s.afterDraw 16).attempt c id (some (s.drawnSalt false))
    | none => s.credRefuse .slotEmpty

/-- The card is at its randomness gate (R107). -/
def State.credGate (next : State → State) (s : State) : State :=
  match s.gate with
  | .pass => next s
  | .wait => (s.credStage .gate).joinWaiters .credential
  | .refuse => s.credRefuse .entropy

/-- The lifecycle check that tells an enrolment, a claim and a refusal apart (R107). -/
def State.enrolRefusal (s : State) (f : EnrolFields) : Option CardOutcome :=
  match s.lifecycle.effective with
  | .blank => some .wrongLifecycle
  | .claimed => if f.pairing.isEmpty then none else some .wrongLifecycle
  | .unclaimed => if f.pairing.isEmpty then some .wrongLifecycle else none

def State.credEnroll (c : Card) (s : State) : State :=
  match credEnrollForm c with
  | some n => s.credBad n
  | none =>
    let f := credEnrollFields c
    if s.lifecycle.pending then s.credRefuse .wiping
    else match s.enrolRefusal f with
      | some o => s.credRefuse o
      | none =>
        if f.pairing.isEmpty = false ∧ f.kind ≠ .admin then s.credBad 1
        else if s.emptyPlace.isNone then s.credRefuse .tableFull
        else s.credGate (State.enrolAfterGate c)

/-- The new record's verifier has come: the record is written (R107). Its last attempt tick is the tick count now, also when the write then
waits for room in the store's queue: R107's "at that moment" may be either (DESIGN CHOICE, log entry 48). -/
def State.enrolHashed (c : Card) (salt : Salt) (secret : Option SealedSecret) (result : Digest) (s : State) : State :=
  match s.emptyPlace with
  | none => s.credRefuse .tableFull
  | some id =>
    let r := enrolled (credEnrollFields c) salt result secret s.pace.tick
    s.credWrite id (some r) .credCard (.enrolWrite id r)

/-- The administrator verifier of a claim has come: its record is written (R109 step 1). -/
def State.claimHashed (c : Card) (salt : Salt) (debt : Nat) (result : Digest) (s : State) : State :=
  match s.emptyPlace with
  | none => s.credRefuse .tableFull
  | some id =>
    let r := enrolled (credEnrollFields c) salt result none s.pace.tick
    s.credWrite id (some r) .credCard (.claimWrite id r debt)

/-! ## Releasing, replacing, removing, describing (R110 to R114) -/

/-- The release of a secret (R110). -/
def State.releaseSecret (e : CredEntry) (s : State) : State :=
  let secret := (e.record.secret.map openSecret).getD []
  s.credHandBack .done (some (BitVec.ofNat 32 secret.length)) (outBytes secret)

def State.credRelease (c : Card) (s : State) : State :=
  match credIdForm c with
  | some n => s.credBad n
  | none => s.onRecord c fun e s =>
    if e.record.kind ≠ .releasable then s.credRefuse .notPermitted
    else match e.record.binding with
      | some b => (s.credStage (.binding c.place)).sendCheck .credentialAsk .credential b
      | none => if s.presenceOpen then s.releaseSecret e else s.credRefuse .needsPresence

/-- CRED REPLACE has passed its gate (R111). -/
def State.replaceAfterGate (c : Card) (s : State) : State :=
  match s.cred c.place with
  | none => s.credRefuse .slotEmpty
  | some e =>
    if 0 < c.field 2 1 then s.attempt c c.place none
    else if s.presenceOpen then s.replaceDraw c e none
    else s.credRefuse .needsPresence

def State.credReplace (c : Card) (s : State) : State :=
  match credReplaceForm c with
  | some n => s.credBad n
  | none => s.onRecord c fun e s =>
    if e.record.cls = .factory then s.credRefuse .notPermitted else s.credGate (State.replaceAfterGate c)

/-- The record with its new secret (R112). -/
def CredRecord.replaced (r : CredRecord) (salt : Salt) (verifier : Digest) (secret : Option SealedSecret)
    (att : Option (Nat × Word32)) : CredRecord :=
  { r with
    salt := salt, verifier := verifier, secret := secret, saturated := false, failures := 0
    debt := match att with
      | some (debt, _) => debt
      | none => r.debt
    lastTick := match att with
      | some (_, tick) => tick
      | none => r.lastTick }

/-- The new verifier has come: the changed record is written (R112). -/
def State.replaceHashed (id : Fin 32) (salt : Salt) (secret : Option SealedSecret) (att : Option (Nat × Word32))
    (result : Digest) (s : State) : State :=
  match s.cred id with
  | none => s.credRefuse .slotEmpty
  | some e =>
    let r := e.record.replaced salt result secret att
    s.credWrite id (some r) (if att.isSome then .credCard else .credReplace) (.replaceWrite id r att.isSome)

def State.credRemove (c : Card) (s : State) : State :=
  match credIdForm c with
  | some n => s.credBad n
  | none => s.onRecord c fun e s =>
    if e.record.cls = .factory then s.credRefuse .notPermitted
    else if s.presenceOpen = false then s.credRefuse .needsPresence
    else s.credWrite c.place none .credCard (.removeWrite c.place)

/-- The reply body of CRED DESCRIBE (R114, R194). -/
def State.credReply (s : State) (i : Fin 32) : List OutByte :=
  match s.cred i with
  | none => outOpen 1
  | some e =>
    let r := e.record
    outNum 1 (idOf i) ++ outNum 1 r.kind.code ++ outNum 1 r.cls.code ++ outNum 1 r.label.length ++ outPadded 24 r.label
      ++ outNum 1 r.binding.isSome.toNat ++ policyBody r.policy ++ debtBody e.working
      ++ outNum 1 (ticksToWait s.pace.tick r.lastTick e.working) ++ outNum 1 r.saturated.toNat ++ outNum 2 r.failures

def State.credDescribe (c : Card) (s : State) : State :=
  match credIdForm c with
  | some n => s.credBad n
  | none => s.credHandBack .done (some s.occupied) (s.credReply c.place)

/-! ## Decay and refresh (R101 to R103) -/

/-- A record after a decay step that applies to it (R101). -/
def CredEntry.decayed (e : CredEntry) : CredEntry :=
  if e.busy ∨ e.working = 0 then e else { e with working := Machine.decayed e.working e.record.policy.decay }

/-- A decay step, held while the census is FAILED (R101, R102). -/
def State.decayAll (s : State) : State :=
  if s.census.state = .failed then s
  else { s with credential := { s.credential with table := s.credential.table.map fun e => e.map CredEntry.decayed } }

def State.decayStep (s : State) : State :=
  if s.pace.decayDue then ({ s with pace := { s.pace with decayDue := false } }).decayAll else s

/-- The records a refresh writes, in ascending id order (R103). -/
def State.refreshIds (s : State) : List (Fin 32) :=
  (List.finRange 32).filter fun i => match s.cred i with
    | some e => !e.busy && decide (e.working < e.record.debt)
    | none => false

/-- A stored-debt refresh, which follows the decay step of its tick (R103). -/
def State.storedDebtRefresh (s : State) : State :=
  if s.pace.refreshDue && !s.pace.decayDue then
    ({ s with pace := { s.pace with refreshDue := false } }).send .refresh (s.refreshIds.map .refresh)
  else s

/-! ## Requests from the lifecycle controller (R115, R116) -/

def State.credServes (s : State) : Bool := s.credential.work.isNone && s.credential.service.isNone

/-- The places a wipe order empties, in ascending id order (R116). -/
def State.wipedPlaces (s : State) : List (Fin 32) :=
  (List.finRange 32).filter fun i => match s.cred i with
    | some e => decide (e.record.cls = .owner)
    | none => false

def State.emptyPlaces (l : List (Fin 32)) (s : State) : State := l.foldl (fun s i => s.setCred i none) s

def State.answerCredWipe (t : WipeTally) (s : State) : State :=
  { s with lifecycle := { s.lifecycle with answersSent := { s.lifecycle.answersSent with credential := some t } } }

def State.credentialWipeOrder (s : State) : State :=
  match s.credential.held with
  | .wipe :: rest =>
    if s.credServes then
      let l := s.wipedPlaces
      let s := ({ s with credential := { s.credential with held := rest } }).emptyPlaces l
      if l.isEmpty then s.answerCredWipe { erased := 0, failed := 0 }
      else
        ({ s with credential := { s.credential with
            service := some (.wipe { removed := l.length, outstanding := l.length, failed := 0 }) } }).send .credential
          (l.map fun i => .write (.cred i none) .credWipe)
    else s
  | _ => s

/-- A write of a wipe order has ended; with the last one the order is answered (R116). -/
def State.credWipeEnd (ok : Bool) (s : State) : State :=
  match s.credential.service with
  | some (.wipe c) =>
    let failed := c.failed + (!ok).toNat
    if c.outstanding ≤ 1 then
      ({ s with credential := { s.credential with service := none } }).answerCredWipe { erased := c.removed, failed := failed }
    else
      { s with credential := { s.credential with
          service := some (.wipe { c with outstanding := c.outstanding - 1, failed := failed }) } }
  | some (.pairingGate _ _ _) => s
  | some (.pairingHash _ _ _) => s
  | some (.pairingWrite _ _) => s
  | none => s

def State.credService (x : Option CredService) (s : State) : State :=
  { s with credential := { s.credential with service := x } }

/-- The pairing installation request has passed its gate (R115). -/
def State.pairingDraw (code label : List Byte) (policy : Policy) (s : State) : State :=
  let salt := s.drawnSalt false
  ((s.credService (some (.pairingHash salt label policy))).afterDraw 16).hashSubmit .credential (verifierJob salt code)

def State.pairingRequest (s : State) : State :=
  match s.credential.held with
  | .pairing code label policy :: rest =>
    if s.credServes then
      let s : State := { s with credential := { s.credential with held := rest } }
      match s.gate with
      | .pass => s.pairingDraw code label policy
      | .wait => (s.credService (some (.pairingGate code label policy))).joinWaiters .credential
      | .refuse => s.lifePairingAnswer .entropy []
    else s
  | _ => s

/-- The verifier of the pairing record has come (R115). -/
def State.pairingHashed (salt : Salt) (label : List Byte) (policy : Policy) (result : Digest) (s : State) : State :=
  let r : CredRecord :=
    { kind := .pairing, cls := .factory, label := label, salt := salt, verifier := result, secret := none, binding := none,
      policy := policy.clamped, debt := 0, saturated := false, failures := 0, lastTick := s.pace.tick }
  let id := (s.factoryPlace.orElse fun _ => s.emptyPlace).getD 0
  (s.credService (some (.pairingWrite id r))).send .credential [.write (.cred id (some r)) .credRequest]

/-- The write of the pairing record has ended (R115). -/
def State.pairingEnd (ok : Bool) (s : State) : State :=
  match s.credential.service with
  | some (.pairingWrite id r) =>
    let s := s.credService none
    if ok then
      (s.setCred id (some (CredEntry.placed r))).lifePairingAnswer .done (outNum 1 (idOf id) ++ policyBody r.policy)
    else s.lifePairingAnswer .storeFault []
  | some (.wipe _) => s
  | some (.pairingGate _ _ _) => s
  | some (.pairingHash _ _ _) => s
  | none => s

/-! ## What the credential unit's waits end in -/

/-- The census has answered at the gate (R107, R115, R153). -/
def State.credGateAnswer (healthy : Bool) (s : State) : State :=
  match s.credential.service with
  | some (.pairingGate code label policy) =>
    if healthy then s.pairingDraw code label policy else (s.credService none).lifePairingAnswer .entropy []
  | some (.wipe _) => s
  | some (.pairingHash _ _ _) => s
  | some (.pairingWrite _ _) => s
  | none => match s.credential.work with
    | none => s
    | some w => match w.stage with
      | .gate =>
        if healthy = false then s.credRefuse .entropy
        else if w.card.code = 0x0401#16 then s.enrolAfterGate w.card
        else s.replaceAfterGate w.card
      | _ => s

/-- The measure unit has answered CRED RELEASE's binding check (R110). -/
def State.credBindingAnswer (satisfied : Bool) (s : State) : State :=
  match s.credential.work with
  | none => s
  | some w => match w.stage with
    | .binding id => match s.cred id with
      | some e => if satisfied then s.releaseSecret e else s.credRefuse .unbound
      | none => s.credRefuse .slotEmpty
    | _ => s

/-- The credential unit's hash job has ended (R99, R107, R109, R112, R115). -/
def State.credHashEnd (result : Digest) (s : State) : State :=
  match s.credential.service with
  | some (.pairingHash salt label policy) => s.pairingHashed salt label policy result
  | some (.wipe _) => s
  | some (.pairingGate _ _ _) => s
  | some (.pairingWrite _ _) => s
  | none => match s.credential.work with
    | none => s
    | some w => match w.stage with
      | .compare id debt tick salt => s.compared w.card id debt tick salt result
      | .enrolHash salt secret => s.enrolHashed w.card salt secret result
      | .claimHash salt debt => s.claimHashed w.card salt debt result
      | .replaceHash id salt secret att => s.replaceHashed id salt secret att result
      | _ => s

/-- A withdrawn job of the credential unit has ended (R117). -/
def State.credHashWithdrawn (s : State) : State :=
  match s.credential.work with
  | none => s
  | some w => if w.abandoned then s.credRefuse .abandoned else s

/-- A store write of the card in work has ended. -/
def State.credWriteEnd (w : Write) (ok : Bool) (s : State) : State :=
  match s.credential.work with
  | none => s
  | some x => match x.stage, w with
    | .attemptWrite id r hit salt, _ => s.attemptWritten x.card id r hit salt ok
    | .enrolWrite id r, _ =>
      if ok then
        (s.setCred id (some (CredEntry.placed r))).credHandBack .done none (outNum 1 (idOf id) ++ policyBody r.policy)
      else s.credRefuse .storeFault
    | .claimWrite id r debt, _ =>
      if ok then s.credStage (.awaitClaim id r debt)
      else s.credHandBack .storeFault (some (Config.recordName (credRecord id))) []
    | .claimUndo _, _ => s.credHandBack .storeFault (some (Config.recordName lifecycleRecord)) []
    | .replaceWrite id _ _, .cred _ (some v) =>
      if ok then (s.setCred id ((s.cred id).map fun e => e.written v)).credHandBack .done none (debtBody v.debt)
      else (s.setCred id ((s.cred id).map CredEntry.attemptOver)).credRefuse .storeFault
    | .removeWrite id, _ => if ok then (s.setCred id none).credRefuse .done else s.credRefuse .storeFault
    | _, _ => s

/-- A refresh write has ended: on DONE the stored debt is the debt it carried (R100, R103). -/
def State.refreshEnd (w : Write) (ok : Bool) (s : State) : State :=
  match w with
  | .cred id (some v) =>
    if ok then s.setCred id ((s.cred id).map fun e => { e with record := { e.record with debt := v.debt } }) else s
  | _ => s

/-- One write fewer of a record is in the store's queue. -/
def CredEntry.writeOver (e : CredEntry) : CredEntry := { e with writes := e.writes - 1 }

/-- A write of a credential record has left the store. -/
def State.credWriteOver (w : Write) (s : State) : State :=
  match w with
  | .cred i _ => s.setCred i ((s.cred i).map CredEntry.writeOver)
  | .lifecycle _ => s
  | .certificate _ => s
  | .slot _ _ => s
  | .mark _ _ => s
  | .kind _ _ => s

/-- An attempt that waited for a write of its record goes on when that write has ended (R98). -/
def State.resumeAttempt (s : State) : State :=
  match s.credential.work with
  | none => s
  | some w => match w.stage with
    | .awaitRecord id salt => s.attempt w.card id salt
    | _ => s

/-! ## Presence and the claim at the lifecycle controller (R126, R127) -/

/-- The presence-opening request of an ADMIN match is served (R106, R127). -/
def State.presenceRequest (s : State) : State :=
  match s.credential.work with
  | none => s
  | some w => match w.stage with
    | .awaitPresence debt =>
      let t := s.openPresence
      t.credHandBack .matched none (debtBody debt ++ if s.presenceMayOpen then t.presenceReply else outNum 1 0 ++ outOpen 2)
    | _ => s

/-- The claim-completion request is served: the lifecycle record is written (R126). -/
def State.claimRequest (s : State) : State :=
  match s.credential.work with
  | none => s
  | some w => match w.stage with
    | .awaitClaim _ _ _ =>
      if s.lifecycle.claiming then s
      else
        ({ s with lifecycle := { s.lifecycle with claiming := true } }).send .lifecycle
          [.write (.lifecycle { effective := .claimed, marker := false }) .lifeClaim]
    | _ => s

/-- The claim's write of the lifecycle record has ended (R109, R126). On DONE the request is served when OWNERSHIP CLAIMED has been
accepted (R34, R38); on STORE FAULT it is answered at once. -/
def State.claimEnd (ok : Bool) (s : State) : State :=
  if ok then
    ({ s with lifecycle := { s.lifecycle with effective := .claimed, requested := .claimed, marker := false } }).send .lifecycleAsk
      [.request (.event .ownershipClaimed), .act .claimDone]
  else
    let s : State := { s with lifecycle := { s.lifecycle with claiming := false } }
    match s.credential.work with
    | none => s
    | some w => match w.stage with
      | .awaitClaim id _ _ => s.credWrite id none .credCard (.claimUndo id)
      | _ => s

/-! ## Abandon (R117) -/

/-- The credential unit answers the abandon notice for its card in work (R117). R117's table leaves three instants open, and the model
settles them (DESIGN CHOICE, log entry 56): an attempt not yet admitted that waits for a write of its record is handed back at once; a card
whose HMAC piece is in progress is handed back when the piece ends; a CRED RELEASE that waits for a binding answer is handed back at once,
and the answer is discarded when it comes. -/
def State.credAbandon (s : State) : State :=
  match s.credential.work with
  | none => s
  | some w =>
    let wait : State := { s with credential := { s.credential with work := some { w with abandoned := true } } }
    let withdraw : State :=
      if s.hash.serves .credential then wait.hashWithdraw .credential
      else (s.hashWithdraw .credential).credRefuse .abandoned
    if w.committed then s
    else match w.stage with
      | .gate => (s.leaveWaiters .credential).credRefuse .abandoned
      | .awaitRecord _ _ => s.credRefuse .abandoned
      | .binding _ => (s.giveUpRequest (some .credential)).credRefuse .abandoned
      | .enrolHash _ _ => withdraw
      | .replaceHash _ _ _ _ => withdraw
      | .enrolWrite _ _ => (s.withdrawWrite .credential .credCard).credRefuse .abandoned
      | .replaceWrite _ _ _ => (s.withdrawWrite .credential .credReplace).credRefuse .abandoned
      | .removeWrite _ => (s.withdrawWrite .credential .credCard).credRefuse .abandoned
      | .compare _ _ _ _ => s
      | .attemptWrite _ _ _ _ => s
      | .awaitPresence _ => s
      | .claimHash _ _ => s
      | .claimWrite _ _ _ => s
      | .awaitClaim _ _ _ => s
      | .claimUndo _ => s

/-! ## The meanings of the credential unit's rows -/

/-- CRED ENROLL begins (R107, R108). -/
def execCredEnroll (s : State) : Host.Outcome State Fault Refusal := .next (s.beginCred 0x0401#16 State.credEnroll)

/-- CRED VERIFY begins (R105). -/
def execCredVerify (s : State) : Host.Outcome State Fault Refusal := .next (s.beginCred 0x0402#16 State.credVerify)

/-- CRED RELEASE begins (R110). -/
def execCredRelease (s : State) : Host.Outcome State Fault Refusal := .next (s.beginCred 0x0403#16 State.credRelease)

/-- CRED REPLACE begins (R111). -/
def execCredReplace (s : State) : Host.Outcome State Fault Refusal := .next (s.beginCred 0x0404#16 State.credReplace)

/-- CRED REMOVE begins (R113). -/
def execCredRemove (s : State) : Host.Outcome State Fault Refusal := .next (s.beginCred 0x0405#16 State.credRemove)

/-- CRED DESCRIBE (R114). -/
def execCredDescribe (s : State) : Host.Outcome State Fault Refusal := .next (s.beginCred 0x0406#16 State.credDescribe)

/-- A decay step (R101). -/
def execDecayStep (s : State) : Host.Outcome State Fault Refusal := .next (s.whenPowered State.decayStep)

/-- A stored-debt refresh (R103). -/
def execStoredDebtRefresh (s : State) : Host.Outcome State Fault Refusal := .next (s.whenPowered State.storedDebtRefresh)

/-- The credential unit serves a wipe order (R116). -/
def execCredentialWipeOrder (s : State) : Host.Outcome State Fault Refusal := .next (s.whenPowered State.credentialWipeOrder)

/-- The credential unit serves the pairing installation request (R115). -/
def execPairingInstallationRequest (s : State) : Host.Outcome State Fault Refusal :=
  .next (s.whenPowered State.pairingRequest)

/-- The lifecycle controller serves a presence-opening request (R127). -/
def execPresenceOpeningRequest (s : State) : Host.Outcome State Fault Refusal :=
  .next (s.whenPowered State.presenceRequest)

/-- The lifecycle controller serves a claim-completion request (R126). -/
def execClaimCompletionRequest (s : State) : Host.Outcome State Fault Refusal := .next (s.whenPowered State.claimRequest)

end Sys2Proof.Machine
end

