-- ==== Sys2Proof/Machine/Measure.lean ====
section
/-! DEFINITION. Chapters 2 and 3: the measure unit's chains, record list, cards, serving points and quotes. -/
namespace Sys2Proof.Machine

/-! ## The card in work (R37, R39) -/

/-- The measure unit can begin a card: none is in work, start-up has zeroed the chains, the internal request list is empty, and the
first waiting card of its queue carries the code. -/
def State.measureReady (s : State) (code : Word16) : Option Card :=
  if s.powered && s.measure.work.isNone && s.measure.service.isNone && s.measure.internal.isEmpty && !s.measure.starting then
    (s.nextCard .measure).filter fun c => c.code == code
  else none

/-- The measure unit begins the card of a code, if it can. -/
def State.beginMeasure (code : Word16) (body : Card → State → State) (s : State) : State :=
  match s.measureReady code with
  | some c =>
    body c ({ s with measure := { s.measure with
      work := some { card := c, stage := .writeOut [] none [], abandoned := false, committed := false }, paused := none } }.beginCard c)
  | none => s

def State.measureStage (stage : MeasureStage) (s : State) : State :=
  { s with measure := { s.measure with work := s.measure.work.map fun w => { w with stage := stage } } }

def State.measureHandBack (o : CardOutcome) (detail : Option Word32) (body : List OutByte) (s : State) : State :=
  match s.measure.work with
  | some w => ({ s with measure := { s.measure with work := none, paused := none } }).handBack w.card o detail body
  | none => s

def State.measureBad (field : Nat) (s : State) : State := s.measureHandBack .badRequest (some (BitVec.ofNat 32 field)) []

def State.measureRefuse (o : CardOutcome) (s : State) : State := s.measureHandBack o none []

/-! ## Chains and records (R26 to R31) -/

/-- The capacity of the record list (R30). -/
def recordCapacity : Nat := 96

def State.setChain (i : Fin 12) (v : Digest) (s : State) : State :=
  { s with measure := { s.measure with chains := tableSet s.measure.chains i v } }

/-- A record is appended, or dropped once the list is full (R30, R31). -/
def State.addRecord (i : Fin 12) (event : Word16) (digest : Digest) (s : State) : State :=
  if s.measure.records.length < recordCapacity then
    { s with measure := { s.measure with
        records := s.measure.records ++ [{ seq := s.measure.records.length + 1, chain := i, event := event, digest := digest }] } }
  else
    let t : State := { s with measure := { s.measure with missed := satAdd 65535 s.measure.missed 1, truncated := true } }
    if s.measure.truncated then t else t.ask .recordsTruncated

/-- The sequence number an extension's record takes; 0 when it is dropped (R28). -/
def State.recordNumber (s : State) : Nat :=
  if s.measure.records.length < recordCapacity then s.measure.records.length + 1 else 0

/-- An extension is applied in one act (R28, R35). -/
def State.applyExtension (i : Fin 12) (event : Word16) (digest value : Digest) (s : State) : State :=
  (s.setChain i value).addRecord i event digest

/-- A host chain as a chain. -/
def chainOf (c : Fin 11) : Fin 12 := ⟨c.val, by omega⟩

def State.isClosed (s : State) (c : Fin 11) : Bool := s.measure.closed.getLsbD c.val

/-- The job that extends a chain (R28, R35). -/
def State.extendJob (s : State) (i : Fin 12) (digest : Digest) : HashJob := shaJob (extendInput (s.chain i) digest)

def State.extend (c : Card) (s : State) : State :=
  match extendForm c with
  | some n => s.measureBad n
  | none => match hostChain (c.field 0 1) with
    | none => s.measureRefuse .reservedChain
    | some i =>
      if s.isClosed i then s.measureRefuse .chainClosed
      else
        (s.measureStage (.extendHash i (BitVec.ofNat 16 (c.field 1 2)) (c.fieldStr 3 256))).hashSubmit .measure
          (s.extendJob (chainOf i) (c.fieldStr 3 256))

/-- The closed set with one more chain (R29), which stands at the bit of its number: R29 names no places (DESIGN CHOICE, log entry 67). -/
def closedWith (closed : BitVec 11) (c : Fin 11) : BitVec 11 := closed ||| BitVec.ofNat 11 (2 ^ c.val)

/-- CLOSE CHAIN begins and settles (R29). Its detail word holds the closed set in bits 10:0, chain c at bit c, and 0 above: R29 gives neither
the places nor the bits above them (DESIGN CHOICE, log entry 67). -/
def State.closeChain (c : Card) (s : State) : State :=
  match closeChainForm c with
  | some n => s.measureBad n
  | none => match hostChain (c.field 0 1) with
    | none => s.measureRefuse .reservedChain
    | some i =>
      let closed := closedWith s.measure.closed i
      ({ s with measure := { s.measure with closed := closed } }).measureHandBack .done (some (closed.setWidth 32)) []

/-- The record count, the missed count and the TRUNCATED flag of a reply. -/
def State.recordSummary (s : State) : List OutByte :=
  outNum 1 s.measure.records.length ++ outNum 2 s.measure.missed ++ outNum 1 s.measure.truncated.toNat

/-- The values of a mask's chains, in ascending order. -/
def State.chainValues (s : State) (mask : BitVec 12) : List Byte :=
  (maskChains mask).flatMap fun i => strBytes (s.chain i)

/-- READ CHAINS begins (R33). R33 fixes the values and the composite to the card's beginning, and no instant to the closed set, the record
count, the missed count and the TRUNCATED flag of the reply, which a part event served before the DMA can change: the model reads them at
the beginning too (DESIGN CHOICE, log entry 61). The two bytes of the closed set hold chain c at bit c and 0 in bits 15:11 (DESIGN CHOICE,
log entry 67). -/
def State.readChains (c : Card) (s : State) : State :=
  match readChainsForm c with
  | some n => s.measureBad n
  | none =>
    (s.measureStage (.chainsHash (s.chainValues (c.mask 0)) (outNum 2 s.measure.closed.toNat ++ s.recordSummary))).hashSubmit
      .measure (shaJob (compositeInput (c.mask 0) s.measure.chains))

/-- The records READ RECORDS writes (R32). -/
def State.recordsToRead (s : State) (c : Card) : List Record :=
  ((s.measure.records.drop (c.field 0 1)).take (c.field 1 1)).take (c.extentLength 0 / 40)

def State.readRecords (c : Card) (s : State) : State :=
  match readRecordsForm c with
  | some n => s.measureBad n
  | none =>
    let l := s.recordsToRead c
    let detail := some (BitVec.ofNat 32 l.length)
    if l.isEmpty then s.measureHandBack .done detail s.recordSummary
    else
      let out := l.flatMap recordEntry
      (s.afterFill out).measureStage (.writeOut (s.filled out) detail s.recordSummary)

/-! ## Quotes (R51 to R58) -/

/-- The records of a quote (R53). -/
def State.quoteRecords (s : State) (c : Card) : List Record :=
  if Machine.quoteRecords c then (s.measure.records.drop (c.field 35 1)).take (c.field 36 1) else []

/-- The mask of a quote. -/
def quoteMask (c : Card) : BitVec 12 := c.mask 32

/-- The length of a quote's body (R54, R195). -/
def State.quoteLength (s : State) (c : Card) : Nat :=
  200 + 32 * (maskChains (quoteMask c)).length + 40 * (s.quoteRecords c).length

/-- The quote sequence of the next quote (R54). -/
def State.nextQuote (s : State) : Nat := satAdd 4294967295 s.measure.quoteSeq 1

/-- The body after the fingerprint, from the snapshot (R52, R55, R56). -/
def State.quoteRest (s : State) (c : Card) (seq : Nat) : List OutByte :=
  outNum 1 s.lifecycle.effective.code ++ outNum 1 s.lifecycle.pending.toNat ++ outNum 1 s.census.state.code ++ outNum 4 seq
    ++ outNum 2 (quoteMask c).toNat ++ outBytes (s.chainValues (quoteMask c)) ++ s.recordSummary
    ++ outNum 1 (if Machine.quoteRecords c then c.field 35 1 else 0) ++ outNum 1 (s.quoteRecords c).length
    ++ (s.quoteRecords c).flatMap recordEntry ++ (List.finRange 8).flatMap (fun k => kindElement (s.kindRecord k))
    ++ outBytes (c.fieldBytes 0 32)

/-- The identity public key as the snapshot copies it (R52). -/
def State.identityKey (s : State) : PublicKey := (s.publicKeyOf 1).getD 0#512

def State.quote (c : Card) (s : State) : State :=
  match quoteForm c with
  | some n => s.measureBad n
  | none =>
    if s.lifecycle.effective = .blank then s.measureRefuse .wrongLifecycle
    else if c.extentLength 0 < s.quoteLength c + 64 then s.measureBad (s.quoteLength c + 64)
    else
      let seq := s.nextQuote
      let rest := s.quoteRest c seq
      let job := shaJob (strBytes s.identityKey)
      let t := (s.afterFill rest).measureStage (.fingerprint (s.filled rest) seq)
      ({ t with measure := { t.measure with quoteSeq := seq } }).hashSubmit .measure job

/-- The job over a quote's body (R57). -/
def quoteJob (body : List Byte) : HashJob := shaJob body

/-- A quote's signature has come: the body and the signature go to the extent (R58). -/
def State.quoteSigned (body : List Byte) (seq : Nat) (sig : Signature) (s : State) : State :=
  s.measureStage (.writeOut (body ++ strBytes sig) (some (BitVec.ofNat 32 seq))
    (outBytes (strBytes sig) ++ outNum 2 body.length))

/-! ## Serving points (R38 to R44) -/

/-- The job over a quote's body that waits at the hash engine between two pieces (R40, R59, R143). -/
def State.waitingQuoteJob (s : State) : Option HashJob :=
  match s.measure.work with
  | none => none
  | some w => match w.stage with
    | .quoteHash _ _ => s.hash.waiting .measure
    | .quoteSign _ _ => none
    | .extendHash _ _ _ => none
    | .chainsHash _ _ => none
    | .writeOut _ _ _ => none
    | .fingerprint _ _ => none

/-- The measure unit is at a serving point: no card in work, a card paused, a quote's body job waiting between two pieces, or a quote that
waits for the curve engine and has not been abandoned (R39, R59, R60). R39 and R59 name the end of a piece, and are silent on a request
that comes later, while the body job waits for its next grant: the model serves it at once, and the waiting job is held (DESIGN CHOICE, log
entry 60). -/
def State.atServingPoint (s : State) : Bool :=
  match s.measure.work with
  | none => true
  | some w => s.measure.paused.isSome || s.waitingQuoteJob.isSome || match w.stage with
    | .quoteSign _ _ => !w.abandoned
    | .extendHash _ _ _ => false
    | .chainsHash _ _ => false
    | .writeOut _ _ _ => false
    | .fingerprint _ _ => false
    | .quoteHash _ _ => false

/-- A quote's body job that waits at the hash engine is held: it leaves its place, and the measure unit keeps its state (R143; log entry
60). -/
def State.holdWaitingJob (s : State) : State :=
  match s.waitingQuoteJob with
  | some j =>
    { s with
      hash := s.hash.setWaiting .measure none
      measure := { s.measure with paused := some (.job j) } }
  | none => s

/-- The entry the measure unit can begin to serve (R39, R45). -/
def State.serving (s : State) : Option MeasureRequest :=
  if s.powered && !s.measure.starting && s.measure.service.isNone && s.atServingPoint then s.measure.internal.head? else none

/-- The serving point ends when the list is empty: the card in work resumes (R39, R40). -/
def State.resumeMeasure (s : State) : State :=
  if s.measure.internal.isEmpty && s.measure.service.isNone then
    match s.measure.paused, s.measure.work with
    | some r, some w =>
      let s : State := { s with measure := { s.measure with paused := none } }
      match r with
      | .job j => s.hashSubmit .measure j
      | .transfer => s
      | .signature sig => match w.stage with
        | .quoteSign body seq => s.quoteSigned body seq sig
        | _ => s
    | _, _ => s
  else s

/-- The entry in service has been served: it leaves the list, and a waiting request joins (R38). -/
def State.endService (s : State) : State :=
  let s : State := { s with measure := { s.measure with service := none, internal := s.measure.internal.tail } }
  s.pumpMeasure s.pumpFuel

/-- Whether the answer of the entry in service is still wanted (R24, R90, R117). -/
def State.answerWanted (s : State) : Bool :=
  match s.measure.internal with
  | .check _ _ wanted :: _ => wanted
  | .chainRead _ wanted :: _ => wanted
  | .event _ :: _ => false
  | [] => false

/-- The evaluation of a binding check has ended: it is answered (R41). -/
def State.answerCheck (by_ : Checker) (satisfied : Bool) (s : State) : State :=
  let wanted := s.answerWanted
  let s := s.endService
  let s := if wanted then
      match by_ with
      | .custody => s.custodyBindingAnswer satisfied
      | .credential => s.credBindingAnswer satisfied
    else s
  s.resumeMeasure

def State.measureService (x : MeasureService) (s : State) : State := { s with measure := { s.measure with service := some x } }

/-- Requests that were still unsent reach the internal request list, as far as it has room (R38, log entry 43). -/
def State.requestsArrive (s : State) : State := s.pumpMeasure s.pumpFuel

/-- The service of a part event begins: its digest is computed (R35). -/
def State.serveEvent (s : State) : State :=
  match s.serving with
  | some (.event e) => (s.holdWaitingJob.measureService (.eventDigest e)).hashSubmit .measure (shaJob e.parameters)
  | _ => s

/-- The accepted digests of a kind, the confirmed first (R43). -/
def KindRecord.accepted (k : KindRecord) : List Digest :=
  (match k.confirmed with
    | some c => [c.digest]
    | none => []) ++
  (match k.trial with
    | some t => [t.digest]
    | none => [])

/-- The service of a binding check begins (R41 to R43). -/
def State.serveCheck (s : State) : State :=
  match s.serving with
  | some (.check by_ b _) =>
    let s := s.holdWaitingJob
    match b with
    | .exactly mask expected =>
      (s.measureService (.composite by_ expected)).hashSubmit .measure (shaJob (compositeInput mask s.measure.chains))
    | .acceptedImage kind chain => match (s.kindRecord kind).accepted with
      | [] => s.answerCheck by_ false
      | d :: rest =>
        (s.measureService (.candidates by_ (s.chain (chainOf chain)) rest false)).hashSubmit .measure (shaJob (candidateInput d))
  | _ => s

/-- A chain read is served (R44). -/
def State.serveChainRead (s : State) : State :=
  match s.serving with
  | some (.chainRead chain wanted) =>
    let value := s.chain (chainOf chain)
    let s := s.holdWaitingJob.endService
    (if wanted then s.updateChainAnswer value else s).resumeMeasure
  | _ => s

/-- The hash job of the entry in service has ended (R35, R42, R43). -/
def State.serviceHashEnd (x : MeasureService) (result : Digest) (s : State) : State :=
  match x with
  | .eventDigest e => (s.measureService (.eventExtend e result)).hashSubmit .measure (s.extendJob 11 result)
  | .eventExtend e digest => ((s.applyExtension 11 e.code digest result).endService).resumeMeasure
  | .composite by_ expected => s.answerCheck by_ (decide (result = expected))
  | .candidates by_ value left hit =>
    let hit := hit || decide (result = value)
    match left with
    | [] => s.answerCheck by_ hit
    | d :: rest =>
      (s.measureService (.candidates by_ value rest hit)).hashSubmit .measure (shaJob (candidateInput d))

/-! ## What the measure unit's waits end in -/

/-- The card pauses at a serving point when requests wait there; otherwise it goes on (R39, R40). -/
def State.pauseOr (r : MeasureResume) (goOn : State → State) (s : State) : State :=
  if s.measure.internal.isEmpty then goOn s else { s with measure := { s.measure with paused := some r } }

/-- The card's hash job has ended. -/
def State.cardHashEnd (w : Work MeasureStage) (result : Digest) (s : State) : State :=
  match w.stage with
  | .extendHash c event digest =>
    let n := s.recordNumber
    (s.applyExtension (chainOf c) event digest result).measureHandBack .done (some (BitVec.ofNat 32 n))
      (outBytes (strBytes result))
  | .chainsHash values tail =>
    if w.abandoned then s.measureRefuse .abandoned
    else (s.measureStage (.writeOut values none (outBytes (strBytes result) ++ tail))).pauseOr .transfer id
  | .fingerprint rest seq =>
    let body := [1#8] ++ strBytes result ++ rest
    (s.measureStage (.quoteHash body seq)).pauseOr (.job (quoteJob body)) fun s => s.hashSubmit .measure (quoteJob body)
  | .quoteHash body seq =>
    (s.measureStage (.quoteSign body seq)).curveSubmit .measure (.signByIdentity none result)
  | .quoteSign _ _ => s
  | .writeOut _ _ _ => s

/-- The measure unit's hash job has ended: that of the entry in service, or that of the card. -/
def State.measureHashEnd (result : Digest) (s : State) : State :=
  match s.measure.service with
  | some x => s.serviceHashEnd x result
  | none => match s.measure.work with
    | some w => s.cardHashEnd w result
    | none => s

/-- A piece of the card's job has ended and the job has more: with requests in the list the job is held (R40, R143). -/
def State.measureHashPiece (j : HashJob) (s : State) : State :=
  if s.measure.service.isNone && !s.measure.internal.isEmpty then
    { s with
      hash := s.hash.setWaiting .measure none
      measure := { s.measure with paused := some (.job j) } }
  else s

/-- A withdrawn job of the measure unit has ended (R60). -/
def State.measureHashWithdrawn (s : State) : State :=
  match s.measure.work with
  | none => s
  | some w => if w.abandoned then s.measureRefuse .abandoned else s

/-- The curve engine has signed a quote's digest (R39, R58, R60). R39 keeps a result that returns while an entry is in service until the
serving point ends; of an abandoned quote R60 discards the signature and hands the card back, and names no instant: the model hands it back
at once, in mid-service too (DESIGN CHOICE, log entry 63). -/
def State.measureCurveEnd (sig : Signature) (s : State) : State :=
  match s.measure.work with
  | none => s
  | some w => match w.stage with
    | .quoteSign body seq =>
      if w.abandoned then s.measureRefuse .abandoned
      else if s.measure.internal.isEmpty then s.quoteSigned body seq sig
      else { s with measure := { s.measure with paused := some (.signature sig) } }
    | _ => s

/-- A DMA write of the measure unit's own can be under way: the card writes its extent and is not paused. -/
def State.measureDmaEnd (ok : Bool) (written : Nat) (s : State) : State :=
  match s.measure.work with
  | none => s
  | some w => match w.stage, s.measure.paused with
    | .writeOut bytes detail body, none =>
      let s := s.writeOutput w.card ok written bytes
      if w.abandoned then s.measureRefuse .abandoned
      else if ok then s.measureHandBack .done detail body
      else s.measureRefuse .linkFault
    | _, _ => s

/-! ## Abandon (R46, R60) -/

/-- The measure unit answers the abandon notice for its card in work (R46, R60). A card paused at a serving
point has no row in R46's and R60's tables: a READ CHAINS between its hash piece and its DMA, and a QUOTE whose body job is held, or whose
returned signature is kept, while an entry is served, are handed back at once, in mid-service (DESIGN CHOICE, log entry 51). -/
def State.measureAbandon (s : State) : State :=
  match s.measure.work with
  | none => s
  | some w =>
    let wait : State := { s with measure := { s.measure with work := some { w with abandoned := true } } }
    if s.measure.paused.isSome then s.measureRefuse .abandoned
    else match w.stage with
      | .extendHash _ _ _ =>
        if s.hash.serves .measure then s else (s.hashWithdraw .measure).measureRefuse .abandoned
      | .chainsHash _ _ =>
        if s.hash.serves .measure then wait else (s.hashWithdraw .measure).measureRefuse .abandoned
      | .fingerprint _ _ =>
        if s.hash.serves .measure then wait.hashWithdraw .measure else (s.hashWithdraw .measure).measureRefuse .abandoned
      | .quoteHash _ _ =>
        if s.hash.serves .measure then wait.hashWithdraw .measure else (s.hashWithdraw .measure).measureRefuse .abandoned
      | .quoteSign _ _ =>
        if s.curve.serves .measure then wait else (s.curveWithdraw .measure).measureRefuse .abandoned
      | .writeOut _ _ _ => wait

/-! ## The meanings of the measure unit's rows -/

/-- EXTEND begins (R27, R28). -/
def execExtend (s : State) : Host.Outcome State Fault Refusal := .next (s.beginMeasure 0x0201#16 State.extend)

/-- CLOSE CHAIN (R29). -/
def execCloseChain (s : State) : Host.Outcome State Fault Refusal := .next (s.beginMeasure 0x0202#16 State.closeChain)

/-- READ CHAINS begins (R33). -/
def execReadChains (s : State) : Host.Outcome State Fault Refusal := .next (s.beginMeasure 0x0203#16 State.readChains)

/-- READ RECORDS begins (R32). -/
def execReadRecords (s : State) : Host.Outcome State Fault Refusal := .next (s.beginMeasure 0x0204#16 State.readRecords)

/-- QUOTE begins (R52). -/
def execQuote (s : State) : Host.Outcome State Fault Refusal := .next (s.beginMeasure 0x0205#16 State.quote)

/-- The service of a binding check begins (R41). -/
def execBindingCheck (s : State) : Host.Outcome State Fault Refusal := .next s.serveCheck

/-- A chain read is served (R44). -/
def execChainRead (s : State) : Host.Outcome State Fault Refusal := .next s.serveChainRead

end Sys2Proof.Machine
end

