-- ==== Sys2Proof/Machine/StartUp.lean ====
section
/-! DEFINITION. Chapter 9's start-up sequence (R164) with the loads of each unit (R4, R63, R83, R104, R119), and the census, whose
start-up run is its sixth step (R148 to R157). -/
namespace Sys2Proof.Machine

/-! ## Loading (steps 1 to 4) -/

/-- Every record's copy is taken as start-up loads it (R159). -/
def Store.settled (st : Store) : Store :=
  { st with
    lifecycle := st.lifecycle.settled
    certificate := st.certificate.settled
    slots := st.slots.map Cells.settled
    marks := st.marks.map Cells.settled
    creds := st.creds.map Cells.settled
    kinds := st.kinds.map Cells.settled }

/-- The lifecycle record of a part that has none: BLANK, no marker (R119). -/
def LifeRecord.fresh : LifeRecord := { effective := .blank, marker := false }

/-- Step 1: the lifecycle record and the identity certificate (R49, R119). -/
def State.startStep1 (s : State) : State :=
  let r := s.store.lifecycle.loaded.getD LifeRecord.fresh
  { s with lifecycle := { s.lifecycle with
      effective := r.effective
      marker := r.marker
      requested := if r.marker then .unclaimed else r.effective
      pending := r.marker
      progress := if r.marker then .incomplete else .none
      counts := WipeCounts.zero
      presence := none
      hold := 0
      holdDue := false
      certificate := s.store.certificate.loaded } }

/-- Step 2: the slots and the delegate serial marks (R4, R63). -/
def State.startStep2 (s : State) : State :=
  { s with
    custody := { s.custody with
      table := Vector.ofFn fun i => (storeSlot i).bind fun j => (tableGet s.store.slots j).loaded }
    update := { s.update with marks := s.store.marks.map fun c => c.loaded.getD 0#32 } }

/-- Whether a stored credential record is placed in the table at start-up (R104). -/
def State.placesCred (s : State) (r : CredRecord) : Bool :=
  decide (r.cls = .factory) || decide (s.lifecycle.effective = .claimed)

/-- A credential record as start-up places it: its working debt is the stored debt, its last attempt tick the present tick (R104). -/
def CredEntry.loadedAt (tick : Word32) (r : CredRecord) : CredEntry := CredEntry.placed { r with lastTick := tick }

/-- The stored records that start-up removes: OWNER records while the lifecycle is not CLAIMED (R104). Their removal writes are sent in
ascending order of their places, an order that R104 and R164 do not state (DESIGN CHOICE, log entry 57). -/
def State.strayCreds (s : State) : List (Fin 32) :=
  (List.finRange 32).filter fun i => match (tableGet s.store.creds i).loaded with
    | some r => !s.placesCred r
    | none => false

/-- Step 3: the credential records (R104). -/
def State.startStep3 (s : State) : State :=
  { s with credential := { s.credential with
      table := s.store.creds.map fun c =>
        (c.loaded.filter s.placesCred).map (CredEntry.loadedAt s.pace.tick) } }

/-- The kind records (R69). -/
def State.startStep4 (s : State) : State :=
  { s with update := { s.update with kinds := s.store.kinds.map fun c => c.loaded.getD KindRecord.fresh } }

/-- What start-up writes for a trial: one boot fewer, or no trial when none are left (R83). -/
def KindRecord.booted (k : KindRecord) : KindRecord :=
  match k.trial with
  | some t => if 0 < t.boots then { k with trial := some { t with boots := t.boots - 1 } } else k.withoutTrial
  | none => k

/-- The kinds with a trial, in ascending order. -/
def State.trialKinds (s : State) : List (Fin 8) := (List.finRange 8).filter fun k => (s.kindRecord k).trial.isSome

/-- A census run begins: its three counters are cleared and start together (R149). -/
def Census.begun (c : Census) : Census := { c with run := some { a := 0#8, b := 0#8, r := 0#8 } }

/-! ## The steps (R164) -/

def State.atStep (x : StartUp) (s : State) : State := { s with startUp := x }

/-- Step 8: the start-up flag is cleared, a failed write of the drain or the start-up asks for STORE FAULT, and an OPEN area fetches
(R164, R165, R172). -/
def State.startStep8 (s : State) : State :=
  let s := s.atStep .ended
  let s : State := if s.exch.fetcher = .waitingStartUp then { s with exch := { s.exch with fetcher := .reading } } else s
  if s.store.startUpFault then ({ s with store := { s.store with startUpFault := false } }).ask .storeFault else s

/-- Step 7: a pending wipe is resumed (R135). -/
def State.startStep7 (s : State) : State :=
  if s.lifecycle.pending then (s.atStep .step7).sendWipeOrders else s.startStep8

/-- Every internal request that has been sent, or is still to be sent, has been served. -/
def State.requestsServed (s : State) : Bool :=
  s.measure.internal.isEmpty && s.measure.service.isNone && s.measureWaiting.isEmpty

/-- The resumed wipe is over: release progress is NONE or INCOMPLETE, and its part events are in the record list (R135). -/
def State.wipeResumed (s : State) : Bool :=
  (decide (s.lifecycle.progress = .none) || decide (s.lifecycle.progress = .incomplete)) && s.requestsServed

/-- The start-up run is over, its state change is made, and its effects have been sent (R157). -/
def State.startRunOver (s : State) : Bool :=
  s.census.run.isNone && decide (s.census.state ≠ .doubt) && s.outboxes.census.isEmpty

/-- Step 6: the census begins its start-up run (R157). -/
def State.startStep6 (s : State) : State := { s with census := s.census.begun, startUp := .step6 }

/-- Start-up leaves its fifth step when the part events held since the reset have been served, and its sixth and seventh when what they
wait for has come (R45, R135, R157, R164). -/
def State.startUpGoesOn (s : State) : State :=
  match s.startUp with
  | .step5 => if s.requestsServed then s.startStep6 else s
  | .step6 => if s.startRunOver then s.startStep7 else s
  | .step7 => if s.wipeResumed then s.startStep8 else s
  | .notBegun => s
  | .step3 _ => s
  | .step4 _ => s
  | .ended => s

/-- Step 5: the measure unit leaves its starting state with its chains zeroed and open, and serves the part events held since the reset,
which its own rows carry out; with none held, start-up goes on to step 6 (R45, R164). -/
def State.startStep5 (s : State) : State :=
  let t : State := { s with
    measure := { s.measure with
      chains := Vector.replicate 12 0#256, closed := 0#11, records := [], missed := 0, truncated := false, quoteSeq := 0,
      starting := false }
    startUp := .step5 }
  t.startUpGoesOn

/-- Step 4: the kind records are loaded and each trial's decrement or lapse is written (R83). R83 and R164 do not say whether a write waits
for the end of the one before it: the model sends them together, in ascending order, as far as the store's queue has room (DESIGN CHOICE,
log entry 69). -/
def State.beginStep4 (s : State) : State :=
  let s := s.startStep4
  let kinds := s.trialKinds
  if kinds.isEmpty then s.startStep5
  else (s.atStep (.step4 kinds.length)).send .update
    (kinds.map fun k => .write (.kind k (s.kindRecord k).booted) .updateStartUp)

/-- Steps 1 to 3, and as much of the rest as waits for nothing. The removal writes of the third step are sent together, none waiting for the
end of the one before it: R104 and R164 do not say (DESIGN CHOICE, log entry 69). -/
def State.beginStartUp (s : State) : State :=
  let s : State := { s with store := s.store.settled }
  let s := s.startStep1.startStep2
  let stray := s.strayCreds
  let s := s.startStep3
  if stray.isEmpty then s.beginStep4
  else (s.atStep (.step3 stray.length)).send .credential (stray.map fun i => .write (.cred i none) .credStartUp)

/-- Start-up begins once the reset line is released and the store's queue is empty (R163, R164). -/
def State.mayStart (s : State) : Bool :=
  s.powered && !s.resetLine && decide (s.startUp = .notBegun) && s.store.queue.isEmpty && s.store.waiting.isEmpty

/-- A removal write of step 3 has ended (R104, R164). -/
def State.startRemovalEnd (s : State) : State :=
  match s.startUp with
  | .step3 n => if n ≤ 1 then s.beginStep4 else s.atStep (.step3 (n - 1))
  | .notBegun => s
  | .step4 _ => s
  | .step5 => s
  | .step6 => s
  | .step7 => s
  | .ended => s

/-- A lapse has been written: the part event and TRIAL LAPSED (R83). -/
def State.trialLapse (k : Fin 8) (version : Nat) (s : State) : State :=
  s.send .updateAsk [.request (.event (.updateLapsed k version .bootsExhausted)), .act .trialLapsed]

/-- The table takes a decrement or a lapse (R83). -/
def State.takeBoot (k : Fin 8) (r : KindRecord) (s : State) : State :=
  match (s.kindRecord k).trial, r.trial with
  | some t, none => (s.setKind k r).trialLapse k t.version
  | _, _ => s.setKind k r

/-- A decrement or a lapse of step 4 has ended (R83, R164). -/
def State.startKindEnd (w : Write) (ok : Bool) (s : State) : State :=
  let s := match w with
    | .kind k r => if ok then s.takeBoot k r else s
    | _ => s
  match s.startUp with
  | .step4 n => if n ≤ 1 then s.startStep5 else s.atStep (.step4 (n - 1))
  | .notBegun => s
  | .step3 _ => s
  | .step5 => s
  | .step6 => s
  | .step7 => s
  | .ended => s

/-! ## The census (R148 to R157) -/

/-- A block at its gate learns the state the run left (R153). -/
def State.answerWaiter (healthy : Bool) (s : State) (w : Waiter) : State :=
  match w with
  | .custody => s.custodyGateAnswer healthy
  | .credential => s.credGateAnswer healthy
  | .lifecycle => s.lifeGate healthy

/-- Every waiter is answered, in arrival order, and the list is emptied; a run that leaves DOUBT is followed by its re-run, and the
waiters wait on (R150, R153). -/
def State.answerWaiters (s : State) : State :=
  match s.census.state with
  | .doubt => s
  | .healthy => s.census.waiters.foldl (State.answerWaiter true) { s with census := { s.census with waiters := [] } }
  | .failed => s.census.waiters.foldl (State.answerWaiter false) { s with census := { s.census with waiters := [] } }

/-- The census enters FAILED: its report, its part event and its attention bit (R152). -/
def State.censusFails (s : State) : State :=
  ({ s with lifecycle := { s.lifecycle with reports := s.lifecycle.reports + 1 } }).send .census
    [.request (.event .censusFailed), .act .censusAttention]

/-- The census's own fields after a run: its counters become the last counts, and a run that leaves DOUBT is followed by its re-run (R149
to R151, R154). -/
def Census.afterRun (c : Census) (tick : Word32) (run : CensusRun) (bounded : Bool) (jitter : List Byte) : Census :=
  let pass := censusPasses run.a run.b run.r bounded
  let new := c.state.after pass
  let c : Census :=
    { c with
      state := new
      run := none
      a := run.a
      b := run.b
      r := run.r
      period := some { start := tick, limit := new.period }
      seed := if pass then Config.conditioning c.seed jitter else c.seed }
  if new = .doubt then c.begun else c

/-- The counters of a run at the end of its window, as the oscillators have brought them (R149). -/
def CensusRun.counted (x : CensusRun) (a b r : Byte) : CensusRun := { x with a := x.a + a, b := x.b + b, r := x.r + r }

/-- The end of a census run (R150): `a`, `b` and `r` are the edges that its counters have counted. The waiters are answered in this step,
after the state change (R153), and so before the part event CENSUS FAILED is accepted and the attention bit is asked for, also when the
internal request list is full (R38, R152): no rule states that order (DESIGN CHOICE, log entry 62). -/
def State.censusEnd (a b r : Byte) (bounded : Bool) (jitter : List Byte) (s : State) : State :=
  match s.census.run with
  | some run =>
    let t : State := { s with census := s.census.afterRun s.pace.tick (run.counted a b r) bounded jitter }
    let t := if t.census.state = .failed ∧ s.census.state ≠ .failed then t.censusFails else t
    t.answerWaiters.startUpGoesOn
  | none => s

/-- The period timer has run its limit and no run is in progress (R151). -/
def State.periodExpires (s : State) : Bool :=
  match s.census.period with
  | some p => decide (p.limit ≤ elapsed s.pace.tick p.start) && s.census.run.isNone
  | none => false

def State.periodExpiry (s : State) : State :=
  if s.periodExpires then { s with census := s.census.begun } else s

/-! ## The meanings of the rows -/

/-- Start-up begins (R164). -/
def execStartUp (s : State) : Host.Outcome State Fault Refusal := .next (if s.mayStart then s.beginStartUp else s)

/-- The end of a census run (R150). -/
def execCensusRunEnd (a b r : Byte) (bounded : Bool) (jitter : List Byte) (s : State) : Host.Outcome State Fault Refusal :=
  .next (s.whenPowered (State.censusEnd a b r bounded jitter))

/-- The census's period timer expires (R151). -/
def execPeriodTimerExpiry (s : State) : Host.Outcome State Fault Refusal := .next (s.whenPowered State.periodExpiry)

/-- A unit's answer to its wipe order (R134); at start-up it may end the seventh step (R135). -/
def execWipeAnswer (unit : WipeUnit) (s : State) : Host.Outcome State Fault Refusal :=
  .next (s.whenPowered fun s => (s.wipeAnswer unit).startUpGoesOn)

/-- A part event reaches the measure unit, or its service begins (R35, R38); at start-up the census's own event may end the sixth step
(R157). -/
def execPartEvent (s : State) : Host.Outcome State Fault Refusal :=
  .next (s.whenPowered fun s => s.requestsArrive.startUpGoesOn.serveEvent)

end Sys2Proof.Machine
end

