-- ==== Sys2Proof/Machine/Engines.lean ====
section
/-! DEFINITION. The ends of the shared units' work: a piece of the hash engine (R140 to R143), an operation of the curve engine (R144 to
R147), a write of the store (R160, R161, R165), and a unit's own DMA access (R25, R47, R91). -/
namespace Sys2Proof.Machine

/-! ## Accesses that the link has cut (R91, R168, R186) -/

/-- Whether the link has cut the access of a unit's card in work. -/
def State.isCut (s : State) : DmaUnit → Bool
  | .custody => (s.custody.work.map Work.cut).getD false
  | .measure => (s.measure.work.map Work.cut).getD false
  | .update => (s.update.work.map Work.cut).getD false
  | .lifecycle => (s.lifecycle.work.map Work.cut).getD false

/-- Whether the link has cut the reads of a hash client's job: custody and update jobs alone read extents (R140). -/
def State.readCut (s : State) : HashClient → Bool
  | .measure => false
  | .credential => false
  | .custody => s.isCut .custody
  | .update => s.isCut .update

/-! ## The hash engine -/

/-- A client's job has ended with its result. -/
def State.hashEnded (c : HashClient) (result : Digest) (s : State) : State :=
  match c with
  | .measure => s.measureHashEnd result
  | .credential => s.credHashEnd result
  | .custody => s.custodyHashEnd result
  | .update => s.updateHashEnd result

/-- A client's job without the finalize flag has ended: a continuation state and no result (R139). A feed alone is sent so. -/
def State.hashContinued (c : HashClient) (s : State) : State :=
  match c with
  | .measure => s
  | .credential => s
  | .custody => s
  | .update => s.updateHashContinued

/-- The end of a job at its last piece: with its result when the finalize flag is set (R139, R142). -/
def State.jobEnded (c : HashClient) (j : HashJob) (s : State) : State :=
  if j.finalize then s.hashEnded c j.result else s.hashContinued c

/-- A read of a client's extents has failed, and the answer names the extent (R140): custody and update jobs alone read extents. -/
def State.hashFault (c : HashClient) (extent : Nat) (s : State) : State :=
  match c with
  | .measure => s
  | .credential => s
  | .custody => s.custodyHashFault extent
  | .update => s.updateHashFault extent

/-- A withdrawn job has ended: its client discards what the engine gives back (R143). -/
def State.hashWithdrawn (c : HashClient) (s : State) : State :=
  match c with
  | .measure => s.measureHashWithdrawn
  | .credential => s.credHashWithdrawn
  | .custody => s.custodyHashWithdrawn
  | .update => s.updateHashWithdrawn

/-- The piece-end notice of a job (R142). -/
def State.pieceNotice (c : HashClient) (consumed : Nat) (j : HashJob) (s : State) : State :=
  match c with
  | .update => s.updateHashPiece consumed j.absorbed
  | .measure => s
  | .credential => s
  | .custody => s

/-- A job with more pieces waits again in its place, unless its client holds it (R141, R143). -/
def State.pieceGoesOn (c : HashClient) (j : HashJob) (s : State) : State :=
  let s : State := { s with hash := s.hash.setWaiting c (some j) }
  match c with
  | .measure => s.measureHashPiece j
  | .credential => s
  | .custody => s
  | .update => s

/-- What the end of a piece brings its client (R140 to R143). -/
def State.pieceEnded (run : HashRun) (answered : Bool) (s : State) : State :=
  let j := run.job.afterPiece s.host
  if run.withdrawn then s.hashWithdrawn run.client
  else if run.job.source.isExtents && !answered then s.hashFault run.client run.job.source.extent
  else
    let s := s.pieceNotice run.client (run.job.pieceBytes s.host).length j
    if j.source.isEmpty then s.jobEnded run.client j else s.pieceGoesOn run.client j

/-- The hash engine's piece ends, its client takes the notice, and the next piece is granted (R141, R142). A read made while the link was
down fails, whether or not the link is up again at the piece's end (R186). A job that is sent in reaction to the notice, by the client or
by a unit that its answer reaches, stands in the rotation of the grant that follows this same end: R142 does not say which comes first
(DESIGN CHOICE, log entry 53). -/
def State.hashPieceEnd (host : HostWrites) (answered : Bool) (s : State) : State :=
  match s.hash.running with
  | none => s
  | some run =>
    let s := s.hostStores host
    let s : State := { s with hash := { s.hash with pointer := run.client } }
    let s := s.pieceEnded run (answered && s.linkUp && !s.readCut run.client)
    { s with hash := s.hash.release }

/-! ## The curve engine -/

/-- The result of an operation reaches its client (R144, R145). -/
def State.curveEnded (run : CurveRun) (s : State) : State :=
  match run.op with
  | .verify pub digest sig => s.updateCurveEnd (verifySignature pub digest sig)
  | .sign scalar digest => s.custodySigned (Config.ecdsaSign scalar digest)
  | .signByIdentity scalar digest => s.measureCurveEnd (Config.ecdsaSign (scalar.getD 0#256) digest)
  | .generate seed =>
    let scalar := scalarOfSeed seed
    match run.client with
    | .custody => s.custodyKeyPair scalar (Config.publicOfScalar scalar)
    | .lifecycle => s.lifeCurveEnd scalar (Config.publicOfScalar scalar)
    | .update => s
    | .measure => s

/-- The curve engine's operation completes, its client takes the result, and the next one is granted (R146). -/
def State.curveComplete (s : State) : State :=
  match s.curve.running with
  | none => s
  | some run =>
    let s : State := { s with curve := { s.curve with pointer := run.client } }
    let s := s.curveEnded run
    { s with curve := s.curve.release s.identityScalar }

/-! ## The store -/

/-- The requester of a write is answered (R160, R161). -/
def State.answerWrite (r : WriteRequest) (ok : Bool) (s : State) : State :=
  match r.answerTo with
  | .nobody => s
  | .custodyCard => s.custodyWriteEnd ok
  | .custodyRequest => s.custodyRequestEnd ok
  | .custodyWipe => s.custodyWipeEnd ok
  | .credCard => s.credWriteEnd r.write ok
  | .credReplace => s.credWriteEnd r.write ok
  | .credRequest => s.pairingEnd ok
  | .credWipe => s.credWipeEnd ok
  | .credRefresh => s.refreshEnd r.write ok
  | .credStartUp => s.startRemovalEnd
  | .updateCard => s.updateWriteEnd r.write ok
  | .updateWipe => s.updateWipeEnd ok
  | .updateStartUp => s.startKindEnd r.write ok
  | .lifeCard => s.lifeWriteEnd ok
  | .lifeMarker => s.markerEnd ok
  | .lifeClaim => s.claimEnd ok
  | .lifeClosing => (s.closingEnd ok).startUpGoesOn

/-- The request at the head of the queue leaves it, and the requester that has waited longest takes the room (R160). -/
def State.leaveQueue (s : State) : State :=
  let s : State := { s with store := { s.store with queue := s.store.queue.tail } }
  (s.pumpStore (s.store.waiting.length + 1)).resumeAttempt

/-- The write in progress ends, given whether each of its read-backs matches (R161). -/
def State.storeWriteEnd (first second : Bool) (s : State) : State :=
  match s.store.queue with
  | [] => s
  | r :: _ =>
    let result := s.store.program r.write first second
    let s : State := { s with store := result.1 }
    let s := if result.2 then s else s.askStoreFault
    ((s.credWriteOver r.write).answerWrite r result.2).leaveQueue

/-! ## A unit's own DMA access -/

/-- A unit's DMA access to its card's extent is under way. -/
def State.dmaPending (s : State) : DmaUnit → Bool
  | .custody => match s.custody.work with
    | some w => match w.stage with
      | .readBlob => true
      | .writeOut _ _ _ => true
      | .gate => false
      | .binding _ => false
      | .curveSign => false
      | .curveGenerate => false
      | .mac => false
      | .record _ _ _ _ => false
    | none => false
  | .measure => match s.measure.work with
    | some w => match w.stage with
      | .writeOut _ _ _ => s.measure.paused.isNone
      | .extendHash _ _ _ => false
      | .chainsHash _ _ => false
      | .fingerprint _ _ => false
      | .quoteHash _ _ => false
      | .quoteSign _ _ => false
    | none => false
  | .update => match s.update.work with
    | some w => match w.stage with
      | .writeOut _ _ _ => true
      | _ => false
    | none => false
  | .lifecycle => match s.lifecycle.work with
    | some w => match w.stage with
      | .readCertificate => true
      | .writeOut _ _ _ => true
      | _ => false
    | none => false

/-- Whether a DMA access has been answered. -/
def dmaAnswered : DmaResult → Bool
  | .answered => true
  | .failed _ => false

/-- How many bytes of its output a DMA write had written when it failed; an answer that comes to nothing because the link is down counts
as none (log entry 9). -/
def dmaWritten : DmaResult → Nat
  | .answered => 0
  | .failed written => written

/-- What the end of a DMA access brings its unit; a write that has failed had stored the first `written` bytes of its output. -/
def State.dmaEnded (u : DmaUnit) (ok : Bool) (written : Nat) (s : State) : State :=
  match u with
  | .custody => s.custodyDmaEnd ok written
  | .measure => s.measureDmaEnd ok written
  | .update => s.updateDmaEnd ok written
  | .lifecycle => s.lifeDmaEnd ok written

/-- A unit's own DMA access ends: it has been answered, or it has failed; with the link down, or cut by a loss of the link since, it fails
(R168, R186). -/
def State.extentDmaEnd (u : DmaUnit) (host : HostWrites) (result : DmaResult) (s : State) : State :=
  if s.dmaPending u then (s.hostStores host).dmaEnded u (dmaAnswered result && s.linkUp && !s.isCut u) (dmaWritten result) else s

/-! ## The meanings of the rows -/

/-- A hash piece ends (R142); at start-up the last event of a resumed wipe may end the seventh step (R135). -/
def execHashPieceEnd (host : HostWrites) (readAnswered : Bool) (s : State) : Host.Outcome State Fault Refusal :=
  .next (s.whenPowered fun s => (s.hashPieceEnd host readAnswered).startUpGoesOn)

/-- A curve operation completes (R146). -/
def execCurveOperationComplete (s : State) : Host.Outcome State Fault Refusal := .next (s.whenPowered State.curveComplete)

/-- A store write ends (R161). -/
def execStoreWriteEnd (firstMatches secondMatches : Bool) (s : State) : Host.Outcome State Fault Refusal :=
  .next (s.whenPowered (State.storeWriteEnd firstMatches secondMatches))

/-- A unit's own DMA access ends (R25). -/
def execExtentDmaEnd (unit : DmaUnit) (host : HostWrites) (result : DmaResult) (s : State) : Host.Outcome State Fault Refusal :=
  .next (s.whenPowered (State.extentDmaEnd unit host result))

end Sys2Proof.Machine
end

