-- ==== Sys2Proof/Machine/Exchange.lean ====
section
/-! DEFINITION. Chapter 10: the register window's writes, the opening and closing of the area, the fetcher, the settling of cards, and the
area's faults. -/
namespace Sys2Proof.Machine

/-! ## Register writes (R169, R170, R180, R181) -/

/-- A register write reaches the part (R169, R186). -/
def State.whenReachable (f : State → State) (s : State) : State := if s.reachable then f s else s

/-- There is something the host has not been told of (R180). -/
def Exchange.hasNews (e : Exchange) : Bool := decide (e.tally ≠ e.ack) || decide (e.attention ≠ 0#9)

/-- The interrupt enable takes the value written; a message when it changes from clear to set with news waiting (R180). -/
def State.setEnable (enable : Bool) (s : State) : State :=
  let t : State := { s with exch := { s.exch with enable := enable } }
  if enable && !s.exch.enable && s.exch.hasNews then t.sendMessage else t

/-- A command that the table of R170 ignores. -/
def State.controlIgnored (s : State) : State := s.ask .controlIgnored

def State.writeAck (v : Word32) (s : State) : State :=
  let t : State := { s with exch := { s.exch with ack := v } }
  if v ≠ s.exch.tally then t.sendMessage else t

/-- Each attention bit written as 1 is cleared (R181). -/
def State.clearAttention (v : Word32) (s : State) : State :=
  { s with exch := { s.exch with attention := s.exch.attention &&& ~~~(v.setWidth 9) } }

/-- The base address with its low half written; the low 8 bits are taken as zero (R169). -/
def baseWithLow (base : Word64) (v : Word32) : Word64 :=
  (base &&& 0xFFFFFFFF00000000#64) ||| ((v &&& 0xFFFFFF00#32).setWidth 64)

/-- The base address with its high half written (R169). -/
def baseWithHigh (base : Word64) (v : Word32) : Word64 := (base &&& 0x00000000FFFFFFFF#64) ||| (v.setWidth 64 <<< 32)

/-! ## Opening (R171) -/

/-- The card count of the header page, when the header is valid. -/
def State.headerCards (s : State) : Option Nat :=
  let version := leNat (s.readPage 0 0 2)
  let n := leNat (s.readPage 0 2 2)
  if version = 1 ∧ 8 ≤ n ∧ n ≤ 120 then some n else none

/-- The opening values (R171). -/
def Exchange.openedWith (e : Exchange) (n : Nat) : Exchange :=
  { e with
    cards := n, expected := 1#16, cursor := none, nudge := false, reRead := false, tally := 0#32, ack := 0#32, mismatch := none,
    candidate := none }

/-- The opening write has completed: the area is OPEN (R171). -/
def State.finishOpening (s : State) : State :=
  let s := s.writePage 0 8 (leBytes 9 0)
  { s with exch := { s.exch with
      area := .opened, openAwait := none, takenTicket := 0#16, faultCode := 0#16, faultCard := 0#8
      fetcher := if s.startUp = .ended then .reading else .waitingStartUp } }

def State.openArea (host : HostWrites) (answer : OpenAnswer) (s : State) : State :=
  if s.exch.area = .closed then
    let s := (({ s with exch := { s.exch with area := .opening } }).hostStores host)
    match answer with
    | .readAwaited => { s with exch := { s.exch with openAwait := some .readAwaited } }
    | .writeAwaited => match s.headerCards with
      | some n => { s with exch := { s.exch.openedWith n with openAwait := some .writeAwaited } }
      | none => s.enterFaulted .badHeader 0 true
    | .both => match s.headerCards with
      | some n => ({ s with exch := s.exch.openedWith n }).finishOpening
      | none => s.enterFaulted .badHeader 0 true
  else s.controlIgnored

/-! ## Closing and abandoning (R182, R183, R185) -/

/-- An area that is draining or abandoning is CLOSED when no taken card is left unsettled. -/
def State.closeWhenEmpty (s : State) : State := if s.exch.buffers.isEmpty then s.closeArea else s

def State.closeCommand (s : State) : State :=
  match s.exch.area with
  | .opened => (let t := s.stopFetcher; { t with exch := { t.exch with area := .draining } }).closeWhenEmpty
  | .faulted =>
    if s.exch.closeRequested then s else ({ s with exch := { s.exch with closeRequested := true } }).closeWhenEmpty
  | .closed => s.controlIgnored
  | .opening => s.controlIgnored
  | .draining => s.controlIgnored
  | .abandoning => s.controlIgnored

/-- A card in a unit queue that has not begun (R183). -/
def Buffer.unbegun (b : Buffer) : Bool := b.unit.isSome && decide (b.phase = .waiting)

/-- A card that has not begun leaves its queue and joins the settle list ABANDONED (R183). -/
def State.abandonUnbegun (s : State) (b : Buffer) : State :=
  let feed := b.unit == some .update && b.card.code == feedCode
  let s := s.handBack b.card .abandoned none []
  let s : State := { s with exch := { s.exch with
    buffers := s.exch.buffers.map fun x => if x.card.take = b.card.take then { x with unit := none } else x } }
  if feed then s.restartIdle else s

/-- Every unit with a card in work receives an abandon notice (R183). -/
def State.abandonNotices (s : State) : State :=
  s.custodyAbandon.measureAbandon.updateAbandon.credAbandon.lifeAbandon

/-- An ABANDON is taken (R183). The order in which the cards handed back in this one act join the settle list is not stated: those that have
not begun come first, in the order in which they were taken, then the cards in work whose units answer the notice at once, in the order
custody, measure, update, credential, lifecycle (DESIGN CHOICE, log entry 58). -/
def State.abandonArea (s : State) : State :=
  let t := s.stopFetcher
  let t : State := { t with exch := { t.exch with area := .abandoning } }
  (((t.exch.buffers.filter Buffer.unbegun).foldl State.abandonUnbegun t).abandonNotices).closeWhenEmpty

def State.abandonCommand (s : State) : State :=
  match s.exch.area with
  | .opened => s.abandonArea
  | .draining => s.abandonArea
  | .closed => s.controlIgnored
  | .opening => s.controlIgnored
  | .abandoning => s.controlIgnored
  | .faulted => s.controlIgnored

/-! ## Fetching (R172 to R176) -/

/-- A nudge (R172). -/
def State.nudge (s : State) : State :=
  if s.exch.area = .opened then
    match s.exch.fetcher with
    | .sleeping => { s with exch := { s.exch with fetcher := .reading, reRead := true } }
    | .waitingStartUp => { s with exch := { s.exch with nudge := true } }
    | .reading => { s with exch := { s.exch with nudge := true } }
    | .heldForRoom _ => { s with exch := { s.exch with nudge := true } }
    | .heldByOrdered => { s with exch := { s.exch with nudge := true } }
    | .stopped => s
  else s

/-- There is room for a card of a code (R174). -/
def State.hasRoom (s : State) (code : Word16) : Bool :=
  decide (s.exch.buffers.length < 24) && match unitOf code with
    | some u => decide ((s.queueOf u).length < u.capacity)
    | none => true

/-- The link entry of the cursor, or the start link (R173). -/
def State.linkEntry (s : State) : Nat :=
  leNat (s.readPage 0 (match s.exch.cursor with
    | some c => 127 + c
    | none => 4) 1)

/-- The card a link entry names (R173). -/
def State.linkedCard (s : State) : Option Nat :=
  if s.linkEntry = 0 ∨ s.exch.cards < s.linkEntry then none else some s.linkEntry

/-- A card as it stands in host memory, with the ticket and code of its head. -/
def State.cardAt (s : State) (n : Nat) : Card :=
  let bytes := s.readPage n 0 256
  { take := s.exch.takes, num := n, ticket := BitVec.ofNat 16 (leNat (sliceBytes bytes 2 2)),
    code := BitVec.ofNat 16 (leNat (sliceBytes bytes 4 2)), bytes := bytes }

/-- The exchange settles the card itself (R175). -/
def selfSettled (c : Card) : Bool := (unitOf c.code).isNone || (exchangeForm c).isSome

/-- The pass has no card to take (R172). -/
def State.noCard (s : State) : State :=
  if s.exch.nudge then { s with exch := { s.exch with nudge := false, reRead := true } }
  else { s with exch := { s.exch with fetcher := .sleeping, reRead := false } }

/-- A candidate with a wrong ticket: reported once, on a nudge re-read (R173). -/
def State.wrongTicket (n : Nat) (s : State) : State :=
  if s.exch.reRead && decide (s.exch.mismatch ≠ some n) then
    ({ s with exch := { s.exch with mismatch := some n } }).ask .chainMismatch
  else s

/-- The fetcher is HELD (R172). -/
def State.holdFetcher (f : Fetcher) (s : State) : State := { s with exch := { s.exch with fetcher := f, reRead := false } }

/-- A POSTED candidate with the expected ticket (R173, R174, R176). -/
def State.candidateFound (n : Nat) (c : Card) (s : State) : State :=
  if c.ordered && !selfSettled c && !s.exch.buffers.isEmpty then s.holdFetcher .heldByOrdered
  else if s.hasRoom c.code then { s with exch := { s.exch with candidate := some (n, c.ticket, c.code) } }
  else s.holdFetcher (.heldForRoom c.code)

/-- One READING pass (R173). -/
def State.readChain (s : State) : State :=
  match s.linkedCard with
  | none => s.noCard
  | some n =>
    let c := s.cardAt n
    if c.byte 0 ≠ 1#8 then s.noCard
    else if c.ticket ≠ s.exch.expected then (s.wrongTicket n).noCard
    else s.candidateFound n c

/-- The fetcher is reading the chain and is not on a take. -/
def State.isReading (s : State) : Bool :=
  s.powered && s.linkUp && decide (s.exch.area = .opened) && decide (s.exch.fetcher = .reading)

/-- The access that an opening still awaits is answered, and the opening goes on to its end (R171). -/
def State.completeOpening (s : State) : State :=
  match s.exch.openAwait with
  | some .readAwaited => match s.headerCards with
    | some n => ({ s with exch := s.exch.openedWith n }).finishOpening
    | none => s.enterFaulted .badHeader 0 true
  | some .writeAwaited => s.finishOpening
  | some .both => s
  | none => s

/-- The row of a pass: while an opening awaits an access, the row is the answer to that access, since no pass can come before it (log
entry 9); otherwise it is a pass of the fetcher. -/
def State.readingPass (host : HostWrites) (s : State) : State :=
  if s.powered && s.linkUp && decide (s.exch.area = .opening) then (s.hostStores host).completeOpening
  else if s.isReading && s.exch.candidate.isNone then (s.hostStores host).readChain
  else s

/-- The ticket after one: 65535 is followed by 1 (R174). -/
def nextTicket (t : Word16) : Word16 := if t = 0xFFFF#16 then 1#16 else t + 1#16

/-- A taken card goes to its unit, or is settled by the exchange (R174, R175). -/
def State.routeCard (c : Card) (s : State) : State :=
  let place (u : Option UnitName) (p : Phase) (s : State) : State :=
    { s with exch := { s.exch with buffers := s.exch.buffers ++ [{ card := c, unit := u, phase := p }] } }
  match unitOf c.code with
  | none => (place none .handedBack s).handBack c .unknownCommand (some (c.code.setWidth 32)) []
  | some u => match exchangeForm c with
    | some n => (place none .handedBack s).handBack c .badRequest (some (BitVec.ofNat 32 n)) []
    | none => place (some u) .waiting s

/-- The three accesses of a take complete (R174). -/
def State.takeCard (n : Nat) (ticket code : Word16) (s : State) : State :=
  let c : Card := { take := s.exch.takes, num := n, ticket := ticket, code := code, bytes := s.readPage n 0 256 }
  let s := (s.writePage n 0 [2#8]).writePage 0 12 (leBytes 2 ticket.toNat)
  ({ s with exch := { s.exch with
      takes := s.exch.takes + 1, takenTicket := ticket, expected := nextTicket s.exch.expected, cursor := some n, mismatch := none,
      candidate := none } }).routeCard c

def State.cardTake (host : HostWrites) (s : State) : State :=
  if s.isReading then
    match s.exch.candidate with
    | some (n, ticket, code) => (s.hostStores host).takeCard n ticket code
    | none => s
  else s

/-! ## Settling (R179, R180) -/

/-- The area states in which the exchange settles cards. -/
def AreaState.settles : AreaState → Bool
  | .opened => true
  | .draining => true
  | .abandoning => true
  | .closed => false
  | .opening => false
  | .faulted => false

/-- The 80 bytes of a reply region; its reserved byte has no stated value, and body bytes beyond the reply are zero (R190, R191). -/
def Settlement.region (e : Settlement) : List OutByte :=
  outNum 2 e.outcome.code ++ outNum 1 e.body.length ++ outOpen 1 ++ outNum 4 e.detail.toNat
    ++ outBytes (sliceBytes e.body 0 72)

/-- The first write of a settle: the reply region (R179). -/
def State.writeReply (e : Settlement) (s : State) : State :=
  (s.writePage e.card.num 176 (s.filled e.region)).afterFill e.region

/-- The second write of a settle: state SETTLED (R179). -/
def State.writeSettled (e : Settlement) (s : State) : State := s.writePage e.card.num 0 [3#8]

/-- What a held fetcher waits for has come (R172, R174, R176). -/
def State.holdClears (s : State) : Bool :=
  match s.exch.fetcher with
  | .heldForRoom code => s.hasRoom code
  | .heldByOrdered => s.exch.buffers.isEmpty
  | .stopped => false
  | .waitingStartUp => false
  | .reading => false
  | .sleeping => false

def State.unhold (s : State) : State :=
  if s.holdClears then { s with exch := { s.exch with fetcher := .reading } } else s

/-- A draining or abandoning area whose last card has settled is CLOSED (R182, R183). -/
def State.closeIfDone (s : State) : State :=
  match s.exch.area with
  | .draining => s.closeWhenEmpty
  | .abandoning => s.closeWhenEmpty
  | .opened => s
  | .closed => s
  | .opening => s
  | .faulted => s

/-- The third write of a settle, and what follows it (R179, R180). -/
def State.tallySettle (e : Settlement) (rest : List Settlement) (s : State) : State :=
  let wasEqual := decide (s.exch.tally = s.exch.ack)
  let tally := s.exch.tally + 1#32
  let s := s.writePage 0 8 (leBytes 4 tally.toNat)
  let s := ({ s with exch := { s.exch with tally := tally, settleList := rest } }).freeBuffer e.card
  let s := if wasEqual then s.sendMessage else s
  s.unhold.closeIfDone

def State.settleCard (s : State) : State :=
  if s.powered && s.linkUp && s.exch.area.settles then
    match s.exch.settleList with
    | [] => s
    | e :: rest => ((s.writeReply e).writeSettled e).tallySettle e rest
  else s

/-! ## Faults (R184) -/

/-- A failed access of the settle at the front of the list, after the writes that preceded it. -/
def State.settleFault (before : Settlement → State → State) (faultCard : Settlement → Nat) (host : HostWrites) (answered : Bool)
    (s : State) : State :=
  if s.exch.area.settles then
    match s.exch.settleList with
    | e :: _ => (before e (s.hostStores host)).enterFaulted .cardWrite (faultCard e) answered
    | [] => s
  else s

/-- A failed access of a take in progress. -/
def State.takeFault (code : FaultCode) (before : Nat → State → State) (host : HostWrites) (answered : Bool) (s : State) : State :=
  if s.isReading then
    match s.exch.candidate with
    | some (n, _, _) => (before n (s.hostStores host)).enterFaulted code n answered
    | none => s
  else s

/-- A failed access of an opening that awaits it (R171). -/
def State.openingFault (await : OpenAnswer) (fails : State → State) (host : HostWrites) (s : State) : State :=
  if s.exch.area = .opening ∧ s.exch.openAwait = some await then fails (s.hostStores host) else s

/-- A failed read of a READING pass (R173). -/
def State.passFault (fails : State → State) (host : HostWrites) (s : State) : State :=
  if s.isReading && s.exch.candidate.isNone then fails (s.hostStores host) else s

/-- A failed access to the header page or a card: the host's stores before it and the writes that completed before it stand, and the area
is FAULTED (R171, R173, R174, R179, R184). `answered` tells whether the write of the fault code and fault card completes; after an
invalid header the failed access is that write itself. -/
def State.accessFails (access : FailedAccess) (host : HostWrites) (answered : Bool) (s : State) : State :=
  match access with
  | .headerRead => s.openingFault .readAwaited (fun s => s.enterFaulted .cardRead 0 answered) host
  | .openingWrite => s.openingFault .writeAwaited (fun s => s.enterFaulted .cardWrite 0 answered) host
  | .faultWrite =>
    s.openingFault .readAwaited (fun s => if s.headerCards.isNone then s.enterFaulted .badHeader 0 false else s) host
  | .linkRead => s.passFault (fun s => s.enterFaulted .cardRead 0 answered) host
  | .headRead =>
    s.passFault (fun s => match s.linkedCard with
      | some n => s.enterFaulted .cardRead n answered
      | none => s) host
  | .cardRead => s.takeFault .cardRead (fun _ s => s) host answered
  | .takenStateWrite => s.takeFault .cardWrite (fun _ s => s) host answered
  | .takenTicketWrite => s.takeFault .cardWrite (fun n s => s.writePage n 0 [2#8]) host answered
  | .replyWrite => s.settleFault (fun _ s => s) (fun e => e.card.num) host answered
  | .settledWrite => s.settleFault State.writeReply (fun e => e.card.num) host answered
  | .tallyWrite => s.settleFault (fun e s => (s.writeReply e).writeSettled e) (fun _ => 0) host answered

/-! ## Writes to the register window as words (R169, R170, R189) -/

/-- The command that a write to AREA CONTROL carries: bits 1:0 name it, and bit 8 is the interrupt enable (R189). For OPEN, `host` is what
the host has stored and `answer` which accesses are answered. -/
def controlCommand (v : Word32) (host : HostWrites) (answer : OpenAnswer) : Instr :=
  match (v &&& 3#32).toNat with
  | 0 => .interruptEnableWrite (v.getLsbD 8)
  | 1 => .areaOpen (v.getLsbD 8) host answer
  | 2 => .areaClose (v.getLsbD 8)
  | _ => .areaAbandon (v.getLsbD 8)

/-- What a word written to AREA CONTROL does (R169, R170, R189): the command that `controlCommand` names, an OPEN with every access
answered. -/
def State.writeControl (v : Word32) (s : State) : State :=
  let s := s.setEnable (v.getLsbD 8)
  match (v &&& 3#32).toNat with
  | 0 => s
  | 1 => s.openArea [] .both
  | 2 => s.closeCommand
  | _ => s.abandonCommand

/-- A base half is written, in CLOSED alone (R169). -/
def State.writeBase (base : Word64) (s : State) : State :=
  if s.exch.area = .closed then { s with exch := { s.exch with base := base } } else s

/-- A word written to a register of the window (R169, R189): STATUS and the word without a register ignore it. -/
def State.writeRegister (offset : BitVec 5) (v : Word32) (s : State) : State :=
  if offset = 0x00#5 then s.writeBase (baseWithLow s.exch.base v)
  else if offset = 0x04#5 then s.writeBase (baseWithHigh s.exch.base v)
  else if offset = 0x08#5 then s.writeControl v
  else if offset = 0x0C#5 then s.nudge
  else if offset = 0x10#5 then s.writeAck v
  else if offset = 0x18#5 then s.clearAttention v
  else s

/-! ## The meanings of the rows -/

/-- OPEN (R170, R171). -/
def execOpen (enable : Bool) (host : HostWrites) (answer : OpenAnswer) (s : State) : Host.Outcome State Fault Refusal :=
  .next (s.whenReachable fun s => (s.setEnable enable).openArea host answer)

/-- CLOSE (R170, R182, R185). -/
def execClose (enable : Bool) (s : State) : Host.Outcome State Fault Refusal :=
  .next (s.whenReachable fun s => (s.setEnable enable).closeCommand)

/-- ABANDON (R170, R183). -/
def execAbandon (enable : Bool) (s : State) : Host.Outcome State Fault Refusal :=
  .next (s.whenReachable fun s => (s.setEnable enable).abandonCommand)

/-- A write to AREA CONTROL without a command (R169, R180). -/
def execInterruptEnableWrite (enable : Bool) (s : State) : Host.Outcome State Fault Refusal :=
  .next (s.whenReachable (State.setEnable enable))

/-- A write to NUDGE, whatever its value (R172). -/
def execNudge (_value : Word32) (s : State) : Host.Outcome State Fault Refusal := .next (s.whenReachable State.nudge)

/-- A write to SETTLE ACK (R180). -/
def execSettleAck (value : Word32) (s : State) : Host.Outcome State Fault Refusal :=
  .next (s.whenReachable (State.writeAck value))

/-- A write to ATTENTION (R181). -/
def execAttentionClear (value : Word32) (s : State) : Host.Outcome State Fault Refusal :=
  .next (s.whenReachable (State.clearAttention value))

/-- A word written to a register of the window, given by its offset (R169, R189). -/
def execRegisterWrite (offset : BitVec 5) (value : Word32) (s : State) : Host.Outcome State Fault Refusal :=
  .next (s.whenReachable (State.writeRegister offset value))

/-- A READING pass, or the answer an opening awaits (R171, R173). -/
def execReadingPass (host : HostWrites) (s : State) : Host.Outcome State Fault Refusal := .next (s.readingPass host)

/-- A card is taken (R174). -/
def execCardTake (host : HostWrites) (s : State) : Host.Outcome State Fault Refusal := .next (s.cardTake host)

/-- The card at the front of the settle list is settled (R179). -/
def execSettle (s : State) : Host.Outcome State Fault Refusal := .next s.settleCard

/-- A failed access to the header page or to a card (R184). -/
def execAreaFaulted (failure : AccessFailure) (faultWriteAnswered : Bool) (s : State) : Host.Outcome State Fault Refusal :=
  .next (s.whenPowered (State.accessFails failure.access failure.host faultWriteAnswered))

end Sys2Proof.Machine
end

