-- ==== Sys2Proof/Machine/Reset.lean ====
section
/-! DEFINITION. The pace clock's tick (R155), the loss and return of the link (R168, R186), power-up and loss of supply (R162, R167), and
the platform reset line (R163). -/
namespace Sys2Proof.Machine

/-! ## The pace clock (R155) -/

/-- What the present tick still owes is taken before the next tick, in the order in which the blocks are named here; the rows of these
events may take them earlier in any other order (log entry 10). -/
def State.flushTick (s : State) : State :=
  s.presenceExpiry.decayStep.storedDebtRefresh.idleExpiry.guardExpiry.periodExpiry.ownerReleaseHold

/-- The tick count advances; the decay steps fall at multiples of 64 and the refreshes at multiples of 512 (R101, R103, R155). -/
def Pace.next (p : Pace) : Pace :=
  let t := p.tick + 1#32
  { tick := t, decayDue := decide (t.toNat % 64 = 0), refreshDue := decide (t.toNat % 512 = 0) }

/-- A pace tick: the count advances and the owner-release line is sampled (R132, R155). -/
def State.paceTick (low : Bool) (s : State) : State :=
  let s := s.flushTick
  let s : State := { s with pace := s.pace.next, ownerLineLow := low }
  if s.startUp = .ended then s.sampleLine low else s

/-! ## The link (R168, R186) -/

/-- Whether a unit's card in work needs host memory as the link is lost: its own DMA access is under way, or it is an UPDATE FEED or a KEY
MAC, whose job reads its extents piece by piece. A job that waits for its next piece is cut too: R91 and R168 end a feed in work by the
loss itself (DEDUCED, log entry 52). -/
def State.needsHost (s : State) (u : DmaUnit) : Bool :=
  s.dmaPending u || match u with
    | .custody => (s.custody.work.map fun w => decide (w.stage = .mac)).getD false
    | .update => (s.update.work.map fun w => decide (w.stage = .feed)).getD false
    | .measure => false
    | .lifecycle => false

/-- Whether a unit has an access that was made while the link was down, and so fails although the link has returned: its own DMA access,
or the read of the hash piece in progress (R140, R186). -/
def State.accessMade (s : State) (u : DmaUnit) : Bool :=
  s.dmaPending u || match s.hash.running with
    | some run => run.job.source.isExtents && match u with
      | .custody => decide (run.client = .custody)
      | .update => decide (run.client = .update)
      | .measure => false
      | .lifecycle => false
    | none => false

/-- The accesses named fail when they end. -/
def State.cutAccesses (named : DmaUnit → Bool) (s : State) : State :=
  { s with
    custody := { s.custody with work := s.custody.work.map (Work.cutWhen (named .custody)) }
    measure := { s.measure with work := s.measure.work.map (Work.cutWhen (named .measure)) }
    update := { s.update with work := s.update.work.map (Work.cutWhen (named .update)) }
    lifecycle := { s.lifecycle with work := s.lifecycle.work.map (Work.cutWhen (named .lifecycle)) } }

/-- The link is lost: the cards in work that need host memory find their accesses failing, and an active area is FAULTED (R91, R168,
R186). -/
def State.linkLoss (s : State) : State :=
  if s.linkUp then ({ s.cutAccesses s.needsHost with linkUp := false }).enterFaulted .linkLost 0 false else s

/-- The link returns: the part is as the lost link left it, and the accesses made while it was down fail (R168, R186). -/
def State.linkReturn (s : State) : State :=
  if s.linkUp then s else { s.cutAccesses s.accessMade with linkUp := true }

/-! ## Supply and reset (R162, R163, R167) -/

/-- Every block is in its reset state; the store's records and its queue are dealt with apart (R167). -/
def State.cleared (s : State) : State :=
  { s with
    exch := Exchange.reset, custody := Custody.reset, measure := Measure.reset, update := Update.reset,
    credential := Credential.reset, lifecycle := Lifecycle.reset, hash := HashEngine.reset, curve := CurveEngine.reset,
    census := Census.reset, pace := Pace.reset, startUp := .notBegun, outboxes := Outboxes.empty, measureWaiting := [],
    linkUp := true }

/-- A store whose queue is lost. -/
def Store.withoutQueue (st : Store) : Store := { st with queue := [], waiting := [], startUpFault := false }

/-- A write that no requester waits for any more (R163). -/
def WriteRequest.orphan (r : WriteRequest) : WriteRequest := { r with answerTo := .nobody }

/-- The store as a platform reset leaves it: the queue stands, and its answers reach nobody (R163, R165). -/
def Store.orphaned (st : Store) : Store :=
  { st with queue := st.queue.map WriteRequest.orphan, waiting := [], startUpFault := false }

/-- The store as a loss of supply leaves it: the write in progress is torn, the queue lost (R162). -/
def Store.cut (st : Store) (cut : WriteCut) : Store :=
  (match st.queue with
    | [] => st
    | r :: _ => st.tear r.write cut).withoutQueue

def State.powerLoss (cut : WriteCut) (s : State) : State :=
  { s.cleared with store := s.store.cut cut, powered := false }

def State.powerUp (s : State) : State :=
  if s.powered then s else { s.cleared with store := s.store.withoutQueue, powered := true }

/-- The platform reset line is asserted or released (R163); an assertion of a line already asserted changes nothing. -/
def State.resetLineSet (asserted : Bool) (s : State) : State :=
  if asserted then
    if s.resetLine then s else { s.cleared with store := s.store.orphaned, resetLine := true }
  else { s with resetLine := false }

/-! ## The meanings of the rows -/

/-- A pace tick (R155). -/
def execPaceTick (ownerLineLow : Bool) (s : State) : Host.Outcome State Fault Refusal :=
  .next (s.whenPowered (State.paceTick ownerLineLow))

/-- The link is lost (R186). -/
def execLinkLoss (s : State) : Host.Outcome State Fault Refusal := .next (s.whenPowered State.linkLoss)

/-- The link returns (R186). -/
def execLinkReturn (s : State) : Host.Outcome State Fault Refusal := .next (s.whenPowered State.linkReturn)

/-- Power-up (R167). -/
def execPowerUp (s : State) : Host.Outcome State Fault Refusal := .next s.powerUp

/-- Loss of supply (R162). -/
def execPowerLoss (cut : WriteCut) (s : State) : Host.Outcome State Fault Refusal :=
  .next (s.whenPowered (State.powerLoss cut))

/-- The platform reset line (R163). -/
def execPlatformReset (asserted : Bool) (s : State) : Host.Outcome State Fault Refusal :=
  .next (s.whenPowered (State.resetLineSet asserted))

end Sys2Proof.Machine
end

