-- ==== Sys2Proof/Machine/Dispatch.lean ====
section
/-! DEFINITION. The meaning of every command: one arm per constructor of `Instr`. -/
namespace Sys2Proof.Machine

def exec (i : Instr) (s : State) : Host.Outcome State Fault Refusal :=
  match i with
  | .keyGenerate => Sys2Proof.Machine.execKeyGenerate s
  | .keyImport => Sys2Proof.Machine.execKeyImport s
  | .keySign => Sys2Proof.Machine.execKeySign s
  | .keyMac => Sys2Proof.Machine.execKeyMac s
  | .keyWrapOut => Sys2Proof.Machine.execKeyWrapOut s
  | .keySetAttributes => Sys2Proof.Machine.execKeySetAttributes s
  | .keyFinalize => Sys2Proof.Machine.execKeyFinalize s
  | .keyErase => Sys2Proof.Machine.execKeyErase s
  | .keyDescribe => Sys2Proof.Machine.execKeyDescribe s
  | .drawRandom => Sys2Proof.Machine.execDrawRandom s
  | .extend => Sys2Proof.Machine.execExtend s
  | .closeChain => Sys2Proof.Machine.execCloseChain s
  | .readChains => Sys2Proof.Machine.execReadChains s
  | .readRecords => Sys2Proof.Machine.execReadRecords s
  | .quote => Sys2Proof.Machine.execQuote s
  | .anchorInstall => Sys2Proof.Machine.execAnchorInstall s
  | .anchorRemove => Sys2Proof.Machine.execAnchorRemove s
  | .updateOpen => Sys2Proof.Machine.execUpdateOpen s
  | .updateFeed => Sys2Proof.Machine.execUpdateFeed s
  | .updateCancel => Sys2Proof.Machine.execUpdateCancel s
  | .updateCommit => Sys2Proof.Machine.execUpdateCommit s
  | .updateConfirm => Sys2Proof.Machine.execUpdateConfirm s
  | .updateRevert => Sys2Proof.Machine.execUpdateRevert s
  | .bootAdvice => Sys2Proof.Machine.execBootAdvice s
  | .credEnroll => Sys2Proof.Machine.execCredEnroll s
  | .credVerify => Sys2Proof.Machine.execCredVerify s
  | .credRelease => Sys2Proof.Machine.execCredRelease s
  | .credReplace => Sys2Proof.Machine.execCredReplace s
  | .credRemove => Sys2Proof.Machine.execCredRemove s
  | .credDescribe => Sys2Proof.Machine.execCredDescribe s
  | .factoryIdentity => Sys2Proof.Machine.execFactoryIdentity s
  | .factoryRoot => Sys2Proof.Machine.execFactoryRoot s
  | .factoryCertificate => Sys2Proof.Machine.execFactoryCertificate s
  | .factoryPairing => Sys2Proof.Machine.execFactoryPairing s
  | .factoryFinish => Sys2Proof.Machine.execFactoryFinish s
  | .ownershipRelease => Sys2Proof.Machine.execOwnershipRelease s
  | .ownerWithdraw => Sys2Proof.Machine.execOwnerWithdraw s
  | .lifecycleDescribe => Sys2Proof.Machine.execLifecycleDescribe s
  | .identityDescribe => Sys2Proof.Machine.execIdentityDescribe s
  | .areaOpen enable host answer => Sys2Proof.Machine.execOpen enable host answer s
  | .areaClose enable => Sys2Proof.Machine.execClose enable s
  | .areaAbandon enable => Sys2Proof.Machine.execAbandon enable s
  | .interruptEnableWrite enable => Sys2Proof.Machine.execInterruptEnableWrite enable s
  | .nudge value => Sys2Proof.Machine.execNudge value s
  | .settleAck value => Sys2Proof.Machine.execSettleAck value s
  | .attentionClear value => Sys2Proof.Machine.execAttentionClear value s
  | .registerWrite offset value => Sys2Proof.Machine.execRegisterWrite offset value s
  | .readingPass host => Sys2Proof.Machine.execReadingPass host s
  | .cardTake host => Sys2Proof.Machine.execCardTake host s
  | .settle => Sys2Proof.Machine.execSettle s
  | .areaFaulted failure faultWriteAnswered => Sys2Proof.Machine.execAreaFaulted failure faultWriteAnswered s
  | .linkLoss => Sys2Proof.Machine.execLinkLoss s
  | .linkReturn => Sys2Proof.Machine.execLinkReturn s
  | .powerUp => Sys2Proof.Machine.execPowerUp s
  | .powerLoss cut => Sys2Proof.Machine.execPowerLoss cut s
  | .platformReset asserted => Sys2Proof.Machine.execPlatformReset asserted s
  | .startUp => Sys2Proof.Machine.execStartUp s
  | .paceTick ownerLineLow => Sys2Proof.Machine.execPaceTick ownerLineLow s
  | .ownerReleaseHold => Sys2Proof.Machine.execOwnerReleaseHold s
  | .presenceExpiry => Sys2Proof.Machine.execPresenceExpiry s
  | .decayStep => Sys2Proof.Machine.execDecayStep s
  | .storedDebtRefresh => Sys2Proof.Machine.execStoredDebtRefresh s
  | .idleTimerExpiry => Sys2Proof.Machine.execIdleTimerExpiry s
  | .guardTimerExpiry => Sys2Proof.Machine.execGuardTimerExpiry s
  | .periodTimerExpiry => Sys2Proof.Machine.execPeriodTimerExpiry s
  | .censusRunEnd a b r bounded jitter => Sys2Proof.Machine.execCensusRunEnd a b r bounded jitter s
  | .hashPieceEnd host readAnswered => Sys2Proof.Machine.execHashPieceEnd host readAnswered s
  | .curveOperationComplete => Sys2Proof.Machine.execCurveOperationComplete s
  | .storeWriteEnd firstMatches secondMatches => Sys2Proof.Machine.execStoreWriteEnd firstMatches secondMatches s
  | .partEvent => Sys2Proof.Machine.execPartEvent s
  | .bindingCheck => Sys2Proof.Machine.execBindingCheck s
  | .chainRead => Sys2Proof.Machine.execChainRead s
  | .installationRequest => Sys2Proof.Machine.execInstallationRequest s
  | .removalRequest => Sys2Proof.Machine.execRemovalRequest s
  | .custodyWipeOrder => Sys2Proof.Machine.execCustodyWipeOrder s
  | .credentialWipeOrder => Sys2Proof.Machine.execCredentialWipeOrder s
  | .updateWipeOrder => Sys2Proof.Machine.execUpdateWipeOrder s
  | .pairingInstallationRequest => Sys2Proof.Machine.execPairingInstallationRequest s
  | .presenceOpeningRequest => Sys2Proof.Machine.execPresenceOpeningRequest s
  | .claimCompletionRequest => Sys2Proof.Machine.execClaimCompletionRequest s
  | .sessionLeftCheckedNotice => Sys2Proof.Machine.execSessionLeftCheckedNotice s
  | .censusFailedReport => Sys2Proof.Machine.execCensusFailedReport s
  | .wipeAnswer unit => Sys2Proof.Machine.execWipeAnswer unit s
  | .extentDmaEnd unit host result => Sys2Proof.Machine.execExtentDmaEnd unit host result s

end Sys2Proof.Machine
end

