-- ==== Sys2Proof/Safety.lean ====
section
/-! DEFINITION. The terms in which the statements speak: what a card handed back adds, what a card begun changes, room at the store and
at the measure unit, and the invariants of the part. -/
namespace Sys2Proof.Machine

/-! ## Cards begun and handed back -/

/-- The exchange with a card begun (R178). -/
def Exchange.begun (e : Exchange) (c : Card) : Exchange :=
  { e with buffers := e.buffers.map fun b => if b.card.take = c.take then { b with phase := .begun } else b }

/-- The exchange with a card handed back: the settlement has joined the settle list (R179). -/
def Exchange.handed (e : Exchange) (x : Settlement) : Exchange :=
  { e with
    buffers := e.buffers.map fun b => if b.card.take = x.card.take then { b with phase := .handedBack } else b
    settleList := e.settleList ++ [x] }

/-- The exchange with a card begun and handed back in one step. -/
def Exchange.answered (e : Exchange) (c : Card) (o : CardOutcome) (d : Word32) (b : List Byte) : Exchange :=
  (e.begun c).handed { card := c, outcome := o, detail := d, body := b }

/-- The part after a unit has handed a card back while the area carries outcomes: the settlement joins the settle list, and a detail word or
a body byte without a stated value takes a free value (log entry 5). -/
def State.givesBack (s : State) (c : Card) (o : CardOutcome) (d : Option Word32) (b : List OutByte) : State :=
  let n := if d.isSome then s.free else s.free + 1
  { s with
    exch := s.exch.handed { card := c, outcome := o, detail := d.getD (Config.freeWord s.free), body := fillOpen n b }
    free := n + countOpen b }

/-- The part with a card of some unit begun (R178). -/
def State.begins (s : State) (c : Card) : State := { s with exch := s.exch.begun c }

/-- The exchange with its fetcher stopped (R172). -/
def Exchange.halted (e : Exchange) : Exchange :=
  { e with fetcher := .stopped, nudge := false, reRead := false, candidate := none, openAwait := none }

/-- The buffers that the cards of the settle list do not hold (R184). -/
def Exchange.kept (e : Exchange) : List Buffer :=
  e.buffers.filter fun b => !(e.settleList.any fun x => x.card.take == b.card.take)

/-- The exchange in FAULTED, entered with a fault code and a fault card: the fetcher is stopped, AREA FAULT is set, the settle list is
discarded with its buffers (R184). -/
def Exchange.faultedWith (e : Exchange) (code : Word16) (card : Byte) : Exchange :=
  { e.halted with
    area := .faulted, closeRequested := false, faultCode := code, faultCard := card, attention := e.attention ||| 1#9
    settleList := [], buffers := e.kept }

/-- The messages that a write to AREA CONTROL sends for the enable it carries (R180). -/
def State.enableMessages (s : State) (enable : Bool) : Nat :=
  (enable && !s.exch.enable && (decide (s.exch.tally ≠ s.exch.ack) || decide (s.exch.attention ≠ 0#9))).toNat

/-- The messages that a request for attention sends, with the enable as given and the link up (R180, R181). -/
def State.askMessages (s : State) (enable : Bool) : Nat := (enable && decide (s.exch.attention = 0#9)).toNat

/-- A unit's card in work, not abandoned, with no access cut by a loss of the link. -/
def working {σ : Type} (c : Card) (stage : σ) (committed : Bool) : Option (Work σ) :=
  some { card := c, stage := stage, abandoned := false, committed := committed }

/-- A unit's card in work that makes an access to host memory, not abandoned; `cut` tells whether a loss of the link has cut the access. -/
def accessing {σ : Type} (c : Card) (stage : σ) (committed cut : Bool) : Option (Work σ) :=
  some { card := c, stage := stage, abandoned := false, committed := committed, cut := cut }

/-- A unit's card in work that an ABANDON has reached and that waits for what it has under way to end. -/
def marked {σ : Type} (c : Card) (stage : σ) : Option (Work σ) :=
  some { card := c, stage := stage, abandoned := true, committed := false }

/-- No unit but one has a card in work. -/
def State.alone (s : State) (u : UnitName) : Prop :=
  (u ≠ .custody → s.custody.work = none) ∧ (u ≠ .measure → s.measure.work = none) ∧ (u ≠ .update → s.update.work = none)
    ∧ (u ≠ .credential → s.credential.work = none) ∧ (u ≠ .lifecycle → s.lifecycle.work = none)

/-- The part with the exchange's own part of an ABANDON done: the fetcher is stopped and the area ABANDONING (R183). -/
def State.abandoning (s : State) (enable : Bool) : State :=
  { s with
    messages := s.messages + s.enableMessages enable
    exch := { s.exch.halted with enable := enable, area := .abandoning } }

/-- An internal request whose sender has given it up: a binding check of `who`, or, for `none`, the chain read of an UPDATE CONFIRM, has
no taker for its answer (R24, R90, R117). -/
def unwanted (who : Option Checker) : MeasureRequest → MeasureRequest
  | .check d b wanted => .check d b (wanted && decide (who ≠ some d))
  | .chainRead chain wanted => .chainRead chain (wanted && decide (who ≠ none))
  | .event e => .event e

/-- The same of a request that has not joined the internal request list yet. -/
def unwantedOut (who : Option Checker) : Out → Out
  | .request r => .request (unwanted who r)
  | .write w t => .write w t
  | .refresh i => .refresh i
  | .act a => .act a

/-- The part with the request of a sender given up, in the internal request list and in what is still to send. -/
def State.gaveUp (s : State) (who : Option Checker) : State :=
  let drop : List Out → List Out := List.map (unwantedOut who)
  { s with
    measure := { s.measure with internal := s.measure.internal.map (unwanted who) }
    outboxes :=
      { s.outboxes with
        custodyAsk := drop s.outboxes.custodyAsk, credentialAsk := drop s.outboxes.credentialAsk
        updateAsk := drop s.outboxes.updateAsk } }

/-- The hash engine after a withdrawal: a waiting job has left its place, and the piece in progress, if it is the client's, ends with no
taker (R143). -/
def HashEngine.withdrawn (e : HashEngine) (c : HashClient) : HashEngine :=
  { e.setWaiting c none with
    running := e.running.map fun run => { run with withdrawn := run.withdrawn || decide (run.client = c) } }

/-- The area carries outcomes: a card handed back joins the settle list. -/
def State.carries (s : State) : Prop := s.exch.area ≠ .faulted

/-- A number of `n` bytes in a reply, least significant byte first (R188). -/
def replyNum (n v : Nat) : List OutByte := (List.range n).map fun i => some (BitVec.ofNat 8 (v / 256 ^ i))

/-- `n` bytes of a reply without a stated value (log entry 5). -/
def replyOpen (n : Nat) : List OutByte := List.replicate n none

/-! ## Room -/

/-- A block has nothing left to send, and waits for no room. -/
def State.quiet (s : State) (c : Client) : Prop := s.outboxes.get c = [] ∧ s.isWaiting c = false

/-- The store's queue has room for a write of a block that has nothing else to send (R160). -/
def State.storeRoom (s : State) (c : Client) : Prop := s.quiet c ∧ s.store.queue.length < storeCapacity

/-- A binding check or a chain read joins the internal request list as it is sent: there is room, and its block has nothing else to send
(R38). -/
def State.measureRoom (s : State) (c : Client) : Prop :=
  s.quiet c ∧ s.measure.internal.length < internalCapacity ∧ (∀ d ∈ s.measureWaiting, c.sameBlock d = false)
    ∧ (c = .updateAsk → s.outboxes.updateWipe = [])

/-- The part with what a block has still to send, waiting at the measure unit (R38). -/
def State.awaits (s : State) (c : Client) (l : List Out) : State :=
  { s with outboxes := s.outboxes.set c l, measureWaiting := s.measureWaiting ++ [c] }

/-- The store with one more write in its queue. -/
def Store.queued (st : Store) (w : Write) (t : WriteTo) : Store :=
  { st with queue := st.queue ++ [{ write := w, answerTo := t }] }

/-- An attempt waits for a write of its record to end (R98). -/
def State.attemptWaits (s : State) : Bool :=
  match s.credential.work with
  | none => false
  | some w => match w.stage with
    | .awaitRecord _ _ => true
    | _ => false

/-- The store's write in progress is `w`, for the requester `t`, with `rest` behind it; the area carries outcomes, the link is up, start-up
has ended, and no requester and no attempt waits for the end of the write (R98, R160). -/
def State.inWrite (s : State) (w : Write) (t : WriteTo) (rest : List WriteRequest) : Prop :=
  s.powered = true ∧ s.linkUp = true ∧ s.startUp = .ended ∧ s.resetLine = false ∧ s.carries
    ∧ s.store.queue = { write := w, answerTo := t } :: rest ∧ s.store.waiting = [] ∧ s.attemptWaits = false

/-- Whether a write of the store ends DONE, given its read-backs (R161). -/
def State.endsDone (s : State) (w : Write) (first second : Bool) : Bool := (s.store.program w first second).2

/-- The part with a write of the store carried out and gone from the queue (R160, R161). -/
def State.wrote (s : State) (w : Write) (first second : Bool) (rest : List WriteRequest) : State :=
  { s with store := { (s.store.program w first second).1 with queue := rest } }

/-- The part with STORE FAULT asked for, the link up and start-up ended (R161, R165, R180). -/
def State.storeFaulted (s : State) : State :=
  { s with
    exch := { s.exch with attention := s.exch.attention ||| 8#9 }
    messages := s.messages + (s.exch.enable && decide (s.exch.attention = 0#9)).toNat }

/-- A part event stands first in the work of the one block that waits at the measure unit, whose list is empty, with nothing in work or in
service and start-up ended (R38, R39). -/
def State.eventWaits (s : State) (c : Client) (e : PartEvent) (rest : List Out) : Prop :=
  s.powered = true ∧ s.startUp = .ended ∧ s.measure.starting = false ∧ s.measure.work = none ∧ s.measure.service = none
    ∧ s.measure.internal = [] ∧ s.measureWaiting = [c] ∧ s.outboxes.get c = .request (.event e) :: rest

/-- The part with that event accepted, its block with nothing more to send, and its service begun (R35, R38). -/
def State.eventTaken (s : State) (c : Client) (e : PartEvent) : State :=
  { s with
    measureWaiting := []
    outboxes := s.outboxes.set c []
    measure := { s.measure with internal := [.event e], service := some (.eventDigest e) }
    hash := s.hash.submit .measure (shaJob e.parameters) }

/-- The measure unit with one more internal request. -/
def Measure.asked (m : Measure) (r : MeasureRequest) : Measure := { m with internal := m.internal ++ [r] }

/-! ## The key table -/

/-- The first four checks of a use pass (R11). -/
def State.mayUse (s : State) (use : KeyUse) (r : KeyRecord) : Prop :=
  r.state ≠ .spent ∧ r.flags.permits use = true ∧ (r.cls = .owner → s.lifecycle.pending = false)
    ∧ (r.flags.needsPresence = true → s.lifecycle.presence.isSome = true)

/-- A slot can take a new key of a class (R7): not a fixed slot, of the region of the class, EMPTY, and with the lifecycle and presence
that the class needs. -/
def State.mayCreate (s : State) (cls : KeyClass) (i : Fin 48) : Prop :=
  (cls = .session ∧ 32 ≤ i.val ∨ (cls = .owner ∨ cls = .platform) ∧ 6 ≤ i.val ∧ i.val < 32) ∧ s.slot i = none
    ∧ s.lifecycle.effective ≠ .blank
    ∧ (cls = .owner → s.lifecycle.effective = .claimed ∧ s.lifecycle.pending = false ∧ s.lifecycle.presence.isSome = true)

/-- A custody card has changed a volatile slot and settled DONE, in one step. -/
def State.placedNow (s : State) (c : Card) (i : Fin 48) (v : Option KeyRecord) (d : Word32) (body : List Byte) : State :=
  { s with
    custody := { s.custody with table := tableSet s.custody.table i v, work := none, undo := none }
    exch := s.exch.answered c .done d body }

/-- A custody card has sent the record of a persistent slot to the store; the table does not change before the write is done. -/
def State.placing (s : State) (c : Card) (i : Fin 48) (j : Fin 32) (v : Option KeyRecord) (d : Option Word32)
    (body : List OutByte) : State :=
  { s with
    custody := { s.custody with work := working c (.record i v none (.settle .done d body)) true, undo := none }
    store := s.store.queued (.slot j v) .custodyCard
    exch := s.exch.begun c }

/-- A slot record after one successful use: the total use count rises, and the remaining count falls, the last use leaving it SPENT
(R12). -/
def usedOnce (r : KeyRecord) : KeyRecord :=
  { r with
    total := min 4294967295 (r.total + 1)
    limit := r.limit.map fun l => { l with remaining := l.remaining - 1 }
    state := match r.limit with
      | some l => if l.remaining ≤ 1 then .spent else .live
      | none => .live }

/-! ## Memory -/

/-- Every byte of host memory reads as before. -/
def SameMemory (s t : State) : Prop := ∀ a, Memory.read t.host a = Memory.read s.host a

/-- The addresses of `n` bytes from byte `off` of a page of the area. -/
def State.inPage (s : State) (page off n a : Nat) : Prop := ∃ i, i < n ∧ a = (s.pageAddress page off + i) % Memory.size

/-- The rows that can change host memory: the exchange's accesses to its area, an OPEN written as a word among them, the host's own
stores that a read finds, and the DMA writes of the units. -/
def touchesHost : Instr → Bool
  | .areaOpen _ _ _ => true
  | .registerWrite offset value => decide (offset = 0x08#5) && decide (value.extractLsb' 0 2 = 1#2)
  | .readingPass _ => true
  | .cardTake _ => true
  | .settle => true
  | .areaFaulted _ _ => true
  | .hashPieceEnd _ _ => true
  | .extentDmaEnd _ _ _ => true
  | _ => false

/-! ## The exchange area -/

/-- The header page as the part finds it: layout version 1 and the card count `n`, 8 to 120 (R171). -/
def validHeader (u : State) (n : Nat) : Prop :=
  leNat (u.readPage 0 0 2) = 1 ∧ leNat (u.readPage 0 2 2) = n ∧ 8 ≤ n ∧ n ≤ 120

/-- The candidate of a pass that finds a POSTED card with the expected ticket: the link entry of the cursor names it (R173). -/
def passFinds (u : State) (n : Nat) : Prop :=
  u.linkEntry = n ∧ 1 ≤ n ∧ n ≤ u.exch.cards ∧ (u.cardAt n).byte 0 = 1#8 ∧ (u.cardAt n).ticket = u.exch.expected

/-- A pass with no card to take puts the fetcher to sleep, or, with the latch set, clears it and begins a nudge re-read (R172, R173). -/
def restsAfterPass (u : State) : State :=
  if u.exch.nudge then { u with exch := { u.exch with nudge := false, reRead := true } }
  else { u with exch := { u.exch with fetcher := .sleeping, reRead := false } }

/-- There is room for a card of a code: a free buffer and, when the code belongs to a unit, a free place in its queue (R174, R177). -/
def roomFor (u : State) (code : Word16) : Prop :=
  u.exch.buffers.length < 24
    ∧ ∀ n, unitOf code = some n → (u.exch.buffers.filter fun b => b.unit == some n).length < n.capacity

/-- The ticket after one (R174). -/
def ticketAfter (t : Word16) : Word16 := if t.toNat = 65535 then 1#16 else BitVec.ofNat 16 (t.toNat + 1)

/-- What the exchange does with a unit queue that a settle frees: a held fetcher whose condition has come reads again (R172, R179). -/
def wakesHeld (s t : State) : Prop :=
  (∀ code, s.exch.fetcher = .heldForRoom code →
      (t.exch.fetcher = .reading ↔ roomFor t code) ∧ (¬roomFor t code → t.exch.fetcher = .heldForRoom code))
    ∧ (s.exch.fetcher = .heldByOrdered → t.exch.fetcher = if t.exch.buffers = [] then .reading else .heldByOrdered)
    ∧ ((∀ code, s.exch.fetcher ≠ .heldForRoom code) → s.exch.fetcher ≠ .heldByOrdered → t.exch.fetcher = s.exch.fetcher)

/-- The three bytes of the fault code and the fault card (R191). -/
def faultBytes (code : Nat) (card : Nat) : List Byte := leBytes 2 code ++ leBytes 1 card

/-! ## Reset -/

/-- Every block as R167 gathers it after power-up or platform reset, before start-up loads. -/
structure State.BlocksReset (s : State) : Prop where
  area        : s.exch.area = .closed ∧ s.exch.base = 0#64
  interrupts  : s.exch.enable = false ∧ s.exch.ack = 0#32 ∧ s.exch.tally = 0#32
  fetching    : s.exch.nudge = false ∧ s.exch.mismatch = none ∧ s.exch.fetcher = .stopped
  queues      : s.exch.buffers = [] ∧ s.exch.settleList = []
  attention   : s.exch.attention = 0#9
  custody     : s.custody.work = none ∧ s.custody.undo = none ∧ s.custody.held = [] ∧ s.custody.service = none
  measure     : s.measure.starting = true ∧ s.measure.work = none ∧ s.measure.internal = []
  serving     : s.measure.service = none ∧ s.measure.paused = none
  update      : s.update.session = .idle ∧ s.update.guardOn = false ∧ s.update.work = none
  updateWipe  : s.update.wipe = .none ∧ s.update.service = none
  credential  : s.credential.work = none ∧ s.credential.held = [] ∧ s.credential.service = none
  lifecycle   : s.lifecycle.presence = none ∧ s.lifecycle.hold = 0 ∧ s.lifecycle.work = none
  arrivals    : s.lifecycle.notices = 0 ∧ s.lifecycle.reports = 0
  answers     : s.lifecycle.answersSent = Trio.empty ∧ s.lifecycle.answersTaken = Trio.empty
  hash        : s.hash.running = none ∧ s.hash.pointer = .update ∧ ∀ c, s.hash.waiting c = none
  curve       : s.curve.running = none ∧ s.curve.pointer = .lifecycle ∧ ∀ c, s.curve.waiting c = none
  census      : s.census.state = .doubt ∧ s.census.run = none ∧ s.census.period = none ∧ s.census.waiters = []
  counts      : s.census.a = 0#8 ∧ s.census.b = 0#8 ∧ s.census.r = 0#8
  pace        : s.pace.tick = 0#32 ∧ s.pace.decayDue = false ∧ s.pace.refreshDue = false
  unsent      : s.outboxes = Outboxes.empty ∧ s.measureWaiting = []

/-! ## Invariants -/

/-- Host memory is in its canonical form (log entry 3). -/
def State.memoryOk (s : State) : Prop := Memory.wf s.host = true

/-- The record list holds at most 96 records, numbered from 1 without a gap, and nothing is missed or flagged before it is full (R30,
R31). -/
def State.recordsOk (s : State) : Prop :=
  s.measure.records.length ≤ recordCapacity
    ∧ s.measure.records.map (·.seq) = List.range' 1 s.measure.records.length
    ∧ (s.measure.records.length < recordCapacity → s.measure.missed = 0)
    ∧ (s.measure.truncated = true ↔ 0 < s.measure.missed)

/-- At most 24 cards are taken and not settled, a candidate about to be taken has a buffer, and no two buffers hold one take (R174,
R178). -/
def State.buffersOk (s : State) : Prop :=
  s.exch.buffers.length ≤ 24 ∧ (s.exch.candidate.isSome = true → s.exch.buffers.length < 24)
    ∧ (s.exch.buffers.map (·.card.take)).Nodup ∧ ∀ b ∈ s.exch.buffers, b.card.take < s.exch.takes

/-- The guard line is asserted only while the session is CHECKED, and always then (R80). -/
def State.guardOk (s : State) : Prop := s.update.guardOn = decide (s.update.session.code = 2)

/-- Release pending is set exactly while release progress is not NONE (R119). -/
def State.pendingOk (s : State) : Prop := s.lifecycle.pending = decide (s.lifecycle.progress ≠ .none)

/-- Every record of the store has, at its current location, the copy that start-up would take (R159). -/
def State.storeOk (s : State) : Prop :=
  s.store.lifecycle.settled = s.store.lifecycle ∧ s.store.certificate.settled = s.store.certificate
    ∧ (∀ i, (tableGet s.store.slots i).settled = tableGet s.store.slots i)
    ∧ (∀ i, (tableGet s.store.marks i).settled = tableGet s.store.marks i)
    ∧ (∀ i, (tableGet s.store.creds i).settled = tableGet s.store.creds i)
    ∧ ∀ k, (tableGet s.store.kinds k).settled = tableGet s.store.kinds k

end Sys2Proof.Machine
end

