-- ==== Sys2Proof/Certificates/Slice0/Obligations.lean ====
section
/-! DEFINITION. The statements for the provers: what each command does, what every step keeps, and what the shared parts do. -/

open Sys2Proof Sys2Proof.Machine

/-! ## The whole part -/

/-- The block's own step: a step carries out the command at the front of the queue on the state with the rest of the queue, and an empty
queue idles (log entry 2). -/
def Obligations.StepRunsTheFrontCommand : Prop :=
  (∀ (c : Instr) (rest : List Instr) (s : State), s.pending = c :: rest → step s = exec c { s with pending := rest })
    ∧ ∀ s : State, s.pending = [] → step s = .next s

/-- R167's table after power-up and after platform reset, with no job waiting at an engine, no block at a randomness gate, no request in
service and nothing left to send, and what the store's queue then holds (R162, R163); a loss of supply tears the
write in progress and loses the queue (R162). The values that R167 does not give are the model's (log entries 6 and 29). -/
def Obligations.PowerUpAndResetLeaveEveryBlockReset : Prop :=
  State.reset.BlocksReset
    ∧ (∀ s : State, s.powered = false →
        ∃ t, exec .powerUp s = .next t ∧ t.BlocksReset ∧ t.powered = true
          ∧ t.store = { s.store with queue := [], waiting := [], startUpFault := false } ∧ t.startUp = .notBegun ∧ SameMemory s t)
    ∧ (∀ s : State, s.powered = true → s.resetLine = false →
        ∃ t, exec (.platformReset true) s = .next t ∧ t.BlocksReset ∧ t.resetLine = true
          ∧ t.store = { s.store with queue := s.store.queue.map WriteRequest.orphan, waiting := [], startUpFault := false }
          ∧ t.startUp = .notBegun ∧ t.census.seed = 0#256 ∧ SameMemory s t)
    ∧ (∀ s : State, s.powered = true → exec (.platformReset false) s = .next { s with resetLine := false })
    ∧ ∀ (cut : WriteCut) (s : State), s.powered = true →
        ∃ t, exec (.powerLoss cut) s = .next t ∧ t.BlocksReset ∧ t.powered = false ∧ t.store.queue = [] ∧ t.store.waiting = []
          ∧ (s.store.queue = [] → t.store = { s.store with waiting := [], startUpFault := false })
          ∧ (∀ r rest, s.store.queue = r :: rest →
            t.store = { s.store.tear r.write cut with queue := [], waiting := [], startUpFault := false })
          ∧ SameMemory s t

/-- While the reset line is asserted every register reads zero and every write is ignored (R169); with the link down no write reaches the
part (R186). Without supply nothing but a power-up changes anything (R162, R167; log entry 34). Out of reset each register reads what R169
and R189 give: the base halves, the enable, the acknowledge value, the items of STATUS at their bits, the attention bits, and zero where the
table gives no field (R190). -/
def Obligations.UnreachablePartsStayAsTheyAre : Prop :=
  ((∀ (s : State) (o : BitVec 5), s.resetLine = true → s.readRegister o = 0#32)
    ∧ ∀ s : State, s.reachable = false →
      (∀ b h a, exec (.areaOpen b h a) s = .next s) ∧ (∀ b, exec (.areaClose b) s = .next s)
        ∧ (∀ b, exec (.areaAbandon b) s = .next s) ∧ (∀ b, exec (.interruptEnableWrite b) s = .next s)
        ∧ (∀ v, exec (.nudge v) s = .next s) ∧ (∀ v, exec (.settleAck v) s = .next s)
        ∧ (∀ v, exec (.attentionClear v) s = .next s) ∧ ∀ o v, exec (.registerWrite o v) s = .next s)
    ∧ (∀ (c : Instr) (s : State), s.powered = false → c ≠ .powerUp → exec c s = .next s)
    ∧ ∀ s : State, s.powered = true → s.resetLine = false →
      let status := s.readRegister 0x14#5
      (s.readRegister 0x00#5 = s.exch.base.extractLsb' 0 32 &&& 0xFFFFFF00#32 ∧ s.readRegister 0x04#5 = s.exch.base.extractLsb' 32 32
        ∧ s.readRegister 0x08#5 = (if s.exch.enable then 0x100#32 else 0#32) ∧ s.readRegister 0x0C#5 = 0#32
        ∧ s.readRegister 0x10#5 = s.exch.ack ∧ s.readRegister 0x18#5 = s.exch.attention.setWidth 32 ∧ s.readRegister 0x1C#5 = 0#32)
      ∧ (status.extractLsb' 0 3).toNat = s.exch.area.code
      ∧ (s.exch.fetcher = .heldByOrdered ∨ (∃ code, s.exch.fetcher = .heldForRoom code) → status.getLsbD 3 = true)
      ∧ (s.exch.fetcher ∈ [.stopped, .waitingStartUp, .reading, .sleeping] → status.getLsbD 3 = false)
      ∧ status.getLsbD 4 = decide (s.startUp ≠ .ended) ∧ (status.extractLsb' 5 2).toNat = s.lifecycle.effective.code
      ∧ (status.extractLsb' 7 2).toNat = s.lifecycle.requested.code ∧ status.getLsbD 9 = s.lifecycle.pending
      ∧ (status.extractLsb' 10 2).toNat = s.census.state.code ∧ status.getLsbD 12 = s.lifecycle.presence.isSome
      ∧ status.extractLsb' 13 18 = 0#18 ∧ status.getLsbD 31 = decide (s.exch.attention ≠ 0#9)

/-! ## Invariants -/

/-- The invariants hold of the part fresh from the factory. -/
def Obligations.ResetMeetsTheInvariants : Prop :=
  State.reset.memoryOk ∧ State.reset.recordsOk ∧ State.reset.buffersOk ∧ State.reset.guardOk ∧ State.reset.pendingOk
    ∧ State.reset.storeOk

/-- Every step keeps host memory in its canonical form, from any state: the form is the model's (log entry 3). Every step keeps the
store's records as start-up would load them at their current locations (R159, R161, R162). -/
def Obligations.StepsKeepTheMemoryFormAndTheStore : Prop :=
  (∀ s t : State, s.memoryOk → step s = .next t → t.memoryOk) ∧ ∀ s t : State, s.storeOk → step s = .next t → t.storeOk

/-- Every step keeps the record list numbered from 1 without a gap and within 96 records, with a missed count and a TRUNCATED flag only
once it is full (R30, R31). -/
def Obligations.StepsKeepTheRecordList : Prop := ∀ s t : State, s.recordsOk → step s = .next t → t.recordsOk

/-- Every step keeps at most 24 cards taken and not settled, each in a buffer of its own (R174, R178; the count of takes that tells them
apart is the model's, log entry 41). -/
def Obligations.StepsKeepTheBuffers : Prop := ∀ s t : State, s.buffersOk → step s = .next t → t.buffersOk

/-- Every step keeps the guard line asserted exactly while the session is CHECKED (R80). Every step keeps release pending set exactly
while release progress is not NONE (R119). -/
def Obligations.StepsKeepTheGuardLineAndReleasePending : Prop :=
  (∀ s t : State, s.guardOk → step s = .next t → t.guardOk)
    ∧ (∀ s t : State, s.pendingOk → step s = .next t → t.pendingOk)

/-- Host memory changes only in the rows that access the area or an extent; every other command leaves every byte of it. The opening
leaves every byte outside the nine it writes as the host left it; a take writes one byte of the card and two of the header page, and no
other byte (R171, R174, R190). That a page past the last 64-bit address wraps to address 0 is the model's (log entry 64). -/
def Obligations.OnlyAccessesChangeHostMemory : Prop :=
  (∀ (c : Instr) (s t : State), touchesHost c = false → exec c s = .next t → SameMemory s t)
    ∧ (∀ (s t : State) (b : Bool) (h : HostWrites) (a : Nat), s.reachable = true → s.exch.area = .closed →
    (∃ n, validHeader (s.hostStores h) n) → exec (.areaOpen b h .both) s = .next t → ¬s.inPage 0 8 9 a →
    Memory.read t.host a = Memory.read (s.hostStores h).host a)
    ∧ (∀ (s t : State) (h : HostWrites) (n : Nat) (ticket code : Word16) (a : Nat), s.isReading = true →
    s.exch.candidate = some (n, ticket, code) → exec (.cardTake h) s = .next t → ¬s.inPage n 0 1 a → ¬s.inPage 0 12 2 a →
    Memory.read t.host a = Memory.read (s.hostStores h).host a)

/-- Chains and records change only where an extension is applied, at start-up and at reset: every other command leaves every chain and the
record list as they are. The end of a hash piece of any other requester, and of a store write outside the third and fourth steps of
start-up, are such commands too (R26, R28, R30, R45, R164, R167). -/
def Obligations.ChainsChangeOnlyByExtension : Prop :=
  ∀ (c : Instr) (s t : State), (∀ h a, c = .hashPieceEnd h a → ∀ run, s.hash.running = some run → run.client ≠ .measure) →
    (∀ x y, c = .storeWriteEnd x y → ∀ n, s.startUp ≠ .step3 n ∧ s.startUp ≠ .step4 n) → c ≠ .startUp → c ≠ .powerUp →
    (∀ x, c ≠ .powerLoss x) → (∀ b, c ≠ .platformReset b) → exec c s = .next t →
    (∀ i, t.chain i = s.chain i) ∧ t.measure.records = s.measure.records

/-- The cards that manage keys never reach a fixed slot: KEY GENERATE, KEY IMPORT, KEY SET ATTRIBUTES, KEY FINALIZE and KEY ERASE that
name a slot 0 to 5 settle NOT PERMITTED and change nothing else (R1, R7, R17, R18, R19; the empty reply body of the refusal is the
model's, log entry 16). Whatever the state, such a card leaves slots 0 to 5 as they were, sends the store no write of one of them, holds
none unsent, and puts no card in work that waits for a record of one. -/
def Obligations.KeyManagementSparesFixedSlots : Prop :=
  ∀ (i : Instr) (code : Word16) (form : Card → Option Nat),
    (i = .keyGenerate ∧ code = 0x0101#16 ∧ form = keyGenerateForm) ∨ (i = .keyImport ∧ code = 0x0102#16 ∧ form = keyImportForm)
      ∨ (i = .keySetAttributes ∧ code = 0x0106#16 ∧ form = keySetForm) ∨ (i = .keyFinalize ∧ code = 0x0107#16 ∧ form = keySlotForm)
      ∨ (i = .keyErase ∧ code = 0x0108#16 ∧ form = keySlotForm) →
    (∀ (s : State) (c : Card), s.custodyReady code = some c → form c = none → (c.slot 0).val < 6 → s.carries →
      exec i s = .next { s with
        custody := { s.custody with work := none, undo := none }
        exch := s.exch.answered c .notPermitted (Config.freeWord s.free) []
        free := s.free + 1 })
    ∧ ∀ s t : State, exec i s = .next t →
      (∀ k : Fin 48, k.val < 6 → t.slot k = s.slot k)
        ∧ (s.outboxes.custody = [] →
          (∀ r ∈ t.store.queue, r ∈ s.store.queue ∨ ∀ (j : Fin 32) v, r.write = .slot j v → 6 ≤ j.val)
          ∧ (∀ o ∈ t.outboxes.custody, ∀ (j : Fin 32) v a, o = .write (.slot j v) a → 6 ≤ j.val))
        ∧ ∀ w k v d th, t.custody.work = some w → w.stage = .record k v d th → s.custody.work = some w ∨ 6 ≤ k.val

/-! ## The register window and the area -/

/-- What a register write does when it reaches the part (R169, R172, R180, R181, R189): the enable with its message, the acknowledge value
with its message, the attention bits cleared, the base halves in CLOSED and nothing otherwise; a word written to AREA CONTROL carries the
command of its bits 1:0 and the enable of its bit 8, and a word at the other offsets does what that register's own write does, STATUS and
the word without a register ignoring it. A nudge in OPEN wakes a sleeping fetcher for a
nudge re-read and sets the latch in every other fetcher state; in any other area state it is ignored, as is a nudge that finds the fetcher
stopped (R172). The commands that the table of R170 ignores change nothing but the enable that the write carries, and ask for CONTROL
IGNORED; a CLOSE in FAULTED with a close already requested asks for nothing. That the enable takes effect before the command, so that the
messages of both count with it, is the model's (log entry 21), and so is the host's silence in an OPEN written as a word. -/
def Obligations.RegisterWritesTakeEffect : Prop :=
  (∀ s : State, s.reachable = true →
    (∀ b, exec (.interruptEnableWrite b) s = .next { s with
        exch := { s.exch with enable := b }, messages := s.messages + s.enableMessages b })
    ∧ (∀ v, exec (.settleAck v) s = .next { s with
        exch := { s.exch with ack := v }
        messages := s.messages + (s.exch.enable && decide (v ≠ s.exch.tally)).toNat })
    ∧ (∀ v, exec (.attentionClear v) s = .next { s with
        exch := { s.exch with attention := s.exch.attention &&& ~~~(v.setWidth 9) } })
    ∧ (∀ v, s.exch.area = .closed →
        ∃ b : Word64, exec (.registerWrite 0x00#5 v) s = .next { s with exch := { s.exch with base := b } }
          ∧ b.extractLsb' 0 32 = v &&& 0xFFFFFF00#32 ∧ b.extractLsb' 32 32 = s.exch.base.extractLsb' 32 32)
    ∧ (∀ v, s.exch.area = .closed →
        ∃ b : Word64, exec (.registerWrite 0x04#5 v) s = .next { s with exch := { s.exch with base := b } }
          ∧ b.extractLsb' 0 32 = s.exch.base.extractLsb' 0 32 ∧ b.extractLsb' 32 32 = v)
    ∧ (∀ o v, s.exch.area ≠ .closed → o = 0x00#5 ∨ o = 0x04#5 → exec (.registerWrite o v) s = .next s)
    ∧ (∀ v, v.extractLsb' 0 2 = 0#2 → exec (.registerWrite 0x08#5 v) s = exec (.interruptEnableWrite (v.getLsbD 8)) s)
    ∧ (∀ v, v.extractLsb' 0 2 = 1#2 → exec (.registerWrite 0x08#5 v) s = exec (.areaOpen (v.getLsbD 8) [] .both) s)
    ∧ (∀ v, v.extractLsb' 0 2 = 2#2 → exec (.registerWrite 0x08#5 v) s = exec (.areaClose (v.getLsbD 8)) s)
    ∧ (∀ v, v.extractLsb' 0 2 = 3#2 → exec (.registerWrite 0x08#5 v) s = exec (.areaAbandon (v.getLsbD 8)) s)
    ∧ (∀ v, exec (.registerWrite 0x0C#5 v) s = exec (.nudge v) s ∧ exec (.registerWrite 0x10#5 v) s = exec (.settleAck v) s
        ∧ exec (.registerWrite 0x18#5 v) s = exec (.attentionClear v) s)
    ∧ (∀ o v, o = 0x14#5 ∨ o = 0x1C#5 → exec (.registerWrite o v) s = .next s))
    ∧ (∀ (s : State) (v : Word32), s.reachable = true →
    (s.exch.area = .opened → s.exch.fetcher = .sleeping →
      exec (.nudge v) s = .next { s with exch := { s.exch with fetcher := .reading, reRead := true } })
    ∧ (s.exch.area = .opened → s.exch.fetcher ≠ .sleeping → s.exch.fetcher ≠ .stopped →
      exec (.nudge v) s = .next { s with exch := { s.exch with nudge := true } })
    ∧ (s.exch.area ≠ .opened ∨ s.exch.fetcher = .stopped → exec (.nudge v) s = .next s))
    ∧ (∀ (s : State) (b : Bool), s.reachable = true →
    let ignored : State := { s with
      exch := { s.exch with enable := b, attention := s.exch.attention ||| 4#9 }
      messages := s.messages + s.enableMessages b + s.askMessages b }
    (∀ h a, s.exch.area ≠ .closed → exec (.areaOpen b h a) s = .next ignored)
    ∧ (s.exch.area = .closed ∨ s.exch.area = .opening ∨ s.exch.area = .draining ∨ s.exch.area = .abandoning →
        exec (.areaClose b) s = .next ignored)
    ∧ (s.exch.area = .closed ∨ s.exch.area = .opening ∨ s.exch.area = .abandoning ∨ s.exch.area = .faulted →
        exec (.areaAbandon b) s = .next ignored)
    ∧ (s.exch.area = .faulted → s.exch.closeRequested = true →
        exec (.areaClose b) s = .next { s with
          exch := { s.exch with enable := b }, messages := s.messages + s.enableMessages b }))

/-- An OPEN in CLOSED: with a valid header the opening values are set, nine zero bytes are written from byte 8 of the header page, and the
area is OPEN; with an invalid one the area is FAULTED with BAD HEADER, its code and card written when that write is answered; while an
access is awaited the area is OPENING, with the opening values set when the read has been answered and the write is awaited. The answer to
an awaited read opens the area, or faults it, by the header that stands then, and the answer to an awaited write opens it (R171, R184; the
row that brings the answer is the model's, log entry 9). That a page past the last 64-bit address wraps to address 0 is the model's (log
entry 64). -/
def Obligations.OpeningTheArea : Prop :=
  (∀ (s : State) (b : Bool) (h : HostWrites), s.reachable = true → s.exch.area = .closed →
    let u := s.hostStores h
    (∀ n, validHeader u n →
      exec (.areaOpen b h .both) s = .next { s with
        host := Memory.writeBytes u.host (s.pageAddress 0 8) (List.replicate 9 0#8)
        messages := s.messages + s.enableMessages b
        exch := { s.exch with
          area := .opened, enable := b, cards := n, expected := 1#16, cursor := none, nudge := false, reRead := false, tally := 0#32
          ack := 0#32, mismatch := none, candidate := none, openAwait := none, takenTicket := 0#16, faultCode := 0#16
          faultCard := 0#8, fetcher := if s.startUp = .ended then .reading else .waitingStartUp } })
    ∧ ((∀ n, ¬validHeader u n) → s.exch.settleList = [] → ∀ answer, answer = .both ∨ answer = .writeAwaited →
      exec (.areaOpen b h answer) s = .next { s with
        host := Memory.writeBytes u.host (s.pageAddress 0 14) [1#8, 0#8, 0#8]
        messages := s.messages + s.enableMessages b + s.askMessages b
        exch := ({ s.exch with enable := b }).faultedWith 1#16 0#8 })
    ∧ (∀ n, validHeader u n →
      exec (.areaOpen b h .writeAwaited) s = .next { s with
        host := u.host
        messages := s.messages + s.enableMessages b
        exch := { s.exch with
          area := .opening, enable := b, cards := n, expected := 1#16, cursor := none, nudge := false, reRead := false, tally := 0#32
          ack := 0#32, mismatch := none, candidate := none, openAwait := some .writeAwaited } })
    ∧ exec (.areaOpen b h .readAwaited) s = .next { s with
        host := u.host
        messages := s.messages + s.enableMessages b
        exch := { s.exch with area := .opening, enable := b, openAwait := some .readAwaited } })
    ∧ ∀ (s : State) (h : HostWrites), s.powered = true → s.linkUp = true → s.exch.area = .opening →
      let u := s.hostStores h
      (∀ n, s.exch.openAwait = some .readAwaited → validHeader u n →
        exec (.readingPass h) s = .next { s with
          host := Memory.writeBytes u.host (s.pageAddress 0 8) (List.replicate 9 0#8)
          exch := { s.exch with
            area := .opened, cards := n, expected := 1#16, cursor := none, nudge := false, reRead := false, tally := 0#32
            ack := 0#32, mismatch := none, candidate := none, openAwait := none, takenTicket := 0#16, faultCode := 0#16
            faultCard := 0#8, fetcher := if s.startUp = .ended then .reading else .waitingStartUp } })
      ∧ (s.exch.openAwait = some .readAwaited → (∀ n, ¬validHeader u n) → s.exch.settleList = [] →
        exec (.readingPass h) s = .next { s with
          host := Memory.writeBytes u.host (s.pageAddress 0 14) [1#8, 0#8, 0#8]
          messages := s.messages + s.askMessages s.exch.enable
          exch := s.exch.faultedWith 1#16 0#8 })
      ∧ (s.exch.openAwait = some .writeAwaited →
        exec (.readingPass h) s = .next { s with
          host := Memory.writeBytes u.host (s.pageAddress 0 8) (List.replicate 9 0#8)
          exch := { s.exch with
            area := .opened, openAwait := none, takenTicket := 0#16, faultCode := 0#16, faultCard := 0#8
            fetcher := if s.startUp = .ended then .reading else .waitingStartUp } })

/-- A CLOSE in OPEN stops the fetcher and drains, or closes at once with no card taken (R182); a CLOSE in FAULTED requests the close, or
closes at once with no card held (R185). An ABANDON that finds no card taken closes the area at once; one that finds cards moves it to
ABANDONING, where the cards that have not begun have joined the settle list ABANDONED with an empty reply body, and have left their queues
(R183). Their order on the list, the order in which they were taken, is the model's: R183 gives none (log entry 58). In the ABANDON
clauses no unit has a card in work. -/
def Obligations.ClosingAndAbandoningTheArea : Prop :=
  (∀ (s : State) (b : Bool), s.reachable = true →
    (s.exch.area = .opened → exec (.areaClose b) s = .next { s with
      messages := s.messages + s.enableMessages b
      exch := { s.exch.halted with
        enable := b, area := if s.exch.buffers = [] then .closed else .draining
        closeRequested := if s.exch.buffers = [] then false else s.exch.closeRequested } })
    ∧ (s.exch.area = .faulted → s.exch.closeRequested = false → exec (.areaClose b) s = .next { s with
      messages := s.messages + s.enableMessages b
      exch := { s.exch with
        enable := b, area := if s.exch.buffers = [] then .closed else .faulted
        closeRequested := decide (s.exch.buffers ≠ []) } }))
    ∧ (∀ (s : State) (b : Bool), s.reachable = true → s.exch.area = .opened ∨ s.exch.area = .draining →
    (s.exch.buffers = [] → s.custody.work = none → s.measure.work = none → s.update.work = none → s.credential.work = none →
      s.lifecycle.work = none → exec (.areaAbandon b) s = .next { s with
        messages := s.messages + s.enableMessages b
        exch := { s.exch.halted with enable := b, area := .closed, closeRequested := false } })
    ∧ (s.exch.buffers ≠ [] → s.custody.work = none → s.measure.work = none → s.update.work = none → s.credential.work = none →
      s.lifecycle.work = none → (s.exch.buffers.map (·.card.take)).Nodup →
      ∃ t, exec (.areaAbandon b) s = .next t ∧ t.exch.area = .abandoning ∧ t.exch.fetcher = .stopped ∧ t.exch.enable = b
        ∧ t.exch.settleList.map (fun x => (x.card, x.outcome, x.body))
          = s.exch.settleList.map (fun x => (x.card, x.outcome, x.body))
            ++ ((s.exch.buffers.filter fun x => x.unit.isSome && decide (x.phase = .waiting)).map fun x =>
              (x.card, CardOutcome.abandoned, ([] : List Byte)))
        ∧ (∀ x ∈ t.exch.buffers, x.unit.isSome = true → x.phase ≠ .waiting)
        ∧ t.exch.buffers.map (·.card) = s.exch.buffers.map (·.card)
        ∧ t.exch.tally = s.exch.tally ∧ t.store = s.store ∧ SameMemory s t))

/-- With no measure card in work, a committed card in work at each of the other four units is carried on: an ABANDON leaves the units'
work and the settle list as they are (R24, R90, R117, R137). The one uncommitted card in work of any unit is handed back ABANDONED at once
where it waits at a randomness gate, for an answer of another unit, for an engine, or for room in the store's queue, and what it had sent
is withdrawn or has no taker; with a piece, an operation or a DMA of its own under way it is marked, and handed back ABANDONED when that
ends (R24, R46, R60, R90, R117, R137, R143, R147). An extension whose piece is in progress is carried on, and a counted signature under
way is committed (R24, R46). An abandoned feed ends its session (R90). The empty reply body of ABANDONED is the model's (log entry 16),
and so are the instants that the tables leave open: an update card other than a feed with its hash piece in progress (log entry 45), a
measure card paused at a serving point (log entry 51), a credential card at a busy record, at its hash piece or at a binding check (log
entry 56), the withdrawal of a write that waits for room (log entry 12), and an UPDATE CONFIRM that waits for its chain read, handed back
at the notice (log entry 68). That a check or chain read still unsent is kept, to be served without a taker, is the model's (log entry 72),
and so is that a COMMIT whose unsent write is withdrawn leaves the session CHECKED, the guard limit passed or not (log entry 73). The
instant at which an abandoned quote is handed back, whose signature returns while an entry is in service, is the model's too (log entry
63). That an access past the last 64-bit address goes on at address 0 is the model's (log entry 64). -/
def Obligations.AbandonsReachCardsInWork : Prop :=
  (∀ (s : State) (b : Bool), s.reachable = true → s.exch.area = .opened ∨ s.exch.area = .draining → s.exch.buffers ≠ [] →
    (∀ x ∈ s.exch.buffers, x.unit = none ∨ x.phase ≠ .waiting) →
    (∀ w, s.custody.work = some w → w.committed = true) → s.measure.work = none → (∀ w, s.update.work = some w → w.committed = true) →
    (∀ w, s.credential.work = some w → w.committed = true) → (∀ w, s.lifecycle.work = some w → w.committed = true) →
    exec (.areaAbandon b) s = .next (s.abandoning b))
    ∧ (∀ (s : State) (b : Bool) (c : Card) (unit : UnitName), s.reachable = true → s.exch.area = .opened ∨ s.exch.area = .draining →
      s.exch.buffers = [{ card := c, unit := some unit, phase := .begun }] → s.alone unit →
      let ends (t : State) : Prop := exec (.areaAbandon b) s = .next t
      let u : State := s.abandoning b
      let gone : State := u.givesBack c .abandoned none []
      let pieceOf (who : HashClient) : Prop := ∃ run, s.hash.running = some run ∧ run.client = who ∧ run.withdrawn = false
      let noPieceOf (who : HashClient) : Prop := ∀ run, s.hash.running = some run → run.client ≠ who
      let operationOf (who : CurveClient) : Prop := ∃ run, s.curve.running = some run ∧ run.client = who
      let noOperationOf (who : CurveClient) : Prop := ∀ run, s.curve.running = some run → run.client ≠ who
      let leaves (who : Waiter) : Census := { s.census with waiters := s.census.waiters.filter fun x => !(x == who) }
      let store (who : Client) : Store := { s.store with waiting := s.store.waiting.filter fun x => !(x == who) }
      (unit = .custody →
        let held (stage : CustodyStage) : Prop := s.custody.work = working c stage false
        let free : Custody := { s.custody with work := none, undo := none }
        let mark (stage : CustodyStage) : Custody := { s.custody with work := marked c stage }
        (s.custody.undo = none →
          (held .gate → ends { gone with custody := free, census := leaves .custody })
          ∧ (∀ use, held (.binding use) → ends { gone.gaveUp (some .custody) with custody := free })
          ∧ (∀ stage, stage = .curveSign ∨ stage = .curveGenerate → held stage → noOperationOf .custody →
            ends { gone with custody := free, curve := { s.curve with custody := none } })
          ∧ (held .mac → noPieceOf .custody → ends { gone with custody := free, hash := s.hash.withdrawn .custody })
          ∧ ∀ i v fd next w, held (.record i v fd next) → s.outboxes.custody = [.write w .custodyCard] →
            ends { gone with custody := free, outboxes := { s.outboxes with custody := [] }, store := store .custody })
        ∧ (∀ r, held .curveSign → operationOf .custody → s.slot (c.slot 0) = some r →
          ends (if r.limit = none then { u with custody := mark .curveSign }
            else { u with custody := { s.custody with work := working c .curveSign true } }))
        ∧ (held .curveGenerate → operationOf .custody → ends { u with custody := mark .curveGenerate })
        ∧ (held .mac → pieceOf .custody → ends { u with custody := mark .mac, hash := s.hash.withdrawn .custody })
        ∧ ∀ stage, stage = .readBlob ∨ (∃ l d body, stage = .writeOut l d body) → held stage → ends { u with custody := mark stage })
      ∧ (unit = .measure →
        let held (stage : MeasureStage) : Prop := s.measure.work = working c stage false
        let free : Measure := { s.measure with work := none, paused := none }
        let mark (stage : MeasureStage) : Measure := { s.measure with work := marked c stage }
        (∀ stage, held stage → s.measure.paused ≠ none → ends { gone with measure := free })
        ∧ (s.measure.paused = none →
          (∀ chain event digest, held (.extendHash chain event digest) → pieceOf .measure → ends u)
          ∧ (∀ values tail, held (.chainsHash values tail) → pieceOf .measure → ends { u with measure := mark (.chainsHash values tail) })
          ∧ (∀ stage, (∃ rest seq, stage = .fingerprint rest seq) ∨ (∃ body seq, stage = .quoteHash body seq) → held stage →
            pieceOf .measure → ends { u with measure := mark stage, hash := s.hash.withdrawn .measure })
          ∧ (∀ stage, (∃ chain event digest, stage = .extendHash chain event digest) ∨ (∃ values tail, stage = .chainsHash values tail)
              ∨ (∃ rest seq, stage = .fingerprint rest seq) ∨ (∃ body seq, stage = .quoteHash body seq) → held stage →
            noPieceOf .measure → ends { gone with measure := free, hash := s.hash.withdrawn .measure })
          ∧ (∀ body seq, held (.quoteSign body seq) →
            (operationOf .measure → ends { u with measure := mark (.quoteSign body seq) })
            ∧ (noOperationOf .measure → ends { gone with measure := free, curve := { s.curve with measure := none } }))
          ∧ ∀ l d body, held (.writeOut l d body) → ends { u with measure := mark (.writeOut l d body) }))
      ∧ (unit = .update → s.update.wipe ≠ .held →
        let held (stage : UpdateStage) : Prop := s.update.work = working c stage false
        let free : Update := { s.update with work := none }
        let mark (stage : UpdateStage) : Update := { s.update with work := marked c stage }
        (held .feed → pieceOf .update → ends { u with update := mark .feed, hash := s.hash.withdrawn .update })
        ∧ (∀ x, held .feed → noPieceOf .update → s.update.session = .opened x →
          ends { gone with update := { free with session := .idle }, hash := s.hash.withdrawn .update })
        ∧ (∀ stage, (∃ pub, stage = .verifyHash pub) ∨ stage = .confirmHash → held stage →
          ends { gone with update := free, hash := s.hash.withdrawn .update })
        ∧ (held .verifyCurve → operationOf .update → ends { u with update := mark .verifyCurve })
        ∧ (held .verifyCurve → noOperationOf .update → ends { gone with update := free, curve := { s.curve with update := none } })
        ∧ (∀ expected, held (.confirmChain expected) → ends { gone.gaveUp none with update := free })
        ∧ (∀ l d body, held (.writeOut l d body) → ends { u with update := mark (.writeOut l d body) })
        ∧ ∀ stage w, stage = .installMark ∨ stage = .removeMark ∨ (∃ r, stage = .commit r) ∨ (∃ r v x d, stage = .confirm r v x d)
            ∨ (∃ r, stage = .revert r) → held stage → s.outboxes.update = [.write w .updateCard] →
          ends { gone with update := free, outboxes := { s.outboxes with update := [] }, store := store .update })
      ∧ (unit = .credential →
        let held (stage : CredStage) : Prop := s.credential.work = working c stage false
        let free : Credential := { s.credential with work := none }
        (held .gate → ends { gone with credential := free, census := leaves .credential })
        ∧ (∀ i salt, held (.awaitRecord i salt) → ends { gone with credential := free })
        ∧ (∀ i, held (.binding i) → ends { gone.gaveUp (some .credential) with credential := free })
        ∧ (∀ stage, (∃ salt x, stage = .enrolHash salt x) ∨ (∃ i salt x a, stage = .replaceHash i salt x a) → held stage →
          (pieceOf .credential →
            ends { u with credential := { s.credential with work := marked c stage }, hash := s.hash.withdrawn .credential })
          ∧ (noPieceOf .credential → ends { gone with credential := free, hash := s.hash.withdrawn .credential }))
        ∧ ∀ stage w answerTo, ((∃ i r, stage = .enrolWrite i r) ∨ (∃ i, stage = .removeWrite i)) ∧ answerTo = .credCard
            ∨ (∃ i r a, stage = .replaceWrite i r a) ∧ answerTo = .credReplace →
          held stage → s.outboxes.credential = [.write w answerTo] →
          ends { gone with credential := free, outboxes := { s.outboxes with credential := [] }, store := store .credential })
      ∧ (unit = .lifecycle →
        let held (stage : LifeStage) : Prop := s.lifecycle.work = working c stage false
        let free : Lifecycle := { s.lifecycle with work := none }
        let mark (stage : LifeStage) : Lifecycle := { s.lifecycle with work := marked c stage }
        (held .gate → ends { gone with lifecycle := free, census := leaves .lifecycle })
        ∧ (held .generate → operationOf .lifecycle → ends { u with lifecycle := mark .generate })
        ∧ (held .generate → noOperationOf .lifecycle → ends { gone with lifecycle := free, curve := { s.curve with lifecycle := none } })
        ∧ (∀ stage, stage = .readCertificate ∨ (∃ l d body, stage = .writeOut l d body) → held stage →
          ends { u with lifecycle := mark stage })
        ∧ ∀ stage w, (∃ l, stage = .certificateWrite l) ∨ stage = .finish → held stage → s.outboxes.lifecycle = [.write w .lifeCard] →
          ends { gone with lifecycle := free, outboxes := { s.outboxes with lifecycle := [] }, store := store .lifecycle }))
    ∧ ∀ (s : State) (c : Card), s.powered = true → s.startUp = .ended → s.carries → s.update.wipe ≠ .held →
      let custody : Custody := { s.custody with table := s.custody.takenBack, work := none, undo := none }
      let measure : Measure := { s.measure with work := none, paused := none }
      let update : Update := { s.update with work := none }
      let credential : Credential := { s.credential with work := none }
      let lifecycle : Lifecycle := { s.lifecycle with work := none }
      (∀ (h : HostWrites) (r : DmaResult),
        let found : Memory := Memory.hostStores s.host h
        let read : State := ({ s with host := found }).givesBack c .abandoned none []
        (s.custody.work = marked c .readBlob → exec (.extentDmaEnd .custody h r) s = .next { read with custody := custody })
        ∧ (s.lifecycle.work = marked c .readCertificate →
          exec (.extentDmaEnd .lifecycle h r) s = .next { read with lifecycle := lifecycle })
        ∧ ∀ l d body,
          let stored := if dmaAnswered r && s.linkUp then l else l.take (dmaWritten r)
          let t : State := ({ s with host := Memory.writeBytes found (c.extentAddress 0) stored }).givesBack c .abandoned none []
          (s.custody.work = marked c (.writeOut l d body) → exec (.extentDmaEnd .custody h r) s = .next { t with custody := custody })
          ∧ (s.measure.work = marked c (.writeOut l d body) → s.measure.paused = none →
            exec (.extentDmaEnd .measure h r) s = .next { t with measure := measure })
          ∧ (s.update.work = marked c (.writeOut l d body) → exec (.extentDmaEnd .update h r) s = .next { t with update := update })
          ∧ (s.lifecycle.work = marked c (.writeOut l d body) →
            exec (.extentDmaEnd .lifecycle h r) s = .next { t with lifecycle := lifecycle }))
      ∧ (∀ (h : HostWrites) (answered : Bool) (who : HashClient) (job : HashJob),
        let t : State := ({ s with
          host := Memory.hostStores s.host h, hash := ({ s.hash with pointer := who }).release }).givesBack c .abandoned none []
        let ends (t : State) : Prop := exec (.hashPieceEnd h answered) s = .next t
        (s.hash.running = some { client := who, job := job, withdrawn := true } →
          (∀ stage, who = .custody → s.custody.work = marked c stage → ends { t with custody := custody })
          ∧ (∀ stage, who = .measure → s.measure.work = marked c stage → ends { t with measure := measure })
          ∧ (∀ x, who = .update → s.update.work = marked c .feed → s.update.session = .opened x →
            ends { t with update := { update with session := .idle } })
          ∧ ∀ stage, who = .credential → s.credential.work = marked c stage → ends { t with credential := credential })
        ∧ ∀ input values tail, who = .measure → s.hash.running = some { client := .measure, job := shaJob input, withdrawn := false } →
          input.length ≤ 4096 → s.measure.service = none → s.measure.work = marked c (.chainsHash values tail) →
          ends { t with measure := measure })
      ∧ ∀ (who : CurveClient) (op : CurveOp), s.curve.running = some { client := who, op := op } →
        let t : State :=
          ({ s with curve := ({ s.curve with pointer := who }).release s.identityScalar }).givesBack c .abandoned none []
        let ends (t : State) : Prop := exec .curveOperationComplete s = .next t
        (∀ k d, who = .custody → op = .sign k d → s.custody.undo = none → s.custody.work = marked c .curveSign →
          ends { t with custody := { s.custody with work := none } })
        ∧ (∀ seed, who = .custody → op = .generate seed → s.custody.undo = none → s.custody.work = marked c .curveGenerate →
          ends { t with custody := { s.custody with work := none } })
        ∧ (∀ k d body seq, who = .measure → op = .signByIdentity k d → s.measure.work = marked c (.quoteSign body seq) →
          ends { t with measure := measure })
        ∧ (∀ pub d sig, who = .update → op = .verify pub d sig → s.update.work = marked c .verifyCurve → ends { t with update := update })
        ∧ ∀ seed, who = .lifecycle → op = .generate seed → s.lifecycle.work = marked c .generate → ends { t with lifecycle := lifecycle }

/-- One READING pass: the end of the chain, a candidate not POSTED, and one with a wrong ticket, which a nudge re-read reports once (R172,
R173). A pass that finds a card to take: it is the fetcher's candidate when there is room and ORDERED does not hold it; otherwise the
fetcher is HELD at it (R173, R174, R176). That ORDERED is judged on the whole card as the pass reads it, and that a HELD fetcher ends the
nudge re-read, are the model's (log entries 14 and 19). That a page past the last 64-bit address wraps to address 0 is the model's (log
entry 64). -/
def Obligations.ReadingPasses : Prop :=
  (∀ (s : State) (h : HostWrites), s.isReading = true → s.exch.candidate = none →
    let u := s.hostStores h
    (u.linkEntry = 0 ∨ u.exch.cards < u.linkEntry → exec (.readingPass h) s = .next (restsAfterPass u))
    ∧ (∀ n, u.linkEntry = n → 1 ≤ n → n ≤ u.exch.cards → (u.cardAt n).byte 0 ≠ 1#8 →
        exec (.readingPass h) s = .next (restsAfterPass u))
    ∧ (∀ n, u.linkEntry = n → 1 ≤ n → n ≤ u.exch.cards → (u.cardAt n).byte 0 = 1#8 → (u.cardAt n).ticket ≠ u.exch.expected →
        s.exch.reRead = false ∨ s.exch.mismatch = some n → exec (.readingPass h) s = .next (restsAfterPass u))
    ∧ (∀ n, u.linkEntry = n → 1 ≤ n → n ≤ u.exch.cards → (u.cardAt n).byte 0 = 1#8 → (u.cardAt n).ticket ≠ u.exch.expected →
        s.exch.reRead = true → s.exch.mismatch ≠ some n →
        exec (.readingPass h) s = .next (restsAfterPass { u with
          exch := { u.exch with mismatch := some n, attention := u.exch.attention ||| 2#9 }
          messages := u.messages + u.askMessages u.exch.enable })))
    ∧ (∀ (s : State) (h : HostWrites) (n : Nat), s.isReading = true → s.exch.candidate = none →
    let u := s.hostStores h
    let c := u.cardAt n
    let ordered := c.ordered = true ∧ selfSettled c = false ∧ s.exch.buffers ≠ []
    passFinds u n →
    (ordered → exec (.readingPass h) s = .next { u with exch := { u.exch with fetcher := .heldByOrdered, reRead := false } })
    ∧ (¬ordered → ¬roomFor u c.code →
        exec (.readingPass h) s = .next { u with exch := { u.exch with fetcher := .heldForRoom c.code, reRead := false } })
    ∧ (¬ordered → roomFor u c.code →
        exec (.readingPass h) s = .next { u with exch := { u.exch with candidate := some (n, c.ticket, c.code) } }))

/-- A take (R174, R175, R178): state TAKEN goes into the card's head, the ticket into the header page; the expected ticket, the cursor and
the remembered mismatch change; the card takes a buffer, and a place in its unit's queue, or joins the settle list UNKNOWN COMMAND or BAD
REQUEST. That the card keeps the ticket and the code that the pass found, while its 256 bytes are read anew, is the model's (log entry
14), and so are the count of takes, by which the model tells the cards of two buffers apart (log entry 41), and the empty reply body of
UNKNOWN COMMAND and BAD REQUEST (log entry 16). That a page past the last 64-bit address wraps to address 0 is the model's (log entry 64).
-/
def Obligations.TakingACard : Prop :=
  ∀ (s : State) (h : HostWrites) (n : Nat) (ticket code : Word16), s.isReading = true → s.exch.candidate = some (n, ticket, code) →
    let u := s.hostStores h
    let c : Card :=
      { take := s.exch.takes, num := n, ticket := ticket, code := code, bytes := Memory.readBytes u.host (s.pageAddress n 0) 256 }
    let host := Memory.writeBytes (Memory.writeBytes u.host (s.pageAddress n 0) [2#8]) (s.pageAddress 0 12) (leBytes 2 ticket.toNat)
    let e : Exchange := { s.exch with
      takes := s.exch.takes + 1, takenTicket := ticket, expected := ticketAfter s.exch.expected, cursor := some n, mismatch := none
      candidate := none }
    (∀ unit, unitOf code = some unit → exchangeForm c = none →
      exec (.cardTake h) s = .next { s with
        host := host, exch := { e with buffers := s.exch.buffers ++ [{ card := c, unit := some unit, phase := .waiting }] } })
    ∧ ((∀ b ∈ s.exch.buffers, b.card.take ≠ s.exch.takes) → unitOf code = none →
      exec (.cardTake h) s = .next { s with
        host := host, exch := { e with
          buffers := s.exch.buffers ++ [{ card := c, unit := none, phase := .handedBack }]
          settleList := s.exch.settleList
            ++ [{ card := c, outcome := .unknownCommand, detail := code.setWidth 32, body := [] }] } })
    ∧ ∀ unit field, (∀ b ∈ s.exch.buffers, b.card.take ≠ s.exch.takes) → unitOf code = some unit → exchangeForm c = some field →
      exec (.cardTake h) s = .next { s with
        host := host, exch := { e with
          buffers := s.exch.buffers ++ [{ card := c, unit := none, phase := .handedBack }]
          settleList := s.exch.settleList
            ++ [{ card := c, outcome := .badRequest, detail := BitVec.ofNat 32 field, body := [] }] } }

/-- A settle (R179, R180, R182): the tally rises by 1 modulo 2^32, the card leaves the list and its buffer is freed, one message is sent
when the tally was the acknowledge value, and an area that drains or abandons is CLOSED with its last card. The bytes a settle writes
(R179, R190, R191): the reply region of the card, its state byte and the tally, in that order; its reserved byte is open (log entry 5).
That a fetcher HELD for room reads again exactly when a buffer and a place of its candidate's unit are free, whichever of the two it
lacked, is the model's (log entries 32 and 35). That a page past the last 64-bit address wraps to address 0 is the model's (log entry 64).
-/
def Obligations.SettlingACard : Prop :=
  (∀ (s : State) (x : Settlement) (rest : List Settlement), s.powered = true → s.linkUp = true →
    s.exch.area = .opened ∨ s.exch.area = .draining ∨ s.exch.area = .abandoning → s.exch.settleList = x :: rest →
    ∃ t, exec .settle s = .next t ∧ t.exch.tally = s.exch.tally + 1#32 ∧ t.exch.settleList = rest
      ∧ t.exch.buffers = s.exch.buffers.filter (fun b => !(b.card.take == x.card.take))
      ∧ t.messages = s.messages + (decide (s.exch.tally = s.exch.ack) && s.exch.enable).toNat
      ∧ t.exch.area = (if s.exch.area ≠ .opened ∧ t.exch.buffers = [] then .closed else s.exch.area) ∧ wakesHeld s t
      ∧ t.exch.ack = s.exch.ack ∧ t.exch.enable = s.exch.enable ∧ t.exch.attention = s.exch.attention
      ∧ t.exch.expected = s.exch.expected ∧ t.exch.cursor = s.exch.cursor ∧ t.exch.nudge = s.exch.nudge
      ∧ t.custody = s.custody ∧ t.measure = s.measure ∧ t.credential = s.credential ∧ t.lifecycle = s.lifecycle
      ∧ t.hash = s.hash ∧ t.curve = s.curve ∧ t.census = s.census ∧ t.pace = s.pace ∧ t.store = s.store)
    ∧ (∀ (s t : State) (x : Settlement) (rest : List Settlement), s.powered = true → s.linkUp = true →
    s.exch.area = .opened ∨ s.exch.area = .draining ∨ s.exch.area = .abandoning → s.exch.settleList = x :: rest →
    exec .settle s = .next t →
    let region := leBytes 2 x.outcome.code ++ leBytes 1 x.body.length ++ [Config.freeByte s.free] ++ leBytes 4 x.detail.toNat
      ++ sliceBytes x.body 0 72
    t.host = Memory.writeBytes (Memory.writeBytes (Memory.writeBytes s.host (s.pageAddress x.card.num 176) region)
        (s.pageAddress x.card.num 0) [3#8]) (s.pageAddress 0 8) (leBytes 4 (s.exch.tally + 1#32).toNat)
      ∧ region.length = 80
      ∧ ∀ a, ¬s.inPage x.card.num 176 80 a → ¬s.inPage x.card.num 0 1 a → ¬s.inPage 0 8 4 a →
        Memory.read t.host a = Memory.read s.host a)

/-- Each failed access to the header page or a card moves the area to FAULTED with its fault code and fault card, keeps what the host and
the part had stored before it (a take's TAKEN state, a settle's reply region and then its SETTLED state), and writes code and card to the
header page when that write is answered (R171, R173, R174, R179, R184); the write of BAD HEADER's code and card may itself fail, and the
header then keeps its values (R184). That a failed write writes none of its bytes is the model's (log entry 9), and the value of a reply
region's reserved byte is open (log entry 5). The session of the update unit is not OPEN here, so that no discarded feed restarts its idle
timer. That a page past the last 64-bit address wraps to address 0 is the model's (log entry 64). -/
def Obligations.FailedAccessesFaultTheArea : Prop :=
  ∀ (s : State) (h : HostWrites) (answered : Bool), s.powered = true → s.linkUp = true → (∀ c, s.update.session ≠ .opened c) →
    let found := Memory.hostStores s.host h
    let faulted (code card : Nat) (host : Memory) : State := { s with
      exch := s.exch.faultedWith (BitVec.ofNat 16 code) (BitVec.ofNat 8 card)
      messages := s.messages + s.askMessages s.exch.enable
      host := if answered then Memory.writeBytes host (s.pageAddress 0 14) (faultBytes code card) else host }
    (s.exch.area = .opening → s.exch.openAwait = some .readAwaited →
      exec (.areaFaulted ⟨.headerRead, h⟩ answered) s = .next (faulted 2 0 found))
    ∧ (s.exch.area = .opening → s.exch.openAwait = some .writeAwaited →
      exec (.areaFaulted ⟨.openingWrite, h⟩ answered) s = .next (faulted 3 0 found))
    ∧ (s.exch.area = .opening → s.exch.openAwait = some .readAwaited → (∀ n, ¬validHeader (s.hostStores h) n) →
      exec (.areaFaulted ⟨.faultWrite, h⟩ answered) s = .next { s with
        exch := s.exch.faultedWith 1#16 0#8, messages := s.messages + s.askMessages s.exch.enable, host := found })
    ∧ (s.isReading = true → s.exch.candidate = none → exec (.areaFaulted ⟨.linkRead, h⟩ answered) s = .next (faulted 2 0 found))
    ∧ (∀ n, s.isReading = true → s.exch.candidate = none → (s.hostStores h).linkEntry = n → 1 ≤ n → n ≤ s.exch.cards →
      exec (.areaFaulted ⟨.headRead, h⟩ answered) s = .next (faulted 2 n found))
    ∧ (∀ n k code, s.isReading = true → s.exch.candidate = some (n, k, code) →
      exec (.areaFaulted ⟨.cardRead, h⟩ answered) s = .next (faulted 2 n found)
        ∧ exec (.areaFaulted ⟨.takenStateWrite, h⟩ answered) s = .next (faulted 3 n found)
        ∧ exec (.areaFaulted ⟨.takenTicketWrite, h⟩ answered) s
          = .next (faulted 3 n (Memory.writeBytes found (s.pageAddress n 0) [2#8])))
    ∧ ∀ x rest, s.exch.area.settles = true → s.exch.settleList = x :: rest →
      let region := leBytes 2 x.outcome.code ++ leBytes 1 x.body.length ++ [Config.freeByte s.free] ++ leBytes 4 x.detail.toNat
        ++ sliceBytes x.body 0 72
      let replied := Memory.writeBytes found (s.pageAddress x.card.num 176) region
      exec (.areaFaulted ⟨.replyWrite, h⟩ answered) s = .next (faulted 3 x.card.num found)
        ∧ exec (.areaFaulted ⟨.settledWrite, h⟩ answered) s = .next { faulted 3 x.card.num replied with free := s.free + 1 }
        ∧ exec (.areaFaulted ⟨.tallyWrite, h⟩ answered) s
          = .next { faulted 3 0 (Memory.writeBytes replied (s.pageAddress x.card.num 0) [3#8]) with free := s.free + 1 }

/-- Loss of the link faults an active area with LINK LOST, sends no message and writes nothing to host memory; a CLOSED or FAULTED area
stays as it is (R168, R184, R186). The loss marks the cards in work that need host memory, whose accesses then fail whether or not the link
has returned: those with a DMA access of their own under way, every UPDATE FEED and every KEY MAC whose job is at the hash engine, waiting
jobs among them (R91, R168, R186; the waiting jobs are the model's, log entry 52). An UPDATE FEED on the settle list, which leaves the
update queue with its buffer and restarts the idle timer, is left out. The return marks the accesses that were made while the link was
down, a unit's own DMA and the read of the hash piece in progress, and changes nothing else. A loss of a link that is down and a return of
one that is up change nothing. -/
def Obligations.LinkLossAndReturn : Prop :=
  (∀ s : State, s.powered = true → s.linkUp = true → s.exch.area.isActive = true →
      (∀ c, s.update.session ≠ .opened c) ∨ (∀ b ∈ s.exch.buffers, ∀ x ∈ s.exch.settleList,
        b.card.take = x.card.take → b.card.code ≠ feedCode) →
      exec .linkLoss s = .next { s.cutAccesses s.needsHost with linkUp := false, exch := s.exch.faultedWith 4#16 0#8 })
    ∧ (∀ s : State, s.powered = true → s.linkUp = true → s.exch.area = .closed ∨ s.exch.area = .faulted →
      exec .linkLoss s = .next { s.cutAccesses s.needsHost with linkUp := false })
    ∧ (∀ s : State, s.powered = true → s.linkUp = false →
      exec .linkReturn s = .next { s.cutAccesses s.accessMade with linkUp := true })
    ∧ (∀ s : State, s.linkUp = false → exec .linkLoss s = .next s)
    ∧ (∀ s : State, s.linkUp = true → exec .linkReturn s = .next s)
    ∧ ∀ s : State,
      (∀ w, s.custody.work = some w →
        (s.needsHost .custody = true ↔ w.stage = .readBlob ∨ w.stage = .mac ∨ ∃ b d r, w.stage = .writeOut b d r))
      ∧ (∀ w, s.measure.work = some w →
        (s.needsHost .measure = true ↔ s.measure.paused = none ∧ ∃ b d r, w.stage = .writeOut b d r))
      ∧ (∀ w, s.update.work = some w → (s.needsHost .update = true ↔ w.stage = .feed ∨ ∃ b d r, w.stage = .writeOut b d r))
      ∧ (∀ w, s.lifecycle.work = some w →
        (s.needsHost .lifecycle = true ↔ w.stage = .readCertificate ∨ ∃ b d r, w.stage = .writeOut b d r))
      ∧ (∀ w, s.custody.work = some w → (s.accessMade .custody = true ↔
          w.stage = .readBlob ∨ (∃ b d r, w.stage = .writeOut b d r)
            ∨ ∃ run, s.hash.running = some run ∧ run.client = .custody ∧ run.job.source.isExtents = true))
      ∧ (∀ w, s.measure.work = some w →
        (s.accessMade .measure = true ↔ s.measure.paused = none ∧ ∃ b d r, w.stage = .writeOut b d r))
      ∧ (∀ w, s.update.work = some w → (s.accessMade .update = true ↔
          (∃ b d r, w.stage = .writeOut b d r)
            ∨ ∃ run, s.hash.running = some run ∧ run.client = .update ∧ run.job.source.isExtents = true))
      ∧ (∀ w, s.lifecycle.work = some w →
        (s.accessMade .lifecycle = true ↔ w.stage = .readCertificate ∨ ∃ b d r, w.stage = .writeOut b d r))
      ∧ ∀ named : DmaUnit → Bool, s.cutAccesses named = { s with
        custody := { s.custody with work := s.custody.work.map fun w => { w with cut := w.cut || named .custody } }
        measure := { s.measure with work := s.measure.work.map fun w => { w with cut := w.cut || named .measure } }
        update := { s.update with work := s.update.work.map fun w => { w with cut := w.cut || named .update } }
        lifecycle := { s.lifecycle with work := s.lifecycle.work.map fun w => { w with cut := w.cut || named .lifecycle } } }

/-! ## Keys -/

/-- KEY SIGN and KEY MAC on a slot that passes its use check: an unbound slot goes to its engine, a bound one sends a binding check and
waits (R11, R13, R14). The use check refuses them with the first check that fails, and names the slot: SLOT EMPTY, SPENT, NOT PERMITTED,
WIPING, NEEDS PRESENCE (R11). The end of the last piece of a KEY MAC's job brings its code: the use is completed by R12 in the table, or
written first, and the card settles DONE with the code (R12, R14). The end of a piece that is not the job's last takes in its bytes, and the
job waits again in its place with the rest of its extents: R140's pieces of 4096 bytes, each within one extent, and the next extent in a new
piece (R140, R141, R142). A read of any piece that fails is refused LINK FAULT (R25, R140), and so is one that a loss of the link has cut,
though the link be up again: that a KEY MAC which only waited for its next piece through the outage is among those is read from R168 and
R186 (log entry 52). The empty reply body of LINK FAULT, as of the use check's refusals, is the model's (log entry 16). Start-up has ended
there. That an access past the last 64-bit address goes on at address 0 is the model's (log entry 64). -/
def Obligations.KeySignAndKeyMacBeginOrAreRefused : Prop :=
  (∀ (s : State) (c : Card) (r : KeyRecord) (k : Scalar) (pub : PublicKey), s.custodyReady 0x0103#16 = some c →
      keySignForm c = none → s.slot (c.slot 0) = some r → s.mayUse .sign r → r.material = .p256 (some k) pub →
      (r.binding = none → exec .keySign s = .next { s with
        custody := { s.custody with work := working c .curveSign false, undo := none }
        exch := s.exch.begun c
        curve := s.curve.submit s.identityScalar .custody (.sign k (c.fieldStr 2 256)) })
      ∧ ∀ b, r.binding = some b → s.measureRoom .custodyAsk → exec .keySign s = .next { s with
        custody := { s.custody with work := working c (.binding .sign) false, undo := none }
        exch := s.exch.begun c
        measure := s.measure.asked (.check .custody b true) })
    ∧ (∀ (s : State) (c : Card) (r : KeyRecord) (k : Key256), s.custodyReady 0x0104#16 = some c →
      keyMacForm c = none → s.slot (c.slot 0) = some r → s.mayUse .mac r → r.material = .hmac256 k →
      (r.binding = none → exec .keyMac s = .next { s with
        custody := { s.custody with work := working c .mac false, undo := none }
        exch := s.exch.begun c
        hash := s.hash.submit .custody
          { fn := .hmac k, absorbed := [], source := .extents c.extentSource, finalize := true } })
      ∧ ∀ b, r.binding = some b → s.measureRoom .custodyAsk → exec .keyMac s = .next { s with
        custody := { s.custody with work := working c (.binding .mac) false, undo := none }
        exch := s.exch.begun c
        measure := s.measure.asked (.check .custody b true) })
    ∧ (∀ (i : Instr) (code : Word16) (form : Card → Option Nat) (use : KeyUse) (s : State) (c : Card),
    (i = .keySign ∧ code = 0x0103#16 ∧ form = keySignForm ∧ use = .sign)
      ∨ (i = .keyMac ∧ code = 0x0104#16 ∧ form = keyMacForm ∧ use = .mac) →
    s.custodyReady code = some c → form c = none → s.carries →
    let refused (o : CardOutcome) : Prop := exec i s = .next { s with
      custody := { s.custody with work := none, undo := none }
      exch := s.exch.answered c o (BitVec.ofNat 32 (c.slot 0).val) [] }
    (s.slot (c.slot 0) = none → refused .slotEmpty)
      ∧ ∀ r, s.slot (c.slot 0) = some r →
        (r.state = .spent → refused .spent)
        ∧ (r.state ≠ .spent → r.flags.permits use = false → refused .notPermitted)
        ∧ (r.state ≠ .spent → r.flags.permits use = true → r.cls = .owner → s.lifecycle.pending = true → refused .wiping)
        ∧ (r.state ≠ .spent → r.flags.permits use = true → r.cls ≠ .owner ∨ s.lifecycle.pending = false →
            r.flags.needsPresence = true → s.lifecycle.presence = none → refused .needsPresence))
    ∧ (∀ (s : State) (h : HostWrites) (answered cut : Bool) (c : Card) (r : KeyRecord) (k : Key256) (before : List Byte) (x n : Nat)
      (a : Word64), s.powered = true → s.startUp = .ended →
      s.hash.running = some { client := .custody, withdrawn := false
                              job := { fn := .hmac k, absorbed := before, source := .extents [(x, a, n)], finalize := true } } →
      s.custody.work = accessing c .mac false cut → s.slot (c.slot 0) = some r → n ≤ 4096 → s.carries →
      let mac := strBytes (Config.hmacSha256 k (before ++ Memory.readBytes (Memory.hostStores s.host h) a.toNat n))
      let u : State := { s with host := Memory.hostStores s.host h, hash := ({ s.hash with pointer := .custody }).release }
      (answered = true → s.linkUp = true → cut = false →
        (32 ≤ (c.slot 0).val ∨ (r.state = .live ∧ r.limit = none) →
          exec (.hashPieceEnd h answered) s = .next { u.givesBack c .done none (outBytes mac) with
            custody := { s.custody with
              table := tableSet s.custody.table (c.slot 0) (some (usedOnce r)), work := none, undo := none } })
        ∧ ∀ j : Fin 32, (c.slot 0).val = j.val → r.state ≠ .live ∨ r.limit ≠ none → s.storeRoom .custody →
          exec (.hashPieceEnd h answered) s = .next { u with
            custody := { s.custody with
              work := working c (.record (c.slot 0) (some (usedOnce r)) none (.settle .done none (outBytes mac))) true }
            store := s.store.queued (.slot j (some (usedOnce r))) .custodyCard })
      ∧ (answered = false ∨ s.linkUp = false ∨ cut = true →
        exec (.hashPieceEnd h answered) s = .next { u.givesBack c .linkFault none [] with
          custody := { s.custody with work := none, undo := none } }))
    ∧ ∀ (s : State) (h : HostWrites) (answered cut : Bool) (c : Card) (k : Key256) (before : List Byte) (x n : Nat) (a : Word64)
      (rest : List (Nat × Word64 × Nat)), s.powered = true → s.startUp = .ended →
      s.hash.running = some { client := .custody, withdrawn := false
                              job := { fn := .hmac k, absorbed := before, source := .extents ((x, a, n) :: rest), finalize := true } } →
      s.custody.work = accessing c .mac false cut → 4096 < n ∨ rest ≠ [] →
      let found : Memory := Memory.hostStores s.host h
      let e : HashEngine := { s.hash with pointer := .custody }
      let left := if n ≤ 4096 then rest else (x, a + 4096#64, n - 4096) :: rest
      (answered = true → s.linkUp = true → cut = false →
        exec (.hashPieceEnd h answered) s = .next { s with
          host := found
          hash := ({ e with
            custody := some { fn := .hmac k, absorbed := before ++ Memory.readBytes found a.toNat (min n 4096)
                              source := .extents left, finalize := true } }).release })
      ∧ (answered = false ∨ s.linkUp = false ∨ cut = true → s.carries →
        exec (.hashPieceEnd h answered) s = .next { ({ s with host := found, hash := e.release }).givesBack c .linkFault none [] with
          custody := { s.custody with work := none, undo := none } })

/-- KEY GENERATE with the census HEALTHY: a secret is drawn and the new record made, PROVISIONAL with its request's flags, binding, limit
and label; a volatile slot takes it at once, a persistent one is written first; a key pair goes to the curve engine with a seed. In DOUBT
the card waits at its gate, in FAILED it is refused ENTROPY (R7, R8, R10, R153). A flags byte with a bit that R193 does not define is
refused BAD REQUEST with its field number (R190, R192). The empty reply bodies of the two refusals are the model's (log entry 16). That a
limit-present byte other than 1 reads as clear is the model's (log entry 13). -/
def Obligations.KeyGenerateBegins : Prop :=
  (∀ (s : State) (c : Card), s.custodyReady 0x0101#16 = some c → keyGenerateForm c = none →
    let f := keyGenerateFields c
    s.mayCreate f.cls f.target → (keyGenerateFlags c).fits (keyGenerateAlgorithm c) = true →
    let drawn : State := { s with census := { s.census with seed := Config.drawAdvance s.census.seed 32 } }
    let secret : Key256 := strOf 256 (drawnBytes s.census.seed 32)
    let record (m : KeyMaterial) : KeyRecord :=
      { state := .provisional, cls := f.cls, material := m, flags := keyGenerateFlags c, binding := keyGenerateBinding c,
        limit := f.limit, total := 0, label := f.label, anchor := none }
    (∀ m, s.census.state = .healthy →
        (keyGenerateAlgorithm c = .hmac256 ∧ m = .hmac256 secret) ∨ (keyGenerateAlgorithm c = .wrap256 ∧ m = .wrap256 secret) →
        (32 ≤ f.target.val → s.carries →
          exec .keyGenerate s = .next { drawn.placedNow c f.target (some (record m)) (Config.freeWord s.free) [] with free := s.free + 1 })
        ∧ ∀ j : Fin 32, f.target.val = j.val → s.storeRoom .custody →
          exec .keyGenerate s = .next (drawn.placing c f.target j (some (record m)) none []))
    ∧ (s.census.state = .healthy → keyGenerateAlgorithm c = .p256Sign →
        exec .keyGenerate s = .next { drawn with
          custody := { s.custody with work := working c .curveGenerate false, undo := none }
          exch := s.exch.begun c
          curve := s.curve.submit s.identityScalar .custody (.generate secret) })
    ∧ (s.census.state = .doubt →
        exec .keyGenerate s = .next { s with
          custody := { s.custody with work := working c .gate false, undo := none }
          exch := s.exch.begun c
          census := { s.census with waiters := s.census.waiters ++ [.custody] } })
    ∧ (s.census.state = .failed → s.carries →
        exec .keyGenerate s = .next { s with
          custody := { s.custody with work := none, undo := none }
          exch := s.exch.answered c .entropy (Config.freeWord s.free) []
          free := s.free + 1 }))
    ∧ ∀ (s : State) (c : Card), s.custodyReady 0x0101#16 = some c → c.extentCount = 0 → c.field 0 1 ≤ 47 →
      1 ≤ c.field 1 1 ∧ c.field 1 1 ≤ 7 → 1 ≤ c.field 2 1 ∧ c.field 2 1 ≤ 3 → (c.byte 19).extractLsb' 5 3 ≠ 0#3 → s.carries →
      exec .keyGenerate s = .next { s with
        custody := { s.custody with work := none, undo := none }
        exch := s.exch.answered c .badRequest 4#32 [] }

/-- KEY IMPORT whose slots pass begins to read its blob; KEY WRAP OUT whose slots pass seals the source under a fresh nonce, counts the
use of a LIVE unlimited wrapping key, and begins to write the blob (R9, R15). The private scalar of a blob is stored and read most
significant byte first (R188, R195). A blob that has been read is opened under the unwrapping key: a tag that does not verify, another
format version than 1, an algorithm without a name, a capability that does not fit, and a binding that fails the form check are refused
BAD BLOB; otherwise the use of the unwrapping key is completed, in the table or by a write that comes first, and the key is placed,
PROVISIONAL, in a volatile target at once and in a persistent one by a write (R9, R12, R196). What AES-256-GCM computes is left to two
functions without a value (log entry 4); the empty reply body of BAD BLOB is the model's (log entry 16), and so are the detail words of a
STORE FAULT where one write is due (log entry 59). That bits 5 to 7 of the flags byte of a blob that has been read are ignored, so that
the key is placed whatever they hold, and that a limit-present byte other than 1 reads as clear, are the model's (log entry 13). That an
access past the last 64-bit address goes on at address 0 is the model's (log entry 64). -/
def Obligations.KeysMoveInBlobs : Prop :=
  (∀ (s : State) (c : Card) (w : KeyRecord), s.custodyReady 0x0102#16 = some c → keyImportForm c = none →
      s.mayCreate (keyImportFields c).cls (keyImportFields c).target → s.slot (c.slot 1) = some w → s.mayUse .unwrap w →
      w.binding = none → c.extentLength 0 = 163 →
      exec .keyImport s = .next { s with
        custody := { s.custody with work := working c .readBlob false, undo := none }
        exch := s.exch.begun c })
    ∧ (∀ (s : State) (c : Card) (w r : KeyRecord) (k : Key256), s.custodyReady 0x0105#16 = some c → keyWrapOutForm c = none →
      s.slot (c.slot 1) = some w → s.mayUse .wrapping w → w.binding = none →
      w.state = .live → w.limit = none → w.material = .wrap256 k → s.slot (c.slot 0) = some r → s.mayUse .source r →
      r.binding = none → r.limit = none → s.census.state = .healthy →
      exec .keyWrapOut s = .next { s with
        custody := { s.custody with
          table := tableSet s.custody.table (c.slot 1) (some (usedOnce w))
          work := working c (.writeOut
            (sealBlob k (strOf 96 (drawnBytes s.census.seed 12)) (fillOpen s.free (blobPlaintext r))) (some 163#32) []) false
          undo := some (c.slot 1, w) }
        exch := s.exch.begun c
        census := { s.census with seed := Config.drawAdvance s.census.seed 12 }
        free := s.free + countOpen (blobPlaintext r) })
    ∧ (∀ (k : Scalar) (pub : PublicKey), materialBytes (.p256 (some k) pub)
      = (List.range 32).map (fun i => BitVec.ofNat 8 (k.toNat >>> (8 * (31 - i)))) ++ strBytes pub)
    ∧ (∀ (l : List Byte) (b : BlobContents) (k : Scalar) (pub : PublicKey), blobContents l = some b → b.material = .p256 (some k) pub →
      k.toNat = leNat (sliceBytes l 39 32).reverse)
    ∧ ∀ (s : State) (h : HostWrites) (c : Card) (w : KeyRecord) (k : Key256), s.powered = true → s.linkUp = true → s.carries →
      s.custody.work = working c .readBlob false → s.slot (c.slot 1) = some w → w.material = .wrap256 k →
      let blob := Memory.readBytes (Memory.hostStores s.host h) (c.extentAddress 0) 163
      let cipher := sliceBytes blob 12 135
      let text := gcmXor k (strOf 96 (sliceBytes blob 0 12)) 0 cipher
      let verifies := (strOf 128 (sliceBytes blob 147 16) : Tag) = Config.gcmTag k (strOf 96 (sliceBytes blob 0 12)) cipher
      let flags := KeyFlags.ofByte (text.getD 2 0#8)
      let u : State := { s with host := Memory.hostStores s.host h }
      let ends (t : State) : Prop := exec (.extentDmaEnd .custody h .answered) s = .next t
      let bad : State := { u.givesBack c .badBlob none [] with custody := { s.custody with work := none, undo := none } }
      let f := keyImportFields c
      let used := tableSet s.custody.table (c.slot 1) (some (usedOnce w))
      (¬verifies ∨ text.getD 0 0#8 ≠ 1#8 ∨ Algorithm.ofCode (text.getD 1 0#8).toNat = none ∨ bindingOf (sliceBytes text 3 36) = none
          ∨ (∃ alg, Algorithm.ofCode (text.getD 1 0#8).toNat = some alg ∧ flags.fits alg = false) → ends bad)
      ∧ ∀ (m : KeyMaterial) (binding : Option Binding), verifies → text.getD 0 0#8 = 1#8 → bindingOf (sliceBytes text 3 36) = some binding →
        (text.getD 1 0#8 = 1#8 ∧ flags.fits .p256Sign = true
            ∧ m = .p256 (some (scalarOfBytes (sliceBytes text 39 32))) (strOf 512 (sliceBytes text 71 64)))
          ∨ (text.getD 1 0#8 = 2#8 ∧ flags.fits .hmac256 = true ∧ m = .hmac256 (strOf 256 (sliceBytes text 39 32)))
          ∨ (text.getD 1 0#8 = 3#8 ∧ flags.fits .wrap256 = true ∧ m = .wrap256 (strOf 256 (sliceBytes text 39 32))) →
        let record : KeyRecord :=
          { state := .provisional, cls := f.cls, material := m, flags := flags, binding := binding, limit := f.limit, total := 0
            label := f.label, anchor := none }
        (32 ≤ (c.slot 1).val ∨ (w.state = .live ∧ w.limit = none) →
          (32 ≤ f.target.val → ends { u.givesBack c .done none [] with
            custody := { s.custody with table := tableSet used f.target (some record), work := none, undo := none } })
          ∧ ∀ j : Fin 32, f.target.val = j.val → s.storeRoom .custody → ends { u with
            custody := { s.custody with
              table := used, undo := some (c.slot 1, w)
              work := working c (.record f.target (some record) (some (BitVec.ofNat 32 j.val)) (.settle .done none [])) true }
            store := s.store.queued (.slot j (some record)) .custodyCard })
        ∧ ∀ j : Fin 32, (c.slot 1).val = j.val → w.state ≠ .live ∨ w.limit ≠ none → s.storeRoom .custody → ends { u with
            custody := { s.custody with
              work :=
                working c (.record (c.slot 1) (some (usedOnce w)) (some (BitVec.ofNat 32 j.val)) (.importTarget f.target record)) true }
            store := s.store.queued (.slot j (some (usedOnce w))) .custodyCard }

/-- KEY SET ATTRIBUTES, KEY FINALIZE and KEY ERASE on a slot that can be changed: a volatile slot changes at once, the record of a
persistent slot goes to the store first (R17, R18, R19). A LIVE slot is tightened only: a merge that sets a clear capability or clears
NEEDS PRESENCE is refused ONE WAY and changes nothing (R17). A mask or a value with a bit that R193 does not define is refused BAD REQUEST
with its field number (R190, R192). The empty reply bodies of the two refusals are the model's (log entry 16). -/
def Obligations.KeysAreChangedAndErased : Prop :=
  (∀ (s : State) (c : Card) (r : KeyRecord), keySlotForm c = none → 6 ≤ (c.slot 0).val → s.slot (c.slot 0) = some r →
    let free : State := { s with free := s.free + 1 }
    let open_ : Prop := r.state ≠ .spent ∧ (r.cls = .owner → s.lifecycle.pending = false)
    let new := r.flags.merge (KeyFlags.ofByte (c.byte 17)) (KeyFlags.ofByte (c.byte 18))
    let allowed : Prop := new ≠ r.flags
      ∧ (r.state = .provisional → new.fits r.material.algorithm = true ∧ (r.cls = .owner → s.lifecycle.presence.isSome = true))
      ∧ (r.state = .live → r.flags.loosens new = false)
    (s.custodyReady 0x0106#16 = some c → keySetForm c = none → open_ → allowed →
      (32 ≤ (c.slot 0).val → s.carries →
        exec .keySetAttributes s
          = .next (s.placedNow c (c.slot 0) (some { r with flags := new }) (BitVec.ofNat 32 new.toNat) []))
      ∧ ∀ j : Fin 32, (c.slot 0).val = j.val → s.storeRoom .custody →
        exec .keySetAttributes s
          = .next (s.placing c (c.slot 0) j (some { r with flags := new }) (some (BitVec.ofNat 32 new.toNat)) []))
    ∧ (s.custodyReady 0x0106#16 = some c → keySetForm c = none → open_ → r.state = .live → s.carries →
      (new.sign = true ∧ r.flags.sign = false) ∨ (new.mac = true ∧ r.flags.mac = false) ∨ (new.wrap = true ∧ r.flags.wrap = false)
        ∨ (new.exportable = true ∧ r.flags.exportable = false)
        ∨ (new.needsPresence = false ∧ r.flags.needsPresence = true) →
      exec .keySetAttributes s = .next { free with
        custody := { s.custody with work := none, undo := none }
        exch := s.exch.answered c .oneWay (Config.freeWord s.free) [] })
    ∧ (s.custodyReady 0x0107#16 = some c → open_ → r.state = .provisional →
      (32 ≤ (c.slot 0).val → s.carries →
        exec .keyFinalize s = .next (free.placedNow c (c.slot 0) (some { r with state := .live }) (Config.freeWord s.free) []))
      ∧ ∀ j : Fin 32, (c.slot 0).val = j.val → s.storeRoom .custody →
        exec .keyFinalize s = .next (s.placing c (c.slot 0) j (some { r with state := .live }) none []))
    ∧ (s.custodyReady 0x0108#16 = some c →
      (r.cls = .owner → s.lifecycle.presence.isSome = true ∨ s.lifecycle.pending = true) →
      (32 ≤ (c.slot 0).val → s.carries →
        exec .keyErase s = .next (free.placedNow c (c.slot 0) none (Config.freeWord s.free) []))
      ∧ ∀ j : Fin 32, (c.slot 0).val = j.val → s.storeRoom .custody →
        exec .keyErase s = .next (s.placing c (c.slot 0) j none none [])))
    ∧ ∀ (s : State) (c : Card), s.custodyReady 0x0106#16 = some c → c.extentCount = 0 → c.field 0 1 ≤ 47 → s.carries →
      let undefined (b : Byte) : Prop := b.extractLsb' 5 3 ≠ 0#3
      let refused (field : Word32) : Prop := exec .keySetAttributes s = .next { s with
        custody := { s.custody with work := none, undo := none }
        exch := s.exch.answered c .badRequest field [] }
      (undefined (c.byte 17) → refused 2#32) ∧ (¬undefined (c.byte 17) → undefined (c.byte 18) → refused 3#32)

/-- KEY DESCRIBE replies with the slot's record in R194's layout, and writes the public key of a key pair to an extent when the card has
one; the reply of an EMPTY slot is its number and zeros; the bytes of a reply that have no stated value are free (log entry 5). DRAW RANDOM
with the census HEALTHY replies with the bytes drawn (R16, R20). -/
def Obligations.KeyDescribeAndDrawRandom : Prop :=
  (∀ (s : State) (c : Card), s.custodyReady 0x0109#16 = some c → keyDescribeForm c = none →
      let reply := describeReply (c.slot 0) (s.slot (c.slot 0))
      ((c.extentCount = 0 ∨ ∀ r, s.slot (c.slot 0) = some r → r.material.publicKey = none) → s.carries →
        exec .keyDescribe s = .next { s with
          custody := { s.custody with work := none, undo := none }
          exch := s.exch.answered c .done (Config.freeWord s.free) (fillOpen (s.free + 1) reply)
          free := s.free + 1 + countOpen reply })
      ∧ (∀ r pub, c.extentCount ≠ 0 → s.slot (c.slot 0) = some r → r.material.publicKey = some pub →
        exec .keyDescribe s = .next { s with
          custody := { s.custody with work := working c (.writeOut (strBytes pub) none reply) false, undo := none }
          exch := s.exch.begun c })
      ∧ (s.slot (c.slot 0) = none → reply = outBytes (BitVec.ofNat 8 (c.slot 0).val :: List.replicate 71 0#8))
      ∧ ∀ r, s.slot (c.slot 0) = some r →
        let state := match r.state with
          | .provisional => 1
          | .live => 2
          | .spent => 3
        let class_ := match r.cls with
          | .root => 1
          | .identity => 2
          | .delegate => 3
          | .ownerAnchor => 4
          | .owner => 5
          | .platform => 6
          | .session => 7
        let algorithm := match r.material with
          | .p256 _ _ => 1
          | .hmac256 _ => 2
          | .wrap256 _ => 3
        let flags := r.flags.sign.toNat + 2 * r.flags.mac.toNat + 4 * r.flags.wrap.toNat + 8 * r.flags.exportable.toNat
          + 16 * r.flags.needsPresence.toNat
        let binding := match r.binding with
          | none => replyNum 1 0 ++ replyOpen 35
          | some (.exactly mask expected) =>
            replyNum 1 1 ++ replyOpen 1 ++ replyNum 2 mask.toNat ++ replyNum 32 expected.toNat
          | some (.acceptedImage kind chain) => replyNum 1 2 ++ replyNum 1 kind.val ++ replyNum 1 chain.val ++ replyOpen 33
        let limit := match r.limit with
          | none => replyNum 1 0 ++ replyOpen 4
          | some l => replyNum 1 1 ++ replyNum 2 l.limit ++ replyNum 2 l.remaining
        let anchor := match r.anchor with
          | none => replyOpen 5
          | some a => replyNum 1 a.kinds.toNat ++ (match a.serial with
            | none => replyOpen 4
            | some serial => replyNum 4 serial.toNat)
        reply = replyNum 1 (c.slot 0).val ++ replyNum 1 state ++ replyNum 1 class_ ++ replyNum 1 algorithm ++ replyNum 1 flags ++ binding
          ++ limit ++ replyNum 4 r.total ++ replyNum 1 r.label.length ++ r.label.map some ++ replyOpen (16 - r.label.length) ++ anchor)
    ∧ ∀ (s : State) (c : Card), s.custodyReady 0x010A#16 = some c → drawRandomForm c = none → s.census.state = .healthy →
      s.carries →
      exec .drawRandom s = .next { s with
        custody := { s.custody with work := none, undo := none }
        census := { s.census with seed := Config.drawAdvance s.census.seed (c.field 0 1) }
        exch := s.exch.answered c .done (BitVec.ofNat 32 (c.field 0 1)) (drawnBytes s.census.seed (c.field 0 1)) }

/-- The custody unit serves the first held request of another block when no card is in work: an installation or a removal is written to
the store before the table changes; a wipe order empties at once, in the table, every slot of class OWNER and slot 5, and writes each of
them (R21, R23). -/
def Obligations.CustodyServesRequests : Prop :=
  ∀ (s : State) (rest : List CustodyRequest), s.powered = true → s.custody.work = none → s.custody.service = none →
    (∀ i r by_, s.custody.held = .install i r by_ :: rest → s.storeRoom .custody →
      exec .installationRequest s = .next { s with
        custody := { s.custody with held := rest, service := some (.install i r by_) }
        store := s.store.queued (.slot ⟨i.val, by omega⟩ (some r)) .custodyRequest })
    ∧ (∀ i, s.custody.held = .remove i :: rest → s.storeRoom .custody →
      exec .removalRequest s = .next { s with
        custody := { s.custody with held := rest, service := some (.remove i) }
        store := s.store.queued (.slot ⟨i.val, by omega⟩ none) .custodyRequest })
    ∧ (s.custody.held = .wipe :: rest → s.wipedSlots = [] →
      exec .custodyWipeOrder s = .next { s with
        custody := { s.custody with held := rest }
        lifecycle := { s.lifecycle with
          answersSent := { s.lifecycle.answersSent with custody := some { erased := 0, failed := 0 } } } })
    ∧ (s.custody.held = .wipe :: rest → s.wipedSlots ≠ [] → s.quiet .custody →
        s.store.queue.length + s.wipedSlots.length ≤ storeCapacity →
      ∃ t, exec .custodyWipeOrder s = .next t
        ∧ (∀ (i : Fin 48) r, i.val < 32 → s.slot i = some r → r.cls = .owner ∨ i.val = 5 → t.slot i = none)
        ∧ (∀ i : Fin 48, (∀ r, s.slot i = some r → i.val < 32 → r.cls ≠ .owner ∧ i.val ≠ 5) → t.slot i = s.slot i)
        ∧ t.store = { s.store with
            queue := s.store.queue ++ s.wipedSlots.map fun i => { write := .slot i none, answerTo := .custodyWipe } }
        ∧ t.custody.service = some (.wipe s.wipedSlots.length s.wipedSlots.length 0) ∧ t.custody.held = rest
        ∧ t.lifecycle = s.lifecycle ∧ t.exch = s.exch ∧ t.credential = s.credential ∧ t.update = s.update ∧ t.measure = s.measure)
    ∧ ∀ i : Fin 32, i ∈ s.wipedSlots ↔ ∃ r, s.slot ⟨i.val, by omega⟩ = some r ∧ (r.cls = .owner ∨ i.val = 5)

/-- What the completion of a curve operation brings (R8, R12, R13, R58, R122, R145, R146): a signature with a key that needs no store
write counts the use in the table and settles the card DONE with the signature, a limited key by one use, its last leaving it SPENT; the
key pair of a KEY GENERATE is placed in a volatile slot and settles the card DONE with its public key, and is written first for a
persistent one; a signature for a quote lets it be written; a generated identity is sent to the custody unit. The scalar that a seed gives
is not zero and below the order of the curve; the value of that order, and the free value in range after 64 candidates, are the model's
(log entry 20), and so are the use total and label of the identity's record (log entry 49). No operation waits here. That a limit-present
byte other than 1 reads as clear is the model's (log entry 13). -/
def Obligations.CurveOperationsComplete : Prop :=
  ∀ (s : State), s.powered = true → s.curve.update = none → s.curve.measure = none → s.curve.custody = none →
    s.curve.lifecycle = none →
    let freed (who : CurveClient) : CurveEngine := { s.curve with running := none, pointer := who }
    (∀ k d c r, s.curve.running = some { client := .custody, op := .sign k d } → s.custody.work = working c .curveSign false →
      s.slot (c.slot 0) = some r → 32 ≤ (c.slot 0).val ∨ (r.state = .live ∧ r.limit = none) → s.carries →
      exec .curveOperationComplete s = .next { s with
        curve := freed .custody
        custody := { s.custody with
          table := tableSet s.custody.table (c.slot 0) (some (usedOnce r)), work := none, undo := none }
        exch := s.exch.handed { card := c, outcome := .done, detail := Config.freeWord s.free
                                body := strBytes (Config.ecdsaSign k d) }
        free := s.free + 1 })
    ∧ (∀ k d c body seq, s.curve.running = some { client := .measure, op := .signByIdentity (some k) d } →
      s.measure.work = working c (.quoteSign body seq) false → s.measure.internal = [] →
      let sig := strBytes (Config.ecdsaSign k d)
      exec .curveOperationComplete s = .next { s with
        curve := freed .measure
        measure := { s.measure with
          work := working c (.writeOut (body ++ sig) (some (BitVec.ofNat 32 seq)) (outBytes sig ++ outNum 2 body.length)) false } })
    ∧ (∀ seed c, s.curve.running = some { client := .lifecycle, op := .generate seed } →
      s.lifecycle.work = working c .generate false →
      let k := scalarOfSeed seed
      let pub := Config.publicOfScalar k
      exec .curveOperationComplete s = .next { s with
        curve := freed .lifecycle
        lifecycle := { s.lifecycle with work := working c (.install (outBytes (strBytes pub))) true }
        custody := { s.custody with held := s.custody.held ++ [.install 1
          { state := .live, cls := .identity, material := .p256 (some k) pub, flags := KeyFlags.none, binding := none, limit := none,
            total := 0, label := [], anchor := none } .lifecycle] } })
    ∧ (∀ seed c, s.curve.running = some { client := .custody, op := .generate seed } →
      s.custody.work = working c .curveGenerate false →
      let k := scalarOfSeed seed
      let pub := Config.publicOfScalar k
      let f := keyGenerateFields c
      let record : KeyRecord :=
        { state := .provisional, cls := f.cls, material := .p256 (some k) pub, flags := keyGenerateFlags c
          binding := keyGenerateBinding c, limit := f.limit, total := 0, label := f.label, anchor := none }
      (32 ≤ f.target.val → s.carries → exec .curveOperationComplete s = .next { s with
        curve := freed .custody
        custody := { s.custody with table := tableSet s.custody.table f.target (some record), work := none, undo := none }
        exch := s.exch.handed { card := c, outcome := .done, detail := Config.freeWord s.free, body := strBytes pub }
        free := s.free + 1 })
      ∧ ∀ j : Fin 32, f.target.val = j.val → s.storeRoom .custody → exec .curveOperationComplete s = .next { s with
        curve := freed .custody
        custody := { s.custody with
          work := working c (.record f.target (some record) none (.settle .done none (outBytes (strBytes pub)))) true }
        store := s.store.queued (.slot j (some record)) .custodyCard })
    ∧ (∀ seed, scalarOfSeed seed ≠ 0#256 ∧ (scalarOfSeed seed).toNat < Config.curveOrder)
    ∧ (s.curve.running = none → exec .curveOperationComplete s = .next s)

/-! ## Measurements -/

/-- EXTEND of an open host chain sends its extension to the hash engine; chain 11 is refused RESERVED CHAIN and a closed chain CHAIN
CLOSED. CLOSE CHAIN closes its chain for good and replies with the closed set, and is refused RESERVED CHAIN on chain 11 (R26, R27, R28,
R29). That chain c stands at bit c of the closed set, and that the detail word reads 0 above bit 10, are the model's (log entry 67). The
empty reply body of CLOSE CHAIN's DONE is R194's; those of the refusals are the model's (log entry 16). -/
def Obligations.ChainsAreExtendedAndClosed : Prop :=
  (∀ (s : State) (c : Card) (i : Fin 11), s.measureReady 0x0201#16 = some c → extendForm c = none → c.field 0 1 = i.val →
      (s.measure.closed.getLsbD i.val = false → exec .extend s = .next { s.begins c with
        measure := { s.measure with
          work := working c (.extendHash i (BitVec.ofNat 16 (c.field 1 2)) (c.fieldStr 3 256)) false, paused := none }
        hash := s.hash.submit .measure (shaJob (strBytes (s.chain ⟨i.val, by omega⟩) ++ strBytes (c.fieldStr 3 256))) })
      ∧ (s.measure.closed.getLsbD i.val = true → s.carries → exec .extend s = .next { (s.begins c).givesBack c .chainClosed none [] with
        measure := { s.measure with work := none, paused := none } }))
    ∧ (∀ (i : Instr) (code : Word16) (form : Card → Option Nat) (s : State) (c : Card),
      (i = .extend ∧ code = 0x0201#16 ∧ form = extendForm) ∨ (i = .closeChain ∧ code = 0x0202#16 ∧ form = closeChainForm) →
      s.measureReady code = some c → form c = none → c.field 0 1 = 11 → s.carries →
      exec i s = .next { (s.begins c).givesBack c .reservedChain none [] with
        measure := { s.measure with work := none, paused := none } })
    ∧ ∀ (s : State) (c : Card) (i : Fin 11), s.measureReady 0x0202#16 = some c → closeChainForm c = none → c.field 0 1 = i.val →
      s.carries →
      ∃ closed : BitVec 11,
        exec .closeChain s = .next { (s.begins c).givesBack c .done (some (closed.setWidth 32)) [] with
          measure := { s.measure with closed := closed, work := none, paused := none } }
        ∧ ∀ j, j < 11 → closed.getLsbD j = (s.measure.closed.getLsbD j || decide (j = i.val))

/-- READ CHAINS sends the composite of the selected chains to the hash engine with a copy of their values; READ RECORDS writes the records
selected, or replies at once when there is none; QUOTE, outside BLANK and with room in its extent, takes the next quote sequence, and
begins with the fingerprint of the identity key; in BLANK it is refused WRONG LIFECYCLE, and without room BAD REQUEST with the length it
needs (R32, R33, R52, R53, R54, R55). The end of each job's last piece brings its digest: the composite lets READ CHAINS write its copy, a
fingerprint completes the quote's body, whose digest goes to the curve engine to be signed by the identity key; with requests in the list
READ CHAINS and the body job pause first (R40, R55, R57, R59). The end of a piece of the body job that is not its last takes in 4096
bytes: the job waits again in its place with the rest, or, with requests in the list, is held by the measure unit until they are served
(R40, R59, R143). The last clauses spell the layouts, field by field with their lengths: the record list entry, the composite's input, the
kind element and the quote body behind its fingerprint (R55, R56, R195). That READ CHAINS reads the closed set and the counts of its reply
at the card's beginning is the model's (log entry 61), and so are the places of the closed set's bits and the zeros above them (log entry
67). The empty reply bodies of the refusals are the model's (log entry 16), and so is the grant that may follow the same end (log entry
53). Start-up has ended there. That a records flag other than 1 reads as clear is the model's (log entry 13). -/
def Obligations.MeasurementsAreRead : Prop :=
  (∀ (s : State) (c : Card), s.measureReady 0x0203#16 = some c → readChainsForm c = none →
      exec .readChains s = .next { s.begins c with
        measure := { s.measure with
          work := working c (.chainsHash ((maskChains (c.mask 0)).flatMap fun i => strBytes (s.chain i))
            (outNum 2 s.measure.closed.toNat ++ outNum 1 s.measure.records.length ++ outNum 2 s.measure.missed
              ++ outNum 1 s.measure.truncated.toNat)) false
          paused := none }
        hash := s.hash.submit .measure (shaJob (compositeInput (c.mask 0) s.measure.chains)) })
    ∧ (∀ (s : State) (c : Card), s.measureReady 0x0204#16 = some c → readRecordsForm c = none →
      let l := ((s.measure.records.drop (c.field 0 1)).take (c.field 1 1)).take (c.extentLength 0 / 40)
      let count : Option Word32 := some (BitVec.ofNat 32 l.length)
      let summary := outNum 1 s.measure.records.length ++ outNum 2 s.measure.missed ++ outNum 1 s.measure.truncated.toNat
      (l = [] → s.carries → exec .readRecords s = .next { (s.begins c).givesBack c .done count summary with
        measure := { s.measure with work := none, paused := none } })
      ∧ (l ≠ [] → exec .readRecords s = .next { s.begins c with
        measure := { s.measure with
          work := working c (.writeOut (fillOpen s.free (l.flatMap recordEntry)) count summary) false, paused := none }
        free := s.free + countOpen (l.flatMap recordEntry) }))
    ∧ (∀ (s : State) (c : Card), s.measureReady 0x0205#16 = some c → quoteForm c = none →
      let records := if quoteRecords c then ((s.measure.records.drop (c.field 35 1)).take (c.field 36 1)).length else 0
      let seq := min 4294967295 (s.measure.quoteSeq + 1)
      let length := 264 + 32 * (maskChains (c.mask 32)).length + 40 * records
      let refused (o : CardOutcome) (d : Option Word32) : State := { (s.begins c).givesBack c o d [] with
        measure := { s.measure with work := none, paused := none } }
      (s.lifecycle.effective ≠ .blank → length ≤ c.extentLength 0 →
        exec .quote s = .next { s.begins c with
          measure := { s.measure with
            work := working c (.fingerprint (fillOpen s.free (s.quoteRest c seq)) seq) false, paused := none, quoteSeq := seq }
          hash := s.hash.submit .measure (shaJob (strBytes s.identityKey))
          free := s.free + countOpen (s.quoteRest c seq) })
      ∧ (s.lifecycle.effective = .blank → s.carries → exec .quote s = .next (refused .wrongLifecycle none))
      ∧ (s.lifecycle.effective ≠ .blank → c.extentLength 0 < length → s.carries →
        exec .quote s = .next (refused .badRequest (some (BitVec.ofNat 32 length)))))
    ∧ (∀ (s : State) (h : HostWrites) (answered : Bool) (c : Card) (before input : List Byte), s.powered = true → s.startUp = .ended →
      input.length ≤ 4096 → s.measure.service = none →
      s.hash.running = some { client := .measure, withdrawn := false
                              job := { fn := .sha256, absorbed := before, source := .own input, finalize := true } } →
      let digest := Config.sha256 (before ++ input)
      let u : State := { s with host := Memory.hostStores s.host h, hash := ({ s.hash with pointer := .measure }).release }
      let goesOn (stage : MeasureStage) (paused : Option MeasureResume) : State := { u with
        measure := { s.measure with work := working c stage false, paused := paused } }
      let ends (t : State) : Prop := exec (.hashPieceEnd h answered) s = .next t
      (∀ values tail, s.measure.work = working c (.chainsHash values tail) false →
        let stage : MeasureStage := .writeOut values none (outBytes (strBytes digest) ++ tail)
        (s.measure.internal = [] → ends (goesOn stage s.measure.paused))
        ∧ (s.measure.internal ≠ [] → ends (goesOn stage (some .transfer))))
      ∧ (∀ rest seq, s.measure.work = working c (.fingerprint rest seq) false →
        let body := 1#8 :: (strBytes digest ++ rest)
        (s.measure.internal = [] → ends { goesOn (.quoteHash body seq) s.measure.paused with
          hash := (({ s.hash with pointer := .measure }).submit .measure (shaJob body)).release })
        ∧ (s.measure.internal ≠ [] → ends (goesOn (.quoteHash body seq) (some (.job (shaJob body))))))
      ∧ ∀ body seq, s.measure.work = working c (.quoteHash body seq) false →
        ends { goesOn (.quoteSign body seq) s.measure.paused with
          curve := s.curve.submit s.identityScalar .measure (.signByIdentity none digest) })
    ∧ (∀ (s : State) (h : HostWrites) (answered : Bool) (c : Card) (body before input : List Byte) (seq : Nat), s.powered = true →
      s.startUp = .ended → 4096 < input.length → s.measure.service = none → s.measure.work = working c (.quoteHash body seq) false →
      s.hash.running = some { client := .measure, withdrawn := false
                              job := { fn := .sha256, absorbed := before, source := .own input, finalize := true } } →
      let left : HashJob :=
        { fn := .sha256, absorbed := before ++ input.take 4096, source := .own (input.drop 4096), finalize := true }
      let u : State := { s with host := Memory.hostStores s.host h }
      let e : HashEngine := { s.hash with pointer := .measure }
      (s.measure.internal = [] → exec (.hashPieceEnd h answered) s = .next { u with hash := ({ e with measure := some left }).release })
      ∧ (s.measure.internal ≠ [] → exec (.hashPieceEnd h answered) s = .next { u with
          hash := ({ e with measure := none }).release
          measure := { s.measure with paused := some (.job left) } }))
    ∧ (∀ r : Record, recordEntry r = replyNum 4 r.seq ++ replyNum 1 r.chain.val ++ replyOpen 1 ++ replyNum 2 r.event.toNat
        ++ replyNum 32 r.digest.toNat)
    ∧ (∀ (mask : BitVec 12) (chains : Vector Digest 12), outBytes (compositeInput mask chains) = replyNum 2 mask.toNat
        ++ (List.finRange 12).flatMap fun i => if mask.getLsbD i.val then replyNum 32 (tableGet chains i).toNat else [])
    ∧ (∀ k : KindRecord,
        let signer (x : SignerClass) : Nat := match x with
          | .root => 1
          | .delegate => 2
          | .owner => 3
        kindElement k = replyNum 4 k.floor
        ++ (match k.confirmed with
          | some x => replyNum 1 1 ++ replyNum 4 x.version ++ replyNum 1 (signer x.signer)
          | none => replyNum 6 0)
        ++ match k.trial with
          | some x => replyNum 1 1 ++ replyNum 4 x.version
          | none => replyNum 5 0)
    ∧ ∀ (s : State) (c : Card) (seq : Nat),
      let flag : Bool := decide (c.byte 50 = 1#8)
      let taken := if flag then (s.measure.records.drop (c.field 35 1)).take (c.field 36 1) else []
      let life := match s.lifecycle.effective with
        | .blank => 0
        | .unclaimed => 1
        | .claimed => 2
      let census := match s.census.state with
        | .healthy => 0
        | .doubt => 1
        | .failed => 2
      s.quoteRest c seq = replyNum 1 life ++ replyNum 1 s.lifecycle.pending.toNat ++ replyNum 1 census ++ replyNum 4 seq
        ++ replyNum 2 (c.mask 32).toNat
        ++ ((List.finRange 12).flatMap fun i => if (c.mask 32).getLsbD i.val then replyNum 32 (s.chain i).toNat else [])
        ++ replyNum 1 s.measure.records.length ++ replyNum 2 s.measure.missed ++ replyNum 1 s.measure.truncated.toNat
        ++ replyNum 1 (if flag then c.field 35 1 else 0) ++ replyNum 1 taken.length ++ taken.flatMap recordEntry
        ++ ((List.finRange 8).flatMap fun k => kindElement (s.kindRecord k)) ++ (List.range 32).map fun i => some (c.byte (16 + i))

/-- The end of the hash piece of an extension applies it in one act: the chain takes the new value, and a record is appended with the next
sequence number, or counted as missed once 96 are held, the first such setting TRUNCATED with its attention request; the host's extension
settles DONE with the new value, a part event extends chain 11, with the list full or not, the link up or down (R28, R30, R31, R35). These
clauses hold for whatever value the job was made of; the ones behind them say that it is the chain's own: the end of the first piece of a
part event brings its event digest, and chain 11's value with that digest goes to the hash engine (R35); an EXTEND that finds the engine
free, and a part event with no other job waiting, leave in the next piece's end the digest of the chain's value before and the digest
entered, and every other chain as it was (R28, R35). With the last entry of the list served, the card paused in the meantime resumes: its
held job returns to the engine, its transfer begins, or the kept signature is taken (R39, R40). Each event's code and parameter record are
spelled (R34, R195). Start-up has ended here. That a grant may follow the same end is the model's (log entry 53). -/
def Obligations.ExtensionsAreAppliedWhole : Prop :=
  (∀ (s : State) (h : HostWrites) (answered : Bool) (old digest : Digest), s.powered = true → s.startUp = .ended →
    s.hash.running = some { client := .measure, job := shaJob (strBytes old ++ strBytes digest), withdrawn := false } →
    let value := Config.sha256 (strBytes old ++ strBytes digest)
    let n := s.measure.records.length
    let u : State := { s with host := Memory.hostStores s.host h, hash := ({ s.hash with pointer := .measure }).release }
    let truncates (t : State) : State := { t with
      exch := { t.exch with attention := s.exch.attention ||| 64#9 }
      messages := s.messages + if s.linkUp then s.askMessages s.exch.enable else 0 }
    (∀ (c : Card) (i : Fin 11) (event : Word16), s.measure.service = none →
      s.measure.work = working c (.extendHash i event digest) false → s.carries →
      let k : Fin 12 := ⟨i.val, by omega⟩
      let m : Measure := { s.measure with chains := tableSet s.measure.chains k value, work := none, paused := none }
      let dropped : State := u.givesBack c .done (some 0#32) (outBytes (strBytes value))
      (n < 96 → exec (.hashPieceEnd h answered) s
        = .next { u.givesBack c .done (some (BitVec.ofNat 32 (n + 1))) (outBytes (strBytes value)) with
          measure := { m with records := s.measure.records ++ [{ seq := n + 1, chain := k, event := event, digest := digest }] } })
      ∧ (96 ≤ n → s.measure.truncated = true → exec (.hashPieceEnd h answered) s
        = .next { dropped with measure := { m with missed := min 65535 (s.measure.missed + 1) } })
      ∧ (96 ≤ n → s.measure.truncated = false → exec (.hashPieceEnd h answered) s
        = .next { truncates dropped with measure := { m with missed := min 65535 (s.measure.missed + 1), truncated := true } }))
    ∧ ∀ (e : PartEvent) (rest : List MeasureRequest), s.measure.service = some (.eventExtend e digest) →
      s.measure.internal = .event e :: rest → s.measureWaiting = [] →
      let m : Measure := { s.measure with chains := tableSet s.measure.chains 11 value, service := none, internal := rest }
      let entered : Measure :=
        { m with records := s.measure.records ++ [{ seq := n + 1, chain := 11, event := e.code, digest := digest }] }
      (s.measure.work = none →
        (n < 96 → exec (.hashPieceEnd h answered) s = .next { u with measure := entered })
        ∧ (96 ≤ n → s.measure.truncated = true → exec (.hashPieceEnd h answered) s = .next { u with
          measure := { m with missed := min 65535 (s.measure.missed + 1) } })
        ∧ (96 ≤ n → s.measure.truncated = false → exec (.hashPieceEnd h answered) s = .next { truncates u with
          measure := { m with missed := min 65535 (s.measure.missed + 1), truncated := true } }))
      ∧ ∀ (c : Card) (stage : MeasureStage), s.measure.work = working c stage false → n < 96 → rest = [] →
        (∀ j, s.measure.paused = some (.job j) → exec (.hashPieceEnd h answered) s = .next { u with
          hash := ({ s.hash with pointer := .measure, measure := some j }).release
          measure := { entered with paused := none } })
        ∧ (s.measure.paused = some .transfer → exec (.hashPieceEnd h answered) s = .next { u with
          measure := { entered with paused := none } })
        ∧ ∀ body seq sig, stage = .quoteSign body seq → s.measure.paused = some (.signature sig) →
          exec (.hashPieceEnd h answered) s = .next { u with
            measure := { entered with
              paused := none
              work := working c (.writeOut (body ++ strBytes sig) (some (BitVec.ofNat 32 seq))
                (replyNum 64 sig.toNat ++ replyNum 2 body.length)) false } })
    ∧ (∀ (s : State) (h : HostWrites) (answered : Bool) (e : PartEvent), s.powered = true → s.startUp = .ended →
      s.hash.running = some { client := .measure, job := shaJob e.parameters, withdrawn := false } →
      s.measure.service = some (.eventDigest e) →
      let digest := Config.sha256 e.parameters
      exec (.hashPieceEnd h answered) s = .next { s with
        host := Memory.hostStores s.host h
        measure := { s.measure with service := some (.eventExtend e digest) }
        hash := ({ s.hash with
          pointer := .measure, measure := some (shaJob (strBytes (s.chain 11) ++ strBytes digest)) }).release }
      ∧ ∀ rest, s.measure.internal = .event e :: rest → s.measure.work = none → s.measureWaiting = [] →
        (∀ who, s.hash.waiting who = none) → ∀ (h' : HostWrites) (answered' : Bool),
        ∃ t u, exec (.hashPieceEnd h answered) s = .next t ∧ exec (.hashPieceEnd h' answered') t = .next u
          ∧ u.chain 11 = Config.sha256 (strBytes (s.chain 11) ++ strBytes digest) ∧ ∀ j, j ≠ 11 → u.chain j = s.chain j)
    ∧ (∀ (s : State) (h : HostWrites) (answered : Bool) (c : Card) (i : Fin 11), s.measureReady 0x0201#16 = some c →
      extendForm c = none → c.field 0 1 = i.val → s.measure.closed.getLsbD i.val = false → s.startUp = .ended → s.carries →
      s.hash.running = none →
      let k : Fin 12 := ⟨i.val, by omega⟩
      ∃ t u, exec .extend s = .next t ∧ exec (.hashPieceEnd h answered) t = .next u
        ∧ u.chain k = Config.sha256 (strBytes (s.chain k) ++ strBytes (c.fieldStr 3 256)) ∧ ∀ j, j ≠ k → u.chain j = s.chain j)
    ∧ (∀ (kind : Fin 8) (version : Nat) (signer : SignerClass) (below : Bool) (reason : LapseReason),
      let confirmed : PartEvent := .updateConfirmed kind version signer below
      let lapsed : PartEvent := .updateLapsed kind version reason
      confirmed.code = 0xF001#16 ∧ lapsed.code = 0xF002#16
      ∧ outBytes confirmed.parameters = replyNum 2 0xF001 ++ replyNum 1 kind.val ++ replyNum 4 version
        ++ replyNum 1 (match signer with
          | .root => 1
          | .delegate => 2
          | .owner => 3) ++ replyNum 1 below.toNat
      ∧ outBytes lapsed.parameters = replyNum 2 0xF002 ++ replyNum 1 kind.val ++ replyNum 4 version
        ++ replyNum 1 (match reason with
          | .bootsExhausted => 1
          | .ownerSignerRemoved => 2))
    ∧ ∀ e code, (e, code) ∈ [(PartEvent.ownerAnchorInstalled, 0xF003#16), (.ownershipClaimed, 0xF010#16),
        (.ownershipReleased, 0xF011#16), (.censusFailed, 0xF020#16)] →
      e.code = code ∧ outBytes e.parameters = replyNum 2 code.toNat

/-- The measure unit serves the first internal request when no card is in work: a part event's parameters and a binding check's composite
or first candidate go to the hash engine; a chain read answers UPDATE CONFIRM, which writes the confirmed trial when the chain has the
expected value, and is refused NOT RUNNING otherwise (R35, R38, R39, R42, R43, R44, R84, R85). A binding that names a composite is
satisfied exactly when the digest of the selected chains has its value, and one that names an image kind exactly when the chain has the
value of the first candidate or of the second: a bound KEY SIGN then goes to the curve engine, a bound KEY MAC to the hash engine, a KEY
IMPORT reads its blob, a KEY WRAP OUT goes on with the check of its source and then at its randomness gate, and a bound CRED RELEASE gives
its secret; otherwise each is refused UNBOUND, a key use with its slot (R9, R11, R14, R15, R41, R42, R43, R110). A part event that its
block has still to send reaches the list, and its service begins, with the row PART_EVENT: that this is an act of its own is the model's
(log entry 43). At its gate KEY WRAP OUT is refused ENTROPY with the census FAILED (R10), and a source with a use limit is refused NOT
PERMITTED (R15): the source slot in that refusal's detail word is the model's reading (log entry 70). The empty reply bodies of NOT RUNNING,
UNBOUND, NOT PERMITTED and ENTROPY are the model's (log entry 16), and so is the grant that may follow the same end (log entry 53). -/
def Obligations.InternalRequestsAreServed : Prop :=
  (∀ (s : State) (rest : List MeasureRequest), s.powered = true → s.measure.starting = false → s.measure.service = none →
    s.measure.work = none →
    (∀ e, s.measure.internal = .event e :: rest → s.measureWaiting = [] → s.startUp = .ended →
      exec .partEvent s = .next { s with
        measure := { s.measure with service := some (.eventDigest e) }
        hash := s.hash.submit .measure (shaJob e.parameters) })
    ∧ (∀ by_ mask expected wanted, s.measure.internal = .check by_ (.exactly mask expected) wanted :: rest →
      exec .bindingCheck s = .next { s with
        measure := { s.measure with service := some (.composite by_ expected) }
        hash := s.hash.submit .measure (shaJob (compositeInput mask s.measure.chains)) })
    ∧ (∀ by_ kind (chain : Fin 11) wanted x, s.measure.internal = .check by_ (.acceptedImage kind chain) wanted :: rest →
      (s.kindRecord kind).confirmed = some x →
      let others := match (s.kindRecord kind).trial with
        | some t => [t.digest]
        | none => []
      exec .bindingCheck s = .next { s with
        measure := { s.measure with service := some (.candidates by_ (s.chain ⟨chain.val, by omega⟩) others false) }
        hash := s.hash.submit .measure (shaJob (strBytes (0#256 : Digest) ++ strBytes x.digest)) })
    ∧ ∀ chain (c : Card) expected x, s.measure.internal = .chainRead chain true :: rest →
      s.update.work = working c (.confirmChain expected) false → (s.kindRecord c.kind).trial = some x → s.measureWaiting = [] →
      s.measure.paused = none →
      let record : KindRecord :=
        { floor := max (s.kindRecord c.kind).floor x.version
          confirmed := some { version := x.version, digest := x.digest, signer := x.signer }, trial := none }
      let below := decide (x.version < (s.kindRecord c.kind).floor)
      (s.chain ⟨chain.val, by omega⟩ = expected → s.storeRoom .update →
        exec .chainRead s = .next { s with
          measure := { s.measure with internal := rest }
          update := { s.update with work := working c (.confirm record x.version x.signer below) true }
          store := s.store.queued (.kind c.kind record) .updateCard })
      ∧ (s.chain ⟨chain.val, by omega⟩ ≠ expected → s.update.wipe ≠ .held → s.carries →
        exec .chainRead s = .next { s.givesBack c .notRunning none [] with
          measure := { s.measure with internal := rest }
          update := { s.update with work := none } }))
    ∧ (∀ (s : State) (c : Client) (e : PartEvent), s.eventWaits c e [] → c ≠ .updateAsk →
      exec .partEvent s = .next (s.eventTaken c e))
    ∧ (∀ (s : State) (h : HostWrites) (answered : Bool) (input : List Byte) (asker : Checker) (value d : Digest) (hit : Bool),
      s.powered = true → s.startUp = .ended → input.length ≤ 4096 →
      s.hash.running = some { client := .measure, job := shaJob input, withdrawn := false } →
      s.measure.service = some (.candidates asker value [d] hit) →
      exec (.hashPieceEnd h answered) s = .next { s with
        host := Memory.hostStores s.host h
        hash := (({ s.hash with pointer := .measure }).submit .measure (shaJob (strBytes (0#256 : Digest) ++ strBytes d))).release
        measure := { s.measure with service := some (.candidates asker value [] (hit || decide (Config.sha256 input = value))) } })
    ∧ ∀ (s : State) (h : HostWrites) (answered : Bool) (input : List Byte) (c : Card) (asker : Checker) (b : Binding) (x : MeasureService)
    (ok : Bool) (rest : List MeasureRequest), s.powered = true → s.startUp = .ended → input.length ≤ 4096 →
    s.hash.running = some { client := .measure, job := shaJob input, withdrawn := false } →
    s.measure.service = some x → s.measure.internal = .check asker b true :: rest →
    s.measure.work = none → s.measureWaiting = [] → s.carries →
    (∃ expected, x = .composite asker expected ∧ ok = decide (Config.sha256 input = expected))
      ∨ (∃ value hit, x = .candidates asker value [] hit ∧ ok = (hit || decide (Config.sha256 input = value))) →
    let pointed : HashEngine := { s.hash with pointer := .measure }
    let u : State := { s with
      host := Memory.hostStores s.host h, hash := pointed.release
      measure := { s.measure with service := none, internal := rest } }
    let answer (yes no : State) : Prop := exec (.hashPieceEnd h answered) s = .next (if ok then yes else no)
    let refused (o : CardOutcome) (off : Nat) : State := { u.givesBack c o (some (BitVec.ofNat 32 (c.slot off).val)) [] with
      custody := { s.custody with work := none, undo := none } }
    let stage (x : CustodyStage) : Custody := { s.custody with work := working c x false }
    (asker = .custody →
      (s.custody.work = working c (.binding .sign) false →
        answer { u with
          custody := stage .curveSign
          curve := s.curve.submit s.identityScalar .custody (.sign (s.scalarOf (c.slot 0)) (c.fieldStr 2 256)) } (refused .unbound 0))
      ∧ (∀ r k, s.custody.work = working c (.binding .mac) false → s.slot (c.slot 0) = some r → r.material = .hmac256 k →
        answer { u with
          custody := stage .mac
          hash := (pointed.submit .custody
            { fn := .hmac k, absorbed := [], source := .extents c.extentSource, finalize := true }).release } (refused .unbound 0))
      ∧ (s.custody.work = working c (.binding .unwrap) false → c.extentLength 0 = 163 →
        answer { u with custody := stage .readBlob } (refused .unbound 1))
      ∧ ∀ (w key : KeyRecord) (k : Key256), s.slot (c.slot 1) = some w → w.state = .live → w.limit = none → w.material = .wrap256 k →
        s.slot (c.slot 0) = some key →
        let text := blobPlaintext key
        let sealed : State := { u with
          custody := { s.custody with
            table := tableSet s.custody.table (c.slot 1) (some (usedOnce w))
            work := working c (.writeOut
              (sealBlob k (strOf 96 (drawnBytes s.census.seed 12)) (fillOpen s.free text)) (some 163#32) []) false
            undo := some (c.slot 1, w) }
          census := { s.census with seed := Config.drawAdvance s.census.seed 12 }
          free := s.free + countOpen text }
        (s.custody.work = working c (.binding .wrapping) false → s.mayUse .source key →
          (∀ b', key.binding = some b' → s.quiet .custodyAsk → rest.length < internalCapacity →
            answer { u with
              custody := stage (.binding .source)
              measure := { u.measure with internal := rest ++ [.check .custody b' true] } } (refused .unbound 1))
          ∧ (key.binding = none → key.limit = none → s.census.state = .healthy → answer sealed (refused .unbound 1)))
        ∧ (s.custody.work = working c (.binding .source) false →
          (key.limit ≠ none → answer (refused .notPermitted 0) (refused .unbound 0))
          ∧ (key.limit = none → s.census.state = .healthy → answer sealed (refused .unbound 0))
          ∧ (key.limit = none → s.census.state = .doubt → answer { u with
            custody := stage .gate, census := { s.census with waiters := s.census.waiters ++ [.custody] } } (refused .unbound 0))
          ∧ (key.limit = none → s.census.state = .failed → answer { u.givesBack c .entropy none [] with
            custody := { s.custody with work := none, undo := none } } (refused .unbound 0))))
    ∧ ∀ i e, asker = .credential → s.credential.work = working c (.binding i) false → s.cred i = some e →
      let secret := (e.record.secret.map openSecret).getD []
      let free : Credential := { s.credential with work := none }
      answer { u.givesBack c .done (some (BitVec.ofNat 32 secret.length)) (outBytes secret) with credential := free }
        { u.givesBack c .unbound none [] with credential := free }

/-! ## Updates -/

/-- ANCHOR INSTALL and ANCHOR REMOVE whose checks pass: for a delegate slot the signed bytes go to the hash engine under the root key;
for slot 5 the owner's request goes to the custody unit (R64, R66, R67, R68). UPDATE OPEN with an idle session and a signer that permits
the kind sends the manifest's signed bytes to the hash engine; UPDATE FEED in an OPEN session continues the running digest over its
extents, and a feed beyond the image's length is refused OVERRUN with the bytes left (R62, R73, R75, R76; with an empty reply body, the
model's, log entry 16). The use total 0 and the empty label of the owner anchor's record are the model's (log entry 49). That the fields
checked here are read before the signature has verified is the order of R64, R67 and R73, which the model takes over R196's (log entry
74). -/
def Obligations.UpdateCardsBegin : Prop :=
  (∀ (s : State) (c : Card), s.update.session.signerSlot ≠ some (c.field 0 1) →
    let owner : Prop := s.lifecycle.effective = .claimed ∧ s.lifecycle.pending = false ∧ s.lifecycle.presence.isSome = true
    let verifying (root : PublicKey) (n : Nat) : State := { s.begins c with
      update := { s.update with work := working c (.verifyHash root) false }
      hash := s.hash.submit .update (shaJob (c.fieldBytes 1 n)) }
    (∀ root, s.updateReady 0x0301#16 = some c → anchorInstallForm c = none → c.field 0 1 ≠ 5 → s.lifecycle.effective ≠ .blank →
      s.publicKeyOf 0 = some root → exec .anchorInstall s = .next (verifying root 72))
    ∧ (s.updateReady 0x0301#16 = some c → anchorInstallForm c = none → c.field 0 1 = 5 → owner →
      exec .anchorInstall s = .next { s.begins c with
        update := { s.update with work := working c .ownerInstall true }
        custody := { s.custody with held := s.custody.held ++ [.install 5
          { state := .live, cls := .ownerAnchor, material := .p256 none (c.fieldStr 1 512), flags := KeyFlags.none, binding := none,
            limit := none, total := 0, label := [], anchor := some { kinds := c.byte 81, serial := none } } .update] } })
    ∧ (∀ root r a, s.updateReady 0x0302#16 = some c → anchorRemoveForm c = none → c.field 0 1 ≠ 5 → s.publicKeyOf 0 = some root →
      s.slot (c.slot 0) = some r → r.anchor = some a → a.serial = some (c.fieldStr 4 32) →
      exec .anchorRemove s = .next (verifying root 7))
    ∧ ∀ r, s.updateReady 0x0302#16 = some c → anchorRemoveForm c = none → c.field 0 1 = 5 → owner → s.slot 5 = some r →
      exec .anchorRemove s = .next { s.begins c with
        update := { s.update with work := working c .ownerRemove true }
        custody := { s.custody with held := s.custody.held ++ [.remove 5] } })
    ∧ ((∀ (s : State) (c : Card) (r : KeyRecord) (pub : PublicKey), s.updateReady 0x0303#16 = some c → updateOpenForm c = none →
      s.update.session = .idle →
      let slot := c.slot 41
      slot = 0 ∨ slot = 2 ∨ slot = 3 ∨ slot = 4
        ∨ (slot = 5 ∧ s.lifecycle.effective = .claimed ∧ s.lifecycle.presence.isSome = true) →
      s.slot slot = some r → r.material.publicKey = some pub →
      (slot ≠ 0 → ∃ a, r.anchor = some a ∧ a.kinds.getLsbD c.kind.val = true) →
      exec .updateOpen s = .next { s.begins c with
        update := { s.update with work := working c (.verifyHash pub) false }
        hash := s.hash.submit .update (shaJob (c.fieldBytes 0 43)) })
    ∧ ∀ (s : State) (c : Card) (x : OpenSession), s.updateReady 0x0304#16 = some c → feedForm c = none →
      s.update.session = .opened x →
      (x.fed + c.extentTotal ≤ x.length → exec .updateFeed s = .next { s.begins c with
        update := { s.update with work := working c .feed false }
        hash := s.hash.submit .update
          { fn := .sha256, absorbed := x.running, source := .extents c.extentSource
            finalize := decide (x.fed + c.extentTotal = x.length) } })
      ∧ (x.length < x.fed + c.extentTotal → s.update.wipe ≠ .held → s.carries →
        exec .updateFeed s = .next { (s.begins c).givesBack c .overrun (some (BitVec.ofNat 32 (x.length - x.fed))) [] with
          update := { s.update with work := none } }))

/-- What the verification of a signature leads to: an installation request, the write of a raised mark or a removal request, and an OPEN
session; a delegate's serial at or below the high-water value, and a version below the floor without the downgrade exception, is refused
ROLLBACK, a kind on trial TRIAL PENDING, and a signature that does not verify BAD SIGNATURE (R64, R65, R67, R73, R74). The use total 0 and
the empty label of the delegate's record are the model's (log entry 49), and so are the empty reply bodies of these refusals (log entry
16). The session is IDLE for UPDATE OPEN, and no other curve operation waits here. A verify answers invalid, and the card is refused BAD
SIGNATURE, for a key that is no point of the curve, for either half of the signature out of range, and for a signature that does not
verify over the digest, the halves read most significant byte first (R144, R188). The equation of the curve, its constants and the range
of the halves are the model's, taken from the standard (log entries 20 and 66). -/
def Obligations.SignaturesDecide : Prop :=
  ∀ (s : State) (c : Card) (pub : PublicKey) (d : Digest) (sig : Signature), s.powered = true → s.curve.update = none →
    s.curve.measure = none → s.curve.custody = none → s.curve.lifecycle = none →
    s.curve.running = some { client := .update, op := .verify pub d sig } → s.update.work = working c .verifyCurve false →
    s.update.wipe ≠ .held → s.carries →
    let u : State := { s with curve := { s.curve with running := none, pointer := .update } }
    let refused (o : CardOutcome) : State := { u.givesBack c o none [] with update := { s.update with work := none } }
    let half (v : BitVec 512) (i : Nat) : Nat := leNat (sliceBytes (strBytes v) (32 * i) 32).reverse
    let p := Config.curvePrime
    let onCurve : Bool := decide (half pub 0 < p ∧ half pub 1 < p
      ∧ (half pub 1 * half pub 1 + 3 * half pub 0) % p = (half pub 0 * half pub 0 * half pub 0 + Config.curveConstant) % p)
    let inRange (i : Nat) : Bool := decide (1 ≤ half sig i ∧ half sig i < Config.curveOrder)
    let valid : Bool := onCurve && inRange 0 && inRange 1 && Config.ecdsaVerify pub d sig
    let decides (good : State) : Prop := exec .curveOperationComplete s = .next (if valid then good else refused .badSignature)
    (onCurve = false ∨ inRange 0 = false ∨ inRange 1 = false → exec .curveOperationComplete s = .next (refused .badSignature))
    ∧ (c.code = 0x0301#16 →
      (s.highWater (c.slot 0) < (c.fieldStr 69 32 : Word32).toNat →
        decides { u with
          update := { s.update with work := working c .installSlot true }
          custody := { s.custody with held := s.custody.held ++ [.install (anchorSlot (c.slot 0).val)
            { state := .live, cls := .delegate, material := .p256 none (c.fieldStr 4 512), flags := KeyFlags.none, binding := none,
              limit := none, total := 0, label := []
              anchor := some { kinds := c.byte 84, serial := some (c.fieldStr 69 32) } } .update] } })
      ∧ ((c.fieldStr 69 32 : Word32).toNat ≤ s.highWater (c.slot 0) → decides (refused .rollback)))
    ∧ (c.code = 0x0302#16 →
      let serial : Word32 := c.fieldStr 4 32
      let i := markIndex (c.slot 0).val
      ((s.mark i).toNat < serial.toNat → s.storeRoom .update →
        decides { u with
          update := { s.update with work := working c .removeMark true }, store := s.store.queued (.mark i serial) .updateCard })
      ∧ (serial.toNat ≤ (s.mark i).toNat →
        decides { u with
          update := { s.update with work := working c .removeSlot true }
          custody := { s.custody with held := s.custody.held ++ [.remove (anchorSlot (c.slot 0).val)] } }))
    ∧ (c.code = 0x0303#16 → s.update.session = .idle →
      let below := decide (c.field 1 4 < (s.kindRecord c.kind).floor)
      let excepted : Prop := (c.byte 58).getLsbD 0 = true ∧ c.field 41 1 ≠ 5 ∧ s.lifecycle.presence.isSome = true
      let x : OpenSession :=
        { kind := c.kind, version := c.field 1 4, length := c.field 5 4, digest := c.fieldStr 9 256, slot := c.field 41 1
          signer := if c.field 41 1 = 0 then .root else if c.field 41 1 = 5 then .owner else .delegate
          belowFloor := below, fed := 0, running := [], idleStart := s.pace.tick }
      ((s.kindRecord c.kind).trial.isSome = true → decides (refused .trialPending))
      ∧ ((s.kindRecord c.kind).trial = none → below = true → ¬excepted → decides (refused .rollback))
      ∧ ((s.kindRecord c.kind).trial = none → below = false ∨ excepted →
        decides { u.givesBack c .done none
            (outNum 1 x.kind.val ++ outNum 4 x.version ++ outNum 4 x.length ++ outNum 1 x.signer.code ++ outNum 1 below.toNat) with
          update := { s.update with session := .opened x, guardOn := false, work := none } }))

/-- The end of the last piece of a feed: its bytes are counted; with bytes still to come the card settles DONE with what is left; with the
image complete the session is CHECKED under the guard line when the digest is the manifest's, and IDLE otherwise; a failed read ends the
session, and so does one that a loss of the link has cut, though the link be up again (R76, R77, R78, R80, R91; with an empty reply body,
the model's, log entry 16). The end of a piece that is not the feed's last adds its bytes to the bytes fed and to the running digest state,
and the job waits again in its place with the rest of its extents; the read of such a piece fails as that of the last one does (R78, R140,
R142). The engine gives a digest only to the feed that completes the image (R139). The digest of the signed bytes of
a delegate certificate, a removal order or a manifest goes to the curve engine with the card's signature, and that of UPDATE CONFIRM's
expected chain value sends the chain read (R64, R67, R73, R84). Start-up has ended here. That an access past the last 64-bit address goes
on at address 0 is the model's (log entry 64). -/
def Obligations.FeedsEnd : Prop :=
  (∀ (s : State) (h : HostWrites) (answered : Bool) (c : Card) (x : OpenSession) (i n : Nat) (a : Word64) (cut : Bool),
    s.powered = true → s.startUp = .ended →
    s.hash.running = some { client := .update, withdrawn := false
                            job := { fn := .sha256, absorbed := x.running, source := .extents [(i, a, n)]
                                     finalize := decide (x.fed + n = x.length) } } →
    s.update.work = accessing c .feed false cut → s.update.session = .opened x → n ≤ 4096 → s.update.wipe ≠ .held → s.carries →
    let bytes := Memory.readBytes (Memory.hostStores s.host h) a.toNat n
    let digest := Config.sha256 (x.running ++ bytes)
    let u : State := { s with host := Memory.hostStores s.host h, hash := ({ s.hash with pointer := .update }).release }
    let ends (session : Session) (t : State) : State :=
      { t with update := { s.update with session := session, work := none, guardOn := decide (session.code = 2) || s.update.guardOn } }
    (answered = true → s.linkUp = true → cut = false → x.fed + n < x.length →
      exec (.hashPieceEnd h answered) s = .next (ends (.opened { x with fed := x.fed + n, running := x.running ++ bytes })
        (u.givesBack c .done (some 1#32) (outNum 4 (x.fed + n) ++ outNum 4 (x.length - (x.fed + n))))))
    ∧ (answered = true → s.linkUp = true → cut = false → x.fed + n = x.length →
      exec (.hashPieceEnd h answered) s = .next
        (if digest = x.digest then
          ends (.checked { kind := x.kind, version := x.version, digest := x.digest, slot := x.slot, signer := x.signer,
                           guardStart := s.pace.tick })
            (u.givesBack c .done (some 2#32) (outNum 1 x.kind.val ++ outNum 4 x.version ++ outBytes (strBytes x.digest)))
        else ends .idle (u.givesBack c .digestMismatch none (outBytes (strBytes digest)))))
    ∧ (answered = false ∨ s.linkUp = false ∨ cut = true →
      exec (.hashPieceEnd h answered) s = .next (ends .idle (u.givesBack c .linkFault (some (BitVec.ofNat 32 x.fed)) []))))
    ∧ (∀ (s : State) (h : HostWrites) (answered final cut : Bool) (c : Card) (x : OpenSession) (i n : Nat) (a : Word64)
      (rest : List (Nat × Word64 × Nat)), s.powered = true → s.startUp = .ended →
      s.hash.running = some { client := .update, withdrawn := false
                              job := { fn := .sha256, absorbed := x.running, source := .extents ((i, a, n) :: rest), finalize := final } } →
      s.update.work = accessing c .feed false cut → s.update.session = .opened x → 4096 < n ∨ rest ≠ [] →
      let found : Memory := Memory.hostStores s.host h
      let bytes := Memory.readBytes found a.toNat (min n 4096)
      let e : HashEngine := { s.hash with pointer := .update }
      let left := if n ≤ 4096 then rest else (i, a + 4096#64, n - 4096) :: rest
      (answered = true → s.linkUp = true → cut = false →
        exec (.hashPieceEnd h answered) s = .next { s with
          host := found
          update := { s.update with session := .opened { x with fed := x.fed + min n 4096, running := x.running ++ bytes } }
          hash := ({ e with
            update := some { fn := .sha256, absorbed := x.running ++ bytes, source := .extents left, finalize := final } }).release })
      ∧ (answered = false ∨ s.linkUp = false ∨ cut = true → s.update.wipe ≠ .held → s.carries →
        exec (.hashPieceEnd h answered) s = .next
          { ({ s with host := found, hash := e.release }).givesBack c .linkFault (some (BitVec.ofNat 32 x.fed)) [] with
            update := { s.update with session := .idle, work := none } }))
    ∧ ∀ (s : State) (h : HostWrites) (answered : Bool) (c : Card) (input : List Byte), s.powered = true → s.startUp = .ended →
      input.length ≤ 4096 → s.hash.running = some { client := .update, job := shaJob input, withdrawn := false } →
      let digest := Config.sha256 input
      let u : State := { s with host := Memory.hostStores s.host h, hash := ({ s.hash with pointer := .update }).release }
      (∀ pub sig, s.update.work = working c (.verifyHash pub) false →
        (c.code = 0x0301#16 ∧ sig = c.fieldStr 73 512) ∨ (c.code = 0x0302#16 ∧ sig = c.fieldStr 8 512)
          ∨ (c.code = 0x0303#16 ∧ sig = c.fieldStr 43 512) →
        exec (.hashPieceEnd h answered) s = .next { u with
          update := { s.update with work := working c .verifyCurve false }
          curve := s.curve.submit s.identityScalar .update (.verify pub digest sig) })
      ∧ ∀ chain : Fin 11, s.update.work = working c .confirmHash false → c.field 1 1 = chain.val → s.measureRoom .updateAsk →
        exec (.hashPieceEnd h answered) s = .next { u with
          update := { s.update with work := working c (.confirmChain digest) false }
          measure := s.measure.asked (.chainRead chain true) }

/-- UPDATE CANCEL, UPDATE COMMIT of a CHECKED session, UPDATE CONFIRM and UPDATE REVERT of a kind on trial, and BOOT ADVICE (R81, R82,
R84, R86, R87). The last clauses spell, field by field with their lengths, the 79 bytes of a BOOT ADVICE entry, zeroed where a record is
absent, and the reply's session part, a byte that the session's state does not give being open (R87, R194, R195; log entry 5). That the
session part is read when the card begins is the model's (log entry 46). -/
def Obligations.TrialCardsBegin : Prop :=
  (∀ (s : State) (c : Card),
    (s.updateReady 0x0305#16 = some c → noFieldsForm c = none → s.update.wipe ≠ .held → s.carries →
      exec .updateCancel s = .next { (s.begins c).givesBack c .done (some (BitVec.ofNat 32 s.update.session.code)) [] with
        update := { s.update with
          session := .idle, guardOn := if s.update.session.code = 2 then false else s.update.guardOn, work := none }
        lifecycle := { s.lifecycle with
          notices := if s.update.session.code = 2 then s.lifecycle.notices + 1 else s.lifecycle.notices } })
    ∧ (∀ x, s.updateReady 0x0306#16 = some c → noFieldsForm c = none → s.update.session = .checked x → s.storeRoom .update →
      let record := { s.kindRecord x.kind with
        trial := some { version := x.version, digest := x.digest, signer := x.signer, boots := 3 } }
      exec .updateCommit s = .next { s.begins c with
        update := { s.update with work := working c (.commit record) true }
        store := s.store.queued (.kind x.kind record) .updateCard })
    ∧ (∀ x, s.updateReady 0x0307#16 = some c → updateConfirmForm c = none → (s.kindRecord c.kind).trial = some x →
      exec .updateConfirm s = .next { s.begins c with
        update := { s.update with work := working c .confirmHash false }
        hash := s.hash.submit .update (shaJob (strBytes (0#256 : Digest) ++ strBytes x.digest)) })
    ∧ (∀ x, s.updateReady 0x0308#16 = some c → updateRevertForm c = none → (s.kindRecord c.kind).trial = some x →
      s.storeRoom .update →
      let record := { s.kindRecord c.kind with trial := none }
      exec .updateRevert s = .next { s.begins c with
        update := { s.update with work := working c (.revert record) true }
        store := s.store.queued (.kind c.kind record) .updateCard })
    ∧ (s.updateReady 0x0309#16 = some c → bootAdviceForm c = none →
      let advice := (List.finRange 8).flatMap fun k => adviceEntry (s.kindRecord k)
      exec .bootAdvice s = .next { s.begins c with
          update := { s.update with work := working c (.writeOut advice none s.adviceReply) false } }
        ∧ advice.length = 632))
    ∧ (∀ k : KindRecord, outBytes (adviceEntry k) = replyNum 4 k.floor
        ++ (match k.confirmed with
          | some x => replyNum 1 1 ++ replyNum 4 x.version ++ replyNum 32 x.digest.toNat
          | none => replyNum 37 0)
        ++ match k.trial with
          | some x => replyNum 1 1 ++ replyNum 4 x.version ++ replyNum 32 x.digest.toNat ++ replyNum 1 x.boots
          | none => replyNum 38 0)
    ∧ ∀ s : State, s.adviceReply = match s.update.session with
      | .idle => replyNum 1 0 ++ replyOpen 9
      | .opened x => replyNum 1 1 ++ replyNum 1 x.kind.val ++ replyNum 4 x.fed ++ replyOpen 4
      | .checked x => replyNum 1 2 ++ replyOpen 5 ++ replyNum 4 (3600 - (s.pace.tick - x.guardStart).toNat)

/-- The idle timer ends an OPEN session 480 ticks after its start unless a feed is queued; the guard timer ends a CHECKED session after
3600 ticks, releases the guard line and tells the lifecycle controller. Before that neither does anything (R79, R80). -/
def Obligations.SessionTimersExpire : Prop :=
  (∀ (s : State) (x : OpenSession), s.powered = true → s.update.session = .opened x →
      (480 ≤ elapsed s.pace.tick x.idleStart → (∀ b ∈ s.exch.buffers, b.unit = some .update → b.card.code ≠ 0x0304#16) →
        exec .idleTimerExpiry s = .next { s with update := { s.update with session := .idle } })
      ∧ (elapsed s.pace.tick x.idleStart < 480 ∨ (∃ b ∈ s.exch.buffers, b.unit = some .update ∧ b.card.code = 0x0304#16) →
        exec .idleTimerExpiry s = .next s))
    ∧ ∀ (s : State) (x : CheckedSession), s.powered = true → s.update.session = .checked x →
      (3600 ≤ elapsed s.pace.tick x.guardStart → (∀ w, s.update.work = some w → w.card.code ≠ 0x0306#16) → s.update.wipe ≠ .held →
        exec .guardTimerExpiry s = .next { s with
          update := { s.update with session := .idle, guardOn := false }
          lifecycle := { s.lifecycle with notices := s.lifecycle.notices + 1 } })
      ∧ (elapsed s.pace.tick x.guardStart < 3600 ∨ (∃ w, s.update.work = some w ∧ w.card.code = 0x0306#16) →
        exec .guardTimerExpiry s = .next s)

/-- The wipe order at the update unit: held while the session is CHECKED; otherwise a session signed by the owner ends, and each trial
signed by the owner, in ascending order, is removed from the table, then from the store, with its part event; an order with nothing to
remove is answered at once (R88, R89). That an event is accepted in an act of its own after its write is sent is the model's (log entry
43): with several such trials, the next one's write goes out when the event before it has been accepted, and an order whose writes have
ended is answered when its last event has been accepted (R38, R89). An order held by a CHECKED session is served at the moment the session
leaves CHECKED, by UPDATE CANCEL, by the guard timer, by a commit's end, or by a commit's STORE FAULT past the guard limit (the ticks of the
hold counting, the model's, log entry 11): the step does what the order would do if it arrived in the state the session leaves behind, the
trial just committed among those it removes (R80, R81, R82, R89). A STORE FAULT within the limit keeps session and order. Where the guard
timer expires with another card in work the order waits for that card, here a BOOT ADVICE, and is served when it is handed back: the model's
(log entry 42). Start-up has ended in the clauses of the writes. -/
def Obligations.UpdateUnitWipes : Prop :=
  (∀ s : State, s.powered = true → s.update.wipe = .arrived → s.update.work = none → s.update.service = none → s.quiet .updateWipe →
    let session : Session := match s.update.session with
      | .opened c => if c.signer = .owner then .idle else .opened c
      | .idle => .idle
      | .checked c => .checked c
    let owned (k : Fin 8) : Prop := ∃ x, (s.kindRecord k).trial = some x ∧ x.signer = .owner
    let event (k : Fin 8) : Out := .request (.event
      (.updateLapsed k (((s.kindRecord k).trial.map (·.version)).getD 0) .ownerSignerRemoved))
    let write (k : Fin 8) : Write := .kind k { s.kindRecord k with trial := none }
    (∀ x, s.update.session = .checked x →
      exec .updateWipeOrder s = .next { s with update := { s.update with wipe := .held } })
    ∧ ((∀ x, s.update.session ≠ .checked x) → (∀ k, ¬owned k) →
      exec .updateWipeOrder s = .next { s with
        update := { s.update with session := session, wipe := .none }
        lifecycle := { s.lifecycle with
          answersSent := { s.lifecycle.answersSent with update := some { erased := 0, failed := 0 } } } })
    ∧ (∀ k rest, (∀ x, s.update.session ≠ .checked x) → s.ownerTrials = k :: rest → s.store.queue.length < storeCapacity →
      s.measure.starting = false →
      let n := s.ownerTrials.length
      ∃ t, exec .updateWipeOrder s = .next t
        ∧ (∀ j, owned j → t.kindRecord j = { s.kindRecord j with trial := none }) ∧ (∀ j, ¬owned j → t.kindRecord j = s.kindRecord j)
        ∧ t.update.session = session ∧ t.update.wipe = .none ∧ t.update.service = some { removed := n, outstanding := n, failed := 0 }
        ∧ t.store = s.store.queued (write k) .updateWipe
        ∧ t.outboxes = s.outboxes.set .updateWipe (event k :: (rest.flatMap fun j => [.write (write j) .updateWipe, event j])
          ++ [.act .updateWipeSent])
        ∧ t.measureWaiting = s.measureWaiting ++ [.updateWipe] ∧ t.measure = s.measure ∧ t.lifecycle = s.lifecycle
        ∧ t.custody = s.custody ∧ t.credential = s.credential ∧ t.exch = s.exch)
    ∧ (∀ k, k ∈ s.ownerTrials ↔ owned k) ∧ s.ownerTrials.Pairwise (· < ·))
    ∧ (∀ (s : State) (e f : PartEvent) (k : Fin 8) (r : KindRecord) (n : WipeCount), s.update.service = some n →
      (s.eventWaits .updateWipe e [.write (.kind k r) .updateWipe, .request (.event f), .act .updateWipeSent] →
        s.store.queue.length < storeCapacity → 0 < n.outstanding →
        exec .partEvent s = .next { s.eventTaken .updateWipe e with
          store := s.store.queued (.kind k r) .updateWipe
          measure := { s.measure with internal := [.event e, .event f], service := some (.eventDigest e) } })
      ∧ (s.eventWaits .updateWipe e [.act .updateWipeSent] →
        exec .partEvent s = .next (if n.outstanding = 0 then
          { s.eventTaken .updateWipe e with
            update := { s.update with service := none }
            lifecycle := { s.lifecycle with
              answersSent := { s.lifecycle.answersSent with update := some { erased := n.removed, failed := n.failed } } } }
        else s.eventTaken .updateWipe e)))
    ∧ (∀ (s : State) (x : CheckedSession), s.powered = true → s.update.wipe = .held → s.update.session = .checked x →
      s.update.service = none →
      let left : Update := { s.update with session := .idle, guardOn := false }
      let told : Lifecycle := { s.lifecycle with notices := s.lifecycle.notices + 1 }
      (3600 ≤ elapsed s.pace.tick x.guardStart →
        (s.update.work = none → exec .guardTimerExpiry s
          = exec .updateWipeOrder { s with update := { left with wipe := .arrived }, lifecycle := told })
        ∧ ∀ w, s.update.work = some w → w.card.code ≠ 0x0306#16 →
          exec .guardTimerExpiry s = .next { s with update := left, lifecycle := told })
      ∧ (∀ c, s.updateReady 0x0305#16 = some c → noFieldsForm c = none → s.carries → exec .updateCancel s
          = exec .updateWipeOrder { (s.begins c).givesBack c .done (some 2#32) [] with
            update := { left with work := none, wipe := .arrived }, lifecycle := told })
      ∧ ∀ (k : Fin 8) (v : KindRecord) (new : Trial) (first second : Bool) (rest : List WriteRequest) (c : Card),
        s.inWrite (.kind k v) .updateCard rest → s.update.work = working c (.commit v) true → v.trial = some new → s.quiet .updateWipe →
        s.store.queue.length < storeCapacity → s.measure.starting = false →
        let ok := s.endsDone (.kind k v) first second
        let u := s.wrote (.kind k v) first second rest
        let ends (o : Host.Outcome State Fault Refusal) : Prop := exec (.storeWriteEnd first second) s = o
        let fails : State := u.storeFaulted.givesBack c .storeFault none []
        (ok = true → ends (exec .updateWipeOrder
          { u.givesBack c .done none (outNum 1 k.val ++ outNum 4 new.version ++ outNum 1 new.boots) with
            update := { left with kinds := tableSet s.update.kinds k v, work := none, wipe := .arrived }, lifecycle := told }))
        ∧ (ok = false → 3600 ≤ elapsed s.pace.tick x.guardStart → ends (exec .updateWipeOrder
          { fails with update := { left with work := none, wipe := .arrived }, lifecycle := told }))
        ∧ (ok = false → elapsed s.pace.tick x.guardStart < 3600 →
          ends (.next { fails with update := { s.update with work := none } })))
    ∧ ∀ (s : State) (c : Card) (h : HostWrites) (l : List Byte) (d : Option Word32) (body : List OutByte), s.powered = true →
      s.linkUp = true → s.carries → s.update.wipe = .held → (∀ x, s.update.session ≠ .checked x) → s.update.service = none →
      s.update.work = working c (.writeOut l d body) false →
      exec (.extentDmaEnd .update h .answered) s = exec .updateWipeOrder
        { ({ s with host := Memory.writeBytes (Memory.hostStores s.host h) (c.extentAddress 0) l }).givesBack c .done d body with
          update := { s.update with work := none, wipe := .arrived } }

/-- The end of the store write of an update card, DONE or STORE FAULT, and of the request that an anchor card has sent the custody unit
(R21, R65, R66, R67, R68, R80, R82, R85, R86): a commit's trial is taken by the table, the session leaves CHECKED with its notice, and a
fault keeps the session unless the guard limit has passed, which then ends it at once, the ticks of the hold counting (the model's, log
entry 11); a confirm's record is taken and its part event sent, after whose acceptance the card settles; a revert, a mark and a removed
anchor are taken by their tables. An owner anchor that the custody unit has installed sends OWNER ANCHOR INSTALLED, after whose acceptance
its card settles DONE, and a fault leaves slot 5 as it was (R66). The detail word of an installation's second fault names the mark by a free
value (log entry 31). The reply bodies of DONE are R194's, those of a revert, a removal and the owner anchor's installation empty; the empty
reply bodies of the refusals are the model's (log entry 16), and so is the event's acceptance in an act of its own (log entry 43). -/
def Obligations.UpdateWritesEnd : Prop :=
  (∀ (s : State) (w : Write) (first second : Bool) (rest : List WriteRequest) (c : Card), s.inWrite w .updateCard rest →
    s.update.wipe ≠ .held →
    let ok := s.endsDone w first second
    let u := s.wrote w first second rest
    let ends (t : State) : Prop := exec (.storeWriteEnd first second) s = .next t
    let fails (d : Option Word32) : State :=
      { u.storeFaulted.givesBack c .storeFault d [] with update := { s.update with work := none } }
    let left : Update := { s.update with session := .idle, guardOn := false, work := none }
    let told : Lifecycle := { s.lifecycle with notices := s.lifecycle.notices + 1 }
    (∀ k v x t, w = .kind k v → s.update.work = working c (.commit v) true → s.update.session = .checked x → v.trial = some t →
      (ok = true → ends { u.givesBack c .done none (outNum 1 k.val ++ outNum 4 t.version ++ outNum 1 t.boots) with
        update := { left with kinds := tableSet s.update.kinds k v }, lifecycle := told })
      ∧ (ok = false → elapsed s.pace.tick x.guardStart < 3600 → ends (fails none))
      ∧ (ok = false → 3600 ≤ elapsed s.pace.tick x.guardStart → ends { fails none with update := left, lifecycle := told }))
    ∧ (∀ k v version signer below, w = .kind k v → s.update.work = working c (.confirm v version signer below) true →
      (ok = true → s.quiet .updateAsk → s.outboxes.updateWipe = [] → s.measure.starting = false →
        ends ({ u with update :=
            { s.update with kinds := tableSet s.update.kinds k v, work := working c .sendingEvent true } }.awaits .updateAsk
          [.request (.event (.updateConfirmed k version signer below)),
           .act (.updateSettle .done none (outNum 4 v.floor ++ outNum 4 version ++ outNum 1 below.toNat))]))
      ∧ (ok = false → ends (fails none)))
    ∧ (∀ k v, w = .kind k v → s.update.work = working c (.revert v) true →
      (ok = true → ends { u.givesBack c .done none [] with
        update := { s.update with kinds := tableSet s.update.kinds k v, work := none } })
      ∧ (ok = false → ends (fails none)))
    ∧ (∀ i v, w = .mark i v → s.update.work = working c .installMark true →
      (ok = true → ends { u.givesBack c .done none (outNum 1 (c.slot 0).val ++ outNum 4 v.toNat) with
        update := { s.update with marks := tableSet s.update.marks i v, work := none } })
      ∧ (ok = false → ends (fails (some (Config.recordName (34 + i.val))))))
    ∧ ∀ i v, w = .mark i v → s.update.work = working c .removeMark true →
      (ok = true → ends { u with
        update := { s.update with marks := tableSet s.update.marks i v, work := working c .removeSlot true }
        custody := { s.custody with held := s.custody.held ++ [.remove (anchorSlot (c.slot 0).val)] } })
      ∧ (ok = false → ends (fails none)))
    ∧ (∀ (s : State) (w : Write) (first second : Bool) (rest : List WriteRequest) (c : Card) (i : Fin 6),
      s.inWrite w .custodyRequest rest → (∀ j v, w ≠ .cred j v) → s.update.wipe ≠ .held →
      let ok := s.endsDone w first second
      let u := s.wrote w first second rest
      let ends (t : State) : Prop := exec (.storeWriteEnd first second) s = .next t
      let fails (d : Option Word32) : State :=
        { u.storeFaulted.givesBack c .storeFault d [] with
          update := { s.update with work := none }, custody := { s.custody with service := none } }
      let table (v : Option KeyRecord) := tableSet s.custody.table (⟨i.val, by omega⟩ : Fin 48) v
      (∀ r, s.custody.service = some (.install i r .update) → s.update.work = working c .installSlot true →
        (ok = true → s.storeRoom .update →
          let m : Write := .mark (markIndex (c.slot 0).val) (c.fieldStr 69 32)
          ends { u with
            custody := { s.custody with table := table (some r), service := none }
            update := { s.update with work := working c .installMark true }
            store := u.store.queued m .updateCard })
        ∧ (ok = false → ends (fails (some (BitVec.ofNat 32 (c.slot 0).val)))))
      ∧ (∀ r, s.custody.service = some (.install i r .update) → s.update.work = working c .ownerInstall true →
        (ok = true → s.quiet .updateAsk → s.outboxes.updateWipe = [] → s.measure.starting = false →
          ends ({ u with
            custody := { s.custody with table := table (some r), service := none }
            update := { s.update with work := working c .sendingEvent true } }.awaits .updateAsk
              [.request (.event .ownerAnchorInstalled), .act (.updateSettle .done none [])]))
        ∧ (ok = false → ends (fails none)))
      ∧ ∀ stage, stage = .removeSlot ∨ stage = .ownerRemove → s.custody.service = some (.remove i) →
        s.update.work = working c stage true →
        (ok = true → ends { u.givesBack c .done none [] with
          custody := { s.custody with table := table none, service := none }, update := { s.update with work := none } })
        ∧ (ok = false → ends (fails none)))
    ∧ ∀ (s : State) (c : Card) (e : PartEvent) (o : CardOutcome) (d : Option Word32) (b : List OutByte),
      s.eventWaits .updateAsk e [.act (.updateSettle o d b)] → s.outboxes.updateWipe = [] → s.update.wipe ≠ .held → s.carries →
      s.update.work = working c .sendingEvent true →
      exec .partEvent s = .next { (s.eventTaken .updateAsk e).givesBack c o d b with update := { s.update with work := none } }

/-! ## Credentials -/

/-- The pacing of CRED VERIFY (R98, R99, R105): a record whose working debt has reached its lock is THROTTLED; one attempted sooner than
its spacing, debt / 512 ticks, is TOO SOON with the ticks still to wait; any other is admitted: the record is busy, the card is committed,
and the HMAC of salt and secret goes to the hash engine. -/
def Obligations.AttemptsArePaced : Prop :=
  ∀ (s : State) (c : Card) (e : CredEntry), s.credReady 0x0402#16 = some c → credVerifyForm c = none →
    s.lifecycle.pending = false → s.cred c.place = some e → e.attempt = false → e.writes = 0 →
    let debt := e.working
    let lock := e.record.policy.lock
    let passed := (s.pace.tick - e.record.lastTick).toNat
    (lock ≤ debt → s.carries →
      exec .credVerify s = .next { (s.begins c).givesBack c .throttled (some (BitVec.ofNat 32 debt))
          (outNum 2 debt ++ outNum 2 lock ++ outNum 1 (debt / 512)) with
        credential := { s.credential with work := none } })
    ∧ (debt < lock → passed < debt / 512 → s.carries →
      exec .credVerify s = .next { (s.begins c).givesBack c .tooSoon (some (BitVec.ofNat 32 (debt / 512 - passed)))
          (outNum 2 debt ++ outNum 1 (debt / 512)) with
        credential := { s.credential with work := none } })
    ∧ (debt < lock → debt / 512 ≤ passed →
      exec .credVerify s = .next { s.begins c with
        credential := { s.credential with
          table := tableSet s.credential.table c.place (some { e with attempt := true })
          work := working c (.compare c.place debt s.pace.tick none) true }
        hash := s.hash.submit .credential
          { fn := .hmac Config.credentialKey, absorbed := [], finalize := true
            source := .own (strBytes e.record.salt ++ c.fieldBytes 2 (c.field 1 1)) } })

/-- The result of an attempt by CRED VERIFY, by a claim or with CRED REPLACE's old secret is written before it is answered (R99, R100, R108,
R111): after a match a quarter of the debt stays; after a mismatch the charge is added up to 65535, saturation and one more failure are
recorded; the attempt's tick is the record's last. A match of CRED REPLACE's old secret draws and computes the new verifier instead, and
keeps the match's debt and tick for that write (R112). The end of an attempt's write (R100, R105, R106): DONE, the table takes the record
with its debt as the working debt, and the card settles MISMATCH, or MATCHED for a RELEASABLE record, or asks the lifecycle controller for
presence for an ADMIN one, or, after a claim's match, computes the administrator's verifier (R109); on a fault the record stays as it was,
no longer attempted. The empty reply body of that fault is the model's (log entry 16), and so are the free presence bytes of a
MATCHED reply for a record that is not ADMIN (log entry 28), the one draw for salt and nonce (log entry 22), and the grant that may follow
the same end (log entry 53). Start-up has ended here. -/
def Obligations.AttemptsAreWrittenAndEnd : Prop :=
  (∀ (s : State) (h : HostWrites) (answered : Bool) (c : Card) (id : Fin 32) (debt : Nat) (tick : Word32) (e : CredEntry)
    (secret : List Byte) (claim : Option Salt), s.powered = true → s.startUp = .ended → secret.length ≤ 64 → s.credential.service = none →
    s.hash.running = some { client := .credential, job := verifierJob e.record.salt secret, withdrawn := false } →
    s.credential.work = working c (.compare id debt tick claim) true → s.cred id = some e →
    let hit := decide (Config.hmacSha256 Config.credentialKey (strBytes e.record.salt ++ secret) = e.record.verifier)
    let r : CredRecord := if hit then { e.record with debt := debt / 4, lastTick := tick }
      else { e.record with
        debt := min 65535 (debt + e.record.policy.charge)
        saturated := e.record.saturated || decide (65535 < debt + e.record.policy.charge)
        failures := min 65535 (e.record.failures + 1), lastTick := tick }
    let pointed : HashEngine := { s.hash with pointer := .credential }
    (c.code ≠ 0x0404#16 ∨ hit = false → s.storeRoom .credential → s.outboxes.refresh = [] →
      exec (.hashPieceEnd h answered) s = .next { s with
        host := Memory.hostStores s.host h
        hash := pointed.release
        credential := { s.credential with
          table := tableSet s.credential.table id (some { e with writes := e.writes + 1 })
          work := working c (.attemptWrite id r hit claim) true }
        store := s.store.queued (.cred id (some r)) .credCard })
    ∧ (∀ n, c.code = 0x0404#16 → hit = true → id = c.place → n = (if e.record.kind = .releasable then 28 else 16) →
      let drawn := drawnBytes s.census.seed n
      let salt : Salt := strOf 128 (drawn.take 16)
      let new := c.fieldBytes 3 (c.field 1 1)
      let copy := if e.record.kind = .releasable then some (sealSecret (strOf 96 (drawn.drop 16)) new) else none
      exec (.hashPieceEnd h answered) s = .next { s with
        host := Memory.hostStores s.host h
        hash := (pointed.submit .credential (verifierJob salt new)).release
        census := { s.census with seed := Config.drawAdvance s.census.seed n }
        credential := { s.credential with work := working c (.replaceHash id salt copy (some (debt / 4, tick))) true } }))
    ∧ (∀ (s : State) (first second : Bool) (rest : List WriteRequest) (c : Card) (id : Fin 32) (e : CredEntry) (r : CredRecord)
      (hit : Bool) (claim : Option Salt),
    s.powered = true → s.store.waiting = [] → s.store.queue = { write := .cred id (some r), answerTo := .credCard } :: rest →
    s.credential.work = working c (.attemptWrite id r hit claim) true → s.cred id = some e → s.carries →
    let result := (tableGet s.store.creds id).program (some r) s.store.map first second
    let u (x : CredEntry) (w : Option (Work CredStage)) : State := { s with
      credential := { s.credential with table := tableSet s.credential.table id (some { x with writes := e.writes - 1 }), work := w }
      store := { s.store with creds := tableSet s.store.creds id result.1, map := result.2.1, queue := rest } }
    let taken : CredEntry := { record := r, working := r.debt, writes := 0, attempt := false }
    (result.2.2 = true → hit = false →
      exec (.storeWriteEnd first second) s = .next ((u taken none).givesBack c .mismatch none
        (outNum 2 r.debt ++ outNum 1 (r.debt / 512) ++ outNum 1 r.saturated.toNat ++ outNum 2 r.failures
          ++ outNum 1 (decide (r.policy.lock ≤ r.debt)).toNat)))
    ∧ (result.2.2 = true → hit = true → claim = none → r.kind ≠ .admin →
      exec (.storeWriteEnd first second) s = .next ((u taken none).givesBack c .matched none
        (outNum 2 r.debt ++ outNum 1 (r.debt / 512) ++ [none, none, none])))
    ∧ (result.2.2 = true → hit = true → claim = none → r.kind = .admin →
      exec (.storeWriteEnd first second) s = .next (u taken (working c (.awaitPresence r.debt) true)))
    ∧ (∀ salt, result.2.2 = true → hit = true → claim = some salt →
      exec (.storeWriteEnd first second) s = .next { u taken (working c (.claimHash salt r.debt) true) with
        hash := s.hash.submit .credential (verifierJob salt (credEnrollFields c).secret) })
    ∧ (result.2.2 = false → s.startUp = .ended → s.resetLine = false → s.exch.attention ≠ 0#9 →
      ∃ t, exec (.storeWriteEnd first second) s = .next t ∧ t.cred id = some { e with writes := e.writes - 1, attempt := false }
        ∧ t.exch.attention = s.exch.attention ||| 8#9 ∧ t.store = (u e none).store
        ∧ t.exch.settleList = (s.givesBack c .storeFault none []).exch.settleList))

/-- The debt arithmetic (R97, R98, R99, R101): every decay step lowers a debt that is not zero, under every factor a policy can hold; a
policy below its ranges is raised to their lowest values; a match leaves at most a quarter of the debt, and a mismatch never lowers it and
leaves at most 65535. A decay step lowers the working debt of every record that is not busy and owes something, unless the census is
FAILED, and changes nothing else; a stored-debt refresh of one record writes its lowered debt (R101, R103). -/
def Obligations.DebtsDecay : Prop :=
  ((∀ d f : Nat, 0 < d → f ≤ 65535 → decayed d f < d)
    ∧ (∀ d f : Nat, 0 < d → f ≤ 65535 → (d * f + 32768) / 65536 ≠ d → decayed d f = (d * f + 32768) / 65536)
    ∧ (∀ p : Policy, 256 ≤ p.clamped.charge ∧ 32768 ≤ p.clamped.decay ∧ 4096 ≤ p.clamped.lock
      ∧ (256 ≤ p.charge → p.clamped.charge = p.charge) ∧ (32768 ≤ p.decay → p.clamped.decay = p.decay)
      ∧ (4096 ≤ p.lock → p.clamped.lock = p.lock))
    ∧ ∀ d c : Nat, d ≤ 65535 → 4 * debtAfterMatch d ≤ d ∧ d ≤ debtAfterMismatch d c ∧ debtAfterMismatch d c ≤ 65535)
    ∧ ((∀ s : State, s.powered = true → s.pace.decayDue = true →
      ∃ t, exec .decayStep s = .next t ∧ t.pace = { s.pace with decayDue := false }
        ∧ (s.census.state = .failed → t.credential = s.credential)
        ∧ (s.census.state ≠ .failed → ∀ i e, s.cred i = some e →
          ((e.attempt = true ∨ 0 < e.writes ∨ e.working = 0) → t.cred i = some e)
          ∧ (e.attempt = false → e.writes = 0 → 0 < e.working →
            t.cred i = some { e with working := decayed e.working e.record.policy.decay }))
        ∧ (∀ i, s.cred i = none → t.cred i = none) ∧ t.credential.work = s.credential.work
        ∧ t = { s with pace := t.pace, credential := t.credential })
    ∧ ∀ (s : State) (i : Fin 32) (e : CredEntry), s.powered = true → s.pace.refreshDue = true → s.pace.decayDue = false →
      s.cred i = some e → e.attempt = false → e.writes = 0 → e.working < e.record.debt →
      (∀ j x, j ≠ i → s.cred j = some x → x.record.debt ≤ x.working) → s.storeRoom .refresh →
      exec .storedDebtRefresh s = .next { s with
        pace := { s.pace with refreshDue := false }
        credential := { s.credential with table := tableSet s.credential.table i (some { e with writes := 1 }) }
        store := s.store.queued (.cred i (some { e.record with debt := e.working })) .credRefresh })

/-- R102: a decay step while the census is FAILED is held: it changes no working debt and nothing else, and is not made up later, since no
step is due any more. The lock and the spacing still apply to the working debt as it stands. Decay resumes at the first step with the
census HEALTHY or DOUBT. -/
def Obligations.DecayIsHeldWhileFailed : Prop :=
  (∀ s : State, s.powered = true → s.pace.decayDue = true → s.census.state = .failed →
    exec .decayStep s = .next { s with pace := { s.pace with decayDue := false } })
    ∧ (∀ s : State, s.powered = true → s.pace.decayDue = false → exec .decayStep s = .next s)
    ∧ (∀ (s : State) (c : Card) (e : CredEntry), s.census.state = .failed → s.credReady 0x0402#16 = some c → credVerifyForm c = none →
      s.lifecycle.pending = false → s.cred c.place = some e → e.attempt = false → e.writes = 0 → s.carries →
      let settles (o : CardOutcome) : Prop := ∃ t x, exec .credVerify s = .next t ∧ t.exch.settleList = s.exch.settleList ++ [x]
        ∧ x.card = c ∧ x.outcome = o ∧ t.credential.table = s.credential.table
      (e.record.policy.lock ≤ e.working → settles .throttled)
      ∧ (e.working < e.record.policy.lock → (s.pace.tick - e.record.lastTick).toNat < e.working / 512 → settles .tooSoon))
    ∧ ∀ (s : State) (i : Fin 32) (e : CredEntry), s.powered = true → s.pace.decayDue = true → s.census.state ≠ .failed →
      s.cred i = some e → e.attempt = false → e.writes = 0 → 0 < e.working → e.record.policy.decay ≤ 65535 →
      ∃ t x, exec .decayStep s = .next t ∧ t.cred i = some x ∧ x.record = e.record ∧ x.working < e.working

/-- CRED ENROLL with the census HEALTHY: an enrolment of the owner with presence open draws its salt, and a nonce for a RELEASABLE record,
and computes its verifier; a claim of an UNCLAIMED part draws a salt and makes an attempt at the FACTORY record with the pairing code
(R94, R107, R108). That salt and nonce are one draw, the salt first, is the model's (log entry 22). The end of the last piece of the
verifier's job brings the verifier: the new OWNER record, of an enrolment and of a claim's administrator, is written at the lowest empty
place, with nothing owed and its policy raised to its ranges (R97, R107, R109); that its last attempt tick is read then is the model's
(log entry 48). Start-up has ended there. That a binding-present byte other than 1 reads as clear is the model's (log entry 13). -/
def Obligations.EnrolmentsAndClaimsBegin : Prop :=
  (∀ (s : State) (c : Card), s.credReady 0x0401#16 = some c → credEnrollForm c = none → s.lifecycle.pending = false →
    s.census.state = .healthy → (∃ i, s.cred i = none) →
    let f := credEnrollFields c
    let verifier (salt : Salt) (secret : List Byte) : HashJob :=
      { fn := .hmac Config.credentialKey, absorbed := [], source := .own (strBytes salt ++ secret), finalize := true }
    (∀ n, s.lifecycle.effective = .claimed → c.field 1 1 = 0 → s.lifecycle.presence.isSome = true →
      n = (if f.kind = .admin then 16 else 28) →
      let drawn := drawnBytes s.census.seed n
      let salt : Salt := strOf 128 (drawn.take 16)
      let copy := if f.kind = .admin then none else some (sealSecret (strOf 96 (drawn.drop 16)) f.secret)
      exec .credEnroll s = .next { s.begins c with
        census := { s.census with seed := Config.drawAdvance s.census.seed n }
        credential := { s.credential with work := working c (.enrolHash salt copy) false }
        hash := s.hash.submit .credential (verifier salt f.secret) })
    ∧ ∀ id e, s.lifecycle.effective = .unclaimed → c.field 1 1 ≠ 0 → f.kind = .admin → s.cred id = some e →
      e.record.cls = .factory → (∀ j x, s.cred j = some x → x.record.cls = .factory → j = id) → e.attempt = false → e.writes = 0 →
      e.working < e.record.policy.lock → e.working / 512 ≤ (s.pace.tick - e.record.lastTick).toNat →
      exec .credEnroll s = .next { s.begins c with
        census := { s.census with seed := Config.drawAdvance s.census.seed 16 }
        credential := { s.credential with
          table := tableSet s.credential.table id (some { e with attempt := true })
          work := working c (.compare id e.working s.pace.tick (some (strOf 128 (drawnBytes s.census.seed 16)))) true }
        hash := s.hash.submit .credential (verifier e.record.salt f.pairing) })
    ∧ ∀ (s : State) (h : HostWrites) (answered : Bool) (c : Card) (salt : Salt) (i : Fin 32), s.powered = true → s.startUp = .ended →
      let f := credEnrollFields c
      let verifier := Config.hmacSha256 Config.credentialKey (strBytes salt ++ f.secret)
      let record (secret : Option SealedSecret) : CredRecord :=
        { kind := f.kind, cls := .owner, label := f.label, salt := salt, verifier := verifier, secret := secret, binding := f.binding
          policy := f.policy.clamped, debt := 0, saturated := false, failures := 0, lastTick := s.pace.tick }
      let writes (r : CredRecord) (stage : CredStage) : Prop := exec (.hashPieceEnd h answered) s = .next { s with
        host := Memory.hostStores s.host h
        hash := ({ s.hash with pointer := .credential }).release
        credential := { s.credential with work := working c stage true }
        store := s.store.queued (.cred i (some r)) .credCard }
      f.secret.length ≤ 64 → s.hash.running = some { client := .credential, job := verifierJob salt f.secret, withdrawn := false } →
      s.credential.service = none → s.cred i = none → (∀ j, j < i → s.cred j ≠ none) → s.storeRoom .credential →
      s.outboxes.refresh = [] →
      (∀ copy, s.credential.work = working c (.enrolHash salt copy) false → writes (record copy) (.enrolWrite i (record copy)))
      ∧ ∀ debt, s.credential.work = working c (.claimHash salt debt) true → writes (record none) (.claimWrite i (record none) debt)

/-- CRED RELEASE, CRED REPLACE, CRED REMOVE and CRED DESCRIBE on an OWNER record: an unbound secret is released with presence open, a bound
one asks for a binding check; a replacement under presence draws and computes the new verifier; a removal is written first; the description
gives the occupied places and the record in R194's layout (R110, R111, R112, R113, R114). CRED REPLACE and CRED REMOVE of the FACTORY
record, and CRED RELEASE of a record that is not RELEASABLE, are refused NOT PERMITTED, and CRED DESCRIBE describes it too. That salt and
nonce are one draw, the salt first, and that bit id − 1 of CRED DESCRIBE's detail word stands for the place of an id, are the model's (log
entry 22), and so is the empty reply body of NOT PERMITTED (log entry 16). The description of an empty place is R194's empty marker, whose
value is open (log entries 5 and 30). The end of the last piece of the new verifier's job sends the write of the changed record: after the
old secret with the match's debt and tick, without it with the working debt and the last tick as they stand (R112). Start-up has ended
there. The last clause spells the occupied places: a bit is set exactly when its place holds a record (R114). -/
def Obligations.CredentialCardsBegin : Prop :=
  (∀ (s : State) (c : Card) (e : CredEntry), s.cred c.place = some e → s.lifecycle.pending = false → e.record.cls = .owner →
    (s.credReady 0x0403#16 = some c → credIdForm c = none → e.record.kind = .releasable →
      (e.record.binding = none → s.lifecycle.presence.isSome = true → s.carries →
        let secret := (e.record.secret.map openSecret).getD []
        exec .credRelease s = .next { (s.begins c).givesBack c .done (some (BitVec.ofNat 32 secret.length)) (outBytes secret) with
          credential := { s.credential with work := none } })
      ∧ ∀ b, e.record.binding = some b → s.measureRoom .credentialAsk →
        exec .credRelease s = .next { s.begins c with
          credential := { s.credential with work := working c (.binding c.place) false }
          measure := s.measure.asked (.check .credential b true) })
    ∧ (∀ n, s.credReady 0x0404#16 = some c → credReplaceForm c = none → s.census.state = .healthy → c.field 2 1 = 0 →
      s.lifecycle.presence.isSome = true → n = (if e.record.kind = .releasable then 28 else 16) →
      let drawn := drawnBytes s.census.seed n
      let salt : Salt := strOf 128 (drawn.take 16)
      let secret := c.fieldBytes 3 (c.field 1 1)
      let copy := if e.record.kind = .releasable then some (sealSecret (strOf 96 (drawn.drop 16)) secret) else none
      exec .credReplace s = .next { s.begins c with
        census := { s.census with seed := Config.drawAdvance s.census.seed n }
        credential := { s.credential with work := working c (.replaceHash c.place salt copy none) false }
        hash := s.hash.submit .credential
          { fn := .hmac Config.credentialKey, absorbed := [], source := .own (strBytes salt ++ secret), finalize := true } })
    ∧ (s.credReady 0x0405#16 = some c → credIdForm c = none → s.lifecycle.presence.isSome = true → s.storeRoom .credential →
      s.outboxes.refresh = [] →
      exec .credRemove s = .next { s.begins c with
        credential := { s.credential with
          table := tableSet s.credential.table c.place (some { e with writes := e.writes + 1 })
          work := working c (.removeWrite c.place) true }
        store := s.store.queued (.cred c.place none) .credCard }))
    ∧ (∀ (i : Instr) (code : Word16) (form : Card → Option Nat) (s : State) (c : Card) (e : CredEntry),
      (i = .credRelease ∧ code = 0x0403#16 ∧ form = credIdForm ∧ e.record.kind ≠ .releasable)
        ∨ (i = .credReplace ∧ code = 0x0404#16 ∧ form = credReplaceForm ∧ e.record.cls = .factory)
        ∨ (i = .credRemove ∧ code = 0x0405#16 ∧ form = credIdForm ∧ e.record.cls = .factory) →
      s.cred c.place = some e → s.lifecycle.pending = false → s.credReady code = some c → form c = none → s.carries →
      exec i s = .next { (s.begins c).givesBack c .notPermitted none [] with credential := { s.credential with work := none } })
    ∧ (∀ (s : State) (c : Card) (e : CredEntry), s.cred c.place = some e → s.credReady 0x0406#16 = some c → credIdForm c = none →
      s.carries →
      exec .credDescribe s = .next { (s.begins c).givesBack c .done (some s.occupied) (s.credReply c.place) with
        credential := { s.credential with work := none } })
    ∧ (∀ (s : State) (c : Card), s.credReady 0x0406#16 = some c → credIdForm c = none → s.cred c.place = none → s.carries →
      exec .credDescribe s = .next { (s.begins c).givesBack c .done (some s.occupied) [none] with
        credential := { s.credential with work := none } })
    ∧ (∀ (s : State) (i : Fin 32) (e : CredEntry), s.cred i = some e →
      let r := e.record
      let kind := match r.kind with
        | .admin => 1
        | .releasable => 2
        | .pairing => 3
      let class_ := match r.cls with
        | .factory => 1
        | .owner => 2
      s.credReply i = replyNum 1 (i.val + 1) ++ replyNum 1 kind ++ replyNum 1 class_ ++ replyNum 1 r.label.length ++ r.label.map some
        ++ replyOpen (24 - r.label.length) ++ replyNum 1 r.binding.isSome.toNat ++ replyNum 2 r.policy.charge
        ++ replyNum 2 r.policy.decay ++ replyNum 2 r.policy.lock ++ replyNum 2 e.working ++ replyNum 1 (e.working / 512)
        ++ replyNum 1 (e.working / 512 - (s.pace.tick - r.lastTick).toNat) ++ replyNum 1 r.saturated.toNat ++ replyNum 2 r.failures)
    ∧ (∀ (s : State) (h : HostWrites) (answered : Bool) (c : Card) (i : Fin 32) (e : CredEntry) (salt : Salt) (copy : Option SealedSecret)
      (secret : List Byte), s.powered = true → s.startUp = .ended → secret.length ≤ 64 → s.credential.service = none →
      s.hash.running = some { client := .credential, job := verifierJob salt secret, withdrawn := false } → s.cred i = some e →
      s.storeRoom .credential → s.outboxes.refresh = [] →
      let record : CredRecord := { e.record with
        salt := salt, verifier := Config.hmacSha256 Config.credentialKey (strBytes salt ++ secret), secret := copy, saturated := false
        failures := 0 }
      let writes (sent held : CredRecord) (answerTo : WriteTo) (attempt : Bool) : Prop :=
        exec (.hashPieceEnd h answered) s = .next { s with
          host := Memory.hostStores s.host h
          hash := ({ s.hash with pointer := .credential }).release
          credential := { s.credential with
            table := tableSet s.credential.table i (some { e with writes := e.writes + 1 })
            work := working c (.replaceWrite i held attempt) true }
          store := s.store.queued (.cred i (some sent)) answerTo }
      (∀ debt tick, s.credential.work = working c (.replaceHash i salt copy (some (debt, tick))) true →
        let r : CredRecord := { record with debt := debt, lastTick := tick }
        writes r r .credCard true)
      ∧ (s.credential.work = working c (.replaceHash i salt copy none) false →
        writes { record with debt := e.working } record .credReplace false))
    ∧ ∀ (s : State) (i : Fin 32), s.occupied.getLsbD i.val = (s.cred i).isSome

/-- The credential unit serves the first request of the lifecycle controller when no card is in work: a wipe order empties the places of
OWNER records in the table at once and writes each removal; a pairing request with the census HEALTHY draws a salt and computes the
verifier of the pairing code (R115, R116). The end of the last piece of that job sends the write of the PAIRING record, in the place of the
FACTORY record, or else at the lowest empty place (R97, R115). Start-up has ended there. -/
def Obligations.CredentialUnitServesRequests : Prop :=
  (∀ (s : State) (rest : List CredRequest), s.powered = true → s.credential.work = none → s.credential.service = none →
    (∀ code label policy, s.credential.held = .pairing code label policy :: rest → s.census.state = .healthy →
      let salt : Salt := strOf 128 (drawnBytes s.census.seed 16)
      exec .pairingInstallationRequest s = .next { s with
        census := { s.census with seed := Config.drawAdvance s.census.seed 16 }
        credential := { s.credential with held := rest, service := some (.pairingHash salt label policy) }
        hash := s.hash.submit .credential
          { fn := .hmac Config.credentialKey, absorbed := [], source := .own (strBytes salt ++ code), finalize := true } })
    ∧ (s.credential.held = .wipe :: rest → (∀ i e, s.cred i = some e → e.record.cls = .factory) →
      exec .credentialWipeOrder s = .next { s with
        credential := { s.credential with held := rest }
        lifecycle := { s.lifecycle with
          answersSent := { s.lifecycle.answersSent with credential := some { erased := 0, failed := 0 } } } })
    ∧ (s.credential.held = .wipe :: rest → s.wipedPlaces ≠ [] → s.quiet .credential →
        s.store.queue.length + s.wipedPlaces.length ≤ storeCapacity →
      let n := s.wipedPlaces.length
      ∃ t, exec .credentialWipeOrder s = .next t
        ∧ (∀ i e, s.cred i = some e → e.record.cls = .owner → t.cred i = none)
        ∧ (∀ i, (∀ e, s.cred i = some e → e.record.cls ≠ .owner) → t.cred i = s.cred i)
        ∧ t.store = { s.store with
            queue := s.store.queue ++ s.wipedPlaces.map fun i => { write := .cred i none, answerTo := .credWipe } }
        ∧ t.credential.service = some (.wipe { removed := n, outstanding := n, failed := 0 }) ∧ t.credential.held = rest
        ∧ t.lifecycle = s.lifecycle ∧ t.exch = s.exch ∧ t.custody = s.custody ∧ t.update = s.update ∧ t.measure = s.measure)
    ∧ ∀ i : Fin 32, i ∈ s.wipedPlaces ↔ ∃ e, s.cred i = some e ∧ e.record.cls = .owner)
    ∧ ∀ (s : State) (h : HostWrites) (answered : Bool) (salt : Salt) (code label : List Byte) (policy : Policy) (i : Fin 32),
      s.powered = true → s.startUp = .ended → code.length ≤ 64 → s.credential.service = some (.pairingHash salt label policy) →
      s.hash.running = some { client := .credential, job := verifierJob salt code, withdrawn := false } → s.credential.work = none →
      s.storeRoom .credential → s.outboxes.refresh = [] →
      let record : CredRecord :=
        { kind := .pairing, cls := .factory, label := label, salt := salt
          verifier := Config.hmacSha256 Config.credentialKey (strBytes salt ++ code), secret := none, binding := none
          policy := policy.clamped, debt := 0, saturated := false, failures := 0, lastTick := s.pace.tick }
      let writes (table : Vector (Option CredEntry) 32) : Prop := exec (.hashPieceEnd h answered) s = .next { s with
        host := Memory.hostStores s.host h
        hash := ({ s.hash with pointer := .credential }).release
        credential := { s.credential with table := table, service := some (.pairingWrite i record) }
        store := s.store.queued (.cred i (some record)) .credRequest }
      (∀ e, s.cred i = some e → e.record.cls = .factory → (∀ j, j < i → ∀ x, s.cred j = some x → x.record.cls ≠ .factory) →
        writes (tableSet s.credential.table i (some { e with writes := e.writes + 1 })))
      ∧ (s.cred i = none → (∀ j x, s.cred j = some x → x.record.cls ≠ .factory) → (∀ j, j < i → s.cred j ≠ none) →
        writes s.credential.table)

/-- The end of the store write of a credential card (R100, R107, R109, R112, R113): on DONE the table takes an enrolled record, a
replacement, with the debt that its write carried, or a removal, and the card settles; a claim waits for the lifecycle controller. On
STORE FAULT the table stays as it was and the card is refused STORE FAULT, a claim's naming the administrator record, and a claim's
undone record naming the lifecycle record, by free values (log entry 31). The empty reply bodies of the refusals and of a removal are
the model's (log entry 16). The end of the pairing record's write answers FACTORY PAIRING (R115, R124). -/
def Obligations.CredentialWritesEnd : Prop :=
  (∀ (s : State) (w : Write) (a : WriteTo) (first second : Bool) (rest : List WriteRequest) (c : Card) (i : Fin 32),
    s.inWrite w a rest → a = .credCard ∨ a = .credReplace →
    let ok := s.endsDone w first second
    let u := s.wrote w first second rest
    let ends (t : State) : Prop := exec (.storeWriteEnd first second) s = .next t
    let cred (e : Option CredEntry) (x : Option (Work CredStage)) : Credential :=
      { s.credential with table := tableSet s.credential.table i e, work := x }
    let fails (d : Option Word32) (e : Option CredEntry) : State :=
      { u.storeFaulted.givesBack c .storeFault d [] with credential := cred e none }
    let id := outNum 1 (i.val + 1)
    let policy (p : Policy) := outNum 2 p.charge ++ outNum 2 p.decay ++ outNum 2 p.lock
    (∀ r, w = .cred i (some r) → s.credential.work = working c (.enrolWrite i r) true → s.cred i = none →
      (ok = true → ends { u.givesBack c .done none (id ++ policy r.policy) with
        credential := cred (some { record := r, working := r.debt, writes := 0, attempt := false }) none })
      ∧ (ok = false → ends (fails none none)))
    ∧ (∀ r v att e, w = .cred i (some v) → s.credential.work = working c (.replaceWrite i r att) true → s.cred i = some e →
      (ok = true → ends { u.givesBack c .done none (outNum 2 v.debt ++ outNum 1 (v.debt / 512)) with
        credential := cred (some { record := v, working := v.debt, writes := e.writes - 1, attempt := false }) none })
      ∧ (ok = false → ends (fails none (some { e with writes := e.writes - 1, attempt := false }))))
    ∧ (∀ e, w = .cred i none → s.credential.work = working c (.removeWrite i) true → s.cred i = some e →
      (ok = true → ends { u.givesBack c .done none [] with credential := cred none none })
      ∧ (ok = false → ends (fails none (some { e with writes := e.writes - 1 }))))
    ∧ (∀ r debt, w = .cred i (some r) → s.credential.work = working c (.claimWrite i r debt) true → s.cred i = none →
      (ok = true → ends { u with credential := cred none (working c (.awaitClaim i r debt) true) })
      ∧ (ok = false → ends (fails (some (Config.recordName (37 + i.val))) none)))
    ∧ (w = .cred i none → s.credential.work = working c (.claimUndo i) true → s.cred i = none →
      ends { (if ok then u else u.storeFaulted).givesBack c .storeFault (some (Config.recordName 0)) [] with
        credential := cred none none }))
    ∧ ∀ (s : State) (first second : Bool) (rest : List WriteRequest) (c : Card) (i : Fin 32) (r : CredRecord),
      let w : Write := .cred i (some r)
      s.inWrite w .credRequest rest → s.credential.service = some (.pairingWrite i r) → s.lifecycle.work = working c .pairing true →
      let ok := s.endsDone w first second
      let u := s.wrote w first second rest
      let done : Lifecycle := { s.lifecycle with work := none }
      let p := outNum 2 r.policy.charge ++ outNum 2 r.policy.decay ++ outNum 2 r.policy.lock
      (ok = true → exec (.storeWriteEnd first second) s = .next { u.givesBack c .done none (outNum 1 (i.val + 1) ++ p) with
        lifecycle := done
        credential := { s.credential with
          service := none
          table := tableSet s.credential.table i (some { record := r, working := r.debt, writes := 0, attempt := false }) } })
      ∧ (ok = false → s.cred i = none →
        exec (.storeWriteEnd first second) s = .next { u.storeFaulted.givesBack c .storeFault none [] with
          lifecycle := done, credential := { s.credential with service := none } })

/-- The lifecycle controller serves the credential unit: a match of an ADMIN record opens presence for 1200 ticks when the part is CLAIMED
with no release pending and the census is not FAILED, and the card settles MATCHED either way; a claim writes the lifecycle record CLAIMED
once (R106, R126, R127). That the presence flag and the ticks of MATCHED are read in the same step, the ticks of closed presence open, is
the model's (log entry 28). -/
def Obligations.PresenceOpensAndClaimsComplete : Prop :=
  (∀ (s : State) (c : Card) (debt : Nat), s.powered = true → s.credential.work = working c (.awaitPresence debt) true → s.carries →
      let may : Prop := s.lifecycle.effective = .claimed ∧ s.lifecycle.pending = false ∧ s.census.state ≠ .failed
      let head := outNum 2 debt ++ outNum 1 (debt / 512)
      (may → exec .presenceOpeningRequest s = .next { s.givesBack c .matched none (head ++ outNum 1 1 ++ outNum 2 1200) with
        credential := { s.credential with work := none }
        lifecycle := { s.lifecycle with presence := some (s.pace.tick + 1200#32) } })
      ∧ (¬may → exec .presenceOpeningRequest s = .next { s.givesBack c .matched none (head ++ outNum 1 0 ++ [none, none]) with
        credential := { s.credential with work := none } }))
    ∧ ∀ (s : State) (c : Card) (id : Fin 32) (r : CredRecord) (debt : Nat), s.powered = true →
      s.credential.work = working c (.awaitClaim id r debt) true →
      (s.lifecycle.claiming = false → s.storeRoom .lifecycle →
        exec .claimCompletionRequest s = .next { s with
          lifecycle := { s.lifecycle with claiming := true }
          store := s.store.queued (.lifecycle { effective := .claimed, marker := false }) .lifeClaim })
      ∧ (s.lifecycle.claiming = true → exec .claimCompletionRequest s = .next s)

/-! ## Lifecycle and census -/

/-- The factory cards of a BLANK part: the identity's seed is drawn and goes to the curve engine, the root's installation and the pairing
go to their units, the certificate's read begins, and the finish, with all four installations in place, writes the lifecycle record
UNCLAIMED (R121, R122, R123, R124, R125). Outside BLANK every factory card is refused WRONG LIFECYCLE (R121; with an
empty reply body, the model's, log entry 16). The use total and label of the root's record are the model's (log entry 49). -/
def Obligations.FactoryCardsBegin : Prop :=
  (∀ (s : State) (c : Card), s.lifecycle.effective = .blank →
    (s.lifeReady 0x0501#16 = some c → noFieldsForm c = none → s.slot 1 = none → s.census.state = .healthy →
      exec .factoryIdentity s = .next { s.begins c with
        census := { s.census with seed := Config.drawAdvance s.census.seed 32 }
        lifecycle := { s.lifecycle with work := working c .generate false }
        curve := s.curve.submit s.identityScalar .lifecycle (.generate (strOf 256 (drawnBytes s.census.seed 32))) })
    ∧ (s.lifeReady 0x0502#16 = some c → noFieldsForm c = none →
      exec .factoryRoot s = .next { s.begins c with
        lifecycle := { s.lifecycle with work := working c (.install []) true }
        custody := { s.custody with held := s.custody.held ++ [.install 0
          { state := .live, cls := .root, material := .p256 none (c.fieldStr 0 512), flags := KeyFlags.none, binding := none, limit := none,
            total := 0, label := [], anchor := none } .lifecycle] } })
    ∧ (s.lifeReady 0x0503#16 = some c → factoryCertificateForm c = none →
      exec .factoryCertificate s = .next { s.begins c with
        lifecycle := { s.lifecycle with work := working c .readCertificate false } })
    ∧ (s.lifeReady 0x0504#16 = some c → factoryPairingForm c = none →
      exec .factoryPairing s = .next { s.begins c with
        lifecycle := { s.lifecycle with work := working c .pairing true }
        credential := { s.credential with held := s.credential.held ++ [.pairing (c.fieldBytes 1 (c.field 0 1))
          (c.fieldBytes 66 (c.field 65 1)) { charge := c.field 90 2, decay := c.field 92 2, lock := c.field 94 2 }] } })
    ∧ (s.lifeReady 0x0505#16 = some c → noFieldsForm c = none → s.slot 0 ≠ none → s.slot 1 ≠ none → s.lifecycle.certificate ≠ none →
      (∃ i e, s.cred i = some e ∧ e.record.kind = .pairing ∧ e.record.cls = .factory) → s.storeRoom .lifecycle →
      exec .factoryFinish s = .next { s.begins c with
        lifecycle := { s.lifecycle with work := working c .finish true }
        store := s.store.queued (.lifecycle { effective := .unclaimed, marker := false }) .lifeCard }))
    ∧ (∀ (i : Instr) (code : Word16) (form : Card → Option Nat) (s : State) (c : Card),
    (i = .factoryIdentity ∧ code = 0x0501#16 ∧ form = noFieldsForm) ∨ (i = .factoryRoot ∧ code = 0x0502#16 ∧ form = noFieldsForm)
      ∨ (i = .factoryCertificate ∧ code = 0x0503#16 ∧ form = factoryCertificateForm)
      ∨ (i = .factoryPairing ∧ code = 0x0504#16 ∧ form = factoryPairingForm)
      ∨ (i = .factoryFinish ∧ code = 0x0505#16 ∧ form = noFieldsForm) →
    s.lifecycle.effective ≠ .blank → s.lifeReady code = some c → form c = none → s.carries →
    exec i s = .next { (s.begins c).givesBack c .wrongLifecycle none [] with lifecycle := { s.lifecycle with work := none } })

/-- OWNERSHIP RELEASE of a CLAIMED part with presence open takes its release request in one act: the requested lifecycle is UNCLAIMED, the
release is pending and MARKING, presence is closed, and the marker is written; OWNER WITHDRAW closes presence, and its detail word says
whether it was open and the ticks it had left; LIFECYCLE DESCRIBE and IDENTITY DESCRIBE reply in R194's layouts, and the latter's output
is the 64 bytes of the public key in slot 1, when it is there, and the certificate's bytes behind them (R50, R129, R130, R131, R136). That
LIFECYCLE DESCRIBE reports the record count and the TRUNCATED flag, which R31 names and R194's layout does not hold, in its detail word,
under a coding that is open, is the model's (log entry 50), and so is the reading of IDENTITY DESCRIBE's lifecycle when the card begins
(log entry 54); the ticks left of closed presence are open (log entry 5). The empty reply body of OWNER WITHDRAW's DONE is the model's
(log entry 16). The ticks in its detail word when presence was closed are open, and its bits 31:17 are 0 by the model's choice (log entry
65). -/
def Obligations.OwnerCardsBegin : Prop :=
  (∀ (s : State) (c : Card),
    (s.lifeReady 0x0506#16 = some c → noFieldsForm c = none → s.lifecycle.effective = .claimed → s.lifecycle.pending = false →
      s.lifecycle.presence.isSome = true → s.storeRoom .lifecycle →
      exec .ownershipRelease s = .next { s.begins c with
        lifecycle := { s.lifecycle with
          requested := .unclaimed, pending := true, progress := .marking, presence := none, work := working c .release true }
        store := s.store.queued (.lifecycle { effective := .claimed, marker := true }) .lifeMarker })
    ∧ (∀ expiry, s.lifeReady 0x0507#16 = some c → noFieldsForm c = none → s.lifecycle.presence = some expiry → s.carries →
      exec .ownerWithdraw s
        = .next { (s.begins c).givesBack c .done (some (BitVec.ofNat 32 (65536 + (expiry - s.pace.tick).toNat))) [] with
          lifecycle := { s.lifecycle with presence := none, work := none } })
    ∧ (s.lifeReady 0x0507#16 = some c → noFieldsForm c = none → s.lifecycle.presence = none → s.carries →
      exec .ownerWithdraw s = .next { (s.begins c).givesBack c .done (some (Config.freeWord s.free &&& 0xFFFF#32)) [] with
          lifecycle := { s.lifecycle with work := none }, free := s.free + 1 })
    ∧ (s.lifeReady 0x0508#16 = some c → noFieldsForm c = none → s.carries →
      exec .lifecycleDescribe s = .next
        { (s.begins c).givesBack c .done (some (Config.recordReport s.measure.records.length s.measure.truncated)) s.lifecycleReply with
          lifecycle := { s.lifecycle with work := none } })
    ∧ (s.lifeReady 0x0509#16 = some c → oneExtentForm c = none →
      let out := s.identityOutput
      (out ≠ [] → out.length ≤ c.extentLength 0 →
        exec .identityDescribe s = .next { s.begins c with
          lifecycle := { s.lifecycle with
            work := working c (.writeOut out (some (BitVec.ofNat 32 out.length)) s.identityReply) false } })
      ∧ (out = [] → s.carries →
        exec .identityDescribe s = .next { (s.begins c).givesBack c .done (some 0#32) s.identityReply with
          lifecycle := { s.lifecycle with work := none } })))
    ∧ ∀ s : State,
      let life (x : LifecycleState) : Nat := match x with
        | .blank => 0
        | .unclaimed => 1
        | .claimed => 2
      let progress := match s.lifecycle.progress with
        | .none => 0
        | .marking => 1
        | .deferred => 2
        | .wiping => 3
        | .closing => 4
        | .incomplete => 5
      let census := match s.census.state with
        | .healthy => 0
        | .doubt => 1
        | .failed => 2
      let counts := s.lifecycle.counts
      let presence := match s.lifecycle.presence with
        | none => replyNum 1 0 ++ replyOpen 2
        | some expiry => replyNum 1 1 ++ replyNum 2 (expiry - s.pace.tick).toNat
      s.lifecycleReply = replyNum 1 (life s.lifecycle.effective) ++ replyNum 1 (life s.lifecycle.requested)
          ++ replyNum 1 s.lifecycle.pending.toNat ++ replyNum 1 progress ++ replyNum 1 counts.slots ++ replyNum 1 counts.records
          ++ replyNum 1 counts.trials ++ replyNum 1 counts.slotsFailed ++ replyNum 1 counts.recordsFailed
          ++ replyNum 1 counts.trialsFailed ++ presence ++ replyNum 1 s.lifecycle.hold ++ replyNum 1 census
          ++ replyNum 1 s.census.a.toNat ++ replyNum 1 s.census.b.toNat ++ replyNum 1 s.census.r.toNat ++ replyNum 4 s.pace.tick.toNat
          ++ replyNum 1 s.store.map.spares ++ replyNum 2 s.measure.missed
        ∧ s.identityReply = replyNum 1 (s.slot 1).isSome.toNat ++ replyNum 1 s.lifecycle.certificate.isSome.toNat
          ++ replyNum 2 (s.lifecycle.certificate.getD []).length ++ replyNum 1 (life s.lifecycle.effective)
        ∧ outBytes s.identityOutput = (match s.slot 1 with
          | some r => match r.material with
            | .p256 _ pub => replyNum 64 pub.toNat
            | .hmac256 _ => []
            | .wrap256 _ => []
          | none => []) ++ outBytes (s.lifecycle.certificate.getD [])

/-- R129: OWNER WITHDRAW closes presence in every lifecycle state and with a release pending, and settles DONE with a detail word that
says whether presence was open (bit 16) and the ticks it had left (bits 15:0); it sets no attention bit, and a card with an extent is
refused BAD REQUEST. At the expiry tick presence is closed either way: a withdraw taken first finds it open with 0 ticks left, and a
withdraw taken after the expiry finds it closed, with PRESENCE ENDED set. -/
def Obligations.OwnerWithdrawClosesPresence : Prop :=
  ∀ (s : State) (c : Card), s.lifeReady 0x0507#16 = some c → s.carries →
    let settles (s : State) (o : CardOutcome) (d : Word32) : Prop :=
      ∃ t b, exec .ownerWithdraw s = .next t
        ∧ t.exch.settleList = s.exch.settleList ++ [{ card := c, outcome := o, detail := d, body := b }]
        ∧ t.lifecycle.presence = (if o = .done then none else s.lifecycle.presence) ∧ t.exch.attention = s.exch.attention
        ∧ t.messages = s.messages
    (0 < c.extentCount → ∃ d, settles s .badRequest d)
    ∧ (c.extentCount = 0 → s.lifecycle.presence = none → ∃ d : Word32, settles s .done d ∧ d.getLsbD 16 = false)
    ∧ (∀ expiry, c.extentCount = 0 → s.lifecycle.presence = some expiry →
      (expiry - s.pace.tick).toNat < 65536 → ∃ d : Word32, settles s .done d ∧ d.getLsbD 16 = true
        ∧ (d.extractLsb' 0 16).toNat = (expiry - s.pace.tick).toNat)
    ∧ (c.extentCount = 0 → s.lifecycle.presence = some s.pace.tick →
      (∃ d : Word32, settles s .done d ∧ d.getLsbD 16 = true ∧ d.extractLsb' 0 16 = 0#16)
      ∧ ∃ t, exec .presenceExpiry s = .next t ∧ t.lifecycle.presence = none ∧ t.exch.attention = s.exch.attention ||| 256#9
        ∧ ∃ d : Word32, settles t .done d ∧ d.getLsbD 16 = false)

/-- The owner-release hold takes a release request of a CLAIMED part with none pending, and nothing otherwise; presence that has reached
its expiry tick, and presence when the census reports FAILED, end with PRESENCE ENDED (R128, R131, R132). -/
def Obligations.HoldAndPresenceEvents : Prop :=
  ∀ s : State, s.powered = true →
    let ended (s : State) : State := { s with
      exch := { s.exch with attention := s.exch.attention ||| 256#9 }
      messages := s.messages + (if s.linkUp then s.askMessages s.exch.enable else 0)
      lifecycle := { s.lifecycle with presence := none } }
    (s.lifecycle.holdDue = true → s.lifecycle.effective = .claimed → s.lifecycle.pending = false → s.storeRoom .lifecycle →
      exec .ownerReleaseHold s = .next { s with
        lifecycle := { s.lifecycle with
          requested := .unclaimed, pending := true, progress := .marking, presence := none, holdDue := false }
        store := s.store.queued (.lifecycle { effective := .claimed, marker := true }) .lifeMarker })
    ∧ (s.lifecycle.holdDue = true → s.lifecycle.effective ≠ .claimed ∨ s.lifecycle.pending = true →
      exec .ownerReleaseHold s = .next { s with lifecycle := { s.lifecycle with holdDue := false } })
    ∧ (s.lifecycle.presence = some s.pace.tick → exec .presenceExpiry s = .next (ended s))
    ∧ (s.lifecycle.presence ≠ some s.pace.tick → exec .presenceExpiry s = .next s)
    ∧ ∀ n expiry, s.lifecycle.reports = n + 1 →
      let u : State := { s with lifecycle := { s.lifecycle with reports := n } }
      (s.lifecycle.presence = some expiry → exec .censusFailedReport s = .next (ended u))
      ∧ (s.lifecycle.presence = none → exec .censusFailedReport s = .next u)

/-- The release goes on: the notice that the session has left CHECKED sends a DEFERRED release's wipe orders; the third answer records the
counts and writes the lifecycle record UNCLAIMED when no unit's write failed, and leaves the release INCOMPLETE otherwise; an answer that
is not the third waits (R133, R134). The end of each unit's wipe writes is counted, and the last one answers the order with the number
removed and the number that ended STORE FAULT (R23, R89, R116); the update unit's order waits there while its last event is still unsent
(R38). -/
def Obligations.ReleasesWipe : Prop :=
  (∀ (s : State) (n : Nat), s.powered = true → s.lifecycle.notices = n + 1 →
      (s.lifecycle.progress = .deferred → exec .sessionLeftCheckedNotice s = .next { s with
        lifecycle := { s.lifecycle with
          notices := n, progress := .wiping, answersSent := { custody := none, credential := none, update := none }
          answersTaken := { custody := none, credential := none, update := none } }
        custody := { s.custody with held := s.custody.held ++ [.wipe] }
        credential := { s.credential with held := s.credential.held ++ [.wipe] }
        update := { s.update with wipe := .arrived } })
      ∧ (s.lifecycle.progress ≠ .deferred →
        exec .sessionLeftCheckedNotice s = .next { s with lifecycle := { s.lifecycle with notices := n } }))
    ∧ (∀ (s : State) (a b d : WipeTally), s.powered = true → s.startUp = .ended → s.lifecycle.progress = .wiping →
      let counts : WipeCounts :=
        { slots := a.erased, records := b.erased, trials := d.erased
          slotsFailed := a.failed, recordsFailed := b.failed, trialsFailed := d.failed }
      let sent := s.lifecycle.answersSent
      let taken := s.lifecycle.answersTaken
      let third (unit : WipeUnit) (left : Trio (Option WipeTally)) : Prop :=
        let life (p : Progress) : Lifecycle := { s.lifecycle with
          answersSent := left, answersTaken := { custody := none, credential := none, update := none }, counts := counts, progress := p }
        (a.failed = 0 ∧ b.failed = 0 ∧ d.failed = 0 → s.storeRoom .lifecycle →
          exec (.wipeAnswer unit) s = .next { s with
            lifecycle := life .closing
            store := s.store.queued (.lifecycle { effective := .unclaimed, marker := false }) .lifeClosing })
        ∧ (0 < a.failed ∨ 0 < b.failed ∨ 0 < d.failed → exec (.wipeAnswer unit) s = .next { s with lifecycle := life .incomplete })
      let waits (unit : WipeUnit) (left now : Trio (Option WipeTally)) : Prop :=
        exec (.wipeAnswer unit) s = .next { s with lifecycle := { s.lifecycle with answersSent := left, answersTaken := now } }
      (sent.custody = some a →
        (taken.credential = some b → taken.update = some d → third .custody { sent with custody := none })
        ∧ (taken.credential = none ∨ taken.update = none → waits .custody { sent with custody := none } { taken with custody := some a }))
      ∧ (sent.credential = some b →
        (taken.custody = some a → taken.update = some d → third .credential { sent with credential := none })
        ∧ (taken.custody = none ∨ taken.update = none →
          waits .credential { sent with credential := none } { taken with credential := some b }))
      ∧ (sent.update = some d →
        (taken.custody = some a → taken.credential = some b → third .update { sent with update := none })
        ∧ (taken.custody = none ∨ taken.credential = none → waits .update { sent with update := none } { taken with update := some d })))
    ∧ ∀ (s : State) (w : Write) (a : WriteTo) (first second : Bool) (rest : List WriteRequest) (removed n failed : Nat),
      s.inWrite w a rest →
      let ok := s.endsDone w first second
      let u := if ok then s.wrote w first second rest else (s.wrote w first second rest).storeFaulted
      let failed' := failed + (!ok).toNat
      let tally : Option WipeTally := some { erased := removed, failed := failed' }
      let counts (left : Nat) : WipeCount := { removed := removed, outstanding := left, failed := failed' }
      let ends (t : State) : Prop := exec (.storeWriteEnd first second) s = .next t
      (a = .custodyWipe → s.custody.service = some (.wipe removed (n + 1) failed) → (∀ i v, w ≠ .cred i v) →
        (n = 0 → ends { u with
          custody := { s.custody with service := none }
          lifecycle := { s.lifecycle with answersSent := { s.lifecycle.answersSent with custody := tally } } })
        ∧ (0 < n → ends { u with custody := { s.custody with service := some (.wipe removed n failed') } }))
      ∧ (∀ i, a = .credWipe → w = .cred i none → s.cred i = none →
        s.credential.service = some (.wipe { removed := removed, outstanding := n + 1, failed := failed }) →
        (n = 0 → ends { u with
          credential := { s.credential with service := none }
          lifecycle := { s.lifecycle with answersSent := { s.lifecycle.answersSent with credential := tally } } })
        ∧ (0 < n → ends { u with credential := { s.credential with service := some (.wipe (counts n)) } }))
      ∧ (a = .updateWipe → (∀ i v, w ≠ .cred i v) →
        s.update.service = some { removed := removed, outstanding := n + 1, failed := failed } →
        (n = 0 → s.outboxes.updateWipe = [] → ends { u with
          update := { s.update with service := none }
          lifecycle := { s.lifecycle with answersSent := { s.lifecycle.answersSent with update := tally } } })
        ∧ (0 < n ∨ s.outboxes.updateWipe ≠ [] → ends { u with update := { s.update with service := some (counts n) } }))

/-- The end of the lifecycle controller's store writes (R123, R125, R126, R130, R131, R134) and of the installation it has sent the
custody unit (R21, R122): the finish makes the part UNCLAIMED; the marker of a release lets its wipe orders go out, or defers them while
the session is CHECKED, and its fault withdraws the release; a claim makes the part CLAIMED and sends OWNERSHIP CLAIMED, after whose
acceptance presence opens and the table takes the administrator record, and its fault has that record removed again; the closing write
makes the part UNCLAIMED and sends OWNERSHIP RELEASED, then RELEASE DONE, and its fault leaves the release INCOMPLETE. The empty reply
bodies of the refusals, the finish and the release are the model's (log entry 16), and so is the events' acceptance in an act of its own
(log entry 43). -/
def Obligations.LifecycleWritesEnd : Prop :=
  (∀ (s : State) (w : Write) (a : WriteTo) (first second : Bool) (rest : List WriteRequest) (c : Card), s.inWrite w a rest →
    (∀ j v, w ≠ .cred j v) →
    let ok := s.endsDone w first second
    let u := s.wrote w first second rest
    let ends (t : State) : Prop := exec (.storeWriteEnd first second) s = .next t
    let fails : State := { u.storeFaulted.givesBack c .storeFault none [] with lifecycle := { s.lifecycle with work := none } }
    (a = .lifeCard → s.lifecycle.work = working c .finish true →
      (ok = true → ends { u.givesBack c .done none [] with
        lifecycle := { s.lifecycle with effective := .unclaimed, requested := .unclaimed, marker := false, work := none } })
      ∧ (ok = false → ends fails))
    ∧ (∀ bytes, a = .lifeCard → s.lifecycle.work = working c (.certificateWrite bytes) true →
      (ok = true → ends { u.givesBack c .done (some (BitVec.ofNat 32 bytes.length)) [] with
        lifecycle := { s.lifecycle with certificate := some bytes, work := none } })
      ∧ (ok = false → ends fails))
    ∧ (a = .lifeMarker → s.lifecycle.progress = .marking → s.lifecycle.work = working c .release true →
      (ok = true → (∀ x, s.update.session ≠ .checked x) →
        ends { u.givesBack c .done (some 3#32) [] with
          lifecycle := { s.lifecycle with
            marker := true, progress := .wiping, work := none
            answersSent := { custody := none, credential := none, update := none }
            answersTaken := { custody := none, credential := none, update := none } }
          custody := { s.custody with held := s.custody.held ++ [.wipe] }
          credential := { s.credential with held := s.credential.held ++ [.wipe] }
          update := { s.update with wipe := .arrived } })
      ∧ (∀ x, ok = true → s.update.session = .checked x →
        ends { u.givesBack c .done (some 2#32) [] with
          lifecycle := { s.lifecycle with marker := true, progress := .deferred, work := none } })
      ∧ (ok = false → ends { fails with
        lifecycle := { s.lifecycle with requested := .claimed, pending := false, progress := .none, work := none } }))
    ∧ (a = .lifeMarker → s.lifecycle.progress = .marking → s.lifecycle.work = none →
      (ok = true → (∀ x, s.update.session ≠ .checked x) →
        ends { u with
          lifecycle := { s.lifecycle with
            marker := true, progress := .wiping
            answersSent := { custody := none, credential := none, update := none }
            answersTaken := { custody := none, credential := none, update := none } }
          custody := { s.custody with held := s.custody.held ++ [.wipe] }
          credential := { s.credential with held := s.credential.held ++ [.wipe] }
          update := { s.update with wipe := .arrived } })
      ∧ (∀ x, ok = true → s.update.session = .checked x →
        ends { u with lifecycle := { s.lifecycle with marker := true, progress := .deferred } })
      ∧ (ok = false → ends { u.storeFaulted with
        lifecycle := { s.lifecycle with requested := .claimed, pending := false, progress := .none } }))
    ∧ (a = .lifeClosing → s.lifecycle.progress = .closing →
      (ok = true → s.quiet .lifecycleAsk → s.measure.starting = false →
        ends ({ u with lifecycle :=
            { s.lifecycle with effective := .unclaimed, marker := false, pending := false, progress := .none } }.awaits
          .lifecycleAsk [.request (.event .ownershipReleased), .act .releaseDone]))
      ∧ (ok = false → ends { u.storeFaulted with lifecycle := { s.lifecycle with progress := .incomplete } }))
    ∧ ∀ i r debt, a = .lifeClaim → s.credential.work = working c (.awaitClaim i r debt) true →
      (ok = true → s.quiet .lifecycleAsk → s.measure.starting = false →
        ends ({ u with lifecycle :=
            { s.lifecycle with effective := .claimed, requested := .claimed, marker := false } }.awaits
          .lifecycleAsk [.request (.event .ownershipClaimed), .act .claimDone]))
      ∧ (ok = false → s.storeRoom .credential → s.outboxes.refresh = [] → s.cred i = none →
        ends { u.storeFaulted with
          lifecycle := { s.lifecycle with claiming := false }
          credential := { s.credential with work := working c (.claimUndo i) true }
          store := u.store.queued (.cred i none) .credCard }))
    ∧ (∀ (s : State) (w : Write) (first second : Bool) (rest : List WriteRequest) (c : Card) (i : Fin 6) (r : KeyRecord)
        (body : List OutByte),
      s.inWrite w .custodyRequest rest → (∀ j v, w ≠ .cred j v) → s.custody.service = some (.install i r .lifecycle) →
      s.lifecycle.work = working c (.install body) true →
      let ok := s.endsDone w first second
      let u := s.wrote w first second rest
      let done : Lifecycle := { s.lifecycle with work := none }
      (ok = true → exec (.storeWriteEnd first second) s = .next { u.givesBack c .done none body with
        lifecycle := done
        custody := { s.custody with table := tableSet s.custody.table ⟨i.val, by omega⟩ (some r), service := none } })
      ∧ (ok = false → exec (.storeWriteEnd first second) s = .next { u.storeFaulted.givesBack c .storeFault none [] with
        lifecycle := done, custody := { s.custody with service := none } }))
    ∧ ∀ (s : State) (e : PartEvent), s.linkUp = true →
      (s.eventWaits .lifecycleAsk e [.act .releaseDone] → exec .partEvent s = .next { s.eventTaken .lifecycleAsk e with
        exch := { s.exch with attention := s.exch.attention ||| 128#9 }
        messages := s.messages + s.askMessages s.exch.enable })
      ∧ ∀ c i r debt, s.eventWaits .lifecycleAsk e [.act .claimDone] → s.credential.work = working c (.awaitClaim i r debt) true →
        s.carries → s.lifecycle.effective = .claimed → s.lifecycle.pending = false → s.census.state ≠ .failed →
        let p := outNum 2 r.policy.charge ++ outNum 2 r.policy.decay ++ outNum 2 r.policy.lock
        exec .partEvent s = .next { (s.eventTaken .lifecycleAsk e).givesBack c .matched none
            (outNum 1 (i.val + 1) ++ p ++ outNum 2 debt ++ outNum 1 1 ++ outNum 2 1200) with
          credential := { s.credential with
            work := none
            table := tableSet s.credential.table i (some { record := r, working := r.debt, writes := 0, attempt := false }) }
          lifecycle := { s.lifecycle with claiming := false, presence := some (s.pace.tick + 1200#32) } }

/-- A census run passes when oscillators A and R count at least 240 and B 208 to 238 within the bound; the state after it is HEALTHY,
DOUBT or FAILED by the state before; the counts are kept, the period timer starts at 256 ticks, or 16 after FAILED, a run that leaves
DOUBT is re-run at once with its counters at 0, and the jitter of a passing run alone reaches the seed. No block waits at a gate and
start-up has ended (R149, R150, R151, R154). Entering FAILED tells the lifecycle controller, and its part event is accepted, and CENSUS
FAILED asked for, with the row PART_EVENT (R152): that this is an act of its own is the model's (log entry 43). The period timer begins a
run when its limit has passed and none is in progress; a card at a randomness gate goes on when a run leaves HEALTHY, waits on when it
leaves DOUBT, and is refused ENTROPY when it enters FAILED, and so is the pairing request of FACTORY PAIRING (R10, R115, R122, R151,
R153); that a waiter waits on from FAILED is the model's in a state that no run reaches (log entry 33), and so is the answer to the
waiters before the part event is accepted (log entry 62); the empty reply body of ENTROPY is the model's (log entry 16). That a
limit-present byte other than 1 reads as clear is the model's (log entry 13). -/
def Obligations.CensusRunsEnd : Prop :=
  (∀ (s : State) (x : CensusRun) (a b r : Byte) (bounded : Bool) (jitter : List Byte), s.powered = true → s.census.run = some x →
    s.census.waiters = [] → s.startUp = .ended →
    let pass := bounded = false ∧ 240 ≤ (x.a + a).toNat ∧ 240 ≤ (x.r + r).toNat ∧ 208 ≤ (x.b + b).toNat ∧ (x.b + b).toNat ≤ 238
    let after (new : CensusState) (seed : Key256) : State := { s with census := { s.census with
      state := new, run := if new = .doubt then some { a := 0#8, b := 0#8, r := 0#8 } else none, a := x.a + a, b := x.b + b, r := x.r + r
      seed := seed
      period := some { start := s.pace.tick, limit := if new = .failed then 16 else 256 } } }
    let seed := Config.conditioning s.census.seed jitter
    (pass → s.census.state ≠ .failed → exec (.censusRunEnd a b r bounded jitter) s = .next (after .healthy seed))
    ∧ (pass → s.census.state = .failed → exec (.censusRunEnd a b r bounded jitter) s = .next (after .doubt seed))
    ∧ (¬pass → s.census.state = .healthy → exec (.censusRunEnd a b r bounded jitter) s = .next (after .doubt s.census.seed))
    ∧ (¬pass → s.census.state = .failed → exec (.censusRunEnd a b r bounded jitter) s = .next (after .failed s.census.seed))
    ∧ (¬pass → s.census.state = .doubt → s.quiet .census → s.measure.starting = false →
      exec (.censusRunEnd a b r bounded jitter) s = .next
        ({ after .failed s.census.seed with
          lifecycle := { s.lifecycle with reports := s.lifecycle.reports + 1 } }.awaits .census
            [.request (.event .censusFailed), .act .censusAttention])))
    ∧ (∀ s : State, s.eventWaits .census .censusFailed [.act .censusAttention] → s.linkUp = true →
      exec .partEvent s = .next { s.eventTaken .census .censusFailed with
        exch := { s.exch with attention := s.exch.attention ||| 32#9 }
        messages := s.messages + s.askMessages s.exch.enable })
    ∧ (∀ (s : State) (p : PeriodTimer), s.powered = true → s.census.period = some p → s.census.run = none →
      (p.limit ≤ (s.pace.tick - p.start).toNat →
        exec .periodTimerExpiry s = .next { s with census := { s.census with run := some { a := 0#8, b := 0#8, r := 0#8 } } })
      ∧ ((s.pace.tick - p.start).toNat < p.limit → exec .periodTimerExpiry s = .next s))
    ∧ (∀ (s : State) (x : CensusRun) (c : Card) (a b r : Byte) (jitter : List Byte), s.powered = true → s.census.run = some x →
      s.census.waiters = [.custody] → s.startUp = .ended → s.custody.work = working c .gate false → c.code = 0x010A#16 → s.carries →
      240 ≤ (x.a + a).toNat → 240 ≤ (x.r + r).toNat → 208 ≤ (x.b + b).toNat → (x.b + b).toNat ≤ 238 →
      let seed := Config.conditioning s.census.seed jitter
      let n := c.field 0 1
      (s.census.state = .doubt → ∃ t, exec (.censusRunEnd a b r false jitter) s = .next t ∧ t.census.state = .healthy
        ∧ t.census.waiters = [] ∧ t.census.seed = Config.drawAdvance seed n ∧ t.custody = { s.custody with work := none, undo := none }
        ∧ t.exch = s.exch.handed { card := c, outcome := .done, detail := BitVec.ofNat 32 n, body := drawnBytes seed n })
      ∧ (s.census.state = .failed → ∃ t, exec (.censusRunEnd a b r false jitter) s = .next t ∧ t.census.state = .doubt
        ∧ t.census.waiters = [.custody] ∧ t.census.run = some { a := 0#8, b := 0#8, r := 0#8 } ∧ t.custody = s.custody ∧ t.exch = s.exch))
    ∧ (∀ (s : State) (x : CensusRun) (c : Card) (a b r : Byte) (jitter : List Byte), s.powered = true → s.census.run = some x →
      s.startUp = .ended → s.census.state = .doubt → 240 ≤ (x.a + a).toNat → 240 ≤ (x.r + r).toNat → 208 ≤ (x.b + b).toNat →
      (x.b + b).toNat ≤ 238 →
      let seed := Config.conditioning s.census.seed jitter
      let went (n : Nat) : State := { s with census := { s.census with
        state := .healthy, run := none, a := x.a + a, b := x.b + b, r := x.r + r, seed := Config.drawAdvance seed n, waiters := []
        period := some { start := s.pace.tick, limit := 256 } } }
      let ends (t : State) : Prop := exec (.censusRunEnd a b r false jitter) s = .next t
      (s.census.waiters = [.custody] → s.custody.work = working c .gate false →
        (c.code = 0x0101#16 → keyGenerateAlgorithm c = .p256Sign → (keyGenerateFlags c).fits .p256Sign = true →
          s.lifecycle.effective ≠ .blank →
          ((keyGenerateFields c).cls = .owner →
            s.lifecycle.effective = .claimed ∧ s.lifecycle.pending = false ∧ s.lifecycle.presence.isSome = true) →
          ends { went 32 with
            custody := { s.custody with work := working c .curveGenerate false }
            curve := s.curve.submit s.identityScalar .custody (.generate (strOf 256 (drawnBytes seed 32))) })
        ∧ ∀ (w key : KeyRecord) (k : Key256), c.code = 0x0105#16 → s.slot (c.slot 1) = some w → w.state = .live → w.limit = none →
          w.material = .wrap256 k → s.slot (c.slot 0) = some key →
          let text := blobPlaintext key
          ends { went 12 with
            custody := { s.custody with
              table := tableSet s.custody.table (c.slot 1) (some (usedOnce w))
              work := working c (.writeOut
                (sealBlob k (strOf 96 (drawnBytes seed 12)) (fillOpen s.free text)) (some 163#32) []) false
              undo := some (c.slot 1, w) }
            free := s.free + countOpen text })
      ∧ (s.census.waiters = [.credential] → s.credential.service = none → s.credential.work = working c .gate false →
        s.lifecycle.presence.isSome = true → ∀ n,
        let drawn := drawnBytes seed n
        let salt : Salt := strOf 128 (drawn.take 16)
        let copy (secret : List Byte) : SealedSecret := sealSecret (strOf 96 (drawn.drop 16)) secret
        let hashes (stage : CredStage) (secret : List Byte) : Prop := ends { went n with
          credential := { s.credential with work := working c stage false }
          hash := s.hash.submit .credential (verifierJob salt secret) }
        (c.code = 0x0401#16 → c.field 1 1 = 0 → n = (if (credEnrollFields c).kind = .admin then 16 else 28) →
          let secret := (credEnrollFields c).secret
          hashes (.enrolHash salt (if (credEnrollFields c).kind = .admin then none else some (copy secret))) secret)
        ∧ ∀ e, c.code = 0x0404#16 → s.cred c.place = some e → c.field 2 1 = 0 → n = (if e.record.kind = .releasable then 28 else 16) →
          let secret := c.fieldBytes 3 (c.field 1 1)
          hashes (.replaceHash c.place salt (if e.record.kind = .releasable then some (copy secret) else none) none) secret)
      ∧ (∀ code label policy, s.census.waiters = [.credential] → s.credential.service = some (.pairingGate code label policy) →
        let salt : Salt := strOf 128 (drawnBytes seed 16)
        ends { went 16 with
          credential := { s.credential with service := some (.pairingHash salt label policy) }
          hash := s.hash.submit .credential (verifierJob salt code) })
      ∧ (s.census.waiters = [.lifecycle] → s.lifecycle.work = working c .gate false →
        ends { went 32 with
          lifecycle := { s.lifecycle with work := working c .generate false }
          curve := s.curve.submit s.identityScalar .lifecycle (.generate (strOf 256 (drawnBytes seed 32))) }))
    ∧ ∀ (s : State) (x : CensusRun) (c d : Card) (a b r : Byte) (bounded : Bool) (jitter : List Byte), s.powered = true →
      s.census.run = some x → s.startUp = .ended → s.census.state = .doubt → s.carries → s.quiet .census → s.measure.starting = false →
      bounded = true ∨ (x.a + a).toNat < 240 ∨ (x.r + r).toNat < 240 ∨ (x.b + b).toNat < 208 ∨ 238 < (x.b + b).toNat →
      let told : Lifecycle := { s.lifecycle with reports := s.lifecycle.reports + 1 }
      let failed : State := ({ s with
        lifecycle := told
        census := { s.census with
          state := .failed, run := none, a := x.a + a, b := x.b + b, r := x.r + r, waiters := []
          period := some { start := s.pace.tick, limit := 16 } } }).awaits .census
            [.request (.event .censusFailed), .act .censusAttention]
      let refused : State := failed.givesBack c .entropy none []
      let ends (t : State) : Prop := exec (.censusRunEnd a b r bounded jitter) s = .next t
      (s.census.waiters = [.custody] → s.custody.work = working c .gate false →
        ends { refused with custody := { s.custody with work := none, undo := none } })
      ∧ (s.census.waiters = [.credential] → s.credential.service = none → s.credential.work = working c .gate false →
        ends { refused with credential := { s.credential with work := none } })
      ∧ (∀ code label policy, s.census.waiters = [.credential] → s.credential.service = some (.pairingGate code label policy) →
        s.lifecycle.work = working c .pairing true →
        ends { refused with credential := { s.credential with service := none }, lifecycle := { told with work := none } })
      ∧ (s.census.waiters = [.lifecycle] → s.lifecycle.work = working c .gate false →
        ends { refused with lifecycle := { told with work := none } })
      ∧ (s.census.waiters = [.lifecycle, .custody] → s.lifecycle.work = working c .gate false → s.custody.work = working d .gate false →
        ends { refused.givesBack d .entropy none [] with
          lifecycle := { told with work := none }, custody := { s.custody with work := none, undo := none } })

/-- A pace tick with nothing of the last tick left to take: the count advances by 1, the decay and refresh of the multiples of 64 and 512
fall due, and, after start-up, the owner-release line is sampled: a low sample raises the hold count towards 40, a high one clears it
(R101, R103, R132, R155). -/
def Obligations.PaceTicks : Prop :=
  ∀ (s : State) (low : Bool), s.powered = true → s.presenceDue = false → s.pace.decayDue = false → s.pace.refreshDue = false →
    s.idleExpires = false → s.guardExpires = false → s.periodExpires = false → s.lifecycle.holdDue = false →
    exec (.paceTick low) s = .next { s with
      ownerLineLow := low
      pace := {
        tick := s.pace.tick + 1#32
        decayDue := decide ((s.pace.tick + 1#32).toNat % 64 = 0), refreshDue := decide ((s.pace.tick + 1#32).toNat % 512 = 0) }
      lifecycle := if s.startUp = .ended then { s.lifecycle with
          hold := if low then min 40 (s.lifecycle.hold + 1) else 0
          holdDue := low && decide (s.lifecycle.hold = 39) }
        else s.lifecycle }

/-- Start-up with no credential record to remove and no trial: the tables hold what the store's records load as, the volatile slots are
EMPTY, the chains and the record list are empty with nothing missed or flagged, and the census's start-up run is in progress (R4, R45,
R63, R69, R104, R119, R157, R164). An OWNER record found while the part is not CLAIMED is not placed, and start-up waits for its removal
(R104). Start-up with one kind on trial sends one write: the trial with one boot fewer, or no trial when no boot is left, and waits for
it; when it has ended the table takes it, and a lapse sends its part event and TRIAL LAPSED (R83, R164). Step 5 lasts until the part
events held since the reset are in the record list (R45, R164). A start-up run that passes ends start-up, or, with a release pending,
resumes its wipe, and start-up ends when the wipe's last part event is in the record list (R135, R157, R164, R172). A start-up run that
fails leaves the census FAILED, with its report and its part event sent, and start-up goes on, as after a run that passes, when the event
has been accepted and CENSUS FAILED asked for (R157). A write that ends STORE FAULT before the last step sets the start-up fault flag and
asks for nothing; the last step asks for STORE FAULT when the flag is set, and clears it (R165). That an event of step 4 joins
the measure unit's list in the step that sends it is the model's (log entries 18 and 43), and so are the acceptance of CENSUS FAILED in an
act of its own (log entry 43) and which steps the row START_UP takes together (log entry 38). -/
def Obligations.StartUpLoadsTheTables : Prop :=
  (∀ s : State, s.mayStart = true →
    let life := s.store.lifecycle.loaded.getD { effective := .blank, marker := false }
    (∀ i r, (tableGet s.store.creds i).loaded = some r → r.cls = .factory ∨ life.effective = .claimed) →
    (∀ k r, (tableGet s.store.kinds k).loaded = some r → r.trial = none) →
    let held : Bool := !(s.measure.internal.isEmpty && s.measure.service.isNone && s.measureWaiting.isEmpty)
    ∃ t, exec .startUp s = .next t ∧ t.startUp = (if held then .step5 else .step6)
      ∧ t.census.run = (if held then s.census.run else some { a := 0#8, b := 0#8, r := 0#8 }) ∧ t.measure.starting = false
      ∧ t.lifecycle.effective = life.effective ∧ t.lifecycle.requested = (if life.marker then .unclaimed else life.effective)
      ∧ t.lifecycle.pending = life.marker ∧ t.lifecycle.progress = (if life.marker then .incomplete else .none)
      ∧ t.lifecycle.presence = none ∧ t.lifecycle.hold = 0 ∧ t.lifecycle.certificate = s.store.certificate.loaded
      ∧ (∀ i : Fin 48, t.slot i = if h : i.val < 32 then (tableGet s.store.slots ⟨i.val, h⟩).loaded else none)
      ∧ (∀ i, t.mark i = (tableGet s.store.marks i).loaded.getD 0#32)
      ∧ (∀ i, t.cred i = ((tableGet s.store.creds i).loaded).map fun r =>
          { record := { r with lastTick := s.pace.tick }, working := r.debt, writes := 0, attempt := false })
      ∧ (∀ k, t.kindRecord k = (tableGet s.store.kinds k).loaded.getD { floor := 0, confirmed := none, trial := none })
      ∧ (∀ c, t.chain c = 0#256) ∧ t.measure.closed = 0#11 ∧ t.measure.records = [] ∧ t.measure.missed = 0 ∧ t.measure.truncated = false
      ∧ t.measure.quoteSeq = 0 ∧ t.store.queue = [] ∧ t.exch = s.exch ∧ t.pace = s.pace ∧ SameMemory s t)
    ∧ (∀ (s : State) (k : Fin 8) (r : KindRecord) (x : Trial), s.mayStart = true → s.quiet .update →
    (∀ i c, (tableGet s.store.creds i).loaded = some c → c.cls = .factory) →
    (tableGet s.store.kinds k).loaded = some r → r.trial = some x →
    (∀ j q, j ≠ k → (tableGet s.store.kinds j).loaded = some q → q.trial = none) →
    ∃ t, exec .startUp s = .next t ∧ t.startUp = .step4 1
      ∧ t.store.queue = [{ answerTo := .updateStartUp, write := .kind k { r with
          trial := if x.boots = 0 then none else some { x with boots := x.boots - 1 } } }]
      ∧ t.kindRecord k = r)
    ∧ (∀ (s : State) (i : Fin 32) (r : CredRecord), s.mayStart = true → s.quiet .credential → s.outboxes.refresh = [] →
      (s.store.lifecycle.loaded.getD { effective := .blank, marker := false }).effective ≠ .claimed →
      (tableGet s.store.creds i).loaded = some r → r.cls = .owner →
      (∀ j q, j ≠ i → (tableGet s.store.creds j).loaded = some q → q.cls = .factory) →
      ∃ t, exec .startUp s = .next t ∧ t.startUp = .step3 1 ∧ t.cred i = none
        ∧ (∀ j, j ≠ i → t.cred j = ((tableGet s.store.creds j).loaded).map fun q =>
          { record := { q with lastTick := s.pace.tick }, working := q.debt, writes := 0, attempt := false })
        ∧ t.store.queue = [{ write := .cred i none, answerTo := .credStartUp }] ∧ t.measure = s.measure ∧ t.census = s.census)
    ∧ (∀ (s : State) (first second : Bool) (i : Fin 32), s.powered = true → s.startUp = .step3 1 → s.store.waiting = [] →
      s.store.queue = [{ write := .cred i none, answerTo := .credStartUp }] → s.credential.work = none → s.cred i = none →
      (∀ k r, (tableGet s.store.kinds k).loaded = some r → r.trial = none) →
      s.measure.internal = [] → s.measure.service = none → s.measureWaiting = [] →
      ∃ t, exec (.storeWriteEnd first second) s = .next t ∧ t.startUp = .step6 ∧ t.measure.starting = false
        ∧ t.credential = s.credential ∧ t.store.queue = [] ∧ t.exch = s.exch ∧ t.messages = s.messages
        ∧ t.store.startUpFault = (s.store.startUpFault || !s.endsDone (.cred i none) first second)
        ∧ ∀ k, t.kindRecord k = (tableGet s.store.kinds k).loaded.getD { floor := 0, confirmed := none, trial := none })
    ∧ (∀ (s : State) (first second : Bool) (k : Fin 8) (r : KindRecord) (x : Trial), s.powered = true → s.startUp = .step4 1 →
      s.store.waiting = [] → s.store.queue = [{ write := .kind k r, answerTo := .updateStartUp }] → s.credential.work = none →
      (s.kindRecord k).trial = some x → s.measure.starting = true → s.quiet .updateAsk → s.outboxes.updateWipe = [] →
      s.measureWaiting = [] → s.measure.internal = [] → s.measure.service = none →
      let ok := s.endsDone (.kind k r) first second
      ∃ t, exec (.storeWriteEnd first second) s = .next t ∧ t.startUp = (if ok ∧ r.trial = none then .step5 else .step6)
        ∧ t.measure.starting = false
        ∧ t.census.run = (if ok ∧ r.trial = none then s.census.run else some { a := 0#8, b := 0#8, r := 0#8 })
        ∧ t.kindRecord k = (if ok then r else s.kindRecord k)
        ∧ t.measure.internal = (if ok ∧ r.trial = none then [.event (.updateLapsed k x.version .bootsExhausted)] else [])
        ∧ t.exch.attention = (if ok ∧ r.trial = none then s.exch.attention ||| 16#9 else s.exch.attention)
        ∧ t.store.startUpFault = (s.store.startUpFault || !ok))
    ∧ (∀ (s : State) (a b r : Byte) (jitter : List Byte), s.powered = true → s.startUp = .step6 →
      s.census.run = some { a := 0#8, b := 0#8, r := 0#8 } → s.census.state = .doubt → s.census.waiters = [] →
      s.outboxes.census = [] → 240 ≤ a.toNat → 240 ≤ r.toNat → 208 ≤ b.toNat → b.toNat ≤ 238 →
      ∃ t, exec (.censusRunEnd a b r false jitter) s = .next t ∧ t.census.state = .healthy ∧ t.census.run = none
        ∧ (s.lifecycle.pending = false → t.startUp = .ended ∧ t.custody.held = s.custody.held
          ∧ t.exch = { s.exch with
            fetcher := if s.exch.fetcher = .waitingStartUp then .reading else s.exch.fetcher
            attention := if s.store.startUpFault then s.exch.attention ||| 8#9 else s.exch.attention }
          ∧ t.messages = s.messages + (if s.store.startUpFault && s.linkUp then s.askMessages s.exch.enable else 0)
          ∧ t.store = { s.store with startUpFault := false })
        ∧ (s.lifecycle.pending = true → t.startUp = .step7 ∧ t.lifecycle.progress = .wiping ∧ t.exch = s.exch
          ∧ t.messages = s.messages ∧ t.store = s.store
          ∧ t.custody.held = s.custody.held ++ [.wipe] ∧ t.credential.held = s.credential.held ++ [.wipe]
          ∧ t.update.wipe = .arrived))
    ∧ (∀ (s : State) (a b r : Byte) (bounded : Bool) (jitter : List Byte), s.powered = true → s.startUp = .step6 →
      s.census.run = some { a := 0#8, b := 0#8, r := 0#8 } → s.census.state = .doubt → s.census.waiters = [] → s.quiet .census →
      s.measure.starting = false → bounded = true ∨ a.toNat < 240 ∨ r.toNat < 240 ∨ b.toNat < 208 ∨ 238 < b.toNat →
      exec (.censusRunEnd a b r bounded jitter) s = .next (({ s with
        census := { s.census with
          state := .failed, run := none, a := a, b := b, r := r, period := some { start := s.pace.tick, limit := 16 } }
        lifecycle := { s.lifecycle with reports := s.lifecycle.reports + 1 } }).awaits .census
          [.request (.event .censusFailed), .act .censusAttention]))
    ∧ (∀ s : State, s.powered = true → s.startUp = .step6 → s.census.run = none → s.census.state = .failed →
      s.measure.starting = false → s.measure.work = none → s.measure.service = none → s.measure.internal = [] →
      s.measureWaiting = [.census] → s.outboxes.census = [.request (.event .censusFailed), .act .censusAttention] →
      let t : State := { s.eventTaken .census .censusFailed with
        messages := s.messages + if s.linkUp then s.askMessages s.exch.enable else 0 }
      let asked := s.exch.attention ||| 32#9
      (s.lifecycle.pending = false → exec .partEvent s = .next { t with
        startUp := .ended
        exch := { s.exch with
          fetcher := if s.exch.fetcher = .waitingStartUp then .reading else s.exch.fetcher
          attention := if s.store.startUpFault then asked ||| 8#9 else asked }
        store := { s.store with startUpFault := false } })
      ∧ (s.lifecycle.pending = true → exec .partEvent s = .next { t with
        startUp := .step7
        exch := { s.exch with attention := asked }
        lifecycle := { s.lifecycle with progress := .wiping, answersSent := Trio.empty, answersTaken := Trio.empty }
        custody := { s.custody with held := s.custody.held ++ [.wipe] }
        credential := { s.credential with held := s.credential.held ++ [.wipe] }
        update := { s.update with wipe := .arrived } }))
    ∧ ∀ (s : State) (h : HostWrites) (answered : Bool) (old digest : Digest) (e : PartEvent) (rest : List MeasureRequest),
      s.powered = true →
      s.hash.running = some { client := .measure, job := shaJob (strBytes old ++ strBytes digest), withdrawn := false } →
      s.measure.service = some (.eventExtend e digest) → s.measure.internal = .event e :: rest → s.measureWaiting = [] →
      s.measure.work = none → s.measure.records.length < 96 →
      (s.startUp = .step5 → ∃ t, exec (.hashPieceEnd h answered) s = .next t ∧ t.measure.internal = rest
        ∧ t.startUp = (if rest = [] then .step6 else .step5)
        ∧ t.census.run = if rest = [] then some { a := 0#8, b := 0#8, r := 0#8 } else s.census.run)
      ∧ (s.startUp = .step7 → s.lifecycle.progress = .none ∨ s.lifecycle.progress = .incomplete →
        ∃ t, exec (.hashPieceEnd h answered) s = .next t ∧ t.measure.internal = rest
          ∧ t.startUp = (if rest = [] then .ended else .step7)
          ∧ t.store = { s.store with startUpFault := decide (rest ≠ []) && s.store.startUpFault }
          ∧ t.exch.attention = (if rest = [] ∧ s.store.startUpFault = true then s.exch.attention ||| 8#9 else s.exch.attention)
          ∧ t.messages = s.messages
            + if rest = [] ∧ s.store.startUpFault = true ∧ s.linkUp = true then s.askMessages s.exch.enable else 0)

/-! ## The engines, the store and extents -/

/-- A waiting job is passed over by each other client at most once: when a piece or an operation ends, the next grant goes to it, or to a
client that comes before it, after which it stands nearer in the rotation. A free engine grants a job that arrives (R141, R146). -/
def Obligations.EnginesServeInRotation : Prop :=
  (∀ (e : HashEngine) (c : HashClient) (j : HashJob), e.waiting c = some j →
      ∃ run, e.release.running = some run ∧ (run.client = c ∧ run.job = j
        ∨ run.client ≠ c ∧ e.release.waiting c = some j ∧ run.client.rotation.idxOf c < e.pointer.rotation.idxOf c))
    ∧ (∀ (e : CurveEngine) (k : Option Scalar) (c : CurveClient) (o : CurveOp), e.waiting c = some o →
      ∃ run, (e.release k).running = some run ∧ (run.client = c ∧ run.op = o.granted k
        ∨ run.client ≠ c ∧ (e.release k).waiting c = some o ∧ run.client.rotation.idxOf c < e.pointer.rotation.idxOf c))
    ∧ (∀ (e : HashEngine) (c : HashClient) (j : HashJob), e.running = none → e.waiting c = none →
      e.submit c j = { e with running := some { client := c, job := j, withdrawn := false } })
    ∧ ∀ (e : CurveEngine) (k : Option Scalar) (c : CurveClient) (o : CurveOp), e.running = none → e.waiting c = none →
      e.submit k c o = { e with running := some { client := c, op := o.granted k } }

/-- A write by program and verify, of a record of any kind (R159, R161): written DONE, a record is loaded with the new value, its generation
one higher, and its former copy stands at the alternate location; a write that ends in a fault leaves the record as it would be loaded,
without an alternate location; a spare is used only for a record without an alternate location or after a failed read-back, and each failed
location is retired: the location map is given for every course of a write, and the location of the new copy where it is confirmed. The store
carries out a write of each kind of record so, and changes that record and the location map alone. A write cut by a loss of supply leaves
the record with its former value, whichever programming was cut, the spare it took taken and the location it retired retired, and with it
every record of the store (R162). That the spares are taken in the order of their numbers is the model's (log entry 71). -/
def Obligations.WritesProgramAndVerify : Prop :=
  (∀ (α : Type) (c : Cells α) (v : Option α) (m : LocationMap) (first second : Bool), c.settled = c →
    let result := c.program v m first second
    let n := m.spares
    let spare : Loc := .spare (64 - n)
    let next : Loc := .spare (65 - n)
    let done (n : Nat) (retired : List Loc) (l : Loc) : Prop :=
      result.2.2 = true ∧ result.2.1 = { spares := n, retired := retired } ∧ result.1.current.loc = l
    let faults (n : Nat) (retired : List Loc) : Prop := result.2.2 = false ∧ result.2.1 = { spares := n, retired := retired }
    (result.2.2 = true → result.1.loaded = v ∧ result.1.alternate = some c.current
      ∧ ∃ k, result.1.current.copy = some k ∧ k.value = v ∧ k.intact = true
        ∧ k.gen = (match c.current.copy with
            | some old => old.gen + 1#32
            | none => 1#32))
    ∧ (result.2.2 = false → result.1.loaded = c.loaded ∧ result.1.current = c.current ∧ result.1.alternate = none)
    ∧ result.1.settled = result.1
    ∧ (∀ spot, c.alternate = some spot →
      (first = true → done n m.retired spot.loc)
      ∧ (first = false → n = 0 → faults 0 (spot.loc :: m.retired))
      ∧ (first = false → 0 < n → second = true → done (n - 1) (spot.loc :: m.retired) spare)
      ∧ (first = false → 0 < n → second = false → faults (n - 1) (spare :: spot.loc :: m.retired)))
    ∧ (c.alternate = none →
      (n = 0 → faults 0 m.retired)
      ∧ (0 < n → first = true → done (n - 1) m.retired spare)
      ∧ (n = 1 → first = false → faults 0 (spare :: m.retired))
      ∧ (1 < n → first = false → second = true → done (n - 2) (spare :: m.retired) next)
      ∧ (1 < n → first = false → second = false → faults (n - 2) (next :: spare :: m.retired))))
    ∧ (∀ (α : Type) (c : Cells α) (v : Option α) (m : LocationMap) (cut : WriteCut), c.settled = c →
      let result := c.tear v m cut
      let n := m.spares
      let spare : Loc := .spare (64 - n)
      result.1.loaded = c.loaded ∧ result.1.current = c.current ∧ result.1.settled = result.1
      ∧ (∀ spot, c.alternate = some spot →
        (cut = .firstProgramming → result.2 = m)
        ∧ (cut = .secondProgramming → result.2 = { spares := n - 1, retired := spot.loc :: m.retired }))
      ∧ (c.alternate = none →
        (n = 0 → result.2 = m)
        ∧ (0 < n → cut = .firstProgramming → result.2 = { m with spares := n - 1 })
        ∧ (0 < n → cut = .secondProgramming → result.2 = { spares := n - 2, retired := spare :: m.retired })))
    ∧ (∀ (st : Store) (first second : Bool),
      (∀ v, let r := st.lifecycle.program (some v) st.map first second
        st.program (.lifecycle v) first second = ({ st with lifecycle := r.1, map := r.2.1 }, r.2.2))
      ∧ (∀ v, let r := st.certificate.program (some v) st.map first second
        st.program (.certificate v) first second = ({ st with certificate := r.1, map := r.2.1 }, r.2.2))
      ∧ (∀ i v, let r := (tableGet st.slots i).program v st.map first second
        st.program (.slot i v) first second = ({ st with slots := tableSet st.slots i r.1, map := r.2.1 }, r.2.2))
      ∧ (∀ i v, let r := (tableGet st.marks i).program (some v) st.map first second
        st.program (.mark i v) first second = ({ st with marks := tableSet st.marks i r.1, map := r.2.1 }, r.2.2))
      ∧ (∀ i v, let r := (tableGet st.creds i).program v st.map first second
        st.program (.cred i v) first second = ({ st with creds := tableSet st.creds i r.1, map := r.2.1 }, r.2.2))
      ∧ ∀ k v, let r := (tableGet st.kinds k).program (some v) st.map first second
        st.program (.kind k v) first second = ({ st with kinds := tableSet st.kinds k r.1, map := r.2.1 }, r.2.2))
    ∧ (∀ (st : Store) (cut : WriteCut),
      (∀ v, let r := st.lifecycle.tear (some v) st.map cut
        st.tear (.lifecycle v) cut = { st with lifecycle := r.1, map := r.2 })
      ∧ (∀ v, let r := st.certificate.tear (some v) st.map cut
        st.tear (.certificate v) cut = { st with certificate := r.1, map := r.2 })
      ∧ (∀ i v, let r := (tableGet st.slots i).tear v st.map cut
        st.tear (.slot i v) cut = { st with slots := tableSet st.slots i r.1, map := r.2 })
      ∧ (∀ i v, let r := (tableGet st.marks i).tear (some v) st.map cut
        st.tear (.mark i v) cut = { st with marks := tableSet st.marks i r.1, map := r.2 })
      ∧ (∀ i v, let r := (tableGet st.creds i).tear v st.map cut
        st.tear (.cred i v) cut = { st with creds := tableSet st.creds i r.1, map := r.2 })
      ∧ ∀ k v, let r := (tableGet st.kinds k).tear (some v) st.map cut
        st.tear (.kind k v) cut = { st with kinds := tableSet st.kinds k r.1, map := r.2 })
    ∧ ∀ (s : State) (cut : WriteCut), s.powered = true → s.storeOk →
      ∃ t, exec (.powerLoss cut) s = .next t ∧ t.store.queue = [] ∧ t.storeOk ∧ t.store.lifecycle.loaded = s.store.lifecycle.loaded
        ∧ t.store.certificate.loaded = s.store.certificate.loaded
        ∧ (∀ i, (tableGet t.store.slots i).loaded = (tableGet s.store.slots i).loaded)
        ∧ (∀ i, (tableGet t.store.marks i).loaded = (tableGet s.store.marks i).loaded)
        ∧ (∀ i, (tableGet t.store.creds i).loaded = (tableGet s.store.creds i).loaded)
        ∧ ∀ k, (tableGet t.store.kinds k).loaded = (tableGet s.store.kinds k).loaded

/-- The end of the store's write answers its requester and leaves the queue: a custody card's record is taken by the table and the card
settles, or the card is refused STORE FAULT and STORE FAULT is asked for; a write that no requester waits for changes the store alone. No
requester waits for room here (R8, R160, R161, R163). A use that the card has completed in the table alone is taken back by the fault (R6,
R9; read from them by inference, log entry 25). The write of a use lets KEY WRAP OUT write its blob, and KEY IMPORT place its key (R9,
R15). The empty reply body of STORE FAULT is the model's (log entry 16), and so is its detail word where a KEY IMPORT has one write due
(log entry 59). A write that nobody waits for and that ends in a fault while the reset line is asserted or before start-up has ended sets
the start-up fault flag, and asks for nothing (R163, R165). Of the writes that nobody waits for, those of credential records are not stated
here, and the writes of the other requesters are stated with their units. -/
def Obligations.StoreWritesEnd : Prop :=
  ∀ (s : State) (first second : Bool) (rest : List WriteRequest), s.powered = true → s.store.waiting = [] →
    s.credential.work = none →
    (∀ (i : Fin 48) (j : Fin 32) (v : Option KeyRecord) (c : Card) (fd d : Option Word32) (o : CardOutcome) (body : List OutByte),
      s.store.queue = { write := .slot j v, answerTo := .custodyCard } :: rest →
      s.custody.work = working c (.record i v fd (.settle o d body)) true → s.carries →
      let result := (tableGet s.store.slots j).program v s.store.map first second
      let store : Store := { s.store with slots := tableSet s.store.slots j result.1, map := result.2.1, queue := rest }
      (result.2.2 = true → exec (.storeWriteEnd first second) s = .next { s.givesBack c o d body with
        custody := { s.custody with table := tableSet s.custody.table i v, work := none, undo := none }
        store := store })
      ∧ (result.2.2 = false → s.startUp = .ended → s.resetLine = false → s.linkUp = true →
        ∃ t, exec (.storeWriteEnd first second) s = .next t
          ∧ t.custody = { s.custody with table := s.custody.takenBack, work := none, undo := none } ∧ t.store = store
          ∧ t.exch.attention = s.exch.attention ||| 8#9 ∧ t.messages = s.messages + s.askMessages s.exch.enable
          ∧ t.exch.settleList = (s.givesBack c .storeFault fd []).exch.settleList))
    ∧ (∀ (i : Fin 48) (j : Fin 32) (v : Option KeyRecord) (c : Card) (fd : Option Word32),
      s.store.queue = { write := .slot j v, answerTo := .custodyCard } :: rest →
      let result := (tableGet s.store.slots j).program v s.store.map first second
      let store : Store := { s.store with slots := tableSet s.store.slots j result.1, map := result.2.1, queue := rest }
      let table := tableSet s.custody.table i v
      result.2.2 = true →
      (∀ blob, s.custody.work = working c (.record i v fd (.writeBlob blob)) true →
        exec (.storeWriteEnd first second) s = .next { s with
          custody := { s.custody with table := table, work := working c (.writeOut blob (some 163#32) []) true }, store := store })
      ∧ ∀ target record, s.custody.work = working c (.record i v fd (.importTarget target record)) true →
        (32 ≤ target.val → s.carries → exec (.storeWriteEnd first second) s = .next { s.givesBack c .done none [] with
          custody := { s.custody with table := tableSet table target (some record), work := none, undo := none }, store := store })
        ∧ ∀ k : Fin 32, target.val = k.val → s.quiet .custody → s.store.queue.length < storeCapacity →
          exec (.storeWriteEnd first second) s = .next { s with
            custody := { s.custody with
              table := table
              work := working c (.record target (some record) (some (BitVec.ofNat 32 k.val)) (.settle .done none [])) true }
            store := { store with queue := rest ++ [{ write := .slot k (some record), answerTo := .custodyCard }] } })
    ∧ (∀ s : State, s.custody.takenBack = match s.custody.undo with
      | some (k, old) => tableSet s.custody.table k (some old)
      | none => s.custody.table)
    ∧ (∀ w, s.store.queue = { write := w, answerTo := .nobody } :: rest → (∀ i v, w ≠ .cred i v) →
      (s.store.program w first second).2 = true →
      exec (.storeWriteEnd first second) s = .next { s with store := { (s.store.program w first second).1 with queue := rest } })
    ∧ (∀ w, s.store.queue = { write := w, answerTo := .nobody } :: rest → (∀ i v, w ≠ .cred i v) →
      (s.store.program w first second).2 = false → s.resetLine = true ∨ s.startUp ≠ .ended →
      exec (.storeWriteEnd first second) s
        = .next { s with store := { (s.store.program w first second).1 with queue := rest, startUpFault := true } })
    ∧ (s.store.queue = [] → exec (.storeWriteEnd first second) s = .next s)

/-- The end of a unit's own DMA write: answered, the bytes stand in the card's extent and the card settles DONE; not answered, or with the
link down, or cut by a loss of the link before (R186), the extent holds the first of them, as many as had been written, and the card is
refused LINK FAULT. Every byte outside the extent stays. The read of a certificate sends it to the store, and a failed read of a
certificate or of a blob is refused LINK FAULT (R9, R15, R20, R25, R47, R50, R58, R87, R91, R123). That the part written is the output's
first bytes is the model's (log entry 9), and so is the empty reply body of LINK FAULT (log entry 16). A KEY WRAP OUT whose write fails
loses the use of its wrapping key that was completed in the table alone, and keeps one that the store has written (R6, R15, R25; read from
them by inference, log entry 25). That an access past the last 64-bit address goes on at address 0 is the model's (log entry 64). -/
def Obligations.UnitsWriteTheirExtents : Prop :=
  ∀ (s : State) (h : HostWrites) (r : DmaResult) (c : Card) (bytes : List Byte) (d : Option Word32) (body : List OutByte)
    (committed cut : Bool), s.powered = true → s.carries →
    let ok := dmaAnswered r && s.linkUp && !cut
    let u : State := { s with
      host := Memory.writeBytes (Memory.hostStores s.host h) (c.extentAddress 0) (if ok then bytes else bytes.take (dmaWritten r)) }
    let t : State := if ok then u.givesBack c .done d body else u.givesBack c .linkFault none []
    (s.custody.work = accessing c (.writeOut bytes d body) committed cut →
      let table := match s.custody.undo with
        | some (k, old) => if ok then s.custody.table else tableSet s.custody.table k (some old)
        | none => s.custody.table
      exec (.extentDmaEnd .custody h r) s = .next { t with custody := { s.custody with table := table, work := none, undo := none } })
    ∧ (s.measure.work = accessing c (.writeOut bytes d body) committed cut → s.measure.paused = none →
      exec (.extentDmaEnd .measure h r) s = .next { t with measure := { s.measure with work := none } })
    ∧ (s.update.work = accessing c (.writeOut bytes d body) committed cut → s.update.wipe ≠ .held →
      exec (.extentDmaEnd .update h r) s = .next { t with update := { s.update with work := none } })
    ∧ (s.lifecycle.work = accessing c (.writeOut bytes d body) committed cut →
      exec (.extentDmaEnd .lifecycle h r) s = .next { t with lifecycle := { s.lifecycle with work := none } })
    ∧ (∀ a, (∀ i, i < bytes.length → a ≠ (c.extentAddress 0 + i) % Memory.size) →
      Memory.read t.host a = Memory.read (Memory.hostStores s.host h) a)
    ∧ (s.lifecycle.work = accessing c .readCertificate false cut → ok = true → s.storeRoom .lifecycle →
      let certificate := Memory.readBytes (Memory.hostStores s.host h) (c.extentAddress 0) (c.extentLength 0)
      exec (.extentDmaEnd .lifecycle h r) s = .next { s with
        host := Memory.hostStores s.host h
        lifecycle := { s.lifecycle with work := working c (.certificateWrite certificate) true }
        store := s.store.queued (.certificate certificate) .lifeCard })
    ∧ (ok = false →
      let v : State := ({ s with host := Memory.hostStores s.host h }).givesBack c .linkFault none []
      (s.lifecycle.work = accessing c .readCertificate committed cut →
        exec (.extentDmaEnd .lifecycle h r) s = .next { v with lifecycle := { s.lifecycle with work := none } })
      ∧ (s.custody.work = accessing c .readBlob committed cut →
        exec (.extentDmaEnd .custody h r) s = .next { v with custody := { s.custody with work := none, undo := none } }))
end

