-- ==== Sys2Proof/Laws/Memory.lean ====
section
/-! SUPPORT. The laws of host memory: a read after a write, what a write leaves alone, and the canonical form. -/
namespace Sys2Proof.Machine

/-! ## Reads after writes -/

theorem Memory.wfFrom_mono {m : Memory} {lo hi : Nat} (h : Memory.wfFrom hi m = true) (hle : lo ≤ hi) : Memory.wfFrom lo m = true := by
  cases m with
  | nil => rfl
  | cons c t =>
    simp only [Memory.wfFrom, Bool.and_eq_true, decide_eq_true_eq] at h ⊢
    exact ⟨⟨⟨by omega, h.1.1.2⟩, h.1.2⟩, h.2⟩

/-- Below the lower bound of a canonical memory every byte is unlisted. -/
theorem Memory.read_below {m : Memory} {lo a : Nat} (h : Memory.wfFrom lo m = true) (ha : a < lo) : m.read a = Memory.unlisted := by
  induction m generalizing lo with
  | nil => rfl
  | cons c t ih =>
    obtain ⟨b, v⟩ := c
    simp only [Memory.wfFrom, Bool.and_eq_true, decide_eq_true_eq] at h
    have hb : b ≠ a := by omega
    simp only [Memory.read, if_neg hb]
    exact ih h.2 (by omega)

/-- A write leaves every other byte alone, whatever the form of the memory. -/
theorem Memory.read_write_other (m : Memory) {a b : Nat} (v : Byte) (h : b ≠ a) : (m.write a v).read b = m.read b := by
  induction m with
  | nil => unfold Memory.write; split <;> simp [Memory.read, h.symm]
  | cons c t ih =>
    obtain ⟨d, w⟩ := c
    unfold Memory.write
    have h' : a ≠ b := fun e => h e.symm
    simp only [Memory.read] at ih ⊢
    (repeat' split) <;> simp_all [Memory.read]

/-- A read after a write gives the byte written. -/
theorem Memory.read_write_same {m : Memory} {lo a : Nat} (v : Byte) (h : Memory.wfFrom lo m = true) : (m.write a v).read a = v := by
  induction m generalizing lo with
  | nil =>
    unfold Memory.write
    split
    · rename_i hv; simp [Memory.read, hv]
    · simp [Memory.read]
  | cons c t ih =>
    obtain ⟨b, w⟩ := c
    have hw := h
    simp only [Memory.wfFrom, Bool.and_eq_true, decide_eq_true_eq] at h
    have ht : ∀ {x : Nat}, x < b + 1 → Memory.read t x = Memory.unlisted := fun hx => Memory.read_below h.2 hx
    unfold Memory.write
    split
    · split
      · rename_i hab hv
        rw [hv]
        exact Memory.read_below (lo := b) (by
          simp only [Memory.wfFrom, Bool.and_eq_true, decide_eq_true_eq]; exact ⟨⟨⟨Nat.le_refl _, h.1.1.2⟩, h.1.2⟩, h.2⟩) hab
      · simp [Memory.read]
    · split
      · split
        · rename_i hab hv
          subst hab
          rw [hv]; exact ht (Nat.lt_succ_self _)
        · simp [Memory.read]
      · rename_i hab hne
        simp only [Memory.read, if_neg (Ne.symm hne)]
        exact ih h.2

/-! ## The canonical form -/

/-- A write keeps the canonical form. -/
theorem Memory.write_wfFrom {m : Memory} {lo a : Nat} (v : Byte) (h : Memory.wfFrom lo m = true) (hlo : lo ≤ a)
    (ha : a < Memory.size) : Memory.wfFrom lo (m.write a v) = true := by
  induction m generalizing lo with
  | nil => unfold Memory.write; split <;> simp_all [Memory.wfFrom]
  | cons c t ih =>
    obtain ⟨b, w⟩ := c
    simp only [Memory.wfFrom, Bool.and_eq_true, decide_eq_true_eq] at h
    unfold Memory.write
    split
    · split
      · simp only [Memory.wfFrom, Bool.and_eq_true, decide_eq_true_eq]; exact h
      · rename_i hab hv
        simp only [Memory.wfFrom, Bool.and_eq_true, decide_eq_true_eq]
        exact ⟨⟨⟨hlo, ha⟩, hv⟩, ⟨⟨by omega, h.1.1.2⟩, h.1.2⟩, h.2⟩
    · split
      · split
        · exact Memory.wfFrom_mono h.2 (by omega)
        · rename_i hab hv
          subst hab
          simp only [Memory.wfFrom, Bool.and_eq_true, decide_eq_true_eq]
          exact ⟨⟨⟨hlo, ha⟩, hv⟩, h.2⟩
      · simp only [Memory.wfFrom, Bool.and_eq_true, decide_eq_true_eq]
        exact ⟨h.1, ih h.2 (by omega)⟩

theorem Memory.size_pos : 0 < Memory.size := by decide

theorem Memory.write_wf {m : Memory} (a : Nat) (v : Byte) (h : m.wf = true) : (m.write (a % Memory.size) v).wf = true :=
  Memory.write_wfFrom v h (Nat.zero_le _) (Nat.mod_lt _ Memory.size_pos)

theorem Memory.writeBytes_wf {m : Memory} (a : Nat) (l : List Byte) (h : m.wf = true) : (m.writeBytes a l).wf = true := by
  induction l generalizing m a with
  | nil => exact h
  | cons b t ih => exact ih _ (Memory.write_wf a b h)

theorem Memory.hostStores_wf {m : Memory} (l : List Host.Cell) (h : m.wf = true) : (m.hostStores l).wf = true := by
  induction l generalizing m with
  | nil => exact h
  | cons c t ih => exact ih (Memory.write_wf c.1 c.2 h)

/-- A store of bytes leaves every byte outside them alone. -/
theorem Memory.read_writeBytes_other (m : Memory) (a b : Nat) (l : List Byte) (h : ∀ i, i < l.length → b ≠ (a + i) % Memory.size) :
    (m.writeBytes a l).read b = m.read b := by
  induction l generalizing m a with
  | nil => rfl
  | cons x t ih =>
    have h0 := h 0 (by simp)
    have ht := ih (m.write (a % Memory.size) x) (a + 1) (fun i hi => by
      have := h (i + 1) (by simpa using hi)
      rwa [Nat.add_assoc, Nat.add_comm 1 i])
    exact ht.trans (Memory.read_write_other m x (by simpa using h0))

/-- A read of bytes that were stored, in a canonical memory, gives them back. -/
theorem Memory.readBytes_writeBytes {m : Memory} (a : Nat) (l : List Byte) (h : m.wf = true) (hl : l.length ≤ Memory.size) :
    (m.writeBytes a l).readBytes a l.length = l := by
  induction l generalizing m a with
  | nil => rfl
  | cons b t ih =>
    have hl' : t.length + 1 ≤ Memory.size := hl
    have h0 : ((m.write (a % Memory.size) b).writeBytes (a + 1) t).read (a % Memory.size) = b := by
      rw [Memory.read_writeBytes_other _ _ _ _ fun i hi e => ?_, Memory.read_write_same b h]
      unfold Memory.size at e hl'
      omega
    have ht := ih (a + 1) (Memory.write_wf a b h) (by omega)
    simp only [Memory.readBytes, Memory.writeBytes, List.length_cons, List.range_succ_eq_map, List.map_cons, List.map_map,
      Nat.add_zero, List.cons.injEq] at ht ⊢
    refine ⟨h0, ?_⟩
    conv => rhs; rw [← ht]
    exact List.map_congr_left fun i _ => by simp only [Function.comp, Nat.succ_eq_add_one]; rw [show a + (i + 1) = a + 1 + i by omega]

/-! ## The operations of the state -/

theorem State.hostStores_memoryOk {s : State} (h : HostWrites) (hs : s.memoryOk) : (s.hostStores h).memoryOk :=
  Memory.hostStores_wf h hs

theorem State.writePage_memoryOk {s : State} (page off : Nat) (l : List Byte) (hs : s.memoryOk) : (s.writePage page off l).memoryOk :=
  Memory.writeBytes_wf _ l hs

theorem State.writeHost_memoryOk {s : State} (a : Nat) (l : List Byte) (hs : s.memoryOk) : (s.writeHost a l).memoryOk :=
  Memory.writeBytes_wf a l hs

end Sys2Proof.Machine
end

