-- ==== Sys2Proof/Laws/Ops.lean ====
section
/-! SUPPORT. What the shared operations do, once each: replies and their free values, handing back a card, beginning a card, and sending
a write or a request when there is room, opening what was sealed, an attention request, the end of a hash piece, an extension and the
last step of start-up. -/
namespace Sys2Proof.Machine

/-! ## Replies -/

@[simp] theorem countOpen_outBytes (l : List Byte) : countOpen (outBytes l) = 0 := by
  induction l with
  | nil => rfl
  | cons b t ih => exact ih

@[simp] theorem fillOpen_outBytes (n : Nat) (l : List Byte) : fillOpen n (outBytes l) = l := by
  induction l with
  | nil => rfl
  | cons b t ih => exact congrArg (b :: ·) ih

@[simp] theorem outNum_eq (n v : Nat) : outNum n v = outBytes (leBytes n v) := rfl

@[simp] theorem State.filled_nil (s : State) : s.filled [] = [] := rfl

@[simp] theorem State.filled_outBytes (s : State) (l : List Byte) : s.filled (outBytes l) = l := fillOpen_outBytes _ l

@[simp] theorem countOpen_append (a b : List OutByte) : countOpen (a ++ b) = countOpen a + countOpen b := by
  induction a with
  | nil => simp [countOpen]
  | cons x t ih => cases x <;> simp [countOpen, ih] <;> omega

theorem fillOpen_append (n : Nat) (a b : List OutByte) : fillOpen n (a ++ b) = fillOpen n a ++ fillOpen (n + countOpen a) b := by
  induction a generalizing n with
  | nil => simp [fillOpen, countOpen]
  | cons x t ih =>
    cases x with
    | none => simp only [List.cons_append, fillOpen, ih, countOpen]; rw [show n + 1 + countOpen t = n + (countOpen t + 1) by omega]
    | some v => simp only [List.cons_append, fillOpen, ih, countOpen]

@[simp] theorem outBytes_append (a b : List Byte) : outBytes a ++ outBytes b = outBytes (a ++ b) := by simp [outBytes]

@[simp] theorem outBytes_nil : outBytes [] = [] := rfl

/-! ## Handing back -/

/-- What handing back a card does while the area carries outcomes. -/
theorem State.handBack_carries {s : State} (c : Card) (o : CardOutcome) (d : Option Word32) (b : List OutByte) (h : s.carries) :
    s.handBack c o d b = { s with
      exch := s.exch.handed { card := c, outcome := o, detail := s.detailWord d, body := (s.afterDetail d).filled b }
      free := (s.afterDetail d).free + countOpen b } := by
  unfold State.carries at h
  unfold State.handBack
  rw [if_neg h]
  cases d <;> rfl

/-- In FAULTED a card handed back is dropped with its buffer. -/
theorem State.handBack_faulted {s : State} (c : Card) (o : CardOutcome) (d : Option Word32) (b : List OutByte)
    (h : s.exch.area = .faulted) (hc : s.exch.closeRequested = false) : s.handBack c o d b = s.freeBuffer c := by
  unfold State.handBack
  rw [if_pos h]
  have : (s.freeBuffer c).exch.closeRequested = false := by
    unfold State.freeBuffer State.restartIdle
    dsimp only
    (repeat' split) <;> exact hc
  simp [this]

/-! ## Beginning a card -/

/-- What a waiting card that a custody row can begin says of the state. -/
theorem State.custodyReady_iff {s : State} {code : Word16} {c : Card} : s.custodyReady code = some c ↔
    (s.powered = true ∧ s.custody.work = none ∧ s.custody.service = none ∧ s.custody.held = [])
      ∧ s.nextCard .custody = some c ∧ c.code = code := by
  unfold State.custodyReady
  split
  · simp_all [Option.filter_eq_some_iff]
  · simp_all

theorem State.credReady_iff {s : State} {code : Word16} {c : Card} : s.credReady code = some c ↔
    (s.powered = true ∧ s.credential.work = none ∧ s.credential.service = none ∧ s.credential.held = [])
      ∧ s.nextCard .credential = some c ∧ c.code = code := by
  unfold State.credReady
  split
  · simp_all [Option.filter_eq_some_iff]
  · simp_all

theorem State.measureReady_iff {s : State} {code : Word16} {c : Card} : s.measureReady code = some c ↔
    (s.powered = true ∧ s.measure.work = none ∧ s.measure.service = none ∧ s.measure.internal = [] ∧ s.measure.starting = false)
      ∧ s.nextCard .measure = some c ∧ c.code = code := by
  unfold State.measureReady
  split
  · simp_all [Option.filter_eq_some_iff]
  · simp_all

theorem State.updateReady_iff {s : State} {code : Word16} {c : Card} : s.updateReady code = some c ↔
    (s.powered = true ∧ s.update.work = none ∧ s.update.service = none ∧ s.update.wipe ≠ .arrived)
      ∧ s.nextCard .update = some c ∧ c.code = code := by
  unfold State.updateReady
  split
  · simp_all [Option.filter_eq_some_iff]
  · simp_all

theorem State.lifeReady_iff {s : State} {code : Word16} {c : Card} : s.lifeReady code = some c ↔
    (s.powered = true ∧ s.lifecycle.work = none) ∧ s.nextCard .lifecycle = some c ∧ c.code = code := by
  unfold State.lifeReady
  split
  · simp_all [Option.filter_eq_some_iff]
  · simp_all

/-! ## Sending -/

@[simp] theorem Outboxes.get_set (o : Outboxes) (c : Client) (l : List Out) : (o.set c l).get c = l := by cases c <;> rfl

@[simp] theorem Outboxes.set_set (o : Outboxes) (c : Client) (l m : List Out) : (o.set c l).set c m = o.set c m := by
  cases c <;> rfl

theorem Outboxes.set_get {o : Outboxes} {c : Client} {l : List Out} (h : o.get c = l) : o.set c l = o := by subst h; cases c <;> rfl

theorem State.sendAll_done {s : State} {c : Client} (n : Nat) (h : s.outboxes.get c = []) : State.sendAll c n s = s := by
  cases n with
  | zero => rfl
  | succ n => unfold State.sendAll; rw [h]

@[simp] theorem State.setOutbox_setOutbox (c : Client) (l m : List Out) (s : State) :
    (s.setOutbox c l).setOutbox c m = s.setOutbox c m := by
  unfold State.setOutbox; simp

theorem State.setOutbox_same {s : State} {c : Client} {l : List Out} (h : s.outboxes.get c = l) : s.setOutbox c l = s := by
  unfold State.setOutbox; rw [Outboxes.set_get h]

/-- A piece of work other than the update unit's requests sends what it has to send, and nothing follows. -/
theorem State.sendLane_eq {c : Client} (s : State) (hc : c ≠ .updateAsk) : s.sendLane c = State.sendAll c (s.sendFuel c) s := by
  unfold State.sendLane
  rw [beq_eq_false_iff_ne.mpr hc]
  rfl

/-- A block with nothing else to send, and that waits for no room, begins to send. -/
theorem State.send_quiet {s : State} {c : Client} (l : List Out) (h : s.quiet c) (hc : c ≠ .updateAsk) :
    s.send c l = State.sendAll c (l.length + 32) (s.setOutbox c l) := by
  have hp : s.push c l = s.setOutbox c l := by unfold State.push; rw [h.1]; rfl
  have hw : s.isWaiting c = false := h.2
  unfold State.send
  simp only [hp, hw, Bool.false_eq_true, if_false]
  rw [State.sendLane_eq _ hc]
  unfold State.sendFuel State.setOutbox
  simp

theorem State.sendAll_write {s : State} {c : Client} (n : Nat) (w : Write) (t : WriteTo) (rest : List Out)
    (hq : s.store.queue.length < storeCapacity) :
    State.sendAll c (n + 1) (s.setOutbox c (.write w t :: rest)) = State.sendAll c n ((s.setOutbox c rest).enqueue w t) := by
  have hg : (s.setOutbox c (.write w t :: rest)).outboxes.get c = .write w t :: rest := Outboxes.get_set _ _ _
  conv => lhs; unfold State.sendAll
  rw [hg]
  simp only [State.setOutbox_setOutbox]
  exact if_pos hq

theorem State.sendAll_request {s : State} {c : Client} (n : Nat) (r : MeasureRequest) (rest : List Out)
    (hq : s.joinsAtOnce c r = true) :
    State.sendAll c (n + 1) (s.setOutbox c (.request r :: rest))
      = State.sendAll c n (({ s with measure := s.measure.asked r }).setOutbox c rest) := by
  have hg : (s.setOutbox c (.request r :: rest)).outboxes.get c = .request r :: rest := Outboxes.get_set _ _ _
  conv => lhs; unfold State.sendAll
  rw [hg]
  refine (if_pos hq).trans ?_
  unfold State.setOutbox State.joinList Measure.asked
  simp

/-- A request that cannot join yet waits, and what follows it waits behind it. -/
theorem State.sendAll_waits {s : State} {c : Client} (n : Nat) (r : MeasureRequest) (rest : List Out)
    (hq : s.joinsAtOnce c r = false) :
    State.sendAll c (n + 1) (s.setOutbox c (.request r :: rest)) = s.awaits c (.request r :: rest) := by
  have hg : (s.setOutbox c (.request r :: rest)).outboxes.get c = .request r :: rest := Outboxes.get_set _ _ _
  have hj : (s.setOutbox c (.request r :: rest)).joinsAtOnce c r = false := hq
  conv => lhs; unfold State.sendAll
  rw [hg]
  simp only [hj, Bool.false_eq_true, if_false]
  rfl

/-- A part event sent by a block with nothing else to send waits for an act of its own (R59, R85, R156). -/
theorem State.send_event {s : State} {c : Client} (e : PartEvent) (rest : List Out) (h : s.quiet c) (hc : c ≠ .updateAsk)
    (hs : s.measure.starting = false) : s.send c (.request (.event e) :: rest) = s.awaits c (.request (.event e) :: rest) := by
  rw [State.send_quiet _ h hc, show (Out.request (.event e) :: rest).length + 32 = (rest.length + 32) + 1 by simp]
  exact State.sendAll_waits _ _ _ (by unfold State.joinsAtOnce; rw [hs]; simp)

theorem State.sendAll_act {s : State} {c : Client} (n : Nat) (a : After) (rest : List Out) :
    State.sendAll c (n + 1) (s.setOutbox c (.act a :: rest)) = State.sendAll c n ((s.setOutbox c rest).perform a) := by
  have hg : (s.setOutbox c (.act a :: rest)).outboxes.get c = .act a :: rest := Outboxes.get_set _ _ _
  conv => lhs; unfold State.sendAll
  rw [hg]
  simp

/-- A block with nothing else to send sends its write at once, when the store has room. -/
theorem State.send_write {s : State} {c : Client} (w : Write) (t : WriteTo) (h : s.storeRoom c) (hc : c ≠ .updateAsk)
    (hout : (s.enqueue w t).outboxes.get c = []) : s.send c [.write w t] = s.enqueue w t := by
  rw [State.send_quiet _ h.1 hc, show [Out.write w t].length + 32 = 32 + 1 from rfl, State.sendAll_write _ _ _ _ h.2,
    State.setOutbox_same h.1.1]
  exact State.sendAll_done _ hout

/-- A write of a record that is no credential record joins the queue, and commits the card it is for. -/
theorem State.enqueue_plain (s : State) (w : Write) (t : WriteTo) (h : ∀ i v, w ≠ .cred i v) :
    s.enqueue w t = { s.commitCard t with store := s.store.queued w t } := by
  have hstore : (s.commitCard t).store = s.store := by cases t <;> rfl
  cases w with
  | cred i v => exact absurd rfl (h i v)
  | _ => unfold State.enqueue State.asSent; simp only [hstore]; rfl

/-- A block with nothing else to send sends its binding check at once, when the internal request list has room. -/
theorem State.send_check {s : State} {c : Client} (k : Checker) (b : Binding) (wanted : Bool) (h : s.measureRoom c)
    (hc : c ≠ .updateAsk) : s.send c [.request (.check k b wanted)] = { s with measure := s.measure.asked (.check k b wanted) } := by
  have hj : s.joinsAtOnce c (.check k b wanted) = true := by
    unfold State.joinsAtOnce
    simp only [h.2.1, decide_true, Bool.true_and, Bool.or_true, Bool.and_true, Bool.not_eq_true']
    simpa using h.2.2.1
  rw [State.send_quiet _ h.1 hc, show [Out.request (.check k b wanted)].length + 32 = 32 + 1 from rfl,
    State.sendAll_request _ _ _ hj]
  have h0 : ({ s with measure := s.measure.asked (.check k b wanted) } : State).outboxes.get c = [] := h.1.1
  rw [State.setOutbox_same h0]
  exact State.sendAll_done _ h0

/-! ## Byte strings and sealing -/

theorem sliceBytes_middle (a b c : List Byte) : sliceBytes (a ++ b ++ c) a.length b.length = b := by
  apply List.ext_getElem
  · simp [sliceBytes]
  · intro i h1 h2
    simp [sliceBytes, List.getD_eq_getElem?_getD, h2, List.getElem?_append]

/-- The number that the bytes of a number spell, as far as its bytes go. -/
theorem leNat_leBytes (n v : Nat) : leNat (leBytes n v) = v % 256 ^ n := by
  induction n generalizing v with
  | zero => simp [leBytes, leNat, Nat.mod_one]
  | succ n ih =>
    have h := ih (v / 256)
    simp only [leBytes, List.range_succ_eq_map, List.map_cons, List.map_map, leNat] at h ⊢
    have e : (List.range n).map ((fun i => BitVec.ofNat 8 (v >>> (8 * i))) ∘ Nat.succ)
        = (List.range n).map fun i => BitVec.ofNat 8 ((v / 256) >>> (8 * i)) :=
      List.map_congr_left fun i _ => by
        rw [Function.comp_apply, Nat.succ_eq_add_one, Nat.mul_add, Nat.add_comm (8 * i), Nat.shiftRight_add, Nat.shiftRight_eq_div_pow v]
    rw [e, h, Nat.pow_succ, Nat.mul_comm (256 ^ n), Nat.mod_mul]
    simp

theorem gcmXor_length (k : Key256) (n : Nonce) (i : Nat) (l : List Byte) : (gcmXor k n i l).length = l.length := by
  induction l generalizing i with
  | nil => rfl
  | cons b t ih => simp [gcmXor, ih]

theorem gcmXor_gcmXor (k : Key256) (n : Nonce) (i : Nat) (l : List Byte) : gcmXor k n i (gcmXor k n i l) = l := by
  induction l generalizing i with
  | nil => rfl
  | cons b t ih => simp [gcmXor, ih]

/-- The parts of a wrapped-key blob: its nonce, its ciphertext and a tag that verifies. -/
theorem sealBlob_parts (k : Key256) (nonce : Nonce) {text : List Byte} (h : text.length = 135) :
    (strOf 96 (sliceBytes (sealBlob k nonce text) 0 12) : Nonce) = nonce
      ∧ sliceBytes (sealBlob k nonce text) 12 135 = gcmXor k nonce 0 text
      ∧ (strOf 128 (sliceBytes (sealBlob k nonce text) 147 16) : Tag) = Config.gcmTag k nonce (gcmXor k nonce 0 text) := by
  have hn : (strBytes nonce).length = 12 := by simp [strBytes, leBytes]
  have hc : (gcmXor k nonce 0 text).length = 135 := (gcmXor_length k nonce 0 text).trans h
  have ht : (strBytes (Config.gcmTag k nonce (gcmXor k nonce 0 text))).length = 16 := by simp [strBytes, leBytes]
  have back {w : Nat} (x : BitVec w) (hw : 256 ^ (w / 8) = 2 ^ w) : strOf w (strBytes x) = x := by
    rw [strOf, strBytes, leNat_leBytes, hw, Nat.mod_eq_of_lt x.isLt, BitVec.ofNat_toNat, BitVec.setWidth_eq]
  have h1 := sliceBytes_middle [] (strBytes nonce) (gcmXor k nonce 0 text ++ strBytes (Config.gcmTag k nonce (gcmXor k nonce 0 text)))
  have h2 := sliceBytes_middle (strBytes nonce) (gcmXor k nonce 0 text) (strBytes (Config.gcmTag k nonce (gcmXor k nonce 0 text)))
  have h3 := sliceBytes_middle (strBytes nonce ++ gcmXor k nonce 0 text) (strBytes (Config.gcmTag k nonce (gcmXor k nonce 0 text))) []
  simp only [List.length_append, hn, hc, ht, List.nil_append, List.append_nil, List.length_nil, ← List.append_assoc] at h1 h2 h3
  unfold sealBlob gcmSeal
  exact ⟨(congrArg _ h1).trans (back _ (by norm_num)), h2, (congrArg _ h3).trans (back _ (by norm_num))⟩

/-! ## Verifying (R144) -/

/-- What a valid answer of a verify says. -/
theorem verifySignature_eq_true {pub : PublicKey} {d : Digest} {sig : Signature} :
    verifySignature pub d sig = true ↔ onCurve pub = true ∧ halfInRange (halfOf sig 0) = true ∧ halfInRange (halfOf sig 1) = true
      ∧ Config.ecdsaVerify pub d sig = true := by simp only [verifySignature, Bool.and_eq_true, and_assoc]

/-- A verify answers invalid for a key off the curve and for a half out of range, whatever the digest. -/
theorem verifySignature_eq_false {pub : PublicKey} {sig : Signature} (d : Digest)
    (h : onCurve pub = false ∨ halfInRange (halfOf sig 0) = false ∨ halfInRange (halfOf sig 1) = false) :
    verifySignature pub d sig = false := by
  obtain h | h | h := h <;> simp [verifySignature, h]

/-! ## Attention requests, hash pieces, extensions and the end of start-up -/

/-- What an attention request does: its bit is set, and a message goes out over a link that is up (R180, R181). -/
theorem State.ask_eq (s : State) (a : Attention) : s.ask a = { s with
    exch := { s.exch with attention := s.exch.attention ||| a.bit }
    messages := s.messages + if s.linkUp then s.askMessages s.exch.enable else 0 } := by
  unfold State.ask State.sendMessage State.askMessages
  dsimp only
  by_cases ha : s.exch.attention = 0#9 <;> cases he : s.exch.enable <;> cases hl : s.linkUp <;> simp [*]

/-- After start-up, no act moves start-up on. -/
theorem State.startUpGoesOn_ended {s : State} (h : s.startUp = .ended) : s.startUpGoesOn = s := by
  unfold State.startUpGoesOn
  simp [h]

/-- What the end of a hash piece does: the host's stores, the piece's end at its client, the next grant, and start-up's next act
(R140, R141). -/
theorem exec_hashPieceEnd {s : State} {run : HashRun} (h : HostWrites) (answered : Bool) (hp : s.powered = true)
    (hr : s.hash.running = some run) : exec (.hashPieceEnd h answered) s = .next
      (let t : State := { s with host := Memory.hostStores s.host h, hash := { s.hash with pointer := run.client } }
       let u := t.pieceEnded run (answered && s.linkUp && !s.readCut run.client)
       ({ u with hash := u.hash.release } : State).startUpGoesOn) := by
  have e : s.hashPieceEnd h answered =
      (let t : State := { s with host := Memory.hostStores s.host h, hash := { s.hash with pointer := run.client } }
       let u := t.pieceEnded run (answered && s.linkUp && !s.readCut run.client)
       { u with hash := u.hash.release }) := by
    unfold State.hashPieceEnd
    rw [hr]
    rcases run with ⟨client, job, withdrawn⟩
    cases client <;> rfl
  show Host.Outcome.next (s.whenPowered _) = _
  unfold State.whenPowered
  rw [if_pos hp]
  dsimp only
  rw [e]

/-- An extension with room in the list: the chain's value and one record (R28, R30). -/
theorem State.applyExtension_lists {s : State} (i : Fin 12) (e : Word16) (d v : Digest) (h : s.measure.records.length < 96) :
    s.applyExtension i e d v = { s with measure := { s.measure with
      chains := tableSet s.measure.chains i v
      records := s.measure.records ++ [{ seq := s.measure.records.length + 1, chain := i, event := e, digest := d }] } } := if_pos h

/-- An extension with the list full and truncated before: the chain's value and the count of missed records (R28, R31). -/
theorem State.applyExtension_misses {s : State} (i : Fin 12) (e : Word16) (d v : Digest) (h : ¬s.measure.records.length < 96)
    (ht : s.measure.truncated = true) : s.applyExtension i e d v = { s with measure := { s.measure with
      chains := tableSet s.measure.chains i v, missed := min 65535 (s.measure.missed + 1) } } := by
  unfold State.applyExtension State.addRecord State.setChain
  dsimp only
  rw [if_neg (by exact h), if_pos ht, ← ht]
  rfl

/-- The first extension with the list full: TRUNCATED is set and asked for as well (R31). -/
theorem State.applyExtension_truncates {s : State} (i : Fin 12) (e : Word16) (d v : Digest) (h : ¬s.measure.records.length < 96)
    (ht : s.measure.truncated = false) : s.applyExtension i e d v = { s with
      measure := { s.measure with
        chains := tableSet s.measure.chains i v, missed := min 65535 (s.measure.missed + 1), truncated := true }
      exch := { s.exch with attention := s.exch.attention ||| 64#9 }
      messages := s.messages + if s.linkUp then s.askMessages s.exch.enable else 0 } := by
  unfold State.applyExtension State.addRecord State.setChain
  dsimp only
  rw [if_neg (by exact h), if_neg (by rw [ht]; decide), State.ask_eq]
  rfl

/-- What the last step of start-up does: it ends, the fetcher that waited for it goes on, and a fault of start-up's writes is asked for
(R164, R165, R172). -/
theorem State.startStep8_eq (s : State) : s.startStep8 = { s with
    startUp := .ended
    exch := { s.exch with
      fetcher := if s.exch.fetcher = .waitingStartUp then .reading else s.exch.fetcher
      attention := if s.store.startUpFault then s.exch.attention ||| 8#9 else s.exch.attention }
    messages := s.messages + (if s.store.startUpFault && s.linkUp then s.askMessages s.exch.enable else 0)
    store := { s.store with startUpFault := false } } := by
  have hx : ∀ b, s.store.startUpFault = b → s.store = { s.store with startUpFault := b } := by rintro b rfl; rfl
  unfold State.startStep8 State.atStep
  dsimp only
  by_cases hf : s.exch.fetcher = Fetcher.waitingStartUp <;> cases hb : s.store.startUpFault <;>
    simp [hf, hb, ← hx false, State.ask_eq, Attention.bit, State.askMessages]

/-! ## OWNER WITHDRAW's detail word (R129) -/

/-- The detail word of a withdraw that finds presence open. -/
theorem State.withdrawDetail_open {s : State} (h : s.presenceOpen = true) : s.withdrawDetail = BitVec.ofNat 32 (65536 + s.presenceLeft) :=
  if_pos h

/-- The detail word of a withdraw that finds presence closed: bit 16 clear, the ticks free, the rest 0. -/
theorem State.withdrawDetail_closed {s : State} (h : s.presenceOpen = false) : s.withdrawDetail = Config.freeWord s.free &&& 0xFFFF#32 :=
  if_neg (by simp [h])

end Sys2Proof.Machine
end

