-- ==== Sys2Proof/WellFormed.lean ====
section
/-! DEFINITION. Which commands are well formed: the checks on operands that a type does not make. -/
namespace Sys2Proof

/-- The addresses the host stores to lie in the 64-bit address space of an extent (R191). -/
def HostWrites.wf (h : HostWrites) : Bool := h.all fun c => decide (c.1 < 2 ^ 64)

/-- A window ends when a counter reaches 255, or by the bound when none has (R149). -/
def windowWf (a b r : Byte) (bounded : Bool) : Bool :=
  bounded == !(decide (a = 255#8) || decide (b = 255#8) || decide (r = 255#8))

/-- A register write of the row REGISTER_WRITE names one of the eight 32-bit words of the window (R189). -/
def isRegister (offset : BitVec 5) : Bool := decide (offset &&& 3#5 = 0#5)

/-- Whether the operands of a command are ones the part can meet. -/
def Instr.wf : Instr → Bool
  | .areaOpen _ host _ => host.wf
  | .readingPass host => host.wf
  | .cardTake host => host.wf
  | .hashPieceEnd host _ => host.wf
  | .extentDmaEnd _ host _ => host.wf
  | .areaFaulted failure _ => failure.host.wf
  | .censusRunEnd a b r bounded _ => windowWf a b r bounded
  | .registerWrite offset _ => isRegister offset
  | .keyGenerate => true
  | .keyImport => true
  | .keySign => true
  | .keyMac => true
  | .keyWrapOut => true
  | .keySetAttributes => true
  | .keyFinalize => true
  | .keyErase => true
  | .keyDescribe => true
  | .drawRandom => true
  | .extend => true
  | .closeChain => true
  | .readChains => true
  | .readRecords => true
  | .quote => true
  | .anchorInstall => true
  | .anchorRemove => true
  | .updateOpen => true
  | .updateFeed => true
  | .updateCancel => true
  | .updateCommit => true
  | .updateConfirm => true
  | .updateRevert => true
  | .bootAdvice => true
  | .credEnroll => true
  | .credVerify => true
  | .credRelease => true
  | .credReplace => true
  | .credRemove => true
  | .credDescribe => true
  | .factoryIdentity => true
  | .factoryRoot => true
  | .factoryCertificate => true
  | .factoryPairing => true
  | .factoryFinish => true
  | .ownershipRelease => true
  | .ownerWithdraw => true
  | .lifecycleDescribe => true
  | .identityDescribe => true
  | .areaClose _ => true
  | .areaAbandon _ => true
  | .interruptEnableWrite _ => true
  | .nudge _ => true
  | .settleAck _ => true
  | .attentionClear _ => true
  | .settle => true
  | .linkLoss => true
  | .linkReturn => true
  | .powerUp => true
  | .powerLoss _ => true
  | .platformReset _ => true
  | .startUp => true
  | .paceTick _ => true
  | .ownerReleaseHold => true
  | .presenceExpiry => true
  | .decayStep => true
  | .storedDebtRefresh => true
  | .idleTimerExpiry => true
  | .guardTimerExpiry => true
  | .periodTimerExpiry => true
  | .curveOperationComplete => true
  | .storeWriteEnd _ _ => true
  | .partEvent => true
  | .bindingCheck => true
  | .chainRead => true
  | .installationRequest => true
  | .removalRequest => true
  | .custodyWipeOrder => true
  | .credentialWipeOrder => true
  | .updateWipeOrder => true
  | .pairingInstallationRequest => true
  | .presenceOpeningRequest => true
  | .claimCompletionRequest => true
  | .sessionLeftCheckedNotice => true
  | .censusFailedReport => true
  | .wipeAnswer _ => true

end Sys2Proof
end

