-- ==== Sys2Proof/Laws/PerInstr.lean ====
section
/-! SUPPORT. Statements made of each command: the host's stores that a well-formed command carries lie in the address space of an extent
(R191). -/
namespace Sys2Proof

/-- The host's stores that a command carries. -/
def Instr.hostWrites : Instr → HostWrites
  | .areaOpen _ host _ => host
  | .readingPass host => host
  | .cardTake host => host
  | .hashPieceEnd host _ => host
  | .extentDmaEnd _ host _ => host
  | .areaFaulted failure _ => failure.host
  | _ => []

namespace Laws.HostStoresInRange

/-- Every byte the host stores with a well-formed command lies below 2^64. -/
def Statement (i : Instr) : Prop := i.wf = true → ∀ c ∈ i.hostWrites, c.1 < 2 ^ 64

theorem none_stored {i : Instr} (h : i.hostWrites = []) : Statement i := by
  intro _ c hc; rw [h] at hc; exact absurd hc (by simp)

theorem stored {i : Instr} (h : i.wf = HostWrites.wf i.hostWrites) : Statement i := by
  intro hw c hc
  rw [h] at hw
  simpa using List.all_eq_true.mp hw c hc

theorem keyGenerate : Statement (.keyGenerate) := none_stored rfl
theorem keyImport : Statement (.keyImport) := none_stored rfl
theorem keySign : Statement (.keySign) := none_stored rfl
theorem keyMac : Statement (.keyMac) := none_stored rfl
theorem keyWrapOut : Statement (.keyWrapOut) := none_stored rfl
theorem keySetAttributes : Statement (.keySetAttributes) := none_stored rfl
theorem keyFinalize : Statement (.keyFinalize) := none_stored rfl
theorem keyErase : Statement (.keyErase) := none_stored rfl
theorem keyDescribe : Statement (.keyDescribe) := none_stored rfl
theorem drawRandom : Statement (.drawRandom) := none_stored rfl
theorem extend : Statement (.extend) := none_stored rfl
theorem closeChain : Statement (.closeChain) := none_stored rfl
theorem readChains : Statement (.readChains) := none_stored rfl
theorem readRecords : Statement (.readRecords) := none_stored rfl
theorem quote : Statement (.quote) := none_stored rfl
theorem anchorInstall : Statement (.anchorInstall) := none_stored rfl
theorem anchorRemove : Statement (.anchorRemove) := none_stored rfl
theorem updateOpen : Statement (.updateOpen) := none_stored rfl
theorem updateFeed : Statement (.updateFeed) := none_stored rfl
theorem updateCancel : Statement (.updateCancel) := none_stored rfl
theorem updateCommit : Statement (.updateCommit) := none_stored rfl
theorem updateConfirm : Statement (.updateConfirm) := none_stored rfl
theorem updateRevert : Statement (.updateRevert) := none_stored rfl
theorem bootAdvice : Statement (.bootAdvice) := none_stored rfl
theorem credEnroll : Statement (.credEnroll) := none_stored rfl
theorem credVerify : Statement (.credVerify) := none_stored rfl
theorem credRelease : Statement (.credRelease) := none_stored rfl
theorem credReplace : Statement (.credReplace) := none_stored rfl
theorem credRemove : Statement (.credRemove) := none_stored rfl
theorem credDescribe : Statement (.credDescribe) := none_stored rfl
theorem factoryIdentity : Statement (.factoryIdentity) := none_stored rfl
theorem factoryRoot : Statement (.factoryRoot) := none_stored rfl
theorem factoryCertificate : Statement (.factoryCertificate) := none_stored rfl
theorem factoryPairing : Statement (.factoryPairing) := none_stored rfl
theorem factoryFinish : Statement (.factoryFinish) := none_stored rfl
theorem ownershipRelease : Statement (.ownershipRelease) := none_stored rfl
theorem ownerWithdraw : Statement (.ownerWithdraw) := none_stored rfl
theorem lifecycleDescribe : Statement (.lifecycleDescribe) := none_stored rfl
theorem identityDescribe : Statement (.identityDescribe) := none_stored rfl
theorem areaOpen (enable : Bool) (host : HostWrites) (answer : OpenAnswer) : Statement (.areaOpen enable host answer) := stored rfl
theorem areaClose (enable : Bool) : Statement (.areaClose enable) := none_stored rfl
theorem areaAbandon (enable : Bool) : Statement (.areaAbandon enable) := none_stored rfl
theorem interruptEnableWrite (enable : Bool) : Statement (.interruptEnableWrite enable) := none_stored rfl
theorem nudge (value : Word32) : Statement (.nudge value) := none_stored rfl
theorem settleAck (value : Word32) : Statement (.settleAck value) := none_stored rfl
theorem attentionClear (value : Word32) : Statement (.attentionClear value) := none_stored rfl
theorem registerWrite (offset : BitVec 5) (value : Word32) : Statement (.registerWrite offset value) := none_stored rfl
theorem readingPass (host : HostWrites) : Statement (.readingPass host) := stored rfl
theorem cardTake (host : HostWrites) : Statement (.cardTake host) := stored rfl
theorem settle : Statement (.settle) := none_stored rfl
theorem areaFaulted (failure : AccessFailure) (answered : Bool) : Statement (.areaFaulted failure answered) :=
  stored rfl
theorem linkLoss : Statement (.linkLoss) := none_stored rfl
theorem linkReturn : Statement (.linkReturn) := none_stored rfl
theorem powerUp : Statement (.powerUp) := none_stored rfl
theorem powerLoss (cut : WriteCut) : Statement (.powerLoss cut) := none_stored rfl
theorem platformReset (asserted : Bool) : Statement (.platformReset asserted) := none_stored rfl
theorem startUp : Statement (.startUp) := none_stored rfl
theorem paceTick (low : Bool) : Statement (.paceTick low) := none_stored rfl
theorem ownerReleaseHold : Statement (.ownerReleaseHold) := none_stored rfl
theorem presenceExpiry : Statement (.presenceExpiry) := none_stored rfl
theorem decayStep : Statement (.decayStep) := none_stored rfl
theorem storedDebtRefresh : Statement (.storedDebtRefresh) := none_stored rfl
theorem idleTimerExpiry : Statement (.idleTimerExpiry) := none_stored rfl
theorem guardTimerExpiry : Statement (.guardTimerExpiry) := none_stored rfl
theorem periodTimerExpiry : Statement (.periodTimerExpiry) := none_stored rfl
theorem censusRunEnd (a : Byte) (b : Byte) (r : Byte) (bounded : Bool) (jitter : List Byte) : 
    Statement (.censusRunEnd a b r bounded jitter) := none_stored rfl
theorem hashPieceEnd (host : HostWrites) (answered : Bool) : Statement (.hashPieceEnd host answered) := stored rfl
theorem curveOperationComplete : Statement (.curveOperationComplete) := none_stored rfl
theorem storeWriteEnd (first : Bool) (second : Bool) : Statement (.storeWriteEnd first second) := none_stored rfl
theorem partEvent : Statement (.partEvent) := none_stored rfl
theorem bindingCheck : Statement (.bindingCheck) := none_stored rfl
theorem chainRead : Statement (.chainRead) := none_stored rfl
theorem installationRequest : Statement (.installationRequest) := none_stored rfl
theorem removalRequest : Statement (.removalRequest) := none_stored rfl
theorem custodyWipeOrder : Statement (.custodyWipeOrder) := none_stored rfl
theorem credentialWipeOrder : Statement (.credentialWipeOrder) := none_stored rfl
theorem updateWipeOrder : Statement (.updateWipeOrder) := none_stored rfl
theorem pairingInstallationRequest : Statement (.pairingInstallationRequest) := none_stored rfl
theorem presenceOpeningRequest : Statement (.presenceOpeningRequest) := none_stored rfl
theorem claimCompletionRequest : Statement (.claimCompletionRequest) := none_stored rfl
theorem sessionLeftCheckedNotice : Statement (.sessionLeftCheckedNotice) := none_stored rfl
theorem censusFailedReport : Statement (.censusFailedReport) := none_stored rfl
theorem wipeAnswer (unit : WipeUnit) : Statement (.wipeAnswer unit) := none_stored rfl
theorem extentDmaEnd (unit : DmaUnit) (host : HostWrites) (result : DmaResult) : Statement (.extentDmaEnd unit host result) :=
  stored rfl

end Laws.HostStoresInRange

end Sys2Proof
end

