-- ==== Sys2Proof/Laws/State.lean ====
section
/-! SUPPORT. One lemma for each field of the state under each elementary update, true by definition, so that no later proof unfolds a
record update. -/
namespace Sys2Proof.Machine

/-! ### setSlot -/

@[simp] theorem State.setSlot_exch (i : Fin 48) (r : Option KeyRecord) (s : State) : (s.setSlot i r).exch = s.exch := rfl
@[simp] theorem State.setSlot_custody (i : Fin 48) (r : Option KeyRecord) (s : State) :
    (s.setSlot i r).custody = { s.custody with table := tableSet s.custody.table i r } := rfl
@[simp] theorem State.setSlot_measure (i : Fin 48) (r : Option KeyRecord) (s : State) : (s.setSlot i r).measure = s.measure := rfl
@[simp] theorem State.setSlot_update (i : Fin 48) (r : Option KeyRecord) (s : State) : (s.setSlot i r).update = s.update := rfl
@[simp] theorem State.setSlot_credential (i : Fin 48) (r : Option KeyRecord) (s : State) : (s.setSlot i r).credential = s.credential :=
  rfl
@[simp] theorem State.setSlot_lifecycle (i : Fin 48) (r : Option KeyRecord) (s : State) : (s.setSlot i r).lifecycle = s.lifecycle := rfl
@[simp] theorem State.setSlot_hash (i : Fin 48) (r : Option KeyRecord) (s : State) : (s.setSlot i r).hash = s.hash := rfl
@[simp] theorem State.setSlot_curve (i : Fin 48) (r : Option KeyRecord) (s : State) : (s.setSlot i r).curve = s.curve := rfl
@[simp] theorem State.setSlot_census (i : Fin 48) (r : Option KeyRecord) (s : State) : (s.setSlot i r).census = s.census := rfl
@[simp] theorem State.setSlot_pace (i : Fin 48) (r : Option KeyRecord) (s : State) : (s.setSlot i r).pace = s.pace := rfl
@[simp] theorem State.setSlot_store (i : Fin 48) (r : Option KeyRecord) (s : State) : (s.setSlot i r).store = s.store := rfl
@[simp] theorem State.setSlot_startUp (i : Fin 48) (r : Option KeyRecord) (s : State) : (s.setSlot i r).startUp = s.startUp := rfl
@[simp] theorem State.setSlot_outboxes (i : Fin 48) (r : Option KeyRecord) (s : State) : (s.setSlot i r).outboxes = s.outboxes := rfl
@[simp] theorem State.setSlot_measureWaiting (i : Fin 48) (r : Option KeyRecord) (s : State) :
    (s.setSlot i r).measureWaiting = s.measureWaiting := rfl
@[simp] theorem State.setSlot_powered (i : Fin 48) (r : Option KeyRecord) (s : State) : (s.setSlot i r).powered = s.powered := rfl
@[simp] theorem State.setSlot_linkUp (i : Fin 48) (r : Option KeyRecord) (s : State) : (s.setSlot i r).linkUp = s.linkUp := rfl
@[simp] theorem State.setSlot_resetLine (i : Fin 48) (r : Option KeyRecord) (s : State) : (s.setSlot i r).resetLine = s.resetLine := rfl
@[simp] theorem State.setSlot_ownerLineLow (i : Fin 48) (r : Option KeyRecord) (s : State) : (s.setSlot i r).ownerLineLow = s.ownerLineLow :=
  rfl
@[simp] theorem State.setSlot_host (i : Fin 48) (r : Option KeyRecord) (s : State) : (s.setSlot i r).host = s.host := rfl
@[simp] theorem State.setSlot_messages (i : Fin 48) (r : Option KeyRecord) (s : State) : (s.setSlot i r).messages = s.messages := rfl
@[simp] theorem State.setSlot_free (i : Fin 48) (r : Option KeyRecord) (s : State) : (s.setSlot i r).free = s.free := rfl
@[simp] theorem State.setSlot_pending (i : Fin 48) (r : Option KeyRecord) (s : State) : (s.setSlot i r).pending = s.pending := rfl

/-! ### setKind -/

@[simp] theorem State.setKind_exch (k : Fin 8) (r : KindRecord) (s : State) : (s.setKind k r).exch = s.exch := rfl
@[simp] theorem State.setKind_custody (k : Fin 8) (r : KindRecord) (s : State) : (s.setKind k r).custody = s.custody := rfl
@[simp] theorem State.setKind_measure (k : Fin 8) (r : KindRecord) (s : State) : (s.setKind k r).measure = s.measure := rfl
@[simp] theorem State.setKind_update (k : Fin 8) (r : KindRecord) (s : State) :
    (s.setKind k r).update = { s.update with kinds := tableSet s.update.kinds k r } := rfl
@[simp] theorem State.setKind_credential (k : Fin 8) (r : KindRecord) (s : State) : (s.setKind k r).credential = s.credential := rfl
@[simp] theorem State.setKind_lifecycle (k : Fin 8) (r : KindRecord) (s : State) : (s.setKind k r).lifecycle = s.lifecycle := rfl
@[simp] theorem State.setKind_hash (k : Fin 8) (r : KindRecord) (s : State) : (s.setKind k r).hash = s.hash := rfl
@[simp] theorem State.setKind_curve (k : Fin 8) (r : KindRecord) (s : State) : (s.setKind k r).curve = s.curve := rfl
@[simp] theorem State.setKind_census (k : Fin 8) (r : KindRecord) (s : State) : (s.setKind k r).census = s.census := rfl
@[simp] theorem State.setKind_pace (k : Fin 8) (r : KindRecord) (s : State) : (s.setKind k r).pace = s.pace := rfl
@[simp] theorem State.setKind_store (k : Fin 8) (r : KindRecord) (s : State) : (s.setKind k r).store = s.store := rfl
@[simp] theorem State.setKind_startUp (k : Fin 8) (r : KindRecord) (s : State) : (s.setKind k r).startUp = s.startUp := rfl
@[simp] theorem State.setKind_outboxes (k : Fin 8) (r : KindRecord) (s : State) : (s.setKind k r).outboxes = s.outboxes := rfl
@[simp] theorem State.setKind_measureWaiting (k : Fin 8) (r : KindRecord) (s : State) : (s.setKind k r).measureWaiting = s.measureWaiting :=
  rfl
@[simp] theorem State.setKind_powered (k : Fin 8) (r : KindRecord) (s : State) : (s.setKind k r).powered = s.powered := rfl
@[simp] theorem State.setKind_linkUp (k : Fin 8) (r : KindRecord) (s : State) : (s.setKind k r).linkUp = s.linkUp := rfl
@[simp] theorem State.setKind_resetLine (k : Fin 8) (r : KindRecord) (s : State) : (s.setKind k r).resetLine = s.resetLine := rfl
@[simp] theorem State.setKind_ownerLineLow (k : Fin 8) (r : KindRecord) (s : State) : (s.setKind k r).ownerLineLow = s.ownerLineLow := rfl
@[simp] theorem State.setKind_host (k : Fin 8) (r : KindRecord) (s : State) : (s.setKind k r).host = s.host := rfl
@[simp] theorem State.setKind_messages (k : Fin 8) (r : KindRecord) (s : State) : (s.setKind k r).messages = s.messages := rfl
@[simp] theorem State.setKind_free (k : Fin 8) (r : KindRecord) (s : State) : (s.setKind k r).free = s.free := rfl
@[simp] theorem State.setKind_pending (k : Fin 8) (r : KindRecord) (s : State) : (s.setKind k r).pending = s.pending := rfl

/-! ### setMark -/

@[simp] theorem State.setMark_exch (i : Fin 3) (v : Word32) (s : State) : (s.setMark i v).exch = s.exch := rfl
@[simp] theorem State.setMark_custody (i : Fin 3) (v : Word32) (s : State) : (s.setMark i v).custody = s.custody := rfl
@[simp] theorem State.setMark_measure (i : Fin 3) (v : Word32) (s : State) : (s.setMark i v).measure = s.measure := rfl
@[simp] theorem State.setMark_update (i : Fin 3) (v : Word32) (s : State) :
    (s.setMark i v).update = { s.update with marks := tableSet s.update.marks i v } := rfl
@[simp] theorem State.setMark_credential (i : Fin 3) (v : Word32) (s : State) : (s.setMark i v).credential = s.credential := rfl
@[simp] theorem State.setMark_lifecycle (i : Fin 3) (v : Word32) (s : State) : (s.setMark i v).lifecycle = s.lifecycle := rfl
@[simp] theorem State.setMark_hash (i : Fin 3) (v : Word32) (s : State) : (s.setMark i v).hash = s.hash := rfl
@[simp] theorem State.setMark_curve (i : Fin 3) (v : Word32) (s : State) : (s.setMark i v).curve = s.curve := rfl
@[simp] theorem State.setMark_census (i : Fin 3) (v : Word32) (s : State) : (s.setMark i v).census = s.census := rfl
@[simp] theorem State.setMark_pace (i : Fin 3) (v : Word32) (s : State) : (s.setMark i v).pace = s.pace := rfl
@[simp] theorem State.setMark_store (i : Fin 3) (v : Word32) (s : State) : (s.setMark i v).store = s.store := rfl
@[simp] theorem State.setMark_startUp (i : Fin 3) (v : Word32) (s : State) : (s.setMark i v).startUp = s.startUp := rfl
@[simp] theorem State.setMark_outboxes (i : Fin 3) (v : Word32) (s : State) : (s.setMark i v).outboxes = s.outboxes := rfl
@[simp] theorem State.setMark_measureWaiting (i : Fin 3) (v : Word32) (s : State) : (s.setMark i v).measureWaiting = s.measureWaiting :=
  rfl
@[simp] theorem State.setMark_powered (i : Fin 3) (v : Word32) (s : State) : (s.setMark i v).powered = s.powered := rfl
@[simp] theorem State.setMark_linkUp (i : Fin 3) (v : Word32) (s : State) : (s.setMark i v).linkUp = s.linkUp := rfl
@[simp] theorem State.setMark_resetLine (i : Fin 3) (v : Word32) (s : State) : (s.setMark i v).resetLine = s.resetLine := rfl
@[simp] theorem State.setMark_ownerLineLow (i : Fin 3) (v : Word32) (s : State) : (s.setMark i v).ownerLineLow = s.ownerLineLow := rfl
@[simp] theorem State.setMark_host (i : Fin 3) (v : Word32) (s : State) : (s.setMark i v).host = s.host := rfl
@[simp] theorem State.setMark_messages (i : Fin 3) (v : Word32) (s : State) : (s.setMark i v).messages = s.messages := rfl
@[simp] theorem State.setMark_free (i : Fin 3) (v : Word32) (s : State) : (s.setMark i v).free = s.free := rfl
@[simp] theorem State.setMark_pending (i : Fin 3) (v : Word32) (s : State) : (s.setMark i v).pending = s.pending := rfl

/-! ### setCred -/

@[simp] theorem State.setCred_exch (i : Fin 32) (e : Option CredEntry) (s : State) : (s.setCred i e).exch = s.exch := rfl
@[simp] theorem State.setCred_custody (i : Fin 32) (e : Option CredEntry) (s : State) : (s.setCred i e).custody = s.custody := rfl
@[simp] theorem State.setCred_measure (i : Fin 32) (e : Option CredEntry) (s : State) : (s.setCred i e).measure = s.measure := rfl
@[simp] theorem State.setCred_update (i : Fin 32) (e : Option CredEntry) (s : State) : (s.setCred i e).update = s.update := rfl
@[simp] theorem State.setCred_credential (i : Fin 32) (e : Option CredEntry) (s : State) :
    (s.setCred i e).credential = { s.credential with table := tableSet s.credential.table i e } := rfl
@[simp] theorem State.setCred_lifecycle (i : Fin 32) (e : Option CredEntry) (s : State) : (s.setCred i e).lifecycle = s.lifecycle := rfl
@[simp] theorem State.setCred_hash (i : Fin 32) (e : Option CredEntry) (s : State) : (s.setCred i e).hash = s.hash := rfl
@[simp] theorem State.setCred_curve (i : Fin 32) (e : Option CredEntry) (s : State) : (s.setCred i e).curve = s.curve := rfl
@[simp] theorem State.setCred_census (i : Fin 32) (e : Option CredEntry) (s : State) : (s.setCred i e).census = s.census := rfl
@[simp] theorem State.setCred_pace (i : Fin 32) (e : Option CredEntry) (s : State) : (s.setCred i e).pace = s.pace := rfl
@[simp] theorem State.setCred_store (i : Fin 32) (e : Option CredEntry) (s : State) : (s.setCred i e).store = s.store := rfl
@[simp] theorem State.setCred_startUp (i : Fin 32) (e : Option CredEntry) (s : State) : (s.setCred i e).startUp = s.startUp := rfl
@[simp] theorem State.setCred_outboxes (i : Fin 32) (e : Option CredEntry) (s : State) : (s.setCred i e).outboxes = s.outboxes := rfl
@[simp] theorem State.setCred_measureWaiting (i : Fin 32) (e : Option CredEntry) (s : State) :
    (s.setCred i e).measureWaiting = s.measureWaiting := rfl
@[simp] theorem State.setCred_powered (i : Fin 32) (e : Option CredEntry) (s : State) : (s.setCred i e).powered = s.powered := rfl
@[simp] theorem State.setCred_linkUp (i : Fin 32) (e : Option CredEntry) (s : State) : (s.setCred i e).linkUp = s.linkUp := rfl
@[simp] theorem State.setCred_resetLine (i : Fin 32) (e : Option CredEntry) (s : State) : (s.setCred i e).resetLine = s.resetLine := rfl
@[simp] theorem State.setCred_ownerLineLow (i : Fin 32) (e : Option CredEntry) (s : State) : (s.setCred i e).ownerLineLow = s.ownerLineLow :=
  rfl
@[simp] theorem State.setCred_host (i : Fin 32) (e : Option CredEntry) (s : State) : (s.setCred i e).host = s.host := rfl
@[simp] theorem State.setCred_messages (i : Fin 32) (e : Option CredEntry) (s : State) : (s.setCred i e).messages = s.messages := rfl
@[simp] theorem State.setCred_free (i : Fin 32) (e : Option CredEntry) (s : State) : (s.setCred i e).free = s.free := rfl
@[simp] theorem State.setCred_pending (i : Fin 32) (e : Option CredEntry) (s : State) : (s.setCred i e).pending = s.pending := rfl

/-! ### setChain -/

@[simp] theorem State.setChain_exch (i : Fin 12) (v : Digest) (s : State) : (s.setChain i v).exch = s.exch := rfl
@[simp] theorem State.setChain_custody (i : Fin 12) (v : Digest) (s : State) : (s.setChain i v).custody = s.custody := rfl
@[simp] theorem State.setChain_measure (i : Fin 12) (v : Digest) (s : State) :
    (s.setChain i v).measure = { s.measure with chains := tableSet s.measure.chains i v } := rfl
@[simp] theorem State.setChain_update (i : Fin 12) (v : Digest) (s : State) : (s.setChain i v).update = s.update := rfl
@[simp] theorem State.setChain_credential (i : Fin 12) (v : Digest) (s : State) : (s.setChain i v).credential = s.credential := rfl
@[simp] theorem State.setChain_lifecycle (i : Fin 12) (v : Digest) (s : State) : (s.setChain i v).lifecycle = s.lifecycle := rfl
@[simp] theorem State.setChain_hash (i : Fin 12) (v : Digest) (s : State) : (s.setChain i v).hash = s.hash := rfl
@[simp] theorem State.setChain_curve (i : Fin 12) (v : Digest) (s : State) : (s.setChain i v).curve = s.curve := rfl
@[simp] theorem State.setChain_census (i : Fin 12) (v : Digest) (s : State) : (s.setChain i v).census = s.census := rfl
@[simp] theorem State.setChain_pace (i : Fin 12) (v : Digest) (s : State) : (s.setChain i v).pace = s.pace := rfl
@[simp] theorem State.setChain_store (i : Fin 12) (v : Digest) (s : State) : (s.setChain i v).store = s.store := rfl
@[simp] theorem State.setChain_startUp (i : Fin 12) (v : Digest) (s : State) : (s.setChain i v).startUp = s.startUp := rfl
@[simp] theorem State.setChain_outboxes (i : Fin 12) (v : Digest) (s : State) : (s.setChain i v).outboxes = s.outboxes := rfl
@[simp] theorem State.setChain_measureWaiting (i : Fin 12) (v : Digest) (s : State) : (s.setChain i v).measureWaiting = s.measureWaiting :=
  rfl
@[simp] theorem State.setChain_powered (i : Fin 12) (v : Digest) (s : State) : (s.setChain i v).powered = s.powered := rfl
@[simp] theorem State.setChain_linkUp (i : Fin 12) (v : Digest) (s : State) : (s.setChain i v).linkUp = s.linkUp := rfl
@[simp] theorem State.setChain_resetLine (i : Fin 12) (v : Digest) (s : State) : (s.setChain i v).resetLine = s.resetLine := rfl
@[simp] theorem State.setChain_ownerLineLow (i : Fin 12) (v : Digest) (s : State) : (s.setChain i v).ownerLineLow = s.ownerLineLow := rfl
@[simp] theorem State.setChain_host (i : Fin 12) (v : Digest) (s : State) : (s.setChain i v).host = s.host := rfl
@[simp] theorem State.setChain_messages (i : Fin 12) (v : Digest) (s : State) : (s.setChain i v).messages = s.messages := rfl
@[simp] theorem State.setChain_free (i : Fin 12) (v : Digest) (s : State) : (s.setChain i v).free = s.free := rfl
@[simp] theorem State.setChain_pending (i : Fin 12) (v : Digest) (s : State) : (s.setChain i v).pending = s.pending := rfl

/-! ### setOutbox -/

@[simp] theorem State.setOutbox_exch (c : Client) (l : List Out) (s : State) : (s.setOutbox c l).exch = s.exch := rfl
@[simp] theorem State.setOutbox_custody (c : Client) (l : List Out) (s : State) : (s.setOutbox c l).custody = s.custody := rfl
@[simp] theorem State.setOutbox_measure (c : Client) (l : List Out) (s : State) : (s.setOutbox c l).measure = s.measure := rfl
@[simp] theorem State.setOutbox_update (c : Client) (l : List Out) (s : State) : (s.setOutbox c l).update = s.update := rfl
@[simp] theorem State.setOutbox_credential (c : Client) (l : List Out) (s : State) : (s.setOutbox c l).credential = s.credential := rfl
@[simp] theorem State.setOutbox_lifecycle (c : Client) (l : List Out) (s : State) : (s.setOutbox c l).lifecycle = s.lifecycle := rfl
@[simp] theorem State.setOutbox_hash (c : Client) (l : List Out) (s : State) : (s.setOutbox c l).hash = s.hash := rfl
@[simp] theorem State.setOutbox_curve (c : Client) (l : List Out) (s : State) : (s.setOutbox c l).curve = s.curve := rfl
@[simp] theorem State.setOutbox_census (c : Client) (l : List Out) (s : State) : (s.setOutbox c l).census = s.census := rfl
@[simp] theorem State.setOutbox_pace (c : Client) (l : List Out) (s : State) : (s.setOutbox c l).pace = s.pace := rfl
@[simp] theorem State.setOutbox_store (c : Client) (l : List Out) (s : State) : (s.setOutbox c l).store = s.store := rfl
@[simp] theorem State.setOutbox_startUp (c : Client) (l : List Out) (s : State) : (s.setOutbox c l).startUp = s.startUp := rfl
@[simp] theorem State.setOutbox_outboxes (c : Client) (l : List Out) (s : State) : (s.setOutbox c l).outboxes = s.outboxes.set c l := rfl
@[simp] theorem State.setOutbox_measureWaiting (c : Client) (l : List Out) (s : State) :
    (s.setOutbox c l).measureWaiting = s.measureWaiting := rfl
@[simp] theorem State.setOutbox_powered (c : Client) (l : List Out) (s : State) : (s.setOutbox c l).powered = s.powered := rfl
@[simp] theorem State.setOutbox_linkUp (c : Client) (l : List Out) (s : State) : (s.setOutbox c l).linkUp = s.linkUp := rfl
@[simp] theorem State.setOutbox_resetLine (c : Client) (l : List Out) (s : State) : (s.setOutbox c l).resetLine = s.resetLine := rfl
@[simp] theorem State.setOutbox_ownerLineLow (c : Client) (l : List Out) (s : State) : (s.setOutbox c l).ownerLineLow = s.ownerLineLow :=
  rfl
@[simp] theorem State.setOutbox_host (c : Client) (l : List Out) (s : State) : (s.setOutbox c l).host = s.host := rfl
@[simp] theorem State.setOutbox_messages (c : Client) (l : List Out) (s : State) : (s.setOutbox c l).messages = s.messages := rfl
@[simp] theorem State.setOutbox_free (c : Client) (l : List Out) (s : State) : (s.setOutbox c l).free = s.free := rfl
@[simp] theorem State.setOutbox_pending (c : Client) (l : List Out) (s : State) : (s.setOutbox c l).pending = s.pending := rfl

/-! ### push -/

@[simp] theorem State.push_exch (c : Client) (l : List Out) (s : State) : (s.push c l).exch = s.exch := rfl
@[simp] theorem State.push_custody (c : Client) (l : List Out) (s : State) : (s.push c l).custody = s.custody := rfl
@[simp] theorem State.push_measure (c : Client) (l : List Out) (s : State) : (s.push c l).measure = s.measure := rfl
@[simp] theorem State.push_update (c : Client) (l : List Out) (s : State) : (s.push c l).update = s.update := rfl
@[simp] theorem State.push_credential (c : Client) (l : List Out) (s : State) : (s.push c l).credential = s.credential := rfl
@[simp] theorem State.push_lifecycle (c : Client) (l : List Out) (s : State) : (s.push c l).lifecycle = s.lifecycle := rfl
@[simp] theorem State.push_hash (c : Client) (l : List Out) (s : State) : (s.push c l).hash = s.hash := rfl
@[simp] theorem State.push_curve (c : Client) (l : List Out) (s : State) : (s.push c l).curve = s.curve := rfl
@[simp] theorem State.push_census (c : Client) (l : List Out) (s : State) : (s.push c l).census = s.census := rfl
@[simp] theorem State.push_pace (c : Client) (l : List Out) (s : State) : (s.push c l).pace = s.pace := rfl
@[simp] theorem State.push_store (c : Client) (l : List Out) (s : State) : (s.push c l).store = s.store := rfl
@[simp] theorem State.push_startUp (c : Client) (l : List Out) (s : State) : (s.push c l).startUp = s.startUp := rfl
@[simp] theorem State.push_outboxes (c : Client) (l : List Out) (s : State) :
    (s.push c l).outboxes = s.outboxes.set c (s.outboxes.get c ++ l) := rfl
@[simp] theorem State.push_measureWaiting (c : Client) (l : List Out) (s : State) : (s.push c l).measureWaiting = s.measureWaiting := rfl
@[simp] theorem State.push_powered (c : Client) (l : List Out) (s : State) : (s.push c l).powered = s.powered := rfl
@[simp] theorem State.push_linkUp (c : Client) (l : List Out) (s : State) : (s.push c l).linkUp = s.linkUp := rfl
@[simp] theorem State.push_resetLine (c : Client) (l : List Out) (s : State) : (s.push c l).resetLine = s.resetLine := rfl
@[simp] theorem State.push_ownerLineLow (c : Client) (l : List Out) (s : State) : (s.push c l).ownerLineLow = s.ownerLineLow := rfl
@[simp] theorem State.push_host (c : Client) (l : List Out) (s : State) : (s.push c l).host = s.host := rfl
@[simp] theorem State.push_messages (c : Client) (l : List Out) (s : State) : (s.push c l).messages = s.messages := rfl
@[simp] theorem State.push_free (c : Client) (l : List Out) (s : State) : (s.push c l).free = s.free := rfl
@[simp] theorem State.push_pending (c : Client) (l : List Out) (s : State) : (s.push c l).pending = s.pending := rfl

/-! ### hostStores -/

@[simp] theorem State.hostStores_exch (h : HostWrites) (s : State) : (s.hostStores h).exch = s.exch := rfl
@[simp] theorem State.hostStores_custody (h : HostWrites) (s : State) : (s.hostStores h).custody = s.custody := rfl
@[simp] theorem State.hostStores_measure (h : HostWrites) (s : State) : (s.hostStores h).measure = s.measure := rfl
@[simp] theorem State.hostStores_update (h : HostWrites) (s : State) : (s.hostStores h).update = s.update := rfl
@[simp] theorem State.hostStores_credential (h : HostWrites) (s : State) : (s.hostStores h).credential = s.credential := rfl
@[simp] theorem State.hostStores_lifecycle (h : HostWrites) (s : State) : (s.hostStores h).lifecycle = s.lifecycle := rfl
@[simp] theorem State.hostStores_hash (h : HostWrites) (s : State) : (s.hostStores h).hash = s.hash := rfl
@[simp] theorem State.hostStores_curve (h : HostWrites) (s : State) : (s.hostStores h).curve = s.curve := rfl
@[simp] theorem State.hostStores_census (h : HostWrites) (s : State) : (s.hostStores h).census = s.census := rfl
@[simp] theorem State.hostStores_pace (h : HostWrites) (s : State) : (s.hostStores h).pace = s.pace := rfl
@[simp] theorem State.hostStores_store (h : HostWrites) (s : State) : (s.hostStores h).store = s.store := rfl
@[simp] theorem State.hostStores_startUp (h : HostWrites) (s : State) : (s.hostStores h).startUp = s.startUp := rfl
@[simp] theorem State.hostStores_outboxes (h : HostWrites) (s : State) : (s.hostStores h).outboxes = s.outboxes := rfl
@[simp] theorem State.hostStores_measureWaiting (h : HostWrites) (s : State) : (s.hostStores h).measureWaiting = s.measureWaiting := rfl
@[simp] theorem State.hostStores_powered (h : HostWrites) (s : State) : (s.hostStores h).powered = s.powered := rfl
@[simp] theorem State.hostStores_linkUp (h : HostWrites) (s : State) : (s.hostStores h).linkUp = s.linkUp := rfl
@[simp] theorem State.hostStores_resetLine (h : HostWrites) (s : State) : (s.hostStores h).resetLine = s.resetLine := rfl
@[simp] theorem State.hostStores_ownerLineLow (h : HostWrites) (s : State) : (s.hostStores h).ownerLineLow = s.ownerLineLow := rfl
@[simp] theorem State.hostStores_host (h : HostWrites) (s : State) : (s.hostStores h).host = Memory.hostStores s.host h := rfl
@[simp] theorem State.hostStores_messages (h : HostWrites) (s : State) : (s.hostStores h).messages = s.messages := rfl
@[simp] theorem State.hostStores_free (h : HostWrites) (s : State) : (s.hostStores h).free = s.free := rfl
@[simp] theorem State.hostStores_pending (h : HostWrites) (s : State) : (s.hostStores h).pending = s.pending := rfl

/-! ### writePage -/

@[simp] theorem State.writePage_exch (page off : Nat) (l : List Byte) (s : State) : (s.writePage page off l).exch = s.exch := rfl
@[simp] theorem State.writePage_custody (page off : Nat) (l : List Byte) (s : State) : (s.writePage page off l).custody = s.custody := rfl
@[simp] theorem State.writePage_measure (page off : Nat) (l : List Byte) (s : State) : (s.writePage page off l).measure = s.measure := rfl
@[simp] theorem State.writePage_update (page off : Nat) (l : List Byte) (s : State) : (s.writePage page off l).update = s.update := rfl
@[simp] theorem State.writePage_credential (page off : Nat) (l : List Byte) (s : State) :
    (s.writePage page off l).credential = s.credential := rfl
@[simp] theorem State.writePage_lifecycle (page off : Nat) (l : List Byte) (s : State) : (s.writePage page off l).lifecycle = s.lifecycle :=
  rfl
@[simp] theorem State.writePage_hash (page off : Nat) (l : List Byte) (s : State) : (s.writePage page off l).hash = s.hash := rfl
@[simp] theorem State.writePage_curve (page off : Nat) (l : List Byte) (s : State) : (s.writePage page off l).curve = s.curve := rfl
@[simp] theorem State.writePage_census (page off : Nat) (l : List Byte) (s : State) : (s.writePage page off l).census = s.census := rfl
@[simp] theorem State.writePage_pace (page off : Nat) (l : List Byte) (s : State) : (s.writePage page off l).pace = s.pace := rfl
@[simp] theorem State.writePage_store (page off : Nat) (l : List Byte) (s : State) : (s.writePage page off l).store = s.store := rfl
@[simp] theorem State.writePage_startUp (page off : Nat) (l : List Byte) (s : State) : (s.writePage page off l).startUp = s.startUp := rfl
@[simp] theorem State.writePage_outboxes (page off : Nat) (l : List Byte) (s : State) : (s.writePage page off l).outboxes = s.outboxes :=
  rfl
@[simp] theorem State.writePage_measureWaiting (page off : Nat) (l : List Byte) (s : State) :
    (s.writePage page off l).measureWaiting = s.measureWaiting := rfl
@[simp] theorem State.writePage_powered (page off : Nat) (l : List Byte) (s : State) : (s.writePage page off l).powered = s.powered := rfl
@[simp] theorem State.writePage_linkUp (page off : Nat) (l : List Byte) (s : State) : (s.writePage page off l).linkUp = s.linkUp := rfl
@[simp] theorem State.writePage_resetLine (page off : Nat) (l : List Byte) (s : State) : (s.writePage page off l).resetLine = s.resetLine :=
  rfl
@[simp] theorem State.writePage_ownerLineLow (page off : Nat) (l : List Byte) (s : State) :
    (s.writePage page off l).ownerLineLow = s.ownerLineLow := rfl
@[simp] theorem State.writePage_host (page off : Nat) (l : List Byte) (s : State) :
    (s.writePage page off l).host = Memory.writeBytes s.host (s.pageAddress page off) l := rfl
@[simp] theorem State.writePage_messages (page off : Nat) (l : List Byte) (s : State) : (s.writePage page off l).messages = s.messages :=
  rfl
@[simp] theorem State.writePage_free (page off : Nat) (l : List Byte) (s : State) : (s.writePage page off l).free = s.free := rfl
@[simp] theorem State.writePage_pending (page off : Nat) (l : List Byte) (s : State) : (s.writePage page off l).pending = s.pending := rfl

/-! ### writeHost -/

@[simp] theorem State.writeHost_exch (a : Nat) (l : List Byte) (s : State) : (s.writeHost a l).exch = s.exch := rfl
@[simp] theorem State.writeHost_custody (a : Nat) (l : List Byte) (s : State) : (s.writeHost a l).custody = s.custody := rfl
@[simp] theorem State.writeHost_measure (a : Nat) (l : List Byte) (s : State) : (s.writeHost a l).measure = s.measure := rfl
@[simp] theorem State.writeHost_update (a : Nat) (l : List Byte) (s : State) : (s.writeHost a l).update = s.update := rfl
@[simp] theorem State.writeHost_credential (a : Nat) (l : List Byte) (s : State) : (s.writeHost a l).credential = s.credential := rfl
@[simp] theorem State.writeHost_lifecycle (a : Nat) (l : List Byte) (s : State) : (s.writeHost a l).lifecycle = s.lifecycle := rfl
@[simp] theorem State.writeHost_hash (a : Nat) (l : List Byte) (s : State) : (s.writeHost a l).hash = s.hash := rfl
@[simp] theorem State.writeHost_curve (a : Nat) (l : List Byte) (s : State) : (s.writeHost a l).curve = s.curve := rfl
@[simp] theorem State.writeHost_census (a : Nat) (l : List Byte) (s : State) : (s.writeHost a l).census = s.census := rfl
@[simp] theorem State.writeHost_pace (a : Nat) (l : List Byte) (s : State) : (s.writeHost a l).pace = s.pace := rfl
@[simp] theorem State.writeHost_store (a : Nat) (l : List Byte) (s : State) : (s.writeHost a l).store = s.store := rfl
@[simp] theorem State.writeHost_startUp (a : Nat) (l : List Byte) (s : State) : (s.writeHost a l).startUp = s.startUp := rfl
@[simp] theorem State.writeHost_outboxes (a : Nat) (l : List Byte) (s : State) : (s.writeHost a l).outboxes = s.outboxes := rfl
@[simp] theorem State.writeHost_measureWaiting (a : Nat) (l : List Byte) (s : State) : (s.writeHost a l).measureWaiting = s.measureWaiting :=
  rfl
@[simp] theorem State.writeHost_powered (a : Nat) (l : List Byte) (s : State) : (s.writeHost a l).powered = s.powered := rfl
@[simp] theorem State.writeHost_linkUp (a : Nat) (l : List Byte) (s : State) : (s.writeHost a l).linkUp = s.linkUp := rfl
@[simp] theorem State.writeHost_resetLine (a : Nat) (l : List Byte) (s : State) : (s.writeHost a l).resetLine = s.resetLine := rfl
@[simp] theorem State.writeHost_ownerLineLow (a : Nat) (l : List Byte) (s : State) : (s.writeHost a l).ownerLineLow = s.ownerLineLow :=
  rfl
@[simp] theorem State.writeHost_host (a : Nat) (l : List Byte) (s : State) : (s.writeHost a l).host = Memory.writeBytes s.host a l := rfl
@[simp] theorem State.writeHost_messages (a : Nat) (l : List Byte) (s : State) : (s.writeHost a l).messages = s.messages := rfl
@[simp] theorem State.writeHost_free (a : Nat) (l : List Byte) (s : State) : (s.writeHost a l).free = s.free := rfl
@[simp] theorem State.writeHost_pending (a : Nat) (l : List Byte) (s : State) : (s.writeHost a l).pending = s.pending := rfl

/-! ### joinList -/

@[simp] theorem State.joinList_exch (r : MeasureRequest) (s : State) : (s.joinList r).exch = s.exch := rfl
@[simp] theorem State.joinList_custody (r : MeasureRequest) (s : State) : (s.joinList r).custody = s.custody := rfl
@[simp] theorem State.joinList_measure (r : MeasureRequest) (s : State) : (s.joinList r).measure = s.measure.asked r := rfl
@[simp] theorem State.joinList_update (r : MeasureRequest) (s : State) : (s.joinList r).update = s.update := rfl
@[simp] theorem State.joinList_credential (r : MeasureRequest) (s : State) : (s.joinList r).credential = s.credential := rfl
@[simp] theorem State.joinList_lifecycle (r : MeasureRequest) (s : State) : (s.joinList r).lifecycle = s.lifecycle := rfl
@[simp] theorem State.joinList_hash (r : MeasureRequest) (s : State) : (s.joinList r).hash = s.hash := rfl
@[simp] theorem State.joinList_curve (r : MeasureRequest) (s : State) : (s.joinList r).curve = s.curve := rfl
@[simp] theorem State.joinList_census (r : MeasureRequest) (s : State) : (s.joinList r).census = s.census := rfl
@[simp] theorem State.joinList_pace (r : MeasureRequest) (s : State) : (s.joinList r).pace = s.pace := rfl
@[simp] theorem State.joinList_store (r : MeasureRequest) (s : State) : (s.joinList r).store = s.store := rfl
@[simp] theorem State.joinList_startUp (r : MeasureRequest) (s : State) : (s.joinList r).startUp = s.startUp := rfl
@[simp] theorem State.joinList_outboxes (r : MeasureRequest) (s : State) : (s.joinList r).outboxes = s.outboxes := rfl
@[simp] theorem State.joinList_measureWaiting (r : MeasureRequest) (s : State) :
    (s.joinList r).measureWaiting = s.measureWaiting := rfl
@[simp] theorem State.joinList_powered (r : MeasureRequest) (s : State) : (s.joinList r).powered = s.powered := rfl
@[simp] theorem State.joinList_linkUp (r : MeasureRequest) (s : State) : (s.joinList r).linkUp = s.linkUp := rfl
@[simp] theorem State.joinList_resetLine (r : MeasureRequest) (s : State) : (s.joinList r).resetLine = s.resetLine := rfl
@[simp] theorem State.joinList_ownerLineLow (r : MeasureRequest) (s : State) : (s.joinList r).ownerLineLow = s.ownerLineLow := rfl
@[simp] theorem State.joinList_host (r : MeasureRequest) (s : State) : (s.joinList r).host = s.host := rfl
@[simp] theorem State.joinList_messages (r : MeasureRequest) (s : State) : (s.joinList r).messages = s.messages := rfl
@[simp] theorem State.joinList_free (r : MeasureRequest) (s : State) : (s.joinList r).free = s.free := rfl
@[simp] theorem State.joinList_pending (r : MeasureRequest) (s : State) : (s.joinList r).pending = s.pending := rfl

/-! ### writeOutput -/

@[simp] theorem State.writeOutput_exch (c : Card) (ok : Bool) (n : Nat) (l : List Byte) (s : State) :
    (s.writeOutput c ok n l).exch = s.exch := rfl
@[simp] theorem State.writeOutput_custody (c : Card) (ok : Bool) (n : Nat) (l : List Byte) (s : State) :
    (s.writeOutput c ok n l).custody = s.custody := rfl
@[simp] theorem State.writeOutput_measure (c : Card) (ok : Bool) (n : Nat) (l : List Byte) (s : State) :
    (s.writeOutput c ok n l).measure = s.measure := rfl
@[simp] theorem State.writeOutput_update (c : Card) (ok : Bool) (n : Nat) (l : List Byte) (s : State) :
    (s.writeOutput c ok n l).update = s.update := rfl
@[simp] theorem State.writeOutput_credential (c : Card) (ok : Bool) (n : Nat) (l : List Byte) (s : State) :
    (s.writeOutput c ok n l).credential = s.credential := rfl
@[simp] theorem State.writeOutput_lifecycle (c : Card) (ok : Bool) (n : Nat) (l : List Byte) (s : State) :
    (s.writeOutput c ok n l).lifecycle = s.lifecycle := rfl
@[simp] theorem State.writeOutput_hash (c : Card) (ok : Bool) (n : Nat) (l : List Byte) (s : State) :
    (s.writeOutput c ok n l).hash = s.hash := rfl
@[simp] theorem State.writeOutput_curve (c : Card) (ok : Bool) (n : Nat) (l : List Byte) (s : State) :
    (s.writeOutput c ok n l).curve = s.curve := rfl
@[simp] theorem State.writeOutput_census (c : Card) (ok : Bool) (n : Nat) (l : List Byte) (s : State) :
    (s.writeOutput c ok n l).census = s.census := rfl
@[simp] theorem State.writeOutput_pace (c : Card) (ok : Bool) (n : Nat) (l : List Byte) (s : State) :
    (s.writeOutput c ok n l).pace = s.pace := rfl
@[simp] theorem State.writeOutput_store (c : Card) (ok : Bool) (n : Nat) (l : List Byte) (s : State) :
    (s.writeOutput c ok n l).store = s.store := rfl
@[simp] theorem State.writeOutput_startUp (c : Card) (ok : Bool) (n : Nat) (l : List Byte) (s : State) :
    (s.writeOutput c ok n l).startUp = s.startUp := rfl
@[simp] theorem State.writeOutput_outboxes (c : Card) (ok : Bool) (n : Nat) (l : List Byte) (s : State) :
    (s.writeOutput c ok n l).outboxes = s.outboxes := rfl
@[simp] theorem State.writeOutput_measureWaiting (c : Card) (ok : Bool) (n : Nat) (l : List Byte) (s : State) :
    (s.writeOutput c ok n l).measureWaiting = s.measureWaiting := rfl
@[simp] theorem State.writeOutput_powered (c : Card) (ok : Bool) (n : Nat) (l : List Byte) (s : State) :
    (s.writeOutput c ok n l).powered = s.powered := rfl
@[simp] theorem State.writeOutput_linkUp (c : Card) (ok : Bool) (n : Nat) (l : List Byte) (s : State) :
    (s.writeOutput c ok n l).linkUp = s.linkUp := rfl
@[simp] theorem State.writeOutput_resetLine (c : Card) (ok : Bool) (n : Nat) (l : List Byte) (s : State) :
    (s.writeOutput c ok n l).resetLine = s.resetLine := rfl
@[simp] theorem State.writeOutput_ownerLineLow (c : Card) (ok : Bool) (n : Nat) (l : List Byte) (s : State) :
    (s.writeOutput c ok n l).ownerLineLow = s.ownerLineLow := rfl
@[simp] theorem State.writeOutput_host (c : Card) (ok : Bool) (n : Nat) (l : List Byte) (s : State) :
    (s.writeOutput c ok n l).host = Memory.writeBytes s.host (c.extentAddress 0) (if ok then l else l.take n) := rfl
@[simp] theorem State.writeOutput_messages (c : Card) (ok : Bool) (n : Nat) (l : List Byte) (s : State) :
    (s.writeOutput c ok n l).messages = s.messages := rfl
@[simp] theorem State.writeOutput_free (c : Card) (ok : Bool) (n : Nat) (l : List Byte) (s : State) :
    (s.writeOutput c ok n l).free = s.free := rfl
@[simp] theorem State.writeOutput_pending (c : Card) (ok : Bool) (n : Nat) (l : List Byte) (s : State) :
    (s.writeOutput c ok n l).pending = s.pending := rfl

/-! ### afterDraw -/

@[simp] theorem State.afterDraw_exch (n : Nat) (s : State) : (s.afterDraw n).exch = s.exch := rfl
@[simp] theorem State.afterDraw_custody (n : Nat) (s : State) : (s.afterDraw n).custody = s.custody := rfl
@[simp] theorem State.afterDraw_measure (n : Nat) (s : State) : (s.afterDraw n).measure = s.measure := rfl
@[simp] theorem State.afterDraw_update (n : Nat) (s : State) : (s.afterDraw n).update = s.update := rfl
@[simp] theorem State.afterDraw_credential (n : Nat) (s : State) : (s.afterDraw n).credential = s.credential := rfl
@[simp] theorem State.afterDraw_lifecycle (n : Nat) (s : State) : (s.afterDraw n).lifecycle = s.lifecycle := rfl
@[simp] theorem State.afterDraw_hash (n : Nat) (s : State) : (s.afterDraw n).hash = s.hash := rfl
@[simp] theorem State.afterDraw_curve (n : Nat) (s : State) : (s.afterDraw n).curve = s.curve := rfl
@[simp] theorem State.afterDraw_census (n : Nat) (s : State) :
    (s.afterDraw n).census = { s.census with seed := Config.drawAdvance s.census.seed n } := rfl
@[simp] theorem State.afterDraw_pace (n : Nat) (s : State) : (s.afterDraw n).pace = s.pace := rfl
@[simp] theorem State.afterDraw_store (n : Nat) (s : State) : (s.afterDraw n).store = s.store := rfl
@[simp] theorem State.afterDraw_startUp (n : Nat) (s : State) : (s.afterDraw n).startUp = s.startUp := rfl
@[simp] theorem State.afterDraw_outboxes (n : Nat) (s : State) : (s.afterDraw n).outboxes = s.outboxes := rfl
@[simp] theorem State.afterDraw_measureWaiting (n : Nat) (s : State) : (s.afterDraw n).measureWaiting = s.measureWaiting := rfl
@[simp] theorem State.afterDraw_powered (n : Nat) (s : State) : (s.afterDraw n).powered = s.powered := rfl
@[simp] theorem State.afterDraw_linkUp (n : Nat) (s : State) : (s.afterDraw n).linkUp = s.linkUp := rfl
@[simp] theorem State.afterDraw_resetLine (n : Nat) (s : State) : (s.afterDraw n).resetLine = s.resetLine := rfl
@[simp] theorem State.afterDraw_ownerLineLow (n : Nat) (s : State) : (s.afterDraw n).ownerLineLow = s.ownerLineLow := rfl
@[simp] theorem State.afterDraw_host (n : Nat) (s : State) : (s.afterDraw n).host = s.host := rfl
@[simp] theorem State.afterDraw_messages (n : Nat) (s : State) : (s.afterDraw n).messages = s.messages := rfl
@[simp] theorem State.afterDraw_free (n : Nat) (s : State) : (s.afterDraw n).free = s.free := rfl
@[simp] theorem State.afterDraw_pending (n : Nat) (s : State) : (s.afterDraw n).pending = s.pending := rfl

/-! ### afterWithdrawDetail -/

@[simp] theorem State.afterWithdrawDetail_exch (s : State) : s.afterWithdrawDetail.exch = s.exch := rfl
@[simp] theorem State.afterWithdrawDetail_custody (s : State) : s.afterWithdrawDetail.custody = s.custody := rfl
@[simp] theorem State.afterWithdrawDetail_measure (s : State) : s.afterWithdrawDetail.measure = s.measure := rfl
@[simp] theorem State.afterWithdrawDetail_update (s : State) : s.afterWithdrawDetail.update = s.update := rfl
@[simp] theorem State.afterWithdrawDetail_credential (s : State) : s.afterWithdrawDetail.credential = s.credential := rfl
@[simp] theorem State.afterWithdrawDetail_lifecycle (s : State) : s.afterWithdrawDetail.lifecycle = s.lifecycle := rfl
@[simp] theorem State.afterWithdrawDetail_hash (s : State) : s.afterWithdrawDetail.hash = s.hash := rfl
@[simp] theorem State.afterWithdrawDetail_curve (s : State) : s.afterWithdrawDetail.curve = s.curve := rfl
@[simp] theorem State.afterWithdrawDetail_census (s : State) : s.afterWithdrawDetail.census = s.census := rfl
@[simp] theorem State.afterWithdrawDetail_pace (s : State) : s.afterWithdrawDetail.pace = s.pace := rfl
@[simp] theorem State.afterWithdrawDetail_store (s : State) : s.afterWithdrawDetail.store = s.store := rfl
@[simp] theorem State.afterWithdrawDetail_startUp (s : State) : s.afterWithdrawDetail.startUp = s.startUp := rfl
@[simp] theorem State.afterWithdrawDetail_outboxes (s : State) : s.afterWithdrawDetail.outboxes = s.outboxes := rfl
@[simp] theorem State.afterWithdrawDetail_measureWaiting (s : State) : s.afterWithdrawDetail.measureWaiting = s.measureWaiting := rfl
@[simp] theorem State.afterWithdrawDetail_powered (s : State) : s.afterWithdrawDetail.powered = s.powered := rfl
@[simp] theorem State.afterWithdrawDetail_linkUp (s : State) : s.afterWithdrawDetail.linkUp = s.linkUp := rfl
@[simp] theorem State.afterWithdrawDetail_resetLine (s : State) : s.afterWithdrawDetail.resetLine = s.resetLine := rfl
@[simp] theorem State.afterWithdrawDetail_ownerLineLow (s : State) : s.afterWithdrawDetail.ownerLineLow = s.ownerLineLow := rfl
@[simp] theorem State.afterWithdrawDetail_host (s : State) : s.afterWithdrawDetail.host = s.host := rfl
@[simp] theorem State.afterWithdrawDetail_messages (s : State) : s.afterWithdrawDetail.messages = s.messages := rfl
@[simp] theorem State.afterWithdrawDetail_free (s : State) :
    s.afterWithdrawDetail.free = s.free + if s.presenceOpen then 0 else 1 := rfl
@[simp] theorem State.afterWithdrawDetail_pending (s : State) : s.afterWithdrawDetail.pending = s.pending := rfl

/-! ### afterFill -/

@[simp] theorem State.afterFill_exch (l : List OutByte) (s : State) : (s.afterFill l).exch = s.exch := rfl
@[simp] theorem State.afterFill_custody (l : List OutByte) (s : State) : (s.afterFill l).custody = s.custody := rfl
@[simp] theorem State.afterFill_measure (l : List OutByte) (s : State) : (s.afterFill l).measure = s.measure := rfl
@[simp] theorem State.afterFill_update (l : List OutByte) (s : State) : (s.afterFill l).update = s.update := rfl
@[simp] theorem State.afterFill_credential (l : List OutByte) (s : State) : (s.afterFill l).credential = s.credential := rfl
@[simp] theorem State.afterFill_lifecycle (l : List OutByte) (s : State) : (s.afterFill l).lifecycle = s.lifecycle := rfl
@[simp] theorem State.afterFill_hash (l : List OutByte) (s : State) : (s.afterFill l).hash = s.hash := rfl
@[simp] theorem State.afterFill_curve (l : List OutByte) (s : State) : (s.afterFill l).curve = s.curve := rfl
@[simp] theorem State.afterFill_census (l : List OutByte) (s : State) : (s.afterFill l).census = s.census := rfl
@[simp] theorem State.afterFill_pace (l : List OutByte) (s : State) : (s.afterFill l).pace = s.pace := rfl
@[simp] theorem State.afterFill_store (l : List OutByte) (s : State) : (s.afterFill l).store = s.store := rfl
@[simp] theorem State.afterFill_startUp (l : List OutByte) (s : State) : (s.afterFill l).startUp = s.startUp := rfl
@[simp] theorem State.afterFill_outboxes (l : List OutByte) (s : State) : (s.afterFill l).outboxes = s.outboxes := rfl
@[simp] theorem State.afterFill_measureWaiting (l : List OutByte) (s : State) : (s.afterFill l).measureWaiting = s.measureWaiting := rfl
@[simp] theorem State.afterFill_powered (l : List OutByte) (s : State) : (s.afterFill l).powered = s.powered := rfl
@[simp] theorem State.afterFill_linkUp (l : List OutByte) (s : State) : (s.afterFill l).linkUp = s.linkUp := rfl
@[simp] theorem State.afterFill_resetLine (l : List OutByte) (s : State) : (s.afterFill l).resetLine = s.resetLine := rfl
@[simp] theorem State.afterFill_ownerLineLow (l : List OutByte) (s : State) : (s.afterFill l).ownerLineLow = s.ownerLineLow := rfl
@[simp] theorem State.afterFill_host (l : List OutByte) (s : State) : (s.afterFill l).host = s.host := rfl
@[simp] theorem State.afterFill_messages (l : List OutByte) (s : State) : (s.afterFill l).messages = s.messages := rfl
@[simp] theorem State.afterFill_free (l : List OutByte) (s : State) : (s.afterFill l).free = s.free + countOpen l := rfl
@[simp] theorem State.afterFill_pending (l : List OutByte) (s : State) : (s.afterFill l).pending = s.pending := rfl

/-! ### hashSubmit -/

@[simp] theorem State.hashSubmit_exch (c : HashClient) (j : HashJob) (s : State) : (s.hashSubmit c j).exch = s.exch := rfl
@[simp] theorem State.hashSubmit_custody (c : HashClient) (j : HashJob) (s : State) : (s.hashSubmit c j).custody = s.custody := rfl
@[simp] theorem State.hashSubmit_measure (c : HashClient) (j : HashJob) (s : State) : (s.hashSubmit c j).measure = s.measure := rfl
@[simp] theorem State.hashSubmit_update (c : HashClient) (j : HashJob) (s : State) : (s.hashSubmit c j).update = s.update := rfl
@[simp] theorem State.hashSubmit_credential (c : HashClient) (j : HashJob) (s : State) : (s.hashSubmit c j).credential = s.credential :=
  rfl
@[simp] theorem State.hashSubmit_lifecycle (c : HashClient) (j : HashJob) (s : State) : (s.hashSubmit c j).lifecycle = s.lifecycle := rfl
@[simp] theorem State.hashSubmit_hash (c : HashClient) (j : HashJob) (s : State) : (s.hashSubmit c j).hash = s.hash.submit c j := rfl
@[simp] theorem State.hashSubmit_curve (c : HashClient) (j : HashJob) (s : State) : (s.hashSubmit c j).curve = s.curve := rfl
@[simp] theorem State.hashSubmit_census (c : HashClient) (j : HashJob) (s : State) : (s.hashSubmit c j).census = s.census := rfl
@[simp] theorem State.hashSubmit_pace (c : HashClient) (j : HashJob) (s : State) : (s.hashSubmit c j).pace = s.pace := rfl
@[simp] theorem State.hashSubmit_store (c : HashClient) (j : HashJob) (s : State) : (s.hashSubmit c j).store = s.store := rfl
@[simp] theorem State.hashSubmit_startUp (c : HashClient) (j : HashJob) (s : State) : (s.hashSubmit c j).startUp = s.startUp := rfl
@[simp] theorem State.hashSubmit_outboxes (c : HashClient) (j : HashJob) (s : State) : (s.hashSubmit c j).outboxes = s.outboxes := rfl
@[simp] theorem State.hashSubmit_measureWaiting (c : HashClient) (j : HashJob) (s : State) :
    (s.hashSubmit c j).measureWaiting = s.measureWaiting := rfl
@[simp] theorem State.hashSubmit_powered (c : HashClient) (j : HashJob) (s : State) : (s.hashSubmit c j).powered = s.powered := rfl
@[simp] theorem State.hashSubmit_linkUp (c : HashClient) (j : HashJob) (s : State) : (s.hashSubmit c j).linkUp = s.linkUp := rfl
@[simp] theorem State.hashSubmit_resetLine (c : HashClient) (j : HashJob) (s : State) : (s.hashSubmit c j).resetLine = s.resetLine := rfl
@[simp] theorem State.hashSubmit_ownerLineLow (c : HashClient) (j : HashJob) (s : State) :
    (s.hashSubmit c j).ownerLineLow = s.ownerLineLow := rfl
@[simp] theorem State.hashSubmit_host (c : HashClient) (j : HashJob) (s : State) : (s.hashSubmit c j).host = s.host := rfl
@[simp] theorem State.hashSubmit_messages (c : HashClient) (j : HashJob) (s : State) : (s.hashSubmit c j).messages = s.messages := rfl
@[simp] theorem State.hashSubmit_free (c : HashClient) (j : HashJob) (s : State) : (s.hashSubmit c j).free = s.free := rfl
@[simp] theorem State.hashSubmit_pending (c : HashClient) (j : HashJob) (s : State) : (s.hashSubmit c j).pending = s.pending := rfl

/-! ### hashWithdraw -/

@[simp] theorem State.hashWithdraw_exch (c : HashClient) (s : State) : (s.hashWithdraw c).exch = s.exch := rfl
@[simp] theorem State.hashWithdraw_custody (c : HashClient) (s : State) : (s.hashWithdraw c).custody = s.custody := rfl
@[simp] theorem State.hashWithdraw_measure (c : HashClient) (s : State) : (s.hashWithdraw c).measure = s.measure := rfl
@[simp] theorem State.hashWithdraw_update (c : HashClient) (s : State) : (s.hashWithdraw c).update = s.update := rfl
@[simp] theorem State.hashWithdraw_credential (c : HashClient) (s : State) : (s.hashWithdraw c).credential = s.credential := rfl
@[simp] theorem State.hashWithdraw_lifecycle (c : HashClient) (s : State) : (s.hashWithdraw c).lifecycle = s.lifecycle := rfl
@[simp] theorem State.hashWithdraw_hash (c : HashClient) (s : State) : (s.hashWithdraw c).hash = s.hash.withdraw c := rfl
@[simp] theorem State.hashWithdraw_curve (c : HashClient) (s : State) : (s.hashWithdraw c).curve = s.curve := rfl
@[simp] theorem State.hashWithdraw_census (c : HashClient) (s : State) : (s.hashWithdraw c).census = s.census := rfl
@[simp] theorem State.hashWithdraw_pace (c : HashClient) (s : State) : (s.hashWithdraw c).pace = s.pace := rfl
@[simp] theorem State.hashWithdraw_store (c : HashClient) (s : State) : (s.hashWithdraw c).store = s.store := rfl
@[simp] theorem State.hashWithdraw_startUp (c : HashClient) (s : State) : (s.hashWithdraw c).startUp = s.startUp := rfl
@[simp] theorem State.hashWithdraw_outboxes (c : HashClient) (s : State) : (s.hashWithdraw c).outboxes = s.outboxes := rfl
@[simp] theorem State.hashWithdraw_measureWaiting (c : HashClient) (s : State) : (s.hashWithdraw c).measureWaiting = s.measureWaiting :=
  rfl
@[simp] theorem State.hashWithdraw_powered (c : HashClient) (s : State) : (s.hashWithdraw c).powered = s.powered := rfl
@[simp] theorem State.hashWithdraw_linkUp (c : HashClient) (s : State) : (s.hashWithdraw c).linkUp = s.linkUp := rfl
@[simp] theorem State.hashWithdraw_resetLine (c : HashClient) (s : State) : (s.hashWithdraw c).resetLine = s.resetLine := rfl
@[simp] theorem State.hashWithdraw_ownerLineLow (c : HashClient) (s : State) : (s.hashWithdraw c).ownerLineLow = s.ownerLineLow := rfl
@[simp] theorem State.hashWithdraw_host (c : HashClient) (s : State) : (s.hashWithdraw c).host = s.host := rfl
@[simp] theorem State.hashWithdraw_messages (c : HashClient) (s : State) : (s.hashWithdraw c).messages = s.messages := rfl
@[simp] theorem State.hashWithdraw_free (c : HashClient) (s : State) : (s.hashWithdraw c).free = s.free := rfl
@[simp] theorem State.hashWithdraw_pending (c : HashClient) (s : State) : (s.hashWithdraw c).pending = s.pending := rfl

/-! ### curveSubmit -/

@[simp] theorem State.curveSubmit_exch (c : CurveClient) (o : CurveOp) (s : State) : (s.curveSubmit c o).exch = s.exch := rfl
@[simp] theorem State.curveSubmit_custody (c : CurveClient) (o : CurveOp) (s : State) : (s.curveSubmit c o).custody = s.custody := rfl
@[simp] theorem State.curveSubmit_measure (c : CurveClient) (o : CurveOp) (s : State) : (s.curveSubmit c o).measure = s.measure := rfl
@[simp] theorem State.curveSubmit_update (c : CurveClient) (o : CurveOp) (s : State) : (s.curveSubmit c o).update = s.update := rfl
@[simp] theorem State.curveSubmit_credential (c : CurveClient) (o : CurveOp) (s : State) : (s.curveSubmit c o).credential = s.credential :=
  rfl
@[simp] theorem State.curveSubmit_lifecycle (c : CurveClient) (o : CurveOp) (s : State) : (s.curveSubmit c o).lifecycle = s.lifecycle :=
  rfl
@[simp] theorem State.curveSubmit_hash (c : CurveClient) (o : CurveOp) (s : State) : (s.curveSubmit c o).hash = s.hash := rfl
@[simp] theorem State.curveSubmit_curve (c : CurveClient) (o : CurveOp) (s : State) :
    (s.curveSubmit c o).curve = s.curve.submit s.identityScalar c o := rfl
@[simp] theorem State.curveSubmit_census (c : CurveClient) (o : CurveOp) (s : State) : (s.curveSubmit c o).census = s.census := rfl
@[simp] theorem State.curveSubmit_pace (c : CurveClient) (o : CurveOp) (s : State) : (s.curveSubmit c o).pace = s.pace := rfl
@[simp] theorem State.curveSubmit_store (c : CurveClient) (o : CurveOp) (s : State) : (s.curveSubmit c o).store = s.store := rfl
@[simp] theorem State.curveSubmit_startUp (c : CurveClient) (o : CurveOp) (s : State) : (s.curveSubmit c o).startUp = s.startUp := rfl
@[simp] theorem State.curveSubmit_outboxes (c : CurveClient) (o : CurveOp) (s : State) : (s.curveSubmit c o).outboxes = s.outboxes := rfl
@[simp] theorem State.curveSubmit_measureWaiting (c : CurveClient) (o : CurveOp) (s : State) :
    (s.curveSubmit c o).measureWaiting = s.measureWaiting := rfl
@[simp] theorem State.curveSubmit_powered (c : CurveClient) (o : CurveOp) (s : State) : (s.curveSubmit c o).powered = s.powered := rfl
@[simp] theorem State.curveSubmit_linkUp (c : CurveClient) (o : CurveOp) (s : State) : (s.curveSubmit c o).linkUp = s.linkUp := rfl
@[simp] theorem State.curveSubmit_resetLine (c : CurveClient) (o : CurveOp) (s : State) : (s.curveSubmit c o).resetLine = s.resetLine :=
  rfl
@[simp] theorem State.curveSubmit_ownerLineLow (c : CurveClient) (o : CurveOp) (s : State) :
    (s.curveSubmit c o).ownerLineLow = s.ownerLineLow := rfl
@[simp] theorem State.curveSubmit_host (c : CurveClient) (o : CurveOp) (s : State) : (s.curveSubmit c o).host = s.host := rfl
@[simp] theorem State.curveSubmit_messages (c : CurveClient) (o : CurveOp) (s : State) : (s.curveSubmit c o).messages = s.messages := rfl
@[simp] theorem State.curveSubmit_free (c : CurveClient) (o : CurveOp) (s : State) : (s.curveSubmit c o).free = s.free := rfl
@[simp] theorem State.curveSubmit_pending (c : CurveClient) (o : CurveOp) (s : State) : (s.curveSubmit c o).pending = s.pending := rfl

/-! ### curveWithdraw -/

@[simp] theorem State.curveWithdraw_exch (c : CurveClient) (s : State) : (s.curveWithdraw c).exch = s.exch := rfl
@[simp] theorem State.curveWithdraw_custody (c : CurveClient) (s : State) : (s.curveWithdraw c).custody = s.custody := rfl
@[simp] theorem State.curveWithdraw_measure (c : CurveClient) (s : State) : (s.curveWithdraw c).measure = s.measure := rfl
@[simp] theorem State.curveWithdraw_update (c : CurveClient) (s : State) : (s.curveWithdraw c).update = s.update := rfl
@[simp] theorem State.curveWithdraw_credential (c : CurveClient) (s : State) : (s.curveWithdraw c).credential = s.credential := rfl
@[simp] theorem State.curveWithdraw_lifecycle (c : CurveClient) (s : State) : (s.curveWithdraw c).lifecycle = s.lifecycle := rfl
@[simp] theorem State.curveWithdraw_hash (c : CurveClient) (s : State) : (s.curveWithdraw c).hash = s.hash := rfl
@[simp] theorem State.curveWithdraw_curve (c : CurveClient) (s : State) : (s.curveWithdraw c).curve = s.curve.setWaiting c none := rfl
@[simp] theorem State.curveWithdraw_census (c : CurveClient) (s : State) : (s.curveWithdraw c).census = s.census := rfl
@[simp] theorem State.curveWithdraw_pace (c : CurveClient) (s : State) : (s.curveWithdraw c).pace = s.pace := rfl
@[simp] theorem State.curveWithdraw_store (c : CurveClient) (s : State) : (s.curveWithdraw c).store = s.store := rfl
@[simp] theorem State.curveWithdraw_startUp (c : CurveClient) (s : State) : (s.curveWithdraw c).startUp = s.startUp := rfl
@[simp] theorem State.curveWithdraw_outboxes (c : CurveClient) (s : State) : (s.curveWithdraw c).outboxes = s.outboxes := rfl
@[simp] theorem State.curveWithdraw_measureWaiting (c : CurveClient) (s : State) : (s.curveWithdraw c).measureWaiting = s.measureWaiting :=
  rfl
@[simp] theorem State.curveWithdraw_powered (c : CurveClient) (s : State) : (s.curveWithdraw c).powered = s.powered := rfl
@[simp] theorem State.curveWithdraw_linkUp (c : CurveClient) (s : State) : (s.curveWithdraw c).linkUp = s.linkUp := rfl
@[simp] theorem State.curveWithdraw_resetLine (c : CurveClient) (s : State) : (s.curveWithdraw c).resetLine = s.resetLine := rfl
@[simp] theorem State.curveWithdraw_ownerLineLow (c : CurveClient) (s : State) : (s.curveWithdraw c).ownerLineLow = s.ownerLineLow := rfl
@[simp] theorem State.curveWithdraw_host (c : CurveClient) (s : State) : (s.curveWithdraw c).host = s.host := rfl
@[simp] theorem State.curveWithdraw_messages (c : CurveClient) (s : State) : (s.curveWithdraw c).messages = s.messages := rfl
@[simp] theorem State.curveWithdraw_free (c : CurveClient) (s : State) : (s.curveWithdraw c).free = s.free := rfl
@[simp] theorem State.curveWithdraw_pending (c : CurveClient) (s : State) : (s.curveWithdraw c).pending = s.pending := rfl

/-! ### beginCard -/

@[simp] theorem State.beginCard_exch (c : Card) (s : State) : (s.beginCard c).exch = s.exch.begun c := rfl
@[simp] theorem State.beginCard_custody (c : Card) (s : State) : (s.beginCard c).custody = s.custody := rfl
@[simp] theorem State.beginCard_measure (c : Card) (s : State) : (s.beginCard c).measure = s.measure := rfl
@[simp] theorem State.beginCard_update (c : Card) (s : State) : (s.beginCard c).update = s.update := rfl
@[simp] theorem State.beginCard_credential (c : Card) (s : State) : (s.beginCard c).credential = s.credential := rfl
@[simp] theorem State.beginCard_lifecycle (c : Card) (s : State) : (s.beginCard c).lifecycle = s.lifecycle := rfl
@[simp] theorem State.beginCard_hash (c : Card) (s : State) : (s.beginCard c).hash = s.hash := rfl
@[simp] theorem State.beginCard_curve (c : Card) (s : State) : (s.beginCard c).curve = s.curve := rfl
@[simp] theorem State.beginCard_census (c : Card) (s : State) : (s.beginCard c).census = s.census := rfl
@[simp] theorem State.beginCard_pace (c : Card) (s : State) : (s.beginCard c).pace = s.pace := rfl
@[simp] theorem State.beginCard_store (c : Card) (s : State) : (s.beginCard c).store = s.store := rfl
@[simp] theorem State.beginCard_startUp (c : Card) (s : State) : (s.beginCard c).startUp = s.startUp := rfl
@[simp] theorem State.beginCard_outboxes (c : Card) (s : State) : (s.beginCard c).outboxes = s.outboxes := rfl
@[simp] theorem State.beginCard_measureWaiting (c : Card) (s : State) : (s.beginCard c).measureWaiting = s.measureWaiting := rfl
@[simp] theorem State.beginCard_powered (c : Card) (s : State) : (s.beginCard c).powered = s.powered := rfl
@[simp] theorem State.beginCard_linkUp (c : Card) (s : State) : (s.beginCard c).linkUp = s.linkUp := rfl
@[simp] theorem State.beginCard_resetLine (c : Card) (s : State) : (s.beginCard c).resetLine = s.resetLine := rfl
@[simp] theorem State.beginCard_ownerLineLow (c : Card) (s : State) : (s.beginCard c).ownerLineLow = s.ownerLineLow := rfl
@[simp] theorem State.beginCard_host (c : Card) (s : State) : (s.beginCard c).host = s.host := rfl
@[simp] theorem State.beginCard_messages (c : Card) (s : State) : (s.beginCard c).messages = s.messages := rfl
@[simp] theorem State.beginCard_free (c : Card) (s : State) : (s.beginCard c).free = s.free := rfl
@[simp] theorem State.beginCard_pending (c : Card) (s : State) : (s.beginCard c).pending = s.pending := rfl

/-! ### closeArea -/

@[simp] theorem State.closeArea_exch (s : State) : s.closeArea.exch = { s.exch with area := .closed, closeRequested := false } := rfl
@[simp] theorem State.closeArea_custody (s : State) : s.closeArea.custody = s.custody := rfl
@[simp] theorem State.closeArea_measure (s : State) : s.closeArea.measure = s.measure := rfl
@[simp] theorem State.closeArea_update (s : State) : s.closeArea.update = s.update := rfl
@[simp] theorem State.closeArea_credential (s : State) : s.closeArea.credential = s.credential := rfl
@[simp] theorem State.closeArea_lifecycle (s : State) : s.closeArea.lifecycle = s.lifecycle := rfl
@[simp] theorem State.closeArea_hash (s : State) : s.closeArea.hash = s.hash := rfl
@[simp] theorem State.closeArea_curve (s : State) : s.closeArea.curve = s.curve := rfl
@[simp] theorem State.closeArea_census (s : State) : s.closeArea.census = s.census := rfl
@[simp] theorem State.closeArea_pace (s : State) : s.closeArea.pace = s.pace := rfl
@[simp] theorem State.closeArea_store (s : State) : s.closeArea.store = s.store := rfl
@[simp] theorem State.closeArea_startUp (s : State) : s.closeArea.startUp = s.startUp := rfl
@[simp] theorem State.closeArea_outboxes (s : State) : s.closeArea.outboxes = s.outboxes := rfl
@[simp] theorem State.closeArea_measureWaiting (s : State) : s.closeArea.measureWaiting = s.measureWaiting := rfl
@[simp] theorem State.closeArea_powered (s : State) : s.closeArea.powered = s.powered := rfl
@[simp] theorem State.closeArea_linkUp (s : State) : s.closeArea.linkUp = s.linkUp := rfl
@[simp] theorem State.closeArea_resetLine (s : State) : s.closeArea.resetLine = s.resetLine := rfl
@[simp] theorem State.closeArea_ownerLineLow (s : State) : s.closeArea.ownerLineLow = s.ownerLineLow := rfl
@[simp] theorem State.closeArea_host (s : State) : s.closeArea.host = s.host := rfl
@[simp] theorem State.closeArea_messages (s : State) : s.closeArea.messages = s.messages := rfl
@[simp] theorem State.closeArea_free (s : State) : s.closeArea.free = s.free := rfl
@[simp] theorem State.closeArea_pending (s : State) : s.closeArea.pending = s.pending := rfl

/-! ### stopFetcher -/

@[simp] theorem State.stopFetcher_exch (s : State) :
    s.stopFetcher.exch = { s.exch with fetcher := .stopped, nudge := false, reRead := false, candidate := none, openAwait := none } := rfl
@[simp] theorem State.stopFetcher_custody (s : State) : s.stopFetcher.custody = s.custody := rfl
@[simp] theorem State.stopFetcher_measure (s : State) : s.stopFetcher.measure = s.measure := rfl
@[simp] theorem State.stopFetcher_update (s : State) : s.stopFetcher.update = s.update := rfl
@[simp] theorem State.stopFetcher_credential (s : State) : s.stopFetcher.credential = s.credential := rfl
@[simp] theorem State.stopFetcher_lifecycle (s : State) : s.stopFetcher.lifecycle = s.lifecycle := rfl
@[simp] theorem State.stopFetcher_hash (s : State) : s.stopFetcher.hash = s.hash := rfl
@[simp] theorem State.stopFetcher_curve (s : State) : s.stopFetcher.curve = s.curve := rfl
@[simp] theorem State.stopFetcher_census (s : State) : s.stopFetcher.census = s.census := rfl
@[simp] theorem State.stopFetcher_pace (s : State) : s.stopFetcher.pace = s.pace := rfl
@[simp] theorem State.stopFetcher_store (s : State) : s.stopFetcher.store = s.store := rfl
@[simp] theorem State.stopFetcher_startUp (s : State) : s.stopFetcher.startUp = s.startUp := rfl
@[simp] theorem State.stopFetcher_outboxes (s : State) : s.stopFetcher.outboxes = s.outboxes := rfl
@[simp] theorem State.stopFetcher_measureWaiting (s : State) : s.stopFetcher.measureWaiting = s.measureWaiting := rfl
@[simp] theorem State.stopFetcher_powered (s : State) : s.stopFetcher.powered = s.powered := rfl
@[simp] theorem State.stopFetcher_linkUp (s : State) : s.stopFetcher.linkUp = s.linkUp := rfl
@[simp] theorem State.stopFetcher_resetLine (s : State) : s.stopFetcher.resetLine = s.resetLine := rfl
@[simp] theorem State.stopFetcher_ownerLineLow (s : State) : s.stopFetcher.ownerLineLow = s.ownerLineLow := rfl
@[simp] theorem State.stopFetcher_host (s : State) : s.stopFetcher.host = s.host := rfl
@[simp] theorem State.stopFetcher_messages (s : State) : s.stopFetcher.messages = s.messages := rfl
@[simp] theorem State.stopFetcher_free (s : State) : s.stopFetcher.free = s.free := rfl
@[simp] theorem State.stopFetcher_pending (s : State) : s.stopFetcher.pending = s.pending := rfl

/-! ### holdFetcher -/

@[simp] theorem State.holdFetcher_exch (f : Fetcher) (s : State) : (s.holdFetcher f).exch = { s.exch with fetcher := f, reRead := false } :=
  rfl
@[simp] theorem State.holdFetcher_custody (f : Fetcher) (s : State) : (s.holdFetcher f).custody = s.custody := rfl
@[simp] theorem State.holdFetcher_measure (f : Fetcher) (s : State) : (s.holdFetcher f).measure = s.measure := rfl
@[simp] theorem State.holdFetcher_update (f : Fetcher) (s : State) : (s.holdFetcher f).update = s.update := rfl
@[simp] theorem State.holdFetcher_credential (f : Fetcher) (s : State) : (s.holdFetcher f).credential = s.credential := rfl
@[simp] theorem State.holdFetcher_lifecycle (f : Fetcher) (s : State) : (s.holdFetcher f).lifecycle = s.lifecycle := rfl
@[simp] theorem State.holdFetcher_hash (f : Fetcher) (s : State) : (s.holdFetcher f).hash = s.hash := rfl
@[simp] theorem State.holdFetcher_curve (f : Fetcher) (s : State) : (s.holdFetcher f).curve = s.curve := rfl
@[simp] theorem State.holdFetcher_census (f : Fetcher) (s : State) : (s.holdFetcher f).census = s.census := rfl
@[simp] theorem State.holdFetcher_pace (f : Fetcher) (s : State) : (s.holdFetcher f).pace = s.pace := rfl
@[simp] theorem State.holdFetcher_store (f : Fetcher) (s : State) : (s.holdFetcher f).store = s.store := rfl
@[simp] theorem State.holdFetcher_startUp (f : Fetcher) (s : State) : (s.holdFetcher f).startUp = s.startUp := rfl
@[simp] theorem State.holdFetcher_outboxes (f : Fetcher) (s : State) : (s.holdFetcher f).outboxes = s.outboxes := rfl
@[simp] theorem State.holdFetcher_measureWaiting (f : Fetcher) (s : State) : (s.holdFetcher f).measureWaiting = s.measureWaiting := rfl
@[simp] theorem State.holdFetcher_powered (f : Fetcher) (s : State) : (s.holdFetcher f).powered = s.powered := rfl
@[simp] theorem State.holdFetcher_linkUp (f : Fetcher) (s : State) : (s.holdFetcher f).linkUp = s.linkUp := rfl
@[simp] theorem State.holdFetcher_resetLine (f : Fetcher) (s : State) : (s.holdFetcher f).resetLine = s.resetLine := rfl
@[simp] theorem State.holdFetcher_ownerLineLow (f : Fetcher) (s : State) : (s.holdFetcher f).ownerLineLow = s.ownerLineLow := rfl
@[simp] theorem State.holdFetcher_host (f : Fetcher) (s : State) : (s.holdFetcher f).host = s.host := rfl
@[simp] theorem State.holdFetcher_messages (f : Fetcher) (s : State) : (s.holdFetcher f).messages = s.messages := rfl
@[simp] theorem State.holdFetcher_free (f : Fetcher) (s : State) : (s.holdFetcher f).free = s.free := rfl
@[simp] theorem State.holdFetcher_pending (f : Fetcher) (s : State) : (s.holdFetcher f).pending = s.pending := rfl

/-! ### clearAttention -/

@[simp] theorem State.clearAttention_exch (v : Word32) (s : State) :
    (s.clearAttention v).exch = { s.exch with attention := s.exch.attention &&& ~~~(v.setWidth 9) } := rfl
@[simp] theorem State.clearAttention_custody (v : Word32) (s : State) : (s.clearAttention v).custody = s.custody := rfl
@[simp] theorem State.clearAttention_measure (v : Word32) (s : State) : (s.clearAttention v).measure = s.measure := rfl
@[simp] theorem State.clearAttention_update (v : Word32) (s : State) : (s.clearAttention v).update = s.update := rfl
@[simp] theorem State.clearAttention_credential (v : Word32) (s : State) : (s.clearAttention v).credential = s.credential := rfl
@[simp] theorem State.clearAttention_lifecycle (v : Word32) (s : State) : (s.clearAttention v).lifecycle = s.lifecycle := rfl
@[simp] theorem State.clearAttention_hash (v : Word32) (s : State) : (s.clearAttention v).hash = s.hash := rfl
@[simp] theorem State.clearAttention_curve (v : Word32) (s : State) : (s.clearAttention v).curve = s.curve := rfl
@[simp] theorem State.clearAttention_census (v : Word32) (s : State) : (s.clearAttention v).census = s.census := rfl
@[simp] theorem State.clearAttention_pace (v : Word32) (s : State) : (s.clearAttention v).pace = s.pace := rfl
@[simp] theorem State.clearAttention_store (v : Word32) (s : State) : (s.clearAttention v).store = s.store := rfl
@[simp] theorem State.clearAttention_startUp (v : Word32) (s : State) : (s.clearAttention v).startUp = s.startUp := rfl
@[simp] theorem State.clearAttention_outboxes (v : Word32) (s : State) : (s.clearAttention v).outboxes = s.outboxes := rfl
@[simp] theorem State.clearAttention_measureWaiting (v : Word32) (s : State) : (s.clearAttention v).measureWaiting = s.measureWaiting :=
  rfl
@[simp] theorem State.clearAttention_powered (v : Word32) (s : State) : (s.clearAttention v).powered = s.powered := rfl
@[simp] theorem State.clearAttention_linkUp (v : Word32) (s : State) : (s.clearAttention v).linkUp = s.linkUp := rfl
@[simp] theorem State.clearAttention_resetLine (v : Word32) (s : State) : (s.clearAttention v).resetLine = s.resetLine := rfl
@[simp] theorem State.clearAttention_ownerLineLow (v : Word32) (s : State) : (s.clearAttention v).ownerLineLow = s.ownerLineLow := rfl
@[simp] theorem State.clearAttention_host (v : Word32) (s : State) : (s.clearAttention v).host = s.host := rfl
@[simp] theorem State.clearAttention_messages (v : Word32) (s : State) : (s.clearAttention v).messages = s.messages := rfl
@[simp] theorem State.clearAttention_free (v : Word32) (s : State) : (s.clearAttention v).free = s.free := rfl
@[simp] theorem State.clearAttention_pending (v : Word32) (s : State) : (s.clearAttention v).pending = s.pending := rfl

/-! ### custodyStage -/

@[simp] theorem State.custodyStage_exch (x : CustodyStage) (s : State) : (s.custodyStage x).exch = s.exch := rfl
@[simp] theorem State.custodyStage_custody (x : CustodyStage) (s : State) :
    (s.custodyStage x).custody = { s.custody with work := s.custody.work.map fun w => { w with stage := x } } := rfl
@[simp] theorem State.custodyStage_measure (x : CustodyStage) (s : State) : (s.custodyStage x).measure = s.measure := rfl
@[simp] theorem State.custodyStage_update (x : CustodyStage) (s : State) : (s.custodyStage x).update = s.update := rfl
@[simp] theorem State.custodyStage_credential (x : CustodyStage) (s : State) : (s.custodyStage x).credential = s.credential := rfl
@[simp] theorem State.custodyStage_lifecycle (x : CustodyStage) (s : State) : (s.custodyStage x).lifecycle = s.lifecycle := rfl
@[simp] theorem State.custodyStage_hash (x : CustodyStage) (s : State) : (s.custodyStage x).hash = s.hash := rfl
@[simp] theorem State.custodyStage_curve (x : CustodyStage) (s : State) : (s.custodyStage x).curve = s.curve := rfl
@[simp] theorem State.custodyStage_census (x : CustodyStage) (s : State) : (s.custodyStage x).census = s.census := rfl
@[simp] theorem State.custodyStage_pace (x : CustodyStage) (s : State) : (s.custodyStage x).pace = s.pace := rfl
@[simp] theorem State.custodyStage_store (x : CustodyStage) (s : State) : (s.custodyStage x).store = s.store := rfl
@[simp] theorem State.custodyStage_startUp (x : CustodyStage) (s : State) : (s.custodyStage x).startUp = s.startUp := rfl
@[simp] theorem State.custodyStage_outboxes (x : CustodyStage) (s : State) : (s.custodyStage x).outboxes = s.outboxes := rfl
@[simp] theorem State.custodyStage_measureWaiting (x : CustodyStage) (s : State) : (s.custodyStage x).measureWaiting = s.measureWaiting :=
  rfl
@[simp] theorem State.custodyStage_powered (x : CustodyStage) (s : State) : (s.custodyStage x).powered = s.powered := rfl
@[simp] theorem State.custodyStage_linkUp (x : CustodyStage) (s : State) : (s.custodyStage x).linkUp = s.linkUp := rfl
@[simp] theorem State.custodyStage_resetLine (x : CustodyStage) (s : State) : (s.custodyStage x).resetLine = s.resetLine := rfl
@[simp] theorem State.custodyStage_ownerLineLow (x : CustodyStage) (s : State) : (s.custodyStage x).ownerLineLow = s.ownerLineLow := rfl
@[simp] theorem State.custodyStage_host (x : CustodyStage) (s : State) : (s.custodyStage x).host = s.host := rfl
@[simp] theorem State.custodyStage_messages (x : CustodyStage) (s : State) : (s.custodyStage x).messages = s.messages := rfl
@[simp] theorem State.custodyStage_free (x : CustodyStage) (s : State) : (s.custodyStage x).free = s.free := rfl
@[simp] theorem State.custodyStage_pending (x : CustodyStage) (s : State) : (s.custodyStage x).pending = s.pending := rfl

/-! ### custodyCommit -/

@[simp] theorem State.custodyCommit_exch (s : State) : s.custodyCommit.exch = s.exch := rfl
@[simp] theorem State.custodyCommit_custody (s : State) :
    s.custodyCommit.custody = { s.custody with work := s.custody.work.map Work.commit } := rfl
@[simp] theorem State.custodyCommit_measure (s : State) : s.custodyCommit.measure = s.measure := rfl
@[simp] theorem State.custodyCommit_update (s : State) : s.custodyCommit.update = s.update := rfl
@[simp] theorem State.custodyCommit_credential (s : State) : s.custodyCommit.credential = s.credential := rfl
@[simp] theorem State.custodyCommit_lifecycle (s : State) : s.custodyCommit.lifecycle = s.lifecycle := rfl
@[simp] theorem State.custodyCommit_hash (s : State) : s.custodyCommit.hash = s.hash := rfl
@[simp] theorem State.custodyCommit_curve (s : State) : s.custodyCommit.curve = s.curve := rfl
@[simp] theorem State.custodyCommit_census (s : State) : s.custodyCommit.census = s.census := rfl
@[simp] theorem State.custodyCommit_pace (s : State) : s.custodyCommit.pace = s.pace := rfl
@[simp] theorem State.custodyCommit_store (s : State) : s.custodyCommit.store = s.store := rfl
@[simp] theorem State.custodyCommit_startUp (s : State) : s.custodyCommit.startUp = s.startUp := rfl
@[simp] theorem State.custodyCommit_outboxes (s : State) : s.custodyCommit.outboxes = s.outboxes := rfl
@[simp] theorem State.custodyCommit_measureWaiting (s : State) : s.custodyCommit.measureWaiting = s.measureWaiting := rfl
@[simp] theorem State.custodyCommit_powered (s : State) : s.custodyCommit.powered = s.powered := rfl
@[simp] theorem State.custodyCommit_linkUp (s : State) : s.custodyCommit.linkUp = s.linkUp := rfl
@[simp] theorem State.custodyCommit_resetLine (s : State) : s.custodyCommit.resetLine = s.resetLine := rfl
@[simp] theorem State.custodyCommit_ownerLineLow (s : State) : s.custodyCommit.ownerLineLow = s.ownerLineLow := rfl
@[simp] theorem State.custodyCommit_host (s : State) : s.custodyCommit.host = s.host := rfl
@[simp] theorem State.custodyCommit_messages (s : State) : s.custodyCommit.messages = s.messages := rfl
@[simp] theorem State.custodyCommit_free (s : State) : s.custodyCommit.free = s.free := rfl
@[simp] theorem State.custodyCommit_pending (s : State) : s.custodyCommit.pending = s.pending := rfl

/-! ### askCustody -/

@[simp] theorem State.askCustody_exch (r : CustodyRequest) (s : State) : (s.askCustody r).exch = s.exch := rfl
@[simp] theorem State.askCustody_custody (r : CustodyRequest) (s : State) :
    (s.askCustody r).custody = { s.custody with held := s.custody.held ++ [r] } := rfl
@[simp] theorem State.askCustody_measure (r : CustodyRequest) (s : State) : (s.askCustody r).measure = s.measure := rfl
@[simp] theorem State.askCustody_update (r : CustodyRequest) (s : State) : (s.askCustody r).update = s.update := rfl
@[simp] theorem State.askCustody_credential (r : CustodyRequest) (s : State) : (s.askCustody r).credential = s.credential := rfl
@[simp] theorem State.askCustody_lifecycle (r : CustodyRequest) (s : State) : (s.askCustody r).lifecycle = s.lifecycle := rfl
@[simp] theorem State.askCustody_hash (r : CustodyRequest) (s : State) : (s.askCustody r).hash = s.hash := rfl
@[simp] theorem State.askCustody_curve (r : CustodyRequest) (s : State) : (s.askCustody r).curve = s.curve := rfl
@[simp] theorem State.askCustody_census (r : CustodyRequest) (s : State) : (s.askCustody r).census = s.census := rfl
@[simp] theorem State.askCustody_pace (r : CustodyRequest) (s : State) : (s.askCustody r).pace = s.pace := rfl
@[simp] theorem State.askCustody_store (r : CustodyRequest) (s : State) : (s.askCustody r).store = s.store := rfl
@[simp] theorem State.askCustody_startUp (r : CustodyRequest) (s : State) : (s.askCustody r).startUp = s.startUp := rfl
@[simp] theorem State.askCustody_outboxes (r : CustodyRequest) (s : State) : (s.askCustody r).outboxes = s.outboxes := rfl
@[simp] theorem State.askCustody_measureWaiting (r : CustodyRequest) (s : State) : (s.askCustody r).measureWaiting = s.measureWaiting :=
  rfl
@[simp] theorem State.askCustody_powered (r : CustodyRequest) (s : State) : (s.askCustody r).powered = s.powered := rfl
@[simp] theorem State.askCustody_linkUp (r : CustodyRequest) (s : State) : (s.askCustody r).linkUp = s.linkUp := rfl
@[simp] theorem State.askCustody_resetLine (r : CustodyRequest) (s : State) : (s.askCustody r).resetLine = s.resetLine := rfl
@[simp] theorem State.askCustody_ownerLineLow (r : CustodyRequest) (s : State) : (s.askCustody r).ownerLineLow = s.ownerLineLow := rfl
@[simp] theorem State.askCustody_host (r : CustodyRequest) (s : State) : (s.askCustody r).host = s.host := rfl
@[simp] theorem State.askCustody_messages (r : CustodyRequest) (s : State) : (s.askCustody r).messages = s.messages := rfl
@[simp] theorem State.askCustody_free (r : CustodyRequest) (s : State) : (s.askCustody r).free = s.free := rfl
@[simp] theorem State.askCustody_pending (r : CustodyRequest) (s : State) : (s.askCustody r).pending = s.pending := rfl

/-! ### measureStage -/

@[simp] theorem State.measureStage_exch (x : MeasureStage) (s : State) : (s.measureStage x).exch = s.exch := rfl
@[simp] theorem State.measureStage_custody (x : MeasureStage) (s : State) : (s.measureStage x).custody = s.custody := rfl
@[simp] theorem State.measureStage_measure (x : MeasureStage) (s : State) :
    (s.measureStage x).measure = { s.measure with work := s.measure.work.map fun w => { w with stage := x } } := rfl
@[simp] theorem State.measureStage_update (x : MeasureStage) (s : State) : (s.measureStage x).update = s.update := rfl
@[simp] theorem State.measureStage_credential (x : MeasureStage) (s : State) : (s.measureStage x).credential = s.credential := rfl
@[simp] theorem State.measureStage_lifecycle (x : MeasureStage) (s : State) : (s.measureStage x).lifecycle = s.lifecycle := rfl
@[simp] theorem State.measureStage_hash (x : MeasureStage) (s : State) : (s.measureStage x).hash = s.hash := rfl
@[simp] theorem State.measureStage_curve (x : MeasureStage) (s : State) : (s.measureStage x).curve = s.curve := rfl
@[simp] theorem State.measureStage_census (x : MeasureStage) (s : State) : (s.measureStage x).census = s.census := rfl
@[simp] theorem State.measureStage_pace (x : MeasureStage) (s : State) : (s.measureStage x).pace = s.pace := rfl
@[simp] theorem State.measureStage_store (x : MeasureStage) (s : State) : (s.measureStage x).store = s.store := rfl
@[simp] theorem State.measureStage_startUp (x : MeasureStage) (s : State) : (s.measureStage x).startUp = s.startUp := rfl
@[simp] theorem State.measureStage_outboxes (x : MeasureStage) (s : State) : (s.measureStage x).outboxes = s.outboxes := rfl
@[simp] theorem State.measureStage_measureWaiting (x : MeasureStage) (s : State) : (s.measureStage x).measureWaiting = s.measureWaiting :=
  rfl
@[simp] theorem State.measureStage_powered (x : MeasureStage) (s : State) : (s.measureStage x).powered = s.powered := rfl
@[simp] theorem State.measureStage_linkUp (x : MeasureStage) (s : State) : (s.measureStage x).linkUp = s.linkUp := rfl
@[simp] theorem State.measureStage_resetLine (x : MeasureStage) (s : State) : (s.measureStage x).resetLine = s.resetLine := rfl
@[simp] theorem State.measureStage_ownerLineLow (x : MeasureStage) (s : State) : (s.measureStage x).ownerLineLow = s.ownerLineLow := rfl
@[simp] theorem State.measureStage_host (x : MeasureStage) (s : State) : (s.measureStage x).host = s.host := rfl
@[simp] theorem State.measureStage_messages (x : MeasureStage) (s : State) : (s.measureStage x).messages = s.messages := rfl
@[simp] theorem State.measureStage_free (x : MeasureStage) (s : State) : (s.measureStage x).free = s.free := rfl
@[simp] theorem State.measureStage_pending (x : MeasureStage) (s : State) : (s.measureStage x).pending = s.pending := rfl

/-! ### measureService -/

@[simp] theorem State.measureService_exch (x : MeasureService) (s : State) : (s.measureService x).exch = s.exch := rfl
@[simp] theorem State.measureService_custody (x : MeasureService) (s : State) : (s.measureService x).custody = s.custody := rfl
@[simp] theorem State.measureService_measure (x : MeasureService) (s : State) :
    (s.measureService x).measure = { s.measure with service := some x } := rfl
@[simp] theorem State.measureService_update (x : MeasureService) (s : State) : (s.measureService x).update = s.update := rfl
@[simp] theorem State.measureService_credential (x : MeasureService) (s : State) : (s.measureService x).credential = s.credential := rfl
@[simp] theorem State.measureService_lifecycle (x : MeasureService) (s : State) : (s.measureService x).lifecycle = s.lifecycle := rfl
@[simp] theorem State.measureService_hash (x : MeasureService) (s : State) : (s.measureService x).hash = s.hash := rfl
@[simp] theorem State.measureService_curve (x : MeasureService) (s : State) : (s.measureService x).curve = s.curve := rfl
@[simp] theorem State.measureService_census (x : MeasureService) (s : State) : (s.measureService x).census = s.census := rfl
@[simp] theorem State.measureService_pace (x : MeasureService) (s : State) : (s.measureService x).pace = s.pace := rfl
@[simp] theorem State.measureService_store (x : MeasureService) (s : State) : (s.measureService x).store = s.store := rfl
@[simp] theorem State.measureService_startUp (x : MeasureService) (s : State) : (s.measureService x).startUp = s.startUp := rfl
@[simp] theorem State.measureService_outboxes (x : MeasureService) (s : State) : (s.measureService x).outboxes = s.outboxes := rfl
@[simp] theorem State.measureService_measureWaiting (x : MeasureService) (s : State) :
    (s.measureService x).measureWaiting = s.measureWaiting := rfl
@[simp] theorem State.measureService_powered (x : MeasureService) (s : State) : (s.measureService x).powered = s.powered := rfl
@[simp] theorem State.measureService_linkUp (x : MeasureService) (s : State) : (s.measureService x).linkUp = s.linkUp := rfl
@[simp] theorem State.measureService_resetLine (x : MeasureService) (s : State) : (s.measureService x).resetLine = s.resetLine := rfl
@[simp] theorem State.measureService_ownerLineLow (x : MeasureService) (s : State) : (s.measureService x).ownerLineLow = s.ownerLineLow :=
  rfl
@[simp] theorem State.measureService_host (x : MeasureService) (s : State) : (s.measureService x).host = s.host := rfl
@[simp] theorem State.measureService_messages (x : MeasureService) (s : State) : (s.measureService x).messages = s.messages := rfl
@[simp] theorem State.measureService_free (x : MeasureService) (s : State) : (s.measureService x).free = s.free := rfl
@[simp] theorem State.measureService_pending (x : MeasureService) (s : State) : (s.measureService x).pending = s.pending := rfl

/-! ### updateStage -/

@[simp] theorem State.updateStage_exch (x : UpdateStage) (s : State) : (s.updateStage x).exch = s.exch := rfl
@[simp] theorem State.updateStage_custody (x : UpdateStage) (s : State) : (s.updateStage x).custody = s.custody := rfl
@[simp] theorem State.updateStage_measure (x : UpdateStage) (s : State) : (s.updateStage x).measure = s.measure := rfl
@[simp] theorem State.updateStage_update (x : UpdateStage) (s : State) :
    (s.updateStage x).update = { s.update with work := s.update.work.map fun w => { w with stage := x } } := rfl
@[simp] theorem State.updateStage_credential (x : UpdateStage) (s : State) : (s.updateStage x).credential = s.credential := rfl
@[simp] theorem State.updateStage_lifecycle (x : UpdateStage) (s : State) : (s.updateStage x).lifecycle = s.lifecycle := rfl
@[simp] theorem State.updateStage_hash (x : UpdateStage) (s : State) : (s.updateStage x).hash = s.hash := rfl
@[simp] theorem State.updateStage_curve (x : UpdateStage) (s : State) : (s.updateStage x).curve = s.curve := rfl
@[simp] theorem State.updateStage_census (x : UpdateStage) (s : State) : (s.updateStage x).census = s.census := rfl
@[simp] theorem State.updateStage_pace (x : UpdateStage) (s : State) : (s.updateStage x).pace = s.pace := rfl
@[simp] theorem State.updateStage_store (x : UpdateStage) (s : State) : (s.updateStage x).store = s.store := rfl
@[simp] theorem State.updateStage_startUp (x : UpdateStage) (s : State) : (s.updateStage x).startUp = s.startUp := rfl
@[simp] theorem State.updateStage_outboxes (x : UpdateStage) (s : State) : (s.updateStage x).outboxes = s.outboxes := rfl
@[simp] theorem State.updateStage_measureWaiting (x : UpdateStage) (s : State) : (s.updateStage x).measureWaiting = s.measureWaiting :=
  rfl
@[simp] theorem State.updateStage_powered (x : UpdateStage) (s : State) : (s.updateStage x).powered = s.powered := rfl
@[simp] theorem State.updateStage_linkUp (x : UpdateStage) (s : State) : (s.updateStage x).linkUp = s.linkUp := rfl
@[simp] theorem State.updateStage_resetLine (x : UpdateStage) (s : State) : (s.updateStage x).resetLine = s.resetLine := rfl
@[simp] theorem State.updateStage_ownerLineLow (x : UpdateStage) (s : State) : (s.updateStage x).ownerLineLow = s.ownerLineLow := rfl
@[simp] theorem State.updateStage_host (x : UpdateStage) (s : State) : (s.updateStage x).host = s.host := rfl
@[simp] theorem State.updateStage_messages (x : UpdateStage) (s : State) : (s.updateStage x).messages = s.messages := rfl
@[simp] theorem State.updateStage_free (x : UpdateStage) (s : State) : (s.updateStage x).free = s.free := rfl
@[simp] theorem State.updateStage_pending (x : UpdateStage) (s : State) : (s.updateStage x).pending = s.pending := rfl

/-! ### updateCommit -/

@[simp] theorem State.updateCommit_exch (s : State) : s.updateCommit.exch = s.exch := rfl
@[simp] theorem State.updateCommit_custody (s : State) : s.updateCommit.custody = s.custody := rfl
@[simp] theorem State.updateCommit_measure (s : State) : s.updateCommit.measure = s.measure := rfl
@[simp] theorem State.updateCommit_update (s : State) : s.updateCommit.update = { s.update with work := s.update.work.map Work.commit } :=
  rfl
@[simp] theorem State.updateCommit_credential (s : State) : s.updateCommit.credential = s.credential := rfl
@[simp] theorem State.updateCommit_lifecycle (s : State) : s.updateCommit.lifecycle = s.lifecycle := rfl
@[simp] theorem State.updateCommit_hash (s : State) : s.updateCommit.hash = s.hash := rfl
@[simp] theorem State.updateCommit_curve (s : State) : s.updateCommit.curve = s.curve := rfl
@[simp] theorem State.updateCommit_census (s : State) : s.updateCommit.census = s.census := rfl
@[simp] theorem State.updateCommit_pace (s : State) : s.updateCommit.pace = s.pace := rfl
@[simp] theorem State.updateCommit_store (s : State) : s.updateCommit.store = s.store := rfl
@[simp] theorem State.updateCommit_startUp (s : State) : s.updateCommit.startUp = s.startUp := rfl
@[simp] theorem State.updateCommit_outboxes (s : State) : s.updateCommit.outboxes = s.outboxes := rfl
@[simp] theorem State.updateCommit_measureWaiting (s : State) : s.updateCommit.measureWaiting = s.measureWaiting := rfl
@[simp] theorem State.updateCommit_powered (s : State) : s.updateCommit.powered = s.powered := rfl
@[simp] theorem State.updateCommit_linkUp (s : State) : s.updateCommit.linkUp = s.linkUp := rfl
@[simp] theorem State.updateCommit_resetLine (s : State) : s.updateCommit.resetLine = s.resetLine := rfl
@[simp] theorem State.updateCommit_ownerLineLow (s : State) : s.updateCommit.ownerLineLow = s.ownerLineLow := rfl
@[simp] theorem State.updateCommit_host (s : State) : s.updateCommit.host = s.host := rfl
@[simp] theorem State.updateCommit_messages (s : State) : s.updateCommit.messages = s.messages := rfl
@[simp] theorem State.updateCommit_free (s : State) : s.updateCommit.free = s.free := rfl
@[simp] theorem State.updateCommit_pending (s : State) : s.updateCommit.pending = s.pending := rfl

/-! ### credStage -/

@[simp] theorem State.credStage_exch (x : CredStage) (s : State) : (s.credStage x).exch = s.exch := rfl
@[simp] theorem State.credStage_custody (x : CredStage) (s : State) : (s.credStage x).custody = s.custody := rfl
@[simp] theorem State.credStage_measure (x : CredStage) (s : State) : (s.credStage x).measure = s.measure := rfl
@[simp] theorem State.credStage_update (x : CredStage) (s : State) : (s.credStage x).update = s.update := rfl
@[simp] theorem State.credStage_credential (x : CredStage) (s : State) :
    (s.credStage x).credential = { s.credential with work := s.credential.work.map fun w => { w with stage := x } } := rfl
@[simp] theorem State.credStage_lifecycle (x : CredStage) (s : State) : (s.credStage x).lifecycle = s.lifecycle := rfl
@[simp] theorem State.credStage_hash (x : CredStage) (s : State) : (s.credStage x).hash = s.hash := rfl
@[simp] theorem State.credStage_curve (x : CredStage) (s : State) : (s.credStage x).curve = s.curve := rfl
@[simp] theorem State.credStage_census (x : CredStage) (s : State) : (s.credStage x).census = s.census := rfl
@[simp] theorem State.credStage_pace (x : CredStage) (s : State) : (s.credStage x).pace = s.pace := rfl
@[simp] theorem State.credStage_store (x : CredStage) (s : State) : (s.credStage x).store = s.store := rfl
@[simp] theorem State.credStage_startUp (x : CredStage) (s : State) : (s.credStage x).startUp = s.startUp := rfl
@[simp] theorem State.credStage_outboxes (x : CredStage) (s : State) : (s.credStage x).outboxes = s.outboxes := rfl
@[simp] theorem State.credStage_measureWaiting (x : CredStage) (s : State) : (s.credStage x).measureWaiting = s.measureWaiting := rfl
@[simp] theorem State.credStage_powered (x : CredStage) (s : State) : (s.credStage x).powered = s.powered := rfl
@[simp] theorem State.credStage_linkUp (x : CredStage) (s : State) : (s.credStage x).linkUp = s.linkUp := rfl
@[simp] theorem State.credStage_resetLine (x : CredStage) (s : State) : (s.credStage x).resetLine = s.resetLine := rfl
@[simp] theorem State.credStage_ownerLineLow (x : CredStage) (s : State) : (s.credStage x).ownerLineLow = s.ownerLineLow := rfl
@[simp] theorem State.credStage_host (x : CredStage) (s : State) : (s.credStage x).host = s.host := rfl
@[simp] theorem State.credStage_messages (x : CredStage) (s : State) : (s.credStage x).messages = s.messages := rfl
@[simp] theorem State.credStage_free (x : CredStage) (s : State) : (s.credStage x).free = s.free := rfl
@[simp] theorem State.credStage_pending (x : CredStage) (s : State) : (s.credStage x).pending = s.pending := rfl

/-! ### credCommit -/

@[simp] theorem State.credCommit_exch (s : State) : s.credCommit.exch = s.exch := rfl
@[simp] theorem State.credCommit_custody (s : State) : s.credCommit.custody = s.custody := rfl
@[simp] theorem State.credCommit_measure (s : State) : s.credCommit.measure = s.measure := rfl
@[simp] theorem State.credCommit_update (s : State) : s.credCommit.update = s.update := rfl
@[simp] theorem State.credCommit_credential (s : State) :
    s.credCommit.credential = { s.credential with work := s.credential.work.map Work.commit } := rfl
@[simp] theorem State.credCommit_lifecycle (s : State) : s.credCommit.lifecycle = s.lifecycle := rfl
@[simp] theorem State.credCommit_hash (s : State) : s.credCommit.hash = s.hash := rfl
@[simp] theorem State.credCommit_curve (s : State) : s.credCommit.curve = s.curve := rfl
@[simp] theorem State.credCommit_census (s : State) : s.credCommit.census = s.census := rfl
@[simp] theorem State.credCommit_pace (s : State) : s.credCommit.pace = s.pace := rfl
@[simp] theorem State.credCommit_store (s : State) : s.credCommit.store = s.store := rfl
@[simp] theorem State.credCommit_startUp (s : State) : s.credCommit.startUp = s.startUp := rfl
@[simp] theorem State.credCommit_outboxes (s : State) : s.credCommit.outboxes = s.outboxes := rfl
@[simp] theorem State.credCommit_measureWaiting (s : State) : s.credCommit.measureWaiting = s.measureWaiting := rfl
@[simp] theorem State.credCommit_powered (s : State) : s.credCommit.powered = s.powered := rfl
@[simp] theorem State.credCommit_linkUp (s : State) : s.credCommit.linkUp = s.linkUp := rfl
@[simp] theorem State.credCommit_resetLine (s : State) : s.credCommit.resetLine = s.resetLine := rfl
@[simp] theorem State.credCommit_ownerLineLow (s : State) : s.credCommit.ownerLineLow = s.ownerLineLow := rfl
@[simp] theorem State.credCommit_host (s : State) : s.credCommit.host = s.host := rfl
@[simp] theorem State.credCommit_messages (s : State) : s.credCommit.messages = s.messages := rfl
@[simp] theorem State.credCommit_free (s : State) : s.credCommit.free = s.free := rfl
@[simp] theorem State.credCommit_pending (s : State) : s.credCommit.pending = s.pending := rfl

/-! ### credService -/

@[simp] theorem State.credService_exch (x : Option CredService) (s : State) : (s.credService x).exch = s.exch := rfl
@[simp] theorem State.credService_custody (x : Option CredService) (s : State) : (s.credService x).custody = s.custody := rfl
@[simp] theorem State.credService_measure (x : Option CredService) (s : State) : (s.credService x).measure = s.measure := rfl
@[simp] theorem State.credService_update (x : Option CredService) (s : State) : (s.credService x).update = s.update := rfl
@[simp] theorem State.credService_credential (x : Option CredService) (s : State) :
    (s.credService x).credential = { s.credential with service := x } := rfl
@[simp] theorem State.credService_lifecycle (x : Option CredService) (s : State) : (s.credService x).lifecycle = s.lifecycle := rfl
@[simp] theorem State.credService_hash (x : Option CredService) (s : State) : (s.credService x).hash = s.hash := rfl
@[simp] theorem State.credService_curve (x : Option CredService) (s : State) : (s.credService x).curve = s.curve := rfl
@[simp] theorem State.credService_census (x : Option CredService) (s : State) : (s.credService x).census = s.census := rfl
@[simp] theorem State.credService_pace (x : Option CredService) (s : State) : (s.credService x).pace = s.pace := rfl
@[simp] theorem State.credService_store (x : Option CredService) (s : State) : (s.credService x).store = s.store := rfl
@[simp] theorem State.credService_startUp (x : Option CredService) (s : State) : (s.credService x).startUp = s.startUp := rfl
@[simp] theorem State.credService_outboxes (x : Option CredService) (s : State) : (s.credService x).outboxes = s.outboxes := rfl
@[simp] theorem State.credService_measureWaiting (x : Option CredService) (s : State) :
    (s.credService x).measureWaiting = s.measureWaiting := rfl
@[simp] theorem State.credService_powered (x : Option CredService) (s : State) : (s.credService x).powered = s.powered := rfl
@[simp] theorem State.credService_linkUp (x : Option CredService) (s : State) : (s.credService x).linkUp = s.linkUp := rfl
@[simp] theorem State.credService_resetLine (x : Option CredService) (s : State) : (s.credService x).resetLine = s.resetLine := rfl
@[simp] theorem State.credService_ownerLineLow (x : Option CredService) (s : State) : (s.credService x).ownerLineLow = s.ownerLineLow :=
  rfl
@[simp] theorem State.credService_host (x : Option CredService) (s : State) : (s.credService x).host = s.host := rfl
@[simp] theorem State.credService_messages (x : Option CredService) (s : State) : (s.credService x).messages = s.messages := rfl
@[simp] theorem State.credService_free (x : Option CredService) (s : State) : (s.credService x).free = s.free := rfl
@[simp] theorem State.credService_pending (x : Option CredService) (s : State) : (s.credService x).pending = s.pending := rfl

/-! ### lifeStage -/

@[simp] theorem State.lifeStage_exch (x : LifeStage) (s : State) : (s.lifeStage x).exch = s.exch := rfl
@[simp] theorem State.lifeStage_custody (x : LifeStage) (s : State) : (s.lifeStage x).custody = s.custody := rfl
@[simp] theorem State.lifeStage_measure (x : LifeStage) (s : State) : (s.lifeStage x).measure = s.measure := rfl
@[simp] theorem State.lifeStage_update (x : LifeStage) (s : State) : (s.lifeStage x).update = s.update := rfl
@[simp] theorem State.lifeStage_credential (x : LifeStage) (s : State) : (s.lifeStage x).credential = s.credential := rfl
@[simp] theorem State.lifeStage_lifecycle (x : LifeStage) (s : State) :
    (s.lifeStage x).lifecycle = { s.lifecycle with work := s.lifecycle.work.map fun w => { w with stage := x } } := rfl
@[simp] theorem State.lifeStage_hash (x : LifeStage) (s : State) : (s.lifeStage x).hash = s.hash := rfl
@[simp] theorem State.lifeStage_curve (x : LifeStage) (s : State) : (s.lifeStage x).curve = s.curve := rfl
@[simp] theorem State.lifeStage_census (x : LifeStage) (s : State) : (s.lifeStage x).census = s.census := rfl
@[simp] theorem State.lifeStage_pace (x : LifeStage) (s : State) : (s.lifeStage x).pace = s.pace := rfl
@[simp] theorem State.lifeStage_store (x : LifeStage) (s : State) : (s.lifeStage x).store = s.store := rfl
@[simp] theorem State.lifeStage_startUp (x : LifeStage) (s : State) : (s.lifeStage x).startUp = s.startUp := rfl
@[simp] theorem State.lifeStage_outboxes (x : LifeStage) (s : State) : (s.lifeStage x).outboxes = s.outboxes := rfl
@[simp] theorem State.lifeStage_measureWaiting (x : LifeStage) (s : State) : (s.lifeStage x).measureWaiting = s.measureWaiting := rfl
@[simp] theorem State.lifeStage_powered (x : LifeStage) (s : State) : (s.lifeStage x).powered = s.powered := rfl
@[simp] theorem State.lifeStage_linkUp (x : LifeStage) (s : State) : (s.lifeStage x).linkUp = s.linkUp := rfl
@[simp] theorem State.lifeStage_resetLine (x : LifeStage) (s : State) : (s.lifeStage x).resetLine = s.resetLine := rfl
@[simp] theorem State.lifeStage_ownerLineLow (x : LifeStage) (s : State) : (s.lifeStage x).ownerLineLow = s.ownerLineLow := rfl
@[simp] theorem State.lifeStage_host (x : LifeStage) (s : State) : (s.lifeStage x).host = s.host := rfl
@[simp] theorem State.lifeStage_messages (x : LifeStage) (s : State) : (s.lifeStage x).messages = s.messages := rfl
@[simp] theorem State.lifeStage_free (x : LifeStage) (s : State) : (s.lifeStage x).free = s.free := rfl
@[simp] theorem State.lifeStage_pending (x : LifeStage) (s : State) : (s.lifeStage x).pending = s.pending := rfl

/-! ### lifeCommit -/

@[simp] theorem State.lifeCommit_exch (s : State) : s.lifeCommit.exch = s.exch := rfl
@[simp] theorem State.lifeCommit_custody (s : State) : s.lifeCommit.custody = s.custody := rfl
@[simp] theorem State.lifeCommit_measure (s : State) : s.lifeCommit.measure = s.measure := rfl
@[simp] theorem State.lifeCommit_update (s : State) : s.lifeCommit.update = s.update := rfl
@[simp] theorem State.lifeCommit_credential (s : State) : s.lifeCommit.credential = s.credential := rfl
@[simp] theorem State.lifeCommit_lifecycle (s : State) :
    s.lifeCommit.lifecycle = { s.lifecycle with work := s.lifecycle.work.map Work.commit } := rfl
@[simp] theorem State.lifeCommit_hash (s : State) : s.lifeCommit.hash = s.hash := rfl
@[simp] theorem State.lifeCommit_curve (s : State) : s.lifeCommit.curve = s.curve := rfl
@[simp] theorem State.lifeCommit_census (s : State) : s.lifeCommit.census = s.census := rfl
@[simp] theorem State.lifeCommit_pace (s : State) : s.lifeCommit.pace = s.pace := rfl
@[simp] theorem State.lifeCommit_store (s : State) : s.lifeCommit.store = s.store := rfl
@[simp] theorem State.lifeCommit_startUp (s : State) : s.lifeCommit.startUp = s.startUp := rfl
@[simp] theorem State.lifeCommit_outboxes (s : State) : s.lifeCommit.outboxes = s.outboxes := rfl
@[simp] theorem State.lifeCommit_measureWaiting (s : State) : s.lifeCommit.measureWaiting = s.measureWaiting := rfl
@[simp] theorem State.lifeCommit_powered (s : State) : s.lifeCommit.powered = s.powered := rfl
@[simp] theorem State.lifeCommit_linkUp (s : State) : s.lifeCommit.linkUp = s.linkUp := rfl
@[simp] theorem State.lifeCommit_resetLine (s : State) : s.lifeCommit.resetLine = s.resetLine := rfl
@[simp] theorem State.lifeCommit_ownerLineLow (s : State) : s.lifeCommit.ownerLineLow = s.ownerLineLow := rfl
@[simp] theorem State.lifeCommit_host (s : State) : s.lifeCommit.host = s.host := rfl
@[simp] theorem State.lifeCommit_messages (s : State) : s.lifeCommit.messages = s.messages := rfl
@[simp] theorem State.lifeCommit_free (s : State) : s.lifeCommit.free = s.free := rfl
@[simp] theorem State.lifeCommit_pending (s : State) : s.lifeCommit.pending = s.pending := rfl

/-! ### closePresence -/

@[simp] theorem State.closePresence_exch (s : State) : s.closePresence.exch = s.exch := rfl
@[simp] theorem State.closePresence_custody (s : State) : s.closePresence.custody = s.custody := rfl
@[simp] theorem State.closePresence_measure (s : State) : s.closePresence.measure = s.measure := rfl
@[simp] theorem State.closePresence_update (s : State) : s.closePresence.update = s.update := rfl
@[simp] theorem State.closePresence_credential (s : State) : s.closePresence.credential = s.credential := rfl
@[simp] theorem State.closePresence_lifecycle (s : State) : s.closePresence.lifecycle = { s.lifecycle with presence := none } := rfl
@[simp] theorem State.closePresence_hash (s : State) : s.closePresence.hash = s.hash := rfl
@[simp] theorem State.closePresence_curve (s : State) : s.closePresence.curve = s.curve := rfl
@[simp] theorem State.closePresence_census (s : State) : s.closePresence.census = s.census := rfl
@[simp] theorem State.closePresence_pace (s : State) : s.closePresence.pace = s.pace := rfl
@[simp] theorem State.closePresence_store (s : State) : s.closePresence.store = s.store := rfl
@[simp] theorem State.closePresence_startUp (s : State) : s.closePresence.startUp = s.startUp := rfl
@[simp] theorem State.closePresence_outboxes (s : State) : s.closePresence.outboxes = s.outboxes := rfl
@[simp] theorem State.closePresence_measureWaiting (s : State) : s.closePresence.measureWaiting = s.measureWaiting := rfl
@[simp] theorem State.closePresence_powered (s : State) : s.closePresence.powered = s.powered := rfl
@[simp] theorem State.closePresence_linkUp (s : State) : s.closePresence.linkUp = s.linkUp := rfl
@[simp] theorem State.closePresence_resetLine (s : State) : s.closePresence.resetLine = s.resetLine := rfl
@[simp] theorem State.closePresence_ownerLineLow (s : State) : s.closePresence.ownerLineLow = s.ownerLineLow := rfl
@[simp] theorem State.closePresence_host (s : State) : s.closePresence.host = s.host := rfl
@[simp] theorem State.closePresence_messages (s : State) : s.closePresence.messages = s.messages := rfl
@[simp] theorem State.closePresence_free (s : State) : s.closePresence.free = s.free := rfl
@[simp] theorem State.closePresence_pending (s : State) : s.closePresence.pending = s.pending := rfl

/-! ### joinWaiters -/

@[simp] theorem State.joinWaiters_exch (w : Waiter) (s : State) : (s.joinWaiters w).exch = s.exch := rfl
@[simp] theorem State.joinWaiters_custody (w : Waiter) (s : State) : (s.joinWaiters w).custody = s.custody := rfl
@[simp] theorem State.joinWaiters_measure (w : Waiter) (s : State) : (s.joinWaiters w).measure = s.measure := rfl
@[simp] theorem State.joinWaiters_update (w : Waiter) (s : State) : (s.joinWaiters w).update = s.update := rfl
@[simp] theorem State.joinWaiters_credential (w : Waiter) (s : State) : (s.joinWaiters w).credential = s.credential := rfl
@[simp] theorem State.joinWaiters_lifecycle (w : Waiter) (s : State) : (s.joinWaiters w).lifecycle = s.lifecycle := rfl
@[simp] theorem State.joinWaiters_hash (w : Waiter) (s : State) : (s.joinWaiters w).hash = s.hash := rfl
@[simp] theorem State.joinWaiters_curve (w : Waiter) (s : State) : (s.joinWaiters w).curve = s.curve := rfl
@[simp] theorem State.joinWaiters_census (w : Waiter) (s : State) :
    (s.joinWaiters w).census = { s.census with waiters := s.census.waiters ++ [w] } := rfl
@[simp] theorem State.joinWaiters_pace (w : Waiter) (s : State) : (s.joinWaiters w).pace = s.pace := rfl
@[simp] theorem State.joinWaiters_store (w : Waiter) (s : State) : (s.joinWaiters w).store = s.store := rfl
@[simp] theorem State.joinWaiters_startUp (w : Waiter) (s : State) : (s.joinWaiters w).startUp = s.startUp := rfl
@[simp] theorem State.joinWaiters_outboxes (w : Waiter) (s : State) : (s.joinWaiters w).outboxes = s.outboxes := rfl
@[simp] theorem State.joinWaiters_measureWaiting (w : Waiter) (s : State) : (s.joinWaiters w).measureWaiting = s.measureWaiting := rfl
@[simp] theorem State.joinWaiters_powered (w : Waiter) (s : State) : (s.joinWaiters w).powered = s.powered := rfl
@[simp] theorem State.joinWaiters_linkUp (w : Waiter) (s : State) : (s.joinWaiters w).linkUp = s.linkUp := rfl
@[simp] theorem State.joinWaiters_resetLine (w : Waiter) (s : State) : (s.joinWaiters w).resetLine = s.resetLine := rfl
@[simp] theorem State.joinWaiters_ownerLineLow (w : Waiter) (s : State) : (s.joinWaiters w).ownerLineLow = s.ownerLineLow := rfl
@[simp] theorem State.joinWaiters_host (w : Waiter) (s : State) : (s.joinWaiters w).host = s.host := rfl
@[simp] theorem State.joinWaiters_messages (w : Waiter) (s : State) : (s.joinWaiters w).messages = s.messages := rfl
@[simp] theorem State.joinWaiters_free (w : Waiter) (s : State) : (s.joinWaiters w).free = s.free := rfl
@[simp] theorem State.joinWaiters_pending (w : Waiter) (s : State) : (s.joinWaiters w).pending = s.pending := rfl

/-! ### atStep -/

@[simp] theorem State.atStep_exch (x : StartUp) (s : State) : (s.atStep x).exch = s.exch := rfl
@[simp] theorem State.atStep_custody (x : StartUp) (s : State) : (s.atStep x).custody = s.custody := rfl
@[simp] theorem State.atStep_measure (x : StartUp) (s : State) : (s.atStep x).measure = s.measure := rfl
@[simp] theorem State.atStep_update (x : StartUp) (s : State) : (s.atStep x).update = s.update := rfl
@[simp] theorem State.atStep_credential (x : StartUp) (s : State) : (s.atStep x).credential = s.credential := rfl
@[simp] theorem State.atStep_lifecycle (x : StartUp) (s : State) : (s.atStep x).lifecycle = s.lifecycle := rfl
@[simp] theorem State.atStep_hash (x : StartUp) (s : State) : (s.atStep x).hash = s.hash := rfl
@[simp] theorem State.atStep_curve (x : StartUp) (s : State) : (s.atStep x).curve = s.curve := rfl
@[simp] theorem State.atStep_census (x : StartUp) (s : State) : (s.atStep x).census = s.census := rfl
@[simp] theorem State.atStep_pace (x : StartUp) (s : State) : (s.atStep x).pace = s.pace := rfl
@[simp] theorem State.atStep_store (x : StartUp) (s : State) : (s.atStep x).store = s.store := rfl
@[simp] theorem State.atStep_startUp (x : StartUp) (s : State) : (s.atStep x).startUp = x := rfl
@[simp] theorem State.atStep_outboxes (x : StartUp) (s : State) : (s.atStep x).outboxes = s.outboxes := rfl
@[simp] theorem State.atStep_measureWaiting (x : StartUp) (s : State) : (s.atStep x).measureWaiting = s.measureWaiting := rfl
@[simp] theorem State.atStep_powered (x : StartUp) (s : State) : (s.atStep x).powered = s.powered := rfl
@[simp] theorem State.atStep_linkUp (x : StartUp) (s : State) : (s.atStep x).linkUp = s.linkUp := rfl
@[simp] theorem State.atStep_resetLine (x : StartUp) (s : State) : (s.atStep x).resetLine = s.resetLine := rfl
@[simp] theorem State.atStep_ownerLineLow (x : StartUp) (s : State) : (s.atStep x).ownerLineLow = s.ownerLineLow := rfl
@[simp] theorem State.atStep_host (x : StartUp) (s : State) : (s.atStep x).host = s.host := rfl
@[simp] theorem State.atStep_messages (x : StartUp) (s : State) : (s.atStep x).messages = s.messages := rfl
@[simp] theorem State.atStep_free (x : StartUp) (s : State) : (s.atStep x).free = s.free := rfl
@[simp] theorem State.atStep_pending (x : StartUp) (s : State) : (s.atStep x).pending = s.pending := rfl

/-! ### answerUpdateWipe -/

@[simp] theorem State.answerUpdateWipe_exch (c : WipeCount) (s : State) : (s.answerUpdateWipe c).exch = s.exch := rfl
@[simp] theorem State.answerUpdateWipe_custody (c : WipeCount) (s : State) : (s.answerUpdateWipe c).custody = s.custody := rfl
@[simp] theorem State.answerUpdateWipe_measure (c : WipeCount) (s : State) : (s.answerUpdateWipe c).measure = s.measure := rfl
@[simp] theorem State.answerUpdateWipe_update (c : WipeCount) (s : State) :
    (s.answerUpdateWipe c).update = { s.update with service := none } := rfl
@[simp] theorem State.answerUpdateWipe_credential (c : WipeCount) (s : State) : (s.answerUpdateWipe c).credential = s.credential := rfl
@[simp] theorem State.answerUpdateWipe_lifecycle (c : WipeCount) (s : State) :
    (s.answerUpdateWipe c).lifecycle = { s.lifecycle with
      answersSent := { s.lifecycle.answersSent with update := some { erased := c.removed, failed := c.failed } } } := rfl
@[simp] theorem State.answerUpdateWipe_hash (c : WipeCount) (s : State) : (s.answerUpdateWipe c).hash = s.hash := rfl
@[simp] theorem State.answerUpdateWipe_curve (c : WipeCount) (s : State) : (s.answerUpdateWipe c).curve = s.curve := rfl
@[simp] theorem State.answerUpdateWipe_census (c : WipeCount) (s : State) : (s.answerUpdateWipe c).census = s.census := rfl
@[simp] theorem State.answerUpdateWipe_pace (c : WipeCount) (s : State) : (s.answerUpdateWipe c).pace = s.pace := rfl
@[simp] theorem State.answerUpdateWipe_store (c : WipeCount) (s : State) : (s.answerUpdateWipe c).store = s.store := rfl
@[simp] theorem State.answerUpdateWipe_startUp (c : WipeCount) (s : State) : (s.answerUpdateWipe c).startUp = s.startUp := rfl
@[simp] theorem State.answerUpdateWipe_outboxes (c : WipeCount) (s : State) : (s.answerUpdateWipe c).outboxes = s.outboxes := rfl
@[simp] theorem State.answerUpdateWipe_measureWaiting (c : WipeCount) (s : State) :
    (s.answerUpdateWipe c).measureWaiting = s.measureWaiting := rfl
@[simp] theorem State.answerUpdateWipe_powered (c : WipeCount) (s : State) : (s.answerUpdateWipe c).powered = s.powered := rfl
@[simp] theorem State.answerUpdateWipe_linkUp (c : WipeCount) (s : State) : (s.answerUpdateWipe c).linkUp = s.linkUp := rfl
@[simp] theorem State.answerUpdateWipe_resetLine (c : WipeCount) (s : State) : (s.answerUpdateWipe c).resetLine = s.resetLine := rfl
@[simp] theorem State.answerUpdateWipe_ownerLineLow (c : WipeCount) (s : State) :
    (s.answerUpdateWipe c).ownerLineLow = s.ownerLineLow := rfl
@[simp] theorem State.answerUpdateWipe_host (c : WipeCount) (s : State) : (s.answerUpdateWipe c).host = s.host := rfl
@[simp] theorem State.answerUpdateWipe_messages (c : WipeCount) (s : State) : (s.answerUpdateWipe c).messages = s.messages := rfl
@[simp] theorem State.answerUpdateWipe_free (c : WipeCount) (s : State) : (s.answerUpdateWipe c).free = s.free := rfl
@[simp] theorem State.answerUpdateWipe_pending (c : WipeCount) (s : State) : (s.answerUpdateWipe c).pending = s.pending := rfl

/-! ### cutAccesses -/

@[simp] theorem State.cutAccesses_exch (named : DmaUnit → Bool) (s : State) : (s.cutAccesses named).exch = s.exch := rfl
@[simp] theorem State.cutAccesses_custody (named : DmaUnit → Bool) (s : State) :
    (s.cutAccesses named).custody = { s.custody with work := s.custody.work.map (Work.cutWhen (named .custody)) } := rfl
@[simp] theorem State.cutAccesses_measure (named : DmaUnit → Bool) (s : State) :
    (s.cutAccesses named).measure = { s.measure with work := s.measure.work.map (Work.cutWhen (named .measure)) } := rfl
@[simp] theorem State.cutAccesses_update (named : DmaUnit → Bool) (s : State) :
    (s.cutAccesses named).update = { s.update with work := s.update.work.map (Work.cutWhen (named .update)) } := rfl
@[simp] theorem State.cutAccesses_credential (named : DmaUnit → Bool) (s : State) :
    (s.cutAccesses named).credential = s.credential := rfl
@[simp] theorem State.cutAccesses_lifecycle (named : DmaUnit → Bool) (s : State) :
    (s.cutAccesses named).lifecycle = { s.lifecycle with work := s.lifecycle.work.map (Work.cutWhen (named .lifecycle)) } := rfl
@[simp] theorem State.cutAccesses_hash (named : DmaUnit → Bool) (s : State) : (s.cutAccesses named).hash = s.hash := rfl
@[simp] theorem State.cutAccesses_curve (named : DmaUnit → Bool) (s : State) : (s.cutAccesses named).curve = s.curve := rfl
@[simp] theorem State.cutAccesses_census (named : DmaUnit → Bool) (s : State) : (s.cutAccesses named).census = s.census := rfl
@[simp] theorem State.cutAccesses_pace (named : DmaUnit → Bool) (s : State) : (s.cutAccesses named).pace = s.pace := rfl
@[simp] theorem State.cutAccesses_store (named : DmaUnit → Bool) (s : State) : (s.cutAccesses named).store = s.store := rfl
@[simp] theorem State.cutAccesses_startUp (named : DmaUnit → Bool) (s : State) : (s.cutAccesses named).startUp = s.startUp := rfl
@[simp] theorem State.cutAccesses_outboxes (named : DmaUnit → Bool) (s : State) : (s.cutAccesses named).outboxes = s.outboxes := rfl
@[simp] theorem State.cutAccesses_measureWaiting (named : DmaUnit → Bool) (s : State) :
    (s.cutAccesses named).measureWaiting = s.measureWaiting := rfl
@[simp] theorem State.cutAccesses_powered (named : DmaUnit → Bool) (s : State) : (s.cutAccesses named).powered = s.powered := rfl
@[simp] theorem State.cutAccesses_linkUp (named : DmaUnit → Bool) (s : State) : (s.cutAccesses named).linkUp = s.linkUp := rfl
@[simp] theorem State.cutAccesses_resetLine (named : DmaUnit → Bool) (s : State) : (s.cutAccesses named).resetLine = s.resetLine := rfl
@[simp] theorem State.cutAccesses_ownerLineLow (named : DmaUnit → Bool) (s : State) :
    (s.cutAccesses named).ownerLineLow = s.ownerLineLow := rfl
@[simp] theorem State.cutAccesses_host (named : DmaUnit → Bool) (s : State) : (s.cutAccesses named).host = s.host := rfl
@[simp] theorem State.cutAccesses_messages (named : DmaUnit → Bool) (s : State) : (s.cutAccesses named).messages = s.messages := rfl
@[simp] theorem State.cutAccesses_free (named : DmaUnit → Bool) (s : State) : (s.cutAccesses named).free = s.free := rfl
@[simp] theorem State.cutAccesses_pending (named : DmaUnit → Bool) (s : State) : (s.cutAccesses named).pending = s.pending := rfl

/-! ### startStep6 -/

@[simp] theorem State.startStep6_exch (s : State) : s.startStep6.exch = s.exch := rfl
@[simp] theorem State.startStep6_custody (s : State) : s.startStep6.custody = s.custody := rfl
@[simp] theorem State.startStep6_measure (s : State) : s.startStep6.measure = s.measure := rfl
@[simp] theorem State.startStep6_update (s : State) : s.startStep6.update = s.update := rfl
@[simp] theorem State.startStep6_credential (s : State) : s.startStep6.credential = s.credential := rfl
@[simp] theorem State.startStep6_lifecycle (s : State) : s.startStep6.lifecycle = s.lifecycle := rfl
@[simp] theorem State.startStep6_hash (s : State) : s.startStep6.hash = s.hash := rfl
@[simp] theorem State.startStep6_curve (s : State) : s.startStep6.curve = s.curve := rfl
@[simp] theorem State.startStep6_census (s : State) : s.startStep6.census = s.census.begun := rfl
@[simp] theorem State.startStep6_pace (s : State) : s.startStep6.pace = s.pace := rfl
@[simp] theorem State.startStep6_store (s : State) : s.startStep6.store = s.store := rfl
@[simp] theorem State.startStep6_startUp (s : State) : s.startStep6.startUp = .step6 := rfl
@[simp] theorem State.startStep6_outboxes (s : State) : s.startStep6.outboxes = s.outboxes := rfl
@[simp] theorem State.startStep6_measureWaiting (s : State) : s.startStep6.measureWaiting = s.measureWaiting := rfl
@[simp] theorem State.startStep6_powered (s : State) : s.startStep6.powered = s.powered := rfl
@[simp] theorem State.startStep6_linkUp (s : State) : s.startStep6.linkUp = s.linkUp := rfl
@[simp] theorem State.startStep6_resetLine (s : State) : s.startStep6.resetLine = s.resetLine := rfl
@[simp] theorem State.startStep6_ownerLineLow (s : State) : s.startStep6.ownerLineLow = s.ownerLineLow := rfl
@[simp] theorem State.startStep6_host (s : State) : s.startStep6.host = s.host := rfl
@[simp] theorem State.startStep6_messages (s : State) : s.startStep6.messages = s.messages := rfl
@[simp] theorem State.startStep6_free (s : State) : s.startStep6.free = s.free := rfl
@[simp] theorem State.startStep6_pending (s : State) : s.startStep6.pending = s.pending := rfl

/-! ### takeBackUse -/

@[simp] theorem State.takeBackUse_exch (s : State) : s.takeBackUse.exch = s.exch := rfl
@[simp] theorem State.takeBackUse_custody (s : State) :
    s.takeBackUse.custody = { s.custody with table := s.custody.takenBack } := rfl
@[simp] theorem State.takeBackUse_measure (s : State) : s.takeBackUse.measure = s.measure := rfl
@[simp] theorem State.takeBackUse_update (s : State) : s.takeBackUse.update = s.update := rfl
@[simp] theorem State.takeBackUse_credential (s : State) : s.takeBackUse.credential = s.credential := rfl
@[simp] theorem State.takeBackUse_lifecycle (s : State) : s.takeBackUse.lifecycle = s.lifecycle := rfl
@[simp] theorem State.takeBackUse_hash (s : State) : s.takeBackUse.hash = s.hash := rfl
@[simp] theorem State.takeBackUse_curve (s : State) : s.takeBackUse.curve = s.curve := rfl
@[simp] theorem State.takeBackUse_census (s : State) : s.takeBackUse.census = s.census := rfl
@[simp] theorem State.takeBackUse_pace (s : State) : s.takeBackUse.pace = s.pace := rfl
@[simp] theorem State.takeBackUse_store (s : State) : s.takeBackUse.store = s.store := rfl
@[simp] theorem State.takeBackUse_startUp (s : State) : s.takeBackUse.startUp = s.startUp := rfl
@[simp] theorem State.takeBackUse_outboxes (s : State) : s.takeBackUse.outboxes = s.outboxes := rfl
@[simp] theorem State.takeBackUse_measureWaiting (s : State) : s.takeBackUse.measureWaiting = s.measureWaiting := rfl
@[simp] theorem State.takeBackUse_powered (s : State) : s.takeBackUse.powered = s.powered := rfl
@[simp] theorem State.takeBackUse_linkUp (s : State) : s.takeBackUse.linkUp = s.linkUp := rfl
@[simp] theorem State.takeBackUse_resetLine (s : State) : s.takeBackUse.resetLine = s.resetLine := rfl
@[simp] theorem State.takeBackUse_ownerLineLow (s : State) : s.takeBackUse.ownerLineLow = s.ownerLineLow := rfl
@[simp] theorem State.takeBackUse_host (s : State) : s.takeBackUse.host = s.host := rfl
@[simp] theorem State.takeBackUse_messages (s : State) : s.takeBackUse.messages = s.messages := rfl
@[simp] theorem State.takeBackUse_free (s : State) : s.takeBackUse.free = s.free := rfl
@[simp] theorem State.takeBackUse_pending (s : State) : s.takeBackUse.pending = s.pending := rfl

@[simp] theorem Custody.takenBack_none {u : Custody} (h : u.undo = none) : u.takenBack = u.table := by simp [Custody.takenBack, h]

end Sys2Proof.Machine
end

