-- ==== Sys2Proof/Laws/Still.lean ====
section
/-! SUPPORT. The still part of a state: the fields that no operation of the units touches, one lemma per operation. What does touch them
is the exchange's own work, the measure unit's extensions, the pace clock, the store's writes, reset and supply, and the DMA writes of
the units' own extents. -/
namespace Sys2Proof.Machine

/-- What the units never touch on their own: host memory, the chains and the record list, the register window's values, the fetcher's
progress, the pace clock, the pins, the waiting commands, and the store's records. -/
structure Still where
  host        : List Host.Cell
  chains      : Vector Digest 12
  closed      : BitVec 11
  records     : List Record
  missed      : Nat
  truncated   : Bool
  quoteSeq    : Nat
  starting    : Bool
  base        : Word64
  enable      : Bool
  ack         : Word32
  tally       : Word32
  takes       : Nat
  cards       : Nat
  expected    : Word16
  cursor      : Option Nat
  mismatch    : Option Nat
  candidate   : Option (Nat × Word16 × Word16)
  takenTicket : Word16
  pace        : Pace
  powered     : Bool
  linkUp      : Bool
  resetLine   : Bool
  ownerLine   : Bool
  pending     : List Instr
  lifeCells   : Cells LifeRecord
  certCells   : Cells (List Byte)
  slotCells   : Vector (Cells KeyRecord) 32
  markCells   : Vector (Cells Word32) 3
  credCells   : Vector (Cells CredRecord) 32
  kindCells   : Vector (Cells KindRecord) 8
  map         : LocationMap

/-- The still part of a state. -/
def State.still (s : State) : Still :=
  { host := s.host, chains := s.measure.chains, closed := s.measure.closed, records := s.measure.records,
    missed := s.measure.missed, truncated := s.measure.truncated, quoteSeq := s.measure.quoteSeq, starting := s.measure.starting,
    base := s.exch.base, enable := s.exch.enable, ack := s.exch.ack, tally := s.exch.tally, takes := s.exch.takes,
    cards := s.exch.cards,
    expected := s.exch.expected, cursor := s.exch.cursor, mismatch := s.exch.mismatch, candidate := s.exch.candidate,
    takenTicket := s.exch.takenTicket, pace := s.pace, powered := s.powered, linkUp := s.linkUp, resetLine := s.resetLine,
    ownerLine := s.ownerLineLow, pending := s.pending, lifeCells := s.store.lifecycle, certCells := s.store.certificate,
    slotCells := s.store.slots, markCells := s.store.marks, credCells := s.store.creds, kindCells := s.store.kinds,
    map := s.store.map }

@[simp] theorem State.afterDraw_still (a0 : ℕ) (s : State) : (State.afterDraw a0 s).still = s.still := rfl

@[simp] theorem State.setSlot_still (a0 : Fin 48) (a1 : Option KeyRecord) (s : State) : (State.setSlot a0 a1 s).still = s.still := rfl

@[simp] theorem State.setKind_still (a0 : Fin 8) (a1 : KindRecord) (s : State) : (State.setKind a0 a1 s).still = s.still := rfl

@[simp] theorem State.setMark_still (a0 : Fin 3) (a1 : Word32) (s : State) : (State.setMark a0 a1 s).still = s.still := rfl

@[simp] theorem State.setCred_still (a0 : Fin 32) (a1 : Option CredEntry) (s : State) : (State.setCred a0 a1 s).still = s.still := rfl

@[simp] theorem State.whenPowered_still (a0 : State → State) (s : State) (ha0 : ∀ t, (a0 t).still = t.still) :
    (State.whenPowered a0 s).still = s.still := by
  unfold State.whenPowered; split <;> simp [ha0]

@[simp] theorem State.afterFill_still (a0 : List OutByte) (s : State) : (State.afterFill a0 s).still = s.still := rfl

@[simp] theorem State.afterDetail_still (a0 : Option Word32) (s : State) : (State.afterDetail a0 s).still = s.still := by
  unfold State.afterDetail; (repeat' split) <;> first | rfl | simp

@[simp] theorem State.sendMessage_still (s : State) : (State.sendMessage s).still = s.still := by
  unfold State.sendMessage; (repeat' split) <;> first | rfl | simp

@[simp] theorem State.ask_still (a0 : Attention) (s : State) : (State.ask a0 s).still = s.still := by
  unfold State.ask; (repeat' split) <;> first | rfl | (simp; done) | (simp; rfl)

@[simp] theorem State.askStoreFault_still (s : State) : (State.askStoreFault s).still = s.still := by
  unfold State.askStoreFault; (repeat' split) <;> first | rfl | simp

@[simp] theorem State.restartIdle_still (s : State) : (State.restartIdle s).still = s.still := by
  unfold State.restartIdle; (repeat' split) <;> first | rfl | simp

@[simp] theorem State.freeBuffer_still (a0 : Card) (s : State) : (State.freeBuffer a0 s).still = s.still := by
  unfold State.freeBuffer; dsimp only; (repeat' split) <;> first | rfl | (simp; done) | (simp; rfl)

@[simp] theorem State.closeArea_still (s : State) : (State.closeArea s).still = s.still := rfl

@[simp] theorem State.handBack_still (c : Card) (o : CardOutcome) (d : Option Word32) (b : List OutByte) (s : State) :
    (State.handBack c o d b s).still = s.still := by
  unfold State.handBack
  split
  · dsimp only
    split
    · exact (State.closeArea_still _).trans (State.freeBuffer_still _ _)
    · exact State.freeBuffer_still _ _
  · exact (State.afterFill_still b _).trans (State.afterDetail_still d s)

@[simp] theorem State.beginCard_still (a0 : Card) (s : State) : (State.beginCard a0 s).still = s.still := rfl

@[simp] theorem State.hashSubmit_still (a0 : HashClient) (a1 : HashJob) (s : State) : (State.hashSubmit a0 a1 s).still = s.still := rfl

@[simp] theorem State.hashWithdraw_still (a0 : HashClient) (s : State) : (State.hashWithdraw a0 s).still = s.still := rfl

@[simp] theorem State.curveSubmit_still (a0 : CurveClient) (a1 : CurveOp) (s : State) :
    (State.curveSubmit a0 a1 s).still = s.still := rfl

@[simp] theorem State.curveWithdraw_still (a0 : CurveClient) (s : State) : (State.curveWithdraw a0 s).still = s.still := rfl

@[simp] theorem State.setOutbox_still (a0 : Client) (a1 : List Out) (s : State) : (State.setOutbox a0 a1 s).still = s.still := rfl

@[simp] theorem State.push_still (a0 : Client) (a1 : List Out) (s : State) : (State.push a0 a1 s).still = s.still := rfl

@[simp] theorem State.commitCard_still (s : State) (a0 : WriteTo) : (State.commitCard s a0).still = s.still := by
  unfold State.commitCard; (repeat' split) <;> first | rfl | simp

@[simp] theorem State.dropRefresh_still (a0 : Fin 32) (s : State) : (State.dropRefresh a0 s).still = s.still := rfl

@[simp] theorem State.enqueue_still (w : Write) (t : WriteTo) (s : State) : (State.enqueue w t s).still = s.still := by
  unfold State.enqueue
  generalize s.asSent w t = v
  cases v with
  | cred i r =>
    refine Eq.trans (b := (((s.commitCard t).dropRefresh i).setCred i (((s.commitCard t).cred i).map CredEntry.writeSent)).still)
      rfl ?_
    simp
  | _ => exact State.commitCard_still s t

@[simp] theorem State.openPresence_still (s : State) : (State.openPresence s).still = s.still := by
  unfold State.openPresence; (repeat' split) <;> first | rfl | simp

@[simp] theorem State.closePresence_still (s : State) : (State.closePresence s).still = s.still := rfl

@[simp] theorem State.endPresence_still (s : State) : (State.endPresence s).still = s.still := by
  unfold State.endPresence; split <;> simp

@[simp] theorem State.sendWipeOrders_still (s : State) : (State.sendWipeOrders s).still = s.still := rfl

@[simp] theorem State.leaveChecked_still (s : State) : (State.leaveChecked s).still = s.still := rfl

@[simp] theorem State.dropSession_still (s : State) : (State.dropSession s).still = s.still := by
  unfold State.dropSession; (repeat' split) <;> first | rfl | simp

theorem State.foldl_still {α : Type} (f : State → α → State) (h : ∀ s x, (f s x).still = s.still) (l : List α) (s : State) :
    (l.foldl f s).still = s.still := by
  induction l generalizing s with
  | nil => rfl
  | cons x l ih => simp [List.foldl, ih, h]

theorem State.withoutTrials_still (l : List (Fin 8)) (s : State) :
    (l.foldl (fun s k => s.setKind k (s.kindRecord k).withoutTrial) s).still = s.still :=
  State.foldl_still _ (by intros; simp) l s

@[simp] theorem State.serveUpdateWipe_still (s : State) : (s.serveUpdateWipe).still = s.still := by
  unfold State.serveUpdateWipe
  dsimp only
  split
  · refine (State.withoutTrials_still _ _).trans ?_
    (repeat' split) <;> rfl
  · refine (State.push_still _ _ _).trans ((State.withoutTrials_still _ _).trans ?_)
    (repeat' split) <;> rfl

@[simp] theorem State.answerUpdateWipe_still (c : WipeCount) (s : State) : (State.answerUpdateWipe c s).still = s.still := rfl

@[simp] theorem State.updateWipeSent_still (s : State) : (State.updateWipeSent s).still = s.still := by
  unfold State.updateWipeSent; (repeat' split) <;> first | rfl | simp

@[simp] theorem State.updateRelease_still (a0 : CardOutcome) (a1 : Option Word32) (a2 : List OutByte) (s : State) :
    (State.updateRelease a0 a1 a2 s).still = s.still := by
  unfold State.updateRelease; (repeat' split) <;> first | rfl | (simp; done) | (simp; rfl)

@[simp] theorem State.credHandBack_still (a0 : CardOutcome) (a1 : Option Word32) (a2 : List OutByte) (s : State) :
    (State.credHandBack a0 a1 a2 s).still = s.still := by
  unfold State.credHandBack; (repeat' split) <;> first | rfl | (simp; done) | (simp; rfl)

@[simp] theorem State.claimAnswered_still (s : State) : (State.claimAnswered s).still = s.still := by
  unfold State.claimAnswered; repeat' split <;> simp

@[simp] theorem State.perform_still (a : After) (s : State) : (State.perform a s).still = s.still := by
  cases a with
  | updateSettle o d b => unfold State.perform; dsimp only; split <;> simp
  | claimDone => exact (State.claimAnswered_still _).trans (State.openPresence_still _)
  | _ => simp [State.perform]

@[simp] theorem State.sendAll_still (c : Client) (n : Nat) (s : State) : (State.sendAll c n s).still = s.still := by
  induction n generalizing s with
  | zero => rfl
  | succ n ih =>
    unfold State.sendAll
    (repeat' split) <;> (first | rfl | (simp [ih]; done) | (simp [ih]; rfl))

@[simp] theorem State.joinList_still (a0 : MeasureRequest) (s : State) : (State.joinList a0 s).still = s.still := rfl

@[simp] theorem State.sendLane_still (a0 : Client) (s : State) : (State.sendLane a0 s).still = s.still := by
  unfold State.sendLane; dsimp only; split <;> simp

@[simp] theorem State.send_still (a0 : Client) (a1 : List Out) (s : State) : (State.send a0 a1 s).still = s.still := by
  unfold State.send; split <;> simp

@[simp] theorem State.serveHeldWipe_still (s : State) : (State.serveHeldWipe s).still = s.still := by
  unfold State.serveHeldWipe; split <;> simp

@[simp] theorem State.updateHandBack_still (a0 : CardOutcome) (a1 : Option Word32) (a2 : List OutByte) (s : State) :
    (State.updateHandBack a0 a1 a2 s).still = s.still := by simp [State.updateHandBack]

@[simp] theorem State.pumpStore_still (n : Nat) (s : State) : (State.pumpStore n s).still = s.still := by
  induction n generalizing s with
  | zero => rfl
  | succ n ih =>
    unfold State.pumpStore
    (repeat' split) <;> (first | rfl | (simp [ih]; done) | (simp [ih]; rfl))

@[simp] theorem State.joinFirst_still (a0 : Client) (s : State) : (State.joinFirst a0 s).still = s.still := by
  unfold State.joinFirst; split <;> simp

@[simp] theorem State.pumpMeasure_still (n : Nat) (s : State) : (State.pumpMeasure n s).still = s.still := by
  induction n generalizing s with
  | zero => rfl
  | succ n ih =>
    unfold State.pumpMeasure
    (repeat' split) <;> (first | rfl | (simp [ih]; done) | (simp [ih]; rfl))

@[simp] theorem State.withdrawWrite_still (a0 : Client) (a1 : WriteTo) (s : State) :
    (State.withdrawWrite a0 a1 s).still = s.still := by
  unfold State.withdrawWrite; dsimp only; (repeat' split) <;> first | rfl | simp

@[simp] theorem State.giveUpRequest_still (a0 : Option Checker) (s : State) : (State.giveUpRequest a0 s).still = s.still := rfl

@[simp] theorem State.joinWaiters_still (a0 : Waiter) (s : State) : (State.joinWaiters a0 s).still = s.still := rfl

@[simp] theorem State.leaveWaiters_still (a0 : Waiter) (s : State) : (State.leaveWaiters a0 s).still = s.still := rfl

@[simp] theorem State.sendCheck_still (a0 : Client) (a1 : Checker) (a2 : Binding) (s : State) :
    (State.sendCheck a0 a1 a2 s).still = s.still := by simp [State.sendCheck]

@[simp] theorem State.beginUpdate_still (a0 : Word16) (a1 : UpdateStage) (a2 : Card → State → State)
    (s : State) (ha2 : ∀ x0 t, (a2 x0 t).still = t.still) :
    (State.beginUpdate a0 a1 a2 s).still = s.still := by
  unfold State.beginUpdate; (repeat' split) <;> first | rfl | (simp [ha2]; done) | (simp [ha2]; rfl)

@[simp] theorem State.updateStage_still (a0 : UpdateStage) (s : State) : (State.updateStage a0 s).still = s.still := rfl

@[simp] theorem State.updateCommit_still (s : State) : (State.updateCommit s).still = s.still := rfl

@[simp] theorem State.updateBad_still (a0 : ℕ) (s : State) : (State.updateBad a0 s).still = s.still := by simp [State.updateBad]

@[simp] theorem State.updateRefuse_still (a0 : CardOutcome) (s : State) : (State.updateRefuse a0 s).still = s.still := by
  simp [State.updateRefuse]

@[simp] theorem State.updateWrite_still (a0 : Write) (a1 : UpdateStage) (s : State) :
    (State.updateWrite a0 a1 s).still = s.still := by simp [State.updateWrite]

@[simp] theorem State.askCustody_still (a0 : CustodyRequest) (s : State) : (State.askCustody a0 s).still = s.still := rfl

@[simp] theorem State.verifySigned_still (a0 : PublicKey) (a1 : List Byte) (s : State) :
    (State.verifySigned a0 a1 s).still = s.still := rfl

@[simp] theorem State.anchorInstallDelegate_still (a0 : Card) (s : State) : (State.anchorInstallDelegate a0 s).still = s.still := by
  unfold State.anchorInstallDelegate; dsimp only; (repeat' split) <;> first | rfl | simp

@[simp] theorem State.anchorInstallOwner_still (a0 : Card) (s : State) : (State.anchorInstallOwner a0 s).still = s.still := by
  unfold State.anchorInstallOwner; repeat' split <;> simp

@[simp] theorem State.anchorInstall_still (a0 : Card) (s : State) : (State.anchorInstall a0 s).still = s.still := by
  unfold State.anchorInstall; (repeat' split) <;> simp

@[simp] theorem State.anchorRemoveDelegate_still (a0 : Card) (s : State) : (State.anchorRemoveDelegate a0 s).still = s.still := by
  unfold State.anchorRemoveDelegate; dsimp only; (repeat' split) <;> first | rfl | simp

@[simp] theorem State.anchorRemoveOwner_still (s : State) : (State.anchorRemoveOwner s).still = s.still := by
  unfold State.anchorRemoveOwner; (repeat' split) <;> simp

@[simp] theorem State.anchorRemove_still (a0 : Card) (s : State) : (State.anchorRemove a0 s).still = s.still := by
  unfold State.anchorRemove; (repeat' split) <;> simp

@[simp] theorem State.delegateVerified_still (a0 : Card) (s : State) : (State.delegateVerified a0 s).still = s.still := by
  unfold State.delegateVerified; dsimp only; (repeat' split) <;> first | rfl | simp

@[simp] theorem State.delegateRemoval_still (a0 : Card) (s : State) : (State.delegateRemoval a0 s).still = s.still := rfl

@[simp] theorem State.removalVerified_still (a0 : Card) (s : State) : (State.removalVerified a0 s).still = s.still := by
  unfold State.removalVerified; dsimp only; (repeat' split) <;> first | rfl | simp

@[simp] theorem State.updateOpen_still (a0 : Card) (s : State) : (State.updateOpen a0 s).still = s.still := by
  unfold State.updateOpen; dsimp only; (repeat' split) <;> first | rfl | simp

@[simp] theorem State.manifestVerified_still (a0 : Card) (s : State) : (State.manifestVerified a0 s).still = s.still := by
  unfold State.manifestVerified; dsimp only; (repeat' split) <;> first | rfl | (simp; done) | (simp; rfl)

@[simp] theorem State.updateFeed_still (a0 : Card) (s : State) : (State.updateFeed a0 s).still = s.still := by
  unfold State.updateFeed; (repeat' split) <;> simp

@[simp] theorem State.feedPiece_still (a0 : ℕ) (a1 : List Byte) (s : State) : (State.feedPiece a0 a1 s).still = s.still := by
  unfold State.feedPiece; (repeat' split) <;> first | rfl | simp

@[simp] theorem State.feedMore_still (s : State) : (State.feedMore s).still = s.still := by
  unfold State.feedMore; (repeat' split) <;> first | rfl | (simp; done) | (simp; rfl)

@[simp] theorem State.feedEnd_still (a0 : Digest) (s : State) : (State.feedEnd a0 s).still = s.still := by
  unfold State.feedEnd; (repeat' split) <;> first | rfl | (simp; done) | (simp; rfl)

@[simp] theorem State.feedFault_still (s : State) : (State.feedFault s).still = s.still := by
  unfold State.feedFault; (repeat' split) <;> first | rfl | (simp; done) | (simp; rfl)

@[simp] theorem State.updateCancel_still (a0 : Card) (s : State) : (State.updateCancel a0 s).still = s.still := by
  unfold State.updateCancel; split <;> simp

@[simp] theorem State.updateCommitCard_still (a0 : Card) (s : State) : (State.updateCommitCard a0 s).still = s.still := by
  unfold State.updateCommitCard; repeat' split <;> simp

@[simp] theorem State.commitDone_still (a0 : Fin 8) (a1 : KindRecord) (s : State) : (State.commitDone a0 a1 s).still = s.still := by
  simp [State.commitDone]

@[simp] theorem State.updateConfirm_still (a0 : Card) (s : State) : (State.updateConfirm a0 s).still = s.still := by
  unfold State.updateConfirm; (repeat' split) <;> simp

@[simp] theorem State.confirmExpect_still (a0 : Card) (a1 : Digest) (s : State) : (State.confirmExpect a0 a1 s).still = s.still := by
  simp [State.confirmExpect]

@[simp] theorem State.confirmChain_still (a0 : Card) (a1 : Digest) (a2 : Digest) (s : State) :
    (State.confirmChain a0 a1 a2 s).still = s.still := by
  unfold State.confirmChain; repeat' split <;> simp

@[simp] theorem State.confirmDone_still (a0 : Fin 8) (a1 : KindRecord) (a2 : ℕ) (a3 : SignerClass) (a4 : Bool) (s : State) :
    (State.confirmDone a0 a1 a2 a3 a4 s).still = s.still := by simp [State.confirmDone]

@[simp] theorem State.updateRevert_still (a0 : Card) (s : State) : (State.updateRevert a0 s).still = s.still := by
  unfold State.updateRevert; repeat' split <;> simp

@[simp] theorem State.bootAdvice_still (a0 : Card) (s : State) : (State.bootAdvice a0 s).still = s.still := by
  unfold State.bootAdvice; split <;> simp

@[simp] theorem State.updateHashEnd_still (a0 : Digest) (s : State) : (State.updateHashEnd a0 s).still = s.still := by
  unfold State.updateHashEnd
  cases h : s.update.work with
  | none => rfl
  | some w =>
    cases hs : w.stage <;> simp only [hs]
    case verifyHash pub => exact (State.curveSubmit_still _ _ _).trans (State.updateStage_still _ _)
    all_goals simp

@[simp] theorem State.updateHashContinued_still (s : State) : (State.updateHashContinued s).still = s.still := by
  unfold State.updateHashContinued; (repeat' split) <;> simp

@[simp] theorem State.updateHashPiece_still (a0 : ℕ) (a1 : List Byte) (s : State) :
    (State.updateHashPiece a0 a1 s).still = s.still := by
  unfold State.updateHashPiece; (repeat' split) <;> simp

@[simp] theorem State.updateHashFault_still (a0 : ℕ) (s : State) : (State.updateHashFault a0 s).still = s.still := by
  unfold State.updateHashFault; (repeat' split) <;> simp

@[simp] theorem State.updateHashWithdrawn_still (s : State) : (State.updateHashWithdrawn s).still = s.still := by
  unfold State.updateHashWithdrawn; (repeat' split) <;> simp

@[simp] theorem State.updateCurveEnd_still (a0 : Bool) (s : State) : (State.updateCurveEnd a0 s).still = s.still := by
  unfold State.updateCurveEnd; (repeat' split) <;> simp

@[simp] theorem State.updateChainAnswer_still (a0 : Digest) (s : State) : (State.updateChainAnswer a0 s).still = s.still := by
  unfold State.updateChainAnswer; (repeat' split) <;> simp

@[simp] theorem State.updateCustodyAnswer_still (a0 : Bool) (s : State) : (State.updateCustodyAnswer a0 s).still = s.still := by
  unfold State.updateCustodyAnswer; (repeat' split) <;> simp

@[simp] theorem State.guardExpiry_still (s : State) : (State.guardExpiry s).still = s.still := by
  unfold State.guardExpiry; split <;> simp

@[simp] theorem State.updateWriteEnd_still (a0 : Write) (a1 : Bool) (s : State) : (State.updateWriteEnd a0 a1 s).still = s.still := by
  unfold State.updateWriteEnd; (repeat' split) <;> simp

@[simp] theorem State.updateWipeEnd_still (a0 : Bool) (s : State) : (State.updateWipeEnd a0 s).still = s.still := by
  unfold State.updateWipeEnd; dsimp only; (repeat' split) <;> first | rfl | simp

@[simp] theorem State.updateWipeOrder_still (s : State) : (State.updateWipeOrder s).still = s.still := by
  unfold State.updateWipeOrder; (repeat' split) <;> first | rfl | simp

@[simp] theorem State.idleExpiry_still (s : State) : (State.idleExpiry s).still = s.still := by
  unfold State.idleExpiry; (repeat' split) <;> first | rfl | simp

@[simp] theorem State.updateAbandon_still (s : State) : (State.updateAbandon s).still = s.still := by
  unfold State.updateAbandon; (repeat' split) <;> first | rfl | simp

@[simp] theorem State.beginLife_still (a0 : Word16) (a1 : LifeStage) (a2 : Card → State → State)
    (s : State) (ha2 : ∀ x0 t, (a2 x0 t).still = t.still) :
    (State.beginLife a0 a1 a2 s).still = s.still := by
  unfold State.beginLife; (repeat' split) <;> first | rfl | (simp [ha2]; done) | (simp [ha2]; rfl)

@[simp] theorem State.lifeStage_still (a0 : LifeStage) (s : State) : (State.lifeStage a0 s).still = s.still := rfl

@[simp] theorem State.lifeCommit_still (s : State) : (State.lifeCommit s).still = s.still := rfl

@[simp] theorem State.lifeHandBack_still (a0 : CardOutcome) (a1 : Option Word32) (a2 : List OutByte) (s : State) :
    (State.lifeHandBack a0 a1 a2 s).still = s.still := by
  unfold State.lifeHandBack; (repeat' split) <;> first | rfl | (simp; done) | (simp; rfl)

@[simp] theorem State.lifeBad_still (a0 : ℕ) (s : State) : (State.lifeBad a0 s).still = s.still := by simp [State.lifeBad]

@[simp] theorem State.lifeRefuse_still (a0 : CardOutcome) (s : State) : (State.lifeRefuse a0 s).still = s.still := by
  simp [State.lifeRefuse]

@[simp] theorem State.factory_still (a0 : Card → Option ℕ) (a1 : Card → State → State) (a2 : Card)
    (s : State) (ha1 : ∀ x0 t, (a1 x0 t).still = t.still) :
    (State.factory a0 a1 a2 s).still = s.still := by
  unfold State.factory; (repeat' split) <;> simp [ha1]

@[simp] theorem State.identityDraw_still (s : State) : (State.identityDraw s).still = s.still := rfl

@[simp] theorem State.factoryIdentity_still (s : State) : (State.factoryIdentity s).still = s.still := by
  unfold State.factoryIdentity; (repeat' split) <;> simp

@[simp] theorem State.identityGenerated_still (a0 : Scalar) (a1 : PublicKey) (s : State) :
    (State.identityGenerated a0 a1 s).still = s.still := rfl

@[simp] theorem State.factoryRoot_still (a0 : Card) (s : State) : (State.factoryRoot a0 s).still = s.still := rfl

@[simp] theorem State.factoryPairing_still (a0 : Card) (s : State) : (State.factoryPairing a0 s).still = s.still := rfl

@[simp] theorem State.factoryFinish_still (s : State) : (State.factoryFinish s).still = s.still := by
  unfold State.factoryFinish; split <;> simp

@[simp] theorem State.takeRelease_still (s : State) : (State.takeRelease s).still = s.still := by
  unfold State.takeRelease; (repeat' split) <;> first | rfl | (simp; done) | (simp; rfl)

@[simp] theorem State.ownershipRelease_still (a0 : Card) (s : State) : (State.ownershipRelease a0 s).still = s.still := by
  unfold State.ownershipRelease; (repeat' split) <;> simp

@[simp] theorem State.settleRelease_still (a0 : CardOutcome) (a1 : Option Word32) (s : State) :
    (State.settleRelease a0 a1 s).still = s.still := by
  unfold State.settleRelease; (repeat' split) <;> simp

@[simp] theorem State.markerEnd_still (a0 : Bool) (s : State) : (State.markerEnd a0 s).still = s.still := by
  unfold State.markerEnd; dsimp only; (repeat' split) <;> first | rfl | (simp; done) | (simp; rfl)

@[simp] theorem State.closingEnd_still (a0 : Bool) (s : State) : (State.closingEnd a0 s).still = s.still := by
  unfold State.closingEnd; (repeat' split) <;> first | rfl | (simp; done) | (simp; rfl)

@[simp] theorem State.answersComplete_still (a0 : WipeCounts) (s : State) : (State.answersComplete a0 s).still = s.still := by
  unfold State.answersComplete; (repeat' split) <;> first | rfl | (simp; done) | (simp; rfl)

@[simp] theorem State.wipeAnswer_still (a0 : WipeUnit) (s : State) : (State.wipeAnswer a0 s).still = s.still := by
  unfold State.wipeAnswer; dsimp only; (repeat' split) <;> first | rfl | (simp; done) | (simp; rfl)

@[simp] theorem State.sessionLeftChecked_still (s : State) : (State.sessionLeftChecked s).still = s.still := by
  unfold State.sessionLeftChecked; dsimp only; (repeat' split) <;> first | rfl | simp

@[simp] theorem State.afterWithdrawDetail_still (s : State) : (State.afterWithdrawDetail s).still = s.still := rfl

@[simp] theorem State.ownerWithdraw_still (a0 : Card) (s : State) : (State.ownerWithdraw a0 s).still = s.still := by
  unfold State.ownerWithdraw; split <;> simp

@[simp] theorem State.censusFailedReport_still (s : State) : (State.censusFailedReport s).still = s.still := by
  unfold State.censusFailedReport; (repeat' split) <;> first | rfl | (simp; done) | (simp; rfl)

@[simp] theorem State.presenceExpiry_still (s : State) : (State.presenceExpiry s).still = s.still := by
  unfold State.presenceExpiry; split <;> simp

@[simp] theorem State.ownerReleaseHold_still (s : State) : (State.ownerReleaseHold s).still = s.still := by
  unfold State.ownerReleaseHold; dsimp only; (repeat' split) <;> first | rfl | (simp; done) | (simp; rfl)

@[simp] theorem State.sampleLine_still (a0 : Bool) (s : State) : (State.sampleLine a0 s).still = s.still := rfl

@[simp] theorem State.lifecycleDescribe_still (a0 : Card) (s : State) : (State.lifecycleDescribe a0 s).still = s.still := by
  unfold State.lifecycleDescribe; split <;> simp

@[simp] theorem State.identityDescribe_still (a0 : Card) (s : State) : (State.identityDescribe a0 s).still = s.still := by
  unfold State.identityDescribe; dsimp only; (repeat' split) <;> first | rfl | simp

@[simp] theorem State.lifeGate_still (a0 : Bool) (s : State) : (State.lifeGate a0 s).still = s.still := by
  unfold State.lifeGate; (repeat' split) <;> simp

@[simp] theorem State.lifeCurveEnd_still (a0 : Scalar) (a1 : PublicKey) (s : State) :
    (State.lifeCurveEnd a0 a1 s).still = s.still := by
  unfold State.lifeCurveEnd; (repeat' split) <;> simp

@[simp] theorem State.lifeInstallAnswer_still (a0 : Bool) (s : State) : (State.lifeInstallAnswer a0 s).still = s.still := by
  unfold State.lifeInstallAnswer; (repeat' split) <;> simp

@[simp] theorem State.lifePairingAnswer_still (a0 : CardOutcome) (a1 : List OutByte) (s : State) :
    (State.lifePairingAnswer a0 a1 s).still = s.still := by
  unfold State.lifePairingAnswer; (repeat' split) <;> simp

@[simp] theorem State.lifeWriteEnd_still (a0 : Bool) (s : State) : (State.lifeWriteEnd a0 s).still = s.still := by
  unfold State.lifeWriteEnd; (repeat' split) <;> first | rfl | (simp; done) | (simp; rfl)

@[simp] theorem State.lifeAbandon_still (s : State) : (State.lifeAbandon s).still = s.still := by
  unfold State.lifeAbandon; (repeat' split) <;> first | rfl | simp

@[simp] theorem State.beginCustody_still (a0 : Word16) (a1 : Card → State → State) (s : State) (ha1 : ∀ x0 t, (a1 x0 t).still = t.still) :
    (State.beginCustody a0 a1 s).still = s.still := by
  unfold State.beginCustody; (repeat' split) <;> first | rfl | (simp [ha1]; done) | (simp [ha1]; rfl)

@[simp] theorem State.custodyStage_still (a0 : CustodyStage) (s : State) : (State.custodyStage a0 s).still = s.still := rfl

@[simp] theorem State.custodyCommit_still (s : State) : (State.custodyCommit s).still = s.still := rfl

@[simp] theorem State.custodyHandBack_still (a0 : CardOutcome) (a1 : Option Word32) (a2 : List OutByte) (s : State) :
    (State.custodyHandBack a0 a1 a2 s).still = s.still := by
  unfold State.custodyHandBack; (repeat' split) <;> first | rfl | (simp; done) | (simp; rfl)

@[simp] theorem State.takeBackUse_still (s : State) : (State.takeBackUse s).still = s.still := rfl

@[simp] theorem State.custodyGiveUp_still (s : State) : (State.custodyGiveUp s).still = s.still := by
  simp [State.custodyGiveUp]

@[simp] theorem State.custodyBad_still (a0 : ℕ) (s : State) : (State.custodyBad a0 s).still = s.still := by
  simp [State.custodyBad]

@[simp] theorem State.custodyRefuse_still (a0 : CardOutcome) (s : State) : (State.custodyRefuse a0 s).still = s.still := by
  simp [State.custodyRefuse]

@[simp] theorem State.custodyRefuseSlot_still (a0 : CardOutcome) (a1 : Fin 48) (s : State) :
    (State.custodyRefuseSlot a0 a1 s).still = s.still := by simp [State.custodyRefuseSlot]

@[simp] theorem State.custodyPlace_still (a0 : Fin 48) (a1 : Option KeyRecord) (a2 : Option Word32) (a3 : Option Word32)
    (a4 : List OutByte) (s : State) :
    (State.custodyPlace a0 a1 a2 a3 a4 s).still = s.still := by
  unfold State.custodyPlace; split <;> simp

@[simp] theorem State.custodyThen_still (a0 : CustodyThen) (s : State) : (State.custodyThen a0 s).still = s.still := by
  unfold State.custodyThen; split <;> simp

@[simp] theorem State.custodyCommitCounted_still (a0 : Fin 48) (s : State) :
    (State.custodyCommitCounted a0 s).still = s.still := by
  unfold State.custodyCommitCounted; split <;> simp

@[simp] theorem State.completeUse_still (a0 : Fin 48) (a1 : Option Word32) (a2 : CustodyThen) (s : State) :
    (State.completeUse a0 a1 a2 s).still = s.still := by
  unfold State.completeUse; (repeat' split) <;> first | rfl | (simp; done) | (simp; rfl)

@[simp] theorem State.useCheck_still (a0 : KeyUse) (a1 : Fin 48) (a2 : State → State) (s : State) (ha2 : ∀ t, (a2 t).still = t.still) :
    (State.useCheck a0 a1 a2 s).still = s.still := by
  unfold State.useCheck; (repeat' split) <;> simp [ha2]

@[simp] theorem State.custodyGate_still (a0 : State → State) (s : State) (ha0 : ∀ t, (a0 t).still = t.still) :
    (State.custodyGate a0 s).still = s.still := by
  unfold State.custodyGate; split <;> simp [ha0]

@[simp] theorem State.generated_still (a0 : Card) (a1 : KeyMaterial) (a2 : List OutByte) (s : State) :
    (State.generated a0 a1 a2 s).still = s.still := by simp [State.generated]

@[simp] theorem State.generateAfterGate_still (a0 : Card) (s : State) : (State.generateAfterGate a0 s).still = s.still := by
  unfold State.generateAfterGate; (repeat' split) <;> simp

@[simp] theorem State.creationChecks_still (a0 : CreateFields) (a1 : ℕ) (a2 : State → State)
    (s : State) (ha2 : ∀ t, (a2 t).still = t.still) :
    (State.creationChecks a0 a1 a2 s).still = s.still := by
  unfold State.creationChecks; (repeat' split) <;> simp [ha2]

@[simp] theorem State.keyGenerate_still (a0 : Card) (s : State) : (State.keyGenerate a0 s).still = s.still := by
  unfold State.keyGenerate; split <;> simp

@[simp] theorem State.importRead_still (a0 : Card) (s : State) : (State.importRead a0 s).still = s.still := by
  unfold State.importRead; split <;> simp

@[simp] theorem State.keyImport_still (a0 : Card) (s : State) : (State.keyImport a0 s).still = s.still := by
  unfold State.keyImport
  split
  · simp
  · apply State.creationChecks_still
    intro t
    split
    · simp
    · exact State.useCheck_still _ _ _ _ (by simp)

@[simp] theorem State.importBlob_still (a0 : Card) (a1 : List Byte) (s : State) : (State.importBlob a0 a1 s).still = s.still := by
  unfold State.importBlob
  split <;> simp

@[simp] theorem State.signStart_still (a0 : Card) (s : State) : (State.signStart a0 s).still = s.still := rfl

@[simp] theorem State.keySign_still (a0 : Card) (s : State) : (State.keySign a0 s).still = s.still := by
  unfold State.keySign
  split
  · simp
  · exact State.useCheck_still _ _ _ _ (by simp)

@[simp] theorem State.macStart_still (a0 : Card) (s : State) : (State.macStart a0 s).still = s.still := rfl

@[simp] theorem State.keyMac_still (a0 : Card) (s : State) : (State.keyMac a0 s).still = s.still := by
  unfold State.keyMac
  split
  · simp
  · exact State.useCheck_still _ _ _ _ (by simp)

@[simp] theorem State.wrapSeal_still (a0 : Card) (s : State) : (State.wrapSeal a0 s).still = s.still := by simp [State.wrapSeal]

@[simp] theorem State.wrapSource_still (a0 : Card) (s : State) : (State.wrapSource a0 s).still = s.still := by
  unfold State.wrapSource; split <;> simp

@[simp] theorem State.wrapWrapping_still (a0 : Card) (s : State) : (State.wrapWrapping a0 s).still = s.still := by
  simp [State.wrapWrapping]

@[simp] theorem State.keyWrapOut_still (a0 : Card) (s : State) : (State.keyWrapOut a0 s).still = s.still := by
  unfold State.keyWrapOut; (repeat' split) <;> simp

@[simp] theorem State.drawAfterGate_still (a0 : Card) (s : State) : (State.drawAfterGate a0 s).still = s.still := by
  simp [State.drawAfterGate]

@[simp] theorem State.drawRandom_still (a0 : Card) (s : State) : (State.drawRandom a0 s).still = s.still := by
  unfold State.drawRandom; split <;> simp

@[simp] theorem State.keySetAttributes_still (a0 : Card) (s : State) : (State.keySetAttributes a0 s).still = s.still := by
  unfold State.keySetAttributes; dsimp only; (repeat' split) <;> first | rfl | simp

@[simp] theorem State.keyFinalize_still (a0 : Card) (s : State) : (State.keyFinalize a0 s).still = s.still := by
  unfold State.keyFinalize; (repeat' split) <;> simp

@[simp] theorem State.keyErase_still (a0 : Card) (s : State) : (State.keyErase a0 s).still = s.still := by
  unfold State.keyErase; (repeat' split) <;> simp

@[simp] theorem State.keyDescribe_still (a0 : Card) (s : State) : (State.keyDescribe a0 s).still = s.still := by
  unfold State.keyDescribe; repeat' split <;> simp

@[simp] theorem State.custodyGateAnswer_still (a0 : Bool) (s : State) : (State.custodyGateAnswer a0 s).still = s.still := by
  unfold State.custodyGateAnswer; (repeat' split) <;> simp

@[simp] theorem State.custodyBindingAnswer_still (a0 : Bool) (s : State) : (State.custodyBindingAnswer a0 s).still = s.still := by
  unfold State.custodyBindingAnswer; (repeat' split) <;> simp

@[simp] theorem State.custodySigned_still (a0 : Signature) (s : State) : (State.custodySigned a0 s).still = s.still := by
  unfold State.custodySigned; (repeat' split) <;> simp

@[simp] theorem State.custodyKeyPair_still (a0 : Scalar) (a1 : PublicKey) (s : State) :
    (State.custodyKeyPair a0 a1 s).still = s.still := by
  unfold State.custodyKeyPair; (repeat' split) <;> simp

@[simp] theorem State.custodyHashEnd_still (a0 : Digest) (s : State) : (State.custodyHashEnd a0 s).still = s.still := by
  unfold State.custodyHashEnd; (repeat' split) <;> simp

@[simp] theorem State.custodyHashFault_still (a0 : ℕ) (s : State) : (State.custodyHashFault a0 s).still = s.still := by
  unfold State.custodyHashFault; (repeat' split) <;> simp

@[simp] theorem State.custodyHashWithdrawn_still (s : State) : (State.custodyHashWithdrawn s).still = s.still := by
  unfold State.custodyHashWithdrawn; (repeat' split) <;> simp

@[simp] theorem State.custodyWriteEnd_still (a0 : Bool) (s : State) : (State.custodyWriteEnd a0 s).still = s.still := by
  unfold State.custodyWriteEnd; (repeat' split) <;> simp

@[simp] theorem State.installationRequest_still (s : State) : (State.installationRequest s).still = s.still := by
  unfold State.installationRequest; (repeat' split) <;> first | rfl | (simp; done) | (simp; rfl)

@[simp] theorem State.removalRequest_still (s : State) : (State.removalRequest s).still = s.still := by
  unfold State.removalRequest; (repeat' split) <;> first | rfl | (simp; done) | (simp; rfl)

@[simp] theorem State.eraseSlots_still (l : List (Fin 32)) (s : State) : (State.eraseSlots l s).still = s.still :=
  State.foldl_still _ (by intros; simp) l s

@[simp] theorem State.answerCustodyWipe_still (a0 : WipeTally) (s : State) : (State.answerCustodyWipe a0 s).still = s.still := rfl

@[simp] theorem State.custodyWipeOrder_still (s : State) : (State.custodyWipeOrder s).still = s.still := by
  unfold State.custodyWipeOrder
  split
  · split
    · dsimp only
      split
      · exact (State.answerCustodyWipe_still _ _).trans (State.eraseSlots_still _ _)
      · exact (State.send_still _ _ _).trans (State.eraseSlots_still _ _)
    · rfl
  · rfl

@[simp] theorem State.custodyRequestEnd_still (a0 : Bool) (s : State) : (State.custodyRequestEnd a0 s).still = s.still := by
  unfold State.custodyRequestEnd; (repeat' split) <;> first | rfl | (simp; done) | (simp; rfl)

@[simp] theorem State.custodyWipeEnd_still (a0 : Bool) (s : State) : (State.custodyWipeEnd a0 s).still = s.still := by
  unfold State.custodyWipeEnd; (repeat' split) <;> first | rfl | simp

@[simp] theorem State.custodyAbandon_still (s : State) : (State.custodyAbandon s).still = s.still := by
  unfold State.custodyAbandon; (repeat' split) <;> first | rfl | simp

@[simp] theorem State.beginCred_still (a0 : Word16) (a1 : Card → State → State) (s : State) (ha1 : ∀ x0 t, (a1 x0 t).still = t.still) :
    (State.beginCred a0 a1 s).still = s.still := by
  unfold State.beginCred; (repeat' split) <;> first | rfl | (simp [ha1]; done) | (simp [ha1]; rfl)

@[simp] theorem State.credStage_still (a0 : CredStage) (s : State) : (State.credStage a0 s).still = s.still := rfl

@[simp] theorem State.credCommit_still (s : State) : (State.credCommit s).still = s.still := rfl

@[simp] theorem State.credBad_still (a0 : ℕ) (s : State) : (State.credBad a0 s).still = s.still := by simp [State.credBad]

@[simp] theorem State.credRefuse_still (a0 : CardOutcome) (s : State) : (State.credRefuse a0 s).still = s.still := by
  simp [State.credRefuse]

@[simp] theorem State.credWrite_still (a0 : Fin 32) (a1 : Option CredRecord) (a2 : WriteTo) (a3 : CredStage) (s : State) :
    (State.credWrite a0 a1 a2 a3 s).still = s.still := by simp [State.credWrite]

@[simp] theorem State.onRecord_still (a0 : Card) (a1 : CredEntry → State → State) (s : State) (ha1 : ∀ x0 t, (a1 x0 t).still = t.still) :
    (State.onRecord a0 a1 s).still = s.still := by
  unfold State.onRecord; (repeat' split) <;> simp [ha1]

@[simp] theorem State.startAttempt_still (a0 : Card) (a1 : Fin 32) (a2 : CredEntry) (a3 : Option Salt) (s : State) :
    (State.startAttempt a0 a1 a2 a3 s).still = s.still := rfl

@[simp] theorem State.attempt_still (a0 : Card) (a1 : Fin 32) (a2 : Option Salt) (s : State) :
    (State.attempt a0 a1 a2 s).still = s.still := by
  unfold State.attempt; (repeat' split) <;> simp

@[simp] theorem State.replaceDraw_still (a0 : Card) (a1 : CredEntry) (a2 : Option (ℕ × Word32)) (s : State) :
    (State.replaceDraw a0 a1 a2 s).still = s.still := rfl

@[simp] theorem State.compared_still (a0 : Card) (a1 : Fin 32) (a2 : ℕ) (a3 : Word32) (a4 : Option Salt) (a5 : Digest) (s : State) :
    (State.compared a0 a1 a2 a3 a4 a5 s).still = s.still := by
  unfold State.compared; repeat' split <;> simp

@[simp] theorem State.claimHash_still (a0 : Card) (a1 : Salt) (a2 : ℕ) (s : State) :
    (State.claimHash a0 a1 a2 s).still = s.still := rfl

@[simp] theorem State.attemptWritten_still (a0 : Card) (a1 : Fin 32) (a2 : CredRecord) (a3 : Bool) (a4 : Option Salt)
    (a5 : Bool) (s : State) :
    (State.attemptWritten a0 a1 a2 a3 a4 a5 s).still = s.still := by
  unfold State.attemptWritten; (repeat' split) <;> simp

@[simp] theorem State.credVerify_still (a0 : Card) (s : State) : (State.credVerify a0 s).still = s.still := by
  unfold State.credVerify; split <;> simp

@[simp] theorem State.enrolAfterGate_still (a0 : Card) (s : State) : (State.enrolAfterGate a0 s).still = s.still := by
  unfold State.enrolAfterGate; dsimp only; (repeat' split) <;> first | rfl | simp

@[simp] theorem State.credGate_still (a0 : State → State) (s : State) (ha0 : ∀ t, (a0 t).still = t.still) :
    (State.credGate a0 s).still = s.still := by
  unfold State.credGate; split <;> simp [ha0]

@[simp] theorem State.credEnroll_still (a0 : Card) (s : State) : (State.credEnroll a0 s).still = s.still := by
  unfold State.credEnroll; dsimp only; (repeat' split) <;> first | rfl | simp

@[simp] theorem State.enrolHashed_still (a0 : Card) (a1 : Salt) (a2 : Option SealedSecret) (a3 : Digest) (s : State) :
    (State.enrolHashed a0 a1 a2 a3 s).still = s.still := by
  unfold State.enrolHashed; split <;> simp

@[simp] theorem State.claimHashed_still (a0 : Card) (a1 : Salt) (a2 : ℕ) (a3 : Digest) (s : State) :
    (State.claimHashed a0 a1 a2 a3 s).still = s.still := by
  unfold State.claimHashed; split <;> simp

@[simp] theorem State.releaseSecret_still (a0 : CredEntry) (s : State) : (State.releaseSecret a0 s).still = s.still := by
  simp [State.releaseSecret]

@[simp] theorem State.credRelease_still (a0 : Card) (s : State) : (State.credRelease a0 s).still = s.still := by
  unfold State.credRelease
  split
  · simp
  · apply State.onRecord_still
    intro e t
    (repeat' split) <;> simp

@[simp] theorem State.replaceAfterGate_still (a0 : Card) (s : State) : (State.replaceAfterGate a0 s).still = s.still := by
  unfold State.replaceAfterGate; (repeat' split) <;> simp

@[simp] theorem State.credReplace_still (a0 : Card) (s : State) : (State.credReplace a0 s).still = s.still := by
  unfold State.credReplace
  split
  · simp
  · apply State.onRecord_still
    intro e t
    (repeat' split) <;> simp

@[simp] theorem State.replaceHashed_still (a0 : Fin 32) (a1 : Salt) (a2 : Option SealedSecret) (a3 : Option (ℕ × Word32))
    (a4 : Digest) (s : State) :
    (State.replaceHashed a0 a1 a2 a3 a4 s).still = s.still := by
  unfold State.replaceHashed; split <;> simp

@[simp] theorem State.credRemove_still (a0 : Card) (s : State) : (State.credRemove a0 s).still = s.still := by
  unfold State.credRemove
  split
  · simp
  · apply State.onRecord_still
    intro e t
    (repeat' split) <;> simp

@[simp] theorem State.credDescribe_still (a0 : Card) (s : State) : (State.credDescribe a0 s).still = s.still := by
  unfold State.credDescribe; split <;> simp

@[simp] theorem State.decayAll_still (s : State) : (State.decayAll s).still = s.still := by
  unfold State.decayAll; (repeat' split) <;> first | rfl | simp

@[simp] theorem State.emptyPlaces_still (l : List (Fin 32)) (s : State) : (State.emptyPlaces l s).still = s.still :=
  State.foldl_still _ (by intros; simp) l s

@[simp] theorem State.answerCredWipe_still (a0 : WipeTally) (s : State) : (State.answerCredWipe a0 s).still = s.still := rfl

@[simp] theorem State.credentialWipeOrder_still (s : State) : (State.credentialWipeOrder s).still = s.still := by
  unfold State.credentialWipeOrder
  split
  · split
    · dsimp only
      split
      · exact (State.answerCredWipe_still _ _).trans (State.emptyPlaces_still _ _)
      · exact (State.send_still _ _ _).trans (State.emptyPlaces_still _ _)
    · rfl
  · rfl

@[simp] theorem State.credWipeEnd_still (a0 : Bool) (s : State) : (State.credWipeEnd a0 s).still = s.still := by
  unfold State.credWipeEnd; (repeat' split) <;> first | rfl | simp

@[simp] theorem State.credService_still (a0 : Option CredService) (s : State) : (State.credService a0 s).still = s.still := rfl

@[simp] theorem State.pairingDraw_still (a0 : List Byte) (a1 : List Byte) (a2 : Policy) (s : State) :
    (State.pairingDraw a0 a1 a2 s).still = s.still := rfl

@[simp] theorem State.pairingRequest_still (s : State) : (State.pairingRequest s).still = s.still := by
  unfold State.pairingRequest; dsimp only; (repeat' split) <;> first | rfl | (simp; done) | (simp; rfl)

@[simp] theorem State.pairingHashed_still (a0 : Salt) (a1 : List Byte) (a2 : Policy) (a3 : Digest) (s : State) :
    (State.pairingHashed a0 a1 a2 a3 s).still = s.still := by simp [State.pairingHashed]

@[simp] theorem State.pairingEnd_still (a0 : Bool) (s : State) : (State.pairingEnd a0 s).still = s.still := by
  unfold State.pairingEnd; repeat' split <;> simp

@[simp] theorem State.credGateAnswer_still (a0 : Bool) (s : State) : (State.credGateAnswer a0 s).still = s.still := by
  unfold State.credGateAnswer; (repeat' split) <;> simp

@[simp] theorem State.credBindingAnswer_still (a0 : Bool) (s : State) : (State.credBindingAnswer a0 s).still = s.still := by
  unfold State.credBindingAnswer; (repeat' split) <;> simp

@[simp] theorem State.credHashEnd_still (a0 : Digest) (s : State) : (State.credHashEnd a0 s).still = s.still := by
  unfold State.credHashEnd; (repeat' split) <;> simp

@[simp] theorem State.credHashWithdrawn_still (s : State) : (State.credHashWithdrawn s).still = s.still := by
  unfold State.credHashWithdrawn; (repeat' split) <;> simp

@[simp] theorem State.credWriteEnd_still (a0 : Write) (a1 : Bool) (s : State) : (State.credWriteEnd a0 a1 s).still = s.still := by
  unfold State.credWriteEnd; (repeat' split) <;> simp

@[simp] theorem State.refreshEnd_still (a0 : Write) (a1 : Bool) (s : State) : (State.refreshEnd a0 a1 s).still = s.still := by
  unfold State.refreshEnd; repeat' split <;> simp

@[simp] theorem State.credWriteOver_still (a0 : Write) (s : State) : (State.credWriteOver a0 s).still = s.still := by
  unfold State.credWriteOver; split <;> simp

@[simp] theorem State.resumeAttempt_still (s : State) : (State.resumeAttempt s).still = s.still := by
  unfold State.resumeAttempt; (repeat' split) <;> simp

@[simp] theorem State.presenceRequest_still (s : State) : (State.presenceRequest s).still = s.still := by
  unfold State.presenceRequest; repeat' split <;> simp

@[simp] theorem State.claimRequest_still (s : State) : (State.claimRequest s).still = s.still := by
  unfold State.claimRequest; (repeat' split) <;> first | rfl | (simp; done) | (simp; rfl)

@[simp] theorem State.claimEnd_still (a0 : Bool) (s : State) : (State.claimEnd a0 s).still = s.still := by
  unfold State.claimEnd; dsimp only; (repeat' split) <;> first | rfl | (simp; done) | (simp; rfl)

@[simp] theorem State.credAbandon_still (s : State) : (State.credAbandon s).still = s.still := by
  unfold State.credAbandon; (repeat' split) <;> first | rfl | simp

@[simp] theorem State.beginMeasure_still (a0 : Word16) (a1 : Card → State → State) (s : State) (ha1 : ∀ x0 t, (a1 x0 t).still = t.still) :
    (State.beginMeasure a0 a1 s).still = s.still := by
  unfold State.beginMeasure; (repeat' split) <;> first | rfl | (simp [ha1]; done) | (simp [ha1]; rfl)

@[simp] theorem State.measureStage_still (a0 : MeasureStage) (s : State) : (State.measureStage a0 s).still = s.still := rfl

@[simp] theorem State.measureHandBack_still (a0 : CardOutcome) (a1 : Option Word32) (a2 : List OutByte) (s : State) :
    (State.measureHandBack a0 a1 a2 s).still = s.still := by
  unfold State.measureHandBack; (repeat' split) <;> first | rfl | (simp; done) | (simp; rfl)

@[simp] theorem State.measureBad_still (a0 : ℕ) (s : State) : (State.measureBad a0 s).still = s.still := by
  simp [State.measureBad]

@[simp] theorem State.measureRefuse_still (a0 : CardOutcome) (s : State) : (State.measureRefuse a0 s).still = s.still := by
  simp [State.measureRefuse]

@[simp] theorem State.extend_still (a0 : Card) (s : State) : (State.extend a0 s).still = s.still := by
  unfold State.extend; (repeat' split) <;> simp

@[simp] theorem State.readChains_still (a0 : Card) (s : State) : (State.readChains a0 s).still = s.still := by
  unfold State.readChains; split <;> simp

@[simp] theorem State.readRecords_still (a0 : Card) (s : State) : (State.readRecords a0 s).still = s.still := by
  unfold State.readRecords; repeat' split <;> simp

@[simp] theorem State.quoteSigned_still (a0 : List Byte) (a1 : ℕ) (a2 : Signature) (s : State) :
    (State.quoteSigned a0 a1 a2 s).still = s.still := rfl

@[simp] theorem State.resumeMeasure_still (s : State) : (State.resumeMeasure s).still = s.still := by
  unfold State.resumeMeasure; (repeat' split) <;> first | rfl | simp

@[simp] theorem State.holdWaitingJob_still (s : State) : (State.holdWaitingJob s).still = s.still := by
  unfold State.holdWaitingJob; split <;> rfl

@[simp] theorem State.requestsArrive_still (s : State) : (State.requestsArrive s).still = s.still := by
  simp [State.requestsArrive]

@[simp] theorem State.endService_still (s : State) : (State.endService s).still = s.still := by
  unfold State.endService; (repeat' split) <;> first | rfl | (simp; done) | (simp; rfl)

@[simp] theorem State.answerCheck_still (a0 : Checker) (a1 : Bool) (s : State) : (State.answerCheck a0 a1 s).still = s.still := by
  unfold State.answerCheck; repeat' split <;> simp

@[simp] theorem State.measureService_still (a0 : MeasureService) (s : State) : (State.measureService a0 s).still = s.still := rfl

@[simp] theorem State.serveEvent_still (s : State) : (State.serveEvent s).still = s.still := by
  unfold State.serveEvent; split <;> simp

@[simp] theorem State.serveCheck_still (s : State) : (State.serveCheck s).still = s.still := by
  unfold State.serveCheck; dsimp only; (repeat' split) <;> simp

@[simp] theorem State.serveChainRead_still (s : State) : (State.serveChainRead s).still = s.still := by
  unfold State.serveChainRead; repeat' split <;> simp

@[simp] theorem State.pauseOr_still (a0 : MeasureResume) (a1 : State → State) (s : State) (ha1 : ∀ t, (a1 t).still = t.still) :
    (State.pauseOr a0 a1 s).still = s.still := by
  unfold State.pauseOr; (repeat' split) <;> first | rfl | simp [ha1]

@[simp] theorem State.measureHashPiece_still (a0 : HashJob) (s : State) : (State.measureHashPiece a0 s).still = s.still := by
  unfold State.measureHashPiece; (repeat' split) <;> first | rfl | simp

@[simp] theorem State.measureHashWithdrawn_still (s : State) : (State.measureHashWithdrawn s).still = s.still := by
  unfold State.measureHashWithdrawn; (repeat' split) <;> simp

@[simp] theorem State.measureCurveEnd_still (a0 : Signature) (s : State) : (State.measureCurveEnd a0 s).still = s.still := by
  unfold State.measureCurveEnd; (repeat' split) <;> first | rfl | simp

@[simp] theorem State.measureAbandon_still (s : State) : (State.measureAbandon s).still = s.still := by
  unfold State.measureAbandon; (repeat' split) <;> first | rfl | simp

@[simp] theorem State.startStep1_still (s : State) : (State.startStep1 s).still = s.still := rfl

@[simp] theorem State.startStep2_still (s : State) : s.startStep2.still = s.still := by
  simp [State.startStep2, State.still]

@[simp] theorem State.startStep3_still (s : State) : (State.startStep3 s).still = s.still := rfl

@[simp] theorem State.startStep4_still (s : State) : (State.startStep4 s).still = s.still := rfl

@[simp] theorem State.atStep_still (a0 : StartUp) (s : State) : (State.atStep a0 s).still = s.still := rfl

@[simp] theorem State.startStep8_still (s : State) : s.startStep8.still = s.still := by
  have h (t : State) : (if t.exch.fetcher = .waitingStartUp then { t with exch := { t.exch with fetcher := .reading } } else t).still
      = t.still := by split <;> rfl
  have h' (t : State) : (if t.store.startUpFault then ({ t with store := { t.store with startUpFault := false } }).ask .storeFault
      else t).still = t.still := by
    split
    · exact State.ask_still _ _
    · rfl
  exact (h' _).trans ((h _).trans rfl)

@[simp] theorem State.startStep7_still (s : State) : (State.startStep7 s).still = s.still := by
  unfold State.startStep7; split <;> simp

@[simp] theorem State.startStep6_still (s : State) : (State.startStep6 s).still = s.still := rfl

@[simp] theorem State.startUpGoesOn_still (s : State) : (State.startUpGoesOn s).still = s.still := by
  unfold State.startUpGoesOn; (repeat' split) <;> simp

end Sys2Proof.Machine
end

