-- ==== Sys2Proof/Tests/Slice0.lean ====
section
/-! SUPPORT. The tests: ill-formed commands that the check refuses, results that the manual states in its own worked tables, and, for each
statement with hypotheses, states and operands that meet them. -/
namespace Sys2Proof.Tests

open Sys2Proof.Machine

set_option Elab.async false

/-- Bytes padded with zeros. -/
def pad (n : Nat) (l : List Byte) : List Byte := l ++ List.replicate (n - l.length) 0#8

/-- A card with its head parameters, its body and its extents; number 3, ticket 7. -/
def card (code : Word16) (params body : List Byte) (extents : List (Nat × Nat)) : Card :=
  { take := 0, num := 3, ticket := 7#16, code := code
    bytes := [1#8, 0#8, 7#8, 0#8] ++ leBytes 2 code.toNat ++ [byteOf extents.length, 0#8] ++ pad 8 params
      ++ pad (160 - 16 * extents.length) body ++ extents.flatMap (fun e => leBytes 8 e.1 ++ leBytes 8 e.2) ++ List.replicate 80 0#8 }

/-- The part after start-up, with the area OPEN and the census HEALTHY. -/
def up : State :=
  { State.reset with
    exch := { Exchange.reset with area := .opened, cards := 8, fetcher := .reading, base := 0x1000#64, enable := true, takes := 5 }
    measure := { Measure.reset with starting := false }
    census := { Census.reset with state := .healthy }
    startUp := .ended }

/-- The same with a card in a unit's queue. -/
def queued (u : UnitName) (c : Card) (s : State) : State :=
  { s with exch := { s.exch with buffers := [{ card := c, unit := some u, phase := .waiting }] } }

/-- The same with a card of a unit in work. -/
def begun (u : UnitName) (c : Card) (s : State) : State :=
  { s with exch := { s.exch with buffers := [{ card := c, unit := some u, phase := .begun }] } }

/-- The same CLAIMED, with presence open. -/
def owned (s : State) : State :=
  { s with lifecycle := { s.lifecycle with effective := .claimed, requested := .claimed, presence := some 1200#32 } }

def unclaimed (s : State) : State := { s with lifecycle := { s.lifecycle with effective := .unclaimed, requested := .unclaimed } }

/-- All capabilities of an algorithm, exportable. -/
def flagsFor (sign mac wrap : Bool) : KeyFlags :=
    { sign := sign, mac := mac, wrap := wrap, exportable := true, needsPresence := false }

def key (cls : KeyClass) (m : KeyMaterial) (f : KeyFlags) : KeyRecord :=
  { state := .live, cls := cls, material := m, flags := f, binding := none, limit := none, total := 0, label := [], anchor := none }

def signKey : KeyRecord := key .session (.p256 (some 5#256) 9#512) (flagsFor true false false)

def macKey : KeyRecord := key .session (.hmac256 5#256) (flagsFor false true false)

def wrapKey : KeyRecord := key .session (.wrap256 5#256) (flagsFor false false true)

def delegate : KeyRecord :=
    { key .delegate (.p256 none 9#512) KeyFlags.none with anchor := some { kinds := 0xFF#8, serial := some 4#32 } }

def trial (signer : SignerClass) : Trial := { version := 6, digest := 3#256, signer := signer, boots := 2 }

def onTrial (signer : SignerClass) : KindRecord := { floor := 5, confirmed := none, trial := some (trial signer) }

def ownerRecord (kind : CredKind) (secret : Option SealedSecret) : CredRecord :=
  { kind := kind, cls := .owner, label := [], salt := 1#128, verifier := 2#256, secret := secret, binding := none
    policy := { charge := 4096, decay := 65000, lock := 40000 }, debt := 1024, saturated := false, failures := 0, lastTick := 0#32 }

def entry (r : CredRecord) : CredEntry := CredEntry.placed r

/-- A piece of a unit's job runs after start-up, with nothing withdrawn. -/
abbrev pieceRuns (s : State) (who : HashClient) (j : HashJob) : Prop :=
  s.powered = true ∧ s.startUp = .ended ∧ s.hash.running = some { client := who, job := j, withdrawn := false }

/-- A job over extents. -/
def extentJob (fn : HashFunction) (before : List Byte) (l : List (Nat × Word64 × Nat)) (final : Bool) : HashJob :=
  { fn := fn, absorbed := before, source := .extents l, finalize := final }

/-! ## Ill-formed commands are refused by the check -/

def tooHigh : HostWrites := [(2 ^ 64, 1#8)]

/-- A host store beyond the 64-bit address space is refused in each row that carries host stores; one at its top is not (R191). -/
theorem test_wf_host_address : (Instr.areaOpen true tooHigh .both).wf = false ∧ (Instr.readingPass tooHigh).wf = false
    ∧ (Instr.cardTake tooHigh).wf = false ∧ (Instr.hashPieceEnd tooHigh true).wf = false
    ∧ (Instr.extentDmaEnd .update tooHigh .answered).wf = false ∧ (Instr.areaFaulted ⟨.headRead, tooHigh⟩ true).wf = false
        ∧ (Instr.readingPass [(2 ^ 64 - 1, 1#8)]).wf = true := by decide +kernel

/-- A window that no counter ended was ended by the bound, and one that a counter ended was not (R149). -/
theorem test_wf_census_window : (Instr.censusRunEnd 254#8 223#8 250#8 false []).wf = false
    ∧ (Instr.censusRunEnd 255#8 223#8 250#8 true []).wf = false ∧ (Instr.censusRunEnd 255#8 223#8 250#8 false []).wf = true := by
  decide

/-- An offset between two registers is no operand of REGISTER_WRITE, and a register with rows of its own is one (R189). -/
theorem test_wf_register : (Instr.registerWrite 0x02#5 1#32).wf = false ∧ (Instr.registerWrite 0x0F#5 1#32).wf = false
    ∧ (Instr.registerWrite 0x08#5 1#32).wf = true ∧ (Instr.registerWrite 0x14#5 1#32).wf = true := by decide

/-- No row of the table gives bits, so no word spells a command. -/
theorem test_no_word_spells_a_command : Sys2Proof.decodeTableWord 16 0x0101 = none := by decide

/-! ## Results that the manual states itself -/

/-- The manual's run of guesses: debts after each attempt and decay step, and the spacing after it (section 5.4). -/
theorem test_guesses : debtAfterMismatch 21000 12000 = 33000 ∧ decayed 24000 57344 = 21000 ∧ decayed 33000 57344 = 28875
    ∧ decayed 40875 57344 = 35766 ∧ debtAfterMatch 35766 = 8941 ∧ spacing 21000 = 41 ∧ spacing 40875 = 79 ∧ spacing 8941
        = 17 := by decide

/-- The manual's admissions of attempts 3, 5, 6 and 7. -/
theorem test_admissions : admission 131#32 21000 40000 90#32 = .admitted ∧ admission 200#32 40875 40000 195#32 = .throttled
    ∧ admission 262#32 35766 40000 195#32 = .tooSoon 2 ∧ admission 264#32 35766 40000 195#32 = .admitted := by decide

/-- The manual's limit cases of decay and saturation. -/
theorem test_decay_limits : decayed 3 65535 = 2 ∧ decayed 65535 65535 = 65534 ∧ decayed 65535 32768 = 32768 ∧ decayed 1 32768 = 0
    ∧ decayed 20000 49152 = 15000 ∧ decayed 17500 57344 = 15313 ∧ debtAfterMismatch 60000 12000 = 65535 := by decide

/-- The seven rows of the manual's band table (section 8.3). -/
theorem test_census_band : censusPasses 255#8 221#8 247#8 false = true ∧ censusPasses 255#8 219#8 231#8 false = false
    ∧ censusPasses 238#8 224#8 255#8 false = false ∧ censusPasses 255#8 205#8 252#8 false = false
    ∧ censusPasses 249#8 255#8 243#8 false = false ∧ censusPasses 255#8 238#8 240#8 false = true
    ∧ censusPasses 255#8 223#8 3#8 false = false := by decide

/-- The hash engine's part of the manual's shared feed: after the update unit's piece the measure unit is served before the credential unit,
and after the custody unit's piece the update unit (section 7.4). -/
theorem test_rotation :
    let e : HashEngine := { running := some { client := .update, job := shaJob [9#8], withdrawn := false }, pointer := .update
                            measure := some (shaJob [1#8]), credential := some (shaJob [2#8]), custody := some (shaJob [3#8]),
                                update := none }
    e.release.running.map (·.client) = some .measure ∧ e.release.release.running.map (·.client) = some .credential
      ∧ e.release.release.release.running.map (·.client) = some .custody := by decide +kernel

/-- The manual's commit write that needs a spare: the alternate fails, the spare takes the record with generation 42, and one spare fewer is
left (section 9.7). -/
theorem test_spare_write :
    let h1 : Spot KindRecord := { loc := .home 76 false, copy := some { value := none, gen := 41#32, intact := true } }
    let h2 : Spot KindRecord := { loc := .home 76 true, copy := some { value := none, gen := 40#32, intact := true } }
    let r := Cells.program { current := h1, alternate := some h2 } (some (onTrial .owner)) { spares := 64, retired := [] } false true
    r.2.2 = true ∧ r.2.1 = { spares := 63, retired := [.home 76 true] } ∧ r.1.alternate = some h1
      ∧ r.1.current.copy.map (·.gen) = some 42#32 := by decide +kernel

/-- The window reads zero while the reset line is asserted, and STATUS names the area's state otherwise (R169, R189). -/
theorem test_registers_under_reset : ({ up with resetLine := true }).readRegister 0x0C#5 = 0#32
    ∧ (up.readRegister 0x14#5) ≠ 0#32 := by
  decide +kernel

/-- A 64-byte key or signature from the numbers of its halves, each most significant byte first (R188). -/
def halves (a b : Nat) : BitVec 512 := strOf 512 ((leBytes 32 a).reverse ++ (leBytes 32 b).reverse)

/-- The base point of P-256, from the curve's standard. -/
def basePoint : PublicKey :=
  halves 0x6B17D1F2E12C4247F8BCE6E563A440F277037D812DEB33A0F4A13945D898C296
    0x4FE342E2FE1A7F9B8EE7EB4A7C0F9E162BCE33576B315ECECBB6406837BF51F5

/-- R144, with the base point of the standard: it is a point of the curve, and is none with its first byte changed. A square root of the
constant gives the point with x = 0, and x equal to the prime is no coordinate of it. -/
theorem test_base_point : onCurve basePoint = true ∧ onCurve (basePoint ^^^ 1#512) = false
    ∧ onCurve (halves 0 0x66485c780e2f83d72433bd5d84a06bb6541c2af31dae871728bf856a174f93f4) = true
    ∧ onCurve (halves Config.curvePrime 0x66485c780e2f83d72433bd5d84a06bb6541c2af31dae871728bf856a174f93f4) = false := by decide +kernel

/-- R144: the halves of a signature run from 1 up to the order, without it. -/
theorem test_signature_range : halfInRange 0 = false ∧ halfInRange 1 = true
    ∧ halfInRange (halfOf (halves 1 (Config.curveOrder - 1)) 1) = true ∧ halfInRange Config.curveOrder = false := by decide +kernel

/-- The private scalar 1 is stored most significant byte first (R188). -/
theorem test_scalar_order : scalarBytes 1#256 = List.replicate 31 0#8 ++ [1#8] ∧ scalarOfBytes (scalarBytes 0x0102#256)
    = 0x0102#256 := by
  decide +kernel

/-! ## The exchange, reset and start-up -/

namespace Area

def off : State := { up with powered := false }

def inReset : State := { up with resetLine := true }

def waitingCmd (l : List Instr) (s : State) : State := { s with pending := l }

def area (a : AreaState) (s : State) : State := { s with exch := { s.exch with area := a } }

def fetch (f : Fetcher) (s : State) : State := { s with exch := { s.exch with fetcher := f } }

def disabled : State := { up with exch := { up.exch with enable := false, tally := 1#32 } }

def closeAsked : State := { area .faulted up with exch := { (area .faulted up).exch with closeRequested := true } }

def header (n : Nat) : HostWrites := [(0x1000, 1#8), (0x1002, byteOf n), (0x1004, 3#8)]

def aCard : Card := card 0x0304#16 [] [] [(0x5000, 10)]

def signLater : Card := { aCard with take := 1, ticket := 8#16, code := 0x0103#16 }

def twoCards : State :=
  let held := [{ card := aCard, unit := some .update, phase := .waiting },
      { card := signLater, unit := some .custody, phase := .waiting }]
  { up with exch := { up.exch with buffers := held } }

def gateCard : Card := { aCard with code := 0x010A#16 }

def inWork (stage : CustodyStage) (committed : Bool) : State :=
  { begun .custody gateCard up with custody := { up.custody with work := working gateCard stage committed },
                                    census := { up.census with waiters := [.custody, .lifecycle] } }

def hashing (who : HashClient) (gone : Bool) (s : State) : State :=
  { s with hash := { s.hash with running := some { client := who, job := shaJob [1#8], withdrawn := gone } } }

def waitsHash (who : HashClient) (s : State) : State := { s with hash := s.hash.setWaiting who (some (shaJob [2#8])) }

def curving (who : CurveClient) (op : CurveOp) (s : State) : State :=
    { s with curve := { s.curve with running := some { client := who, op := op } } }

def waitsCurve (who : CurveClient) (s : State) : State := { s with curve := s.curve.setWaiting who (some (.generate 1#256)) }

def unsent (who : Client) (w : Write) (a : WriteTo) (s : State) : State :=
  { s with outboxes := s.outboxes.set who [.write w a], store := { s.store with waiting := [.refresh, who] } }

def listed (l : List MeasureRequest) (s : State) : State := { s with measure := { s.measure with internal := l } }

def custodyAt (stage : CustodyStage) (s : State) : State :=
  let s := begun .custody gateCard s
  { s with custody := { s.custody with work := working gateCard stage false },
           census := { s.census with waiters := [.custody, .lifecycle] } }

def asking (s : State) : State :=
    { s with outboxes := { s.outboxes with custodyAsk := [.request (.check .custody (.exactly 1#12 0#256) true)] },
             measureWaiting := [.custodyAsk] }

def countedKey : KeyRecord := { signKey with limit := some { limit := 5, remaining := 5 } }

def signed (k : KeyRecord) : State := curving .custody (.sign 5#256 0#256)
    ((custodyAt .curveSign up).setSlot (gateCard.slot 0) (some k))

def measureAt (stage : MeasureStage) (p : Option MeasureResume) (s : State) : State :=
  let s := begun .measure gateCard s
  { s with measure := { s.measure with work := working gateCard stage false, paused := p } }

def updateAt (stage : UpdateStage) (s : State) : State :=
  let s := begun .update aCard s
  { s with update := { s.update with work := working aCard stage false } }

def openSession : OpenSession :=
  { kind := 7, version := 6, length := 20, digest := 3#256, slot := 5, signer := .owner, belowFloor := false, fed := 0,
    running := [], idleStart := 0#32 }

def inOpen (s : State) : State := { s with update := { s.update with session := .opened openSession } }

def credAt (stage : CredStage) (s : State) : State :=
  let s := begun .credential gateCard s
  { s with credential := { s.credential with work := working gateCard stage false },
           census := { s.census with waiters := [.credential] } }

def lifeAt (stage : LifeStage) (s : State) : State :=
  let s := begun .lifecycle gateCard s
  { s with lifecycle := { s.lifecycle with work := working gateCard stage false },
           census := { s.census with waiters := [.lifecycle] } }

def markedCustody (stage : CustodyStage) : State :=
    { begun .custody gateCard up with custody := { up.custody with work := marked gateCard stage } }

def markedMeasure (stage : MeasureStage) : State :=
    { begun .measure gateCard up with measure := { up.measure with work := marked gateCard stage } }

def markedUpdate (stage : UpdateStage) : State := let s := inOpen up;
    { begun .update gateCard s with update := { s.update with work := marked gateCard stage } }

def markedCred (stage : CredStage) : State :=
    { begun .credential gateCard up with credential := { up.credential with work := marked gateCard stage } }

def markedLife (stage : LifeStage) : State :=
    { begun .lifecycle gateCard up with lifecycle := { up.lifecycle with work := marked gateCard stage } }

def tookBack : State := let s := markedCustody (.writeOut [1#8, 2#8] none []);
    { s with custody := { s.custody with undo := some (40, wrapKey) } }

def posted (n ticket code flags : Nat) : HostWrites :=
  [(0x1004, byteOf n), (0x1000 + 256 * n, 1#8), (0x1001 + 256 * n, byteOf flags), (0x1002 + 256 * n, byteOf ticket),
      (0x1004 + 256 * n, byteOf (code % 256)), (0x1005 + 256 * n, byteOf (code / 256))]

def rereading : State := { up with exch := { up.exch with reRead := true, nudge := true } }

def full : State := { up with exch := { up.exch with buffers := List.replicate 2 { card := aCard, unit := some .lifecycle,
                                                                                   phase := .waiting } } }

def taking (ticket code : Nat) : State :=
    { up with exch := { up.exch with expected := BitVec.ofNat 16 ticket,
                                     candidate := some (8, BitVec.ofNat 16 ticket, BitVec.ofNat 16 code) } }

def settled : Settlement := { card := aCard, outcome := .done, detail := 5#32, body := [1#8] }

def settling (a : AreaState) : State :=
  { area a up with exch := { (area a up).exch with settleList := [settled],
                                                   buffers := [{ card := aCard, unit := some .update, phase := .handedBack }] } }

def awaits (x : OpenAnswer) : State := { area .opening up with exch := { (area .opening up).exch with openAwait := some x } }

def linkDown : State := { up with linkUp := false }

def tickAt (n : Nat) : State :=
    { up with pace := { up.pace with tick := BitVec.ofNat 32 n }, lifecycle := { up.lifecycle with hold := 39 } }

def copyOf {α : Type} (v : α) (gen : Nat) : Option (Copy α) := some { value := some v, gen := BitVec.ofNat 32 gen, intact := true }

def kindCells (r : KindRecord) : Cells KindRecord :=
    { current := { loc := .home 76 false, copy := copyOf r 1 },
      alternate := some { loc := .home 76 true, copy := copyOf { r with floor := 1 } 0 } }

def settledKind : KindRecord := { floor := 5, confirmed := none, trial := none }

def stored (r : KindRecord) : State :=
  { State.reset with store := { State.reset.store with
      kinds := tableSet State.reset.store.kinds 7 (kindCells r)
      slots := tableSet State.reset.store.slots 31
          { current := { loc := .home 33 false, copy := copyOf signKey 1 },
            alternate := some { loc := .home 33 true, copy := copyOf macKey 2 } }
      lifecycle := { current := { loc := .home 0 false, copy := copyOf { effective := .claimed, marker := true } 1 },
                     alternate := none } } }

def heldEvent : State := { State.reset with measure := { State.reset.measure with internal := [.event .censusFailed] } }

def stray : State :=
  { State.reset with store := { State.reset.store with
      creds := tableSet State.reset.store.creds 31
          { current := { loc := .home 68 false, copy := copyOf (ownerRecord .admin none) 1 }, alternate := none } } }

def atStep (x : StartUp) (w : List WriteRequest) (s : State) : State :=
  { s with startUp := x, measure := { s.measure with starting := true }, store := { s.store with queue := w } }

def boots (r : KindRecord) : State :=
  { atStep (.step4 1) [{ write := .kind 7 r, answerTo := .updateStartUp }] (stored (onTrial .root)) with
    update := { State.reset.update with kinds := tableSet State.reset.update.kinds 7 (onTrial .root) } }

def firstRun (pending : Bool) : State :=
  { up with
    startUp := .step6, exch := { up.exch with fetcher := .waitingStartUp }
    census := { up.census with state := .doubt, run := some { a := 0#8, b := 0#8, r := 0#8 } }
    lifecycle := { up.lifecycle with pending := pending, progress := if pending then .incomplete else .none } }

def lastEvent (x : StartUp) (rest : List MeasureRequest) : State :=
  { up with
    startUp := x
    hash := { up.hash with running := some { client := .measure,
                                             job := shaJob (strBytes (0#256 : Digest) ++ strBytes (1#256 : Digest)),
                                             withdrawn := false } }
    measure := { up.measure with service := some (.eventExtend .ownershipReleased 1#256),
                                 internal := .event .ownershipReleased :: rest } }

def busyPart : State := { fetch (.heldForRoom 3#16) (owned up) with
  exch := { (fetch (.heldForRoom 3#16) up).exch with base := 0x1234567890ABCDFF#64, attention := 0x155#9, ack := 9#32 } }

/-- What `Obligations.StepRunsTheFrontCommand` supposes is met, clause by clause. -/
theorem witness_stepRunsTheFrontCommand :
    (waitingCmd [Instr.settleAck 4#32, Instr.settle] up).pending = [Instr.settleAck 4#32, Instr.settle]
    ∧ up.pending = [] := by
  repeat' apply And.intro
  all_goals decide +kernel

/-- What `Obligations.PowerUpAndResetLeaveEveryBlockReset` supposes is met, clause by clause. -/
theorem witness_powerUpAndResetLeaveEveryBlockReset :
    inReset.powered = true
    ∧ (atStep (StartUp.step4 1) [{ write := Write.kind 7 settledKind, answerTo := WriteTo.nobody }]
        (stored (onTrial SignerClass.root))).powered = true := by
  repeat' apply And.intro
  all_goals decide +kernel

/-- What `Obligations.UnreachablePartsStayAsTheyAre` supposes is met, clause by clause. -/
theorem witness_unreachablePartsStayAsTheyAre :
    inReset.reachable = false
    ∧ off.powered = false
    ∧ Instr.settle ≠ Instr.powerUp
    ∧ inReset.resetLine = true
    ∧ up.powered = true
    ∧ up.resetLine = false
    ∧ busyPart.powered = true
    ∧ busyPart.resetLine = false
    ∧ busyPart.exch.fetcher = Fetcher.heldForRoom 3#16
    ∧ up.exch.fetcher ∈ [Fetcher.stopped, Fetcher.waitingStartUp, Fetcher.reading, Fetcher.sleeping] := by
  repeat' apply And.intro
  all_goals decide +kernel

/-- What `Obligations.RegisterWritesTakeEffect` supposes is met, clause by clause. -/
theorem witness_registerWritesTakeEffect :
    disabled.reachable = true
    ∧ up.reachable = true
    ∧ (area AreaState.closed up).reachable = true
    ∧ (area AreaState.closed up).exch.area = AreaState.closed
    ∧ up.exch.area ≠ AreaState.closed
    ∧ 0#5 = 0#5
    ∧ BitVec.extractLsb' 0 2 256#32 = 0#2
    ∧ (area AreaState.closed disabled).reachable = true
    ∧ BitVec.extractLsb' 0 2 261#32 = 1#2
    ∧ BitVec.extractLsb' 0 2 262#32 = 2#2
    ∧ BitVec.extractLsb' 0 2 4294967039#32 = 3#2
    ∧ 20#5 = 20#5
    ∧ (fetch Fetcher.sleeping up).reachable = true
    ∧ (fetch Fetcher.sleeping up).exch.area = AreaState.opened
    ∧ (fetch Fetcher.sleeping up).exch.fetcher = Fetcher.sleeping
    ∧ (fetch (Fetcher.heldForRoom 3#16) up).reachable = true
    ∧ (fetch (Fetcher.heldForRoom 3#16) up).exch.area = AreaState.opened
    ∧ (fetch (Fetcher.heldForRoom 3#16) up).exch.fetcher ≠ Fetcher.sleeping
    ∧ (fetch (Fetcher.heldForRoom 3#16) up).exch.fetcher ≠ Fetcher.stopped
    ∧ (area AreaState.draining up).reachable = true
    ∧ (area AreaState.draining up).exch.area ≠ AreaState.opened
    ∧ ((area AreaState.draining up).exch.area = AreaState.closed ∨ (area AreaState.draining up).exch.area = AreaState.opening
        ∨ (area AreaState.draining up).exch.area = AreaState.draining ∨ (area AreaState.draining up).exch.area = AreaState.abandoning)
    ∧ (area AreaState.faulted up).reachable = true
    ∧ ((area AreaState.faulted up).exch.area = AreaState.closed ∨ (area AreaState.faulted up).exch.area = AreaState.opening
        ∨ (area AreaState.faulted up).exch.area = AreaState.abandoning ∨ (area AreaState.faulted up).exch.area = AreaState.faulted)
    ∧ closeAsked.reachable = true
    ∧ closeAsked.exch.area = AreaState.faulted
    ∧ closeAsked.exch.closeRequested = true := by
  repeat' apply And.intro
  all_goals decide +kernel

/-- What `Obligations.OpeningTheArea` supposes is met, clause by clause. -/
theorem witness_openingTheArea :
    (area AreaState.closed up).reachable = true
    ∧ (area AreaState.closed up).exch.area = AreaState.closed
    ∧ validHeader (State.hostStores (header 8) (area AreaState.closed up)) 8
    ∧ validHeader (State.hostStores (header 120) (area AreaState.closed up)) 120
    ∧ (∀ (n : ℕ), ¬validHeader (State.hostStores (header 121) (area AreaState.closed up)) n)
    ∧ (area AreaState.closed up).exch.settleList = []
    ∧ (∀ (n : ℕ), ¬validHeader (State.hostStores (header 7) (area AreaState.closed up)) n)
    ∧ (awaits OpenAnswer.readAwaited).powered = true
    ∧ (awaits OpenAnswer.readAwaited).linkUp = true
    ∧ (awaits OpenAnswer.readAwaited).exch.area = AreaState.opening
    ∧ (awaits OpenAnswer.readAwaited).exch.openAwait = some OpenAnswer.readAwaited
    ∧ validHeader (State.hostStores (header 8) (awaits OpenAnswer.readAwaited)) 8
    ∧ (∀ (n : ℕ), ¬validHeader (State.hostStores (header 121) (awaits OpenAnswer.readAwaited)) n)
    ∧ (awaits OpenAnswer.readAwaited).exch.settleList = []
    ∧ (awaits OpenAnswer.writeAwaited).powered = true
    ∧ (awaits OpenAnswer.writeAwaited).linkUp = true
    ∧ (awaits OpenAnswer.writeAwaited).exch.area = AreaState.opening
    ∧ (awaits OpenAnswer.writeAwaited).exch.openAwait = some OpenAnswer.writeAwaited := by
  unfold validHeader
  repeat' apply And.intro
  all_goals first
    | decide +kernel
    | exact fun n h => absurd (h.2.1.symm.trans (by decide +kernel : _ = 121)) (by omega)
    | exact fun n h => absurd (h.2.1.symm.trans (by decide +kernel : _ = 7)) (by omega)

/-- What `Obligations.ClosingAndAbandoningTheArea` supposes is met, clause by clause. -/
theorem witness_closingAndAbandoningTheArea :
    up.reachable = true
    ∧ up.exch.area = AreaState.opened
    ∧ (queued UnitName.update aCard up).reachable = true
    ∧ (queued UnitName.update aCard up).exch.area = AreaState.opened
    ∧ (area AreaState.faulted up).reachable = true
    ∧ (area AreaState.faulted up).exch.area = AreaState.faulted
    ∧ (area AreaState.faulted up).exch.closeRequested = false
    ∧ (area AreaState.faulted (begun UnitName.update aCard up)).reachable = true
    ∧ (area AreaState.faulted (begun UnitName.update aCard up)).exch.area = AreaState.faulted
    ∧ (area AreaState.faulted (begun UnitName.update aCard up)).exch.closeRequested = false
    ∧ up.exch.buffers = []
    ∧ up.custody.work = none
    ∧ up.measure.work = none
    ∧ up.update.work = none
    ∧ up.credential.work = none
    ∧ up.lifecycle.work = none
    ∧ twoCards.reachable = true
    ∧ twoCards.exch.area = AreaState.opened
    ∧ twoCards.exch.buffers ≠ []
    ∧ twoCards.custody.work = none
    ∧ twoCards.measure.work = none
    ∧ twoCards.update.work = none
    ∧ twoCards.credential.work = none
    ∧ twoCards.lifecycle.work = none
    ∧ (List.map (fun x => x.card.take) twoCards.exch.buffers).Nodup := by
  repeat' apply And.intro
  all_goals decide +kernel

/-- What `Obligations.AbandonsReachCardsInWork` supposes is met, clause by clause. -/
theorem witness_abandonsReachCardsInWork :
    (inWork CustodyStage.gate true).reachable = true
    ∧ (inWork CustodyStage.gate true).exch.area = AreaState.opened
    ∧ (inWork CustodyStage.gate true).exch.buffers ≠ []
    ∧ (∀ x ∈ (inWork CustodyStage.gate true).exch.buffers, x.unit = none ∨ x.phase ≠ Phase.waiting)
    ∧ (∀ (w : Work CustodyStage), (inWork CustodyStage.gate true).custody.work = some w → w.committed = true)
    ∧ (inWork CustodyStage.gate true).measure.work = none
    ∧ (∀ (w : Work UpdateStage), (inWork CustodyStage.gate true).update.work = some w → w.committed = true)
    ∧ (∀ (w : Work CredStage), (inWork CustodyStage.gate true).credential.work = some w → w.committed = true)
    ∧ (∀ (w : Work LifeStage), (inWork CustodyStage.gate true).lifecycle.work = some w → w.committed = true)
    ∧ (custodyAt CustodyStage.gate up).reachable = true
    ∧ (custodyAt CustodyStage.gate up).exch.area = AreaState.opened
    ∧ (custodyAt CustodyStage.gate up).exch.buffers = [{ card := gateCard, unit := some UnitName.custody, phase := Phase.begun }]
    ∧ (custodyAt CustodyStage.gate up).alone UnitName.custody
    ∧ (custodyAt CustodyStage.gate up).custody.undo = none
    ∧ (custodyAt CustodyStage.gate up).custody.work = working gateCard CustodyStage.gate false
    ∧ (listed [MeasureRequest.check Checker.credential (Binding.exactly 1#12 0#256) true,
        MeasureRequest.check Checker.custody (Binding.exactly 1#12 0#256) true]
        (custodyAt (CustodyStage.binding KeyUse.sign) up)).reachable = true
    ∧ (listed [MeasureRequest.check Checker.credential (Binding.exactly 1#12 0#256) true,
        MeasureRequest.check Checker.custody (Binding.exactly 1#12 0#256) true]
        (custodyAt (CustodyStage.binding KeyUse.sign) up)).exch.area = AreaState.opened
    ∧ (listed [MeasureRequest.check Checker.credential (Binding.exactly 1#12 0#256) true,
        MeasureRequest.check Checker.custody (Binding.exactly 1#12 0#256) true]
        (custodyAt (CustodyStage.binding KeyUse.sign) up)).exch.buffers
        = [{ card := gateCard, unit := some UnitName.custody, phase := Phase.begun }]
    ∧ (listed [MeasureRequest.check Checker.credential (Binding.exactly 1#12 0#256) true,
        MeasureRequest.check Checker.custody (Binding.exactly 1#12 0#256) true]
        (custodyAt (CustodyStage.binding KeyUse.sign) up)).alone UnitName.custody
    ∧ (listed [MeasureRequest.check Checker.credential (Binding.exactly 1#12 0#256) true,
        MeasureRequest.check Checker.custody (Binding.exactly 1#12 0#256) true]
        (custodyAt (CustodyStage.binding KeyUse.sign) up)).custody.undo = none
    ∧ (listed [MeasureRequest.check Checker.credential (Binding.exactly 1#12 0#256) true,
        MeasureRequest.check Checker.custody (Binding.exactly 1#12 0#256) true]
        (custodyAt (CustodyStage.binding KeyUse.sign) up)).custody.work = working gateCard (CustodyStage.binding KeyUse.sign) false
    ∧ (asking (custodyAt (CustodyStage.binding KeyUse.sign) up)).reachable = true
    ∧ (asking (custodyAt (CustodyStage.binding KeyUse.sign) up)).exch.area = AreaState.opened
    ∧ (asking (custodyAt (CustodyStage.binding KeyUse.sign) up)).exch.buffers
        = [{ card := gateCard, unit := some UnitName.custody, phase := Phase.begun }]
    ∧ (asking (custodyAt (CustodyStage.binding KeyUse.sign) up)).alone UnitName.custody
    ∧ (asking (custodyAt (CustodyStage.binding KeyUse.sign) up)).custody.undo = none
    ∧ (asking (custodyAt (CustodyStage.binding KeyUse.sign) up)).custody.work
        = working gateCard (CustodyStage.binding KeyUse.sign) false
    ∧ (waitsCurve CurveClient.custody
        (curving CurveClient.update (CurveOp.generate 1#256) (custodyAt CustodyStage.curveSign up))).reachable = true
    ∧ (waitsCurve CurveClient.custody
        (curving CurveClient.update (CurveOp.generate 1#256) (custodyAt CustodyStage.curveSign up))).exch.area = AreaState.opened
    ∧ (waitsCurve CurveClient.custody
        (curving CurveClient.update (CurveOp.generate 1#256) (custodyAt CustodyStage.curveSign up))).exch.buffers
        = [{ card := gateCard, unit := some UnitName.custody, phase := Phase.begun }]
    ∧ (waitsCurve CurveClient.custody
        (curving CurveClient.update (CurveOp.generate 1#256) (custodyAt CustodyStage.curveSign up))).alone UnitName.custody
    ∧ (waitsCurve CurveClient.custody
        (curving CurveClient.update (CurveOp.generate 1#256) (custodyAt CustodyStage.curveSign up))).custody.undo = none
    ∧ (waitsCurve CurveClient.custody
        (curving CurveClient.update (CurveOp.generate 1#256) (custodyAt CustodyStage.curveSign up))).custody.work
        = working gateCard CustodyStage.curveSign false
    ∧ (∀ (run : CurveRun), (waitsCurve CurveClient.custody
        (curving CurveClient.update (CurveOp.generate 1#256) (custodyAt CustodyStage.curveSign up))).curve.running = some run
        → run.client ≠ CurveClient.custody)
    ∧ (waitsCurve CurveClient.custody
        (curving CurveClient.update (CurveOp.generate 1#256) (custodyAt CustodyStage.curveGenerate up))).reachable = true
    ∧ (waitsCurve CurveClient.custody
        (curving CurveClient.update (CurveOp.generate 1#256) (custodyAt CustodyStage.curveGenerate up))).exch.area = AreaState.opened
    ∧ (waitsCurve CurveClient.custody
        (curving CurveClient.update (CurveOp.generate 1#256) (custodyAt CustodyStage.curveGenerate up))).exch.buffers
        = [{ card := gateCard, unit := some UnitName.custody, phase := Phase.begun }]
    ∧ (waitsCurve CurveClient.custody
        (curving CurveClient.update (CurveOp.generate 1#256) (custodyAt CustodyStage.curveGenerate up))).alone UnitName.custody
    ∧ (waitsCurve CurveClient.custody
        (curving CurveClient.update (CurveOp.generate 1#256) (custodyAt CustodyStage.curveGenerate up))).custody.undo = none
    ∧ (waitsCurve CurveClient.custody
        (curving CurveClient.update (CurveOp.generate 1#256) (custodyAt CustodyStage.curveGenerate up))).custody.work
        = working gateCard CustodyStage.curveGenerate false
    ∧ (∀ (run : CurveRun), (waitsCurve CurveClient.custody
        (curving CurveClient.update (CurveOp.generate 1#256) (custodyAt CustodyStage.curveGenerate up))).curve.running = some run
        → run.client ≠ CurveClient.custody)
    ∧ (waitsHash HashClient.custody (hashing HashClient.update false (custodyAt CustodyStage.mac up))).reachable = true
    ∧ (waitsHash HashClient.custody (hashing HashClient.update false (custodyAt CustodyStage.mac up))).exch.area = AreaState.opened
    ∧ (waitsHash HashClient.custody (hashing HashClient.update false (custodyAt CustodyStage.mac up))).exch.buffers
        = [{ card := gateCard, unit := some UnitName.custody, phase := Phase.begun }]
    ∧ (waitsHash HashClient.custody (hashing HashClient.update false (custodyAt CustodyStage.mac up))).alone UnitName.custody
    ∧ (waitsHash HashClient.custody (hashing HashClient.update false (custodyAt CustodyStage.mac up))).custody.undo = none
    ∧ (waitsHash HashClient.custody (hashing HashClient.update false (custodyAt CustodyStage.mac up))).custody.work
        = working gateCard CustodyStage.mac false
    ∧ (∀ (run : HashRun), (waitsHash HashClient.custody
        (hashing HashClient.update false (custodyAt CustodyStage.mac up))).hash.running = some run → run.client ≠ HashClient.custody)
    ∧ (unsent Client.custody (Write.slot 31 none) WriteTo.custodyCard
        (custodyAt (CustodyStage.record 31 none none (CustodyThen.settle CardOutcome.done none [])) up)).reachable = true
    ∧ (unsent Client.custody (Write.slot 31 none) WriteTo.custodyCard
        (custodyAt (CustodyStage.record 31 none none (CustodyThen.settle CardOutcome.done none [])) up)).exch.area = AreaState.opened
    ∧ (unsent Client.custody (Write.slot 31 none) WriteTo.custodyCard
        (custodyAt (CustodyStage.record 31 none none (CustodyThen.settle CardOutcome.done none [])) up)).exch.buffers
        = [{ card := gateCard, unit := some UnitName.custody, phase := Phase.begun }]
    ∧ (unsent Client.custody (Write.slot 31 none) WriteTo.custodyCard
        (custodyAt (CustodyStage.record 31 none none (CustodyThen.settle CardOutcome.done none [])) up)).alone UnitName.custody
    ∧ (unsent Client.custody (Write.slot 31 none) WriteTo.custodyCard
        (custodyAt (CustodyStage.record 31 none none (CustodyThen.settle CardOutcome.done none [])) up)).custody.undo = none
    ∧ (unsent Client.custody (Write.slot 31 none) WriteTo.custodyCard
        (custodyAt (CustodyStage.record 31 none none (CustodyThen.settle CardOutcome.done none [])) up)).custody.work
        = working gateCard (CustodyStage.record 31 none none (CustodyThen.settle CardOutcome.done none [])) false
    ∧ (unsent Client.custody (Write.slot 31 none) WriteTo.custodyCard
        (custodyAt (CustodyStage.record 31 none none (CustodyThen.settle CardOutcome.done none [])) up)).outboxes.custody
        = [Out.write (Write.slot 31 none) WriteTo.custodyCard]
    ∧ (signed signKey).reachable = true
    ∧ (signed signKey).exch.area = AreaState.opened
    ∧ (signed signKey).exch.buffers = [{ card := gateCard, unit := some UnitName.custody, phase := Phase.begun }]
    ∧ (signed signKey).alone UnitName.custody
    ∧ (signed signKey).custody.work = working gateCard CustodyStage.curveSign false
    ∧ (signed signKey).curve.running = some { client := CurveClient.custody, op := CurveOp.sign 5#256 0#256 }
    ∧ (signed signKey).slot (gateCard.slot 0) = some signKey
    ∧ (signed countedKey).reachable = true
    ∧ (signed countedKey).exch.area = AreaState.opened
    ∧ (signed countedKey).exch.buffers = [{ card := gateCard, unit := some UnitName.custody, phase := Phase.begun }]
    ∧ (signed countedKey).alone UnitName.custody
    ∧ (signed countedKey).custody.work = working gateCard CustodyStage.curveSign false
    ∧ (signed countedKey).curve.running = some { client := CurveClient.custody, op := CurveOp.sign 5#256 0#256 }
    ∧ (signed countedKey).slot (gateCard.slot 0) = some countedKey
    ∧ (curving CurveClient.custody (CurveOp.generate 1#256) (custodyAt CustodyStage.curveGenerate up)).reachable = true
    ∧ (curving CurveClient.custody (CurveOp.generate 1#256) (custodyAt CustodyStage.curveGenerate up)).exch.area = AreaState.opened
    ∧ (curving CurveClient.custody (CurveOp.generate 1#256) (custodyAt CustodyStage.curveGenerate up)).exch.buffers
        = [{ card := gateCard, unit := some UnitName.custody, phase := Phase.begun }]
    ∧ (curving CurveClient.custody (CurveOp.generate 1#256) (custodyAt CustodyStage.curveGenerate up)).alone UnitName.custody
    ∧ (curving CurveClient.custody (CurveOp.generate 1#256) (custodyAt CustodyStage.curveGenerate up)).custody.work
        = working gateCard CustodyStage.curveGenerate false
    ∧ (curving CurveClient.custody (CurveOp.generate 1#256) (custodyAt CustodyStage.curveGenerate up)).curve.running
        = some { client := CurveClient.custody, op := CurveOp.generate 1#256 }
    ∧ (hashing HashClient.custody false (custodyAt CustodyStage.mac up)).reachable = true
    ∧ (hashing HashClient.custody false (custodyAt CustodyStage.mac up)).exch.area = AreaState.opened
    ∧ (hashing HashClient.custody false (custodyAt CustodyStage.mac up)).exch.buffers
        = [{ card := gateCard, unit := some UnitName.custody, phase := Phase.begun }]
    ∧ (hashing HashClient.custody false (custodyAt CustodyStage.mac up)).alone UnitName.custody
    ∧ (hashing HashClient.custody false (custodyAt CustodyStage.mac up)).custody.work = working gateCard CustodyStage.mac false
    ∧ (hashing HashClient.custody false (custodyAt CustodyStage.mac up)).hash.running
        = some { client := HashClient.custody, job := shaJob [1#8], withdrawn := false }
    ∧ (custodyAt CustodyStage.readBlob up).reachable = true
    ∧ (custodyAt CustodyStage.readBlob up).exch.area = AreaState.opened
    ∧ (custodyAt CustodyStage.readBlob up).exch.buffers = [{ card := gateCard, unit := some UnitName.custody, phase := Phase.begun }]
    ∧ (custodyAt CustodyStage.readBlob up).alone UnitName.custody
    ∧ (custodyAt CustodyStage.readBlob up).custody.work = working gateCard CustodyStage.readBlob false
    ∧ (custodyAt (CustodyStage.writeOut [1#8] none []) up).reachable = true
    ∧ (custodyAt (CustodyStage.writeOut [1#8] none []) up).exch.area = AreaState.opened
    ∧ (custodyAt (CustodyStage.writeOut [1#8] none []) up).exch.buffers
        = [{ card := gateCard, unit := some UnitName.custody, phase := Phase.begun }]
    ∧ (custodyAt (CustodyStage.writeOut [1#8] none []) up).alone UnitName.custody
    ∧ (custodyAt (CustodyStage.writeOut [1#8] none []) up).custody.work = working gateCard (CustodyStage.writeOut [1#8] none []) false
    ∧ (measureAt (MeasureStage.quoteHash [1#8] 3) (some (MeasureResume.job (shaJob [1#8]))) up).reachable = true
    ∧ (measureAt (MeasureStage.quoteHash [1#8] 3) (some (MeasureResume.job (shaJob [1#8]))) up).exch.area = AreaState.opened
    ∧ (measureAt (MeasureStage.quoteHash [1#8] 3) (some (MeasureResume.job (shaJob [1#8]))) up).exch.buffers
        = [{ card := gateCard, unit := some UnitName.measure, phase := Phase.begun }]
    ∧ (measureAt (MeasureStage.quoteHash [1#8] 3) (some (MeasureResume.job (shaJob [1#8]))) up).alone UnitName.measure
    ∧ (measureAt (MeasureStage.quoteHash [1#8] 3) (some (MeasureResume.job (shaJob [1#8]))) up).measure.work
        = working gateCard (MeasureStage.quoteHash [1#8] 3) false
    ∧ (measureAt (MeasureStage.quoteHash [1#8] 3) (some (MeasureResume.job (shaJob [1#8]))) up).measure.paused ≠ none := by
  unfold State.alone
  repeat' apply And.intro
  all_goals decide +kernel

/-- What `Obligations.AbandonsReachCardsInWork` supposes is met, clause by clause. -/
theorem witness_abandonsReachCardsInWork_more :
    (hashing HashClient.measure false (measureAt (MeasureStage.extendHash 0 5#16 3#256) none up)).reachable = true
    ∧ (hashing HashClient.measure false (measureAt (MeasureStage.extendHash 0 5#16 3#256) none up)).exch.area = AreaState.opened
    ∧ (hashing HashClient.measure false (measureAt (MeasureStage.extendHash 0 5#16 3#256) none up)).exch.buffers
        = [{ card := gateCard, unit := some UnitName.measure, phase := Phase.begun }]
    ∧ (hashing HashClient.measure false (measureAt (MeasureStage.extendHash 0 5#16 3#256) none up)).alone UnitName.measure
    ∧ (hashing HashClient.measure false (measureAt (MeasureStage.extendHash 0 5#16 3#256) none up)).measure.paused = none
    ∧ (hashing HashClient.measure false (measureAt (MeasureStage.extendHash 0 5#16 3#256) none up)).measure.work
        = working gateCard (MeasureStage.extendHash 0 5#16 3#256) false
    ∧ (hashing HashClient.measure false (measureAt (MeasureStage.extendHash 0 5#16 3#256) none up)).hash.running
        = some { client := HashClient.measure, job := shaJob [1#8], withdrawn := false }
    ∧ (hashing HashClient.measure false (measureAt (MeasureStage.chainsHash [1#8] [none]) none up)).reachable = true
    ∧ (hashing HashClient.measure false (measureAt (MeasureStage.chainsHash [1#8] [none]) none up)).exch.area = AreaState.opened
    ∧ (hashing HashClient.measure false (measureAt (MeasureStage.chainsHash [1#8] [none]) none up)).exch.buffers
        = [{ card := gateCard, unit := some UnitName.measure, phase := Phase.begun }]
    ∧ (hashing HashClient.measure false (measureAt (MeasureStage.chainsHash [1#8] [none]) none up)).alone UnitName.measure
    ∧ (hashing HashClient.measure false (measureAt (MeasureStage.chainsHash [1#8] [none]) none up)).measure.paused = none
    ∧ (hashing HashClient.measure false (measureAt (MeasureStage.chainsHash [1#8] [none]) none up)).measure.work
        = working gateCard (MeasureStage.chainsHash [1#8] [none]) false
    ∧ (hashing HashClient.measure false (measureAt (MeasureStage.chainsHash [1#8] [none]) none up)).hash.running
        = some { client := HashClient.measure, job := shaJob [1#8], withdrawn := false }
    ∧ (hashing HashClient.measure false (measureAt (MeasureStage.fingerprint [1#8] 3) none up)).reachable = true
    ∧ (hashing HashClient.measure false (measureAt (MeasureStage.fingerprint [1#8] 3) none up)).exch.area = AreaState.opened
    ∧ (hashing HashClient.measure false (measureAt (MeasureStage.fingerprint [1#8] 3) none up)).exch.buffers
        = [{ card := gateCard, unit := some UnitName.measure, phase := Phase.begun }]
    ∧ (hashing HashClient.measure false (measureAt (MeasureStage.fingerprint [1#8] 3) none up)).alone UnitName.measure
    ∧ (hashing HashClient.measure false (measureAt (MeasureStage.fingerprint [1#8] 3) none up)).measure.paused = none
    ∧ (hashing HashClient.measure false (measureAt (MeasureStage.fingerprint [1#8] 3) none up)).measure.work
        = working gateCard (MeasureStage.fingerprint [1#8] 3) false
    ∧ (hashing HashClient.measure false (measureAt (MeasureStage.fingerprint [1#8] 3) none up)).hash.running
        = some { client := HashClient.measure, job := shaJob [1#8], withdrawn := false }
    ∧ (hashing HashClient.measure false (measureAt (MeasureStage.quoteHash [1#8] 3) none up)).reachable = true
    ∧ (hashing HashClient.measure false (measureAt (MeasureStage.quoteHash [1#8] 3) none up)).exch.area = AreaState.opened
    ∧ (hashing HashClient.measure false (measureAt (MeasureStage.quoteHash [1#8] 3) none up)).exch.buffers
        = [{ card := gateCard, unit := some UnitName.measure, phase := Phase.begun }]
    ∧ (hashing HashClient.measure false (measureAt (MeasureStage.quoteHash [1#8] 3) none up)).alone UnitName.measure
    ∧ (hashing HashClient.measure false (measureAt (MeasureStage.quoteHash [1#8] 3) none up)).measure.paused = none
    ∧ (hashing HashClient.measure false (measureAt (MeasureStage.quoteHash [1#8] 3) none up)).measure.work
        = working gateCard (MeasureStage.quoteHash [1#8] 3) false
    ∧ (hashing HashClient.measure false (measureAt (MeasureStage.quoteHash [1#8] 3) none up)).hash.running
        = some { client := HashClient.measure, job := shaJob [1#8], withdrawn := false }
    ∧ (waitsHash HashClient.measure
        (hashing HashClient.update false (measureAt (MeasureStage.extendHash 0 5#16 3#256) none up))).reachable = true
    ∧ (waitsHash HashClient.measure
        (hashing HashClient.update false (measureAt (MeasureStage.extendHash 0 5#16 3#256) none up))).exch.area = AreaState.opened
    ∧ (waitsHash HashClient.measure
        (hashing HashClient.update false (measureAt (MeasureStage.extendHash 0 5#16 3#256) none up))).exch.buffers
        = [{ card := gateCard, unit := some UnitName.measure, phase := Phase.begun }]
    ∧ (waitsHash HashClient.measure
        (hashing HashClient.update false (measureAt (MeasureStage.extendHash 0 5#16 3#256) none up))).alone UnitName.measure
    ∧ (waitsHash HashClient.measure
        (hashing HashClient.update false (measureAt (MeasureStage.extendHash 0 5#16 3#256) none up))).measure.paused = none
    ∧ (waitsHash HashClient.measure
        (hashing HashClient.update false (measureAt (MeasureStage.extendHash 0 5#16 3#256) none up))).measure.work
        = working gateCard (MeasureStage.extendHash 0 5#16 3#256) false
    ∧ (∀ (run : HashRun), (waitsHash HashClient.measure
        (hashing HashClient.update false (measureAt (MeasureStage.extendHash 0 5#16 3#256) none up))).hash.running = some run
        → run.client ≠ HashClient.measure)
    ∧ (waitsHash HashClient.measure
        (hashing HashClient.update false (measureAt (MeasureStage.chainsHash [1#8] [none]) none up))).reachable = true
    ∧ (waitsHash HashClient.measure
        (hashing HashClient.update false (measureAt (MeasureStage.chainsHash [1#8] [none]) none up))).exch.area = AreaState.opened
    ∧ (waitsHash HashClient.measure
        (hashing HashClient.update false (measureAt (MeasureStage.chainsHash [1#8] [none]) none up))).exch.buffers
        = [{ card := gateCard, unit := some UnitName.measure, phase := Phase.begun }]
    ∧ (waitsHash HashClient.measure
        (hashing HashClient.update false (measureAt (MeasureStage.chainsHash [1#8] [none]) none up))).alone UnitName.measure
    ∧ (waitsHash HashClient.measure
        (hashing HashClient.update false (measureAt (MeasureStage.chainsHash [1#8] [none]) none up))).measure.paused = none
    ∧ (waitsHash HashClient.measure
        (hashing HashClient.update false (measureAt (MeasureStage.chainsHash [1#8] [none]) none up))).measure.work
        = working gateCard (MeasureStage.chainsHash [1#8] [none]) false
    ∧ (∀ (run : HashRun), (waitsHash HashClient.measure
        (hashing HashClient.update false (measureAt (MeasureStage.chainsHash [1#8] [none]) none up))).hash.running = some run
        → run.client ≠ HashClient.measure)
    ∧ (waitsHash HashClient.measure
        (hashing HashClient.update false (measureAt (MeasureStage.fingerprint [1#8] 3) none up))).reachable = true
    ∧ (waitsHash HashClient.measure
        (hashing HashClient.update false (measureAt (MeasureStage.fingerprint [1#8] 3) none up))).exch.area = AreaState.opened
    ∧ (waitsHash HashClient.measure
        (hashing HashClient.update false (measureAt (MeasureStage.fingerprint [1#8] 3) none up))).exch.buffers
        = [{ card := gateCard, unit := some UnitName.measure, phase := Phase.begun }]
    ∧ (waitsHash HashClient.measure (hashing HashClient.update false (measureAt (MeasureStage.fingerprint [1#8] 3) none up))).alone
        UnitName.measure
    ∧ (waitsHash HashClient.measure
        (hashing HashClient.update false (measureAt (MeasureStage.fingerprint [1#8] 3) none up))).measure.paused = none
    ∧ (waitsHash HashClient.measure
        (hashing HashClient.update false (measureAt (MeasureStage.fingerprint [1#8] 3) none up))).measure.work
        = working gateCard (MeasureStage.fingerprint [1#8] 3) false
    ∧ (∀ (run : HashRun), (waitsHash HashClient.measure
        (hashing HashClient.update false (measureAt (MeasureStage.fingerprint [1#8] 3) none up))).hash.running = some run
        → run.client ≠ HashClient.measure)
    ∧ (waitsHash HashClient.measure (hashing HashClient.update false (measureAt (MeasureStage.quoteHash [1#8] 3) none up))).reachable
        = true
    ∧ (waitsHash HashClient.measure (hashing HashClient.update false (measureAt (MeasureStage.quoteHash [1#8] 3) none up))).exch.area
        = AreaState.opened
    ∧ (waitsHash HashClient.measure
        (hashing HashClient.update false (measureAt (MeasureStage.quoteHash [1#8] 3) none up))).exch.buffers
        = [{ card := gateCard, unit := some UnitName.measure, phase := Phase.begun }]
    ∧ (waitsHash HashClient.measure (hashing HashClient.update false (measureAt (MeasureStage.quoteHash [1#8] 3) none up))).alone
        UnitName.measure
    ∧ (waitsHash HashClient.measure
        (hashing HashClient.update false (measureAt (MeasureStage.quoteHash [1#8] 3) none up))).measure.paused = none
    ∧ (waitsHash HashClient.measure
        (hashing HashClient.update false (measureAt (MeasureStage.quoteHash [1#8] 3) none up))).measure.work
        = working gateCard (MeasureStage.quoteHash [1#8] 3) false
    ∧ (∀ (run : HashRun), (waitsHash HashClient.measure
        (hashing HashClient.update false (measureAt (MeasureStage.quoteHash [1#8] 3) none up))).hash.running = some run
        → run.client ≠ HashClient.measure)
    ∧ (curving CurveClient.measure (CurveOp.signByIdentity none 3#256)
        (measureAt (MeasureStage.quoteSign [1#8] 3) none up)).reachable = true
    ∧ (curving CurveClient.measure (CurveOp.signByIdentity none 3#256)
        (measureAt (MeasureStage.quoteSign [1#8] 3) none up)).exch.area = AreaState.opened
    ∧ (curving CurveClient.measure (CurveOp.signByIdentity none 3#256)
        (measureAt (MeasureStage.quoteSign [1#8] 3) none up)).exch.buffers
        = [{ card := gateCard, unit := some UnitName.measure, phase := Phase.begun }]
    ∧ (curving CurveClient.measure (CurveOp.signByIdentity none 3#256) (measureAt (MeasureStage.quoteSign [1#8] 3) none up)).alone
        UnitName.measure
    ∧ (curving CurveClient.measure (CurveOp.signByIdentity none 3#256)
        (measureAt (MeasureStage.quoteSign [1#8] 3) none up)).measure.paused = none
    ∧ (curving CurveClient.measure (CurveOp.signByIdentity none 3#256)
        (measureAt (MeasureStage.quoteSign [1#8] 3) none up)).measure.work = working gateCard (MeasureStage.quoteSign [1#8] 3) false
    ∧ (curving CurveClient.measure (CurveOp.signByIdentity none 3#256)
        (measureAt (MeasureStage.quoteSign [1#8] 3) none up)).curve.running
        = some { client := CurveClient.measure, op := CurveOp.signByIdentity none 3#256 }
    ∧ (waitsCurve CurveClient.measure
        (curving CurveClient.update (CurveOp.generate 1#256) (measureAt (MeasureStage.quoteSign [1#8] 3) none up))).reachable = true
    ∧ (waitsCurve CurveClient.measure
        (curving CurveClient.update (CurveOp.generate 1#256) (measureAt (MeasureStage.quoteSign [1#8] 3) none up))).exch.area
        = AreaState.opened
    ∧ (waitsCurve CurveClient.measure
        (curving CurveClient.update (CurveOp.generate 1#256) (measureAt (MeasureStage.quoteSign [1#8] 3) none up))).exch.buffers
        = [{ card := gateCard, unit := some UnitName.measure, phase := Phase.begun }]
    ∧ (waitsCurve CurveClient.measure
        (curving CurveClient.update (CurveOp.generate 1#256) (measureAt (MeasureStage.quoteSign [1#8] 3) none up))).alone
        UnitName.measure
    ∧ (waitsCurve CurveClient.measure
        (curving CurveClient.update (CurveOp.generate 1#256) (measureAt (MeasureStage.quoteSign [1#8] 3) none up))).measure.paused
        = none
    ∧ (waitsCurve CurveClient.measure
        (curving CurveClient.update (CurveOp.generate 1#256) (measureAt (MeasureStage.quoteSign [1#8] 3) none up))).measure.work
        = working gateCard (MeasureStage.quoteSign [1#8] 3) false
    ∧ (∀ (run : CurveRun), (waitsCurve CurveClient.measure
        (curving CurveClient.update (CurveOp.generate 1#256) (measureAt (MeasureStage.quoteSign [1#8] 3) none up))).curve.running
        = some run → run.client ≠ CurveClient.measure)
    ∧ (measureAt (MeasureStage.writeOut [1#8] none []) none up).reachable = true
    ∧ (measureAt (MeasureStage.writeOut [1#8] none []) none up).exch.area = AreaState.opened
    ∧ (measureAt (MeasureStage.writeOut [1#8] none []) none up).exch.buffers
        = [{ card := gateCard, unit := some UnitName.measure, phase := Phase.begun }]
    ∧ (measureAt (MeasureStage.writeOut [1#8] none []) none up).alone UnitName.measure
    ∧ (measureAt (MeasureStage.writeOut [1#8] none []) none up).measure.paused = none
    ∧ (measureAt (MeasureStage.writeOut [1#8] none []) none up).measure.work
        = working gateCard (MeasureStage.writeOut [1#8] none []) false
    ∧ (hashing HashClient.update false (updateAt UpdateStage.feed (inOpen up))).reachable = true
    ∧ (hashing HashClient.update false (updateAt UpdateStage.feed (inOpen up))).exch.area = AreaState.opened
    ∧ (hashing HashClient.update false (updateAt UpdateStage.feed (inOpen up))).exch.buffers
        = [{ card := aCard, unit := some UnitName.update, phase := Phase.begun }]
    ∧ (hashing HashClient.update false (updateAt UpdateStage.feed (inOpen up))).alone UnitName.update
    ∧ (hashing HashClient.update false (updateAt UpdateStage.feed (inOpen up))).update.wipe ≠ UpdateWipe.held
    ∧ (hashing HashClient.update false (updateAt UpdateStage.feed (inOpen up))).update.work = working aCard UpdateStage.feed false
    ∧ (hashing HashClient.update false (updateAt UpdateStage.feed (inOpen up))).hash.running
        = some { client := HashClient.update, job := shaJob [1#8], withdrawn := false }
    ∧ (waitsHash HashClient.update (hashing HashClient.measure false (updateAt UpdateStage.feed (inOpen up)))).reachable = true
    ∧ (waitsHash HashClient.update (hashing HashClient.measure false (updateAt UpdateStage.feed (inOpen up)))).exch.area
        = AreaState.opened
    ∧ (waitsHash HashClient.update (hashing HashClient.measure false (updateAt UpdateStage.feed (inOpen up)))).exch.buffers
        = [{ card := aCard, unit := some UnitName.update, phase := Phase.begun }]
    ∧ (waitsHash HashClient.update (hashing HashClient.measure false (updateAt UpdateStage.feed (inOpen up)))).alone UnitName.update
    ∧ (waitsHash HashClient.update (hashing HashClient.measure false (updateAt UpdateStage.feed (inOpen up)))).update.wipe ≠
        UpdateWipe.held
    ∧ (waitsHash HashClient.update (hashing HashClient.measure false (updateAt UpdateStage.feed (inOpen up)))).update.work
        = working aCard UpdateStage.feed false
    ∧ (∀ (run : HashRun), (waitsHash HashClient.update
        (hashing HashClient.measure false (updateAt UpdateStage.feed (inOpen up)))).hash.running = some run
        → run.client ≠ HashClient.update)
    ∧ (waitsHash HashClient.update (hashing HashClient.measure false (updateAt UpdateStage.feed (inOpen up)))).update.session
        = Session.opened openSession
    ∧ (hashing HashClient.update false (updateAt (UpdateStage.verifyHash 9#512) up)).reachable = true
    ∧ (hashing HashClient.update false (updateAt (UpdateStage.verifyHash 9#512) up)).exch.area = AreaState.opened
    ∧ (hashing HashClient.update false (updateAt (UpdateStage.verifyHash 9#512) up)).exch.buffers
        = [{ card := aCard, unit := some UnitName.update, phase := Phase.begun }]
    ∧ (hashing HashClient.update false (updateAt (UpdateStage.verifyHash 9#512) up)).alone UnitName.update
    ∧ (hashing HashClient.update false (updateAt (UpdateStage.verifyHash 9#512) up)).update.wipe ≠ UpdateWipe.held
    ∧ (hashing HashClient.update false (updateAt (UpdateStage.verifyHash 9#512) up)).update.work
        = working aCard (UpdateStage.verifyHash 9#512) false := by
  unfold State.alone
  repeat' apply And.intro
  all_goals decide +kernel

/-- What `Obligations.AbandonsReachCardsInWork` supposes is met, clause by clause. -/
theorem witness_abandonsReachCardsInWork_part3 :
    (waitsHash HashClient.update (hashing HashClient.measure false (updateAt UpdateStage.confirmHash up))).reachable = true
    ∧ (waitsHash HashClient.update (hashing HashClient.measure false (updateAt UpdateStage.confirmHash up))).exch.area
        = AreaState.opened
    ∧ (waitsHash HashClient.update (hashing HashClient.measure false (updateAt UpdateStage.confirmHash up))).exch.buffers
        = [{ card := aCard, unit := some UnitName.update, phase := Phase.begun }]
    ∧ (waitsHash HashClient.update (hashing HashClient.measure false (updateAt UpdateStage.confirmHash up))).alone UnitName.update
    ∧ (waitsHash HashClient.update (hashing HashClient.measure false (updateAt UpdateStage.confirmHash up))).update.wipe ≠
        UpdateWipe.held
    ∧ (waitsHash HashClient.update (hashing HashClient.measure false (updateAt UpdateStage.confirmHash up))).update.work
        = working aCard UpdateStage.confirmHash false
    ∧ (curving CurveClient.update (CurveOp.verify 9#512 0#256 1#512) (updateAt UpdateStage.verifyCurve up)).reachable = true
    ∧ (curving CurveClient.update (CurveOp.verify 9#512 0#256 1#512) (updateAt UpdateStage.verifyCurve up)).exch.area
        = AreaState.opened
    ∧ (curving CurveClient.update (CurveOp.verify 9#512 0#256 1#512) (updateAt UpdateStage.verifyCurve up)).exch.buffers
        = [{ card := aCard, unit := some UnitName.update, phase := Phase.begun }]
    ∧ (curving CurveClient.update (CurveOp.verify 9#512 0#256 1#512) (updateAt UpdateStage.verifyCurve up)).alone UnitName.update
    ∧ (curving CurveClient.update (CurveOp.verify 9#512 0#256 1#512) (updateAt UpdateStage.verifyCurve up)).update.wipe ≠
        UpdateWipe.held
    ∧ (curving CurveClient.update (CurveOp.verify 9#512 0#256 1#512) (updateAt UpdateStage.verifyCurve up)).update.work
        = working aCard UpdateStage.verifyCurve false
    ∧ (curving CurveClient.update (CurveOp.verify 9#512 0#256 1#512) (updateAt UpdateStage.verifyCurve up)).curve.running
        = some { client := CurveClient.update, op := CurveOp.verify 9#512 0#256 1#512 }
    ∧ (waitsCurve CurveClient.update
        (curving CurveClient.custody (CurveOp.generate 1#256) (updateAt UpdateStage.verifyCurve up))).reachable = true
    ∧ (waitsCurve CurveClient.update
        (curving CurveClient.custody (CurveOp.generate 1#256) (updateAt UpdateStage.verifyCurve up))).exch.area = AreaState.opened
    ∧ (waitsCurve CurveClient.update
        (curving CurveClient.custody (CurveOp.generate 1#256) (updateAt UpdateStage.verifyCurve up))).exch.buffers
        = [{ card := aCard, unit := some UnitName.update, phase := Phase.begun }]
    ∧ (waitsCurve CurveClient.update
        (curving CurveClient.custody (CurveOp.generate 1#256) (updateAt UpdateStage.verifyCurve up))).alone UnitName.update
    ∧ (waitsCurve CurveClient.update
        (curving CurveClient.custody (CurveOp.generate 1#256) (updateAt UpdateStage.verifyCurve up))).update.wipe ≠ UpdateWipe.held
    ∧ (waitsCurve CurveClient.update
        (curving CurveClient.custody (CurveOp.generate 1#256) (updateAt UpdateStage.verifyCurve up))).update.work
        = working aCard UpdateStage.verifyCurve false
    ∧ (∀ (run : CurveRun), (waitsCurve CurveClient.update
        (curving CurveClient.custody (CurveOp.generate 1#256) (updateAt UpdateStage.verifyCurve up))).curve.running = some run
        → run.client ≠ CurveClient.update)
    ∧ (listed [MeasureRequest.chainRead 10 true] (updateAt (UpdateStage.confirmChain 3#256) up)).reachable = true
    ∧ (listed [MeasureRequest.chainRead 10 true] (updateAt (UpdateStage.confirmChain 3#256) up)).exch.area = AreaState.opened
    ∧ (listed [MeasureRequest.chainRead 10 true] (updateAt (UpdateStage.confirmChain 3#256) up)).exch.buffers
        = [{ card := aCard, unit := some UnitName.update, phase := Phase.begun }]
    ∧ (listed [MeasureRequest.chainRead 10 true] (updateAt (UpdateStage.confirmChain 3#256) up)).alone UnitName.update
    ∧ (listed [MeasureRequest.chainRead 10 true] (updateAt (UpdateStage.confirmChain 3#256) up)).update.wipe ≠ UpdateWipe.held
    ∧ (listed [MeasureRequest.chainRead 10 true] (updateAt (UpdateStage.confirmChain 3#256) up)).update.work
        = working aCard (UpdateStage.confirmChain 3#256) false
    ∧ (updateAt (UpdateStage.writeOut [1#8] none []) up).reachable = true
    ∧ (updateAt (UpdateStage.writeOut [1#8] none []) up).exch.area = AreaState.opened
    ∧ (updateAt (UpdateStage.writeOut [1#8] none []) up).exch.buffers
        = [{ card := aCard, unit := some UnitName.update, phase := Phase.begun }]
    ∧ (updateAt (UpdateStage.writeOut [1#8] none []) up).alone UnitName.update
    ∧ (updateAt (UpdateStage.writeOut [1#8] none []) up).update.wipe ≠ UpdateWipe.held
    ∧ (updateAt (UpdateStage.writeOut [1#8] none []) up).update.work = working aCard (UpdateStage.writeOut [1#8] none []) false
    ∧ (unsent Client.update (Write.kind 7 (onTrial SignerClass.root)) WriteTo.updateCard
        (updateAt (UpdateStage.commit (onTrial SignerClass.root)) up)).reachable = true
    ∧ (unsent Client.update (Write.kind 7 (onTrial SignerClass.root)) WriteTo.updateCard
        (updateAt (UpdateStage.commit (onTrial SignerClass.root)) up)).exch.area = AreaState.opened
    ∧ (unsent Client.update (Write.kind 7 (onTrial SignerClass.root)) WriteTo.updateCard
        (updateAt (UpdateStage.commit (onTrial SignerClass.root)) up)).exch.buffers
        = [{ card := aCard, unit := some UnitName.update, phase := Phase.begun }]
    ∧ (unsent Client.update (Write.kind 7 (onTrial SignerClass.root)) WriteTo.updateCard
        (updateAt (UpdateStage.commit (onTrial SignerClass.root)) up)).alone UnitName.update
    ∧ (unsent Client.update (Write.kind 7 (onTrial SignerClass.root)) WriteTo.updateCard
        (updateAt (UpdateStage.commit (onTrial SignerClass.root)) up)).update.wipe ≠ UpdateWipe.held
    ∧ (unsent Client.update (Write.kind 7 (onTrial SignerClass.root)) WriteTo.updateCard
        (updateAt (UpdateStage.commit (onTrial SignerClass.root)) up)).update.work
        = working aCard (UpdateStage.commit (onTrial SignerClass.root)) false
    ∧ (unsent Client.update (Write.kind 7 (onTrial SignerClass.root)) WriteTo.updateCard
        (updateAt (UpdateStage.commit (onTrial SignerClass.root)) up)).outboxes.update
        = [Out.write (Write.kind 7 (onTrial SignerClass.root)) WriteTo.updateCard]
    ∧ (unsent Client.update (Write.mark 2 5#32) WriteTo.updateCard (updateAt UpdateStage.removeMark up)).reachable = true
    ∧ (unsent Client.update (Write.mark 2 5#32) WriteTo.updateCard (updateAt UpdateStage.removeMark up)).exch.area = AreaState.opened
    ∧ (unsent Client.update (Write.mark 2 5#32) WriteTo.updateCard (updateAt UpdateStage.removeMark up)).exch.buffers
        = [{ card := aCard, unit := some UnitName.update, phase := Phase.begun }]
    ∧ (unsent Client.update (Write.mark 2 5#32) WriteTo.updateCard (updateAt UpdateStage.removeMark up)).alone UnitName.update
    ∧ (unsent Client.update (Write.mark 2 5#32) WriteTo.updateCard (updateAt UpdateStage.removeMark up)).update.wipe ≠ UpdateWipe.held
    ∧ (unsent Client.update (Write.mark 2 5#32) WriteTo.updateCard (updateAt UpdateStage.removeMark up)).update.work
        = working aCard UpdateStage.removeMark false
    ∧ (unsent Client.update (Write.mark 2 5#32) WriteTo.updateCard (updateAt UpdateStage.removeMark up)).outboxes.update
        = [Out.write (Write.mark 2 5#32) WriteTo.updateCard]
    ∧ (credAt CredStage.gate up).reachable = true
    ∧ (credAt CredStage.gate up).exch.area = AreaState.opened
    ∧ (credAt CredStage.gate up).exch.buffers = [{ card := gateCard, unit := some UnitName.credential, phase := Phase.begun }]
    ∧ (credAt CredStage.gate up).alone UnitName.credential
    ∧ (credAt CredStage.gate up).credential.work = working gateCard CredStage.gate false
    ∧ (credAt (CredStage.awaitRecord 31 none) up).reachable = true
    ∧ (credAt (CredStage.awaitRecord 31 none) up).exch.area = AreaState.opened
    ∧ (credAt (CredStage.awaitRecord 31 none) up).exch.buffers
        = [{ card := gateCard, unit := some UnitName.credential, phase := Phase.begun }]
    ∧ (credAt (CredStage.awaitRecord 31 none) up).alone UnitName.credential
    ∧ (credAt (CredStage.awaitRecord 31 none) up).credential.work = working gateCard (CredStage.awaitRecord 31 none) false
    ∧ (listed [MeasureRequest.check Checker.custody (Binding.exactly 1#12 0#256) true,
        MeasureRequest.check Checker.credential (Binding.exactly 1#12 0#256) true] (credAt (CredStage.binding 31) up)).reachable
        = true
    ∧ (listed [MeasureRequest.check Checker.custody (Binding.exactly 1#12 0#256) true,
        MeasureRequest.check Checker.credential (Binding.exactly 1#12 0#256) true] (credAt (CredStage.binding 31) up)).exch.area
        = AreaState.opened
    ∧ (listed [MeasureRequest.check Checker.custody (Binding.exactly 1#12 0#256) true,
        MeasureRequest.check Checker.credential (Binding.exactly 1#12 0#256) true] (credAt (CredStage.binding 31) up)).exch.buffers
        = [{ card := gateCard, unit := some UnitName.credential, phase := Phase.begun }]
    ∧ (listed [MeasureRequest.check Checker.custody (Binding.exactly 1#12 0#256) true,
        MeasureRequest.check Checker.credential (Binding.exactly 1#12 0#256) true] (credAt (CredStage.binding 31) up)).alone
        UnitName.credential
    ∧ (listed [MeasureRequest.check Checker.custody (Binding.exactly 1#12 0#256) true,
        MeasureRequest.check Checker.credential (Binding.exactly 1#12 0#256) true]
        (credAt (CredStage.binding 31) up)).credential.work = working gateCard (CredStage.binding 31) false
    ∧ (hashing HashClient.credential false (credAt (CredStage.enrolHash (1#128) none) up)).reachable = true
    ∧ (hashing HashClient.credential false (credAt (CredStage.enrolHash (1#128) none) up)).exch.area = AreaState.opened
    ∧ (hashing HashClient.credential false (credAt (CredStage.enrolHash (1#128) none) up)).exch.buffers
        = [{ card := gateCard, unit := some UnitName.credential, phase := Phase.begun }]
    ∧ (hashing HashClient.credential false (credAt (CredStage.enrolHash (1#128) none) up)).alone UnitName.credential
    ∧ (hashing HashClient.credential false (credAt (CredStage.enrolHash (1#128) none) up)).credential.work
        = working gateCard (CredStage.enrolHash (1#128) none) false
    ∧ (hashing HashClient.credential false (credAt (CredStage.enrolHash (1#128) none) up)).hash.running
        = some { client := HashClient.credential, job := shaJob [1#8], withdrawn := false }
    ∧ (waitsHash HashClient.credential
        (hashing HashClient.update false (credAt (CredStage.replaceHash 31 (1#128) none none) up))).reachable = true
    ∧ (waitsHash HashClient.credential
        (hashing HashClient.update false (credAt (CredStage.replaceHash 31 (1#128) none none) up))).exch.area = AreaState.opened
    ∧ (waitsHash HashClient.credential
        (hashing HashClient.update false (credAt (CredStage.replaceHash 31 (1#128) none none) up))).exch.buffers
        = [{ card := gateCard, unit := some UnitName.credential, phase := Phase.begun }]
    ∧ (waitsHash HashClient.credential
        (hashing HashClient.update false (credAt (CredStage.replaceHash 31 (1#128) none none) up))).alone UnitName.credential
    ∧ (waitsHash HashClient.credential
        (hashing HashClient.update false (credAt (CredStage.replaceHash 31 (1#128) none none) up))).credential.work
        = working gateCard (CredStage.replaceHash 31 (1#128) none none) false
    ∧ (∀ (run : HashRun), (waitsHash HashClient.credential
        (hashing HashClient.update false (credAt (CredStage.replaceHash 31 (1#128) none none) up))).hash.running = some run
        → run.client ≠ HashClient.credential)
    ∧ (unsent Client.credential (Write.cred 31 none) WriteTo.credCard (credAt (CredStage.removeWrite 31) up)).reachable = true
    ∧ (unsent Client.credential (Write.cred 31 none) WriteTo.credCard (credAt (CredStage.removeWrite 31) up)).exch.area
        = AreaState.opened
    ∧ (unsent Client.credential (Write.cred 31 none) WriteTo.credCard (credAt (CredStage.removeWrite 31) up)).exch.buffers
        = [{ card := gateCard, unit := some UnitName.credential, phase := Phase.begun }]
    ∧ (unsent Client.credential (Write.cred 31 none) WriteTo.credCard (credAt (CredStage.removeWrite 31) up)).alone
        UnitName.credential
    ∧ (unsent Client.credential (Write.cred 31 none) WriteTo.credCard (credAt (CredStage.removeWrite 31) up)).credential.work
        = working gateCard (CredStage.removeWrite 31) false
    ∧ (unsent Client.credential (Write.cred 31 none) WriteTo.credCard (credAt (CredStage.removeWrite 31) up)).outboxes.credential
        = [Out.write (Write.cred 31 none) WriteTo.credCard]
    ∧ (unsent Client.credential (Write.cred 31 none) WriteTo.credReplace
        (credAt (CredStage.replaceWrite 31 (ownerRecord CredKind.admin none) false) up)).reachable = true
    ∧ (unsent Client.credential (Write.cred 31 none) WriteTo.credReplace
        (credAt (CredStage.replaceWrite 31 (ownerRecord CredKind.admin none) false) up)).exch.area = AreaState.opened
    ∧ (unsent Client.credential (Write.cred 31 none) WriteTo.credReplace
        (credAt (CredStage.replaceWrite 31 (ownerRecord CredKind.admin none) false) up)).exch.buffers
        = [{ card := gateCard, unit := some UnitName.credential, phase := Phase.begun }]
    ∧ (unsent Client.credential (Write.cred 31 none) WriteTo.credReplace
        (credAt (CredStage.replaceWrite 31 (ownerRecord CredKind.admin none) false) up)).alone UnitName.credential
    ∧ (unsent Client.credential (Write.cred 31 none) WriteTo.credReplace
        (credAt (CredStage.replaceWrite 31 (ownerRecord CredKind.admin none) false) up)).credential.work
        = working gateCard (CredStage.replaceWrite 31 (ownerRecord CredKind.admin none) false) false
    ∧ (unsent Client.credential (Write.cred 31 none) WriteTo.credReplace
        (credAt (CredStage.replaceWrite 31 (ownerRecord CredKind.admin none) false) up)).outboxes.credential
        = [Out.write (Write.cred 31 none) WriteTo.credReplace]
    ∧ (lifeAt LifeStage.gate up).reachable = true
    ∧ (lifeAt LifeStage.gate up).exch.area = AreaState.opened
    ∧ (lifeAt LifeStage.gate up).exch.buffers = [{ card := gateCard, unit := some UnitName.lifecycle, phase := Phase.begun }]
    ∧ (lifeAt LifeStage.gate up).alone UnitName.lifecycle
    ∧ (lifeAt LifeStage.gate up).lifecycle.work = working gateCard LifeStage.gate false
    ∧ (curving CurveClient.lifecycle (CurveOp.generate 1#256) (lifeAt LifeStage.generate up)).reachable = true
    ∧ (curving CurveClient.lifecycle (CurveOp.generate 1#256) (lifeAt LifeStage.generate up)).exch.area = AreaState.opened
    ∧ (curving CurveClient.lifecycle (CurveOp.generate 1#256) (lifeAt LifeStage.generate up)).exch.buffers
        = [{ card := gateCard, unit := some UnitName.lifecycle, phase := Phase.begun }]
    ∧ (curving CurveClient.lifecycle (CurveOp.generate 1#256) (lifeAt LifeStage.generate up)).alone UnitName.lifecycle
    ∧ (curving CurveClient.lifecycle (CurveOp.generate 1#256) (lifeAt LifeStage.generate up)).lifecycle.work
        = working gateCard LifeStage.generate false
    ∧ (curving CurveClient.lifecycle (CurveOp.generate 1#256) (lifeAt LifeStage.generate up)).curve.running
        = some { client := CurveClient.lifecycle, op := CurveOp.generate 1#256 } := by
  unfold State.alone
  repeat' apply And.intro
  all_goals decide +kernel

/-- What `Obligations.AbandonsReachCardsInWork` supposes is met, clause by clause. -/
theorem witness_abandonsReachCardsInWork_part4 :
    (waitsCurve CurveClient.lifecycle
        (curving CurveClient.custody (CurveOp.generate 1#256) (lifeAt LifeStage.generate up))).reachable = true
    ∧ (waitsCurve CurveClient.lifecycle
        (curving CurveClient.custody (CurveOp.generate 1#256) (lifeAt LifeStage.generate up))).exch.area = AreaState.opened
    ∧ (waitsCurve CurveClient.lifecycle
        (curving CurveClient.custody (CurveOp.generate 1#256) (lifeAt LifeStage.generate up))).exch.buffers
        = [{ card := gateCard, unit := some UnitName.lifecycle, phase := Phase.begun }]
    ∧ (waitsCurve CurveClient.lifecycle (curving CurveClient.custody (CurveOp.generate 1#256) (lifeAt LifeStage.generate up))).alone
        UnitName.lifecycle
    ∧ (waitsCurve CurveClient.lifecycle
        (curving CurveClient.custody (CurveOp.generate 1#256) (lifeAt LifeStage.generate up))).lifecycle.work
        = working gateCard LifeStage.generate false
    ∧ (∀ (run : CurveRun), (waitsCurve CurveClient.lifecycle
        (curving CurveClient.custody (CurveOp.generate 1#256) (lifeAt LifeStage.generate up))).curve.running = some run
        → run.client ≠ CurveClient.lifecycle)
    ∧ (lifeAt LifeStage.readCertificate up).reachable = true
    ∧ (lifeAt LifeStage.readCertificate up).exch.area = AreaState.opened
    ∧ (lifeAt LifeStage.readCertificate up).exch.buffers
        = [{ card := gateCard, unit := some UnitName.lifecycle, phase := Phase.begun }]
    ∧ (lifeAt LifeStage.readCertificate up).alone UnitName.lifecycle
    ∧ (lifeAt LifeStage.readCertificate up).lifecycle.work = working gateCard LifeStage.readCertificate false
    ∧ (lifeAt (LifeStage.writeOut [1#8] none []) up).reachable = true
    ∧ (lifeAt (LifeStage.writeOut [1#8] none []) up).exch.area = AreaState.opened
    ∧ (lifeAt (LifeStage.writeOut [1#8] none []) up).exch.buffers
        = [{ card := gateCard, unit := some UnitName.lifecycle, phase := Phase.begun }]
    ∧ (lifeAt (LifeStage.writeOut [1#8] none []) up).alone UnitName.lifecycle
    ∧ (lifeAt (LifeStage.writeOut [1#8] none []) up).lifecycle.work = working gateCard (LifeStage.writeOut [1#8] none []) false
    ∧ (unsent Client.lifecycle (Write.certificate []) WriteTo.lifeCard (lifeAt LifeStage.finish up)).reachable = true
    ∧ (unsent Client.lifecycle (Write.certificate []) WriteTo.lifeCard (lifeAt LifeStage.finish up)).exch.area = AreaState.opened
    ∧ (unsent Client.lifecycle (Write.certificate []) WriteTo.lifeCard (lifeAt LifeStage.finish up)).exch.buffers
        = [{ card := gateCard, unit := some UnitName.lifecycle, phase := Phase.begun }]
    ∧ (unsent Client.lifecycle (Write.certificate []) WriteTo.lifeCard (lifeAt LifeStage.finish up)).alone UnitName.lifecycle
    ∧ (unsent Client.lifecycle (Write.certificate []) WriteTo.lifeCard (lifeAt LifeStage.finish up)).lifecycle.work
        = working gateCard LifeStage.finish false
    ∧ (unsent Client.lifecycle (Write.certificate []) WriteTo.lifeCard (lifeAt LifeStage.finish up)).outboxes.lifecycle
        = [Out.write (Write.certificate []) WriteTo.lifeCard]
    ∧ (markedCustody CustodyStage.readBlob).powered = true
    ∧ (markedCustody CustodyStage.readBlob).startUp = StartUp.ended
    ∧ (markedCustody CustodyStage.readBlob).carries
    ∧ (markedCustody CustodyStage.readBlob).update.wipe ≠ UpdateWipe.held
    ∧ (markedCustody CustodyStage.readBlob).custody.work = marked gateCard CustodyStage.readBlob
    ∧ (markedLife LifeStage.readCertificate).powered = true
    ∧ (markedLife LifeStage.readCertificate).startUp = StartUp.ended
    ∧ (markedLife LifeStage.readCertificate).carries
    ∧ (markedLife LifeStage.readCertificate).update.wipe ≠ UpdateWipe.held
    ∧ (markedLife LifeStage.readCertificate).lifecycle.work = marked gateCard LifeStage.readCertificate
    ∧ tookBack.powered = true
    ∧ tookBack.startUp = StartUp.ended
    ∧ tookBack.carries
    ∧ tookBack.update.wipe ≠ UpdateWipe.held
    ∧ tookBack.custody.work = marked gateCard (CustodyStage.writeOut [1#8, 2#8] none [])
    ∧ (markedMeasure (MeasureStage.writeOut [1#8, 2#8] none [])).powered = true
    ∧ (markedMeasure (MeasureStage.writeOut [1#8, 2#8] none [])).startUp = StartUp.ended
    ∧ (markedMeasure (MeasureStage.writeOut [1#8, 2#8] none [])).carries
    ∧ (markedMeasure (MeasureStage.writeOut [1#8, 2#8] none [])).update.wipe ≠ UpdateWipe.held
    ∧ (markedMeasure (MeasureStage.writeOut [1#8, 2#8] none [])).measure.work
        = marked gateCard (MeasureStage.writeOut [1#8, 2#8] none [])
    ∧ (markedMeasure (MeasureStage.writeOut [1#8, 2#8] none [])).measure.paused = none
    ∧ (markedUpdate (UpdateStage.writeOut [1#8, 2#8] none [])).powered = true
    ∧ (markedUpdate (UpdateStage.writeOut [1#8, 2#8] none [])).startUp = StartUp.ended
    ∧ (markedUpdate (UpdateStage.writeOut [1#8, 2#8] none [])).carries
    ∧ (markedUpdate (UpdateStage.writeOut [1#8, 2#8] none [])).update.wipe ≠ UpdateWipe.held
    ∧ (markedUpdate (UpdateStage.writeOut [1#8, 2#8] none [])).update.work = marked gateCard (UpdateStage.writeOut [1#8, 2#8] none [])
    ∧ (markedLife (LifeStage.writeOut [1#8, 2#8] none [])).powered = true
    ∧ (markedLife (LifeStage.writeOut [1#8, 2#8] none [])).startUp = StartUp.ended
    ∧ (markedLife (LifeStage.writeOut [1#8, 2#8] none [])).carries
    ∧ (markedLife (LifeStage.writeOut [1#8, 2#8] none [])).update.wipe ≠ UpdateWipe.held
    ∧ (markedLife (LifeStage.writeOut [1#8, 2#8] none [])).lifecycle.work = marked gateCard (LifeStage.writeOut [1#8, 2#8] none [])
    ∧ (hashing HashClient.custody true (markedCustody CustodyStage.mac)).powered = true
    ∧ (hashing HashClient.custody true (markedCustody CustodyStage.mac)).startUp = StartUp.ended
    ∧ (hashing HashClient.custody true (markedCustody CustodyStage.mac)).carries
    ∧ (hashing HashClient.custody true (markedCustody CustodyStage.mac)).update.wipe ≠ UpdateWipe.held
    ∧ (hashing HashClient.custody true (markedCustody CustodyStage.mac)).hash.running
        = some { client := HashClient.custody, job := shaJob [1#8], withdrawn := true }
    ∧ (hashing HashClient.custody true (markedCustody CustodyStage.mac)).custody.work = marked gateCard CustodyStage.mac
    ∧ (hashing HashClient.measure true (markedMeasure (MeasureStage.quoteHash [1#8] 3))).powered = true
    ∧ (hashing HashClient.measure true (markedMeasure (MeasureStage.quoteHash [1#8] 3))).startUp = StartUp.ended
    ∧ (hashing HashClient.measure true (markedMeasure (MeasureStage.quoteHash [1#8] 3))).carries
    ∧ (hashing HashClient.measure true (markedMeasure (MeasureStage.quoteHash [1#8] 3))).update.wipe ≠ UpdateWipe.held
    ∧ (hashing HashClient.measure true (markedMeasure (MeasureStage.quoteHash [1#8] 3))).hash.running
        = some { client := HashClient.measure, job := shaJob [1#8], withdrawn := true }
    ∧ (hashing HashClient.measure true (markedMeasure (MeasureStage.quoteHash [1#8] 3))).measure.work
        = marked gateCard (MeasureStage.quoteHash [1#8] 3)
    ∧ (hashing HashClient.update true (markedUpdate UpdateStage.feed)).powered = true
    ∧ (hashing HashClient.update true (markedUpdate UpdateStage.feed)).startUp = StartUp.ended
    ∧ (hashing HashClient.update true (markedUpdate UpdateStage.feed)).carries
    ∧ (hashing HashClient.update true (markedUpdate UpdateStage.feed)).update.wipe ≠ UpdateWipe.held
    ∧ (hashing HashClient.update true (markedUpdate UpdateStage.feed)).hash.running
        = some { client := HashClient.update, job := shaJob [1#8], withdrawn := true }
    ∧ (hashing HashClient.update true (markedUpdate UpdateStage.feed)).update.work = marked gateCard UpdateStage.feed
    ∧ (hashing HashClient.update true (markedUpdate UpdateStage.feed)).update.session = Session.opened openSession
    ∧ (hashing HashClient.credential true (markedCred (CredStage.enrolHash (1#128) none))).powered = true
    ∧ (hashing HashClient.credential true (markedCred (CredStage.enrolHash (1#128) none))).startUp = StartUp.ended
    ∧ (hashing HashClient.credential true (markedCred (CredStage.enrolHash (1#128) none))).carries
    ∧ (hashing HashClient.credential true (markedCred (CredStage.enrolHash (1#128) none))).update.wipe ≠ UpdateWipe.held
    ∧ (hashing HashClient.credential true (markedCred (CredStage.enrolHash (1#128) none))).hash.running
        = some { client := HashClient.credential, job := shaJob [1#8], withdrawn := true }
    ∧ (hashing HashClient.credential true (markedCred (CredStage.enrolHash (1#128) none))).credential.work
        = marked gateCard (CredStage.enrolHash (1#128) none)
    ∧ (hashing HashClient.measure false (markedMeasure (MeasureStage.chainsHash [1#8] [none]))).powered = true
    ∧ (hashing HashClient.measure false (markedMeasure (MeasureStage.chainsHash [1#8] [none]))).startUp = StartUp.ended
    ∧ (hashing HashClient.measure false (markedMeasure (MeasureStage.chainsHash [1#8] [none]))).carries
    ∧ (hashing HashClient.measure false (markedMeasure (MeasureStage.chainsHash [1#8] [none]))).update.wipe ≠ UpdateWipe.held
    ∧ (hashing HashClient.measure false (markedMeasure (MeasureStage.chainsHash [1#8] [none]))).hash.running
        = some { client := HashClient.measure, job := shaJob [1#8], withdrawn := false }
    ∧ [1#8].length ≤ 4096
    ∧ (hashing HashClient.measure false (markedMeasure (MeasureStage.chainsHash [1#8] [none]))).measure.service = none
    ∧ (hashing HashClient.measure false (markedMeasure (MeasureStage.chainsHash [1#8] [none]))).measure.work
        = marked gateCard (MeasureStage.chainsHash [1#8] [none])
    ∧ (curving CurveClient.custody (CurveOp.sign 5#256 0#256) (markedCustody CustodyStage.curveSign)).powered = true
    ∧ (curving CurveClient.custody (CurveOp.sign 5#256 0#256) (markedCustody CustodyStage.curveSign)).startUp = StartUp.ended
    ∧ (curving CurveClient.custody (CurveOp.sign 5#256 0#256) (markedCustody CustodyStage.curveSign)).carries
    ∧ (curving CurveClient.custody (CurveOp.sign 5#256 0#256) (markedCustody CustodyStage.curveSign)).update.wipe ≠ UpdateWipe.held
    ∧ (curving CurveClient.custody (CurveOp.sign 5#256 0#256) (markedCustody CustodyStage.curveSign)).curve.running
        = some { client := CurveClient.custody, op := CurveOp.sign 5#256 0#256 }
    ∧ (curving CurveClient.custody (CurveOp.sign 5#256 0#256) (markedCustody CustodyStage.curveSign)).custody.undo = none
    ∧ (curving CurveClient.custody (CurveOp.sign 5#256 0#256) (markedCustody CustodyStage.curveSign)).custody.work
        = marked gateCard CustodyStage.curveSign
    ∧ (waitsCurve CurveClient.measure
        (curving CurveClient.custody (CurveOp.generate 1#256) (markedCustody CustodyStage.curveGenerate))).powered = true
    ∧ (waitsCurve CurveClient.measure
        (curving CurveClient.custody (CurveOp.generate 1#256) (markedCustody CustodyStage.curveGenerate))).startUp = StartUp.ended
    ∧ (waitsCurve CurveClient.measure
        (curving CurveClient.custody (CurveOp.generate 1#256) (markedCustody CustodyStage.curveGenerate))).carries
    ∧ (waitsCurve CurveClient.measure
        (curving CurveClient.custody (CurveOp.generate 1#256) (markedCustody CustodyStage.curveGenerate))).update.wipe ≠
        UpdateWipe.held
    ∧ (waitsCurve CurveClient.measure
        (curving CurveClient.custody (CurveOp.generate 1#256) (markedCustody CustodyStage.curveGenerate))).curve.running
        = some { client := CurveClient.custody, op := CurveOp.generate 1#256 }
    ∧ (waitsCurve CurveClient.measure
        (curving CurveClient.custody (CurveOp.generate 1#256) (markedCustody CustodyStage.curveGenerate))).custody.undo = none
    ∧ (waitsCurve CurveClient.measure
        (curving CurveClient.custody (CurveOp.generate 1#256) (markedCustody CustodyStage.curveGenerate))).custody.work
        = marked gateCard CustodyStage.curveGenerate := by
  unfold State.alone State.carries
  repeat' apply And.intro
  all_goals decide +kernel

/-- What `Obligations.AbandonsReachCardsInWork` supposes is met, clause by clause. -/
theorem witness_abandonsReachCardsInWork_part5 :
    (curving CurveClient.measure (CurveOp.signByIdentity none 0#256) (markedMeasure (MeasureStage.quoteSign [1#8] 3))).powered = true
    ∧ (curving CurveClient.measure (CurveOp.signByIdentity none 0#256) (markedMeasure (MeasureStage.quoteSign [1#8] 3))).startUp
        = StartUp.ended
    ∧ (curving CurveClient.measure (CurveOp.signByIdentity none 0#256) (markedMeasure (MeasureStage.quoteSign [1#8] 3))).carries
    ∧ (curving CurveClient.measure (CurveOp.signByIdentity none 0#256) (markedMeasure (MeasureStage.quoteSign [1#8] 3))).update.wipe
        ≠ UpdateWipe.held
    ∧ (curving CurveClient.measure (CurveOp.signByIdentity none 0#256)
        (markedMeasure (MeasureStage.quoteSign [1#8] 3))).curve.running
        = some { client := CurveClient.measure, op := CurveOp.signByIdentity none 0#256 }
    ∧ (curving CurveClient.measure (CurveOp.signByIdentity none 0#256) (markedMeasure (MeasureStage.quoteSign [1#8] 3))).measure.work
        = marked gateCard (MeasureStage.quoteSign [1#8] 3)
    ∧ (curving CurveClient.update (CurveOp.verify 9#512 0#256 1#512) (markedUpdate UpdateStage.verifyCurve)).powered = true
    ∧ (curving CurveClient.update (CurveOp.verify 9#512 0#256 1#512) (markedUpdate UpdateStage.verifyCurve)).startUp = StartUp.ended
    ∧ (curving CurveClient.update (CurveOp.verify 9#512 0#256 1#512) (markedUpdate UpdateStage.verifyCurve)).carries
    ∧ (curving CurveClient.update (CurveOp.verify 9#512 0#256 1#512) (markedUpdate UpdateStage.verifyCurve)).update.wipe ≠
        UpdateWipe.held
    ∧ (curving CurveClient.update (CurveOp.verify 9#512 0#256 1#512) (markedUpdate UpdateStage.verifyCurve)).curve.running
        = some { client := CurveClient.update, op := CurveOp.verify 9#512 0#256 1#512 }
    ∧ (curving CurveClient.update (CurveOp.verify 9#512 0#256 1#512) (markedUpdate UpdateStage.verifyCurve)).update.work
        = marked gateCard UpdateStage.verifyCurve
    ∧ (curving CurveClient.lifecycle (CurveOp.generate 1#256) (markedLife LifeStage.generate)).powered = true
    ∧ (curving CurveClient.lifecycle (CurveOp.generate 1#256) (markedLife LifeStage.generate)).startUp = StartUp.ended
    ∧ (curving CurveClient.lifecycle (CurveOp.generate 1#256) (markedLife LifeStage.generate)).carries
    ∧ (curving CurveClient.lifecycle (CurveOp.generate 1#256) (markedLife LifeStage.generate)).update.wipe ≠ UpdateWipe.held
    ∧ (curving CurveClient.lifecycle (CurveOp.generate 1#256) (markedLife LifeStage.generate)).curve.running
        = some { client := CurveClient.lifecycle, op := CurveOp.generate 1#256 }
    ∧ (curving CurveClient.lifecycle (CurveOp.generate 1#256) (markedLife LifeStage.generate)).lifecycle.work
        = marked gateCard LifeStage.generate := by
  unfold State.carries
  repeat' apply And.intro
  all_goals decide +kernel

/-- What `Obligations.ReadingPasses` supposes is met, clause by clause. -/
theorem witness_readingPasses :
    up.isReading = true
    ∧ up.exch.candidate = none
    ∧ (State.hostStores [] up).linkEntry = 0
    ∧ (State.hostStores [(4100, 9#8)] up).exch.cards < (State.hostStores [(4100, 9#8)] up).linkEntry
    ∧ (State.hostStores [(4100, 8#8)] up).linkEntry = 8
    ∧ 1 ≤ 8
    ∧ 8 ≤ (State.hostStores [(4100, 8#8)] up).exch.cards
    ∧ ((State.hostStores [(4100, 8#8)] up).cardAt 8).byte 0 ≠ 1#8
    ∧ (State.hostStores (posted 8 2 259 0) up).linkEntry = 8
    ∧ 8 ≤ (State.hostStores (posted 8 2 259 0) up).exch.cards
    ∧ ((State.hostStores (posted 8 2 259 0) up).cardAt 8).byte 0 = 1#8
    ∧ ((State.hostStores (posted 8 2 259 0) up).cardAt 8).ticket ≠ (State.hostStores (posted 8 2 259 0) up).exch.expected
    ∧ up.exch.reRead = false
    ∧ rereading.isReading = true
    ∧ rereading.exch.candidate = none
    ∧ (State.hostStores (posted 1 2 259 0) rereading).linkEntry = 1
    ∧ 1 ≤ 1
    ∧ 1 ≤ (State.hostStores (posted 1 2 259 0) rereading).exch.cards
    ∧ ((State.hostStores (posted 1 2 259 0) rereading).cardAt 1).byte 0 = 1#8
    ∧ ((State.hostStores (posted 1 2 259 0) rereading).cardAt 1).ticket ≠
        (State.hostStores (posted 1 2 259 0) rereading).exch.expected
    ∧ rereading.exch.reRead = true
    ∧ rereading.exch.mismatch ≠ some 1
    ∧ passFinds (State.hostStores (posted 8 1 259 1) up) 8
    ∧ (¬(((State.hostStores (posted 8 1 259 1) up).cardAt 8).ordered = true
        ∧ selfSettled ((State.hostStores (posted 8 1 259 1) up).cardAt 8) = false ∧ up.exch.buffers ≠ []))
    ∧ roomFor (State.hostStores (posted 8 1 259 1) up) ((State.hostStores (posted 8 1 259 1) up).cardAt 8).code
    ∧ (queued UnitName.update aCard up).isReading = true
    ∧ (queued UnitName.update aCard up).exch.candidate = none
    ∧ passFinds (State.hostStores (posted 8 1 259 1) (queued UnitName.update aCard up)) 8
    ∧ ((State.hostStores (posted 8 1 259 1) (queued UnitName.update aCard up)).cardAt 8).ordered = true
        ∧ selfSettled ((State.hostStores (posted 8 1 259 1) (queued UnitName.update aCard up)).cardAt 8) = false
        ∧ (queued UnitName.update aCard up).exch.buffers ≠ []
    ∧ full.isReading = true
    ∧ full.exch.candidate = none
    ∧ passFinds (State.hostStores (posted 8 1 1288 0) full) 8
    ∧ (¬(((State.hostStores (posted 8 1 1288 0) full).cardAt 8).ordered = true
        ∧ selfSettled ((State.hostStores (posted 8 1 1288 0) full).cardAt 8) = false ∧ full.exch.buffers ≠ []))
    ∧ (¬roomFor (State.hostStores (posted 8 1 1288 0) full) ((State.hostStores (posted 8 1 1288 0) full).cardAt 8).code) := by
  unfold passFinds roomFor
  repeat' apply And.intro
  all_goals decide +kernel

/-- What `Obligations.TakingACard` supposes is met, clause by clause. -/
theorem witness_takingACard :
    (taking 65535 1288).isReading = true
    ∧ (taking 65535 1288).exch.candidate = some (8, 65535#16, 1288#16)
    ∧ unitOf 1288#16 = some UnitName.lifecycle
    ∧ exchangeForm { take := (taking 65535 1288).exch.takes, num := 8, ticket := 65535#16, code := 1288#16,
                     bytes :=
                       Memory.readBytes (State.hostStores (posted 8 1 1288 0) (taking 65535 1288)).host
                         ((taking 65535 1288).pageAddress 8 0) 256 } = none
    ∧ (taking 1 1536).isReading = true
    ∧ (taking 1 1536).exch.candidate = some (8, 1#16, 1536#16)
    ∧ (∀ b ∈ (taking 1 1536).exch.buffers, b.card.take ≠ (taking 1 1536).exch.takes)
    ∧ unitOf 1536#16 = none
    ∧ (taking 1 1288).isReading = true
    ∧ (taking 1 1288).exch.candidate = some (8, 1#16, 1288#16)
    ∧ (∀ b ∈ (taking 1 1288).exch.buffers, b.card.take ≠ (taking 1 1288).exch.takes)
    ∧ exchangeForm { take := (taking 1 1288).exch.takes, num := 8, ticket := 1#16, code := 1288#16,
                     bytes :=
                       Memory.readBytes (State.hostStores (posted 8 1 1288 2) (taking 1 1288)).host
                         ((taking 1 1288).pageAddress 8 0) 256 } = some 256 := by
  repeat' apply And.intro
  all_goals decide +kernel

/-- What `Obligations.SettlingACard` supposes is met, clause by clause. -/
theorem witness_settlingACard :
    (settling AreaState.opened).powered = true
    ∧ (settling AreaState.opened).linkUp = true
    ∧ (settling AreaState.opened).exch.area = AreaState.opened
    ∧ (settling AreaState.opened).exch.settleList = [settled]
    ∧ (settling AreaState.draining).powered = true
    ∧ (settling AreaState.draining).linkUp = true
    ∧ (settling AreaState.draining).exch.area = AreaState.draining
    ∧ (settling AreaState.draining).exch.settleList = [settled]
    ∧ (fetch Fetcher.heldByOrdered (settling AreaState.opened)).powered = true
    ∧ (fetch Fetcher.heldByOrdered (settling AreaState.opened)).linkUp = true
    ∧ (fetch Fetcher.heldByOrdered (settling AreaState.opened)).exch.area = AreaState.opened
    ∧ (fetch Fetcher.heldByOrdered (settling AreaState.opened)).exch.settleList = [settled]
    ∧ (fetch (Fetcher.heldForRoom 772#16) (settling AreaState.opened)).powered = true
    ∧ (fetch (Fetcher.heldForRoom 772#16) (settling AreaState.opened)).linkUp = true
    ∧ (fetch (Fetcher.heldForRoom 772#16) (settling AreaState.opened)).exch.area = AreaState.opened
    ∧ (fetch (Fetcher.heldForRoom 772#16) (settling AreaState.opened)).exch.settleList = [settled] := by
  repeat' apply And.intro
  all_goals decide +kernel

/-- What `Obligations.FailedAccessesFaultTheArea` supposes is met, clause by clause. -/
theorem witness_failedAccessesFaultTheArea :
    (awaits OpenAnswer.readAwaited).powered = true
    ∧ (awaits OpenAnswer.readAwaited).linkUp = true
    ∧ (∀ (c : OpenSession), (awaits OpenAnswer.readAwaited).update.session ≠ Session.opened c)
    ∧ (awaits OpenAnswer.readAwaited).exch.area = AreaState.opening
    ∧ (awaits OpenAnswer.readAwaited).exch.openAwait = some OpenAnswer.readAwaited
    ∧ (awaits OpenAnswer.writeAwaited).powered = true
    ∧ (awaits OpenAnswer.writeAwaited).linkUp = true
    ∧ (∀ (c : OpenSession), (awaits OpenAnswer.writeAwaited).update.session ≠ Session.opened c)
    ∧ (awaits OpenAnswer.writeAwaited).exch.area = AreaState.opening
    ∧ (awaits OpenAnswer.writeAwaited).exch.openAwait = some OpenAnswer.writeAwaited
    ∧ (∀ (n : ℕ), ¬validHeader (State.hostStores (header 121) (awaits OpenAnswer.readAwaited)) n)
    ∧ up.powered = true
    ∧ up.linkUp = true
    ∧ (∀ (c : OpenSession), up.update.session ≠ Session.opened c)
    ∧ up.isReading = true
    ∧ up.exch.candidate = none
    ∧ (State.hostStores (posted 8 1 259 0) up).linkEntry = 8
    ∧ 1 ≤ 8
    ∧ 8 ≤ up.exch.cards
    ∧ (taking 1 1288).powered = true
    ∧ (taking 1 1288).linkUp = true
    ∧ (∀ (c : OpenSession), (taking 1 1288).update.session ≠ Session.opened c)
    ∧ (taking 1 1288).isReading = true
    ∧ (taking 1 1288).exch.candidate = some (8, 1#16, 1288#16)
    ∧ (settling AreaState.abandoning).powered = true
    ∧ (settling AreaState.abandoning).linkUp = true
    ∧ (∀ (c : OpenSession), (settling AreaState.abandoning).update.session ≠ Session.opened c)
    ∧ (settling AreaState.abandoning).exch.area.settles = true
    ∧ (settling AreaState.abandoning).exch.settleList = [settled] := by
  unfold validHeader
  repeat' apply And.intro
  all_goals first
    | decide +kernel
    | (intro _ h; cases h; done)
    | exact fun n h => absurd (h.2.1.symm.trans (by decide +kernel : _ = 121)) (by omega)

/-- What `Obligations.LinkLossAndReturn` supposes is met, clause by clause. -/
theorem witness_linkLossAndReturn :
    (settling AreaState.draining).powered = true
    ∧ (settling AreaState.draining).linkUp = true
    ∧ (settling AreaState.draining).exch.area.isActive = true
    ∧ (∀ (c : OpenSession), (settling AreaState.draining).update.session ≠ Session.opened c)
    ∧ (area AreaState.closed up).powered = true
    ∧ (area AreaState.closed up).linkUp = true
    ∧ (area AreaState.closed up).exch.area = AreaState.closed
    ∧ linkDown.powered = true
    ∧ linkDown.linkUp = false
    ∧ up.linkUp = true := by
  repeat' apply And.intro
  all_goals first
    | decide +kernel
    | (intro _ h; cases h)

/-- What `Obligations.PaceTicks` supposes is met, clause by clause. -/
theorem witness_paceTicks :
    (tickAt 63).powered = true
    ∧ (tickAt 63).presenceDue = false
    ∧ (tickAt 63).pace.decayDue = false
    ∧ (tickAt 63).pace.refreshDue = false
    ∧ (tickAt 63).idleExpires = false
    ∧ (tickAt 63).guardExpires = false
    ∧ (tickAt 63).periodExpires = false
    ∧ (tickAt 63).lifecycle.holdDue = false
    ∧ (tickAt 511).powered = true
    ∧ (tickAt 511).presenceDue = false
    ∧ (tickAt 511).pace.decayDue = false
    ∧ (tickAt 511).pace.refreshDue = false
    ∧ (tickAt 511).idleExpires = false
    ∧ (tickAt 511).guardExpires = false
    ∧ (tickAt 511).periodExpires = false
    ∧ (tickAt 511).lifecycle.holdDue = false
    ∧ (tickAt 4294967295).powered = true
    ∧ (tickAt 4294967295).presenceDue = false
    ∧ (tickAt 4294967295).pace.decayDue = false
    ∧ (tickAt 4294967295).pace.refreshDue = false
    ∧ (tickAt 4294967295).idleExpires = false
    ∧ (tickAt 4294967295).guardExpires = false
    ∧ (tickAt 4294967295).periodExpires = false
    ∧ (tickAt 4294967295).lifecycle.holdDue = false := by
  repeat' apply And.intro
  all_goals decide +kernel

/-- What `Obligations.StartUpLoadsTheTables` supposes is met, clause by clause. -/
theorem witness_startUpLoadsTheTables :
    heldEvent.mayStart = true
    ∧ (∀ (i : Fin 32) (r : CredRecord), (tableGet heldEvent.store.creds i).loaded = some r → r.cls = CredClass.factory
        ∨ (heldEvent.store.lifecycle.loaded.getD { effective := LifecycleState.blank, marker := false }).effective
        = LifecycleState.claimed)
    ∧ (∀ (k : Fin 8) (r : KindRecord), (tableGet heldEvent.store.kinds k).loaded = some r → r.trial = none)
    ∧ (stored settledKind).mayStart = true
    ∧ (∀ (i : Fin 32) (r : CredRecord), (tableGet (stored settledKind).store.creds i).loaded = some r → r.cls = CredClass.factory
        ∨ ((stored settledKind).store.lifecycle.loaded.getD { effective := LifecycleState.blank, marker := false }).effective
        = LifecycleState.claimed)
    ∧ (∀ (k : Fin 8) (r : KindRecord), (tableGet (stored settledKind).store.kinds k).loaded = some r → r.trial = none)
    ∧ State.reset.mayStart = true
    ∧ (∀ (i : Fin 32) (r : CredRecord), (tableGet State.reset.store.creds i).loaded = some r → r.cls = CredClass.factory
        ∨ (State.reset.store.lifecycle.loaded.getD { effective := LifecycleState.blank, marker := false }).effective
        = LifecycleState.claimed)
    ∧ (∀ (k : Fin 8) (r : KindRecord), (tableGet State.reset.store.kinds k).loaded = some r → r.trial = none)
    ∧ (stored (onTrial SignerClass.root)).mayStart = true
    ∧ (stored (onTrial SignerClass.root)).quiet Client.update
    ∧ (∀ (i : Fin 32) (c : CredRecord), (tableGet (stored (onTrial SignerClass.root)).store.creds i).loaded = some c → c.cls
        = CredClass.factory)
    ∧ (tableGet (stored (onTrial SignerClass.root)).store.kinds 7).loaded = some (onTrial SignerClass.root)
    ∧ (onTrial SignerClass.root).trial = some (trial SignerClass.root)
    ∧ (∀ (j : Fin 8) (q : KindRecord), j ≠ 7 → (tableGet (stored (onTrial SignerClass.root)).store.kinds j).loaded = some q → q.trial
        = none)
    ∧ stray.mayStart = true
    ∧ stray.quiet Client.credential
    ∧ stray.outboxes.refresh = []
    ∧ (stray.store.lifecycle.loaded.getD { effective := LifecycleState.blank, marker := false }).effective ≠ LifecycleState.claimed
    ∧ (tableGet stray.store.creds 31).loaded = some (ownerRecord CredKind.admin none)
    ∧ (ownerRecord CredKind.admin none).cls = CredClass.owner
    ∧ (∀ (j : Fin 32) (q : CredRecord), j ≠ 31 → (tableGet stray.store.creds j).loaded = some q → q.cls = CredClass.factory)
    ∧ (atStep (StartUp.step3 1) [{ write := Write.cred 31 none, answerTo := WriteTo.credStartUp }] stray).powered = true
    ∧ (atStep (StartUp.step3 1) [{ write := Write.cred 31 none, answerTo := WriteTo.credStartUp }] stray).startUp = StartUp.step3 1
    ∧ (atStep (StartUp.step3 1) [{ write := Write.cred 31 none, answerTo := WriteTo.credStartUp }] stray).store.waiting = []
    ∧ (atStep (StartUp.step3 1) [{ write := Write.cred 31 none, answerTo := WriteTo.credStartUp }] stray).store.queue
        = [{ write := Write.cred 31 none, answerTo := WriteTo.credStartUp }]
    ∧ (atStep (StartUp.step3 1) [{ write := Write.cred 31 none, answerTo := WriteTo.credStartUp }] stray).credential.work = none
    ∧ (atStep (StartUp.step3 1) [{ write := Write.cred 31 none, answerTo := WriteTo.credStartUp }] stray).cred 31 = none
    ∧ (∀ (k : Fin 8) (r : KindRecord),
        (tableGet (atStep (StartUp.step3 1) [{ write := Write.cred 31 none, answerTo := WriteTo.credStartUp }] stray).store.kinds
        k).loaded = some r → r.trial = none)
    ∧ (atStep (StartUp.step3 1) [{ write := Write.cred 31 none, answerTo := WriteTo.credStartUp }] stray).measure.internal = []
    ∧ (atStep (StartUp.step3 1) [{ write := Write.cred 31 none, answerTo := WriteTo.credStartUp }] stray).measure.service = none
    ∧ (atStep (StartUp.step3 1) [{ write := Write.cred 31 none, answerTo := WriteTo.credStartUp }] stray).measureWaiting = []
    ∧ (boots (onTrial SignerClass.owner)).powered = true
    ∧ (boots (onTrial SignerClass.owner)).startUp = StartUp.step4 1
    ∧ (boots (onTrial SignerClass.owner)).store.waiting = []
    ∧ (boots (onTrial SignerClass.owner)).store.queue
        = [{ write := Write.kind 7 (onTrial SignerClass.owner), answerTo := WriteTo.updateStartUp }]
    ∧ (boots (onTrial SignerClass.owner)).credential.work = none
    ∧ ((boots (onTrial SignerClass.owner)).kindRecord 7).trial = some (trial SignerClass.root)
    ∧ (boots (onTrial SignerClass.owner)).measure.starting = true
    ∧ (boots (onTrial SignerClass.owner)).quiet Client.updateAsk
    ∧ (boots (onTrial SignerClass.owner)).outboxes.updateWipe = []
    ∧ (boots (onTrial SignerClass.owner)).measureWaiting = []
    ∧ (boots (onTrial SignerClass.owner)).measure.internal = []
    ∧ (boots (onTrial SignerClass.owner)).measure.service = none
    ∧ (boots settledKind).powered = true
    ∧ (boots settledKind).startUp = StartUp.step4 1
    ∧ (boots settledKind).store.waiting = []
    ∧ (boots settledKind).store.queue = [{ write := Write.kind 7 settledKind, answerTo := WriteTo.updateStartUp }]
    ∧ (boots settledKind).credential.work = none
    ∧ ((boots settledKind).kindRecord 7).trial = some (trial SignerClass.root)
    ∧ (boots settledKind).measure.starting = true
    ∧ (boots settledKind).quiet Client.updateAsk
    ∧ (boots settledKind).outboxes.updateWipe = []
    ∧ (boots settledKind).measureWaiting = []
    ∧ (boots settledKind).measure.internal = []
    ∧ (boots settledKind).measure.service = none
    ∧ (firstRun false).powered = true
    ∧ (firstRun false).startUp = StartUp.step6
    ∧ (firstRun false).census.run = some { a := 0#8, b := 0#8, r := 0#8 }
    ∧ (firstRun false).census.state = CensusState.doubt
    ∧ (firstRun false).census.waiters = []
    ∧ (firstRun false).outboxes.census = []
    ∧ 240 ≤ (240#8).toNat
    ∧ 240 ≤ (255#8).toNat
    ∧ 208 ≤ (238#8).toNat
    ∧ (238#8).toNat ≤ 238
    ∧ (firstRun false).store.startUpFault = false
    ∧ (firstRun true).powered = true
    ∧ (firstRun true).startUp = StartUp.step6
    ∧ (firstRun true).census.run = some { a := 0#8, b := 0#8, r := 0#8 }
    ∧ (firstRun true).census.state = CensusState.doubt
    ∧ (firstRun true).census.waiters = []
    ∧ (firstRun true).outboxes.census = []
    ∧ 208 ≤ (208#8).toNat
    ∧ (208#8).toNat ≤ 238
    ∧ (firstRun true).store.startUpFault = false
    ∧ (lastEvent StartUp.step7 []).powered = true
    ∧ (lastEvent StartUp.step7 []).hash.running
        = some { client := HashClient.measure, job := shaJob (strBytes 0#256 ++ strBytes 1#256), withdrawn := false }
    ∧ (lastEvent StartUp.step7 []).measure.service = some (MeasureService.eventExtend PartEvent.ownershipReleased 1#256)
    ∧ (lastEvent StartUp.step7 []).measure.internal = [MeasureRequest.event PartEvent.ownershipReleased]
    ∧ (lastEvent StartUp.step7 []).measureWaiting = []
    ∧ (lastEvent StartUp.step7 []).measure.work = none
    ∧ (lastEvent StartUp.step7 []).measure.records.length < 96
    ∧ (lastEvent StartUp.step7 []).startUp = StartUp.step7
    ∧ (lastEvent StartUp.step7 []).lifecycle.progress = Progress.none
    ∧ (lastEvent StartUp.step7 [MeasureRequest.event PartEvent.ownershipReleased]).powered = true
    ∧ (lastEvent StartUp.step7 [MeasureRequest.event PartEvent.ownershipReleased]).hash.running
        = some { client := HashClient.measure, job := shaJob (strBytes 0#256 ++ strBytes 1#256), withdrawn := false }
    ∧ (lastEvent StartUp.step7 [MeasureRequest.event PartEvent.ownershipReleased]).measure.service
        = some (MeasureService.eventExtend PartEvent.ownershipReleased 1#256)
    ∧ (lastEvent StartUp.step7 [MeasureRequest.event PartEvent.ownershipReleased]).measure.internal
        = [MeasureRequest.event PartEvent.ownershipReleased, MeasureRequest.event PartEvent.ownershipReleased]
    ∧ (lastEvent StartUp.step7 [MeasureRequest.event PartEvent.ownershipReleased]).measureWaiting = []
    ∧ (lastEvent StartUp.step7 [MeasureRequest.event PartEvent.ownershipReleased]).measure.work = none
    ∧ (lastEvent StartUp.step7 [MeasureRequest.event PartEvent.ownershipReleased]).measure.records.length < 96
    ∧ (lastEvent StartUp.step7 [MeasureRequest.event PartEvent.ownershipReleased]).startUp = StartUp.step7
    ∧ (lastEvent StartUp.step7 [MeasureRequest.event PartEvent.ownershipReleased]).lifecycle.progress = Progress.none := by
  unfold State.quiet
  repeat' apply And.intro
  all_goals first
    | decide +kernel
    | exact fun j q hj hq =>
        (by decide +kernel : ∀ j : Fin 8, j ≠ 7 → ∀ q, (tableGet (stored (onTrial SignerClass.root)).store.kinds j).loaded = some q
        → q.trial = none) j hj q hq
    | exact fun j q hj hq =>
        (by decide +kernel : ∀ j : Fin 32, j ≠ 31 → ∀ q, (tableGet stray.store.creds j).loaded = some q → q.cls = CredClass.factory)
        j hj q hq

/-- What `Obligations.StartUpLoadsTheTables` supposes is met, clause by clause. -/
theorem witness_startUpLoadsTheTables_more :
    (lastEvent StartUp.step5 []).powered = true
    ∧ (lastEvent StartUp.step5 []).hash.running
        = some { client := HashClient.measure, job := shaJob (strBytes 0#256 ++ strBytes 1#256), withdrawn := false }
    ∧ (lastEvent StartUp.step5 []).measure.service = some (MeasureService.eventExtend PartEvent.ownershipReleased 1#256)
    ∧ (lastEvent StartUp.step5 []).measure.internal = [MeasureRequest.event PartEvent.ownershipReleased]
    ∧ (lastEvent StartUp.step5 []).measureWaiting = []
    ∧ (lastEvent StartUp.step5 []).measure.work = none
    ∧ (lastEvent StartUp.step5 []).measure.records.length < 96
    ∧ (lastEvent StartUp.step5 []).startUp = StartUp.step5
    ∧ (lastEvent StartUp.step5 [MeasureRequest.event PartEvent.ownershipReleased]).powered = true
    ∧ (lastEvent StartUp.step5 [MeasureRequest.event PartEvent.ownershipReleased]).hash.running
        = some { client := HashClient.measure, job := shaJob (strBytes 0#256 ++ strBytes 1#256), withdrawn := false }
    ∧ (lastEvent StartUp.step5 [MeasureRequest.event PartEvent.ownershipReleased]).measure.service
        = some (MeasureService.eventExtend PartEvent.ownershipReleased 1#256)
    ∧ (lastEvent StartUp.step5 [MeasureRequest.event PartEvent.ownershipReleased]).measure.internal
        = [MeasureRequest.event PartEvent.ownershipReleased, MeasureRequest.event PartEvent.ownershipReleased]
    ∧ (lastEvent StartUp.step5 [MeasureRequest.event PartEvent.ownershipReleased]).measureWaiting = []
    ∧ (lastEvent StartUp.step5 [MeasureRequest.event PartEvent.ownershipReleased]).measure.work = none
    ∧ (lastEvent StartUp.step5 [MeasureRequest.event PartEvent.ownershipReleased]).measure.records.length < 96
    ∧ (lastEvent StartUp.step5 [MeasureRequest.event PartEvent.ownershipReleased]).startUp = StartUp.step5 := by
  repeat' apply And.intro
  all_goals first
    | decide +kernel
    | exact fun j q hj hq =>
        (by decide +kernel : ∀ j : Fin 8, j ≠ 7 → ∀ q, (tableGet (stored (onTrial SignerClass.root)).store.kinds j).loaded = some q
        → q.trial = none) j hj q hq
    | exact fun j q hj hq =>
        (by decide +kernel : ∀ j : Fin 32, j ≠ 31 → ∀ q, (tableGet stray.store.creds j).loaded = some q → q.cls = CredClass.factory)
        j hj q hq

def flagged (s : State) : State := { s with store := { s.store with startUpFault := true } }

def failedRun (pending : Bool) : State :=
  let s := firstRun pending
  { s with
    census := { s.census with state := .failed, run := none }
    measureWaiting := [.census]
    outboxes := { s.outboxes with census := [.request (.event .censusFailed), .act .censusAttention] } }

/-- Start-up runs that end: with the start-up fault flag set, in each way a run can fail, after the event of a failed one, and in step 7. -/
theorem witness_startUpLoadsTheTables_part3 :
    (flagged (firstRun false)).powered = true
    ∧ (flagged (firstRun false)).startUp = .step6
    ∧ (flagged (firstRun false)).census.run = some { a := 0#8, b := 0#8, r := 0#8 }
    ∧ (flagged (firstRun false)).census.state = .doubt
    ∧ (flagged (firstRun false)).census.waiters = []
    ∧ (flagged (firstRun false)).outboxes.census = []
    ∧ (flagged (firstRun false)).store.startUpFault = true
    ∧ (firstRun false).quiet .census
    ∧ (firstRun false).measure.starting = false
    ∧ ((239#8 : Byte).toNat < 240 ∧ (207#8 : Byte).toNat < 208 ∧ 238 < (239#8 : Byte).toNat)
    ∧ (∀ pending : Bool, (failedRun pending).powered = true ∧ (failedRun pending).startUp = .step6 ∧ (failedRun pending).census.run = none
        ∧ (failedRun pending).census.state = .failed ∧ (failedRun pending).measure.starting = false
        ∧ (failedRun pending).measure.work = none ∧ (failedRun pending).measure.service = none
        ∧ (failedRun pending).measure.internal = [] ∧ (failedRun pending).measureWaiting = [.census]
        ∧ (failedRun pending).outboxes.census = [.request (.event .censusFailed), .act .censusAttention]
        ∧ (failedRun pending).lifecycle.pending = pending)
    ∧ (flagged (failedRun false)).store.startUpFault = true
    ∧ (flagged (lastEvent .step7 [])).startUp = .step7
    ∧ (flagged (lastEvent .step7 [])).store.startUpFault = true
    ∧ (flagged (lastEvent .step7 [])).lifecycle.progress = .none
    ∧ (flagged (lastEvent .step7 [])).measure.internal = [.event .ownershipReleased]
    ∧ (lastEvent .step7 [.event .ownershipReleased]).measure.internal ≠ [.event .ownershipReleased] := by
  unfold State.quiet
  repeat' apply And.intro
  all_goals decide +kernel

def pieceOfCustody : State :=
  { up with hash := { up.hash with running := some { client := .custody, job := shaJob [1#8], withdrawn := false } } }

/-- The reset and loss-of-supply clauses: a part without supply, one with supply and a free reset line, and one whose store has no write. -/
theorem witness_supply : off.powered = false ∧ up.powered = true ∧ up.resetLine = false ∧ up.store.queue = [] := by decide +kernel

/-- Every invariant holds of the machine after start-up with a command waiting, and the step at it gives a next state. -/
theorem witness_stepsKeepTheInvariants :
    let s := waitingCmd [Instr.settleAck 4#32] up
    s.memoryOk ∧ s.recordsOk ∧ s.buffersOk ∧ s.guardOk ∧ s.pendingOk ∧ s.storeOk ∧ ∃ t, step s = .next t := by
  unfold State.memoryOk State.recordsOk State.buffersOk State.guardOk State.pendingOk State.storeOk
  exact ⟨by decide +kernel, by decide +kernel, by decide +kernel, by decide +kernel, by decide +kernel, by decide +kernel, _, rfl⟩

/-- A hash piece of the custody unit, a store write after start-up, and a card that changes no chain, each with a next state. -/
theorem witness_chainsChangeOnlyByExtension :
    (∀ run, pieceOfCustody.hash.running = some run → run.client ≠ .measure)
      ∧ (∃ t, exec (.hashPieceEnd [] true) pieceOfCustody = .next t) ∧ (∀ n, up.startUp ≠ .step3 n ∧ up.startUp ≠ .step4 n)
      ∧ (∃ t, exec (.storeWriteEnd true true) up = .next t)
      ∧ ∃ t, exec .closeChain (queued .measure (card 0x0202#16 [9#8] [] []) up) = .next t :=
  ⟨by decide +kernel, ⟨_, rfl⟩, by intro n; exact ⟨nofun, nofun⟩, ⟨_, rfl⟩, ⟨_, rfl⟩⟩

/-- A KEY ERASE of slot 6, the first that is not fixed, gives a next state, and nothing of the custody unit waits to be sent. -/
theorem witness_keyErase_outside_fixed_slots :
    up.outboxes.custody = [] ∧ ∃ t, exec .keyErase (queued .custody (card 0x0108#16 [6#8] [] []) up) = .next t := ⟨by decide, _, rfl⟩

/-- A command that touches no host memory gives a next state, and an opening with a valid header and a take do; byte 17 of the header page
and byte 1 of the card are not written. -/
theorem witness_onlyAccessesChangeHostMemory :
    touchesHost (.settleAck 4#32) = false ∧ (∃ t, exec (.settleAck 4#32) up = .next t)
      ∧ (area .closed up).reachable = true ∧ (area .closed up).exch.area = .closed
      ∧ validHeader ((area .closed up).hostStores (header 8)) 8
          ∧ (∃ t, exec (.areaOpen true (header 8) .both) (area .closed up) = .next t)
      ∧ ¬(area .closed up).inPage 0 8 9 0x1011 ∧ (taking 1 0x0508).isReading = true
      ∧ (taking 1 0x0508).exch.candidate = some (8, 1#16, 0x0508#16)
      ∧ (∃ t, exec (.cardTake (posted 8 1 0x0508 0)) (taking 1 0x0508) = .next t) ∧ ¬(taking 1 0x0508).inPage 8 0 1 0x1801
      ∧ ¬(taking 1 0x0508).inPage 0 12 2 0x1801 := by
  unfold validHeader State.inPage
  exact ⟨by decide, ⟨_, rfl⟩, by decide +kernel, by decide +kernel, by decide +kernel, ⟨_, rfl⟩, by decide +kernel,
      by decide +kernel, by decide +kernel,
    ⟨_, rfl⟩, by decide +kernel, by decide +kernel⟩

end Area

/-! ## The custody unit -/

namespace Keys

def signCard : Card := card 0x0103#16 [] [40#8, 32#8] []

def macCard : Card := card 0x0104#16 [] [40#8] [(0x5000, 10)]

def signState (k : KeyRecord) : State := (queued .custody signCard up).setSlot 40 (some k)

def macState (k : KeyRecord) : State := (queued .custody macCard up).setSlot 40 (some k)

def bound (k : KeyRecord) : KeyRecord := { k with binding := some (.exactly 1#12 0#256) }

def spentKey : KeyRecord := { signKey with state := .spent }

def dumbKey : KeyRecord := { signKey with flags := KeyFlags.none }

def ownerKey : KeyRecord := { signKey with cls := .owner }

def presenceKey : KeyRecord := { signKey with flags := { signKey.flags with needsPresence := true } }

def wiping (s : State) : State := { s with lifecycle := { s.lifecycle with pending := true, progress := .marking } }

def genCard (target cls alg flags : Nat) : Card := card 0x0101#16 [] ([byteOf target, byteOf cls, byteOf alg, byteOf flags]) []

def genState (c : Card) : State := unclaimed (queued .custody c up)

def census (x : CensusState) (s : State) : State := { s with census := { s.census with state := x } }

def importCard : Card := card 0x0102#16 [] [41#8, 40#8, 7#8] [(0x5000, 163)]

def wrapCard : Card := card 0x0105#16 [] [41#8, 40#8] [(0x5000, 163)]

def importState : State := unclaimed ((queued .custody importCard up).setSlot 40 (some wrapKey))

def wrapState : State := ((queued .custody wrapCard up).setSlot 40 (some wrapKey)).setSlot 41 (some signKey)

def blobBytes : List Byte := [1#8, 1#8, 1#8] ++ leBytes 36 0 ++ leBytes 96 5

def blobHeld : BlobContents :=
    { flags := KeyFlags.ofByte 1#8, binding := none, material := .p256 (some (scalarOfBytes (leBytes 32 5))) 0#512 }

def changeCard (code : Word16) (slot : Nat) : Card := card code [] [byteOf slot, 0x10#8, 0x10#8] []

def provisional : KeyRecord := { signKey with state := .provisional }

def changeState (code : Word16) (slot : Fin 48) (k : KeyRecord) : State := (queued .custody (changeCard code slot.val) up).setSlot
    slot (some k)

def tight : KeyRecord := { signKey with flags := { KeyFlags.none with needsPresence := true } }

def loosenCard : Card := card 0x0106#16 [] [32#8, 0x01#8, 0x01#8] []

def softenCard : Card := card 0x0106#16 [] [32#8, 0x10#8, 0x00#8] []

def loosening (c : Card) : State := (queued .custody c up).setSlot 32 (some tight)

def badMask : Card := card 0x0106#16 [] [32#8, 0x80#8, 0x40#8] []

def badValue : Card := card 0x0106#16 [] [47#8, 0x1F#8, 0x20#8] []

def describeCard (e : List (Nat × Nat)) : Card := card 0x0109#16 [] [40#8] e

def drawCard (n : Nat) : Card := card 0x010A#16 [] [byteOf n] []

def described (k : KeyRecord) : State := (queued .custody (describeCard []) up).setSlot 40 (some k)

def fullKey : KeyRecord := { signKey with
  state := .spent, cls := .platform, binding := some (.exactly 0x801#12 7#256), limit := some { limit := 0x102, remaining := 0x203 },
      total := 0x01020304
  label := [0x61#8, 0x62#8], flags := { sign := true, mac := false, wrap := true, exportable := true, needsPresence := true } }

def imageKey : KeyRecord :=
    { macKey with state := .provisional, cls := .owner, binding := some (.acceptedImage 7 10), label := List.replicate 16 0x63#8 }

def held (l : List CustodyRequest) (s : State) : State := { s with custody := { s.custody with held := l } }

def curveRuns (r : CurveRun) (s : State) : State := { s with curve := { s.curve with running := some r } }

def counted (n : Nat) : KeyRecord := { signKey with limit := some { limit := 3, remaining := n } }

def signing (k : KeyRecord) : State :=
  let s := curveRuns { client := .custody, op := .sign 5#256 0#256 } ((begun .custody signCard up).setSlot 40 (some k))
  { s with custody := { s.custody with work := working signCard .curveSign false } }

def quoteCard : Card := card 0x0205#16 [] [] [(0x5000, 264)]

def quoting : State :=
  let s := curveRuns { client := .measure, op := .signByIdentity (some 5#256) 0#256 } (begun .measure quoteCard up)
  { s with measure := { s.measure with work := working quoteCard (.quoteSign [1#8] 1) false } }

def identityCard : Card := card 0x0501#16 [] [] []

def generating : State :=
  let s := curveRuns { client := .lifecycle, op := .generate 5#256 } (begun .lifecycle identityCard up)
  { s with lifecycle := { s.lifecycle with work := working identityCard .generate false } }

def pairing (c : Card) : State :=
  let s := curveRuns { client := .custody, op := .generate 5#256 } (begun .custody c up)
  { s with custody := { s.custody with work := working c .curveGenerate false } }

def fixedState (c : Card) : State := queued .custody c up

def importFixed : Card := card 0x0102#16 [] [5#8, 40#8, 5#8] [(0x5000, 163)]

def macHash (n : Nat) (cut : Bool) (slot : Nat) (k : KeyRecord) : State :=
  let c := card 0x0104#16 [] [byteOf slot] [(0x5000, n)]
  let s := (begun .custody c up).setSlot ⟨slot % 48, Nat.mod_lt _ (by decide)⟩ (some k)
  { s with
    hash := { s.hash with running := some { client := .custody, withdrawn := false,
                                            job := { fn := .hmac 5#256, absorbed := [7#8], source := .extents [(0, 0x5000#64, n)],
                                                     finalize := true } } }
    custody := { s.custody with work := accessing c .mac false cut } }

def macOf (slot n : Nat) : Card := card 0x0104#16 [] [byteOf slot] [(0x5000, n)]

def limited (n : Nat) (k : KeyRecord) : KeyRecord := { k with limit := some { limit := 4, remaining := n } }

def importing (target slot : Nat) (w : KeyRecord) (text : List Byte) : State :=
  let c := card 0x0102#16 [] [byteOf target, byteOf slot, 7#8] [(0x5000, 163)]
  let s := (begun .custody c (unclaimed up)).setSlot ⟨slot % 48, Nat.mod_lt _ (by decide)⟩ (some w)
  { s with
    host := Memory.writeBytes [] 0x5000 (sealBlob 5#256 3#96 text)
    custody := { s.custody with work := working c .readBlob false } }

def importOf (target slot : Nat) : Card := card 0x0102#16 [] [byteOf target, byteOf slot, 7#8] [(0x5000, 163)]

def plainText (version : Byte) : List Byte := [version, 2#8, 2#8] ++ leBytes 36 0 ++ leBytes 96 5

/-- What `Obligations.KeySignAndKeyMacBeginOrAreRefused` supposes is met, clause by clause. -/
theorem witness_keySignAndKeyMacBeginOrAreRefused :
    (signState signKey).custodyReady 259#16 = some signCard
    ∧ keySignForm signCard = none
    ∧ (signState signKey).slot (signCard.slot 0) = some signKey
    ∧ (signState signKey).mayUse KeyUse.sign signKey
    ∧ signKey.material = KeyMaterial.p256 (some 5#256) 9#512
    ∧ signKey.binding = none
    ∧ (signState (bound signKey)).custodyReady 259#16 = some signCard
    ∧ (signState (bound signKey)).slot (signCard.slot 0) = some (bound signKey)
    ∧ (signState (bound signKey)).mayUse KeyUse.sign (bound signKey)
    ∧ (bound signKey).material = KeyMaterial.p256 (some 5#256) 9#512
    ∧ (bound signKey).binding = some (Binding.exactly 1#12 0#256)
    ∧ (signState (bound signKey)).measureRoom Client.custodyAsk
    ∧ (macState macKey).custodyReady 260#16 = some macCard
    ∧ keyMacForm macCard = none
    ∧ (macState macKey).slot (macCard.slot 0) = some macKey
    ∧ (macState macKey).mayUse KeyUse.mac macKey
    ∧ macKey.material = KeyMaterial.hmac256 5#256
    ∧ macKey.binding = none
    ∧ (macState (bound macKey)).custodyReady 260#16 = some macCard
    ∧ (macState (bound macKey)).slot (macCard.slot 0) = some (bound macKey)
    ∧ (macState (bound macKey)).mayUse KeyUse.mac (bound macKey)
    ∧ (bound macKey).material = KeyMaterial.hmac256 5#256
    ∧ (bound macKey).binding = some (Binding.exactly 1#12 0#256)
    ∧ (macState (bound macKey)).measureRoom Client.custodyAsk
    ∧ (queued UnitName.custody signCard up).custodyReady 259#16 = some signCard
    ∧ (queued UnitName.custody signCard up).carries
    ∧ (queued UnitName.custody signCard up).slot (signCard.slot 0) = none
    ∧ (signState spentKey).custodyReady 259#16 = some signCard
    ∧ (signState spentKey).carries
    ∧ (signState spentKey).slot (signCard.slot 0) = some spentKey
    ∧ spentKey.state = KeyState.spent
    ∧ (signState dumbKey).custodyReady 259#16 = some signCard
    ∧ (signState dumbKey).carries
    ∧ (signState dumbKey).slot (signCard.slot 0) = some dumbKey
    ∧ dumbKey.state ≠ KeyState.spent
    ∧ dumbKey.flags.permits KeyUse.sign = false
    ∧ (wiping (signState ownerKey)).custodyReady 259#16 = some signCard
    ∧ (wiping (signState ownerKey)).carries
    ∧ (wiping (signState ownerKey)).slot (signCard.slot 0) = some ownerKey
    ∧ ownerKey.state ≠ KeyState.spent
    ∧ ownerKey.flags.permits KeyUse.sign = true
    ∧ ownerKey.cls = KeyClass.owner
    ∧ (wiping (signState ownerKey)).lifecycle.pending = true
    ∧ (signState presenceKey).custodyReady 259#16 = some signCard
    ∧ (signState presenceKey).carries
    ∧ (signState presenceKey).slot (signCard.slot 0) = some presenceKey
    ∧ presenceKey.state ≠ KeyState.spent
    ∧ presenceKey.flags.permits KeyUse.sign = true
    ∧ (presenceKey.cls ≠ KeyClass.owner ∨ (signState presenceKey).lifecycle.pending = false)
    ∧ presenceKey.flags.needsPresence = true
    ∧ (signState presenceKey).lifecycle.presence = none
    ∧ (macHash 10 false 40 (limited 1 macKey)).powered = true
    ∧ (macHash 10 false 40 (limited 1 macKey)).startUp = StartUp.ended
    ∧ (macHash 10 false 40 (limited 1 macKey)).hash.running
        = some { client := HashClient.custody,
                 job := { fn := HashFunction.hmac 5#256, absorbed := [7#8], source := ByteSource.extents [(0, 20480#64, 10)],
                          finalize := true }, withdrawn := false }
    ∧ (macHash 10 false 40 (limited 1 macKey)).custody.work = accessing (macOf 40 10) CustodyStage.mac false false
    ∧ (macHash 10 false 40 (limited 1 macKey)).slot ((macOf 40 10).slot 0) = some (limited 1 macKey)
    ∧ 10 ≤ 4096
    ∧ (macHash 10 false 40 (limited 1 macKey)).carries
    ∧ (macHash 10 false 40 (limited 1 macKey)).linkUp = true
    ∧ false = false
    ∧ 32 ≤ ↑((macOf 40 10).slot 0)
    ∧ (macHash 4096 false 31 macKey).powered = true
    ∧ (macHash 4096 false 31 macKey).startUp = StartUp.ended
    ∧ (macHash 4096 false 31 macKey).hash.running
        = some { client := HashClient.custody,
                 job := { fn := HashFunction.hmac 5#256, absorbed := [7#8], source := ByteSource.extents [(0, 20480#64, 4096)],
                          finalize := true }, withdrawn := false }
    ∧ (macHash 4096 false 31 macKey).custody.work = accessing (macOf 31 4096) CustodyStage.mac false false
    ∧ (macHash 4096 false 31 macKey).slot ((macOf 31 4096).slot 0) = some macKey
    ∧ 4096 ≤ 4096
    ∧ (macHash 4096 false 31 macKey).carries
    ∧ (macHash 4096 false 31 macKey).linkUp = true
    ∧ macKey.state = KeyState.live ∧ macKey.limit = none
    ∧ (macHash 10 false 31 (limited 2 macKey)).powered = true
    ∧ (macHash 10 false 31 (limited 2 macKey)).startUp = StartUp.ended
    ∧ (macHash 10 false 31 (limited 2 macKey)).hash.running
        = some { client := HashClient.custody,
                 job := { fn := HashFunction.hmac 5#256, absorbed := [7#8], source := ByteSource.extents [(0, 20480#64, 10)],
                          finalize := true }, withdrawn := false }
    ∧ (macHash 10 false 31 (limited 2 macKey)).custody.work = accessing (macOf 31 10) CustodyStage.mac false false
    ∧ (macHash 10 false 31 (limited 2 macKey)).slot ((macOf 31 10).slot 0) = some (limited 2 macKey)
    ∧ (macHash 10 false 31 (limited 2 macKey)).carries
    ∧ (macHash 10 false 31 (limited 2 macKey)).linkUp = true
    ∧ ↑((macOf 31 10).slot 0) = ↑31
    ∧ (limited 2 macKey).limit ≠ none
    ∧ (macHash 10 false 31 (limited 2 macKey)).storeRoom Client.custody
    ∧ (macHash 10 true 40 macKey).powered = true
    ∧ (macHash 10 true 40 macKey).startUp = StartUp.ended
    ∧ (macHash 10 true 40 macKey).hash.running
        = some { client := HashClient.custody,
                 job := { fn := HashFunction.hmac 5#256, absorbed := [7#8], source := ByteSource.extents [(0, 20480#64, 10)],
                          finalize := true }, withdrawn := false }
    ∧ (macHash 10 true 40 macKey).custody.work = accessing (macOf 40 10) CustodyStage.mac false true
    ∧ (macHash 10 true 40 macKey).slot ((macOf 40 10).slot 0) = some macKey
    ∧ (macHash 10 true 40 macKey).carries := by
  unfold State.mayUse State.measureRoom State.storeRoom State.carries
  repeat' apply And.intro
  all_goals decide +kernel

def macPiece (l : List (Nat × Word64 × Nat)) (cut : Bool) : State :=
  let s := macHash 10 cut 40 macKey
  { s with hash := { s.hash with running := some { client := .custody, withdrawn := false, job := extentJob (.hmac 5#256) [7#8] l true } } }

/-- The pieces of a KEY MAC that are not its last: an extent of 4097 bytes, one of 4096 with another behind it, one whose read was cut,
and one that ends with the link down. -/
theorem witness_keySignAndKeyMacBeginOrAreRefused_more :
    pieceRuns (macPiece [(0, 0x5000#64, 4097)] false) .custody (extentJob (.hmac 5#256) [7#8] [(0, 0x5000#64, 4097)] true)
    ∧ (macPiece [(0, 0x5000#64, 4097)] false).custody.work = accessing (macOf 40 10) .mac false false
    ∧ (macPiece [(0, 0x5000#64, 4097)] false).linkUp = true
    ∧ pieceRuns (macPiece [(0, 0x5000#64, 4096), (1, 0x9000#64, 1)] false) .custody
        (extentJob (.hmac 5#256) [7#8] [(0, 0x5000#64, 4096), (1, 0x9000#64, 1)] true)
    ∧ (macPiece [(0, 0x5000#64, 4096), (1, 0x9000#64, 1)] false).custody.work = accessing (macOf 40 10) .mac false false
    ∧ pieceRuns (macPiece [(0, 0x5000#64, 4097)] true) .custody (extentJob (.hmac 5#256) [7#8] [(0, 0x5000#64, 4097)] true)
    ∧ (macPiece [(0, 0x5000#64, 4097)] true).custody.work = accessing (macOf 40 10) .mac false true
    ∧ (macPiece [(0, 0x5000#64, 4097)] true).carries
    ∧ ({ macPiece [(0, 0x5000#64, 4097)] false with linkUp := false }).carries := by
  unfold State.carries
  repeat' apply And.intro
  all_goals decide +kernel

/-- What `Obligations.KeyGenerateBegins` supposes is met, clause by clause. -/
theorem witness_keyGenerateBegins :
    (genState (genCard 32 7 2 2)).custodyReady 257#16 = some (genCard 32 7 2 2)
    ∧ keyGenerateForm (genCard 32 7 2 2) = none
    ∧ (genState (genCard 32 7 2 2)).mayCreate (keyGenerateFields (genCard 32 7 2 2)).cls (keyGenerateFields (genCard 32 7 2 2)).target
    ∧ (keyGenerateFlags (genCard 32 7 2 2)).fits (keyGenerateAlgorithm (genCard 32 7 2 2)) = true
    ∧ (genState (genCard 32 7 2 2)).census.state = CensusState.healthy
    ∧ keyGenerateAlgorithm (genCard 32 7 2 2) = Algorithm.hmac256
    ∧ 32 ≤ ↑(keyGenerateFields (genCard 32 7 2 2)).target
    ∧ (genState (genCard 32 7 2 2)).carries
    ∧ (genState (genCard 47 7 3 4)).custodyReady 257#16 = some (genCard 47 7 3 4)
    ∧ keyGenerateForm (genCard 47 7 3 4) = none
    ∧ (genState (genCard 47 7 3 4)).mayCreate (keyGenerateFields (genCard 47 7 3 4)).cls (keyGenerateFields (genCard 47 7 3 4)).target
    ∧ (keyGenerateFlags (genCard 47 7 3 4)).fits (keyGenerateAlgorithm (genCard 47 7 3 4)) = true
    ∧ (genState (genCard 47 7 3 4)).census.state = CensusState.healthy
    ∧ keyGenerateAlgorithm (genCard 47 7 3 4) = Algorithm.wrap256
    ∧ 32 ≤ ↑(keyGenerateFields (genCard 47 7 3 4)).target
    ∧ (genState (genCard 47 7 3 4)).carries
    ∧ (genState (genCard 31 6 2 2)).custodyReady 257#16 = some (genCard 31 6 2 2)
    ∧ keyGenerateForm (genCard 31 6 2 2) = none
    ∧ (genState (genCard 31 6 2 2)).mayCreate (keyGenerateFields (genCard 31 6 2 2)).cls (keyGenerateFields (genCard 31 6 2 2)).target
    ∧ (keyGenerateFlags (genCard 31 6 2 2)).fits (keyGenerateAlgorithm (genCard 31 6 2 2)) = true
    ∧ (genState (genCard 31 6 2 2)).census.state = CensusState.healthy
    ∧ keyGenerateAlgorithm (genCard 31 6 2 2) = Algorithm.hmac256
    ∧ ↑(keyGenerateFields (genCard 31 6 2 2)).target = ↑31
    ∧ (genState (genCard 31 6 2 2)).storeRoom Client.custody
    ∧ (owned (queued UnitName.custody (genCard 6 5 2 2) up)).custodyReady 257#16 = some (genCard 6 5 2 2)
    ∧ keyGenerateForm (genCard 6 5 2 2) = none
    ∧ (owned (queued UnitName.custody (genCard 6 5 2 2) up)).mayCreate (keyGenerateFields (genCard 6 5 2 2)).cls
        (keyGenerateFields (genCard 6 5 2 2)).target
    ∧ (keyGenerateFlags (genCard 6 5 2 2)).fits (keyGenerateAlgorithm (genCard 6 5 2 2)) = true
    ∧ (owned (queued UnitName.custody (genCard 6 5 2 2) up)).census.state = CensusState.healthy
    ∧ keyGenerateAlgorithm (genCard 6 5 2 2) = Algorithm.hmac256
    ∧ ↑(keyGenerateFields (genCard 6 5 2 2)).target = ↑6
    ∧ (owned (queued UnitName.custody (genCard 6 5 2 2) up)).storeRoom Client.custody
    ∧ (genState (genCard 32 7 1 1)).custodyReady 257#16 = some (genCard 32 7 1 1)
    ∧ keyGenerateForm (genCard 32 7 1 1) = none
    ∧ (genState (genCard 32 7 1 1)).mayCreate (keyGenerateFields (genCard 32 7 1 1)).cls (keyGenerateFields (genCard 32 7 1 1)).target
    ∧ (keyGenerateFlags (genCard 32 7 1 1)).fits (keyGenerateAlgorithm (genCard 32 7 1 1)) = true
    ∧ (genState (genCard 32 7 1 1)).census.state = CensusState.healthy
    ∧ keyGenerateAlgorithm (genCard 32 7 1 1) = Algorithm.p256Sign
    ∧ (census CensusState.doubt (genState (genCard 32 7 1 1))).custodyReady 257#16 = some (genCard 32 7 1 1)
    ∧ (census CensusState.doubt (genState (genCard 32 7 1 1))).mayCreate (keyGenerateFields (genCard 32 7 1 1)).cls
        (keyGenerateFields (genCard 32 7 1 1)).target
    ∧ (census CensusState.doubt (genState (genCard 32 7 1 1))).census.state = CensusState.doubt
    ∧ (census CensusState.failed (genState (genCard 32 7 1 1))).custodyReady 257#16 = some (genCard 32 7 1 1)
    ∧ (census CensusState.failed (genState (genCard 32 7 1 1))).mayCreate (keyGenerateFields (genCard 32 7 1 1)).cls
        (keyGenerateFields (genCard 32 7 1 1)).target
    ∧ (census CensusState.failed (genState (genCard 32 7 1 1))).census.state = CensusState.failed
    ∧ (census CensusState.failed (genState (genCard 32 7 1 1))).carries
    ∧ (genState (genCard 32 7 2 34)).custodyReady 257#16 = some (genCard 32 7 2 34)
    ∧ (genCard 32 7 2 34).extentCount = 0
    ∧ (genCard 32 7 2 34).field 0 1 ≤ 47
    ∧ 1 ≤ (genCard 32 7 2 34).field 1 1
    ∧ (genCard 32 7 2 34).field 1 1 ≤ 7
    ∧ 1 ≤ (genCard 32 7 2 34).field 2 1
    ∧ (genCard 32 7 2 34).field 2 1 ≤ 3
    ∧ BitVec.extractLsb' 5 3 ((genCard 32 7 2 34).byte 19) ≠ 0#3
    ∧ (genState (genCard 32 7 2 34)).carries := by
  unfold State.mayCreate State.storeRoom State.carries
  repeat' apply And.intro
  all_goals decide +kernel

/-- What `Obligations.KeysMoveInBlobs` supposes is met, clause by clause. -/
theorem witness_keysMoveInBlobs :
    importState.custodyReady 258#16 = some importCard
    ∧ keyImportForm importCard = none
    ∧ importState.mayCreate (keyImportFields importCard).cls (keyImportFields importCard).target
    ∧ importState.slot (importCard.slot 1) = some wrapKey
    ∧ importState.mayUse KeyUse.unwrap wrapKey
    ∧ wrapKey.binding = none
    ∧ importCard.extentLength 0 = 163
    ∧ blobContents blobBytes = some blobHeld
    ∧ blobHeld.material = KeyMaterial.p256 (some (scalarOfBytes (leBytes 32 5))) 0#512
    ∧ wrapState.custodyReady 261#16 = some wrapCard
    ∧ keyWrapOutForm wrapCard = none
    ∧ wrapState.slot (wrapCard.slot 1) = some wrapKey
    ∧ wrapState.mayUse KeyUse.wrapping wrapKey
    ∧ wrapKey.state = KeyState.live
    ∧ wrapKey.limit = none
    ∧ wrapKey.material = KeyMaterial.wrap256 5#256
    ∧ wrapState.slot (wrapCard.slot 0) = some signKey
    ∧ wrapState.mayUse KeyUse.source signKey
    ∧ signKey.binding = none
    ∧ signKey.limit = none
    ∧ wrapState.census.state = CensusState.healthy := by
  unfold State.mayCreate State.mayUse
  repeat' apply And.intro
  all_goals decide +kernel

/-- What `Obligations.KeysAreChangedAndErased` supposes is met, clause by clause. -/
theorem witness_keysAreChangedAndErased :
    keySlotForm (changeCard (262#16) 32) = none
    ∧ 6 ≤ ↑((changeCard (262#16) 32).slot 0)
    ∧ (changeState (262#16) 32 signKey).slot ((changeCard (262#16) 32).slot 0) = some signKey
    ∧ (changeState (262#16) 32 signKey).custodyReady 262#16 = some (changeCard (262#16) 32)
    ∧ keySetForm (changeCard (262#16) 32) = none
    ∧ (signKey.state ≠ KeyState.spent ∧ (signKey.cls = KeyClass.owner → (changeState (262#16) 32 signKey).lifecycle.pending = false))
    ∧ (signKey.flags.merge (KeyFlags.ofByte ((changeCard (262#16) 32).byte 17)) (KeyFlags.ofByte ((changeCard (262#16) 32).byte 18))
        ≠ signKey.flags ∧ (signKey.state = KeyState.provisional
        → (signKey.flags.merge (KeyFlags.ofByte ((changeCard (262#16) 32).byte 17))
        (KeyFlags.ofByte ((changeCard (262#16) 32).byte 18))).fits signKey.material.algorithm = true
        ∧ (signKey.cls = KeyClass.owner → (changeState (262#16) 32 signKey).lifecycle.presence.isSome = true))
        ∧ (signKey.state = KeyState.live
        → signKey.flags.loosens
        (signKey.flags.merge (KeyFlags.ofByte ((changeCard (262#16) 32).byte 17))
        (KeyFlags.ofByte ((changeCard (262#16) 32).byte 18))) = false))
    ∧ 32 ≤ ↑((changeCard (262#16) 32).slot 0)
    ∧ (changeState (262#16) 32 signKey).carries
    ∧ keySlotForm (changeCard (262#16) 31) = none
    ∧ 6 ≤ ↑((changeCard (262#16) 31).slot 0)
    ∧ (changeState (262#16) 31 provisional).slot ((changeCard (262#16) 31).slot 0) = some provisional
    ∧ (changeState (262#16) 31 provisional).custodyReady 262#16 = some (changeCard (262#16) 31)
    ∧ keySetForm (changeCard (262#16) 31) = none
    ∧ (provisional.state ≠ KeyState.spent
        ∧ (provisional.cls = KeyClass.owner → (changeState (262#16) 31 provisional).lifecycle.pending = false))
    ∧ (provisional.flags.merge (KeyFlags.ofByte ((changeCard (262#16) 31).byte 17))
        (KeyFlags.ofByte ((changeCard (262#16) 31).byte 18)) ≠ provisional.flags
        ∧ (provisional.state = KeyState.provisional
        → (provisional.flags.merge (KeyFlags.ofByte ((changeCard (262#16) 31).byte 17))
        (KeyFlags.ofByte ((changeCard (262#16) 31).byte 18))).fits provisional.material.algorithm = true
        ∧ (provisional.cls = KeyClass.owner → (changeState (262#16) 31 provisional).lifecycle.presence.isSome = true))
        ∧ (provisional.state = KeyState.live
        → provisional.flags.loosens
        (provisional.flags.merge (KeyFlags.ofByte ((changeCard (262#16) 31).byte 17))
        (KeyFlags.ofByte ((changeCard (262#16) 31).byte 18))) = false))
    ∧ ↑((changeCard (262#16) 31).slot 0) = ↑31
    ∧ (changeState (262#16) 31 provisional).storeRoom Client.custody
    ∧ keySlotForm loosenCard = none
    ∧ 6 ≤ ↑(loosenCard.slot 0)
    ∧ (loosening loosenCard).slot (loosenCard.slot 0) = some tight
    ∧ (loosening loosenCard).custodyReady 262#16 = some loosenCard
    ∧ keySetForm loosenCard = none
    ∧ (tight.state ≠ KeyState.spent ∧ (tight.cls = KeyClass.owner → (loosening loosenCard).lifecycle.pending = false))
    ∧ tight.state = KeyState.live
    ∧ (loosening loosenCard).carries
    ∧ (tight.flags.merge (KeyFlags.ofByte (loosenCard.byte 17)) (KeyFlags.ofByte (loosenCard.byte 18))).sign = true
        ∧ tight.flags.sign = false
    ∧ keySlotForm softenCard = none
    ∧ 6 ≤ ↑(softenCard.slot 0)
    ∧ (loosening softenCard).slot (softenCard.slot 0) = some tight
    ∧ (loosening softenCard).custodyReady 262#16 = some softenCard
    ∧ keySetForm softenCard = none
    ∧ (tight.state ≠ KeyState.spent ∧ (tight.cls = KeyClass.owner → (loosening softenCard).lifecycle.pending = false))
    ∧ (loosening softenCard).carries
    ∧ (tight.flags.merge (KeyFlags.ofByte (softenCard.byte 17)) (KeyFlags.ofByte (softenCard.byte 18))).needsPresence = false
        ∧ tight.flags.needsPresence = true
    ∧ keySlotForm (changeCard (263#16) 32) = none
    ∧ 6 ≤ ↑((changeCard (263#16) 32).slot 0)
    ∧ (changeState (263#16) 32 provisional).slot ((changeCard (263#16) 32).slot 0) = some provisional
    ∧ (changeState (263#16) 32 provisional).custodyReady 263#16 = some (changeCard (263#16) 32)
    ∧ (provisional.state ≠ KeyState.spent
        ∧ (provisional.cls = KeyClass.owner → (changeState (263#16) 32 provisional).lifecycle.pending = false))
    ∧ provisional.state = KeyState.provisional
    ∧ 32 ≤ ↑((changeCard (263#16) 32).slot 0)
    ∧ (changeState (263#16) 32 provisional).carries
    ∧ keySlotForm (changeCard (263#16) 6) = none
    ∧ 6 ≤ ↑((changeCard (263#16) 6).slot 0)
    ∧ (changeState (263#16) 6 provisional).slot ((changeCard (263#16) 6).slot 0) = some provisional
    ∧ (changeState (263#16) 6 provisional).custodyReady 263#16 = some (changeCard (263#16) 6)
    ∧ (provisional.state ≠ KeyState.spent
        ∧ (provisional.cls = KeyClass.owner → (changeState (263#16) 6 provisional).lifecycle.pending = false))
    ∧ ↑((changeCard (263#16) 6).slot 0) = ↑6
    ∧ (changeState (263#16) 6 provisional).storeRoom Client.custody
    ∧ keySlotForm (changeCard (264#16) 47) = none
    ∧ 6 ≤ ↑((changeCard (264#16) 47).slot 0)
    ∧ (changeState (264#16) 47 spentKey).slot ((changeCard (264#16) 47).slot 0) = some spentKey
    ∧ (changeState (264#16) 47 spentKey).custodyReady 264#16 = some (changeCard (264#16) 47)
    ∧ (spentKey.cls = KeyClass.owner → (changeState (264#16) 47 spentKey).lifecycle.presence.isSome = true
        ∨ (changeState (264#16) 47 spentKey).lifecycle.pending = true)
    ∧ 32 ≤ ↑((changeCard (264#16) 47).slot 0)
    ∧ (changeState (264#16) 47 spentKey).carries
    ∧ keySlotForm (changeCard (264#16) 6) = none
    ∧ 6 ≤ ↑((changeCard (264#16) 6).slot 0)
    ∧ (owned (changeState (264#16) 6 ownerKey)).slot ((changeCard (264#16) 6).slot 0) = some ownerKey
    ∧ (owned (changeState (264#16) 6 ownerKey)).custodyReady 264#16 = some (changeCard (264#16) 6)
    ∧ (ownerKey.cls = KeyClass.owner → (owned (changeState (264#16) 6 ownerKey)).lifecycle.presence.isSome = true
        ∨ (owned (changeState (264#16) 6 ownerKey)).lifecycle.pending = true)
    ∧ ↑((changeCard (264#16) 6).slot 0) = ↑6
    ∧ (owned (changeState (264#16) 6 ownerKey)).storeRoom Client.custody
    ∧ (queued UnitName.custody badMask up).custodyReady 262#16 = some badMask
    ∧ badMask.extentCount = 0
    ∧ badMask.field 0 1 ≤ 47
    ∧ (queued UnitName.custody badMask up).carries
    ∧ BitVec.extractLsb' 5 3 (badMask.byte 17) ≠ 0#3
    ∧ (queued UnitName.custody badValue up).custodyReady 262#16 = some badValue
    ∧ badValue.extentCount = 0
    ∧ badValue.field 0 1 ≤ 47
    ∧ (queued UnitName.custody badValue up).carries
    ∧ (¬BitVec.extractLsb' 5 3 (badValue.byte 17) ≠ 0#3)
    ∧ BitVec.extractLsb' 5 3 (badValue.byte 18) ≠ 0#3 := by
  unfold State.storeRoom State.carries
  repeat' apply And.intro
  all_goals decide +kernel

/-- What `Obligations.KeyDescribeAndDrawRandom` supposes is met, clause by clause. -/
theorem witness_keyDescribeAndDrawRandom :
    (State.setSlot 40 (some signKey) (queued UnitName.custody (describeCard []) up)).custodyReady 265#16 = some (describeCard [])
    ∧ keyDescribeForm (describeCard []) = none
    ∧ ((describeCard []).extentCount = 0 ∨ ∀ (r : KeyRecord),
        (State.setSlot 40 (some signKey) (queued UnitName.custody (describeCard []) up)).slot ((describeCard []).slot 0) = some r
        → r.material.publicKey = none)
    ∧ (State.setSlot 40 (some signKey) (queued UnitName.custody (describeCard []) up)).carries
    ∧ (queued UnitName.custody (describeCard []) up).custodyReady 265#16 = some (describeCard [])
    ∧ (queued UnitName.custody (describeCard []) up).slot ((describeCard []).slot 0) = none
    ∧ (State.setSlot 40 (some signKey) (queued UnitName.custody (describeCard [(20480, 64)]) up)).custodyReady 265#16
        = some (describeCard [(20480, 64)])
    ∧ keyDescribeForm (describeCard [(20480, 64)]) = none
    ∧ (describeCard [(20480, 64)]).extentCount ≠ 0
    ∧ (State.setSlot 40 (some signKey) (queued UnitName.custody (describeCard [(20480, 64)]) up)).slot
        ((describeCard [(20480, 64)]).slot 0) = some signKey
    ∧ signKey.material.publicKey = some 9#512
    ∧ (described fullKey).custodyReady 265#16 = some (describeCard [])
    ∧ (described fullKey).slot ((describeCard []).slot 0) = some fullKey
    ∧ (described imageKey).custodyReady 265#16 = some (describeCard [])
    ∧ (described imageKey).slot ((describeCard []).slot 0) = some imageKey
    ∧ (described delegate).custodyReady 265#16 = some (describeCard [])
    ∧ (described delegate).slot ((describeCard []).slot 0) = some delegate
    ∧ (described wrapKey).custodyReady 265#16 = some (describeCard [])
    ∧ (described wrapKey).slot ((describeCard []).slot 0) = some wrapKey
    ∧ (queued UnitName.custody (drawCard 64) up).custodyReady 266#16 = some (drawCard 64)
    ∧ drawRandomForm (drawCard 64) = none
    ∧ (queued UnitName.custody (drawCard 64) up).census.state = CensusState.healthy
    ∧ (queued UnitName.custody (drawCard 64) up).carries := by
  unfold State.carries
  repeat' apply And.intro
  all_goals decide +kernel

/-- What `Obligations.CustodyServesRequests` supposes is met, clause by clause. -/
theorem witness_custodyServesRequests :
    (held [CustodyRequest.install 2 delegate Installer.update, CustodyRequest.wipe] up).powered = true
    ∧ (held [CustodyRequest.install 2 delegate Installer.update, CustodyRequest.wipe] up).custody.work = none
    ∧ (held [CustodyRequest.install 2 delegate Installer.update, CustodyRequest.wipe] up).custody.service = none
    ∧ (held [CustodyRequest.install 2 delegate Installer.update, CustodyRequest.wipe] up).custody.held
        = [CustodyRequest.install 2 delegate Installer.update, CustodyRequest.wipe]
    ∧ (held [CustodyRequest.install 2 delegate Installer.update, CustodyRequest.wipe] up).storeRoom Client.custody
    ∧ (held [CustodyRequest.remove 5] up).powered = true
    ∧ (held [CustodyRequest.remove 5] up).custody.work = none
    ∧ (held [CustodyRequest.remove 5] up).custody.service = none
    ∧ (held [CustodyRequest.remove 5] up).custody.held = [CustodyRequest.remove 5]
    ∧ (held [CustodyRequest.remove 5] up).storeRoom Client.custody
    ∧ (held [CustodyRequest.wipe] up).powered = true
    ∧ (held [CustodyRequest.wipe] up).custody.work = none
    ∧ (held [CustodyRequest.wipe] up).custody.service = none
    ∧ (held [CustodyRequest.wipe] up).custody.held = [CustodyRequest.wipe]
    ∧ (held [CustodyRequest.wipe] up).wipedSlots = []
    ∧ (State.setSlot 31 (some ownerKey) (State.setSlot 5 (some delegate) (held [CustodyRequest.wipe] up))).powered = true
    ∧ (State.setSlot 31 (some ownerKey) (State.setSlot 5 (some delegate) (held [CustodyRequest.wipe] up))).custody.work = none
    ∧ (State.setSlot 31 (some ownerKey) (State.setSlot 5 (some delegate) (held [CustodyRequest.wipe] up))).custody.service = none
    ∧ (State.setSlot 31 (some ownerKey) (State.setSlot 5 (some delegate) (held [CustodyRequest.wipe] up))).custody.held
        = [CustodyRequest.wipe]
    ∧ (State.setSlot 31 (some ownerKey) (State.setSlot 5 (some delegate) (held [CustodyRequest.wipe] up))).wipedSlots ≠ []
    ∧ (State.setSlot 31 (some ownerKey) (State.setSlot 5 (some delegate) (held [CustodyRequest.wipe] up))).quiet Client.custody
    ∧ (State.setSlot 31 (some ownerKey) (State.setSlot 5 (some delegate) (held [CustodyRequest.wipe] up))).store.queue.length +
        (State.setSlot 31 (some ownerKey) (State.setSlot 5 (some delegate) (held [CustodyRequest.wipe] up))).wipedSlots.length ≤
        storeCapacity := by
  unfold State.quiet State.storeRoom
  repeat' apply And.intro
  all_goals decide +kernel

/-- What `Obligations.CurveOperationsComplete` supposes is met, clause by clause. -/
theorem witness_curveOperationsComplete :
    (signing signKey).powered = true
    ∧ (signing signKey).curve.update = none
    ∧ (signing signKey).curve.measure = none
    ∧ (signing signKey).curve.custody = none
    ∧ (signing signKey).curve.lifecycle = none
    ∧ (signing signKey).curve.running = some { client := CurveClient.custody, op := CurveOp.sign 5#256 0#256 }
    ∧ (signing signKey).custody.work = working signCard CustodyStage.curveSign false
    ∧ (signing signKey).slot (signCard.slot 0) = some signKey
    ∧ (32 ≤ ↑(signCard.slot 0) ∨ signKey.state = KeyState.live ∧ signKey.limit = none)
    ∧ (signing signKey).carries
    ∧ (signing (counted 1)).powered = true
    ∧ (signing (counted 1)).curve.update = none
    ∧ (signing (counted 1)).curve.measure = none
    ∧ (signing (counted 1)).curve.custody = none
    ∧ (signing (counted 1)).curve.lifecycle = none
    ∧ (signing (counted 1)).curve.running = some { client := CurveClient.custody, op := CurveOp.sign 5#256 0#256 }
    ∧ (signing (counted 1)).custody.work = working signCard CustodyStage.curveSign false
    ∧ (signing (counted 1)).slot (signCard.slot 0) = some (counted 1)
    ∧ (32 ≤ ↑(signCard.slot 0) ∨ (counted 1).state = KeyState.live ∧ (counted 1).limit = none)
    ∧ (signing (counted 1)).carries
    ∧ (signing (counted 2)).powered = true
    ∧ (signing (counted 2)).curve.update = none
    ∧ (signing (counted 2)).curve.measure = none
    ∧ (signing (counted 2)).curve.custody = none
    ∧ (signing (counted 2)).curve.lifecycle = none
    ∧ (signing (counted 2)).curve.running = some { client := CurveClient.custody, op := CurveOp.sign 5#256 0#256 }
    ∧ (signing (counted 2)).custody.work = working signCard CustodyStage.curveSign false
    ∧ (signing (counted 2)).slot (signCard.slot 0) = some (counted 2)
    ∧ (32 ≤ ↑(signCard.slot 0) ∨ (counted 2).state = KeyState.live ∧ (counted 2).limit = none)
    ∧ (signing (counted 2)).carries
    ∧ quoting.powered = true
    ∧ quoting.curve.update = none
    ∧ quoting.curve.measure = none
    ∧ quoting.curve.custody = none
    ∧ quoting.curve.lifecycle = none
    ∧ quoting.curve.running = some { client := CurveClient.measure, op := CurveOp.signByIdentity (some 5#256) 0#256 }
    ∧ quoting.measure.work = working quoteCard (MeasureStage.quoteSign [1#8] 1) false
    ∧ quoting.measure.internal = []
    ∧ generating.powered = true
    ∧ generating.curve.update = none
    ∧ generating.curve.measure = none
    ∧ generating.curve.custody = none
    ∧ generating.curve.lifecycle = none
    ∧ generating.curve.running = some { client := CurveClient.lifecycle, op := CurveOp.generate 5#256 }
    ∧ generating.lifecycle.work = working identityCard LifeStage.generate false
    ∧ (pairing (genCard 32 7 1 1)).powered = true
    ∧ (pairing (genCard 32 7 1 1)).curve.update = none
    ∧ (pairing (genCard 32 7 1 1)).curve.measure = none
    ∧ (pairing (genCard 32 7 1 1)).curve.custody = none
    ∧ (pairing (genCard 32 7 1 1)).curve.lifecycle = none
    ∧ (pairing (genCard 32 7 1 1)).curve.running = some { client := CurveClient.custody, op := CurveOp.generate 5#256 }
    ∧ (pairing (genCard 32 7 1 1)).custody.work = working (genCard 32 7 1 1) CustodyStage.curveGenerate false
    ∧ 32 ≤ ↑(keyGenerateFields (genCard 32 7 1 1)).target
    ∧ (pairing (genCard 32 7 1 1)).carries
    ∧ (pairing (genCard 31 6 1 1)).powered = true
    ∧ (pairing (genCard 31 6 1 1)).curve.update = none
    ∧ (pairing (genCard 31 6 1 1)).curve.measure = none
    ∧ (pairing (genCard 31 6 1 1)).curve.custody = none
    ∧ (pairing (genCard 31 6 1 1)).curve.lifecycle = none
    ∧ (pairing (genCard 31 6 1 1)).curve.running = some { client := CurveClient.custody, op := CurveOp.generate 5#256 }
    ∧ (pairing (genCard 31 6 1 1)).custody.work = working (genCard 31 6 1 1) CustodyStage.curveGenerate false
    ∧ ↑(keyGenerateFields (genCard 31 6 1 1)).target = ↑31
    ∧ (pairing (genCard 31 6 1 1)).storeRoom Client.custody
    ∧ up.powered = true
    ∧ up.curve.update = none
    ∧ up.curve.measure = none
    ∧ up.curve.custody = none
    ∧ up.curve.lifecycle = none
    ∧ up.curve.running = none := by
  unfold State.storeRoom State.carries
  repeat' apply And.intro
  all_goals decide +kernel

/-- What `Obligations.KeyManagementSparesFixedSlots` supposes is met, clause by clause. -/
theorem witness_keyManagementSparesFixedSlots :
    (fixedState (genCard 5 5 1 1)).custodyReady 257#16 = some (genCard 5 5 1 1)
    ∧ keyGenerateForm (genCard 5 5 1 1) = none
    ∧ ↑((genCard 5 5 1 1).slot 0) < 6
    ∧ (fixedState (genCard 5 5 1 1)).carries
    ∧ (fixedState importFixed).custodyReady 258#16 = some importFixed
    ∧ keyImportForm importFixed = none
    ∧ ↑(importFixed.slot 0) < 6
    ∧ (fixedState importFixed).carries
    ∧ (fixedState (changeCard (262#16) 0)).custodyReady 262#16 = some (changeCard (262#16) 0)
    ∧ keySetForm (changeCard (262#16) 0) = none
    ∧ ↑((changeCard (262#16) 0).slot 0) < 6
    ∧ (fixedState (changeCard (262#16) 0)).carries
    ∧ (fixedState (changeCard (263#16) 1)).custodyReady 263#16 = some (changeCard (263#16) 1)
    ∧ keySlotForm (changeCard (263#16) 1) = none
    ∧ ↑((changeCard (263#16) 1).slot 0) < 6
    ∧ (fixedState (changeCard (263#16) 1)).carries
    ∧ (fixedState (changeCard (264#16) 5)).custodyReady 264#16 = some (changeCard (264#16) 5)
    ∧ keySlotForm (changeCard (264#16) 5) = none
    ∧ ↑((changeCard (264#16) 5).slot 0) < 6
    ∧ (fixedState (changeCard (264#16) 5)).carries := by
  unfold State.carries
  repeat' apply And.intro
  all_goals decide +kernel

/-- The host's bytes at the card's extent verify under the key 5 and decrypt to `text`. -/
def readsAs (s : State) (c : Card) (text : List Byte) : Prop :=
  let blob := Memory.readBytes (Memory.hostStores s.host []) (c.extentAddress 0) 163
  (strOf 128 (sliceBytes blob 147 16) : Tag) = Config.gcmTag 5#256 (strOf 96 (sliceBytes blob 0 12)) (sliceBytes blob 12 135)
    ∧ gcmXor 5#256 (strOf 96 (sliceBytes blob 0 12)) 0 (sliceBytes blob 12 135) = text

theorem importing_readsAs (target slot : Nat) (w : KeyRecord) {text : List Byte} (ht : text.length = 135)
    (hc : (importOf target slot).extentAddress 0 = 0x5000) : readsAs (importing target slot w text) (importOf target slot) text := by
  have hl : (sealBlob 5#256 3#96 text).length = 163 := by simp [sealBlob, gcmSeal, gcmXor_length, ht, strBytes, leBytes]
  have hb : Memory.readBytes (Memory.hostStores (importing target slot w text).host []) ((importOf target slot).extentAddress 0) 163
      = sealBlob 5#256 3#96 text := by
    rw [hc, ← hl]
    exact Memory.readBytes_writeBytes 0x5000 (m := []) _ rfl (by rw [hl]; decide)
  obtain ⟨hn, hm, hg⟩ := sealBlob_parts 5#256 3#96 ht
  simp only [readsAs, hb, hn, hm, hg, gcmXor_gcmXor, and_self]

/-- What `Obligations.KeysMoveInBlobs` supposes of a blob that has been read is met: one whose format version is 2, one that goes to a
volatile slot, one that goes to a persistent slot, and one whose unwrapping slot has a use limit and lies in the store. -/
theorem witness_keyImport_blob :
    (∀ x ∈ [(41, 40, wrapKey, 2#8), (41, 40, wrapKey, 1#8), (7, 31, wrapKey, 1#8), (7, 31, limited 2 wrapKey, 1#8)],
      let s := importing x.1 x.2.1 x.2.2.1 (plainText x.2.2.2)
      s.powered = true ∧ s.linkUp = true ∧ s.carries ∧ s.custody.work = working (importOf x.1 x.2.1) .readBlob false
        ∧ s.slot ((importOf x.1 x.2.1).slot 1) = some x.2.2.1 ∧ x.2.2.1.material = .wrap256 5#256 ∧ s.storeRoom .custody
        ∧ readsAs s (importOf x.1 x.2.1) (plainText x.2.2.2))
      ∧ (plainText 2#8).getD 0 0#8 ≠ 1#8 ∧ (plainText 1#8).getD 0 0#8 = 1#8 ∧ bindingOf (sliceBytes (plainText 1#8) 3 36) = some none
      ∧ (plainText 1#8).getD 1 0#8 = 2#8 ∧ (KeyFlags.ofByte ((plainText 1#8).getD 2 0#8)).fits .hmac256 = true
      ∧ 32 ≤ ((importOf 41 40).slot 1).val ∧ 32 ≤ (keyImportFields (importOf 41 40)).target.val
      ∧ (keyImportFields (importOf 7 31)).target.val = 7 ∧ ((importOf 7 31).slot 1).val = 31
      ∧ wrapKey.state = .live ∧ wrapKey.limit = none ∧ (limited 2 wrapKey).limit ≠ none := by
  refine ⟨fun x hx => ?_, by decide +kernel⟩
  unfold State.storeRoom State.quiet State.carries
  simp only [List.mem_cons, List.not_mem_nil, or_false] at hx
  obtain rfl | rfl | rfl | rfl := hx <;>
    exact ⟨rfl, rfl, by decide +kernel, rfl, by decide +kernel, rfl, by decide +kernel,
        importing_readsAs _ _ _ rfl (by decide +kernel)⟩

end Keys

/-! ## The measure unit, the engines and the store -/

namespace Measurements

def extendCard (chain : Nat) : Card := card 0x0201#16 [] [byteOf chain, 5#8] []

def closeCard (chain : Nat) : Card := card 0x0202#16 [] [byteOf chain] []

def withClosed (b : BitVec 11) (s : State) : State := { s with measure := { s.measure with closed := b } }

def readChainsCard : Card := card 0x0203#16 [] [3#8, 0x08#8] [(0x5000, 96)]

def readRecordsCard : Card := card 0x0204#16 [] [0#8, 96#8] [(0x5000, 80)]

def quoteCard : Card := card 0x0205#16 [] (List.replicate 32 9#8 ++ [1#8, 0x08#8, 1#8, 0#8, 96#8]) [(0x5000, 368)]

def record (n : Nat) : Record := { seq := n, chain := 1, event := 5#16, digest := 3#256 }

def withRecords (n : Nat) (s : State) : State := { s with measure := { s.measure with records := (List.range' 1 n).map record } }

def quoteCard0 : Card := card 0x0205#16 [] (List.replicate 32 9#8) [(0x5000, 264)]

def hashRuns (r : HashRun) (s : State) : State := { s with hash := { s.hash with running := some r } }

def extending (n : Nat) (missing : Bool) : State :=
  let s := hashRuns { client := .measure, job := shaJob (strBytes (0#256 : Digest) ++ strBytes (3#256 : Digest)), withdrawn := false }
    (begun .measure (extendCard 0) (withRecords n up))
  { s with measure := { s.measure with
      work := working (extendCard 0) (.extendHash 0 5#16 3#256) false, missed := missing.toNat, truncated := missing } }

def eventExtending : State :=
  let s := hashRuns { client := .measure, job := shaJob (strBytes (0#256 : Digest) ++ strBytes (3#256 : Digest)),
                      withdrawn := false } up
  { s with measure := { s.measure with service := some (.eventExtend .censusFailed 3#256), internal := [.event .censusFailed] } }

def eventAt (n : Nat) (missing : Bool) : State :=
  let s := withRecords n eventExtending
  { s with measure := { s.measure with missed := missing.toNat, truncated := missing } }

def asked (l : List MeasureRequest) (s : State) : State := { s with measure := { s.measure with internal := l } }

def eventSent (c : Client) (e : PartEvent) (rest : List Out) (s : State) : State :=
  { s with measureWaiting := [c], outboxes := s.outboxes.set c (.request (.event e) :: rest) }

def image : Confirmed := { version := 5, digest := 4#256, signer := .root }

def confirmed : KindRecord := { floor := 5, confirmed := some image, trial := some (trial .owner) }

def confirmCard : Card := card 0x0307#16 [] [7#8, 10#8] []

def confirming (expected : Digest) : State :=
  let s := (asked [.chainRead 10 true] (begun .update confirmCard up)).setKind 7 confirmed
  { s with update := { s.update with work := working confirmCard (.confirmChain expected) false } }

def signCard : Card := card 0x0103#16 [] [40#8, 32#8] []

def comparing (expected : Digest) : State :=
  let s := hashRuns { client := .measure, job := shaJob [1#8, 2#8], withdrawn := false } (begun .custody signCard up)
  { s with
    measure := { s.measure with
      service := some (.composite .custody expected), internal := [.check .custody (.exactly 1#12 expected) true] }
    custody := { s.custody with work := working signCard (.binding .sign) false } }

def allWaiting : HashEngine :=
  { running := none, measure := some (shaJob [1#8]), credential := some (shaJob [2#8]), custody := some (shaJob [3#8]),
    update := some (shaJob [4#8]), pointer := .custody }

def curveWaiting : CurveEngine :=
  { running := none, update := some (.generate 1#256), measure := some (.signByIdentity none 2#256),
    custody := some (.sign 5#256 1#256), lifecycle := none, pointer := .lifecycle }

def home : Spot KeyRecord :=
    { loc := .home 2 false,
      copy := some { value := some (key .session (.hmac256 1#256) KeyFlags.none), gen := 0xFFFFFFFF#32, intact := true } }

def spare : Spot KeyRecord := { loc := .home 2 true, copy := none }

def cells : Cells KeyRecord := { current := home, alternate := some spare }

def single : Cells KeyRecord := { cells with alternate := none }

def mapOf (n : Nat) : LocationMap := { spares := n, retired := [] }

def wrote : KeyRecord := key .owner (.hmac256 2#256) KeyFlags.none

def storeOf : State := { up with store := { up.store with slots := tableSet up.store.slots 31 cells,
                                                          queue := [{ write := .slot 31 none, answerTo := .nobody }] } }

def storing (v : WriteRequest) (s : State) : State := { s with store := { s.store with queue := [v] } }

def placingCard : Card := card 0x0107#16 [] [6#8] []

def placing : State :=
  let s := storing { write := .slot 6 (some wrote), answerTo := .custodyCard } (begun .custody placingCard up)
  { s with custody := { s.custody with work := working placingCard (.record 6 (some wrote) none (.settle .done none [])) true } }

def outCard : Card := card 0x0105#16 [] [41#8, 40#8] [(0xFFFFFFFFFFFFFFFF, 163)]

def certCard : Card := card 0x0503#16 [] [] [(0x5000, 512)]

def outCustody : State := let s := begun .custody outCard up;
    { s with custody := { s.custody with work := working outCard (.writeOut [1#8, 2#8] none [none]) false } }

def outMeasure : State := let s := begun .measure outCard up;
    { s with measure := { s.measure with work := working outCard (.writeOut [1#8, 2#8] none [none]) false } }

def outUpdate : State := let s := begun .update outCard up;
    { s with update := { s.update with work := working outCard (.writeOut [1#8, 2#8] none [none]) false } }

def outLife : State := let s := begun .lifecycle outCard up;
    { s with lifecycle := { s.lifecycle with work := working outCard (.writeOut [1#8, 2#8] none [none]) false } }

def certLife : State := let s := begun .lifecycle certCard up;
    { s with lifecycle := { s.lifecycle with work := working certCard .readCertificate false } }

def cutWrap : State := { outCustody with
  custody := { outCustody.custody with work := accessing outCard (.writeOut [1#8, 2#8] none [none]) true true,
                                       undo := some (40, wrapKey) } }

def readingBlob : State := { outCustody with custody := { outCustody.custody with work := accessing outCard .readBlob false false } }

def outWork (σ : Type) (x : σ) : Work σ := { card := outCard, stage := x, abandoned := false, committed := false }

def undone : State := { placing with custody := { placing.custody with undo := some (40, wrapKey) } }

def useWriting (t : CustodyThen) : State :=
  { placing with custody := { placing.custody with work := working placingCard (.record 6 (some wrote) none t) true } }

def jobRuns (before input : List Byte) (s : State) : State :=
  hashRuns { client := .measure, withdrawn := false,
             job := { fn := .sha256, absorbed := before, source := .own input, finalize := true } } s

def measuring (stage : MeasureStage) (l : List MeasureRequest) : State :=
  let s := asked l (jobRuns [4#8] [1#8, 2#8] (begun .measure quoteCard up))
  { s with measure := { s.measure with work := working quoteCard stage false } }

def macCard : Card := card 0x0104#16 [] [40#8] [(0x5000, 10)]

def macWaiting (expected : Digest) : State :=
  let s := (comparing expected).setSlot 40 (some macKey)
  { s with custody := { s.custody with work := working macCard (.binding .mac) false }, exch := (begun .custody macCard up).exch }

def releaseCard : Card := card 0x0403#16 [] [32#8] []

def heldSecret : CredEntry := entry (ownerRecord .releasable (some (sealSecret 0#96 [1#8, 2#8])))

def secretWaiting (expected : Digest) : State :=
  let s := (hashRuns { client := .measure, job := shaJob [1#8, 2#8], withdrawn := false } (begun .credential releaseCard up)).setCred
      31 (some heldSecret)
  { s with
    measure := { s.measure with
      service := some (.composite .credential expected), internal := [.check .credential (.exactly 1#12 expected) true] }
    credential := { s.credential with work := working releaseCard (.binding 31) false } }

def imageState (x : MeasureService) (c : Card) (stage : CustodyStage) (s : State) : State :=
  let s := hashRuns { client := .measure, job := shaJob [1#8, 2#8], withdrawn := false } (begun .custody c s)
  { s with
    measure := { s.measure with service := some x, internal := [.check .custody (.acceptedImage 7 10) true] }
    custody := { s.custody with work := working c stage false } }

def lastOne (value : Digest) (hit : Bool) : MeasureService := .candidates .custody value [] hit

def importCard : Card := card 0x0102#16 [] [41#8, 40#8, 7#8] [(0x5000, 163)]

def wrapSlots (k : KeyRecord) (s : State) : State := (s.setSlot 40 (some wrapKey)).setSlot 41 (some k)

def boundSign : KeyRecord := { signKey with binding := some (.exactly 1#12 0#256) }

def countedSign : KeyRecord := { signKey with limit := some { limit := 5, remaining := 5 } }

def wrapAnswer (k : KeyRecord) (ok : Bool) (use : KeyUse) : State := imageState (lastOne 1#256 ok) outCard (.binding use)
    (wrapSlots k up)

def inState (x : CensusState) (s : State) : State := { s with census := { s.census with state := x } }

/-- What `Obligations.ChainsAreExtendedAndClosed` supposes is met, clause by clause. -/
theorem witness_chainsAreExtendedAndClosed :
    (queued UnitName.measure (extendCard 0) up).measureReady 513#16 = some (extendCard 0)
    ∧ extendForm (extendCard 0) = none
    ∧ (extendCard 0).field 0 1 = ↑0
    ∧ (queued UnitName.measure (extendCard 0) up).measure.closed.getLsbD ↑0 = false
    ∧ (queued UnitName.measure (extendCard 10) up).measureReady 513#16 = some (extendCard 10)
    ∧ extendForm (extendCard 10) = none
    ∧ (extendCard 10).field 0 1 = ↑10
    ∧ (queued UnitName.measure (extendCard 10) up).measure.closed.getLsbD ↑10 = false
    ∧ (withClosed (1024#11) (queued UnitName.measure (extendCard 10) up)).measureReady 513#16 = some (extendCard 10)
    ∧ (withClosed (1024#11) (queued UnitName.measure (extendCard 10) up)).measure.closed.getLsbD ↑10 = true
    ∧ (withClosed (1024#11) (queued UnitName.measure (extendCard 10) up)).carries
    ∧ (queued UnitName.measure (extendCard 11) up).measureReady 513#16 = some (extendCard 11)
    ∧ extendForm (extendCard 11) = none
    ∧ (extendCard 11).field 0 1 = 11
    ∧ (queued UnitName.measure (extendCard 11) up).carries
    ∧ (queued UnitName.measure (closeCard 11) up).measureReady 514#16 = some (closeCard 11)
    ∧ closeChainForm (closeCard 11) = none
    ∧ (closeCard 11).field 0 1 = 11
    ∧ (queued UnitName.measure (closeCard 11) up).carries
    ∧ (queued UnitName.measure (closeCard 10) up).measureReady 514#16 = some (closeCard 10)
    ∧ closeChainForm (closeCard 10) = none
    ∧ (closeCard 10).field 0 1 = ↑10
    ∧ (queued UnitName.measure (closeCard 10) up).carries := by
  unfold State.carries
  repeat' apply And.intro
  all_goals decide +kernel

/-- What `Obligations.MeasurementsAreRead` supposes is met, clause by clause. -/
theorem witness_measurementsAreRead :
    (queued UnitName.measure readChainsCard up).measureReady 515#16 = some readChainsCard
    ∧ readChainsForm readChainsCard = none
    ∧ (queued UnitName.measure readRecordsCard up).measureReady 516#16 = some readRecordsCard
    ∧ readRecordsForm readRecordsCard = none
    ∧ List.take (readRecordsCard.extentLength 0 / 40)
        (List.take (readRecordsCard.field 1 1)
        (List.drop (readRecordsCard.field 0 1) (queued UnitName.measure readRecordsCard up).measure.records)) = []
    ∧ (queued UnitName.measure readRecordsCard up).carries
    ∧ (withRecords 3 (queued UnitName.measure readRecordsCard up)).measureReady 516#16 = some readRecordsCard
    ∧ List.take (readRecordsCard.extentLength 0 / 40)
        (List.take (readRecordsCard.field 1 1)
        (List.drop (readRecordsCard.field 0 1) (withRecords 3 (queued UnitName.measure readRecordsCard up)).measure.records)) ≠ []
    ∧ (owned (withRecords 1 (queued UnitName.measure quoteCard up))).measureReady 517#16 = some quoteCard
    ∧ quoteForm quoteCard = none
    ∧ (owned (withRecords 1 (queued UnitName.measure quoteCard up))).lifecycle.effective ≠ LifecycleState.blank
    ∧ ((264 + 32 * (maskChains (quoteCard.mask 32)).length + 40 * if quoteRecords quoteCard
        = true then (List.take (quoteCard.field 36 1)
        (List.drop (quoteCard.field 35 1) (owned (withRecords 1 (queued UnitName.measure quoteCard up))).measure.records)).length
        else 0) ≤ quoteCard.extentLength 0)
    ∧ (owned (withRecords 1 (queued UnitName.measure quoteCard0 up))).measureReady 517#16 = some quoteCard0
    ∧ quoteForm quoteCard0 = none
    ∧ (owned (withRecords 1 (queued UnitName.measure quoteCard0 up))).lifecycle.effective ≠ LifecycleState.blank
    ∧ ((264 + 32 * (maskChains (quoteCard0.mask 32)).length + 40 * if quoteRecords quoteCard0
        = true then (List.take (quoteCard0.field 36 1)
        (List.drop (quoteCard0.field 35 1) (owned (withRecords 1 (queued UnitName.measure quoteCard0 up))).measure.records)).length
        else 0) ≤ quoteCard0.extentLength 0)
    ∧ (queued UnitName.measure quoteCard0 up).measureReady 517#16 = some quoteCard0
    ∧ (queued UnitName.measure quoteCard0 up).lifecycle.effective = LifecycleState.blank
    ∧ (queued UnitName.measure quoteCard0 up).carries
    ∧ (owned (withRecords 2 (queued UnitName.measure quoteCard up))).measureReady 517#16 = some quoteCard
    ∧ (owned (withRecords 2 (queued UnitName.measure quoteCard up))).lifecycle.effective ≠ LifecycleState.blank
    ∧ (quoteCard.extentLength 0 < 264 + 32 * (maskChains (quoteCard.mask 32)).length + 40 * if quoteRecords quoteCard
        = true then (List.take (quoteCard.field 36 1)
        (List.drop (quoteCard.field 35 1) (owned (withRecords 2 (queued UnitName.measure quoteCard up))).measure.records)).length
        else 0)
    ∧ (owned (withRecords 2 (queued UnitName.measure quoteCard up))).carries
    ∧ (measuring (MeasureStage.chainsHash [5#8] [none]) []).powered = true
    ∧ (measuring (MeasureStage.chainsHash [5#8] [none]) []).startUp = StartUp.ended
    ∧ [1#8, 2#8].length ≤ 4096
    ∧ (measuring (MeasureStage.chainsHash [5#8] [none]) []).measure.service = none
    ∧ (measuring (MeasureStage.chainsHash [5#8] [none]) []).hash.running
        = some { client := HashClient.measure,
                 job := { fn := HashFunction.sha256, absorbed := [4#8], source := ByteSource.own [1#8, 2#8], finalize := true },
                 withdrawn := false }
    ∧ (measuring (MeasureStage.chainsHash [5#8] [none]) []).measure.work
        = working quoteCard (MeasureStage.chainsHash [5#8] [none]) false
    ∧ (measuring (MeasureStage.chainsHash [5#8] [none]) []).measure.internal = []
    ∧ (measuring (MeasureStage.chainsHash [5#8] [none]) [MeasureRequest.event PartEvent.censusFailed]).powered = true
    ∧ (measuring (MeasureStage.chainsHash [5#8] [none]) [MeasureRequest.event PartEvent.censusFailed]).startUp = StartUp.ended
    ∧ (measuring (MeasureStage.chainsHash [5#8] [none]) [MeasureRequest.event PartEvent.censusFailed]).measure.service = none
    ∧ (measuring (MeasureStage.chainsHash [5#8] [none]) [MeasureRequest.event PartEvent.censusFailed]).hash.running
        = some { client := HashClient.measure,
                 job := { fn := HashFunction.sha256, absorbed := [4#8], source := ByteSource.own [1#8, 2#8], finalize := true },
                 withdrawn := false }
    ∧ (measuring (MeasureStage.chainsHash [5#8] [none]) [MeasureRequest.event PartEvent.censusFailed]).measure.work
        = working quoteCard (MeasureStage.chainsHash [5#8] [none]) false
    ∧ (measuring (MeasureStage.chainsHash [5#8] [none]) [MeasureRequest.event PartEvent.censusFailed]).measure.internal ≠ []
    ∧ (measuring (MeasureStage.fingerprint [5#8] 3) []).powered = true
    ∧ (measuring (MeasureStage.fingerprint [5#8] 3) []).startUp = StartUp.ended
    ∧ (measuring (MeasureStage.fingerprint [5#8] 3) []).measure.service = none
    ∧ (measuring (MeasureStage.fingerprint [5#8] 3) []).hash.running
        = some { client := HashClient.measure,
                 job := { fn := HashFunction.sha256, absorbed := [4#8], source := ByteSource.own [1#8, 2#8], finalize := true },
                 withdrawn := false }
    ∧ (measuring (MeasureStage.fingerprint [5#8] 3) []).measure.work = working quoteCard (MeasureStage.fingerprint [5#8] 3) false
    ∧ (measuring (MeasureStage.fingerprint [5#8] 3) []).measure.internal = []
    ∧ (measuring (MeasureStage.fingerprint [5#8] 3) [MeasureRequest.event PartEvent.censusFailed]).powered = true
    ∧ (measuring (MeasureStage.fingerprint [5#8] 3) [MeasureRequest.event PartEvent.censusFailed]).startUp = StartUp.ended
    ∧ (measuring (MeasureStage.fingerprint [5#8] 3) [MeasureRequest.event PartEvent.censusFailed]).measure.service = none
    ∧ (measuring (MeasureStage.fingerprint [5#8] 3) [MeasureRequest.event PartEvent.censusFailed]).hash.running
        = some { client := HashClient.measure,
                 job := { fn := HashFunction.sha256, absorbed := [4#8], source := ByteSource.own [1#8, 2#8], finalize := true },
                 withdrawn := false }
    ∧ (measuring (MeasureStage.fingerprint [5#8] 3) [MeasureRequest.event PartEvent.censusFailed]).measure.work
        = working quoteCard (MeasureStage.fingerprint [5#8] 3) false
    ∧ (measuring (MeasureStage.fingerprint [5#8] 3) [MeasureRequest.event PartEvent.censusFailed]).measure.internal ≠ []
    ∧ (measuring (MeasureStage.quoteHash [5#8] 3) []).powered = true
    ∧ (measuring (MeasureStage.quoteHash [5#8] 3) []).startUp = StartUp.ended
    ∧ (measuring (MeasureStage.quoteHash [5#8] 3) []).measure.service = none
    ∧ (measuring (MeasureStage.quoteHash [5#8] 3) []).hash.running
        = some { client := HashClient.measure,
                 job := { fn := HashFunction.sha256, absorbed := [4#8], source := ByteSource.own [1#8, 2#8], finalize := true },
                 withdrawn := false }
    ∧ (measuring (MeasureStage.quoteHash [5#8] 3) []).measure.work = working quoteCard (MeasureStage.quoteHash [5#8] 3) false := by
  unfold State.carries
  repeat' apply And.intro
  all_goals decide +kernel

def longJob : List Byte := List.replicate 4097 1#8

def bodyPiece (l : List MeasureRequest) : State := jobRuns [4#8] longJob (measuring (.quoteHash [1#8] 1) l)

/-- A piece of a quote's body job that is not its last, with and without requests in the list. -/
theorem witness_measurementsAreRead_more :
    pieceRuns (bodyPiece []) .measure { fn := .sha256, absorbed := [4#8], source := .own longJob, finalize := true }
    ∧ 4096 < longJob.length
    ∧ (bodyPiece []).measure.service = none
    ∧ (bodyPiece []).measure.work = working quoteCard (.quoteHash [1#8] 1) false
    ∧ (bodyPiece []).measure.internal = []
    ∧ pieceRuns (bodyPiece [.event .censusFailed]) .measure
        { fn := .sha256, absorbed := [4#8], source := .own longJob, finalize := true }
    ∧ (bodyPiece [.event .censusFailed]).measure.service = none
    ∧ (bodyPiece [.event .censusFailed]).measure.work = working quoteCard (.quoteHash [1#8] 1) false
    ∧ (bodyPiece [.event .censusFailed]).measure.internal ≠ [] :=
  ⟨⟨rfl, rfl, rfl⟩, by decide +kernel, rfl, rfl, rfl, ⟨rfl, rfl, rfl⟩, rfl, rfl, by decide +kernel⟩

/-- What `Obligations.ExtensionsAreAppliedWhole` supposes is met, clause by clause. -/
theorem witness_extensionsAreAppliedWhole :
    (extending 0 false).powered = true
    ∧ (extending 0 false).startUp = StartUp.ended
    ∧ (extending 0 false).hash.running
        = some { client := HashClient.measure, job := shaJob (strBytes 0#256 ++ strBytes 3#256), withdrawn := false }
    ∧ (extending 0 false).measure.service = none
    ∧ (extending 0 false).measure.work = working (extendCard 0) (MeasureStage.extendHash 0 5#16 3#256) false
    ∧ (extending 0 false).carries
    ∧ (extending 0 false).measure.records.length < 96
    ∧ (extending 95 false).powered = true
    ∧ (extending 95 false).startUp = StartUp.ended
    ∧ (extending 95 false).hash.running
        = some { client := HashClient.measure, job := shaJob (strBytes 0#256 ++ strBytes 3#256), withdrawn := false }
    ∧ (extending 95 false).measure.service = none
    ∧ (extending 95 false).measure.work = working (extendCard 0) (MeasureStage.extendHash 0 5#16 3#256) false
    ∧ (extending 95 false).carries
    ∧ (extending 95 false).measure.records.length < 96
    ∧ (extending 96 true).powered = true
    ∧ (extending 96 true).startUp = StartUp.ended
    ∧ (extending 96 true).hash.running
        = some { client := HashClient.measure, job := shaJob (strBytes 0#256 ++ strBytes 3#256), withdrawn := false }
    ∧ (extending 96 true).measure.service = none
    ∧ (extending 96 true).measure.work = working (extendCard 0) (MeasureStage.extendHash 0 5#16 3#256) false
    ∧ (extending 96 true).carries
    ∧ 96 ≤ (extending 96 true).measure.records.length
    ∧ (extending 96 true).measure.truncated = true
    ∧ (extending 96 false).powered = true
    ∧ (extending 96 false).startUp = StartUp.ended
    ∧ (extending 96 false).hash.running
        = some { client := HashClient.measure, job := shaJob (strBytes 0#256 ++ strBytes 3#256), withdrawn := false }
    ∧ (extending 96 false).measure.service = none
    ∧ (extending 96 false).measure.work = working (extendCard 0) (MeasureStage.extendHash 0 5#16 3#256) false
    ∧ (extending 96 false).carries
    ∧ 96 ≤ (extending 96 false).measure.records.length
    ∧ (extending 96 false).measure.truncated = false
    ∧ (extending 96 false).linkUp = true
    ∧ eventExtending.powered = true
    ∧ eventExtending.startUp = StartUp.ended
    ∧ eventExtending.hash.running
        = some { client := HashClient.measure, job := shaJob (strBytes 0#256 ++ strBytes 3#256), withdrawn := false }
    ∧ eventExtending.measure.service = some (MeasureService.eventExtend PartEvent.censusFailed 3#256)
    ∧ eventExtending.measure.internal = [MeasureRequest.event PartEvent.censusFailed]
    ∧ eventExtending.measure.work = none
    ∧ eventExtending.measureWaiting = []
    ∧ eventExtending.measure.records.length < 96
    ∧ (eventAt 96 true).powered = true
    ∧ (eventAt 96 true).startUp = StartUp.ended
    ∧ (eventAt 96 true).hash.running
        = some { client := HashClient.measure, job := shaJob (strBytes 0#256 ++ strBytes 3#256), withdrawn := false }
    ∧ (eventAt 96 true).measure.service = some (MeasureService.eventExtend PartEvent.censusFailed 3#256)
    ∧ (eventAt 96 true).measure.internal = [MeasureRequest.event PartEvent.censusFailed]
    ∧ (eventAt 96 true).measure.work = none
    ∧ (eventAt 96 true).measureWaiting = []
    ∧ 96 ≤ (eventAt 96 true).measure.records.length
    ∧ (eventAt 96 true).measure.truncated = true
    ∧ (eventAt 96 false).powered = true
    ∧ (eventAt 96 false).startUp = StartUp.ended
    ∧ (eventAt 96 false).hash.running
        = some { client := HashClient.measure, job := shaJob (strBytes 0#256 ++ strBytes 3#256), withdrawn := false }
    ∧ (eventAt 96 false).measure.service = some (MeasureService.eventExtend PartEvent.censusFailed 3#256)
    ∧ (eventAt 96 false).measure.internal = [MeasureRequest.event PartEvent.censusFailed]
    ∧ (eventAt 96 false).measure.work = none
    ∧ (eventAt 96 false).measureWaiting = []
    ∧ 96 ≤ (eventAt 96 false).measure.records.length
    ∧ (eventAt 96 false).measure.truncated = false
    ∧ (eventAt 96 false).linkUp = true := by
  unfold State.carries
  repeat' apply And.intro
  all_goals decide +kernel

def pausing (stage : MeasureStage) (p : MeasureResume) : State :=
  let s := begun .measure quoteCard eventExtending
  { s with measure := { s.measure with work := working quoteCard stage false, paused := some p } }

def firstPiece (e : PartEvent) : State :=
  let s := hashRuns { client := .measure, job := shaJob e.parameters, withdrawn := false } up
  { s with measure := { s.measure with service := some (.eventDigest e), internal := [.event e] } }

def lapsed : PartEvent := .updateLapsed 7 6 .bootsExhausted

def entering : HashJob := shaJob (strBytes (0#256 : Digest) ++ strBytes (3#256 : Digest))

/-- A part event that ends while a paused card waits: for its job, its transfer or its signature. -/
theorem witness_extensionsAreAppliedWhole_more :
    pieceRuns (pausing (.quoteHash [1#8] 1) (.job (shaJob [1#8]))) .measure entering
    ∧ (pausing (.quoteHash [1#8] 1) (.job (shaJob [1#8]))).measure.service = some (.eventExtend .censusFailed 3#256)
    ∧ (pausing (.quoteHash [1#8] 1) (.job (shaJob [1#8]))).measure.internal = [.event .censusFailed]
    ∧ (pausing (.quoteHash [1#8] 1) (.job (shaJob [1#8]))).measureWaiting = []
    ∧ (pausing (.quoteHash [1#8] 1) (.job (shaJob [1#8]))).measure.work = working quoteCard (.quoteHash [1#8] 1) false
    ∧ (pausing (.quoteHash [1#8] 1) (.job (shaJob [1#8]))).measure.records.length < 96
    ∧ (pausing (.quoteHash [1#8] 1) (.job (shaJob [1#8]))).measure.paused = some (.job (shaJob [1#8]))
    ∧ pieceRuns (pausing (.writeOut [1#8] none []) .transfer) .measure entering
    ∧ (pausing (.writeOut [1#8] none []) .transfer).measure.work = working quoteCard (.writeOut [1#8] none []) false
    ∧ (pausing (.writeOut [1#8] none []) .transfer).measure.paused = some .transfer
    ∧ pieceRuns (pausing (.quoteSign [1#8] 1) (.signature 5#512)) .measure entering
    ∧ (pausing (.quoteSign [1#8] 1) (.signature 5#512)).measure.work = working quoteCard (.quoteSign [1#8] 1) false
    ∧ (pausing (.quoteSign [1#8] 1) (.signature 5#512)).measure.paused = some (.signature 5#512)
    ∧ ({ extending 96 false with linkUp := false }).carries
    ∧ ({ extending 96 false with linkUp := false }).measure.truncated = false := by
  unfold State.carries
  repeat' apply And.intro
  all_goals decide +kernel

/-- A part event's first piece with nothing else in the engine, and an EXTEND of chain 0 and of chain 10 that finds the engine free. -/
theorem witness_extensionsAreAppliedWhole_part3 :
    pieceRuns (firstPiece lapsed) .measure (shaJob lapsed.parameters)
    ∧ (firstPiece lapsed).measure.service = some (.eventDigest lapsed)
    ∧ (firstPiece lapsed).measure.internal = [.event lapsed]
    ∧ (firstPiece lapsed).measure.work = none
    ∧ (firstPiece lapsed).measureWaiting = []
    ∧ (∀ who ∈ [HashClient.measure, .credential, .custody, .update], (firstPiece lapsed).hash.waiting who = none)
    ∧ (queued .measure (extendCard 0) up).measureReady 0x0201#16 = some (extendCard 0)
    ∧ (queued .measure (extendCard 10) up).measureReady 0x0201#16 = some (extendCard 10)
    ∧ extendForm (extendCard 0) = none ∧ extendForm (extendCard 10) = none
    ∧ (extendCard 0).field 0 1 = (0 : Fin 11).val ∧ (extendCard 10).field 0 1 = (10 : Fin 11).val
    ∧ (∀ i : Fin 11, (queued .measure (extendCard i.val) up).measure.closed.getLsbD i.val = false)
    ∧ (∀ i : Fin 11, (queued .measure (extendCard i.val) up).startUp = .ended)
    ∧ (∀ i : Fin 11, (queued .measure (extendCard i.val) up).carries)
    ∧ ∀ i : Fin 11, (queued .measure (extendCard i.val) up).hash.running = none := by
  unfold State.carries
  repeat' apply And.intro
  all_goals decide +kernel

/-- What `Obligations.InternalRequestsAreServed` supposes is met, clause by clause. -/
theorem witness_internalRequestsAreServed :
    (asked [MeasureRequest.event PartEvent.censusFailed] up).powered = true
    ∧ (asked [MeasureRequest.event PartEvent.censusFailed] up).measure.starting = false
    ∧ (asked [MeasureRequest.event PartEvent.censusFailed] up).measure.service = none
    ∧ (asked [MeasureRequest.event PartEvent.censusFailed] up).measure.work = none
    ∧ (asked [MeasureRequest.event PartEvent.censusFailed] up).measure.internal = [MeasureRequest.event PartEvent.censusFailed]
    ∧ (asked [MeasureRequest.event PartEvent.censusFailed] up).measureWaiting = []
    ∧ (asked [MeasureRequest.event PartEvent.censusFailed] up).startUp = StartUp.ended
    ∧ (asked [MeasureRequest.check Checker.custody (Binding.exactly 4095#12 3#256) true] up).powered = true
    ∧ (asked [MeasureRequest.check Checker.custody (Binding.exactly 4095#12 3#256) true] up).measure.starting = false
    ∧ (asked [MeasureRequest.check Checker.custody (Binding.exactly 4095#12 3#256) true] up).measure.service = none
    ∧ (asked [MeasureRequest.check Checker.custody (Binding.exactly 4095#12 3#256) true] up).measure.work = none
    ∧ (asked [MeasureRequest.check Checker.custody (Binding.exactly 4095#12 3#256) true] up).measure.internal
        = [MeasureRequest.check Checker.custody (Binding.exactly 4095#12 3#256) true]
    ∧ (eventSent Client.lifecycleAsk PartEvent.ownershipReleased [] up).eventWaits Client.lifecycleAsk PartEvent.ownershipReleased []
    ∧ Client.lifecycleAsk ≠ Client.updateAsk
    ∧ (State.setKind 7 confirmed (asked [MeasureRequest.check Checker.credential (Binding.acceptedImage 7 10) true] up)).powered
        = true
    ∧ (State.setKind 7 confirmed
        (asked [MeasureRequest.check Checker.credential (Binding.acceptedImage 7 10) true] up)).measure.starting = false
    ∧ (State.setKind 7 confirmed
        (asked [MeasureRequest.check Checker.credential (Binding.acceptedImage 7 10) true] up)).measure.service = none
    ∧ (State.setKind 7 confirmed (asked [MeasureRequest.check Checker.credential (Binding.acceptedImage 7 10) true] up)).measure.work
        = none
    ∧ (State.setKind 7 confirmed
        (asked [MeasureRequest.check Checker.credential (Binding.acceptedImage 7 10) true] up)).measure.internal
        = [MeasureRequest.check Checker.credential (Binding.acceptedImage 7 10) true]
    ∧ ((State.setKind 7 confirmed (asked [MeasureRequest.check Checker.credential (Binding.acceptedImage 7 10) true] up)).kindRecord
        7).confirmed = some image
    ∧ (confirming 0#256).powered = true
    ∧ (confirming 0#256).measure.starting = false
    ∧ (confirming 0#256).measure.service = none
    ∧ (confirming 0#256).measure.work = none
    ∧ (confirming 0#256).measure.internal = [MeasureRequest.chainRead 10 true]
    ∧ (confirming 0#256).update.work = working confirmCard (UpdateStage.confirmChain 0#256) false
    ∧ ((confirming 0#256).kindRecord confirmCard.kind).trial = some (trial SignerClass.owner)
    ∧ (confirming 0#256).measureWaiting = []
    ∧ (confirming 0#256).measure.paused = none
    ∧ (confirming 0#256).chain 10 = 0#256
    ∧ (confirming 0#256).storeRoom Client.update
    ∧ (confirming 1#256).powered = true
    ∧ (confirming 1#256).measure.starting = false
    ∧ (confirming 1#256).measure.service = none
    ∧ (confirming 1#256).measure.work = none
    ∧ (confirming 1#256).measure.internal = [MeasureRequest.chainRead 10 true]
    ∧ (confirming 1#256).update.work = working confirmCard (UpdateStage.confirmChain 1#256) false
    ∧ ((confirming 1#256).kindRecord confirmCard.kind).trial = some (trial SignerClass.owner)
    ∧ (confirming 1#256).measureWaiting = []
    ∧ (confirming 1#256).measure.paused = none
    ∧ (confirming 1#256).chain 10 ≠ 1#256
    ∧ (confirming 1#256).update.wipe ≠ UpdateWipe.held
    ∧ (confirming 1#256).carries
    ∧ (comparing 1#256).powered = true
    ∧ (comparing 1#256).startUp = StartUp.ended
    ∧ [1#8, 2#8].length ≤ 4096
    ∧ (comparing 1#256).hash.running = some { client := HashClient.measure, job := shaJob [1#8, 2#8], withdrawn := false }
    ∧ (comparing 1#256).measure.service = some (MeasureService.composite Checker.custody 1#256)
    ∧ (comparing 1#256).measure.internal = [MeasureRequest.check Checker.custody (Binding.exactly 1#12 1#256) true]
    ∧ (comparing 1#256).measure.work = none
    ∧ (comparing 1#256).measureWaiting = []
    ∧ (comparing 1#256).carries
    ∧ (comparing 1#256).custody.work = working signCard (CustodyStage.binding KeyUse.sign) false
    ∧ (comparing 0#256).powered = true
    ∧ (comparing 0#256).startUp = StartUp.ended
    ∧ (comparing 0#256).hash.running = some { client := HashClient.measure, job := shaJob [1#8, 2#8], withdrawn := false }
    ∧ (comparing 0#256).measure.service = some (MeasureService.composite Checker.custody 0#256)
    ∧ (comparing 0#256).measure.internal = [MeasureRequest.check Checker.custody (Binding.exactly 1#12 0#256) true]
    ∧ (comparing 0#256).measure.work = none
    ∧ (comparing 0#256).measureWaiting = []
    ∧ (comparing 0#256).carries
    ∧ (comparing 0#256).custody.work = working signCard (CustodyStage.binding KeyUse.sign) false
    ∧ (macWaiting 0#256).powered = true
    ∧ (macWaiting 0#256).startUp = StartUp.ended
    ∧ (macWaiting 0#256).hash.running = some { client := HashClient.measure, job := shaJob [1#8, 2#8], withdrawn := false }
    ∧ (macWaiting 0#256).measure.service = some (MeasureService.composite Checker.custody 0#256)
    ∧ (macWaiting 0#256).measure.internal = [MeasureRequest.check Checker.custody (Binding.exactly 1#12 0#256) true]
    ∧ (macWaiting 0#256).measure.work = none
    ∧ (macWaiting 0#256).measureWaiting = []
    ∧ (macWaiting 0#256).carries
    ∧ (macWaiting 0#256).custody.work = working macCard (CustodyStage.binding KeyUse.mac) false
    ∧ (macWaiting 0#256).slot (macCard.slot 0) = some macKey
    ∧ macKey.material = KeyMaterial.hmac256 5#256
    ∧ (macWaiting 1#256).powered = true
    ∧ (macWaiting 1#256).startUp = StartUp.ended
    ∧ (macWaiting 1#256).hash.running = some { client := HashClient.measure, job := shaJob [1#8, 2#8], withdrawn := false }
    ∧ (macWaiting 1#256).measure.service = some (MeasureService.composite Checker.custody 1#256)
    ∧ (macWaiting 1#256).measure.internal = [MeasureRequest.check Checker.custody (Binding.exactly 1#12 1#256) true]
    ∧ (macWaiting 1#256).measure.work = none
    ∧ (macWaiting 1#256).measureWaiting = []
    ∧ (macWaiting 1#256).carries
    ∧ (macWaiting 1#256).custody.work = working macCard (CustodyStage.binding KeyUse.mac) false
    ∧ (macWaiting 1#256).slot (macCard.slot 0) = some macKey
    ∧ (secretWaiting 0#256).powered = true
    ∧ (secretWaiting 0#256).startUp = StartUp.ended
    ∧ (secretWaiting 0#256).hash.running = some { client := HashClient.measure, job := shaJob [1#8, 2#8], withdrawn := false }
    ∧ (secretWaiting 0#256).measure.service = some (MeasureService.composite Checker.credential 0#256)
    ∧ (secretWaiting 0#256).measure.internal = [MeasureRequest.check Checker.credential (Binding.exactly 1#12 0#256) true]
    ∧ (secretWaiting 0#256).measure.work = none
    ∧ (secretWaiting 0#256).measureWaiting = []
    ∧ (secretWaiting 0#256).carries
    ∧ (secretWaiting 0#256).credential.work = working releaseCard (CredStage.binding 31) false
    ∧ (secretWaiting 0#256).cred 31 = some heldSecret := by
  unfold State.eventWaits State.storeRoom State.carries
  repeat' apply And.intro
  all_goals first
    | decide +kernel
    | rfl

/-- What `Obligations.InternalRequestsAreServed` supposes is met, clause by clause. -/
theorem witness_internalRequestsAreServed_more :
    (secretWaiting 1#256).powered = true
    ∧ (secretWaiting 1#256).startUp = StartUp.ended
    ∧ (secretWaiting 1#256).hash.running = some { client := HashClient.measure, job := shaJob [1#8, 2#8], withdrawn := false }
    ∧ (secretWaiting 1#256).measure.service = some (MeasureService.composite Checker.credential 1#256)
    ∧ (secretWaiting 1#256).measure.internal = [MeasureRequest.check Checker.credential (Binding.exactly 1#12 1#256) true]
    ∧ (secretWaiting 1#256).measure.work = none
    ∧ (secretWaiting 1#256).measureWaiting = []
    ∧ (secretWaiting 1#256).carries
    ∧ (secretWaiting 1#256).credential.work = working releaseCard (CredStage.binding 31) false
    ∧ (secretWaiting 1#256).cred 31 = some heldSecret
    ∧ (imageState (MeasureService.candidates Checker.custody 3#256 [4#256] false) signCard (CustodyStage.binding KeyUse.sign)
        up).powered = true
    ∧ (imageState (MeasureService.candidates Checker.custody 3#256 [4#256] false) signCard (CustodyStage.binding KeyUse.sign)
        up).startUp = StartUp.ended
    ∧ (imageState (MeasureService.candidates Checker.custody 3#256 [4#256] false) signCard (CustodyStage.binding KeyUse.sign)
        up).hash.running = some { client := HashClient.measure, job := shaJob [1#8, 2#8], withdrawn := false }
    ∧ (imageState (MeasureService.candidates Checker.custody 3#256 [4#256] false) signCard (CustodyStage.binding KeyUse.sign)
        up).measure.service = some (MeasureService.candidates Checker.custody 3#256 [4#256] false)
    ∧ (imageState (lastOne (3#256) true) signCard (CustodyStage.binding KeyUse.sign) up).powered = true
    ∧ (imageState (lastOne (3#256) true) signCard (CustodyStage.binding KeyUse.sign) up).startUp = StartUp.ended
    ∧ (imageState (lastOne (3#256) true) signCard (CustodyStage.binding KeyUse.sign) up).hash.running
        = some { client := HashClient.measure, job := shaJob [1#8, 2#8], withdrawn := false }
    ∧ (imageState (lastOne (3#256) true) signCard (CustodyStage.binding KeyUse.sign) up).measure.service = some (lastOne (3#256) true)
    ∧ (imageState (lastOne (3#256) true) signCard (CustodyStage.binding KeyUse.sign) up).measure.internal
        = [MeasureRequest.check Checker.custody (Binding.acceptedImage 7 10) true]
    ∧ (imageState (lastOne (3#256) true) signCard (CustodyStage.binding KeyUse.sign) up).measure.work = none
    ∧ (imageState (lastOne (3#256) true) signCard (CustodyStage.binding KeyUse.sign) up).measureWaiting = []
    ∧ (imageState (lastOne (3#256) true) signCard (CustodyStage.binding KeyUse.sign) up).carries
    ∧ (imageState (lastOne (3#256) true) signCard (CustodyStage.binding KeyUse.sign) up).custody.work
        = working signCard (CustodyStage.binding KeyUse.sign) false
    ∧ (imageState (lastOne (3#256) false) signCard (CustodyStage.binding KeyUse.sign) up).powered = true
    ∧ (imageState (lastOne (3#256) false) signCard (CustodyStage.binding KeyUse.sign) up).startUp = StartUp.ended
    ∧ (imageState (lastOne (3#256) false) signCard (CustodyStage.binding KeyUse.sign) up).hash.running
        = some { client := HashClient.measure, job := shaJob [1#8, 2#8], withdrawn := false }
    ∧ (imageState (lastOne (3#256) false) signCard (CustodyStage.binding KeyUse.sign) up).measure.service
        = some (lastOne (3#256) false)
    ∧ (imageState (lastOne (3#256) false) signCard (CustodyStage.binding KeyUse.sign) up).measure.internal
        = [MeasureRequest.check Checker.custody (Binding.acceptedImage 7 10) true]
    ∧ (imageState (lastOne (3#256) false) signCard (CustodyStage.binding KeyUse.sign) up).measure.work = none
    ∧ (imageState (lastOne (3#256) false) signCard (CustodyStage.binding KeyUse.sign) up).measureWaiting = []
    ∧ (imageState (lastOne (3#256) false) signCard (CustodyStage.binding KeyUse.sign) up).carries
    ∧ (imageState (lastOne (3#256) false) signCard (CustodyStage.binding KeyUse.sign) up).custody.work
        = working signCard (CustodyStage.binding KeyUse.sign) false
    ∧ (imageState (lastOne (0#256) false) importCard (CustodyStage.binding KeyUse.unwrap) up).powered = true
    ∧ (imageState (lastOne (0#256) false) importCard (CustodyStage.binding KeyUse.unwrap) up).startUp = StartUp.ended
    ∧ (imageState (lastOne (0#256) false) importCard (CustodyStage.binding KeyUse.unwrap) up).hash.running
        = some { client := HashClient.measure, job := shaJob [1#8, 2#8], withdrawn := false }
    ∧ (imageState (lastOne (0#256) false) importCard (CustodyStage.binding KeyUse.unwrap) up).measure.service
        = some (lastOne (0#256) false)
    ∧ (imageState (lastOne (0#256) false) importCard (CustodyStage.binding KeyUse.unwrap) up).measure.internal
        = [MeasureRequest.check Checker.custody (Binding.acceptedImage 7 10) true]
    ∧ (imageState (lastOne (0#256) false) importCard (CustodyStage.binding KeyUse.unwrap) up).measure.work = none
    ∧ (imageState (lastOne (0#256) false) importCard (CustodyStage.binding KeyUse.unwrap) up).measureWaiting = []
    ∧ (imageState (lastOne (0#256) false) importCard (CustodyStage.binding KeyUse.unwrap) up).carries
    ∧ (imageState (lastOne (0#256) false) importCard (CustodyStage.binding KeyUse.unwrap) up).custody.work
        = working importCard (CustodyStage.binding KeyUse.unwrap) false
    ∧ importCard.extentLength 0 = 163
    ∧ (imageState (lastOne (1#256) false) importCard (CustodyStage.binding KeyUse.unwrap) up).powered = true
    ∧ (imageState (lastOne (1#256) false) importCard (CustodyStage.binding KeyUse.unwrap) up).startUp = StartUp.ended
    ∧ (imageState (lastOne (1#256) false) importCard (CustodyStage.binding KeyUse.unwrap) up).hash.running
        = some { client := HashClient.measure, job := shaJob [1#8, 2#8], withdrawn := false }
    ∧ (imageState (lastOne (1#256) false) importCard (CustodyStage.binding KeyUse.unwrap) up).measure.service
        = some (lastOne (1#256) false)
    ∧ (imageState (lastOne (1#256) false) importCard (CustodyStage.binding KeyUse.unwrap) up).measure.internal
        = [MeasureRequest.check Checker.custody (Binding.acceptedImage 7 10) true]
    ∧ (imageState (lastOne (1#256) false) importCard (CustodyStage.binding KeyUse.unwrap) up).measure.work = none
    ∧ (imageState (lastOne (1#256) false) importCard (CustodyStage.binding KeyUse.unwrap) up).measureWaiting = []
    ∧ (imageState (lastOne (1#256) false) importCard (CustodyStage.binding KeyUse.unwrap) up).carries
    ∧ (imageState (lastOne (1#256) false) importCard (CustodyStage.binding KeyUse.unwrap) up).custody.work
        = working importCard (CustodyStage.binding KeyUse.unwrap) false
    ∧ (wrapAnswer boundSign true KeyUse.wrapping).powered = true
    ∧ (wrapAnswer boundSign true KeyUse.wrapping).startUp = StartUp.ended
    ∧ (wrapAnswer boundSign true KeyUse.wrapping).hash.running
        = some { client := HashClient.measure, job := shaJob [1#8, 2#8], withdrawn := false }
    ∧ (wrapAnswer boundSign true KeyUse.wrapping).measure.service = some (lastOne (1#256) true)
    ∧ (wrapAnswer boundSign true KeyUse.wrapping).measure.internal
        = [MeasureRequest.check Checker.custody (Binding.acceptedImage 7 10) true]
    ∧ (wrapAnswer boundSign true KeyUse.wrapping).measure.work = none
    ∧ (wrapAnswer boundSign true KeyUse.wrapping).measureWaiting = []
    ∧ (wrapAnswer boundSign true KeyUse.wrapping).carries
    ∧ (wrapAnswer boundSign true KeyUse.wrapping).slot (outCard.slot 1) = some wrapKey
    ∧ wrapKey.state = KeyState.live
    ∧ wrapKey.limit = none
    ∧ wrapKey.material = KeyMaterial.wrap256 5#256
    ∧ (wrapAnswer boundSign true KeyUse.wrapping).slot (outCard.slot 0) = some boundSign
    ∧ (wrapAnswer boundSign true KeyUse.wrapping).custody.work = working outCard (CustodyStage.binding KeyUse.wrapping) false
    ∧ boundSign.state ≠ KeyState.spent
    ∧ boundSign.flags.permits KeyUse.source = true
    ∧ (boundSign.cls = KeyClass.owner → (wrapAnswer boundSign true KeyUse.wrapping).lifecycle.pending = false)
    ∧ (boundSign.flags.needsPresence = true → (wrapAnswer boundSign true KeyUse.wrapping).lifecycle.presence.isSome = true)
    ∧ boundSign.binding = some (Binding.exactly 1#12 0#256)
    ∧ (wrapAnswer boundSign true KeyUse.wrapping).quiet Client.custodyAsk
    ∧ ([] : List MeasureRequest).length < internalCapacity
    ∧ (wrapAnswer signKey true KeyUse.wrapping).powered = true
    ∧ (wrapAnswer signKey true KeyUse.wrapping).startUp = StartUp.ended
    ∧ (wrapAnswer signKey true KeyUse.wrapping).hash.running
        = some { client := HashClient.measure, job := shaJob [1#8, 2#8], withdrawn := false }
    ∧ (wrapAnswer signKey true KeyUse.wrapping).measure.service = some (lastOne (1#256) true)
    ∧ (wrapAnswer signKey true KeyUse.wrapping).measure.internal
        = [MeasureRequest.check Checker.custody (Binding.acceptedImage 7 10) true]
    ∧ (wrapAnswer signKey true KeyUse.wrapping).measure.work = none
    ∧ (wrapAnswer signKey true KeyUse.wrapping).measureWaiting = []
    ∧ (wrapAnswer signKey true KeyUse.wrapping).carries
    ∧ (wrapAnswer signKey true KeyUse.wrapping).slot (outCard.slot 1) = some wrapKey
    ∧ (wrapAnswer signKey true KeyUse.wrapping).slot (outCard.slot 0) = some signKey
    ∧ (wrapAnswer signKey true KeyUse.wrapping).custody.work = working outCard (CustodyStage.binding KeyUse.wrapping) false
    ∧ signKey.state ≠ KeyState.spent
    ∧ signKey.flags.permits KeyUse.source = true
    ∧ (signKey.cls = KeyClass.owner → (wrapAnswer signKey true KeyUse.wrapping).lifecycle.pending = false)
    ∧ (signKey.flags.needsPresence = true → (wrapAnswer signKey true KeyUse.wrapping).lifecycle.presence.isSome = true)
    ∧ signKey.binding = none
    ∧ signKey.limit = none
    ∧ (wrapAnswer signKey true KeyUse.wrapping).census.state = CensusState.healthy := by
  unfold State.quiet State.carries
  repeat' apply And.intro
  all_goals first
    | decide +kernel
    | rfl

/-- What `Obligations.InternalRequestsAreServed` supposes is met, clause by clause. -/
theorem witness_internalRequestsAreServed_part3 :
    (wrapAnswer signKey false KeyUse.wrapping).powered = true
    ∧ (wrapAnswer signKey false KeyUse.wrapping).startUp = StartUp.ended
    ∧ (wrapAnswer signKey false KeyUse.wrapping).hash.running
        = some { client := HashClient.measure, job := shaJob [1#8, 2#8], withdrawn := false }
    ∧ (wrapAnswer signKey false KeyUse.wrapping).measure.service = some (lastOne (1#256) false)
    ∧ (wrapAnswer signKey false KeyUse.wrapping).measure.internal
        = [MeasureRequest.check Checker.custody (Binding.acceptedImage 7 10) true]
    ∧ (wrapAnswer signKey false KeyUse.wrapping).measure.work = none
    ∧ (wrapAnswer signKey false KeyUse.wrapping).measureWaiting = []
    ∧ (wrapAnswer signKey false KeyUse.wrapping).carries
    ∧ (wrapAnswer signKey false KeyUse.wrapping).slot (outCard.slot 1) = some wrapKey
    ∧ (wrapAnswer signKey false KeyUse.wrapping).slot (outCard.slot 0) = some signKey
    ∧ (wrapAnswer signKey false KeyUse.wrapping).custody.work = working outCard (CustodyStage.binding KeyUse.wrapping) false
    ∧ (signKey.cls = KeyClass.owner → (wrapAnswer signKey false KeyUse.wrapping).lifecycle.pending = false)
    ∧ (signKey.flags.needsPresence = true → (wrapAnswer signKey false KeyUse.wrapping).lifecycle.presence.isSome = true)
    ∧ (wrapAnswer signKey false KeyUse.wrapping).census.state = CensusState.healthy
    ∧ (wrapAnswer countedSign true KeyUse.source).powered = true
    ∧ (wrapAnswer countedSign true KeyUse.source).startUp = StartUp.ended
    ∧ (wrapAnswer countedSign true KeyUse.source).hash.running
        = some { client := HashClient.measure, job := shaJob [1#8, 2#8], withdrawn := false }
    ∧ (wrapAnswer countedSign true KeyUse.source).measure.service = some (lastOne (1#256) true)
    ∧ (wrapAnswer countedSign true KeyUse.source).measure.internal
        = [MeasureRequest.check Checker.custody (Binding.acceptedImage 7 10) true]
    ∧ (wrapAnswer countedSign true KeyUse.source).measure.work = none
    ∧ (wrapAnswer countedSign true KeyUse.source).measureWaiting = []
    ∧ (wrapAnswer countedSign true KeyUse.source).carries
    ∧ (wrapAnswer countedSign true KeyUse.source).slot (outCard.slot 1) = some wrapKey
    ∧ (wrapAnswer countedSign true KeyUse.source).slot (outCard.slot 0) = some countedSign
    ∧ (wrapAnswer countedSign true KeyUse.source).custody.work = working outCard (CustodyStage.binding KeyUse.source) false
    ∧ countedSign.limit ≠ none
    ∧ (wrapAnswer signKey true KeyUse.source).powered = true
    ∧ (wrapAnswer signKey true KeyUse.source).startUp = StartUp.ended
    ∧ (wrapAnswer signKey true KeyUse.source).hash.running
        = some { client := HashClient.measure, job := shaJob [1#8, 2#8], withdrawn := false }
    ∧ (wrapAnswer signKey true KeyUse.source).measure.service = some (lastOne (1#256) true)
    ∧ (wrapAnswer signKey true KeyUse.source).measure.internal
        = [MeasureRequest.check Checker.custody (Binding.acceptedImage 7 10) true]
    ∧ (wrapAnswer signKey true KeyUse.source).measure.work = none
    ∧ (wrapAnswer signKey true KeyUse.source).measureWaiting = []
    ∧ (wrapAnswer signKey true KeyUse.source).carries
    ∧ (wrapAnswer signKey true KeyUse.source).slot (outCard.slot 1) = some wrapKey
    ∧ (wrapAnswer signKey true KeyUse.source).slot (outCard.slot 0) = some signKey
    ∧ (wrapAnswer signKey true KeyUse.source).custody.work = working outCard (CustodyStage.binding KeyUse.source) false
    ∧ (wrapAnswer signKey true KeyUse.source).census.state = CensusState.healthy
    ∧ (wrapAnswer signKey false KeyUse.source).powered = true
    ∧ (wrapAnswer signKey false KeyUse.source).startUp = StartUp.ended
    ∧ (wrapAnswer signKey false KeyUse.source).hash.running
        = some { client := HashClient.measure, job := shaJob [1#8, 2#8], withdrawn := false }
    ∧ (wrapAnswer signKey false KeyUse.source).measure.service = some (lastOne (1#256) false)
    ∧ (wrapAnswer signKey false KeyUse.source).measure.internal
        = [MeasureRequest.check Checker.custody (Binding.acceptedImage 7 10) true]
    ∧ (wrapAnswer signKey false KeyUse.source).measure.work = none
    ∧ (wrapAnswer signKey false KeyUse.source).measureWaiting = []
    ∧ (wrapAnswer signKey false KeyUse.source).carries
    ∧ (wrapAnswer signKey false KeyUse.source).slot (outCard.slot 1) = some wrapKey
    ∧ (wrapAnswer signKey false KeyUse.source).slot (outCard.slot 0) = some signKey
    ∧ (wrapAnswer signKey false KeyUse.source).custody.work = working outCard (CustodyStage.binding KeyUse.source) false
    ∧ (wrapAnswer signKey false KeyUse.source).census.state = CensusState.healthy
    ∧ (inState CensusState.doubt (wrapAnswer signKey true KeyUse.source)).powered = true
    ∧ (inState CensusState.doubt (wrapAnswer signKey true KeyUse.source)).startUp = StartUp.ended
    ∧ (inState CensusState.doubt (wrapAnswer signKey true KeyUse.source)).hash.running
        = some { client := HashClient.measure, job := shaJob [1#8, 2#8], withdrawn := false }
    ∧ (inState CensusState.doubt (wrapAnswer signKey true KeyUse.source)).measure.service = some (lastOne (1#256) true)
    ∧ (inState CensusState.doubt (wrapAnswer signKey true KeyUse.source)).measure.internal
        = [MeasureRequest.check Checker.custody (Binding.acceptedImage 7 10) true]
    ∧ (inState CensusState.doubt (wrapAnswer signKey true KeyUse.source)).measure.work = none
    ∧ (inState CensusState.doubt (wrapAnswer signKey true KeyUse.source)).measureWaiting = []
    ∧ (inState CensusState.doubt (wrapAnswer signKey true KeyUse.source)).carries
    ∧ (inState CensusState.doubt (wrapAnswer signKey true KeyUse.source)).slot (outCard.slot 1) = some wrapKey
    ∧ (inState CensusState.doubt (wrapAnswer signKey true KeyUse.source)).slot (outCard.slot 0) = some signKey
    ∧ (inState CensusState.doubt (wrapAnswer signKey true KeyUse.source)).custody.work
        = working outCard (CustodyStage.binding KeyUse.source) false
    ∧ (inState CensusState.doubt (wrapAnswer signKey true KeyUse.source)).census.state = CensusState.doubt
    ∧ (inState CensusState.failed (wrapAnswer signKey true KeyUse.source)).powered = true
    ∧ (inState CensusState.failed (wrapAnswer signKey true KeyUse.source)).startUp = StartUp.ended
    ∧ (inState CensusState.failed (wrapAnswer signKey true KeyUse.source)).hash.running
        = some { client := HashClient.measure, job := shaJob [1#8, 2#8], withdrawn := false }
    ∧ (inState CensusState.failed (wrapAnswer signKey true KeyUse.source)).measure.service = some (lastOne (1#256) true)
    ∧ (inState CensusState.failed (wrapAnswer signKey true KeyUse.source)).measure.internal
        = [MeasureRequest.check Checker.custody (Binding.acceptedImage 7 10) true]
    ∧ (inState CensusState.failed (wrapAnswer signKey true KeyUse.source)).measure.work = none
    ∧ (inState CensusState.failed (wrapAnswer signKey true KeyUse.source)).measureWaiting = []
    ∧ (inState CensusState.failed (wrapAnswer signKey true KeyUse.source)).carries
    ∧ (inState CensusState.failed (wrapAnswer signKey true KeyUse.source)).slot (outCard.slot 1) = some wrapKey
    ∧ (inState CensusState.failed (wrapAnswer signKey true KeyUse.source)).slot (outCard.slot 0) = some signKey
    ∧ (inState CensusState.failed (wrapAnswer signKey true KeyUse.source)).custody.work
        = working outCard (CustodyStage.binding KeyUse.source) false
    ∧ (inState CensusState.failed (wrapAnswer signKey true KeyUse.source)).census.state = CensusState.failed := by
  unfold State.carries
  repeat' apply And.intro
  all_goals first
    | decide +kernel
    | rfl

/-- What `Obligations.WritesProgramAndVerify` supposes is met, clause by clause. -/
theorem witness_writesProgramAndVerify :
    cells.settled = cells
    ∧ cells.alternate = some spare
    ∧ false = false
    ∧ 0 < (mapOf 64).spares
    ∧ (mapOf 0).spares = 0
    ∧ single.settled = single
    ∧ single.alternate = none
    ∧ (cells.program (some wrote) (mapOf 64) true false).2.2 = true
    ∧ (cells.program (some wrote) (mapOf 64) false false).2.2 = false
    ∧ storeOf.powered = true
    ∧ storeOf.storeOk := by
  unfold State.storeOk
  repeat' apply And.intro
  all_goals decide +kernel

def markCells (alternate : Bool) : Cells Word32 :=
  { current := { loc := .spare 3, copy := some { value := some 9#32, gen := 4#32, intact := true } }
    alternate := if alternate then some { loc := .home 35 true, copy := none } else none }

/-- A record of another kind with an alternate location and without one, and the location map at each count of spares that the clauses tell
apart. -/
theorem witness_writesProgramAndVerify_more :
    (markCells true).settled = markCells true
    ∧ (markCells true).alternate = some { loc := .home 35 true, copy := none }
    ∧ (markCells false).settled = markCells false
    ∧ (markCells false).alternate = none
    ∧ (mapOf 0).spares = 0
    ∧ (mapOf 1).spares = 1
    ∧ 1 < (mapOf 2).spares
    ∧ 0 < (mapOf 64).spares
    ∧ ((markCells false).program (some 8#32) (mapOf 2) false false).2.2 = false
    ∧ ((markCells false).program (some 8#32) (mapOf 1) true false).2.2 = true := by
  repeat' apply And.intro
  all_goals decide +kernel

/-- What `Obligations.StoreWritesEnd` supposes is met, clause by clause. -/
theorem witness_storeWritesEnd :
    placing.powered = true
    ∧ placing.store.waiting = []
    ∧ placing.credential.work = none
    ∧ placing.store.queue = [{ write := Write.slot 6 (some wrote), answerTo := WriteTo.custodyCard }]
    ∧ placing.custody.work = working placingCard
        (CustodyStage.record 6 (some wrote) none (CustodyThen.settle CardOutcome.done none [])) true
    ∧ placing.carries
    ∧ ((tableGet placing.store.slots 6).program (some wrote) placing.store.map true false).2.2 = true
    ∧ ((tableGet placing.store.slots 6).program (some wrote) placing.store.map false false).2.2 = false
    ∧ placing.startUp = StartUp.ended
    ∧ placing.resetLine = false
    ∧ placing.linkUp = true
    ∧ (storing { write := Write.mark 2 5#32, answerTo := WriteTo.nobody } up).powered = true
    ∧ (storing { write := Write.mark 2 5#32, answerTo := WriteTo.nobody } up).store.waiting = []
    ∧ (storing { write := Write.mark 2 5#32, answerTo := WriteTo.nobody } up).credential.work = none
    ∧ (storing { write := Write.mark 2 5#32, answerTo := WriteTo.nobody } up).store.queue
        = [{ write := Write.mark 2 5#32, answerTo := WriteTo.nobody }]
    ∧ (∀ (i : Fin 32) (v : Option CredRecord), Write.mark 2 5#32 ≠ Write.cred i v)
    ∧ ((storing { write := Write.mark 2 5#32, answerTo := WriteTo.nobody } up).store.program (Write.mark 2 5#32) true false).2 = true
    ∧ up.powered = true
    ∧ up.store.waiting = []
    ∧ up.credential.work = none
    ∧ up.store.queue = []
    ∧ undone.powered = true
    ∧ undone.store.waiting = []
    ∧ undone.credential.work = none
    ∧ undone.store.queue = [{ write := Write.slot 6 (some wrote), answerTo := WriteTo.custodyCard }]
    ∧ undone.custody.work = working placingCard
        (CustodyStage.record 6 (some wrote) none (CustodyThen.settle CardOutcome.done none [])) true
    ∧ undone.carries
    ∧ ((tableGet undone.store.slots 6).program (some wrote) undone.store.map false false).2.2 = false
    ∧ undone.startUp = StartUp.ended
    ∧ undone.resetLine = false
    ∧ undone.linkUp = true
    ∧ (useWriting (CustodyThen.writeBlob [1#8])).powered = true
    ∧ (useWriting (CustodyThen.writeBlob [1#8])).store.waiting = []
    ∧ (useWriting (CustodyThen.writeBlob [1#8])).credential.work = none
    ∧ (useWriting (CustodyThen.writeBlob [1#8])).store.queue
        = [{ write := Write.slot 6 (some wrote), answerTo := WriteTo.custodyCard }]
    ∧ ((tableGet (useWriting (CustodyThen.writeBlob [1#8])).store.slots 6).program (some wrote)
        (useWriting (CustodyThen.writeBlob [1#8])).store.map true false).2.2 = true
    ∧ (useWriting (CustodyThen.writeBlob [1#8])).custody.work
        = working placingCard (CustodyStage.record 6 (some wrote) none (CustodyThen.writeBlob [1#8])) true
    ∧ (useWriting (CustodyThen.importTarget 40 wrote)).powered = true
    ∧ (useWriting (CustodyThen.importTarget 40 wrote)).store.waiting = []
    ∧ (useWriting (CustodyThen.importTarget 40 wrote)).credential.work = none
    ∧ (useWriting (CustodyThen.importTarget 40 wrote)).store.queue
        = [{ write := Write.slot 6 (some wrote), answerTo := WriteTo.custodyCard }]
    ∧ ((tableGet (useWriting (CustodyThen.importTarget 40 wrote)).store.slots 6).program (some wrote)
        (useWriting (CustodyThen.importTarget 40 wrote)).store.map true false).2.2 = true
    ∧ (useWriting (CustodyThen.importTarget 40 wrote)).custody.work
        = working placingCard (CustodyStage.record 6 (some wrote) none (CustodyThen.importTarget 40 wrote)) true
    ∧ 32 ≤ ↑40
    ∧ (useWriting (CustodyThen.importTarget 40 wrote)).carries
    ∧ (useWriting (CustodyThen.importTarget 7 wrote)).powered = true
    ∧ (useWriting (CustodyThen.importTarget 7 wrote)).store.waiting = []
    ∧ (useWriting (CustodyThen.importTarget 7 wrote)).credential.work = none
    ∧ (useWriting (CustodyThen.importTarget 7 wrote)).store.queue
        = [{ write := Write.slot 6 (some wrote), answerTo := WriteTo.custodyCard }]
    ∧ ((tableGet (useWriting (CustodyThen.importTarget 7 wrote)).store.slots 6).program (some wrote)
        (useWriting (CustodyThen.importTarget 7 wrote)).store.map true false).2.2 = true
    ∧ (useWriting (CustodyThen.importTarget 7 wrote)).custody.work
        = working placingCard (CustodyStage.record 6 (some wrote) none (CustodyThen.importTarget 7 wrote)) true
    ∧ ↑7 = ↑7
    ∧ (useWriting (CustodyThen.importTarget 7 wrote)).quiet Client.custody
    ∧ (useWriting (CustodyThen.importTarget 7 wrote)).store.queue.length < storeCapacity := by
  unfold State.quiet State.carries
  repeat' apply And.intro
  all_goals first
    | decide +kernel
    | (intro _ _ h; cases h)

def nobodyFails (x : StartUp) (inReset : Bool) : State :=
  let s := storing { write := .slot 31 none, answerTo := .nobody } up
  { s with startUp := x, resetLine := inReset,
           store := { s.store with slots := tableSet s.store.slots 31 single, map := mapOf 0 } }

/-- A write that nobody waits for and that fails before start-up has ended, or under the reset line. -/
theorem witness_storeWritesEnd_more :
    (nobodyFails .step5 false).powered = true
    ∧ (nobodyFails .step5 false).store.waiting = []
    ∧ (nobodyFails .step5 false).credential.work = none
    ∧ (nobodyFails .step5 false).store.queue = [{ write := .slot 31 none, answerTo := .nobody }]
    ∧ (∀ (i : Fin 32) (v : Option CredRecord), Write.slot 31 none ≠ Write.cred i v)
    ∧ ((nobodyFails .step5 false).store.program (.slot 31 none) false false).2 = false
    ∧ (nobodyFails .step5 false).startUp ≠ .ended
    ∧ ((nobodyFails .ended true).store.program (.slot 31 none) true true).2 = false
    ∧ (nobodyFails .ended true).resetLine = true := by
  repeat' apply And.intro
  all_goals first
    | decide +kernel
    | (intro _ _ h; cases h)

/-- What `Obligations.UnitsWriteTheirExtents` supposes is met, clause by clause. -/
theorem witness_unitsWriteTheirExtents :
    outCustody.powered = true
    ∧ outCustody.carries
    ∧ outCustody.custody.work = accessing outCard (CustodyStage.writeOut [1#8, 2#8] none [none]) false false
    ∧ outMeasure.powered = true
    ∧ outMeasure.carries
    ∧ outMeasure.measure.work = accessing outCard (MeasureStage.writeOut [1#8, 2#8] none [none]) false false
    ∧ outMeasure.measure.paused = none
    ∧ outUpdate.powered = true
    ∧ outUpdate.carries
    ∧ outUpdate.update.work = accessing outCard (UpdateStage.writeOut [1#8, 2#8] none [none]) false false
    ∧ outUpdate.update.wipe ≠ UpdateWipe.held
    ∧ outLife.powered = true
    ∧ outLife.carries
    ∧ outLife.lifecycle.work = accessing outCard (LifeStage.writeOut [1#8, 2#8] none [none]) false false
    ∧ certLife.powered = true
    ∧ certLife.carries
    ∧ certLife.lifecycle.work = accessing certCard LifeStage.readCertificate false false
    ∧ (dmaAnswered DmaResult.answered && certLife.linkUp && !false) = true
    ∧ certLife.storeRoom Client.lifecycle
    ∧ cutWrap.powered = true
    ∧ cutWrap.carries
    ∧ cutWrap.custody.work = accessing outCard (CustodyStage.writeOut [1#8, 2#8] none [none]) true true
    ∧ readingBlob.powered = true
    ∧ readingBlob.carries
    ∧ (dmaAnswered (DmaResult.failed 1) && readingBlob.linkUp && !false) = false
    ∧ readingBlob.custody.work = accessing outCard CustodyStage.readBlob false false
    ∧ (dmaAnswered (DmaResult.failed 0) && certLife.linkUp && !false) = false := by
  unfold State.storeRoom State.carries
  repeat' apply And.intro
  all_goals decide +kernel

/-- What `Obligations.LinkLossAndReturn` supposes is met, clause by clause. -/
theorem witness_linkLossAndReturn :
    outCustody.custody.work = some (outWork CustodyStage (CustodyStage.writeOut [1#8, 2#8] none [none]))
    ∧ outMeasure.measure.work = some (outWork MeasureStage (MeasureStage.writeOut [1#8, 2#8] none [none]))
    ∧ outLife.lifecycle.work = some (outWork LifeStage (LifeStage.writeOut [1#8, 2#8] none [none])) := by
  repeat' apply And.intro
  all_goals decide +kernel

/-- A waiting job and operation, and engines that are free with nothing waiting. -/
theorem witness_enginesServeInRotation :
    allWaiting.waiting .update = some (shaJob [4#8]) ∧ curveWaiting.waiting .custody = some (.sign 5#256 1#256)
      ∧ up.hash.running = none ∧ up.hash.waiting .measure = none ∧ up.curve.running = none ∧ up.curve.waiting .lifecycle = none := by
  decide +kernel

end Measurements

/-! ## The update unit -/

namespace Updates

def rootKey : KeyRecord := key .root (.p256 none 9#512) KeyFlags.none

def rooted (s : State) : State := s.setSlot 0 (some rootKey)

def anchorCard (slot : Nat) : Card := card 0x0301#16 []
    (pad 69 [byteOf slot, 1#8, 0#8, byteOf slot] ++ [7#8] ++ leBytes 14 0 ++ [0#8]) []

def delegateCard (slot : Nat) : Card := card 0x0301#16 [] (pad 68 [byteOf slot, 1#8, 0#8, byteOf slot] ++ [3#8, 7#8]) []

def ownerCard : Card := card 0x0301#16 [] (pad 65 [5#8] ++ [3#8]) []

def removeCard (slot : Nat) : Card := card 0x0302#16 [] [byteOf slot, 2#8, 0#8, byteOf slot, 4#8] []

def removeOwner : Card := card 0x0302#16 [] [5#8] []

def attachment : Anchor := { kinds := 0xFF#8, serial := some 4#32 }

def openCard (slot : Nat) : Card := card 0x0303#16 [] ([7#8] ++ leBytes 4 6 ++ leBytes 4 10 ++ leBytes 32 3 ++ [byteOf slot]) []

def feedCard : Card := card 0x0304#16 [] [] [(0x5000, 10)]

def session (length fed : Nat) : OpenSession :=
  { kind := 7, version := 6, length := length, digest := 3#256, slot := 5, signer := .owner, belowFloor := false, fed := fed,
    running := [1#8], idleStart := 0#32 }

def inSession (x : Session) (s : State) : State := { s with update := { s.update with session := x } }

def verifyingOf (pub : PublicKey) (sig : Signature) (c : Card) (s : State) : State :=
  let s := begun .update c s
  { s with
    curve := { s.curve with running := some { client := .update, op := .verify pub 0#256 sig } }
    update := { s.update with work := working c .verifyCurve false } }

/-- The same with a key on the curve and a signature in range, so that the two answers of the verify are both left. -/
def verifying (c : Card) (s : State) : State := verifyingOf basePoint (halves 1 1) c s

def atFloor (floor : Nat) : State := up.setKind 7 { floor := floor, confirmed := none, trial := none }

def exceptCard : Card := card 0x0303#16 [] ([7#8] ++ leBytes 4 6 ++ leBytes 4 10 ++ leBytes 32 3 ++ [0#8, 1#8]) []

def feeding (x : OpenSession) (n : Nat) : State :=
  let s := inSession (.opened x) (begun .update feedCard up)
  { s with
    hash := { s.hash with running := some { client := .update, withdrawn := false
                                            job := { fn := .sha256, absorbed := x.running, source := .extents [(0, 0x5000#64, n)],
                                                     finalize := decide (x.fed + n = x.length) } } }
    update := { s.update with work := working feedCard .feed false, session := .opened x } }

def session0 : OpenSession := { session 4096 0 with digest := 0#256 }

def cutFeed : State := let s := feeding (session 10 0) 10;
    { s with update := { s.update with work := accessing feedCard .feed false true } }

def feedWork : Work UpdateStage := { card := feedCard, stage := .feed, abandoned := false, committed := false }

def plain (code : Word16) (body : List Byte) : Card := card code [] body []

def checked : CheckedSession := { kind := 7, version := 6, digest := 3#256, slot := 5, signer := .owner, guardStart := 0#32 }

def guarded (s : State) : State := { s with update := { s.update with session := .checked checked, guardOn := true } }

def adviceCard : Card := card 0x0309#16 [] [] [(0x5000, 632)]

def atTick (n : Nat) (s : State) : State := { s with pace := { s.pace with tick := BitVec.ofNat 32 n } }

def ordered (s : State) : State := { s with update := { s.update with wipe := .arrived } }

def twoTrials : State := ((ordered up).setKind 7 (onTrial .owner)).setKind 2 (onTrial .owner)

def removed : KindRecord := { onTrial .owner with trial := none }

def lapsed (k : Fin 8) : PartEvent := .updateLapsed k 6 .ownerSignerRemoved

def eventSent (c : Client) (e : PartEvent) (rest : List Out) (s : State) : State :=
  { s with measureWaiting := [c], outboxes := s.outboxes.set c (.request (.event e) :: rest) }

def wipesLeft (n : Nat) : WipeCount := { removed := 2, outstanding := n, failed := 1 }

def wiping (n : Nat) (s : State) : State := { s with update := { s.update with service := some (wipesLeft n) } }

def storing (w : Write) (a : WriteTo) (s : State) : State :=
    { s with store := { s.store with queue := [{ write := w, answerTo := a }] } }

def updWork (c : Card) (stage : UpdateStage) (s : State) : State :=
  let s := begun .update c s
  { s with update := { s.update with work := working c stage true } }

def trialOf (n : Nat) : KindRecord :=
    { floor := 5, confirmed := none, trial := some { version := n, digest := 3#256, signer := .owner, boots := 3 } }

def commitCard : Card := plain 0x0306#16 []

def committing : State := storing (.kind 7 (trialOf 6)) .updateCard (guarded (updWork commitCard (.commit (trialOf 6)) up))

def trial6 : Trial := { version := 6, digest := 3#256, signer := .owner, boots := 3 }

def confirmCard : Card := plain 0x0307#16 [7#8, 10#8]

def confirmedRec : KindRecord := { floor := 6, confirmed := some { version := 6, digest := 3#256, signer := .owner }, trial := none }

def confirmingW : State := storing (.kind 7 confirmedRec) .updateCard (updWork confirmCard (.confirm confirmedRec 6 .owner false) up)

def revertCard : Card := plain 0x0308#16 [7#8]

def reverting : State := storing (.kind 7 removed) .updateCard (updWork revertCard (.revert removed) up)

def markW (stage : UpdateStage) (c : Card) : State := storing (.mark 1 9#32) .updateCard (updWork c stage up)

def serving (x : CustodyService) (s : State) : State := { s with custody := { s.custody with service := some x } }

def installing : State := storing (.slot 2 (some delegate)) .custodyRequest
    (serving (.install 2 delegate .update) (updWork (delegateCard 2) .installSlot up))

def installingO : State := storing (.slot 5 (some delegate)) .custodyRequest
    (serving (.install 5 delegate .update) (updWork ownerCard .ownerInstall up))

def removing (c : Card) (i : Fin 6) (j : Fin 32) (stage : UpdateStage) : State := storing (.slot j none) .custodyRequest
    (serving (.remove i) (updWork c stage up))

def settling : State := eventSent .updateAsk .ownerAnchorInstalled [.act (.updateSettle .done none [])]
    (updWork ownerCard .sendingEvent up)

def updateHashing (c : Card) (stage : UpdateStage) : State :=
  let s := begun .update c up
  { s with
    hash := { s.hash with running := some { client := .update, job := shaJob [1#8, 2#8], withdrawn := false } }
    update := { s.update with work := working c stage false } }

def expectCard : Card := card 0x0307#16 [] [7#8, 10#8] []

/-- What `Obligations.UpdateCardsBegin` supposes is met, clause by clause. -/
theorem witness_updateCardsBegin :
    (unclaimed (rooted (queued UnitName.update (delegateCard 2) up))).update.session.signerSlot ≠ some ((delegateCard 2).field 0 1)
    ∧ (unclaimed (rooted (queued UnitName.update (delegateCard 2) up))).updateReady 769#16 = some (delegateCard 2)
    ∧ anchorInstallForm (delegateCard 2) = none
    ∧ (delegateCard 2).field 0 1 ≠ 5
    ∧ (unclaimed (rooted (queued UnitName.update (delegateCard 2) up))).lifecycle.effective ≠ LifecycleState.blank
    ∧ (unclaimed (rooted (queued UnitName.update (delegateCard 2) up))).publicKeyOf 0 = some 9#512
    ∧ (unclaimed (rooted (queued UnitName.update (delegateCard 4) up))).update.session.signerSlot ≠ some ((delegateCard 4).field 0 1)
    ∧ (unclaimed (rooted (queued UnitName.update (delegateCard 4) up))).updateReady 769#16 = some (delegateCard 4)
    ∧ anchorInstallForm (delegateCard 4) = none
    ∧ (delegateCard 4).field 0 1 ≠ 5
    ∧ (unclaimed (rooted (queued UnitName.update (delegateCard 4) up))).lifecycle.effective ≠ LifecycleState.blank
    ∧ (unclaimed (rooted (queued UnitName.update (delegateCard 4) up))).publicKeyOf 0 = some 9#512
    ∧ (owned (queued UnitName.update ownerCard up)).update.session.signerSlot ≠ some (ownerCard.field 0 1)
    ∧ (owned (queued UnitName.update ownerCard up)).updateReady 769#16 = some ownerCard
    ∧ anchorInstallForm ownerCard = none
    ∧ ownerCard.field 0 1 = 5
    ∧ (owned (queued UnitName.update ownerCard up)).lifecycle.effective = LifecycleState.claimed
        ∧ (owned (queued UnitName.update ownerCard up)).lifecycle.pending = false
        ∧ (owned (queued UnitName.update ownerCard up)).lifecycle.presence.isSome = true
    ∧ (State.setSlot 3 (some delegate) (rooted (queued UnitName.update (removeCard 3) up))).update.session.signerSlot ≠ some
        ((removeCard 3).field 0 1)
    ∧ (State.setSlot 3 (some delegate) (rooted (queued UnitName.update (removeCard 3) up))).updateReady 770#16 = some (removeCard 3)
    ∧ anchorRemoveForm (removeCard 3) = none
    ∧ (removeCard 3).field 0 1 ≠ 5
    ∧ (State.setSlot 3 (some delegate) (rooted (queued UnitName.update (removeCard 3) up))).publicKeyOf 0 = some 9#512
    ∧ (State.setSlot 3 (some delegate) (rooted (queued UnitName.update (removeCard 3) up))).slot ((removeCard 3).slot 0)
        = some delegate
    ∧ delegate.anchor = some attachment
    ∧ attachment.serial = some ((removeCard 3).fieldStr 4 32)
    ∧ (owned (State.setSlot 5 (some delegate) (queued UnitName.update removeOwner up))).update.session.signerSlot ≠ some
        (removeOwner.field 0 1)
    ∧ (owned (State.setSlot 5 (some delegate) (queued UnitName.update removeOwner up))).updateReady 770#16 = some removeOwner
    ∧ anchorRemoveForm removeOwner = none
    ∧ removeOwner.field 0 1 = 5
    ∧ (owned (State.setSlot 5 (some delegate) (queued UnitName.update removeOwner up))).lifecycle.effective = LifecycleState.claimed
        ∧ (owned (State.setSlot 5 (some delegate) (queued UnitName.update removeOwner up))).lifecycle.pending = false
        ∧ (owned (State.setSlot 5 (some delegate) (queued UnitName.update removeOwner up))).lifecycle.presence.isSome = true
    ∧ (owned (State.setSlot 5 (some delegate) (queued UnitName.update removeOwner up))).slot 5 = some delegate
    ∧ (rooted (queued UnitName.update (openCard 0) up)).updateReady 771#16 = some (openCard 0)
    ∧ updateOpenForm (openCard 0) = none
    ∧ (rooted (queued UnitName.update (openCard 0) up)).update.session = Session.idle
    ∧ ((openCard 0).slot 41 = 0 ∨ (openCard 0).slot 41 = 2 ∨ (openCard 0).slot 41 = 3 ∨ (openCard 0).slot 41 = 4
        ∨ (openCard 0).slot 41 = 5 ∧ (rooted (queued UnitName.update (openCard 0) up)).lifecycle.effective = LifecycleState.claimed
        ∧ (rooted (queued UnitName.update (openCard 0) up)).lifecycle.presence.isSome = true)
    ∧ (rooted (queued UnitName.update (openCard 0) up)).slot ((openCard 0).slot 41) = some rootKey
    ∧ rootKey.material.publicKey = some 9#512
    ∧ ((openCard 0).slot 41 ≠ 0 → ∃ a, rootKey.anchor = some a ∧ BitVec.getLsbD a.kinds ↑(openCard 0).kind = true)
    ∧ (State.setSlot 2 (some delegate) (queued UnitName.update (openCard 2) up)).updateReady 771#16 = some (openCard 2)
    ∧ updateOpenForm (openCard 2) = none
    ∧ (State.setSlot 2 (some delegate) (queued UnitName.update (openCard 2) up)).update.session = Session.idle
    ∧ ((openCard 2).slot 41 = 0 ∨ (openCard 2).slot 41 = 2 ∨ (openCard 2).slot 41 = 3 ∨ (openCard 2).slot 41 = 4
        ∨ (openCard 2).slot 41 = 5 ∧ (State.setSlot 2 (some delegate) (queued UnitName.update (openCard 2) up)).lifecycle.effective
        = LifecycleState.claimed
        ∧ (State.setSlot 2 (some delegate) (queued UnitName.update (openCard 2) up)).lifecycle.presence.isSome = true)
    ∧ (State.setSlot 2 (some delegate) (queued UnitName.update (openCard 2) up)).slot ((openCard 2).slot 41) = some delegate
    ∧ delegate.material.publicKey = some 9#512
    ∧ ((openCard 2).slot 41 ≠ 0 → ∃ a, delegate.anchor = some a ∧ BitVec.getLsbD a.kinds ↑(openCard 2).kind = true)
    ∧ (owned (State.setSlot 5 (some delegate) (queued UnitName.update (openCard 5) up))).updateReady 771#16 = some (openCard 5)
    ∧ updateOpenForm (openCard 5) = none
    ∧ (owned (State.setSlot 5 (some delegate) (queued UnitName.update (openCard 5) up))).update.session = Session.idle
    ∧ ((openCard 5).slot 41 = 0 ∨ (openCard 5).slot 41 = 2 ∨ (openCard 5).slot 41 = 3 ∨ (openCard 5).slot 41 = 4
        ∨ (openCard 5).slot 41 = 5
        ∧ (owned (State.setSlot 5 (some delegate) (queued UnitName.update (openCard 5) up))).lifecycle.effective
        = LifecycleState.claimed
        ∧ (owned (State.setSlot 5 (some delegate) (queued UnitName.update (openCard 5) up))).lifecycle.presence.isSome = true)
    ∧ (owned (State.setSlot 5 (some delegate) (queued UnitName.update (openCard 5) up))).slot ((openCard 5).slot 41) = some delegate
    ∧ ((openCard 5).slot 41 ≠ 0 → ∃ a, delegate.anchor = some a ∧ BitVec.getLsbD a.kinds ↑(openCard 5).kind = true)
    ∧ (inSession (Session.opened (session 10 0)) (queued UnitName.update feedCard up)).updateReady 772#16 = some feedCard
    ∧ feedForm feedCard = none
    ∧ (inSession (Session.opened (session 10 0)) (queued UnitName.update feedCard up)).update.session = Session.opened (session 10 0)
    ∧ (session 10 0).fed + feedCard.extentTotal ≤ (session 10 0).length
    ∧ (inSession (Session.opened (session 10 1)) (queued UnitName.update feedCard up)).updateReady 772#16 = some feedCard
    ∧ (inSession (Session.opened (session 10 1)) (queued UnitName.update feedCard up)).update.session = Session.opened (session 10 1)
    ∧ (session 10 1).length < (session 10 1).fed + feedCard.extentTotal
    ∧ (inSession (Session.opened (session 10 1)) (queued UnitName.update feedCard up)).update.wipe ≠ UpdateWipe.held
    ∧ (inSession (Session.opened (session 10 1)) (queued UnitName.update feedCard up)).carries := by
  unfold State.carries
  repeat' apply And.intro
  all_goals decide +kernel

/-- What `Obligations.SignaturesDecide` supposes is met, clause by clause. -/
theorem witness_signaturesDecide :
    (verifying (delegateCard 2) up).powered = true
    ∧ (verifying (delegateCard 2) up).curve.update = none
    ∧ (verifying (delegateCard 2) up).curve.measure = none
    ∧ (verifying (delegateCard 2) up).curve.custody = none
    ∧ (verifying (delegateCard 2) up).curve.lifecycle = none
    ∧ (verifying (delegateCard 2) up).curve.running = some { client := CurveClient.update, op := CurveOp.verify basePoint 0#256 (halves 1 1) }
    ∧ (verifying (delegateCard 2) up).update.work = working (delegateCard 2) UpdateStage.verifyCurve false
    ∧ (verifying (delegateCard 2) up).update.wipe ≠ UpdateWipe.held
    ∧ (verifying (delegateCard 2) up).carries
    ∧ (delegateCard 2).code = 769#16
    ∧ (verifying (delegateCard 2) up).highWater ((delegateCard 2).slot 0) < ((delegateCard 2).fieldStr 69 32).toNat
    ∧ (verifying (delegateCard 2) (State.setMark 0 (9#32) up)).powered = true
    ∧ (verifying (delegateCard 2) (State.setMark 0 (9#32) up)).curve.update = none
    ∧ (verifying (delegateCard 2) (State.setMark 0 (9#32) up)).curve.measure = none
    ∧ (verifying (delegateCard 2) (State.setMark 0 (9#32) up)).curve.custody = none
    ∧ (verifying (delegateCard 2) (State.setMark 0 (9#32) up)).curve.lifecycle = none
    ∧ (verifying (delegateCard 2) (State.setMark 0 (9#32) up)).curve.running
        = some { client := CurveClient.update, op := CurveOp.verify basePoint 0#256 (halves 1 1) }
    ∧ (verifying (delegateCard 2) (State.setMark 0 (9#32) up)).update.work = working (delegateCard 2) UpdateStage.verifyCurve false
    ∧ (verifying (delegateCard 2) (State.setMark 0 (9#32) up)).update.wipe ≠ UpdateWipe.held
    ∧ (verifying (delegateCard 2) (State.setMark 0 (9#32) up)).carries
    ∧ ((delegateCard 2).fieldStr 69 32).toNat ≤ (verifying (delegateCard 2) (State.setMark 0 (9#32) up)).highWater
        ((delegateCard 2).slot 0)
    ∧ (verifying (removeCard 3) up).powered = true
    ∧ (verifying (removeCard 3) up).curve.update = none
    ∧ (verifying (removeCard 3) up).curve.measure = none
    ∧ (verifying (removeCard 3) up).curve.custody = none
    ∧ (verifying (removeCard 3) up).curve.lifecycle = none
    ∧ (verifying (removeCard 3) up).curve.running = some { client := CurveClient.update, op := CurveOp.verify basePoint 0#256 (halves 1 1) }
    ∧ (verifying (removeCard 3) up).update.work = working (removeCard 3) UpdateStage.verifyCurve false
    ∧ (verifying (removeCard 3) up).update.wipe ≠ UpdateWipe.held
    ∧ (verifying (removeCard 3) up).carries
    ∧ (removeCard 3).code = 770#16
    ∧ BitVec.toNat ((verifying (removeCard 3) up).mark (markIndex ↑((removeCard 3).slot 0))) < ((removeCard 3).fieldStr 4 32).toNat
    ∧ (verifying (removeCard 3) up).storeRoom Client.update
    ∧ (verifying (removeCard 3) (State.setMark 1 (4#32) up)).powered = true
    ∧ (verifying (removeCard 3) (State.setMark 1 (4#32) up)).curve.update = none
    ∧ (verifying (removeCard 3) (State.setMark 1 (4#32) up)).curve.measure = none
    ∧ (verifying (removeCard 3) (State.setMark 1 (4#32) up)).curve.custody = none
    ∧ (verifying (removeCard 3) (State.setMark 1 (4#32) up)).curve.lifecycle = none
    ∧ (verifying (removeCard 3) (State.setMark 1 (4#32) up)).curve.running
        = some { client := CurveClient.update, op := CurveOp.verify basePoint 0#256 (halves 1 1) }
    ∧ (verifying (removeCard 3) (State.setMark 1 (4#32) up)).update.work = working (removeCard 3) UpdateStage.verifyCurve false
    ∧ (verifying (removeCard 3) (State.setMark 1 (4#32) up)).update.wipe ≠ UpdateWipe.held
    ∧ (verifying (removeCard 3) (State.setMark 1 (4#32) up)).carries
    ∧ ((removeCard 3).fieldStr 4 32).toNat ≤ BitVec.toNat
        ((verifying (removeCard 3) (State.setMark 1 (4#32) up)).mark (markIndex ↑((removeCard 3).slot 0)))
    ∧ (verifying (openCard 5) (atFloor 6)).powered = true
    ∧ (verifying (openCard 5) (atFloor 6)).curve.update = none
    ∧ (verifying (openCard 5) (atFloor 6)).curve.measure = none
    ∧ (verifying (openCard 5) (atFloor 6)).curve.custody = none
    ∧ (verifying (openCard 5) (atFloor 6)).curve.lifecycle = none
    ∧ (verifying (openCard 5) (atFloor 6)).curve.running
        = some { client := CurveClient.update, op := CurveOp.verify basePoint 0#256 (halves 1 1) }
    ∧ (verifying (openCard 5) (atFloor 6)).update.work = working (openCard 5) UpdateStage.verifyCurve false
    ∧ (verifying (openCard 5) (atFloor 6)).update.wipe ≠ UpdateWipe.held
    ∧ (verifying (openCard 5) (atFloor 6)).carries
    ∧ (openCard 5).code = 771#16
    ∧ (verifying (openCard 5) (atFloor 6)).update.session = Session.idle
    ∧ ((verifying (openCard 5) (atFloor 6)).kindRecord (openCard 5).kind).trial = none
    ∧ decide ((openCard 5).field 1 4 < ((verifying (openCard 5) (atFloor 6)).kindRecord (openCard 5).kind).floor) = false
    ∧ (verifying exceptCard (owned (atFloor 7))).powered = true
    ∧ (verifying exceptCard (owned (atFloor 7))).curve.update = none
    ∧ (verifying exceptCard (owned (atFloor 7))).curve.measure = none
    ∧ (verifying exceptCard (owned (atFloor 7))).curve.custody = none
    ∧ (verifying exceptCard (owned (atFloor 7))).curve.lifecycle = none
    ∧ (verifying exceptCard (owned (atFloor 7))).curve.running
        = some { client := CurveClient.update, op := CurveOp.verify basePoint 0#256 (halves 1 1) }
    ∧ (verifying exceptCard (owned (atFloor 7))).update.work = working exceptCard UpdateStage.verifyCurve false
    ∧ (verifying exceptCard (owned (atFloor 7))).update.wipe ≠ UpdateWipe.held
    ∧ (verifying exceptCard (owned (atFloor 7))).carries
    ∧ exceptCard.code = 771#16
    ∧ (verifying exceptCard (owned (atFloor 7))).update.session = Session.idle
    ∧ ((verifying exceptCard (owned (atFloor 7))).kindRecord exceptCard.kind).trial = none
    ∧ BitVec.getLsbD (exceptCard.byte 58) 0 = true
    ∧ exceptCard.field 41 1 ≠ 5
    ∧ (verifying exceptCard (owned (atFloor 7))).lifecycle.presence.isSome = true
    ∧ (verifying (openCard 5) (atFloor 7)).powered = true
    ∧ (verifying (openCard 5) (atFloor 7)).curve.update = none
    ∧ (verifying (openCard 5) (atFloor 7)).curve.measure = none
    ∧ (verifying (openCard 5) (atFloor 7)).curve.custody = none
    ∧ (verifying (openCard 5) (atFloor 7)).curve.lifecycle = none
    ∧ (verifying (openCard 5) (atFloor 7)).curve.running
        = some { client := CurveClient.update, op := CurveOp.verify basePoint 0#256 (halves 1 1) }
    ∧ (verifying (openCard 5) (atFloor 7)).update.work = working (openCard 5) UpdateStage.verifyCurve false
    ∧ (verifying (openCard 5) (atFloor 7)).update.wipe ≠ UpdateWipe.held
    ∧ (verifying (openCard 5) (atFloor 7)).carries
    ∧ (verifying (openCard 5) (atFloor 7)).update.session = Session.idle
    ∧ ((verifying (openCard 5) (atFloor 7)).kindRecord (openCard 5).kind).trial = none
    ∧ decide ((openCard 5).field 1 4 < ((verifying (openCard 5) (atFloor 7)).kindRecord (openCard 5).kind).floor) = true
    ∧ (¬(BitVec.getLsbD ((openCard 5).byte 58) 0 = true ∧ (openCard 5).field 41 1 ≠ 5
        ∧ (verifying (openCard 5) (atFloor 7)).lifecycle.presence.isSome = true))
    ∧ (verifying (openCard 5) (State.setKind 7 (onTrial SignerClass.root) up)).powered = true
    ∧ (verifying (openCard 5) (State.setKind 7 (onTrial SignerClass.root) up)).curve.update = none
    ∧ (verifying (openCard 5) (State.setKind 7 (onTrial SignerClass.root) up)).curve.measure = none
    ∧ (verifying (openCard 5) (State.setKind 7 (onTrial SignerClass.root) up)).curve.custody = none
    ∧ (verifying (openCard 5) (State.setKind 7 (onTrial SignerClass.root) up)).curve.lifecycle = none
    ∧ (verifying (openCard 5) (State.setKind 7 (onTrial SignerClass.root) up)).curve.running
        = some { client := CurveClient.update, op := CurveOp.verify basePoint 0#256 (halves 1 1) }
    ∧ (verifying (openCard 5) (State.setKind 7 (onTrial SignerClass.root) up)).update.work
        = working (openCard 5) UpdateStage.verifyCurve false
    ∧ (verifying (openCard 5) (State.setKind 7 (onTrial SignerClass.root) up)).update.wipe ≠ UpdateWipe.held
    ∧ (verifying (openCard 5) (State.setKind 7 (onTrial SignerClass.root) up)).carries
    ∧ (verifying (openCard 5) (State.setKind 7 (onTrial SignerClass.root) up)).update.session = Session.idle
    ∧ ((verifying (openCard 5) (State.setKind 7 (onTrial SignerClass.root) up)).kindRecord (openCard 5).kind).trial.isSome
        = true
    ∧ (verifyingOf (halves 9 9) (halves 1 1) (openCard 5) up).powered = true
    ∧ (verifyingOf (halves 9 9) (halves 1 1) (openCard 5) up).curve.update = none
    ∧ (verifyingOf (halves 9 9) (halves 1 1) (openCard 5) up).curve.measure = none
    ∧ (verifyingOf (halves 9 9) (halves 1 1) (openCard 5) up).curve.custody = none
    ∧ (verifyingOf (halves 9 9) (halves 1 1) (openCard 5) up).curve.lifecycle = none
    ∧ (verifyingOf (halves 9 9) (halves 1 1) (openCard 5) up).curve.running
        = some { client := CurveClient.update, op := CurveOp.verify (halves 9 9) 0#256 (halves 1 1) }
    ∧ (verifyingOf (halves 9 9) (halves 1 1) (openCard 5) up).update.work = working (openCard 5) UpdateStage.verifyCurve false
    ∧ (verifyingOf (halves 9 9) (halves 1 1) (openCard 5) up).update.wipe ≠ UpdateWipe.held
    ∧ (verifyingOf (halves 9 9) (halves 1 1) (openCard 5) up).carries
    ∧ (verifyingOf basePoint (halves 0 1) (openCard 5) up).powered = true
    ∧ (verifyingOf basePoint (halves 0 1) (openCard 5) up).curve.update = none
    ∧ (verifyingOf basePoint (halves 0 1) (openCard 5) up).curve.measure = none
    ∧ (verifyingOf basePoint (halves 0 1) (openCard 5) up).curve.custody = none
    ∧ (verifyingOf basePoint (halves 0 1) (openCard 5) up).curve.lifecycle = none
    ∧ (verifyingOf basePoint (halves 0 1) (openCard 5) up).curve.running
        = some { client := CurveClient.update, op := CurveOp.verify basePoint 0#256 (halves 0 1) }
    ∧ (verifyingOf basePoint (halves 0 1) (openCard 5) up).update.work = working (openCard 5) UpdateStage.verifyCurve false
    ∧ (verifyingOf basePoint (halves 0 1) (openCard 5) up).update.wipe ≠ UpdateWipe.held
    ∧ (verifyingOf basePoint (halves 0 1) (openCard 5) up).carries
    ∧ (verifyingOf basePoint (halves 1 Config.curveOrder) (openCard 5) up).powered = true
    ∧ (verifyingOf basePoint (halves 1 Config.curveOrder) (openCard 5) up).curve.update = none
    ∧ (verifyingOf basePoint (halves 1 Config.curveOrder) (openCard 5) up).curve.measure = none
    ∧ (verifyingOf basePoint (halves 1 Config.curveOrder) (openCard 5) up).curve.custody = none
    ∧ (verifyingOf basePoint (halves 1 Config.curveOrder) (openCard 5) up).curve.lifecycle = none
    ∧ (verifyingOf basePoint (halves 1 Config.curveOrder) (openCard 5) up).curve.running
        = some { client := CurveClient.update, op := CurveOp.verify basePoint 0#256 (halves 1 Config.curveOrder) }
    ∧ (verifyingOf basePoint (halves 1 Config.curveOrder) (openCard 5) up).update.work = working (openCard 5) UpdateStage.verifyCurve false
    ∧ (verifyingOf basePoint (halves 1 Config.curveOrder) (openCard 5) up).update.wipe ≠ UpdateWipe.held
    ∧ (verifyingOf basePoint (halves 1 Config.curveOrder) (openCard 5) up).carries
    ∧ halfOf (halves 9 9) 0 < Config.curvePrime
        ∧ (halfOf (halves 9 9) 1 * halfOf (halves 9 9) 1 + 3 * halfOf (halves 9 9) 0) % Config.curvePrime
          ≠ (halfOf (halves 9 9) 0 * halfOf (halves 9 9) 0 * halfOf (halves 9 9) 0 + Config.curveConstant) % Config.curvePrime
    ∧ ¬1 ≤ halfOf (halves 0 1) 0
    ∧ ¬halfOf (halves 1 Config.curveOrder) 1 < Config.curveOrder
    ∧ onCurve basePoint = true := by
  unfold State.storeRoom State.carries
  repeat' apply And.intro
  all_goals decide +kernel

/-- What `Obligations.FeedsEnd` supposes is met, clause by clause. -/
theorem witness_feedsEnd :
    (feeding (session 11 0) 10).powered = true
    ∧ (feeding (session 11 0) 10).startUp = StartUp.ended
    ∧ (feeding (session 11 0) 10).hash.running
        = some { client := HashClient.update,
                 job := { fn := HashFunction.sha256, absorbed := (session 11 0).running,
                          source := ByteSource.extents [(0, 20480#64, 10)],
                          finalize := decide ((session 11 0).fed + 10 = (session 11 0).length) }, withdrawn := false }
    ∧ (feeding (session 11 0) 10).update.work = accessing feedCard UpdateStage.feed false false
    ∧ (feeding (session 11 0) 10).update.session = Session.opened (session 11 0)
    ∧ 10 ≤ 4096
    ∧ (feeding (session 11 0) 10).update.wipe ≠ UpdateWipe.held
    ∧ (feeding (session 11 0) 10).carries
    ∧ (feeding (session 11 0) 10).linkUp = true
    ∧ false = false
    ∧ (session 11 0).fed + 10 < (session 11 0).length
    ∧ (feeding (session 10 0) 10).powered = true
    ∧ (feeding (session 10 0) 10).startUp = StartUp.ended
    ∧ (feeding (session 10 0) 10).hash.running
        = some { client := HashClient.update,
                 job := { fn := HashFunction.sha256, absorbed := (session 10 0).running,
                          source := ByteSource.extents [(0, 20480#64, 10)],
                          finalize := decide ((session 10 0).fed + 10 = (session 10 0).length) }, withdrawn := false }
    ∧ (feeding (session 10 0) 10).update.work = accessing feedCard UpdateStage.feed false false
    ∧ (feeding (session 10 0) 10).update.session = Session.opened (session 10 0)
    ∧ (feeding (session 10 0) 10).update.wipe ≠ UpdateWipe.held
    ∧ (feeding (session 10 0) 10).carries
    ∧ (feeding (session 10 0) 10).linkUp = true
    ∧ (session 10 0).fed + 10 = (session 10 0).length
    ∧ (feeding session0 4096).powered = true
    ∧ (feeding session0 4096).startUp = StartUp.ended
    ∧ (feeding session0 4096).hash.running
        = some { client := HashClient.update,
                 job := { fn := HashFunction.sha256, absorbed := session0.running,
                          source := ByteSource.extents [(0, 20480#64, 4096)],
                          finalize := decide (session0.fed + 4096 = session0.length) }, withdrawn := false }
    ∧ (feeding session0 4096).update.work = accessing feedCard UpdateStage.feed false false
    ∧ (feeding session0 4096).update.session = Session.opened session0
    ∧ 4096 ≤ 4096
    ∧ (feeding session0 4096).update.wipe ≠ UpdateWipe.held
    ∧ (feeding session0 4096).carries
    ∧ (feeding session0 4096).linkUp = true
    ∧ session0.fed + 4096 = session0.length
    ∧ cutFeed.powered = true
    ∧ cutFeed.startUp = StartUp.ended
    ∧ cutFeed.hash.running = some
        { client := HashClient.update,
          job := { fn := HashFunction.sha256, absorbed := (session 10 0).running, source := ByteSource.extents [(0, 20480#64, 10)],
                   finalize := decide ((session 10 0).fed + 10 = (session 10 0).length) }, withdrawn := false }
    ∧ cutFeed.update.work = accessing feedCard UpdateStage.feed false true
    ∧ cutFeed.update.session = Session.opened (session 10 0)
    ∧ cutFeed.update.wipe ≠ UpdateWipe.held
    ∧ cutFeed.carries
    ∧ (updateHashing (delegateCard 2) (UpdateStage.verifyHash 9#512)).powered = true
    ∧ (updateHashing (delegateCard 2) (UpdateStage.verifyHash 9#512)).startUp = StartUp.ended
    ∧ [1#8, 2#8].length ≤ 4096
    ∧ (updateHashing (delegateCard 2) (UpdateStage.verifyHash 9#512)).hash.running
        = some { client := HashClient.update, job := shaJob [1#8, 2#8], withdrawn := false }
    ∧ (updateHashing (delegateCard 2) (UpdateStage.verifyHash 9#512)).update.work
        = working (delegateCard 2) (UpdateStage.verifyHash 9#512) false
    ∧ (delegateCard 2).code = 769#16
    ∧ (updateHashing (removeCard 3) (UpdateStage.verifyHash 9#512)).powered = true
    ∧ (updateHashing (removeCard 3) (UpdateStage.verifyHash 9#512)).startUp = StartUp.ended
    ∧ (updateHashing (removeCard 3) (UpdateStage.verifyHash 9#512)).hash.running
        = some { client := HashClient.update, job := shaJob [1#8, 2#8], withdrawn := false }
    ∧ (updateHashing (removeCard 3) (UpdateStage.verifyHash 9#512)).update.work
        = working (removeCard 3) (UpdateStage.verifyHash 9#512) false
    ∧ (removeCard 3).code = 770#16
    ∧ (updateHashing (openCard 5) (UpdateStage.verifyHash 9#512)).powered = true
    ∧ (updateHashing (openCard 5) (UpdateStage.verifyHash 9#512)).startUp = StartUp.ended
    ∧ (updateHashing (openCard 5) (UpdateStage.verifyHash 9#512)).hash.running
        = some { client := HashClient.update, job := shaJob [1#8, 2#8], withdrawn := false }
    ∧ (updateHashing (openCard 5) (UpdateStage.verifyHash 9#512)).update.work
        = working (openCard 5) (UpdateStage.verifyHash 9#512) false
    ∧ (openCard 5).code = 771#16
    ∧ (updateHashing expectCard UpdateStage.confirmHash).powered = true
    ∧ (updateHashing expectCard UpdateStage.confirmHash).startUp = StartUp.ended
    ∧ (updateHashing expectCard UpdateStage.confirmHash).hash.running
        = some { client := HashClient.update, job := shaJob [1#8, 2#8], withdrawn := false }
    ∧ (updateHashing expectCard UpdateStage.confirmHash).update.work = working expectCard UpdateStage.confirmHash false
    ∧ expectCard.field 1 1 = ↑10
    ∧ (updateHashing expectCard UpdateStage.confirmHash).measureRoom Client.updateAsk := by
  unfold State.measureRoom State.carries
  repeat' apply And.intro
  all_goals decide +kernel

def feedPiece (l : List (Nat × Word64 × Nat)) (final : Bool) : State :=
  let s := feeding (session 8000 0) 10
  { s with hash := { s.hash with running := some { client := .update, withdrawn := false, job := extentJob .sha256 [1#8] l final } } }

/-- The pieces of a feed that are not its last: an extent of 4097 bytes, one of 4096 with another behind it, and one whose read is cut. -/
theorem witness_feedsEnd_more :
    pieceRuns (feedPiece [(0, 0x5000#64, 4097)] false) .update
        (extentJob .sha256 (session 8000 0).running [(0, 0x5000#64, 4097)] false)
    ∧ (feedPiece [(0, 0x5000#64, 4097)] false).update.work = accessing feedCard .feed false false
    ∧ (feedPiece [(0, 0x5000#64, 4097)] false).update.session = .opened (session 8000 0)
    ∧ (feedPiece [(0, 0x5000#64, 4097)] false).linkUp = true
    ∧ (feedPiece [(0, 0x5000#64, 4097)] false).update.wipe ≠ .held
    ∧ (feedPiece [(0, 0x5000#64, 4097)] false).carries
    ∧ pieceRuns (feedPiece [(0, 0x5000#64, 4096), (1, 0x9000#64, 3904)] true) .update
        (extentJob .sha256 (session 8000 0).running [(0, 0x5000#64, 4096), (1, 0x9000#64, 3904)] true)
    ∧ (feedPiece [(0, 0x5000#64, 4096), (1, 0x9000#64, 3904)] true).update.session = .opened (session 8000 0) := by
  unfold State.carries
  repeat' apply And.intro
  all_goals decide +kernel

/-- What `Obligations.LinkLossAndReturn` supposes is met, clause by clause. -/
theorem witness_linkLossAndReturn :
    (feeding (session 10 0) 10).powered = true
    ∧ (feeding (session 10 0) 10).linkUp = true
    ∧ (feeding (session 10 0) 10).exch.area.isActive = true
    ∧ (∀ b ∈ (feeding (session 10 0) 10).exch.buffers, ∀ x ∈ (feeding (session 10 0) 10).exch.settleList, b.card.take = x.card.take
        → b.card.code ≠ feedCode)
    ∧ (feeding (session 10 0) 10).update.work = some feedWork := by
  repeat' apply And.intro
  all_goals decide +kernel

/-- What `Obligations.TrialCardsBegin` supposes is met, clause by clause. -/
theorem witness_trialCardsBegin :
    (guarded (queued UnitName.update (plain 773#16 []) up)).updateReady 773#16 = some (plain 773#16 [])
    ∧ noFieldsForm (plain 773#16 []) = none
    ∧ (guarded (queued UnitName.update (plain 773#16 []) up)).update.wipe ≠ UpdateWipe.held
    ∧ (guarded (queued UnitName.update (plain 773#16 []) up)).carries
    ∧ (inSession (Session.opened (session 10 0)) (queued UnitName.update (plain 773#16 []) up)).updateReady 773#16
        = some (plain 773#16 [])
    ∧ (inSession (Session.opened (session 10 0)) (queued UnitName.update (plain 773#16 []) up)).update.wipe ≠ UpdateWipe.held
    ∧ (inSession (Session.opened (session 10 0)) (queued UnitName.update (plain 773#16 []) up)).carries
    ∧ (queued UnitName.update (plain 773#16 []) up).updateReady 773#16 = some (plain 773#16 [])
    ∧ (queued UnitName.update (plain 773#16 []) up).update.wipe ≠ UpdateWipe.held
    ∧ (queued UnitName.update (plain 773#16 []) up).carries
    ∧ (guarded (queued UnitName.update (plain 774#16 []) up)).updateReady 774#16 = some (plain 774#16 [])
    ∧ noFieldsForm (plain 774#16 []) = none
    ∧ (guarded (queued UnitName.update (plain 774#16 []) up)).update.session = Session.checked checked
    ∧ (guarded (queued UnitName.update (plain 774#16 []) up)).storeRoom Client.update
    ∧ (State.setKind 7 (onTrial SignerClass.root) (queued UnitName.update (plain 775#16 [7#8, 10#8]) up)).updateReady 775#16
        = some (plain 775#16 [7#8, 10#8])
    ∧ updateConfirmForm (plain 775#16 [7#8, 10#8]) = none
    ∧ ((State.setKind 7 (onTrial SignerClass.root) (queued UnitName.update (plain 775#16 [7#8, 10#8]) up)).kindRecord
        (plain 775#16 [7#8, 10#8]).kind).trial = some (trial SignerClass.root)
    ∧ (State.setKind 7 (onTrial SignerClass.root) (queued UnitName.update (plain 776#16 [7#8]) up)).updateReady 776#16
        = some (plain 776#16 [7#8])
    ∧ updateRevertForm (plain 776#16 [7#8]) = none
    ∧ ((State.setKind 7 (onTrial SignerClass.root) (queued UnitName.update (plain 776#16 [7#8]) up)).kindRecord
        (plain 776#16 [7#8]).kind).trial = some (trial SignerClass.root)
    ∧ (State.setKind 7 (onTrial SignerClass.root) (queued UnitName.update (plain 776#16 [7#8]) up)).storeRoom Client.update
    ∧ (State.setKind 7 (onTrial SignerClass.root) (queued UnitName.update adviceCard up)).updateReady 777#16 = some adviceCard
    ∧ bootAdviceForm adviceCard = none := by
  unfold State.storeRoom State.carries
  repeat' apply And.intro
  all_goals decide +kernel

/-- What `Obligations.SessionTimersExpire` supposes is met, clause by clause. -/
theorem witness_sessionTimersExpire :
    (atTick 480 (inSession (Session.opened (session 10 0)) up)).powered = true
    ∧ (atTick 480 (inSession (Session.opened (session 10 0)) up)).update.session = Session.opened (session 10 0)
    ∧ 480 ≤ elapsed (atTick 480 (inSession (Session.opened (session 10 0)) up)).pace.tick (session 10 0).idleStart
    ∧ (∀ b ∈ (atTick 480 (inSession (Session.opened (session 10 0)) up)).exch.buffers, b.unit = some UnitName.update
        → b.card.code ≠ 772#16)
    ∧ (atTick 479 (inSession (Session.opened (session 10 0)) up)).powered = true
    ∧ (atTick 479 (inSession (Session.opened (session 10 0)) up)).update.session = Session.opened (session 10 0)
    ∧ elapsed (atTick 479 (inSession (Session.opened (session 10 0)) up)).pace.tick (session 10 0).idleStart < 480
    ∧ (atTick 3600 (guarded up)).powered = true
    ∧ (atTick 3600 (guarded up)).update.session = Session.checked checked
    ∧ 3600 ≤ elapsed (atTick 3600 (guarded up)).pace.tick checked.guardStart
    ∧ (∀ (w : Work UpdateStage), (atTick 3600 (guarded up)).update.work = some w → w.card.code ≠ 774#16)
    ∧ (atTick 3600 (guarded up)).update.wipe ≠ UpdateWipe.held
    ∧ (atTick 3599 (guarded up)).powered = true
    ∧ (atTick 3599 (guarded up)).update.session = Session.checked checked
    ∧ elapsed (atTick 3599 (guarded up)).pace.tick checked.guardStart < 3600 := by
  repeat' apply And.intro
  all_goals decide +kernel

/-- What `Obligations.UpdateUnitWipes` supposes is met, clause by clause. -/
theorem witness_updateUnitWipes :
    (ordered (guarded up)).powered = true
    ∧ (ordered (guarded up)).update.wipe = UpdateWipe.arrived
    ∧ (ordered (guarded up)).update.work = none
    ∧ (ordered (guarded up)).update.service = none
    ∧ (ordered (guarded up)).quiet Client.updateWipe
    ∧ (ordered (guarded up)).update.session = Session.checked checked
    ∧ (ordered (inSession (Session.opened (session 10 0)) up)).powered = true
    ∧ (ordered (inSession (Session.opened (session 10 0)) up)).update.wipe = UpdateWipe.arrived
    ∧ (ordered (inSession (Session.opened (session 10 0)) up)).update.work = none
    ∧ (ordered (inSession (Session.opened (session 10 0)) up)).update.service = none
    ∧ (ordered (inSession (Session.opened (session 10 0)) up)).quiet Client.updateWipe
    ∧ (∀ (x : CheckedSession), (ordered (inSession (Session.opened (session 10 0)) up)).update.session ≠ Session.checked x)
    ∧ (∀ (k : Fin 8), ¬∃ x, ((ordered (inSession (Session.opened (session 10 0)) up)).kindRecord k).trial = some x ∧ x.signer
        = SignerClass.owner)
    ∧ (State.setKind 7 (onTrial SignerClass.owner) (ordered (inSession (Session.opened (session 10 0)) up))).powered = true
    ∧ (State.setKind 7 (onTrial SignerClass.owner) (ordered (inSession (Session.opened (session 10 0)) up))).update.wipe
        = UpdateWipe.arrived
    ∧ (State.setKind 7 (onTrial SignerClass.owner) (ordered (inSession (Session.opened (session 10 0)) up))).update.work = none
    ∧ (State.setKind 7 (onTrial SignerClass.owner) (ordered (inSession (Session.opened (session 10 0)) up))).update.service = none
    ∧ (State.setKind 7 (onTrial SignerClass.owner) (ordered (inSession (Session.opened (session 10 0)) up))).quiet Client.updateWipe
    ∧ (∀ (x : CheckedSession),
        (State.setKind 7 (onTrial SignerClass.owner) (ordered (inSession (Session.opened (session 10 0)) up))).update.session ≠
        Session.checked x)
    ∧ (State.setKind 7 (onTrial SignerClass.owner) (ordered (inSession (Session.opened (session 10 0)) up))).ownerTrials = [7]
    ∧ (State.setKind 7 (onTrial SignerClass.owner) (ordered (inSession (Session.opened (session 10 0)) up))).store.queue.length <
        storeCapacity
    ∧ (State.setKind 7 (onTrial SignerClass.owner) (ordered (inSession (Session.opened (session 10 0)) up))).measure.starting = false
    ∧ twoTrials.powered = true
    ∧ twoTrials.update.wipe = UpdateWipe.arrived
    ∧ twoTrials.update.work = none
    ∧ twoTrials.update.service = none
    ∧ twoTrials.quiet Client.updateWipe
    ∧ (∀ (x : CheckedSession), twoTrials.update.session ≠ Session.checked x)
    ∧ twoTrials.ownerTrials = [2, 7]
    ∧ twoTrials.store.queue.length < storeCapacity
    ∧ twoTrials.measure.starting = false
    ∧ (wiping 1 (eventSent Client.updateWipe (lapsed 2)
        [Out.write (Write.kind 7 removed) WriteTo.updateWipe, Out.request (MeasureRequest.event (lapsed 7)),
        Out.act After.updateWipeSent] up)).update.service = some (wipesLeft 1)
    ∧ (wiping 1 (eventSent Client.updateWipe (lapsed 2)
        [Out.write (Write.kind 7 removed) WriteTo.updateWipe, Out.request (MeasureRequest.event (lapsed 7)),
        Out.act After.updateWipeSent] up)).eventWaits Client.updateWipe (lapsed 2)
        [Out.write (Write.kind 7 removed) WriteTo.updateWipe, Out.request (MeasureRequest.event (lapsed 7)),
        Out.act After.updateWipeSent]
    ∧ (wiping 1 (eventSent Client.updateWipe (lapsed 2)
        [Out.write (Write.kind 7 removed) WriteTo.updateWipe, Out.request (MeasureRequest.event (lapsed 7)),
        Out.act After.updateWipeSent] up)).store.queue.length < storeCapacity
    ∧ 0 < (wipesLeft 1).outstanding
    ∧ (wiping 0 (eventSent Client.updateWipe (lapsed 2) [Out.act After.updateWipeSent] up)).update.service = some (wipesLeft 0)
    ∧ (wiping 0 (eventSent Client.updateWipe (lapsed 2) [Out.act After.updateWipeSent] up)).eventWaits Client.updateWipe (lapsed 2)
        [Out.act After.updateWipeSent]
    ∧ (wiping 1 (eventSent Client.updateWipe (lapsed 2) [Out.act After.updateWipeSent] up)).update.service = some (wipesLeft 1)
    ∧ (wiping 1 (eventSent Client.updateWipe (lapsed 2) [Out.act After.updateWipeSent] up)).eventWaits Client.updateWipe (lapsed 2)
        [Out.act After.updateWipeSent] := by
  unfold State.eventWaits State.quiet
  repeat' apply And.intro
  all_goals first
    | decide +kernel
    | (intro _ h; cases h)

def held (s : State) : State := { s with update := { s.update with wipe := .held } }

def heldAt (n : Nat) : State := atTick n (held (guarded up))

def cancelCard : Card := plain 0x0305#16 []

def advising : State :=
  let s := held (begun .update adviceCard up)
  { s with update := { s.update with work := working adviceCard (.writeOut [1#8] none []) false } }

/-- A wipe order held by a CHECKED session, when the guard timer's limit has just passed (with and without another card in work), and when
UPDATE CANCEL or the end of a BOOT ADVICE serves it. -/
theorem witness_updateUnitWipes_more :
    (heldAt 3600).powered = true
    ∧ (heldAt 3600).update.wipe = .held
    ∧ (heldAt 3600).update.session = .checked checked
    ∧ (heldAt 3600).update.service = none
    ∧ 3600 ≤ elapsed (heldAt 3600).pace.tick checked.guardStart
    ∧ (heldAt 3600).update.work = none
    ∧ (updWork adviceCard (.writeOut [] none []) (heldAt 3600)).update.work = working adviceCard (.writeOut [] none []) true
    ∧ adviceCard.code ≠ 0x0306#16
    ∧ (queued .update cancelCard (heldAt 5)).updateReady 0x0305#16 = some cancelCard
    ∧ noFieldsForm cancelCard = none
    ∧ (queued .update cancelCard (heldAt 5)).carries
    ∧ advising.powered = true ∧ advising.linkUp = true ∧ advising.carries
    ∧ advising.update.wipe = .held
    ∧ (∀ x, advising.update.session ≠ .checked x)
    ∧ advising.update.service = none
    ∧ advising.update.work = working adviceCard (.writeOut [1#8] none []) false := by
  unfold State.carries
  repeat' apply And.intro
  all_goals first
    | decide +kernel
    | (intro _ h; cases h)

def heldCommit (n spares : Nat) : State :=
  let s := atTick n (held committing)
  { s with store := { s.store with map := { spares := spares, retired := [] } } }

/-- A commit with the order held: its write ends DONE, and in a fault at the last tick of the guard limit and just before it. -/
theorem witness_updateUnitWipes_part3 :
    (heldCommit 5 64).powered = true
    ∧ (heldCommit 5 64).update.wipe = .held
    ∧ (heldCommit 5 64).update.session = .checked checked
    ∧ (heldCommit 5 64).update.service = none
    ∧ (heldCommit 5 64).inWrite (.kind 7 (trialOf 6)) .updateCard []
    ∧ (heldCommit 5 64).update.work = working commitCard (.commit (trialOf 6)) true
    ∧ (trialOf 6).trial = some trial6
    ∧ (heldCommit 5 64).quiet .updateWipe
    ∧ (heldCommit 5 64).store.queue.length < storeCapacity
    ∧ (heldCommit 5 64).measure.starting = false
    ∧ (heldCommit 5 64).endsDone (.kind 7 (trialOf 6)) true false = true
    ∧ (heldCommit 3600 64).endsDone (.kind 7 (trialOf 6)) false false = false
    ∧ 3600 ≤ elapsed (heldCommit 3600 64).pace.tick checked.guardStart
    ∧ (heldCommit 3599 64).endsDone (.kind 7 (trialOf 6)) false false = false
    ∧ elapsed (heldCommit 3599 64).pace.tick checked.guardStart < 3600 := by
  unfold State.inWrite State.quiet State.carries
  repeat' apply And.intro
  all_goals decide +kernel

/-- What `Obligations.UpdateWritesEnd` supposes is met, clause by clause. -/
theorem witness_updateWritesEnd :
    committing.inWrite (Write.kind 7 (trialOf 6)) WriteTo.updateCard []
    ∧ committing.update.wipe ≠ UpdateWipe.held
    ∧ Write.kind 7 (trialOf 6) = Write.kind 7 (trialOf 6)
    ∧ committing.update.work = working commitCard (UpdateStage.commit (trialOf 6)) true
    ∧ committing.update.session = Session.checked checked
    ∧ (trialOf 6).trial = some trial6
    ∧ committing.endsDone (Write.kind 7 (trialOf 6)) true false = true
    ∧ committing.endsDone (Write.kind 7 (trialOf 6)) false false = false
    ∧ elapsed committing.pace.tick checked.guardStart < 3600
    ∧ (atTick 3600 committing).inWrite (Write.kind 7 (trialOf 6)) WriteTo.updateCard []
    ∧ (atTick 3600 committing).update.wipe ≠ UpdateWipe.held
    ∧ (atTick 3600 committing).update.work = working commitCard (UpdateStage.commit (trialOf 6)) true
    ∧ (atTick 3600 committing).update.session = Session.checked checked
    ∧ (atTick 3600 committing).endsDone (Write.kind 7 (trialOf 6)) false false = false
    ∧ 3600 ≤ elapsed (atTick 3600 committing).pace.tick checked.guardStart
    ∧ confirmingW.inWrite (Write.kind 7 confirmedRec) WriteTo.updateCard []
    ∧ confirmingW.update.wipe ≠ UpdateWipe.held
    ∧ Write.kind 7 confirmedRec = Write.kind 7 confirmedRec
    ∧ confirmingW.update.work = working confirmCard (UpdateStage.confirm confirmedRec 6 SignerClass.owner false) true
    ∧ confirmingW.endsDone (Write.kind 7 confirmedRec) true false = true
    ∧ confirmingW.quiet Client.updateAsk
    ∧ confirmingW.outboxes.updateWipe = []
    ∧ confirmingW.measure.starting = false
    ∧ confirmingW.endsDone (Write.kind 7 confirmedRec) false false = false
    ∧ reverting.inWrite (Write.kind 7 removed) WriteTo.updateCard []
    ∧ reverting.update.wipe ≠ UpdateWipe.held
    ∧ Write.kind 7 removed = Write.kind 7 removed
    ∧ reverting.update.work = working revertCard (UpdateStage.revert removed) true
    ∧ reverting.endsDone (Write.kind 7 removed) true false = true
    ∧ reverting.endsDone (Write.kind 7 removed) false false = false
    ∧ (markW UpdateStage.installMark (delegateCard 3)).inWrite (Write.mark 1 9#32) WriteTo.updateCard []
    ∧ (markW UpdateStage.installMark (delegateCard 3)).update.wipe ≠ UpdateWipe.held
    ∧ Write.mark 1 9#32 = Write.mark 1 9#32
    ∧ (markW UpdateStage.installMark (delegateCard 3)).update.work = working (delegateCard 3) UpdateStage.installMark true
    ∧ (markW UpdateStage.installMark (delegateCard 3)).endsDone (Write.mark 1 9#32) true false = true
    ∧ (markW UpdateStage.installMark (delegateCard 3)).endsDone (Write.mark 1 9#32) false false = false
    ∧ (markW UpdateStage.removeMark (removeCard 3)).inWrite (Write.mark 1 9#32) WriteTo.updateCard []
    ∧ (markW UpdateStage.removeMark (removeCard 3)).update.wipe ≠ UpdateWipe.held
    ∧ (markW UpdateStage.removeMark (removeCard 3)).update.work = working (removeCard 3) UpdateStage.removeMark true
    ∧ (markW UpdateStage.removeMark (removeCard 3)).endsDone (Write.mark 1 9#32) true false = true
    ∧ (markW UpdateStage.removeMark (removeCard 3)).endsDone (Write.mark 1 9#32) false false = false
    ∧ installing.inWrite (Write.slot 2 (some delegate)) WriteTo.custodyRequest []
    ∧ (∀ (j : Fin 32) (v : Option CredRecord), Write.slot 2 (some delegate) ≠ Write.cred j v)
    ∧ installing.update.wipe ≠ UpdateWipe.held
    ∧ installing.custody.service = some (CustodyService.install 2 delegate Installer.update)
    ∧ installing.update.work = working (delegateCard 2) UpdateStage.installSlot true
    ∧ installing.endsDone (Write.slot 2 (some delegate)) true false = true
    ∧ installing.storeRoom Client.update
    ∧ installing.endsDone (Write.slot 2 (some delegate)) false false = false
    ∧ installingO.inWrite (Write.slot 5 (some delegate)) WriteTo.custodyRequest []
    ∧ (∀ (j : Fin 32) (v : Option CredRecord), Write.slot 5 (some delegate) ≠ Write.cred j v)
    ∧ installingO.update.wipe ≠ UpdateWipe.held
    ∧ installingO.custody.service = some (CustodyService.install 5 delegate Installer.update)
    ∧ installingO.update.work = working ownerCard UpdateStage.ownerInstall true
    ∧ installingO.endsDone (Write.slot 5 (some delegate)) true false = true
    ∧ installingO.quiet Client.updateAsk
    ∧ installingO.outboxes.updateWipe = []
    ∧ installingO.measure.starting = false
    ∧ installingO.endsDone (Write.slot 5 (some delegate)) false false = false
    ∧ (removing (removeCard 3) 3 3 UpdateStage.removeSlot).inWrite (Write.slot 3 none) WriteTo.custodyRequest []
    ∧ (∀ (j : Fin 32) (v : Option CredRecord), Write.slot 3 none ≠ Write.cred j v)
    ∧ (removing (removeCard 3) 3 3 UpdateStage.removeSlot).update.wipe ≠ UpdateWipe.held
    ∧ (removing (removeCard 3) 3 3 UpdateStage.removeSlot).custody.service = some (CustodyService.remove 3)
    ∧ (removing (removeCard 3) 3 3 UpdateStage.removeSlot).update.work = working (removeCard 3) UpdateStage.removeSlot true
    ∧ (removing (removeCard 3) 3 3 UpdateStage.removeSlot).endsDone (Write.slot 3 none) true false = true
    ∧ (removing removeOwner 5 5 UpdateStage.ownerRemove).inWrite (Write.slot 5 none) WriteTo.custodyRequest []
    ∧ (∀ (j : Fin 32) (v : Option CredRecord), Write.slot 5 none ≠ Write.cred j v)
    ∧ (removing removeOwner 5 5 UpdateStage.ownerRemove).update.wipe ≠ UpdateWipe.held
    ∧ (removing removeOwner 5 5 UpdateStage.ownerRemove).custody.service = some (CustodyService.remove 5)
    ∧ (removing removeOwner 5 5 UpdateStage.ownerRemove).update.work = working removeOwner UpdateStage.ownerRemove true
    ∧ (removing removeOwner 5 5 UpdateStage.ownerRemove).endsDone (Write.slot 5 none) false false = false
    ∧ settling.eventWaits Client.updateAsk PartEvent.ownerAnchorInstalled [Out.act (After.updateSettle CardOutcome.done none [])]
    ∧ settling.outboxes.updateWipe = []
    ∧ settling.update.wipe ≠ UpdateWipe.held
    ∧ settling.carries
    ∧ settling.update.work = working ownerCard UpdateStage.sendingEvent true := by
  unfold State.eventWaits State.inWrite State.quiet State.storeRoom State.carries
  repeat' apply And.intro
  all_goals first
    | decide +kernel
    | (intro _ _ h; cases h)
    | (intro _ h; cases h)

/-- A feed in work when the link is lost ends its session, though the link has returned before its piece ends and the read is answered
(R91, R186). -/
theorem test_feed_ends_with_the_link :
    ((feeding (session 10 0) 10).linkLoss.linkReturn.hashPieceEnd [] true).update.session = .idle
      ∧ ((feeding (session 11 0) 10).hashPieceEnd [] true).update.session ≠ .idle := by decide +kernel

end Updates

/-! ## The credential unit -/

namespace Credentials

def verifyCard : Card := card 0x0402#16 [] [32#8, 2#8, 1#8, 2#8] []

def withCred (i : Fin 32) (e : CredEntry) (s : State) : State := s.setCred i (some e)

def atTick (n : Nat) (s : State) : State := { s with pace := { s.pace with tick := BitVec.ofNat 32 n } }

def adminAt (debt : Nat) : CredEntry := entry { ownerRecord .admin none with debt := debt }

def verifyState (debt tick : Nat) : State := atTick tick (withCred 31 (adminAt debt) (owned (queued .credential verifyCard up)))

def hashRuns (r : HashRun) (s : State) : State := { s with hash := { s.hash with running := some r } }

def credWork (c : Card) (stage : CredStage) (committed : Bool) (s : State) : State :=
  let s := begun .credential c s
  { s with credential := { s.credential with work := working c stage committed } }

def attempted : CredEntry := { adminAt 1024 with attempt := true }

def comparing : State :=
  hashRuns { client := .credential, job := verifierJob 1#128 [1#8, 2#8], withdrawn := false }
    (credWork verifyCard (.compare 31 1024 2#32 none) true (withCred 31 attempted (owned up)))

def known : CredEntry := { attempted with record := { attempted.record with verifier := 0#256 } }

def comparing0 : State :=
  hashRuns { client := .credential, job := verifierJob 1#128 [1#8, 2#8], withdrawn := false }
    (credWork verifyCard (.compare 31 1024 2#32 none) true (withCred 31 known (owned up)))

def storing (v : WriteRequest) (s : State) : State := { s with store := { s.store with queue := [v] } }

def written : CredEntry := { attempted with writes := 1 }

def ending (r : CredRecord) (hit : Bool) : State :=
  storing { write := .cred 31 (some r), answerTo := .credCard }
    (credWork verifyCard (.attemptWrite 31 r hit none) true (withCred 31 written (owned up)))

def attention (b : BitVec 9) (s : State) : State := { s with exch := { s.exch with attention := b } }

def due (d r : Bool) (s : State) : State := { s with pace := { s.pace with decayDue := d, refreshDue := r } }

def decaying : State := due true false
    (withCred 3 { adminAt 500 with attempt := true } (withCred 31 (adminAt 1024) (withCred 0 (adminAt 0) up)))

def lowered : CredEntry := { adminAt 1024 with working := 1000 }

def enrolCard (kind pairing : Nat) : Card := card 0x0401#16 [byteOf kind, 0#8, 1#8, 0#8, 0x80#8, 0#8, 0x10#8, 0#8]
    ([2#8, byteOf pairing, 1#8] ++ [1#8, 2#8] ++ List.replicate pairing 9#8 ++ [0x61#8]) []

def pairingEntry : CredEntry := entry { ownerRecord .pairing none with cls := .factory, debt := 0 }

def idCard (code : Word16) (n : Nat) : Card := card code [] [32#8, byteOf n, 0#8, 1#8] []

def releasable : CredEntry := entry (ownerRecord .releasable (some (sealSecret 0#96 [1#8, 2#8])))

def boundEntry : CredEntry := { releasable with record := { releasable.record with binding := some (.exactly 1#12 0#256) } }

def credState (code : Word16) (n : Nat) (e : CredEntry) : State := withCred 31 e (owned (queued .credential (idCard code n) up))

def factoryEntry : CredEntry := entry { ownerRecord .pairing none with cls := .factory, debt := 0 }

def emptyCred : State := owned (queued .credential (idCard 0x0406#16 0) up)

def wideEntry : CredEntry := { entry { ownerRecord .releasable none with
  label := [0x61#8, 0x62#8], binding := some (.exactly 1#12 0#256), saturated := true, failures := 0x102,
      lastTick := 3#32 } with working := 0x1234 }

def failedNow (s : State) : State := { s with census := { s.census with state := .failed } }

def credHeld (l : List CredRequest) (s : State) : State := { s with credential := { s.credential with held := l } }

def pol : Policy := { charge := 0, decay := 0, lock := 0 }

def storingW (w : Write) (a : WriteTo) (s : State) : State :=
    { s with store := { s.store with queue := [{ write := w, answerTo := a }] } }

def busy (e : CredEntry) : CredEntry := { e with writes := 1 }

def rec31 : CredRecord := ownerRecord .admin none

def enrolW : State := storingW (.cred 4 (some rec31)) .credCard (credWork (enrolCard 1 0) (.enrolWrite 4 rec31) true (owned up))

def replaceW (att : Bool) : State := storingW (.cred 31 (some rec31)) .credReplace
    (credWork (idCard 0x0404#16 1) (.replaceWrite 31 rec31 att) true
    (withCred 31 { adminAt 5 with writes := 1, attempt := att } (owned up)))

def removeW : State := storingW (.cred 31 none) .credCard
    (credWork (idCard 0x0405#16 0) (.removeWrite 31) true (withCred 31 (busy (adminAt 5)) (owned up)))

def claimW : State := storingW (.cred 0 (some rec31)) .credCard (credWork (enrolCard 1 3) (.claimWrite 0 rec31 7) true (unclaimed up))

def undoW : State := storingW (.cred 0 none) .credCard (credWork (enrolCard 1 3) (.claimUndo 0) true (unclaimed up))

def pairCard : Card := card 0x0504#16 [] [2#8, 1#8, 2#8] []

def pairRec : CredRecord := { ownerRecord .pairing none with cls := .factory, debt := 0 }

def pairW : State :=
  let s := storingW (.cred 0 (some pairRec)) .credRequest (begun .lifecycle pairCard up)
  { s with
    credential := { s.credential with service := some (.pairingWrite 0 pairRec) }
    lifecycle := { s.lifecycle with work := working pairCard .pairing true } }

def claimWork (claiming : Bool) : State :=
  let s := credWork (enrolCard 1 3) (.awaitClaim 0 (ownerRecord .admin none) 0) true (unclaimed up)
  { s with lifecycle := { s.lifecycle with claiming := claiming } }

def claimEnding : State :=
  storing { write := .cred 31 (some (ownerRecord .admin none)), answerTo := .credCard }
    (credWork (enrolCard 1 3) (.attemptWrite 31 (ownerRecord .admin none) true (some 7#128)) true
        (withCred 31 written (unclaimed up)))

def sameSecret : CredEntry :=
    { attempted with
  record := { attempted.record with verifier := Config.hmacSha256 Config.credentialKey (strBytes (1#128 : Salt) ++ [1#8, 2#8]) } }

def replacing : State :=
  hashRuns { client := .credential, job := verifierJob 1#128 [1#8, 2#8], withdrawn := false }
    (credWork (idCard 0x0404#16 1) (.compare 31 1024 2#32 none) true (withCred 31 sameSecret (owned up)))

def verifierComes (c : Card) (stage : CredStage) (committed : Bool) (secret : List Byte) : State :=
  hashRuns { client := .credential, job := verifierJob 1#128 secret, withdrawn := false }
    (credWork c stage committed (withCred 0 (adminAt 5) (owned up)))

def oweLess : CredEntry := { adminAt 1024 with working := 1000 }

def replaceComes (att : Option (Nat × Word32)) : State :=
  withCred 31 oweLess (verifierComes (idCard 0x0404#16 1) (.replaceHash 31 1#128 none att) att.isSome [1#8, 2#8])

def pairingComes (factory : Option CredEntry) : State :=
  let s := (hashRuns { client := .credential, job := verifierJob 1#128 [1#8, 2#8], withdrawn := false }
      (withCred 0 (adminAt 5) up)).setCred 31 factory
  { s with credential := { s.credential with service := some (.pairingHash 1#128 [3#8] pol) } }

/-- What `Obligations.AttemptsArePaced` supposes is met, clause by clause. -/
theorem witness_attemptsArePaced :
    (verifyState 40000 1000).credReady 1026#16 = some verifyCard
    ∧ credVerifyForm verifyCard = none
    ∧ (verifyState 40000 1000).lifecycle.pending = false
    ∧ (verifyState 40000 1000).cred verifyCard.place = some (adminAt 40000)
    ∧ (adminAt 40000).attempt = false
    ∧ (adminAt 40000).writes = 0
    ∧ (adminAt 40000).record.policy.lock ≤ (adminAt 40000).working
    ∧ (verifyState 40000 1000).carries
    ∧ (verifyState 1024 1).credReady 1026#16 = some verifyCard
    ∧ (verifyState 1024 1).lifecycle.pending = false
    ∧ (verifyState 1024 1).cred verifyCard.place = some (adminAt 1024)
    ∧ (adminAt 1024).attempt = false
    ∧ (adminAt 1024).writes = 0
    ∧ (adminAt 1024).working < (adminAt 1024).record.policy.lock
    ∧ BitVec.toNat ((verifyState 1024 1).pace.tick - (adminAt 1024).record.lastTick) < (adminAt 1024).working / 512
    ∧ (verifyState 1024 1).carries
    ∧ (verifyState 1024 2).credReady 1026#16 = some verifyCard
    ∧ (verifyState 1024 2).lifecycle.pending = false
    ∧ (verifyState 1024 2).cred verifyCard.place = some (adminAt 1024)
    ∧ (adminAt 1024).working / 512 ≤ BitVec.toNat ((verifyState 1024 2).pace.tick - (adminAt 1024).record.lastTick)
    ∧ (verifyState 511 0).credReady 1026#16 = some verifyCard
    ∧ (verifyState 511 0).lifecycle.pending = false
    ∧ (verifyState 511 0).cred verifyCard.place = some (adminAt 511)
    ∧ (adminAt 511).attempt = false
    ∧ (adminAt 511).writes = 0
    ∧ (adminAt 511).working < (adminAt 511).record.policy.lock
    ∧ (adminAt 511).working / 512 ≤ BitVec.toNat ((verifyState 511 0).pace.tick - (adminAt 511).record.lastTick) := by
  unfold State.carries
  repeat' apply And.intro
  all_goals decide +kernel

/-- What `Obligations.AttemptsAreWrittenAndEnd` supposes is met, clause by clause. -/
theorem witness_attemptsAreWrittenAndEnd :
    comparing.powered = true
    ∧ comparing.startUp = StartUp.ended
    ∧ [1#8, 2#8].length ≤ 64
    ∧ comparing.credential.service = none
    ∧ comparing.hash.running
        = some { client := HashClient.credential, job := verifierJob attempted.record.salt [1#8, 2#8], withdrawn := false }
    ∧ comparing.credential.work = working verifyCard (CredStage.compare 31 1024 (2#32) none) true
    ∧ comparing.cred 31 = some attempted
    ∧ verifyCard.code ≠ 1028#16
    ∧ comparing.storeRoom Client.credential
    ∧ comparing.outboxes.refresh = []
    ∧ comparing0.powered = true
    ∧ comparing0.startUp = StartUp.ended
    ∧ comparing0.credential.service = none
    ∧ comparing0.hash.running
        = some { client := HashClient.credential, job := verifierJob known.record.salt [1#8, 2#8], withdrawn := false }
    ∧ comparing0.credential.work = working verifyCard (CredStage.compare 31 1024 (2#32) none) true
    ∧ comparing0.cred 31 = some known
    ∧ comparing0.storeRoom Client.credential
    ∧ comparing0.outboxes.refresh = []
    ∧ (ending (ownerRecord CredKind.admin none) false).powered = true
    ∧ (ending (ownerRecord CredKind.admin none) false).store.waiting = []
    ∧ (ending (ownerRecord CredKind.admin none) false).store.queue
        = [{ write := Write.cred 31 (some (ownerRecord CredKind.admin none)), answerTo := WriteTo.credCard }]
    ∧ (ending (ownerRecord CredKind.admin none) false).credential.work
        = working verifyCard (CredStage.attemptWrite 31 (ownerRecord CredKind.admin none) false none) true
    ∧ (ending (ownerRecord CredKind.admin none) false).cred 31 = some written
    ∧ (ending (ownerRecord CredKind.admin none) false).carries
    ∧ ((tableGet (ending (ownerRecord CredKind.admin none) false).store.creds 31).program (some (ownerRecord CredKind.admin none))
        (ending (ownerRecord CredKind.admin none) false).store.map true false).2.2 = true
    ∧ false = false
    ∧ (ending (ownerRecord CredKind.releasable none) true).powered = true
    ∧ (ending (ownerRecord CredKind.releasable none) true).store.waiting = []
    ∧ (ending (ownerRecord CredKind.releasable none) true).store.queue
        = [{ write := Write.cred 31 (some (ownerRecord CredKind.releasable none)), answerTo := WriteTo.credCard }]
    ∧ (ending (ownerRecord CredKind.releasable none) true).credential.work
        = working verifyCard (CredStage.attemptWrite 31 (ownerRecord CredKind.releasable none) true none) true
    ∧ (ending (ownerRecord CredKind.releasable none) true).cred 31 = some written
    ∧ (ending (ownerRecord CredKind.releasable none) true).carries
    ∧ ((tableGet (ending (ownerRecord CredKind.releasable none) true).store.creds 31).program
        (some (ownerRecord CredKind.releasable none)) (ending (ownerRecord CredKind.releasable none) true).store.map true false).2.2
        = true
    ∧ (ownerRecord CredKind.releasable none).kind ≠ CredKind.admin
    ∧ (ending (ownerRecord CredKind.admin none) true).powered = true
    ∧ (ending (ownerRecord CredKind.admin none) true).store.waiting = []
    ∧ (ending (ownerRecord CredKind.admin none) true).store.queue
        = [{ write := Write.cred 31 (some (ownerRecord CredKind.admin none)), answerTo := WriteTo.credCard }]
    ∧ (ending (ownerRecord CredKind.admin none) true).credential.work
        = working verifyCard (CredStage.attemptWrite 31 (ownerRecord CredKind.admin none) true none) true
    ∧ (ending (ownerRecord CredKind.admin none) true).cred 31 = some written
    ∧ (ending (ownerRecord CredKind.admin none) true).carries
    ∧ ((tableGet (ending (ownerRecord CredKind.admin none) true).store.creds 31).program (some (ownerRecord CredKind.admin none))
        (ending (ownerRecord CredKind.admin none) true).store.map true false).2.2 = true
    ∧ (ownerRecord CredKind.admin none).kind = CredKind.admin
    ∧ (attention (1#9) (ending (ownerRecord CredKind.admin none) true)).powered = true
    ∧ (attention (1#9) (ending (ownerRecord CredKind.admin none) true)).store.waiting = []
    ∧ (attention (1#9) (ending (ownerRecord CredKind.admin none) true)).store.queue
        = [{ write := Write.cred 31 (some (ownerRecord CredKind.admin none)), answerTo := WriteTo.credCard }]
    ∧ (attention (1#9) (ending (ownerRecord CredKind.admin none) true)).credential.work
        = working verifyCard (CredStage.attemptWrite 31 (ownerRecord CredKind.admin none) true none) true
    ∧ (attention (1#9) (ending (ownerRecord CredKind.admin none) true)).cred 31 = some written
    ∧ (attention (1#9) (ending (ownerRecord CredKind.admin none) true)).carries
    ∧ ((tableGet (attention (1#9) (ending (ownerRecord CredKind.admin none) true)).store.creds 31).program
        (some (ownerRecord CredKind.admin none)) (attention (1#9) (ending (ownerRecord CredKind.admin none) true)).store.map false
        false).2.2 = false
    ∧ (attention (1#9) (ending (ownerRecord CredKind.admin none) true)).startUp = StartUp.ended
    ∧ (attention (1#9) (ending (ownerRecord CredKind.admin none) true)).resetLine = false
    ∧ (attention (1#9) (ending (ownerRecord CredKind.admin none) true)).exch.attention ≠ 0#9
    ∧ claimEnding.powered = true
    ∧ claimEnding.store.waiting = []
    ∧ claimEnding.store.queue = [{ write := Write.cred 31 (some (ownerRecord CredKind.admin none)), answerTo := WriteTo.credCard }]
    ∧ claimEnding.credential.work
        = working (enrolCard 1 3) (CredStage.attemptWrite 31 (ownerRecord CredKind.admin none) true (some 7#128)) true
    ∧ claimEnding.cred 31 = some written
    ∧ claimEnding.carries
    ∧ ((tableGet claimEnding.store.creds 31).program (some (ownerRecord CredKind.admin none)) claimEnding.store.map true false).2.2
        = true
    ∧ some 7#128 = some 7#128
    ∧ replacing.powered = true
    ∧ replacing.startUp = StartUp.ended
    ∧ replacing.credential.service = none
    ∧ replacing.hash.running
        = some { client := HashClient.credential, job := verifierJob sameSecret.record.salt [1#8, 2#8], withdrawn := false }
    ∧ replacing.credential.work = working (idCard (1028#16) 1) (CredStage.compare 31 1024 (2#32) none) true
    ∧ replacing.cred 31 = some sameSecret
    ∧ (idCard (1028#16) 1).code = 1028#16
    ∧ decide (Config.hmacSha256 Config.credentialKey (strBytes sameSecret.record.salt ++ [1#8, 2#8]) = sameSecret.record.verifier)
        = true
    ∧ 31 = (idCard (1028#16) 1).place
    ∧ (16 = if sameSecret.record.kind = CredKind.releasable then 28 else 16) := by
  unfold State.storeRoom State.carries
  repeat' apply And.intro
  all_goals first
    | decide +kernel
    | rfl
    | exact decide_eq_true rfl

/-- What `Obligations.DebtsDecay` supposes is met, clause by clause. -/
theorem witness_debtsDecay :
    decaying.powered = true
    ∧ decaying.pace.decayDue = true
    ∧ (due false true (withCred 31 lowered (withCred 0 (adminAt 5) up))).powered = true
    ∧ (due false true (withCred 31 lowered (withCred 0 (adminAt 5) up))).pace.refreshDue = true
    ∧ (due false true (withCred 31 lowered (withCred 0 (adminAt 5) up))).pace.decayDue = false
    ∧ (due false true (withCred 31 lowered (withCred 0 (adminAt 5) up))).cred 31 = some lowered
    ∧ lowered.attempt = false
    ∧ lowered.writes = 0
    ∧ lowered.working < lowered.record.debt
    ∧ (∀ (j : Fin 32) (x : CredEntry), j ≠ 31 → (due false true (withCred 31 lowered (withCred 0 (adminAt 5) up))).cred j = some x
        → x.record.debt ≤ x.working)
    ∧ (due false true (withCred 31 lowered (withCred 0 (adminAt 5) up))).storeRoom Client.refresh := by
  unfold State.storeRoom
  repeat' apply And.intro
  all_goals first
    | decide +kernel
    | exact fun j x hj hx =>
        (by decide +kernel : ∀ j : Fin 32, j ≠ 31 → ∀ x, (due false true (withCred 31 lowered (withCred 0 (adminAt 5) up))).cred j
        = some x → x.record.debt ≤ x.working) j hj x hx

/-- What `Obligations.EnrolmentsAndClaimsBegin` supposes is met, clause by clause. -/
theorem witness_enrolmentsAndClaimsBegin :
    (owned (queued UnitName.credential (enrolCard 1 0) up)).credReady 1025#16 = some (enrolCard 1 0)
    ∧ credEnrollForm (enrolCard 1 0) = none
    ∧ (owned (queued UnitName.credential (enrolCard 1 0) up)).lifecycle.pending = false
    ∧ (owned (queued UnitName.credential (enrolCard 1 0) up)).census.state = CensusState.healthy
    ∧ (owned (queued UnitName.credential (enrolCard 1 0) up)).cred 0 = none
    ∧ (owned (queued UnitName.credential (enrolCard 1 0) up)).lifecycle.effective = LifecycleState.claimed
    ∧ (enrolCard 1 0).field 1 1 = 0
    ∧ (owned (queued UnitName.credential (enrolCard 1 0) up)).lifecycle.presence.isSome = true
    ∧ (16 = if (credEnrollFields (enrolCard 1 0)).kind = CredKind.admin then 16 else 28)
    ∧ (owned (queued UnitName.credential (enrolCard 2 0) up)).credReady 1025#16 = some (enrolCard 2 0)
    ∧ credEnrollForm (enrolCard 2 0) = none
    ∧ (owned (queued UnitName.credential (enrolCard 2 0) up)).lifecycle.pending = false
    ∧ (owned (queued UnitName.credential (enrolCard 2 0) up)).census.state = CensusState.healthy
    ∧ (owned (queued UnitName.credential (enrolCard 2 0) up)).cred 0 = none
    ∧ (owned (queued UnitName.credential (enrolCard 2 0) up)).lifecycle.effective = LifecycleState.claimed
    ∧ (enrolCard 2 0).field 1 1 = 0
    ∧ (owned (queued UnitName.credential (enrolCard 2 0) up)).lifecycle.presence.isSome = true
    ∧ (28 = if (credEnrollFields (enrolCard 2 0)).kind = CredKind.admin then 16 else 28)
    ∧ (withCred 31 pairingEntry (unclaimed (queued UnitName.credential (enrolCard 1 3) up))).credReady 1025#16 = some (enrolCard 1 3)
    ∧ credEnrollForm (enrolCard 1 3) = none
    ∧ (withCred 31 pairingEntry (unclaimed (queued UnitName.credential (enrolCard 1 3) up))).lifecycle.pending = false
    ∧ (withCred 31 pairingEntry (unclaimed (queued UnitName.credential (enrolCard 1 3) up))).census.state = CensusState.healthy
    ∧ (withCred 31 pairingEntry (unclaimed (queued UnitName.credential (enrolCard 1 3) up))).cred 0 = none
    ∧ (withCred 31 pairingEntry (unclaimed (queued UnitName.credential (enrolCard 1 3) up))).lifecycle.effective
        = LifecycleState.unclaimed
    ∧ (enrolCard 1 3).field 1 1 ≠ 0
    ∧ (credEnrollFields (enrolCard 1 3)).kind = CredKind.admin
    ∧ (withCred 31 pairingEntry (unclaimed (queued UnitName.credential (enrolCard 1 3) up))).cred 31 = some pairingEntry
    ∧ pairingEntry.record.cls = CredClass.factory
    ∧ (∀ (j : Fin 32) (x : CredEntry), (withCred 31 pairingEntry (unclaimed (queued UnitName.credential (enrolCard 1 3) up))).cred j
        = some x → x.record.cls = CredClass.factory → j = 31)
    ∧ pairingEntry.attempt = false
    ∧ pairingEntry.writes = 0
    ∧ pairingEntry.working < pairingEntry.record.policy.lock
    ∧ pairingEntry.working / 512 ≤ BitVec.toNat
        ((withCred 31 pairingEntry (unclaimed (queued UnitName.credential (enrolCard 1 3) up))).pace.tick -
        pairingEntry.record.lastTick)
    ∧ (verifierComes (enrolCard 2 0) (CredStage.enrolHash (1#128) (some (sealSecret 0#96 [1#8]))) false [1#8, 2#8]).powered = true
    ∧ (verifierComes (enrolCard 2 0) (CredStage.enrolHash (1#128) (some (sealSecret 0#96 [1#8]))) false [1#8, 2#8]).startUp
        = StartUp.ended
    ∧ (credEnrollFields (enrolCard 2 0)).secret.length ≤ 64
    ∧ (verifierComes (enrolCard 2 0) (CredStage.enrolHash (1#128) (some (sealSecret 0#96 [1#8]))) false [1#8, 2#8]).hash.running
        = some { client := HashClient.credential, job := verifierJob (1#128) (credEnrollFields (enrolCard 2 0)).secret,
                 withdrawn := false }
    ∧ (verifierComes (enrolCard 2 0) (CredStage.enrolHash (1#128) (some (sealSecret 0#96 [1#8]))) false
        [1#8, 2#8]).credential.service = none
    ∧ (verifierComes (enrolCard 2 0) (CredStage.enrolHash (1#128) (some (sealSecret 0#96 [1#8]))) false [1#8, 2#8]).cred 1 = none
    ∧ (∀ j < 1, (verifierComes (enrolCard 2 0) (CredStage.enrolHash (1#128) (some (sealSecret 0#96 [1#8]))) false [1#8, 2#8]).cred j
        ≠ none)
    ∧ (verifierComes (enrolCard 2 0) (CredStage.enrolHash (1#128) (some (sealSecret 0#96 [1#8]))) false [1#8, 2#8]).storeRoom
        Client.credential
    ∧ (verifierComes (enrolCard 2 0) (CredStage.enrolHash (1#128) (some (sealSecret 0#96 [1#8]))) false [1#8, 2#8]).outboxes.refresh
        = []
    ∧ (verifierComes (enrolCard 2 0) (CredStage.enrolHash (1#128) (some (sealSecret 0#96 [1#8]))) false [1#8, 2#8]).credential.work
        = working (enrolCard 2 0) (CredStage.enrolHash (1#128) (some (sealSecret 0#96 [1#8]))) false
    ∧ (verifierComes (enrolCard 1 3) (CredStage.claimHash (1#128) 5) true [1#8, 2#8]).powered = true
    ∧ (verifierComes (enrolCard 1 3) (CredStage.claimHash (1#128) 5) true [1#8, 2#8]).startUp = StartUp.ended
    ∧ (credEnrollFields (enrolCard 1 3)).secret.length ≤ 64
    ∧ (verifierComes (enrolCard 1 3) (CredStage.claimHash (1#128) 5) true [1#8, 2#8]).hash.running
        = some { client := HashClient.credential, job := verifierJob (1#128) (credEnrollFields (enrolCard 1 3)).secret,
                 withdrawn := false }
    ∧ (verifierComes (enrolCard 1 3) (CredStage.claimHash (1#128) 5) true [1#8, 2#8]).credential.service = none
    ∧ (verifierComes (enrolCard 1 3) (CredStage.claimHash (1#128) 5) true [1#8, 2#8]).cred 1 = none
    ∧ (∀ j < 1, (verifierComes (enrolCard 1 3) (CredStage.claimHash (1#128) 5) true [1#8, 2#8]).cred j ≠ none)
    ∧ (verifierComes (enrolCard 1 3) (CredStage.claimHash (1#128) 5) true [1#8, 2#8]).storeRoom Client.credential
    ∧ (verifierComes (enrolCard 1 3) (CredStage.claimHash (1#128) 5) true [1#8, 2#8]).outboxes.refresh = []
    ∧ (verifierComes (enrolCard 1 3) (CredStage.claimHash (1#128) 5) true [1#8, 2#8]).credential.work
        = working (enrolCard 1 3) (CredStage.claimHash (1#128) 5) true := by
  unfold State.storeRoom
  repeat' apply And.intro
  all_goals first
    | decide +kernel
    | rfl

/-- What `Obligations.CredentialCardsBegin` supposes is met, clause by clause. -/
theorem witness_credentialCardsBegin :
    (credState (1027#16) 0 releasable).cred (idCard (1027#16) 0).place = some releasable
    ∧ (credState (1027#16) 0 releasable).lifecycle.pending = false
    ∧ releasable.record.cls = CredClass.owner
    ∧ (credState (1027#16) 0 releasable).credReady 1027#16 = some (idCard (1027#16) 0)
    ∧ credIdForm (idCard (1027#16) 0) = none
    ∧ releasable.record.kind = CredKind.releasable
    ∧ releasable.record.binding = none
    ∧ (credState (1027#16) 0 releasable).lifecycle.presence.isSome = true
    ∧ (credState (1027#16) 0 releasable).carries
    ∧ (credState (1027#16) 0 boundEntry).cred (idCard (1027#16) 0).place = some boundEntry
    ∧ (credState (1027#16) 0 boundEntry).lifecycle.pending = false
    ∧ boundEntry.record.cls = CredClass.owner
    ∧ (credState (1027#16) 0 boundEntry).credReady 1027#16 = some (idCard (1027#16) 0)
    ∧ boundEntry.record.kind = CredKind.releasable
    ∧ boundEntry.record.binding = some (Binding.exactly 1#12 0#256)
    ∧ (credState (1027#16) 0 boundEntry).measureRoom Client.credentialAsk
    ∧ (credState (1028#16) 1 releasable).cred (idCard (1028#16) 1).place = some releasable
    ∧ (credState (1028#16) 1 releasable).lifecycle.pending = false
    ∧ (credState (1028#16) 1 releasable).credReady 1028#16 = some (idCard (1028#16) 1)
    ∧ credReplaceForm (idCard (1028#16) 1) = none
    ∧ (credState (1028#16) 1 releasable).census.state = CensusState.healthy
    ∧ (idCard (1028#16) 1).field 2 1 = 0
    ∧ (credState (1028#16) 1 releasable).lifecycle.presence.isSome = true
    ∧ (28 = if releasable.record.kind = CredKind.releasable then 28 else 16)
    ∧ (credState (1028#16) 1 (adminAt 5)).cred (idCard (1028#16) 1).place = some (adminAt 5)
    ∧ (credState (1028#16) 1 (adminAt 5)).lifecycle.pending = false
    ∧ (adminAt 5).record.cls = CredClass.owner
    ∧ (credState (1028#16) 1 (adminAt 5)).credReady 1028#16 = some (idCard (1028#16) 1)
    ∧ (credState (1028#16) 1 (adminAt 5)).census.state = CensusState.healthy
    ∧ (credState (1028#16) 1 (adminAt 5)).lifecycle.presence.isSome = true
    ∧ (16 = if (adminAt 5).record.kind = CredKind.releasable then 28 else 16)
    ∧ (credState (1029#16) 0 (adminAt 5)).cred (idCard (1029#16) 0).place = some (adminAt 5)
    ∧ (credState (1029#16) 0 (adminAt 5)).lifecycle.pending = false
    ∧ (credState (1029#16) 0 (adminAt 5)).credReady 1029#16 = some (idCard (1029#16) 0)
    ∧ credIdForm (idCard (1029#16) 0) = none
    ∧ (credState (1029#16) 0 (adminAt 5)).lifecycle.presence.isSome = true
    ∧ (credState (1029#16) 0 (adminAt 5)).storeRoom Client.credential
    ∧ (credState (1029#16) 0 (adminAt 5)).outboxes.refresh = []
    ∧ (adminAt 5).record.kind ≠ CredKind.releasable
    ∧ (credState (1027#16) 0 (adminAt 5)).cred (idCard (1027#16) 0).place = some (adminAt 5)
    ∧ (credState (1027#16) 0 (adminAt 5)).lifecycle.pending = false
    ∧ (credState (1027#16) 0 (adminAt 5)).credReady 1027#16 = some (idCard (1027#16) 0)
    ∧ (credState (1027#16) 0 (adminAt 5)).carries
    ∧ factoryEntry.record.cls = CredClass.factory
    ∧ (credState (1028#16) 1 factoryEntry).cred (idCard (1028#16) 1).place = some factoryEntry
    ∧ (credState (1028#16) 1 factoryEntry).lifecycle.pending = false
    ∧ (credState (1028#16) 1 factoryEntry).credReady 1028#16 = some (idCard (1028#16) 1)
    ∧ (credState (1028#16) 1 factoryEntry).carries
    ∧ (credState (1029#16) 0 factoryEntry).cred (idCard (1029#16) 0).place = some factoryEntry
    ∧ (credState (1029#16) 0 factoryEntry).lifecycle.pending = false
    ∧ (credState (1029#16) 0 factoryEntry).credReady 1029#16 = some (idCard (1029#16) 0)
    ∧ (credState (1029#16) 0 factoryEntry).carries
    ∧ (credState (1030#16) 0 (adminAt 5)).cred (idCard (1030#16) 0).place = some (adminAt 5)
    ∧ (credState (1030#16) 0 (adminAt 5)).credReady 1030#16 = some (idCard (1030#16) 0)
    ∧ credIdForm (idCard (1030#16) 0) = none
    ∧ (credState (1030#16) 0 (adminAt 5)).carries
    ∧ emptyCred.credReady 1030#16 = some (idCard (1030#16) 0)
    ∧ emptyCred.cred (idCard (1030#16) 0).place = none
    ∧ emptyCred.carries
    ∧ (atTick 5 (withCred 31 wideEntry up)).cred 31 = some wideEntry
    ∧ (atTick 500 (withCred 0 factoryEntry up)).cred 0 = some factoryEntry
    ∧ (withCred 0 (adminAt 5) up).cred 0 = some (adminAt 5)
    ∧ (replaceComes none).powered = true
    ∧ (replaceComes none).startUp = StartUp.ended
    ∧ [1#8, 2#8].length ≤ 64
    ∧ (replaceComes none).credential.service = none
    ∧ (replaceComes none).hash.running
        = some { client := HashClient.credential, job := verifierJob 1#128 [1#8, 2#8], withdrawn := false }
    ∧ (replaceComes none).cred 31 = some oweLess
    ∧ (replaceComes none).storeRoom Client.credential
    ∧ (replaceComes none).outboxes.refresh = []
    ∧ (replaceComes none).credential.work = working (idCard (1028#16) 1) (CredStage.replaceHash 31 (1#128) none none) false
    ∧ (replaceComes (some (250, 9#32))).powered = true
    ∧ (replaceComes (some (250, 9#32))).startUp = StartUp.ended
    ∧ (replaceComes (some (250, 9#32))).credential.service = none
    ∧ (replaceComes (some (250, 9#32))).hash.running
        = some { client := HashClient.credential, job := verifierJob 1#128 [1#8, 2#8], withdrawn := false }
    ∧ (replaceComes (some (250, 9#32))).cred 31 = some oweLess
    ∧ (replaceComes (some (250, 9#32))).storeRoom Client.credential
    ∧ (replaceComes (some (250, 9#32))).outboxes.refresh = []
    ∧ (replaceComes (some (250, 9#32))).credential.work
        = working (idCard (1028#16) 1) (CredStage.replaceHash 31 (1#128) none (some (250, 9#32))) true := by
  unfold State.measureRoom State.storeRoom State.carries
  repeat' apply And.intro
  all_goals first
    | decide +kernel
    | rfl

/-- What `Obligations.DecayIsHeldWhileFailed` supposes is met, clause by clause. -/
theorem witness_decayIsHeldWhileFailed :
    (failedNow decaying).powered = true
    ∧ (failedNow decaying).pace.decayDue = true
    ∧ (failedNow decaying).census.state = CensusState.failed
    ∧ up.powered = true
    ∧ up.pace.decayDue = false
    ∧ (failedNow (verifyState 40000 1000)).census.state = CensusState.failed
    ∧ (failedNow (verifyState 40000 1000)).credReady 1026#16 = some verifyCard
    ∧ credVerifyForm verifyCard = none
    ∧ (failedNow (verifyState 40000 1000)).lifecycle.pending = false
    ∧ (failedNow (verifyState 40000 1000)).cred verifyCard.place = some (adminAt 40000)
    ∧ (adminAt 40000).attempt = false
    ∧ (adminAt 40000).writes = 0
    ∧ (failedNow (verifyState 40000 1000)).carries
    ∧ (adminAt 40000).record.policy.lock ≤ (adminAt 40000).working
    ∧ (failedNow (verifyState 1024 1)).census.state = CensusState.failed
    ∧ (failedNow (verifyState 1024 1)).credReady 1026#16 = some verifyCard
    ∧ (failedNow (verifyState 1024 1)).lifecycle.pending = false
    ∧ (failedNow (verifyState 1024 1)).cred verifyCard.place = some (adminAt 1024)
    ∧ (adminAt 1024).attempt = false
    ∧ (adminAt 1024).writes = 0
    ∧ (failedNow (verifyState 1024 1)).carries
    ∧ (adminAt 1024).working < (adminAt 1024).record.policy.lock
    ∧ BitVec.toNat ((failedNow (verifyState 1024 1)).pace.tick - (adminAt 1024).record.lastTick) < (adminAt 1024).working / 512
    ∧ decaying.powered = true
    ∧ decaying.pace.decayDue = true
    ∧ decaying.census.state ≠ CensusState.failed
    ∧ decaying.cred 31 = some (adminAt 1024)
    ∧ 0 < (adminAt 1024).working
    ∧ (adminAt 1024).record.policy.decay ≤ 65535 := by
  unfold State.carries
  repeat' apply And.intro
  all_goals decide +kernel

/-- What `Obligations.CredentialUnitServesRequests` supposes is met, clause by clause. -/
theorem witness_credentialUnitServesRequests :
    (credHeld [CredRequest.pairing [1#8] [] pol, CredRequest.wipe] up).powered = true
    ∧ (credHeld [CredRequest.pairing [1#8] [] pol, CredRequest.wipe] up).credential.work = none
    ∧ (credHeld [CredRequest.pairing [1#8] [] pol, CredRequest.wipe] up).credential.service = none
    ∧ (credHeld [CredRequest.pairing [1#8] [] pol, CredRequest.wipe] up).credential.held
        = [CredRequest.pairing [1#8] [] pol, CredRequest.wipe]
    ∧ (credHeld [CredRequest.pairing [1#8] [] pol, CredRequest.wipe] up).census.state = CensusState.healthy
    ∧ (withCred 31 pairingEntry (credHeld [CredRequest.wipe] up)).powered = true
    ∧ (withCred 31 pairingEntry (credHeld [CredRequest.wipe] up)).credential.work = none
    ∧ (withCred 31 pairingEntry (credHeld [CredRequest.wipe] up)).credential.service = none
    ∧ (withCred 31 pairingEntry (credHeld [CredRequest.wipe] up)).credential.held = [CredRequest.wipe]
    ∧ (∀ (i : Fin 32) (e : CredEntry), (withCred 31 pairingEntry (credHeld [CredRequest.wipe] up)).cred i = some e → e.record.cls
        = CredClass.factory)
    ∧ (withCred 0 releasable (withCred 31 (adminAt 5) (credHeld [CredRequest.wipe] up))).powered = true
    ∧ (withCred 0 releasable (withCred 31 (adminAt 5) (credHeld [CredRequest.wipe] up))).credential.work = none
    ∧ (withCred 0 releasable (withCred 31 (adminAt 5) (credHeld [CredRequest.wipe] up))).credential.service = none
    ∧ (withCred 0 releasable (withCred 31 (adminAt 5) (credHeld [CredRequest.wipe] up))).credential.held = [CredRequest.wipe]
    ∧ (withCred 0 releasable (withCred 31 (adminAt 5) (credHeld [CredRequest.wipe] up))).wipedPlaces ≠ []
    ∧ (withCred 0 releasable (withCred 31 (adminAt 5) (credHeld [CredRequest.wipe] up))).quiet Client.credential
    ∧ (withCred 0 releasable (withCred 31 (adminAt 5) (credHeld [CredRequest.wipe] up))).store.queue.length +
        (withCred 0 releasable (withCred 31 (adminAt 5) (credHeld [CredRequest.wipe] up))).wipedPlaces.length ≤ storeCapacity
    ∧ (pairingComes (some pairingEntry)).powered = true
    ∧ (pairingComes (some pairingEntry)).startUp = StartUp.ended
    ∧ [1#8, 2#8].length ≤ 64
    ∧ (pairingComes (some pairingEntry)).credential.service = some (CredService.pairingHash 1#128 [3#8] pol)
    ∧ (pairingComes (some pairingEntry)).hash.running
        = some { client := HashClient.credential, job := verifierJob 1#128 [1#8, 2#8], withdrawn := false }
    ∧ (pairingComes (some pairingEntry)).credential.work = none
    ∧ (pairingComes (some pairingEntry)).storeRoom Client.credential
    ∧ (pairingComes (some pairingEntry)).outboxes.refresh = []
    ∧ (pairingComes (some pairingEntry)).cred 31 = some pairingEntry
    ∧ pairingEntry.record.cls = CredClass.factory
    ∧ (∀ j < 31, ∀ (x : CredEntry), (pairingComes (some pairingEntry)).cred j = some x → x.record.cls ≠ CredClass.factory)
    ∧ (pairingComes none).powered = true
    ∧ (pairingComes none).startUp = StartUp.ended
    ∧ (pairingComes none).credential.service = some (CredService.pairingHash 1#128 [3#8] pol)
    ∧ (pairingComes none).hash.running
        = some { client := HashClient.credential, job := verifierJob 1#128 [1#8, 2#8], withdrawn := false }
    ∧ (pairingComes none).credential.work = none
    ∧ (pairingComes none).storeRoom Client.credential
    ∧ (pairingComes none).outboxes.refresh = []
    ∧ (pairingComes none).cred 1 = none
    ∧ (∀ (j : Fin 32) (x : CredEntry), (pairingComes none).cred j = some x → x.record.cls ≠ CredClass.factory)
    ∧ (∀ j < 1, (pairingComes none).cred j ≠ none) := by
  unfold State.quiet State.storeRoom
  repeat' apply And.intro
  all_goals first
    | decide +kernel
    | rfl

/-- What `Obligations.CredentialWritesEnd` supposes is met, clause by clause. -/
theorem witness_credentialWritesEnd :
    enrolW.inWrite (Write.cred 4 (some rec31)) WriteTo.credCard []
    ∧ Write.cred 4 (some rec31) = Write.cred 4 (some rec31)
    ∧ enrolW.credential.work = working (enrolCard 1 0) (CredStage.enrolWrite 4 rec31) true
    ∧ enrolW.cred 4 = none
    ∧ enrolW.endsDone (Write.cred 4 (some rec31)) true false = true
    ∧ enrolW.endsDone (Write.cred 4 (some rec31)) false false = false
    ∧ (replaceW false).inWrite (Write.cred 31 (some rec31)) WriteTo.credReplace []
    ∧ Write.cred 31 (some rec31) = Write.cred 31 (some rec31)
    ∧ (replaceW false).credential.work = working (idCard (1028#16) 1) (CredStage.replaceWrite 31 rec31 false) true
    ∧ (replaceW false).cred 31 = some { record := (adminAt 5).record, working := (adminAt 5).working, writes := 1, attempt := false }
    ∧ (replaceW false).endsDone (Write.cred 31 (some rec31)) true false = true
    ∧ (replaceW true).inWrite (Write.cred 31 (some rec31)) WriteTo.credReplace []
    ∧ (replaceW true).credential.work = working (idCard (1028#16) 1) (CredStage.replaceWrite 31 rec31 true) true
    ∧ (replaceW true).cred 31 = some { record := (adminAt 5).record, working := (adminAt 5).working, writes := 1, attempt := true }
    ∧ (replaceW true).endsDone (Write.cred 31 (some rec31)) false false = false
    ∧ removeW.inWrite (Write.cred 31 none) WriteTo.credCard []
    ∧ Write.cred 31 none = Write.cred 31 none
    ∧ removeW.credential.work = working (idCard (1029#16) 0) (CredStage.removeWrite 31) true
    ∧ removeW.cred 31 = some (busy (adminAt 5))
    ∧ removeW.endsDone (Write.cred 31 none) true false = true
    ∧ removeW.endsDone (Write.cred 31 none) false false = false
    ∧ claimW.inWrite (Write.cred 0 (some rec31)) WriteTo.credCard []
    ∧ Write.cred 0 (some rec31) = Write.cred 0 (some rec31)
    ∧ claimW.credential.work = working (enrolCard 1 3) (CredStage.claimWrite 0 rec31 7) true
    ∧ claimW.cred 0 = none
    ∧ claimW.endsDone (Write.cred 0 (some rec31)) true false = true
    ∧ claimW.endsDone (Write.cred 0 (some rec31)) false false = false
    ∧ undoW.inWrite (Write.cred 0 none) WriteTo.credCard []
    ∧ Write.cred 0 none = Write.cred 0 none
    ∧ undoW.credential.work = working (enrolCard 1 3) (CredStage.claimUndo 0) true
    ∧ undoW.cred 0 = none
    ∧ pairW.inWrite (Write.cred 0 (some pairRec)) WriteTo.credRequest []
    ∧ pairW.credential.service = some (CredService.pairingWrite 0 pairRec)
    ∧ pairW.lifecycle.work = working pairCard LifeStage.pairing true
    ∧ pairW.endsDone (Write.cred 0 (some pairRec)) true false = true
    ∧ pairW.endsDone (Write.cred 0 (some pairRec)) false false = false
    ∧ pairW.cred 0 = none := by
  unfold State.inWrite State.carries
  repeat' apply And.intro
  all_goals decide +kernel

/-- What `Obligations.PresenceOpensAndClaimsComplete` supposes is met, clause by clause. -/
theorem witness_presenceOpensAndClaimsComplete :
    (credWork verifyCard (CredStage.awaitPresence 256) true (owned up)).powered = true
    ∧ (credWork verifyCard (CredStage.awaitPresence 256) true (owned up)).credential.work
        = working verifyCard (CredStage.awaitPresence 256) true
    ∧ (credWork verifyCard (CredStage.awaitPresence 256) true (owned up)).carries
    ∧ (credWork verifyCard (CredStage.awaitPresence 256) true (owned up)).lifecycle.effective = LifecycleState.claimed
        ∧ (credWork verifyCard (CredStage.awaitPresence 256) true (owned up)).lifecycle.pending = false
        ∧ (credWork verifyCard (CredStage.awaitPresence 256) true (owned up)).census.state ≠ CensusState.failed
    ∧ (credWork verifyCard (CredStage.awaitPresence 256) true up).powered = true
    ∧ (credWork verifyCard (CredStage.awaitPresence 256) true up).credential.work
        = working verifyCard (CredStage.awaitPresence 256) true
    ∧ (credWork verifyCard (CredStage.awaitPresence 256) true up).carries
    ∧ (¬((credWork verifyCard (CredStage.awaitPresence 256) true up).lifecycle.effective = LifecycleState.claimed
        ∧ (credWork verifyCard (CredStage.awaitPresence 256) true up).lifecycle.pending = false
        ∧ (credWork verifyCard (CredStage.awaitPresence 256) true up).census.state ≠ CensusState.failed))
    ∧ (claimWork false).powered = true
    ∧ (claimWork false).credential.work = working (enrolCard 1 3) (CredStage.awaitClaim 0 (ownerRecord CredKind.admin none) 0) true
    ∧ (claimWork false).lifecycle.claiming = false
    ∧ (claimWork false).storeRoom Client.lifecycle
    ∧ (claimWork true).powered = true
    ∧ (claimWork true).credential.work = working (enrolCard 1 3) (CredStage.awaitClaim 0 (ownerRecord CredKind.admin none) 0) true
    ∧ (claimWork true).lifecycle.claiming = true := by
  unfold State.storeRoom State.carries
  repeat' apply And.intro
  all_goals decide +kernel

end Credentials

/-! ## The lifecycle controller and the census -/

namespace Lifecycle

def plain (code : Word16) (body : List Byte) : Card := card code [] body []

def lifeCard (code : Word16) : State := queued .lifecycle (plain code []) up

def certCard (n : Nat) : Card := card 0x0503#16 [] [] [(0x5000, n)]

def pairCard : Card := plain 0x0504#16 [2#8, 1#8, 2#8]

def rootKey : KeyRecord := key .root (.p256 none 9#512) KeyFlags.none

def identityKey : KeyRecord := key .identity (.p256 (some 5#256) 9#512) KeyFlags.none

def pairingEntry : CredEntry := entry { ownerRecord .pairing none with cls := .factory, debt := 0 }

def installed : State :=
  let s := (((lifeCard 0x0505#16).setSlot 0 (some rootKey)).setSlot 1 (some identityKey)).setCred 0 (some pairingEntry)
  { s with lifecycle := { s.lifecycle with certificate := some [1#8] } }

def idCard (n : Nat) : Card := card 0x0509#16 [] [] [(0x5000, n)]

def settles0 : State := queued .lifecycle (plain 0x0507#16 []) up

def withdrawal (n : Nat) (c : Card) : State :=
  let s := owned (queued .lifecycle c up)
  { s with pace := { s.pace with tick := BitVec.ofNat 32 n } }

def extCard : Card := card 0x0507#16 [] [] [(0x5000, 64)]

def holdDue (s : State) : State := { s with lifecycle := { s.lifecycle with hold := 40, holdDue := true } }

def atTick (n : Nat) (s : State) : State := { s with pace := { s.pace with tick := BitVec.ofNat 32 n } }

def reports (n : Nat) (s : State) : State := { s with lifecycle := { s.lifecycle with reports := n } }

def releasing (p : Progress) (n : Nat) (sent taken : Trio (Option WipeTally)) : State :=
  { owned up with lifecycle := { (owned up).lifecycle with pending := true, requested := .unclaimed, presence := none, progress := p,
                                                           notices := n, answersSent := sent, answersTaken := taken } }

def tally (e f : Nat) : WipeTally := { erased := e, failed := f }

def onlyCustody (t : WipeTally) : Trio (Option WipeTally) := { custody := some t, credential := none, update := none }

def onlyCredential (t : WipeTally) : Trio (Option WipeTally) := { custody := none, credential := some t, update := none }

def third (f : Nat) : State := releasing .wiping 0 { Trio.empty with update := some (tally 1 f) }
    { Trio.empty with custody := some (tally 2 0), credential := some (tally 3 0) }

def storing (w : Write) (a : WriteTo) (s : State) : State :=
    { s with store := { s.store with queue := [{ write := w, answerTo := a }] } }

def custodyWipes (n : Nat) : State :=
  storing (.slot 6 none) .custodyWipe { up with custody := { up.custody with service := some (.wipe 2 n 1) } }

def credWipes (n : Nat) : State :=
  storing (.cred 6 none) .credWipe
      { up with credential := { up.credential with service := some (.wipe { removed := 2, outstanding := n, failed := 1 }) } }

def lapsedRec : KindRecord := { onTrial .owner with trial := none }

def updateWipes (n : Nat) : State :=
  storing (.kind 7 lapsedRec) .updateWipe
      { up with update := { up.update with service := some { removed := 2, outstanding := n, failed := 0 } } }

def unsentEvent : State :=
    { updateWipes 1 with measureWaiting := [.updateWipe],
                         outboxes := { up.outboxes with updateWipe := [.request (.event .censusFailed), .act .updateWipeSent] } }

def lifeWork (c : Card) (stage : LifeStage) (s : State) : State :=
  let s := begun .lifecycle c s
  { s with lifecycle := { s.lifecycle with work := working c stage true } }

def wLife (e : LifecycleState) (m : Bool) : Write := .lifecycle { effective := e, marker := m }

def finishCard : Card := plain 0x0505#16 []

def finishing : State := storing (wLife .unclaimed false) .lifeCard (lifeWork finishCard .finish up)

def certing : State := storing (.certificate [1#8]) .lifeCard (lifeWork (certCard 512) (.certificateWrite [1#8]) up)

def releaseCard : Card := plain 0x0506#16 []

def marking (s : State) : State :=
  storing (wLife .claimed true) .lifeMarker
      { s with lifecycle := { s.lifecycle with effective := .claimed, requested := .unclaimed, pending := true,
                                               progress := .marking } }

def checked : CheckedSession := { kind := 7, version := 6, digest := 3#256, slot := 5, signer := .owner, guardStart := 0#32 }

def guarded (s : State) : State := { s with update := { s.update with session := .checked checked, guardOn := true } }

def markCard : State := marking (lifeWork releaseCard .release up)

def closing : State :=
  storing (wLife .unclaimed false) .lifeClosing
      { up with lifecycle := { up.lifecycle with effective := .claimed, requested := .unclaimed, marker := true, pending := true,
                                                 progress := .closing } }

def enrolCard : Card := card 0x0401#16 [1#8, 0#8, 1#8, 0#8, 0x80#8, 0#8, 0x10#8, 0#8] [2#8, 1#8, 1#8, 1#8, 2#8, 9#8, 0x61#8] []

def adminRec : CredRecord := ownerRecord .admin none

def claimS : State :=
  let s := begun .credential enrolCard (unclaimed up)
  { s with
    credential := { s.credential with work := working enrolCard (.awaitClaim 0 adminRec 7) true }
    lifecycle := { s.lifecycle with claiming := true } }

def claiming : State := storing (wLife .claimed false) .lifeClaim claimS

def rootInst : State :=
  let s := storing (.slot 0 (some rootKey)) .custodyRequest (lifeWork (plain 0x0502#16 []) (.install []) up)
  { s with custody := { s.custody with service := some (.install 0 rootKey .lifecycle) } }

def eventSent (c : Client) (e : PartEvent) (rest : List Out) (s : State) : State :=
  { s with measureWaiting := [c], outboxes := s.outboxes.set c (.request (.event e) :: rest) }

def released : State := eventSent .lifecycleAsk .ownershipReleased [.act .releaseDone] { up with linkUp := true }

def claimed : State :=
  let s := eventSent .lifecycleAsk .ownershipClaimed [.act .claimDone] { claimS with linkUp := true }
  { s with lifecycle := { s.lifecycle with effective := .claimed, requested := .claimed } }

def zeroRun : CensusRun := { a := 0#8, b := 0#8, r := 0#8 }

def partRun : CensusRun := { a := 10#8, b := 8#8, r := 11#8 }

def running (x : CensusState) (w : List Waiter) (s : State) : State :=
    { s with census := { s.census with state := x, run := some zeroRun, waiters := w } }

def midRun (s : State) : State := { s with census := { s.census with run := some partRun } }

def timer (limit : Nat) : PeriodTimer := { start := 0#32, limit := limit }

def timed (n limit : Nat) (s : State) : State := atTick n { s with census := { s.census with period := some (timer limit) } }

def drawCard : Card := plain 0x010A#16 [64#8]

def gated (x : CensusState) : State :=
  let s := running x [.custody] (begun .custody drawCard up)
  { s with custody := { s.custody with work := working drawCard .gate false } }

def atGate (c : Card) (s : State) : State :=
  let s := running .doubt [.custody] (begun .custody c s)
  { s with custody := { s.custody with work := working c .gate false } }

def genCard : Card := plain 0x0101#16 [32#8, 7#8, 1#8, 1#8]

def wrapCard : Card := card 0x0105#16 [] [41#8, 40#8] [(0x5000, 163)]

def wrapSlots (s : State) : State := (s.setSlot 40 (some wrapKey)).setSlot 41 (some signKey)

def gateCred (c : Card) (s : State) : State :=
  let s := running .doubt [.credential] (begun .credential c s)
  { s with credential := { s.credential with work := working c .gate false } }

def enrolling (kind : Nat) : Card := card 0x0401#16 [byteOf kind, 0#8, 1#8, 0#8, 0x80#8, 0#8, 0x10#8, 0#8]
    [2#8, 0#8, 1#8, 1#8, 2#8, 0x61#8] []

def replacing : Card := plain 0x0404#16 [32#8, 1#8, 0#8, 1#8]

def releasable : CredEntry := entry (ownerRecord .releasable (some (sealSecret 0#96 [1#8, 2#8])))

def pairingWaits : State :=
  let s := running .doubt [.credential] (begun .lifecycle pairCard up)
  { s with
    credential := { s.credential with service := some (.pairingGate [1#8, 2#8] [] { charge := 4096, decay := 65000, lock := 40000 }) }
    lifecycle := { s.lifecycle with work := working pairCard .pairing true } }

def identityCard : Card := plain 0x0501#16 []

def gateLife (l : List Waiter) : State :=
  let s := running .doubt l (begun .lifecycle identityCard up)
  { s with lifecycle := { s.lifecycle with work := working identityCard .gate false } }

def bothGates : State :=
  let s := gateLife [.lifecycle, .custody]
  let d : Card := { genCard with take := 1 }
  { s with
    custody := { s.custody with work := working d .gate false }
    exch := { s.exch with buffers := s.exch.buffers ++ [{ card := d, unit := some .custody, phase := .begun }] } }

def thirdCustody (f : Nat) : State := releasing .wiping 0 (onlyCustody (tally 2 f))
    { Trio.empty with credential := some (tally 3 0), update := some (tally 1 0) }

def thirdCredential (f : Nat) : State := releasing .wiping 0 (onlyCredential (tally 3 f))
    { Trio.empty with custody := some (tally 2 0), update := some (tally 1 0) }

def updateFirst : State := releasing .wiping 0 { Trio.empty with update := some (tally 1 0) } Trio.empty

/-- What `Obligations.FactoryCardsBegin` supposes is met, clause by clause. -/
theorem witness_factoryCardsBegin :
    (lifeCard 1281#16).lifecycle.effective = LifecycleState.blank
    ∧ (lifeCard 1281#16).lifeReady 1281#16 = some (plain 1281#16 [])
    ∧ noFieldsForm (plain 1281#16 []) = none
    ∧ (lifeCard 1281#16).slot 1 = none
    ∧ (lifeCard 1281#16).census.state = CensusState.healthy
    ∧ (lifeCard 1282#16).lifecycle.effective = LifecycleState.blank
    ∧ (lifeCard 1282#16).lifeReady 1282#16 = some (plain 1282#16 [])
    ∧ noFieldsForm (plain 1282#16 []) = none
    ∧ (queued UnitName.lifecycle (certCard 512) up).lifecycle.effective = LifecycleState.blank
    ∧ (queued UnitName.lifecycle (certCard 512) up).lifeReady 1283#16 = some (certCard 512)
    ∧ factoryCertificateForm (certCard 512) = none
    ∧ (queued UnitName.lifecycle pairCard up).lifecycle.effective = LifecycleState.blank
    ∧ (queued UnitName.lifecycle pairCard up).lifeReady 1284#16 = some pairCard
    ∧ factoryPairingForm pairCard = none
    ∧ installed.lifecycle.effective = LifecycleState.blank
    ∧ installed.lifeReady 1285#16 = some (plain 1285#16 [])
    ∧ noFieldsForm (plain 1285#16 []) = none
    ∧ installed.slot 0 ≠ none
    ∧ installed.slot 1 ≠ none
    ∧ installed.lifecycle.certificate ≠ none
    ∧ installed.cred 0 = some pairingEntry
    ∧ pairingEntry.record.kind = CredKind.pairing
    ∧ pairingEntry.record.cls = CredClass.factory
    ∧ installed.storeRoom Client.lifecycle
    ∧ (unclaimed (lifeCard 1282#16)).lifecycle.effective ≠ LifecycleState.blank
    ∧ (unclaimed (lifeCard 1282#16)).lifeReady 1282#16 = some (plain 1282#16 [])
    ∧ (unclaimed (lifeCard 1282#16)).carries := by
  unfold State.storeRoom State.carries
  repeat' apply And.intro
  all_goals decide +kernel

/-- What `Obligations.OwnerCardsBegin` supposes is met, clause by clause. -/
theorem witness_ownerCardsBegin :
    (owned (lifeCard 1286#16)).lifeReady 1286#16 = some (plain 1286#16 [])
    ∧ noFieldsForm (plain 1286#16 []) = none
    ∧ (owned (lifeCard 1286#16)).lifecycle.effective = LifecycleState.claimed
    ∧ (owned (lifeCard 1286#16)).lifecycle.pending = false
    ∧ (owned (lifeCard 1286#16)).lifecycle.presence.isSome = true
    ∧ (owned (lifeCard 1286#16)).storeRoom Client.lifecycle
    ∧ (owned (lifeCard 1287#16)).lifeReady 1287#16 = some (plain 1287#16 [])
    ∧ noFieldsForm (plain 1287#16 []) = none
    ∧ (owned (lifeCard 1287#16)).lifecycle.presence = some 1200#32
    ∧ (owned (lifeCard 1287#16)).carries
    ∧ (lifeCard 1287#16).lifeReady 1287#16 = some (plain 1287#16 [])
    ∧ (lifeCard 1287#16).lifecycle.presence = none
    ∧ (lifeCard 1287#16).carries
    ∧ (lifeCard 1288#16).lifeReady 1288#16 = some (plain 1288#16 [])
    ∧ noFieldsForm (plain 1288#16 []) = none
    ∧ (lifeCard 1288#16).carries
    ∧ (State.setSlot 1 (some identityKey) (queued UnitName.lifecycle (idCard 64) up)).lifeReady 1289#16 = some (idCard 64)
    ∧ oneExtentForm (idCard 64) = none
    ∧ (State.setSlot 1 (some identityKey) (queued UnitName.lifecycle (idCard 64) up)).identityOutput ≠ []
    ∧ (State.setSlot 1 (some identityKey) (queued UnitName.lifecycle (idCard 64) up)).identityOutput.length ≤
        (idCard 64).extentLength 0
    ∧ (queued UnitName.lifecycle (idCard 1) up).lifeReady 1289#16 = some (idCard 1)
    ∧ oneExtentForm (idCard 1) = none
    ∧ (queued UnitName.lifecycle (idCard 1) up).identityOutput = []
    ∧ (queued UnitName.lifecycle (idCard 1) up).carries := by
  unfold State.storeRoom State.carries
  repeat' apply And.intro
  all_goals decide +kernel

/-- What `Obligations.OwnerWithdrawClosesPresence` supposes is met, clause by clause. -/
theorem witness_ownerWithdrawClosesPresence :
    (withdrawal 5 extCard).lifeReady 1287#16 = some extCard
    ∧ (withdrawal 5 extCard).carries
    ∧ 0 < extCard.extentCount
    ∧ settles0.lifeReady 1287#16 = some (plain 1287#16 [])
    ∧ settles0.carries
    ∧ (plain 1287#16 []).extentCount = 0
    ∧ settles0.lifecycle.presence = none
    ∧ (withdrawal 5 (plain 1287#16 [])).lifeReady 1287#16 = some (plain 1287#16 [])
    ∧ (withdrawal 5 (plain 1287#16 [])).carries
    ∧ (withdrawal 5 (plain 1287#16 [])).lifecycle.presence = some 1200#32
    ∧ BitVec.toNat (1200#32 - (withdrawal 5 (plain 1287#16 [])).pace.tick) < 65536
    ∧ (withdrawal 1200 (plain 1287#16 [])).lifeReady 1287#16 = some (plain 1287#16 [])
    ∧ (withdrawal 1200 (plain 1287#16 [])).carries
    ∧ (withdrawal 1200 (plain 1287#16 [])).lifecycle.presence = some (withdrawal 1200 (plain 1287#16 [])).pace.tick := by
  unfold State.carries
  repeat' apply And.intro
  all_goals decide +kernel

/-- What `Obligations.HoldAndPresenceEvents` supposes is met, clause by clause. -/
theorem witness_holdAndPresenceEvents :
    (holdDue (owned up)).powered = true
    ∧ (holdDue (owned up)).lifecycle.holdDue = true
    ∧ (holdDue (owned up)).lifecycle.effective = LifecycleState.claimed
    ∧ (holdDue (owned up)).lifecycle.pending = false
    ∧ (holdDue (owned up)).storeRoom Client.lifecycle
    ∧ (holdDue up).powered = true
    ∧ (holdDue up).lifecycle.holdDue = true
    ∧ (holdDue up).lifecycle.effective ≠ LifecycleState.claimed
    ∧ (atTick 1200 (owned up)).powered = true
    ∧ (atTick 1200 (owned up)).lifecycle.presence = some (atTick 1200 (owned up)).pace.tick
    ∧ (atTick 1199 (owned up)).powered = true
    ∧ (atTick 1199 (owned up)).lifecycle.presence ≠ some (atTick 1199 (owned up)).pace.tick
    ∧ (reports 1 (owned up)).powered = true
    ∧ (reports 1 (owned up)).lifecycle.reports = 0 + 1
    ∧ (reports 1 (owned up)).lifecycle.presence = some 1200#32
    ∧ (reports 2 up).powered = true
    ∧ (reports 2 up).lifecycle.reports = 1 + 1
    ∧ (reports 2 up).lifecycle.presence = none := by
  unfold State.storeRoom
  repeat' apply And.intro
  all_goals decide +kernel

/-- What `Obligations.ReleasesWipe` supposes is met, clause by clause. -/
theorem witness_releasesWipe :
    (releasing Progress.deferred 1 Trio.empty Trio.empty).powered = true
    ∧ (releasing Progress.deferred 1 Trio.empty Trio.empty).lifecycle.notices = 0 + 1
    ∧ (releasing Progress.deferred 1 Trio.empty Trio.empty).lifecycle.progress = Progress.deferred
    ∧ (releasing Progress.wiping 2 Trio.empty Trio.empty).powered = true
    ∧ (releasing Progress.wiping 2 Trio.empty Trio.empty).lifecycle.notices = 1 + 1
    ∧ (releasing Progress.wiping 2 Trio.empty Trio.empty).lifecycle.progress ≠ Progress.deferred
    ∧ (third 0).powered = true
    ∧ (third 0).startUp = StartUp.ended
    ∧ (third 0).lifecycle.progress = Progress.wiping
    ∧ (third 0).lifecycle.answersSent.update = some (tally 1 0)
    ∧ (third 0).lifecycle.answersTaken.custody = some (tally 2 0)
    ∧ (third 0).lifecycle.answersTaken.credential = some (tally 3 0)
    ∧ (tally 2 0).failed = 0
    ∧ (tally 3 0).failed = 0
    ∧ (tally 1 0).failed = 0
    ∧ (third 0).storeRoom Client.lifecycle
    ∧ (third 1).powered = true
    ∧ (third 1).startUp = StartUp.ended
    ∧ (third 1).lifecycle.progress = Progress.wiping
    ∧ (third 1).lifecycle.answersSent.update = some (tally 1 1)
    ∧ (third 1).lifecycle.answersTaken.custody = some (tally 2 0)
    ∧ (third 1).lifecycle.answersTaken.credential = some (tally 3 0)
    ∧ 0 < (tally 1 1).failed
    ∧ (releasing Progress.wiping 0 (onlyCustody (tally 2 0)) Trio.empty).powered = true
    ∧ (releasing Progress.wiping 0 (onlyCustody (tally 2 0)) Trio.empty).startUp = StartUp.ended
    ∧ (releasing Progress.wiping 0 (onlyCustody (tally 2 0)) Trio.empty).lifecycle.progress = Progress.wiping
    ∧ (releasing Progress.wiping 0 (onlyCustody (tally 2 0)) Trio.empty).lifecycle.answersSent.custody = some (tally 2 0)
    ∧ (releasing Progress.wiping 0 (onlyCustody (tally 2 0)) Trio.empty).lifecycle.answersTaken.credential = none
    ∧ (releasing Progress.wiping 0 (onlyCredential (tally 3 0)) Trio.empty).powered = true
    ∧ (releasing Progress.wiping 0 (onlyCredential (tally 3 0)) Trio.empty).startUp = StartUp.ended
    ∧ (releasing Progress.wiping 0 (onlyCredential (tally 3 0)) Trio.empty).lifecycle.progress = Progress.wiping
    ∧ (releasing Progress.wiping 0 (onlyCredential (tally 3 0)) Trio.empty).lifecycle.answersSent.credential = some (tally 3 0)
    ∧ (releasing Progress.wiping 0 (onlyCredential (tally 3 0)) Trio.empty).lifecycle.answersTaken.update = none
    ∧ (custodyWipes 1).inWrite (Write.slot 6 none) WriteTo.custodyWipe []
    ∧ WriteTo.custodyWipe = WriteTo.custodyWipe
    ∧ (custodyWipes 1).custody.service = some (CustodyService.wipe 2 (0 + 1) 1)
    ∧ (∀ (i : Fin 32) (v : Option CredRecord), Write.slot 6 none ≠ Write.cred i v)
    ∧ 0 = 0
    ∧ (custodyWipes 2).inWrite (Write.slot 6 none) WriteTo.custodyWipe []
    ∧ (custodyWipes 2).custody.service = some (CustodyService.wipe 2 (1 + 1) 1)
    ∧ 0 < 1
    ∧ (credWipes 1).inWrite (Write.cred 6 none) WriteTo.credWipe []
    ∧ WriteTo.credWipe = WriteTo.credWipe
    ∧ Write.cred 6 none = Write.cred 6 none
    ∧ (credWipes 1).cred 6 = none
    ∧ (credWipes 1).credential.service = some (CredService.wipe { removed := 2, outstanding := 0 + 1, failed := 1 })
    ∧ (credWipes 3).inWrite (Write.cred 6 none) WriteTo.credWipe []
    ∧ (credWipes 3).cred 6 = none
    ∧ (credWipes 3).credential.service = some (CredService.wipe { removed := 2, outstanding := 2 + 1, failed := 1 })
    ∧ 0 < 2
    ∧ (updateWipes 1).inWrite (Write.kind 7 lapsedRec) WriteTo.updateWipe []
    ∧ WriteTo.updateWipe = WriteTo.updateWipe
    ∧ (∀ (i : Fin 32) (v : Option CredRecord), Write.kind 7 lapsedRec ≠ Write.cred i v)
    ∧ (updateWipes 1).update.service = some { removed := 2, outstanding := 0 + 1, failed := 0 }
    ∧ (updateWipes 1).outboxes.updateWipe = []
    ∧ (updateWipes 2).inWrite (Write.kind 7 lapsedRec) WriteTo.updateWipe []
    ∧ (updateWipes 2).update.service = some { removed := 2, outstanding := 1 + 1, failed := 0 }
    ∧ unsentEvent.inWrite (Write.kind 7 lapsedRec) WriteTo.updateWipe []
    ∧ unsentEvent.update.service = some { removed := 2, outstanding := 0 + 1, failed := 0 }
    ∧ unsentEvent.outboxes.updateWipe ≠ []
    ∧ (thirdCustody 0).powered = true
    ∧ (thirdCustody 0).startUp = StartUp.ended
    ∧ (thirdCustody 0).lifecycle.progress = Progress.wiping
    ∧ (thirdCustody 0).lifecycle.answersSent.custody = some (tally 2 0)
    ∧ (thirdCustody 0).lifecycle.answersTaken.credential = some (tally 3 0)
    ∧ (thirdCustody 0).lifecycle.answersTaken.update = some (tally 1 0)
    ∧ (thirdCustody 0).storeRoom Client.lifecycle
    ∧ (thirdCustody 1).powered = true
    ∧ (thirdCustody 1).startUp = StartUp.ended
    ∧ (thirdCustody 1).lifecycle.progress = Progress.wiping
    ∧ (thirdCustody 1).lifecycle.answersSent.custody = some (tally 2 1)
    ∧ (thirdCustody 1).lifecycle.answersTaken.credential = some (tally 3 0)
    ∧ (thirdCustody 1).lifecycle.answersTaken.update = some (tally 1 0)
    ∧ 0 < (tally 2 1).failed
    ∧ (thirdCredential 0).powered = true
    ∧ (thirdCredential 0).startUp = StartUp.ended
    ∧ (thirdCredential 0).lifecycle.progress = Progress.wiping
    ∧ (thirdCredential 0).lifecycle.answersSent.credential = some (tally 3 0)
    ∧ (thirdCredential 0).lifecycle.answersTaken.custody = some (tally 2 0)
    ∧ (thirdCredential 0).lifecycle.answersTaken.update = some (tally 1 0)
    ∧ (thirdCredential 0).storeRoom Client.lifecycle
    ∧ (thirdCredential 1).powered = true
    ∧ (thirdCredential 1).startUp = StartUp.ended
    ∧ (thirdCredential 1).lifecycle.progress = Progress.wiping
    ∧ (thirdCredential 1).lifecycle.answersSent.credential = some (tally 3 1)
    ∧ (thirdCredential 1).lifecycle.answersTaken.custody = some (tally 2 0)
    ∧ (thirdCredential 1).lifecycle.answersTaken.update = some (tally 1 0)
    ∧ 0 < (tally 3 1).failed
    ∧ updateFirst.powered = true
    ∧ updateFirst.startUp = StartUp.ended
    ∧ updateFirst.lifecycle.progress = Progress.wiping
    ∧ updateFirst.lifecycle.answersSent.update = some (tally 1 0)
    ∧ updateFirst.lifecycle.answersTaken.custody = none := by
  unfold State.inWrite State.storeRoom State.carries
  repeat' apply And.intro
  all_goals first
    | decide +kernel
    | (intro _ _ h; cases h)

/-- What `Obligations.LifecycleWritesEnd` supposes is met, clause by clause. -/
theorem witness_lifecycleWritesEnd :
    finishing.inWrite (wLife LifecycleState.unclaimed false) WriteTo.lifeCard []
    ∧ (∀ (j : Fin 32) (v : Option CredRecord), wLife LifecycleState.unclaimed false ≠ Write.cred j v)
    ∧ WriteTo.lifeCard = WriteTo.lifeCard
    ∧ finishing.lifecycle.work = working finishCard LifeStage.finish true
    ∧ finishing.endsDone (wLife LifecycleState.unclaimed false) true false = true
    ∧ finishing.endsDone (wLife LifecycleState.unclaimed false) false false = false
    ∧ certing.inWrite (Write.certificate [1#8]) WriteTo.lifeCard []
    ∧ (∀ (j : Fin 32) (v : Option CredRecord), Write.certificate [1#8] ≠ Write.cred j v)
    ∧ certing.lifecycle.work = working (certCard 512) (LifeStage.certificateWrite [1#8]) true
    ∧ certing.endsDone (Write.certificate [1#8]) true false = true
    ∧ certing.endsDone (Write.certificate [1#8]) false false = false
    ∧ markCard.inWrite (wLife LifecycleState.claimed true) WriteTo.lifeMarker []
    ∧ (∀ (j : Fin 32) (v : Option CredRecord), wLife LifecycleState.claimed true ≠ Write.cred j v)
    ∧ WriteTo.lifeMarker = WriteTo.lifeMarker
    ∧ markCard.lifecycle.progress = Progress.marking
    ∧ markCard.lifecycle.work = working releaseCard LifeStage.release true
    ∧ markCard.endsDone (wLife LifecycleState.claimed true) true false = true
    ∧ (∀ (x : CheckedSession), markCard.update.session ≠ Session.checked x)
    ∧ (guarded markCard).inWrite (wLife LifecycleState.claimed true) WriteTo.lifeMarker []
    ∧ (guarded markCard).lifecycle.progress = Progress.marking
    ∧ (guarded markCard).lifecycle.work = working releaseCard LifeStage.release true
    ∧ (guarded markCard).endsDone (wLife LifecycleState.claimed true) true false = true
    ∧ (guarded markCard).update.session = Session.checked checked
    ∧ markCard.endsDone (wLife LifecycleState.claimed true) false false = false
    ∧ (marking up).inWrite (wLife LifecycleState.claimed true) WriteTo.lifeMarker []
    ∧ (marking up).lifecycle.progress = Progress.marking
    ∧ (marking up).lifecycle.work = none
    ∧ (marking up).endsDone (wLife LifecycleState.claimed true) true false = true
    ∧ (∀ (x : CheckedSession), (marking up).update.session ≠ Session.checked x)
    ∧ (guarded (marking up)).inWrite (wLife LifecycleState.claimed true) WriteTo.lifeMarker []
    ∧ (guarded (marking up)).lifecycle.progress = Progress.marking
    ∧ (guarded (marking up)).lifecycle.work = none
    ∧ (guarded (marking up)).endsDone (wLife LifecycleState.claimed true) true false = true
    ∧ (guarded (marking up)).update.session = Session.checked checked
    ∧ (marking up).endsDone (wLife LifecycleState.claimed true) false false = false
    ∧ closing.inWrite (wLife LifecycleState.unclaimed false) WriteTo.lifeClosing []
    ∧ WriteTo.lifeClosing = WriteTo.lifeClosing
    ∧ closing.lifecycle.progress = Progress.closing
    ∧ closing.endsDone (wLife LifecycleState.unclaimed false) true false = true
    ∧ closing.quiet Client.lifecycleAsk
    ∧ closing.measure.starting = false
    ∧ closing.endsDone (wLife LifecycleState.unclaimed false) false false = false
    ∧ claiming.inWrite (wLife LifecycleState.claimed false) WriteTo.lifeClaim []
    ∧ (∀ (j : Fin 32) (v : Option CredRecord), wLife LifecycleState.claimed false ≠ Write.cred j v)
    ∧ WriteTo.lifeClaim = WriteTo.lifeClaim
    ∧ claiming.credential.work = working enrolCard (CredStage.awaitClaim 0 adminRec 7) true
    ∧ claiming.endsDone (wLife LifecycleState.claimed false) true false = true
    ∧ claiming.quiet Client.lifecycleAsk
    ∧ claiming.measure.starting = false
    ∧ claiming.endsDone (wLife LifecycleState.claimed false) false false = false
    ∧ claiming.storeRoom Client.credential
    ∧ claiming.outboxes.refresh = []
    ∧ claiming.cred 0 = none
    ∧ rootInst.inWrite (Write.slot 0 (some rootKey)) WriteTo.custodyRequest []
    ∧ (∀ (j : Fin 32) (v : Option CredRecord), Write.slot 0 (some rootKey) ≠ Write.cred j v)
    ∧ rootInst.custody.service = some (CustodyService.install 0 rootKey Installer.lifecycle)
    ∧ rootInst.lifecycle.work = working (plain 1282#16 []) (LifeStage.install []) true
    ∧ rootInst.endsDone (Write.slot 0 (some rootKey)) true false = true
    ∧ rootInst.endsDone (Write.slot 0 (some rootKey)) false false = false
    ∧ released.linkUp = true
    ∧ released.eventWaits Client.lifecycleAsk PartEvent.ownershipReleased [Out.act After.releaseDone]
    ∧ claimed.linkUp = true
    ∧ claimed.eventWaits Client.lifecycleAsk PartEvent.ownershipClaimed [Out.act After.claimDone]
    ∧ claimed.credential.work = working enrolCard (CredStage.awaitClaim 0 adminRec 7) true
    ∧ claimed.carries
    ∧ claimed.lifecycle.effective = LifecycleState.claimed
    ∧ claimed.lifecycle.pending = false
    ∧ claimed.census.state ≠ CensusState.failed := by
  unfold State.eventWaits State.inWrite State.quiet State.storeRoom State.carries
  repeat' apply And.intro
  all_goals first
    | decide +kernel
    | (intro _ _ h; cases h)
    | (intro _ h; cases h)

/-- What `Obligations.CensusRunsEnd` supposes is met, clause by clause. -/
theorem witness_censusRunsEnd :
    (running CensusState.healthy [] up).powered = true
    ∧ (running CensusState.healthy [] up).census.run = some zeroRun
    ∧ (running CensusState.healthy [] up).census.waiters = []
    ∧ (running CensusState.healthy [] up).startUp = StartUp.ended
    ∧ false = false ∧ 240 ≤ BitVec.toNat (zeroRun.a + 255#8) ∧ 240 ≤ BitVec.toNat (zeroRun.r + 240#8)
        ∧ 208 ≤ BitVec.toNat (zeroRun.b + 238#8) ∧ BitVec.toNat (zeroRun.b + 238#8) ≤ 238
    ∧ (running CensusState.healthy [] up).census.state ≠ CensusState.failed
    ∧ (running CensusState.doubt [] up).powered = true
    ∧ (running CensusState.doubt [] up).census.run = some zeroRun
    ∧ (running CensusState.doubt [] up).census.waiters = []
    ∧ (running CensusState.doubt [] up).startUp = StartUp.ended
    ∧ false = false ∧ 240 ≤ BitVec.toNat (zeroRun.a + 240#8) ∧ 240 ≤ BitVec.toNat (zeroRun.r + 255#8)
        ∧ 208 ≤ BitVec.toNat (zeroRun.b + 208#8) ∧ BitVec.toNat (zeroRun.b + 208#8) ≤ 238
    ∧ (running CensusState.doubt [] up).census.state ≠ CensusState.failed
    ∧ (midRun (running CensusState.healthy [] up)).powered = true
    ∧ (midRun (running CensusState.healthy [] up)).census.run = some partRun
    ∧ (midRun (running CensusState.healthy [] up)).census.waiters = []
    ∧ (midRun (running CensusState.healthy [] up)).startUp = StartUp.ended
    ∧ false = false ∧ 240 ≤ BitVec.toNat (partRun.a + 240#8) ∧ 240 ≤ BitVec.toNat (partRun.r + 240#8)
        ∧ 208 ≤ BitVec.toNat (partRun.b + 205#8) ∧ BitVec.toNat (partRun.b + 205#8) ≤ 238
    ∧ (midRun (running CensusState.healthy [] up)).census.state ≠ CensusState.failed
    ∧ (running CensusState.failed [] up).powered = true
    ∧ (running CensusState.failed [] up).census.run = some zeroRun
    ∧ (running CensusState.failed [] up).census.waiters = []
    ∧ (running CensusState.failed [] up).startUp = StartUp.ended
    ∧ (running CensusState.failed [] up).census.state = CensusState.failed
    ∧ (¬(false = false ∧ 240 ≤ BitVec.toNat (zeroRun.a + 255#8) ∧ 240 ≤ BitVec.toNat (zeroRun.r + 240#8)
        ∧ 208 ≤ BitVec.toNat (zeroRun.b + 239#8) ∧ BitVec.toNat (zeroRun.b + 239#8) ≤ 238))
    ∧ (running CensusState.healthy [] up).census.state = CensusState.healthy
    ∧ (¬(true = false ∧ 240 ≤ BitVec.toNat (zeroRun.a + 250#8) ∧ 240 ≤ BitVec.toNat (zeroRun.r + 250#8)
        ∧ 208 ≤ BitVec.toNat (zeroRun.b + 230#8) ∧ BitVec.toNat (zeroRun.b + 230#8) ≤ 238))
    ∧ (¬(false = false ∧ 240 ≤ BitVec.toNat (zeroRun.a + 255#8) ∧ 240 ≤ BitVec.toNat (zeroRun.r + 240#8)
        ∧ 208 ≤ BitVec.toNat (zeroRun.b + 207#8) ∧ BitVec.toNat (zeroRun.b + 207#8) ≤ 238))
    ∧ (¬(false = false ∧ 240 ≤ BitVec.toNat (zeroRun.a + 239#8) ∧ 240 ≤ BitVec.toNat (zeroRun.r + 255#8)
        ∧ 208 ≤ BitVec.toNat (zeroRun.b + 220#8) ∧ BitVec.toNat (zeroRun.b + 220#8) ≤ 238))
    ∧ (running CensusState.doubt [] up).census.state = CensusState.doubt
    ∧ (running CensusState.doubt [] up).quiet Client.census
    ∧ (running CensusState.doubt [] up).measure.starting = false
    ∧ (eventSent Client.census PartEvent.censusFailed [Out.act After.censusAttention]
        { exch := up.exch, custody := up.custody, measure := up.measure, update := up.update, credential := up.credential,
          lifecycle := up.lifecycle, hash := up.hash, curve := up.curve, census := up.census, pace := up.pace, store := up.store,
          startUp := up.startUp, outboxes := up.outboxes, measureWaiting := up.measureWaiting, powered := up.powered, linkUp := true,
          resetLine := up.resetLine, ownerLineLow := up.ownerLineLow, host := up.host, messages := up.messages, free := up.free,
          pending := up.pending }).eventWaits Client.census PartEvent.censusFailed [Out.act After.censusAttention]
    ∧ (eventSent Client.census PartEvent.censusFailed [Out.act After.censusAttention]
        { exch := up.exch, custody := up.custody, measure := up.measure, update := up.update, credential := up.credential,
          lifecycle := up.lifecycle, hash := up.hash, curve := up.curve, census := up.census, pace := up.pace, store := up.store,
          startUp := up.startUp, outboxes := up.outboxes, measureWaiting := up.measureWaiting, powered := up.powered, linkUp := true,
          resetLine := up.resetLine, ownerLineLow := up.ownerLineLow, host := up.host, messages := up.messages, free := up.free,
          pending := up.pending }).linkUp = true
    ∧ (timed 256 256 up).powered = true
    ∧ (timed 256 256 up).census.period = some (timer 256)
    ∧ (timed 256 256 up).census.run = none
    ∧ (timer 256).limit ≤ BitVec.toNat ((timed 256 256 up).pace.tick - (timer 256).start)
    ∧ (timed 15 16 up).powered = true
    ∧ (timed 15 16 up).census.period = some (timer 16)
    ∧ (timed 15 16 up).census.run = none
    ∧ BitVec.toNat ((timed 15 16 up).pace.tick - (timer 16).start) < (timer 16).limit
    ∧ (gated CensusState.doubt).powered = true
    ∧ (gated CensusState.doubt).census.run = some zeroRun
    ∧ (gated CensusState.doubt).census.waiters = [Waiter.custody]
    ∧ (gated CensusState.doubt).startUp = StartUp.ended
    ∧ (gated CensusState.doubt).custody.work = working drawCard CustodyStage.gate false
    ∧ drawCard.code = 266#16
    ∧ (gated CensusState.doubt).carries
    ∧ 240 ≤ BitVec.toNat (zeroRun.a + 240#8)
    ∧ 240 ≤ BitVec.toNat (zeroRun.r + 240#8)
    ∧ 208 ≤ BitVec.toNat (zeroRun.b + 208#8)
    ∧ BitVec.toNat (zeroRun.b + 208#8) ≤ 238
    ∧ (gated CensusState.doubt).census.state = CensusState.doubt
    ∧ (gated CensusState.failed).powered = true
    ∧ (gated CensusState.failed).census.run = some zeroRun
    ∧ (gated CensusState.failed).census.waiters = [Waiter.custody]
    ∧ (gated CensusState.failed).startUp = StartUp.ended
    ∧ (gated CensusState.failed).custody.work = working drawCard CustodyStage.gate false
    ∧ (gated CensusState.failed).carries
    ∧ 240 ≤ BitVec.toNat (zeroRun.a + 255#8)
    ∧ 240 ≤ BitVec.toNat (zeroRun.r + 255#8)
    ∧ 208 ≤ BitVec.toNat (zeroRun.b + 238#8)
    ∧ BitVec.toNat (zeroRun.b + 238#8) ≤ 238
    ∧ (gated CensusState.failed).census.state = CensusState.failed
    ∧ (atGate genCard (unclaimed up)).powered = true
    ∧ (atGate genCard (unclaimed up)).census.run = some zeroRun
    ∧ (atGate genCard (unclaimed up)).startUp = StartUp.ended
    ∧ (atGate genCard (unclaimed up)).census.state = CensusState.doubt
    ∧ (atGate genCard (unclaimed up)).census.waiters = [Waiter.custody]
    ∧ (atGate genCard (unclaimed up)).custody.work = working genCard CustodyStage.gate false
    ∧ genCard.code = 257#16
    ∧ keyGenerateAlgorithm genCard = Algorithm.p256Sign
    ∧ (keyGenerateFlags genCard).fits Algorithm.p256Sign = true
    ∧ (atGate genCard (unclaimed up)).lifecycle.effective ≠ LifecycleState.blank
    ∧ (atGate wrapCard (wrapSlots up)).powered = true
    ∧ (atGate wrapCard (wrapSlots up)).census.run = some zeroRun
    ∧ (atGate wrapCard (wrapSlots up)).startUp = StartUp.ended
    ∧ (atGate wrapCard (wrapSlots up)).census.state = CensusState.doubt
    ∧ (atGate wrapCard (wrapSlots up)).census.waiters = [Waiter.custody]
    ∧ (atGate wrapCard (wrapSlots up)).custody.work = working wrapCard CustodyStage.gate false
    ∧ wrapCard.code = 261#16
    ∧ (atGate wrapCard (wrapSlots up)).slot (wrapCard.slot 1) = some wrapKey
    ∧ wrapKey.state = KeyState.live
    ∧ wrapKey.limit = none
    ∧ wrapKey.material = KeyMaterial.wrap256 5#256
    ∧ (atGate wrapCard (wrapSlots up)).slot (wrapCard.slot 0) = some signKey
    ∧ (gateCred (enrolling 1) (owned up)).powered = true
    ∧ (gateCred (enrolling 1) (owned up)).census.run = some zeroRun
    ∧ (gateCred (enrolling 1) (owned up)).startUp = StartUp.ended
    ∧ (gateCred (enrolling 1) (owned up)).census.state = CensusState.doubt
    ∧ (gateCred (enrolling 1) (owned up)).census.waiters = [Waiter.credential]
    ∧ (gateCred (enrolling 1) (owned up)).credential.service = none
    ∧ (gateCred (enrolling 1) (owned up)).credential.work = working (enrolling 1) CredStage.gate false
    ∧ (gateCred (enrolling 1) (owned up)).lifecycle.presence.isSome = true
    ∧ (enrolling 1).code = 1025#16
    ∧ (enrolling 1).field 1 1 = 0
    ∧ (16 = if (credEnrollFields (enrolling 1)).kind = CredKind.admin then 16 else 28) := by
  unfold State.eventWaits State.quiet State.carries
  repeat' apply And.intro
  all_goals first
    | decide +kernel
    | rfl

/-- What `Obligations.CensusRunsEnd` supposes is met, clause by clause. -/
theorem witness_censusRunsEnd_more :
    (gateCred (enrolling 2) (owned up)).powered = true
    ∧ (gateCred (enrolling 2) (owned up)).census.run = some zeroRun
    ∧ (gateCred (enrolling 2) (owned up)).startUp = StartUp.ended
    ∧ (gateCred (enrolling 2) (owned up)).census.state = CensusState.doubt
    ∧ (gateCred (enrolling 2) (owned up)).census.waiters = [Waiter.credential]
    ∧ (gateCred (enrolling 2) (owned up)).credential.service = none
    ∧ (gateCred (enrolling 2) (owned up)).credential.work = working (enrolling 2) CredStage.gate false
    ∧ (gateCred (enrolling 2) (owned up)).lifecycle.presence.isSome = true
    ∧ (enrolling 2).code = 1025#16
    ∧ (enrolling 2).field 1 1 = 0
    ∧ (28 = if (credEnrollFields (enrolling 2)).kind = CredKind.admin then 16 else 28)
    ∧ (gateCred replacing (State.setCred 31 (some releasable) (owned up))).powered = true
    ∧ (gateCred replacing (State.setCred 31 (some releasable) (owned up))).census.run = some zeroRun
    ∧ (gateCred replacing (State.setCred 31 (some releasable) (owned up))).startUp = StartUp.ended
    ∧ (gateCred replacing (State.setCred 31 (some releasable) (owned up))).census.state = CensusState.doubt
    ∧ (gateCred replacing (State.setCred 31 (some releasable) (owned up))).census.waiters = [Waiter.credential]
    ∧ (gateCred replacing (State.setCred 31 (some releasable) (owned up))).credential.service = none
    ∧ (gateCred replacing (State.setCred 31 (some releasable) (owned up))).credential.work = working replacing CredStage.gate false
    ∧ (gateCred replacing (State.setCred 31 (some releasable) (owned up))).lifecycle.presence.isSome = true
    ∧ replacing.code = 1028#16
    ∧ (gateCred replacing (State.setCred 31 (some releasable) (owned up))).cred replacing.place = some releasable
    ∧ replacing.field 2 1 = 0
    ∧ (28 = if releasable.record.kind = CredKind.releasable then 28 else 16)
    ∧ pairingWaits.powered = true
    ∧ pairingWaits.census.run = some zeroRun
    ∧ pairingWaits.startUp = StartUp.ended
    ∧ pairingWaits.census.state = CensusState.doubt
    ∧ pairingWaits.census.waiters = [Waiter.credential]
    ∧ pairingWaits.credential.service = some (CredService.pairingGate [1#8, 2#8] [] { charge := 4096, decay := 65000, lock := 40000 })
    ∧ (gateLife [Waiter.lifecycle]).powered = true
    ∧ (gateLife [Waiter.lifecycle]).census.run = some zeroRun
    ∧ (gateLife [Waiter.lifecycle]).startUp = StartUp.ended
    ∧ (gateLife [Waiter.lifecycle]).census.state = CensusState.doubt
    ∧ (gateLife [Waiter.lifecycle]).census.waiters = [Waiter.lifecycle]
    ∧ (gateLife [Waiter.lifecycle]).lifecycle.work = working identityCard LifeStage.gate false
    ∧ (atGate genCard (unclaimed up)).carries
    ∧ (atGate genCard (unclaimed up)).quiet Client.census
    ∧ (atGate genCard (unclaimed up)).measure.starting = false
    ∧ (false = true ∨ BitVec.toNat (zeroRun.a + 240#8) < 240 ∨ BitVec.toNat (zeroRun.r + 240#8) < 240
        ∨ BitVec.toNat (zeroRun.b + 207#8) < 208 ∨ 238 < BitVec.toNat (zeroRun.b + 207#8))
    ∧ (gateCred replacing (owned up)).powered = true
    ∧ (gateCred replacing (owned up)).census.run = some zeroRun
    ∧ (gateCred replacing (owned up)).startUp = StartUp.ended
    ∧ (gateCred replacing (owned up)).census.state = CensusState.doubt
    ∧ (gateCred replacing (owned up)).carries
    ∧ (gateCred replacing (owned up)).quiet Client.census
    ∧ (gateCred replacing (owned up)).measure.starting = false
    ∧ (false = true ∨ BitVec.toNat (zeroRun.a + 239#8) < 240 ∨ BitVec.toNat (zeroRun.r + 240#8) < 240
        ∨ BitVec.toNat (zeroRun.b + 207#8) < 208 ∨ 238 < BitVec.toNat (zeroRun.b + 207#8))
    ∧ (gateCred replacing (owned up)).census.waiters = [Waiter.credential]
    ∧ (gateCred replacing (owned up)).credential.service = none
    ∧ (gateCred replacing (owned up)).credential.work = working replacing CredStage.gate false
    ∧ pairingWaits.carries
    ∧ pairingWaits.quiet Client.census
    ∧ pairingWaits.measure.starting = false
    ∧ (true = true ∨ BitVec.toNat (zeroRun.a + 250#8) < 240 ∨ BitVec.toNat (zeroRun.r + 250#8) < 240
        ∨ BitVec.toNat (zeroRun.b + 230#8) < 208 ∨ 238 < BitVec.toNat (zeroRun.b + 230#8))
    ∧ pairingWaits.lifecycle.work = working pairCard LifeStage.pairing true
    ∧ (gateLife [Waiter.lifecycle]).carries
    ∧ (gateLife [Waiter.lifecycle]).quiet Client.census
    ∧ (gateLife [Waiter.lifecycle]).measure.starting = false
    ∧ (false = true ∨ BitVec.toNat (zeroRun.a + 255#8) < 240 ∨ BitVec.toNat (zeroRun.r + 250#8) < 240
        ∨ BitVec.toNat (zeroRun.b + 239#8) < 208 ∨ 238 < BitVec.toNat (zeroRun.b + 239#8))
    ∧ bothGates.powered = true
    ∧ bothGates.census.run = some zeroRun
    ∧ bothGates.startUp = StartUp.ended
    ∧ bothGates.census.state = CensusState.doubt
    ∧ bothGates.carries
    ∧ bothGates.quiet Client.census
    ∧ bothGates.measure.starting = false
    ∧ bothGates.census.waiters = [Waiter.lifecycle, Waiter.custody]
    ∧ bothGates.lifecycle.work = working identityCard LifeStage.gate false
    ∧ bothGates.custody.work
        = working { take := 1, num := genCard.num, ticket := genCard.ticket, code := genCard.code, bytes := genCard.bytes }
        CustodyStage.gate false := by
  unfold State.quiet State.carries
  repeat' apply And.intro
  all_goals first
    | decide +kernel
    | rfl

end Lifecycle

end Sys2Proof.Tests
end

