-- ==== Sys2Proof/Proofs/UnitOps.lean ====
section
/-! SUPPORT. What the operations of the units do where their side conditions are met, once each: handing back a card in work, moving it to
another stage, sending a record to the store, and what surrounds a row. -/
namespace Sys2Proof.Machine

/-! ### Tables -/

@[simp] theorem tableGet_tableSet_same {α : Type} {n : Nat} (v : Vector α n) (i : Fin n) (x : α) : tableGet (tableSet v i x) i = x := by
  simp [tableGet, tableSet]

theorem tableGet_tableSet_ne {α : Type} {n : Nat} (v : Vector α n) {i j : Fin n} (x : α) (h : i ≠ j) :
    tableGet (tableSet v i x) j = tableGet v j := by
  have hv : i.val ≠ j.val := fun e => h (Fin.ext e)
  simp [tableGet, tableSet, hv]

theorem tableSet_get {α : Type} {n : Nat} {v : Vector α n} {i : Fin n} {x : α} (h : tableGet v i = x) : tableSet v i x = v := by
  subst h
  simp [tableGet, tableSet]

/-! ### Handing back -/

/-- What handing back a card does while the area carries outcomes, in the terms of the statements. -/
theorem State.handBack_eq {s : State} (c : Card) (o : CardOutcome) (d : Option Word32) (b : List OutByte) (h : s.carries) :
    s.handBack c o d b = s.givesBack c o d b := by
  rw [State.handBack_carries c o d b h]
  cases d <;> rfl

theorem State.custodyHandBack_eq {s : State} {w : Work CustodyStage} (o : CardOutcome) (d : Option Word32) (b : List OutByte)
    (hw : s.custody.work = some w) (h : s.carries) : s.custodyHandBack o d b =
      { s.givesBack w.card o d b with custody := { s.custody with work := none, undo := none } } := by
  unfold State.custodyHandBack
  rw [hw]
  exact State.handBack_eq w.card o d b h

theorem State.custodyRefuse_eq {s : State} {w : Work CustodyStage} (o : CardOutcome) (hw : s.custody.work = some w) (h : s.carries) :
    s.custodyRefuse o = { s.givesBack w.card o none [] with custody := { s.custody with work := none, undo := none } } :=
  State.custodyHandBack_eq o none [] hw h

theorem State.custodyRefuseSlot_eq {s : State} {w : Work CustodyStage} (o : CardOutcome) (i : Fin 48) (hw : s.custody.work = some w)
    (h : s.carries) : s.custodyRefuseSlot o i =
      { s.givesBack w.card o (some (BitVec.ofNat 32 i.val)) [] with custody := { s.custody with work := none, undo := none } } :=
  State.custodyHandBack_eq o _ [] hw h

/-- A card handed back ABANDONED by the custody unit leaves the table without the use that it completed there. -/
theorem State.custodyGiveUp_eq {s : State} {w : Work CustodyStage} (hw : s.custody.work = some w) (h : s.carries) : s.custodyGiveUp =
    { s.givesBack w.card .abandoned none [] with
      custody := { s.custody with table := s.custody.takenBack, work := none, undo := none } } :=
  State.custodyHandBack_eq (s := s.takeBackUse) .abandoned none [] hw h

theorem State.measureHandBack_eq {s : State} {w : Work MeasureStage} (o : CardOutcome) (d : Option Word32) (b : List OutByte)
    (hw : s.measure.work = some w) (h : s.carries) : s.measureHandBack o d b =
      { s.givesBack w.card o d b with measure := { s.measure with work := none, paused := none } } := by
  unfold State.measureHandBack
  rw [hw]
  exact State.handBack_eq w.card o d b h

theorem State.measureRefuse_eq {s : State} {w : Work MeasureStage} (o : CardOutcome) (hw : s.measure.work = some w) (h : s.carries) :
    s.measureRefuse o = { s.givesBack w.card o none [] with measure := { s.measure with work := none, paused := none } } :=
  State.measureHandBack_eq o none [] hw h

theorem State.credHandBack_eq {s : State} {w : Work CredStage} (o : CardOutcome) (d : Option Word32) (b : List OutByte)
    (hw : s.credential.work = some w) (h : s.carries) : s.credHandBack o d b =
      { s.givesBack w.card o d b with credential := { s.credential with work := none } } := by
  unfold State.credHandBack
  rw [hw]
  exact State.handBack_eq w.card o d b h

theorem State.credRefuse_eq {s : State} {w : Work CredStage} (o : CardOutcome) (hw : s.credential.work = some w) (h : s.carries) :
    s.credRefuse o = { s.givesBack w.card o none [] with credential := { s.credential with work := none } } :=
  State.credHandBack_eq o none [] hw h

theorem State.lifeHandBack_eq {s : State} {w : Work LifeStage} (o : CardOutcome) (d : Option Word32) (b : List OutByte)
    (hw : s.lifecycle.work = some w) (h : s.carries) : s.lifeHandBack o d b =
      { s.givesBack w.card o d b with lifecycle := { s.lifecycle with work := none } } := by
  unfold State.lifeHandBack
  rw [hw]
  exact State.handBack_eq w.card o d b h

theorem State.lifeRefuse_eq {s : State} {w : Work LifeStage} (o : CardOutcome) (hw : s.lifecycle.work = some w) (h : s.carries) :
    s.lifeRefuse o = { s.givesBack w.card o none [] with lifecycle := { s.lifecycle with work := none } } :=
  State.lifeHandBack_eq o none [] hw h

theorem State.updateRelease_eq {s : State} {w : Work UpdateStage} (o : CardOutcome) (d : Option Word32) (b : List OutByte)
    (hw : s.update.work = some w) (h : s.carries) : s.updateRelease o d b =
      { s.givesBack w.card o d b with update := { s.update with work := none } } := by
  unfold State.updateRelease
  rw [hw]
  exact State.handBack_eq w.card o d b h

/-- With no wipe order held, none becomes free (R89). -/
theorem State.heldWipeIsFree_not_held {s : State} (h : s.update.wipe ≠ .held) : s.heldWipeIsFree = false := by
  simp [State.heldWipeIsFree, h]

theorem State.serveHeldWipe_not_held {s : State} (h : s.update.wipe ≠ .held) : s.serveHeldWipe = s := by
  simp [State.serveHeldWipe, State.heldWipeIsFree_not_held h]

theorem State.updateHandBack_eq {s : State} {w : Work UpdateStage} (o : CardOutcome) (d : Option Word32) (b : List OutByte)
    (hw : s.update.work = some w) (h : s.carries) (hh : s.update.wipe ≠ .held) : s.updateHandBack o d b =
      { s.givesBack w.card o d b with update := { s.update with work := none } } := by
  unfold State.updateHandBack
  rw [State.updateRelease_eq o d b hw h]
  exact State.serveHeldWipe_not_held hh

theorem State.updateRefuse_eq {s : State} {w : Work UpdateStage} (o : CardOutcome)
    (hw : s.update.work = some w) (h : s.carries) (hh : s.update.wipe ≠ .held) : s.updateRefuse o =
      { s.givesBack w.card o none [] with update := { s.update with work := none } } :=
  State.updateHandBack_eq o none [] hw h hh

/-! ### Sending -/

/-- A block with nothing else to send sends the write of a record that is no credential record's (R160). -/
theorem State.send_plainWrite {s : State} {c : Client} {w : Write} {t : WriteTo} (h : s.storeRoom c) (hc : c ≠ .updateAsk)
    (hw : ∀ i v, w ≠ .cred i v) : s.send c [.write w t] = { s.commitCard t with store := s.store.queued w t } := by
  have hout : (s.enqueue w t).outboxes.get c = [] := by
    rw [State.enqueue_plain s w t hw]
    refine Eq.trans ?_ h.1.1
    cases t <;> rfl
  rw [State.send_write w t h hc hout, State.enqueue_plain s w t hw]

/-- With no requester waiting, room in the store's queue goes to nobody (R160). -/
theorem State.pumpStore_none {s : State} (n : Nat) (h : s.store.waiting = []) : State.pumpStore n s = s := by
  cases n with
  | zero => rfl
  | succ n => unfold State.pumpStore; rw [h]

/-- With no block waiting, no request joins the measure unit's list (R38). -/
theorem State.pumpMeasure_none {s : State} (n : Nat) (h : s.measureWaiting = []) : State.pumpMeasure n s = s := by
  cases n with
  | zero => rfl
  | succ n => unfold State.pumpMeasure; rw [h]

theorem State.attemptWaits_noWork {s : State} (h : s.credential.work = none) : s.attemptWaits = false := by
  unfold State.attemptWaits
  rw [h]

/-- No attempt goes on where none waits for a write (R98). -/
theorem State.resumeAttempt_none {s : State} (h : s.attemptWaits = false) : s.resumeAttempt = s := by
  unfold State.attemptWaits at h
  unfold State.resumeAttempt
  cases hw : s.credential.work with
  | none => rfl
  | some w =>
    rw [hw] at h
    rcases w with ⟨c, stage, a, m, x⟩
    cases stage with
    | awaitRecord _ _ => cases h
    | _ => rfl

/-- The end of a write that nobody waits behind takes it from the queue, and does no more (R160). -/
theorem State.leaveQueue_none {s : State} (h : s.store.waiting = []) (hr : s.attemptWaits = false) :
    s.leaveQueue = { s with store := { s.store with queue := s.store.queue.tail } } :=
  (congrArg State.resumeAttempt
    (State.pumpStore_none (s := { s with store := { s.store with queue := s.store.queue.tail } }) _ h)).trans
    (State.resumeAttempt_none hr)

/-! ### The end of a store write -/

/-- The part when a write has been programmed: the store's records as the write leaves them, and STORE FAULT asked for, or held back,
where it has failed (R161, R165). -/
def State.programmed (s : State) (w : Write) (first second : Bool) : State :=
  let t : State := { s with store := (s.store.program w first second).1 }
  if s.endsDone w first second then t else t.askStoreFault

/-- A write leaves the store's queue and its waiting requesters to the steps around it. -/
theorem Store.program_queue (st : Store) (w : Write) (first second : Bool) :
    (st.program w first second).1.queue = st.queue ∧ (st.program w first second).1.waiting = st.waiting
      ∧ (st.program w first second).1.startUpFault = st.startUpFault := by
  cases w <;> exact ⟨rfl, rfl, rfl⟩

theorem State.programmed_done {s : State} {w : Write} {first second : Bool} (h : s.endsDone w first second = true) :
    s.programmed w first second = { s with store := (s.store.program w first second).1 } := if_pos h

/-- The end of a failed write after start-up asks for STORE FAULT (R161). -/
theorem State.programmed_fault {s : State} {w : Write} {first second : Bool} (h : s.endsDone w first second = false)
    (he : s.startUp = .ended) (hr : s.resetLine = false) (hl : s.linkUp = true) :
    s.programmed w first second = ({ s with store := (s.store.program w first second).1 } : State).storeFaulted := by
  unfold State.programmed State.askStoreFault
  rw [h]
  simp only [Bool.false_eq_true, if_false, he, hr, State.ask_eq, hl, if_true]
  simp
  rfl

/-- The end of a failed write in reset or before the end of start-up sets the start-up fault flag, and asks for nothing (R163, R165). -/
theorem State.programmed_held {s : State} {w : Write} {first second : Bool} (h : s.endsDone w first second = false)
    (hr : s.resetLine = true ∨ s.startUp ≠ .ended) :
    s.programmed w first second = { s with store := { (s.store.program w first second).1 with startUpFault := true } } := by
  have hx : (s.resetLine || decide (s.startUp ≠ .ended)) = true := by obtain hr | hr := hr <;> simp [hr]
  unfold State.programmed State.askStoreFault
  rw [h]
  exact if_pos hx

/-- The end of a write whose record's entry, if it is a credential record's, counts no write: its requester is answered, and the write
leaves the queue (R160, R161). -/
theorem exec_storeWriteEnd_answered {s t : State} {w : Write} {a : WriteTo} {rest more : List WriteRequest} {first second : Bool}
    (hp : s.powered = true) (hq : s.store.queue = { write := w, answerTo := a } :: rest)
    (ho : (s.programmed w first second).credWriteOver w = s.programmed w first second)
    (ha : (s.programmed w first second).answerWrite { write := w, answerTo := a } (s.endsDone w first second) = t)
    (hw : t.store.waiting = []) (hc : t.attemptWaits = false) (hm : t.store.queue.tail = more) :
    exec (.storeWriteEnd first second) s = .next { t with store := { t.store with queue := more } } := by
  have e : s.storeWriteEnd first second = t.leaveQueue := by
    unfold State.storeWriteEnd
    rw [hq, ← ha, ← ho]
    rfl
  show Host.Outcome.next (s.whenPowered _) = _
  unfold State.whenPowered
  rw [if_pos hp, e, State.leaveQueue_none hw hc, hm]

/-- A write that is no credential record's counts at no entry. -/
theorem State.credWriteOver_plain (s : State) {w : Write} (hn : ∀ i v, w ≠ .cred i v) : s.credWriteOver w = s := by
  cases w with
  | cred i v => exact absurd rfl (hn i v)
  | _ => rfl

/-- The end of a write that is no credential record's (R160, R161). -/
theorem exec_storeWriteEnd {s t : State} {w : Write} {a : WriteTo} {rest more : List WriteRequest} {first second : Bool}
    (hp : s.powered = true) (hq : s.store.queue = { write := w, answerTo := a } :: rest) (hn : ∀ i v, w ≠ .cred i v)
    (ha : (s.programmed w first second).answerWrite { write := w, answerTo := a } (s.endsDone w first second) = t)
    (hw : t.store.waiting = []) (hc : t.attemptWaits = false) (hm : t.store.queue.tail = more) :
    exec (.storeWriteEnd first second) s = .next { t with store := { t.store with queue := more } } :=
  exec_storeWriteEnd_answered hp hq (State.credWriteOver_plain _ hn) ha hw hc hm

end Sys2Proof.Machine
end

