-- ==== Sys2Proof/Proofs/CustodyOps.lean ====
section
/-! SUPPORT. The custody unit's operations where their side conditions are met: a card begun, the use check, the creation checks, the
randomness gate, the placing of a record and the completion of a use. -/
namespace Sys2Proof.Machine

/-! ### A card begun -/

/-- The part with a card of the custody unit begun, before the first of its checks (R178). -/
def State.custodyBegun (s : State) (c : Card) : State :=
  { s with custody := { s.custody with work := working c .gate false, undo := none }, exch := s.exch.begun c }

theorem State.beginCustody_eq {s : State} {code : Word16} {c : Card} (body : Card → State → State) (h : s.custodyReady code = some c) :
    s.beginCustody code body = body c (s.custodyBegun c) := by
  unfold State.beginCustody
  rw [h]
  rfl

@[simp] theorem State.custodyBegun_slot (s : State) (c : Card) (i : Fin 48) : (s.custodyBegun c).slot i = s.slot i := rfl

theorem State.custodyBegun_work (s : State) (c : Card) : (s.custodyBegun c).custody.work = working c .gate false := rfl

/-- A refusal in the step that begins the card: one act at the exchange, and nothing else but the free value of a detail word without a
stated value. -/
theorem State.custodyBegun_refused {s : State} (c : Card) (o : CardOutcome) (d : Word32) (h : s.carries) :
    (s.custodyBegun c).custodyHandBack o (some d) [] = { s with
      custody := { s.custody with work := none, undo := none }
      exch := s.exch.answered c o d [] } :=
  State.custodyHandBack_eq o (some d) [] (State.custodyBegun_work s c) h

theorem State.custodyBegun_refused_free {s : State} (c : Card) (o : CardOutcome) (h : s.carries) :
    (s.custodyBegun c).custodyRefuse o = { s with
      custody := { s.custody with work := none, undo := none }
      exch := s.exch.answered c o (Config.freeWord s.free) []
      free := s.free + 1 } :=
  State.custodyHandBack_eq o none [] (State.custodyBegun_work s c) h

/-! ### The use check (R11) -/

/-- The first four checks of a use pass where `mayUse` holds. -/
theorem State.useRefusal_none {s : State} {use : KeyUse} {i : Fin 48} {r : KeyRecord} (hs : s.slot i = some r) (h : s.mayUse use r) :
    s.useRefusal use i = none := by
  obtain ⟨hspent, hflags, hwiping, hpresence⟩ := h
  have hw : ¬(r.cls = .owner ∧ s.lifecycle.pending = true) := fun ⟨hc, hp⟩ => by simp [hwiping hc] at hp
  have hn : ¬(r.flags.needsPresence = true ∧ s.presenceOpen = false) := fun ⟨hf, hp⟩ => by
    simp [State.presenceOpen, hpresence hf] at hp
  unfold State.useRefusal
  rw [hs]
  simp only [hspent, hflags, hw, hn, if_false, Bool.true_eq_false]

/-- The use check of an unbound slot that passes it goes on at once. -/
theorem State.useCheck_unbound {s : State} {use : KeyUse} {i : Fin 48} {r : KeyRecord} (next : State → State) (hs : s.slot i = some r)
    (h : s.mayUse use r) (hb : r.binding = none) : s.useCheck use i next = next s := by
  unfold State.useCheck
  rw [State.useRefusal_none hs h, hs]
  simp only [Option.bind_some, hb]

/-- The use check of a bound slot sends a binding check, and the card waits for its answer. -/
theorem State.useCheck_bound {s : State} {use : KeyUse} {i : Fin 48} {r : KeyRecord} {b : Binding} (next : State → State)
    (hs : s.slot i = some r) (h : s.mayUse use r) (hb : r.binding = some b) (hroom : s.measureRoom .custodyAsk) :
    s.useCheck use i next = { s.custodyStage (.binding use) with measure := s.measure.asked (.check .custody b true) } := by
  unfold State.useCheck
  rw [State.useRefusal_none hs h, hs]
  simp only [Option.bind_some, hb]
  exact State.send_check (s := s.custodyStage (.binding use)) .custody b true hroom (by decide)

theorem State.useCheck_refused {s : State} {use : KeyUse} {i : Fin 48} {o : CardOutcome} (next : State → State)
    (h : s.useRefusal use i = some o) : s.useCheck use i next = s.custodyRefuseSlot o i := by
  unfold State.useCheck
  rw [h]

/-! ### Creation (R7) and the gate (R10) -/

theorem State.ownerRefusal_none {s : State} (he : s.lifecycle.effective = .claimed) (hp : s.lifecycle.pending = false)
    (ho : s.lifecycle.presence.isSome = true) : s.ownerRefusal = none := by
  simp [State.ownerRefusal, State.presenceOpen, he, hp, ho]

/-- A slot that can take a key of a class passes checks 1 to 3 of R7. -/
theorem State.creationChecks_pass {s : State} {f : CreateFields} {n : Nat} (next : State → State) (h : s.mayCreate f.cls f.target) :
    s.creationChecks f n next = next s := by
  obtain ⟨hregion, hempty, -, -⟩ := h
  have hfits : classFits f.cls f.target = true := by
    obtain ⟨hc, hi⟩ | ⟨hc | hc, hlo, hhi⟩ := hregion <;> simp [classFits, hc] <;> omega
  have hfixed : isFixed f.target = false := by
    obtain ⟨-, hi⟩ | ⟨-, hlo, -⟩ := hregion <;> simp [isFixed] <;> omega
  simp [State.creationChecks, hfits, hfixed, hempty]

/-- A slot that can take a key of a class passes checks 5 and 6 of R7. -/
theorem State.creationRefusal_none {s : State} {cls : KeyClass} {i : Fin 48} (h : s.mayCreate cls i) : s.creationRefusal cls = none := by
  obtain ⟨-, -, hblank, howner⟩ := h
  unfold State.creationRefusal
  rw [if_neg hblank]
  split
  · rfl
  · next hc =>
    obtain ⟨he, hp, ho⟩ := howner (not_not.mp hc)
    exact State.ownerRefusal_none he hp ho

theorem State.custodyGate_healthy {s : State} (next : State → State) (h : s.census.state = .healthy) : s.custodyGate next = next s := by
  simp [State.custodyGate, State.gate, h]

theorem State.custodyGate_doubt {s : State} (next : State → State) (h : s.census.state = .doubt) :
    s.custodyGate next = (s.custodyStage .gate).joinWaiters .custody := by
  simp [State.custodyGate, State.gate, h]

theorem State.custodyGate_failed {s : State} (next : State → State) (h : s.census.state = .failed) :
    s.custodyGate next = s.custodyRefuse .entropy := by
  simp [State.custodyGate, State.gate, h]

/-! ### Records sent to the store (R8, R12) -/

theorem storeSlot_persistent {i : Fin 48} {j : Fin 32} (h : i.val = j.val) : storeSlot i = some j := by
  simp [storeSlot, h]

theorem storeSlot_volatile {i : Fin 48} (h : 32 ≤ i.val) : storeSlot i = none := by
  have hi : ¬i.val < 32 := by omega
  simp [storeSlot, hi]

/-- A card in work sends the record of a slot to the store and is committed. -/
theorem State.custodySend_eq {s : State} {w : Work CustodyStage} (x : CustodyStage) (j : Fin 32) (v : Option KeyRecord)
    (hw : s.custody.work = some w) (hr : s.storeRoom .custody) :
    (s.custodyStage x).send .custody [.write (.slot j v) .custodyCard] = { s with
      custody := { s.custody with work := some { w with stage := x, committed := true } }
      store := s.store.queued (.slot j v) .custodyCard } := by
  rw [State.send_plainWrite (s := s.custodyStage x) hr (by decide) (by intro i u; simp)]
  unfold State.commitCard State.custodyStage
  simp only [hw]
  rfl

theorem State.custodyPlace_volatile {s : State} {i : Fin 48} (v : Option KeyRecord) (fd d : Option Word32) (b : List OutByte)
    (h : 32 ≤ i.val) : s.custodyPlace i v fd d b = (s.setSlot i v).custodyHandBack .done d b := by
  unfold State.custodyPlace
  rw [storeSlot_volatile h]

theorem State.custodyPlace_persistent {s : State} {w : Work CustodyStage} {i : Fin 48} {j : Fin 32} (v : Option KeyRecord)
    (fd d : Option Word32) (b : List OutByte) (h : i.val = j.val) (hw : s.custody.work = some w) (hr : s.storeRoom .custody) :
    s.custodyPlace i v fd d b = { s with
      custody := { s.custody with work := some { w with stage := .record i v fd (.settle .done d b), committed := true } }
      store := s.store.queued (.slot j v) .custodyCard } := by
  unfold State.custodyPlace
  rw [storeSlot_persistent h]
  exact State.custodySend_eq _ j v hw hr

/-! ### The completion of a use (R12) -/

theorem State.custodyThen_settle (s : State) (o : CardOutcome) (d : Option Word32) (b : List OutByte) :
    s.custodyThen (.settle o d b) = s.custodyHandBack o d b := rfl

/-- The record after one use, in the terms of the statements. -/
theorem KeyRecord.used_eq (r : KeyRecord) : r.used = usedOnce r := by
  unfold KeyRecord.used usedOnce satAdd
  cases r.limit with
  | none => rfl
  | some l =>
    have h : (l.remaining - 1 = 0) ↔ l.remaining ≤ 1 := by omega
    simp [h]

theorem KeyRecord.useIsWritten_iff {r : KeyRecord} : r.useIsWritten = true ↔ r.state ≠ .live ∨ r.limit ≠ none := by
  simp [KeyRecord.useIsWritten, Option.isSome_iff_ne_none]

/-- A use that R12 completes in the table alone. -/
theorem State.completeUse_inTable {s : State} {i : Fin 48} {r : KeyRecord} (fd : Option Word32) (x : CustodyThen)
    (hs : s.slot i = some r) (h : 32 ≤ i.val ∨ (r.state = .live ∧ r.limit = none)) : s.completeUse i fd x =
      ({ s with custody := { s.custody with
        table := tableSet s.custody.table i (some (usedOnce r)), undo := some (i, r) } } : State).custodyThen x := by
  have hj : (if r.useIsWritten then storeSlot i else none) = none := by
    obtain hv | ⟨hl, hn⟩ := h
    · simp [storeSlot_volatile hv]
    · simp [KeyRecord.useIsWritten, hl, hn]
  unfold State.completeUse
  rw [hs]
  simp only [hj, KeyRecord.used_eq]
  rfl

/-- A use that R12 writes to the store first. -/
theorem State.completeUse_written {s : State} {w : Work CustodyStage} {i : Fin 48} {j : Fin 32} {r : KeyRecord} (fd : Option Word32)
    (x : CustodyThen) (hs : s.slot i = some r) (hi : i.val = j.val) (h : r.state ≠ .live ∨ r.limit ≠ none)
    (hw : s.custody.work = some w) (hr : s.storeRoom .custody) : s.completeUse i fd x = { s with
      custody := { s.custody with work := some { w with stage := .record i (some (usedOnce r)) fd x, committed := true } }
      store := s.store.queued (.slot j (some (usedOnce r))) .custodyCard } := by
  unfold State.completeUse
  rw [hs]
  simp only [KeyRecord.useIsWritten_iff.mpr h, if_true, storeSlot_persistent hi, KeyRecord.used_eq]
  exact State.custodySend_eq _ j _ hw hr

/-- The custody unit's card in work, as given. -/
def State.custodyInWork (s : State) (w : Work CustodyStage) : State := { s with custody := { s.custody with work := some w } }

/-- A counted use whose result has come is committed: no field but the card's commitment changes (R24). -/
theorem State.custodyCommitCounted_eq {s : State} {w : Work CustodyStage} (i : Fin 48) (hw : s.custody.work = some w) :
    ∃ m, s.custodyCommitCounted i = s.custodyInWork { w with committed := m } := by
  unfold State.custodyCommitCounted State.custodyInWork
  split
  · exact ⟨true, by unfold State.custodyCommit; rw [hw]; rfl⟩
  · exact ⟨w.committed, by rw [← hw]⟩

/-- A signature or a code that has come for a use that R12 completes in the table alone: the card settles DONE. -/
theorem State.useResult_inTable {s : State} {w : Work CustodyStage} {i : Fin 48} {r : KeyRecord} (b : List OutByte)
    (hw : s.custody.work = some w) (hs : s.slot i = some r) (h : 32 ≤ i.val ∨ (r.state = .live ∧ r.limit = none)) (hc : s.carries) :
    (s.custodyCommitCounted i).completeUse i none (.settle .done none b) = { s.givesBack w.card .done none b with
      custody := { s.custody with table := tableSet s.custody.table i (some (usedOnce r)), work := none, undo := none } } := by
  obtain ⟨m, e⟩ := State.custodyCommitCounted_eq i hw
  rw [e, State.completeUse_inTable (s := s.custodyInWork { w with committed := m }) none _ hs h, State.custodyThen_settle]
  rw [State.custodyHandBack_eq (w := { w with committed := m }) .done none b ?_ ?_]
  · rfl
  · rfl
  · exact hc

/-- A signature or a code that has come for a use that R12 writes first: the card waits for the write of its record. -/
theorem State.useResult_written {s : State} {w : Work CustodyStage} {i : Fin 48} {j : Fin 32} {r : KeyRecord} (b : List OutByte)
    (hw : s.custody.work = some w) (hs : s.slot i = some r) (hi : i.val = j.val) (h : r.state ≠ .live ∨ r.limit ≠ none)
    (hr : s.storeRoom .custody) : (s.custodyCommitCounted i).completeUse i none (.settle .done none b) = { s with
      custody := { s.custody with
        work := some { w with stage := .record i (some (usedOnce r)) none (.settle .done none b), committed := true } }
      store := s.store.queued (.slot j (some (usedOnce r))) .custodyCard } := by
  obtain ⟨m, e⟩ := State.custodyCommitCounted_eq i hw
  rw [e, State.completeUse_written (s := s.custodyInWork { w with committed := m }) none _ hs hi h rfl hr]
  rfl

end Sys2Proof.Machine
end

