-- ==== Sys2Proof/Proofs/KeyUses.lean ====
section
/-! SUPPORT. KEY SIGN and KEY MAC: their beginning, and what the end of a KEY MAC's piece brings (R11 to R14, R140 to R142). -/
namespace Sys2Proof.Machine

/-! ### Beginning -/

theorem exec_keySign {s : State} {c : Card} (h : s.custodyReady 0x0103#16 = some c) (hf : keySignForm c = none) :
    exec .keySign s = .next ((s.custodyBegun c).useCheck .sign (c.slot 0) (State.signStart c)) := by
  show Host.Outcome.next (s.beginCustody _ _) = _
  rw [State.beginCustody_eq _ h]
  unfold State.keySign
  rw [hf]

theorem exec_keyMac {s : State} {c : Card} (h : s.custodyReady 0x0104#16 = some c) (hf : keyMacForm c = none) :
    exec .keyMac s = .next ((s.custodyBegun c).useCheck .mac (c.slot 0) (State.macStart c)) := by
  show Host.Outcome.next (s.beginCustody _ _) = _
  rw [State.beginCustody_eq _ h]
  unfold State.keyMac
  rw [hf]

theorem State.scalarOf_eq {s : State} {i : Fin 48} {r : KeyRecord} {k : Scalar} {pub : PublicKey} (hs : s.slot i = some r)
    (hm : r.material = .p256 (some k) pub) : s.scalarOf i = k := by
  simp [State.scalarOf, hs, hm, KeyMaterial.scalar]

theorem State.macKeyOf_eq {s : State} {i : Fin 48} {r : KeyRecord} {k : Key256} (hs : s.slot i = some r)
    (hm : r.material = .hmac256 k) : s.macKeyOf i = k := by
  simp [State.macKeyOf, hs, hm, KeyMaterial.macKey]

/-- The first check of the use check that fails names the refusal (R11). -/
theorem State.useRefusal_empty {s : State} {use : KeyUse} {i : Fin 48} (h : s.slot i = none) :
    s.useRefusal use i = some .slotEmpty := by
  unfold State.useRefusal
  rw [h]

theorem State.useRefusal_spent {s : State} {use : KeyUse} {i : Fin 48} {r : KeyRecord} (hs : s.slot i = some r)
    (h : r.state = .spent) : s.useRefusal use i = some .spent := by
  unfold State.useRefusal
  rw [hs]
  exact if_pos h

theorem State.useRefusal_notPermitted {s : State} {use : KeyUse} {i : Fin 48} {r : KeyRecord} (hs : s.slot i = some r)
    (h : r.state ≠ .spent) (hf : r.flags.permits use = false) : s.useRefusal use i = some .notPermitted := by
  unfold State.useRefusal
  rw [hs]
  simp [h, hf]

theorem State.useRefusal_wiping {s : State} {use : KeyUse} {i : Fin 48} {r : KeyRecord} (hs : s.slot i = some r)
    (h : r.state ≠ .spent) (hf : r.flags.permits use = true) (hc : r.cls = .owner) (hp : s.lifecycle.pending = true) :
    s.useRefusal use i = some .wiping := by
  unfold State.useRefusal
  rw [hs]
  simp [h, hf, hc, hp]

theorem State.useRefusal_needsPresence {s : State} {use : KeyUse} {i : Fin 48} {r : KeyRecord} (hs : s.slot i = some r)
    (h : r.state ≠ .spent) (hf : r.flags.permits use = true) (hw : r.cls ≠ .owner ∨ s.lifecycle.pending = false)
    (hn : r.flags.needsPresence = true) (hp : s.lifecycle.presence = none) : s.useRefusal use i = some .needsPresence := by
  have hw' : ¬(r.cls = .owner ∧ s.lifecycle.pending = true) := by
    rintro ⟨hc, hx⟩
    obtain hw | hw := hw
    · exact hw hc
    · simp [hw] at hx
  unfold State.useRefusal
  rw [hs]
  simp [h, hf, hw', hn, State.presenceOpen, hp]

/-! ### The pieces of a KEY MAC -/

/-- The state in which the client of a piece takes the notice of its end (R142). -/
def State.atPieceEnd (s : State) (h : HostWrites) (c : HashClient) : State :=
  { s with host := Memory.hostStores s.host h, hash := { s.hash with pointer := c } }

/-- The end of a piece after start-up: what it brings its client, and the next grant. -/
theorem exec_hashPieceEnd_ended {s u : State} {run : HashRun} {answered ok : Bool} (h : HostWrites) (hp : s.powered = true)
    (hr : s.hash.running = some run) (hok : (answered && s.linkUp && !s.readCut run.client) = ok)
    (hu : (s.atPieceEnd h run.client).pieceEnded run ok = u)
    (he : u.startUp = .ended) : exec (.hashPieceEnd h answered) s = .next { u with hash := u.hash.release } := by
  rw [exec_hashPieceEnd h answered hp hr, hok]
  refine (congrArg (fun v : State => Host.Outcome.next ({ v with hash := v.hash.release } : State).startUpGoesOn) hu).trans ?_
  exact congrArg Host.Outcome.next (State.startUpGoesOn_ended he)

theorem State.readCut_custody {s : State} {w : Work CustodyStage} (hw : s.custody.work = some w) : s.readCut .custody = w.cut := by
  unfold State.readCut State.isCut
  rw [hw]
  rfl

/-- KEY MAC's job: an HMAC over the extents that are left, behind the bytes taken in (R14, R139). -/
def macJob (k : Key256) (before : List Byte) (left : List (Nat × Word64 × Nat)) : HashJob :=
  { fn := .hmac k, absorbed := before, source := .extents left, finalize := true }

/-- The piece of a KEY MAC that is in progress. -/
def macRun (k : Key256) (before : List Byte) (left : List (Nat × Word64 × Nat)) : HashRun :=
  { client := .custody, withdrawn := false, job := macJob k before left }

/-- A read of KEY MAC's extents that has failed: the job ends, and the card is refused LINK FAULT (R25, R140). -/
theorem State.macPiece_fails {s : State} {w : Work CustodyStage} (k : Key256) (before : List Byte) (left : List (Nat × Word64 × Nat))
    (hw : s.custody.work = some w) (hst : w.stage = .mac) (ha : s.carries) : s.pieceEnded (macRun k before left) false =
      { s.givesBack w.card .linkFault none [] with custody := { s.custody with work := none, undo := none } } := by
  have hend : s.pieceEnded (macRun k before left) false = s.custodyHashFault (ByteSource.extents left).extent := rfl
  rw [hend]
  unfold State.custodyHashFault
  simp only [hw, hst]
  exact State.custodyRefuse_eq .linkFault hw ha

/-- The last piece of KEY MAC's job brings the code over all the bytes taken in (R139, R142). -/
theorem State.macPiece_ends {s : State} {w : Work CustodyStage} (k : Key256) (before : List Byte) (x : Nat) (a : Word64) {n : Nat}
    (hn : n ≤ 4096) (hw : s.custody.work = some w) (hst : w.stage = .mac) : s.pieceEnded (macRun k before [(x, a, n)]) true =
      (s.custodyCommitCounted (w.card.slot 0)).completeUse (w.card.slot 0) none (.settle .done none
        (outBytes (strBytes (Config.hmacSha256 k (before ++ Memory.readBytes s.host a.toNat n))))) := by
  have hend : s.pieceEnded (macRun k before [(x, a, n)]) true
      = s.custodyHashEnd (Config.hmacSha256 k (before ++ Memory.readBytes s.host a.toNat n)) := by
    simp [State.pieceEnded, macRun, macJob, HashJob.afterPiece, HashJob.pieceBytes, ByteSource.afterPiece, ByteSource.isEmpty, pieceSize,
      hn, State.pieceNotice, State.jobEnded, State.hashEnded, HashJob.result]
  rw [hend]
  unfold State.custodyHashEnd
  simp only [hw, hst]

/-- A piece of KEY MAC's job that is not its last: the bytes are taken in, and the job waits again with the rest of its extents (R140,
R141). -/
theorem State.macPiece_goesOn (s : State) (k : Key256) (before : List Byte) (x n : Nat) (a : Word64) (rest : List (Nat × Word64 × Nat))
    (h : 4096 < n ∨ rest ≠ []) : s.pieceEnded (macRun k before ((x, a, n) :: rest)) true = { s with hash := { s.hash with
      custody := some (macJob k (before ++ Memory.readBytes s.host a.toNat (min n 4096))
        (if n ≤ 4096 then rest else (x, a + 4096#64, n - 4096) :: rest)) } } := by
  by_cases hn : n ≤ 4096
  · have hrest : rest ≠ [] := h.resolve_left (by omega)
    simp [State.pieceEnded, macRun, macJob, HashJob.afterPiece, HashJob.pieceBytes, ByteSource.afterPiece, ByteSource.isEmpty, pieceSize,
      hn, hrest, State.pieceNotice, State.pieceGoesOn, HashEngine.setWaiting]
  · simp [State.pieceEnded, macRun, macJob, HashJob.afterPiece, HashJob.pieceBytes, ByteSource.afterPiece, ByteSource.isEmpty, pieceSize,
      hn, State.pieceNotice, State.pieceGoesOn, HashEngine.setWaiting]

/-- The answer to a read of a card's extents counts when it came over a link that was up throughout (R140, R186). -/
theorem accessMade_false {answered link cut : Bool} (h : answered = false ∨ link = false ∨ cut = true) :
    (answered && link && !cut) = false := by
  obtain rfl | rfl | rfl := h <;> simp

/-- Settles O21, from the use check's lemmas and those of KEY MAC's pieces. -/
theorem keySignAndKeyMacBeginOrAreRefused : Obligations.KeySignAndKeyMacBeginOrAreRefused := by
  refine ⟨?sign, ?mac, ?refused, ?ends, ?goesOn⟩
  case sign =>
    intro s c r k pub h hf hs hu hm
    rw [exec_keySign h hf]
    refine ⟨fun hb => ?_, fun b hb hroom => ?_⟩
    · rw [State.useCheck_unbound (s := s.custodyBegun c) _ hs hu hb, State.signStart, State.scalarOf_eq (s := s.custodyBegun c) hs hm]
      rfl
    · rw [State.useCheck_bound (s := s.custodyBegun c) _ hs hu hb hroom]
      rfl
  case mac =>
    intro s c r k h hf hs hu hm
    rw [exec_keyMac h hf]
    refine ⟨fun hb => ?_, fun b hb hroom => ?_⟩
    · rw [State.useCheck_unbound (s := s.custodyBegun c) _ hs hu hb, State.macStart, State.macKeyOf_eq (s := s.custodyBegun c) hs hm]
      rfl
    · rw [State.useCheck_bound (s := s.custodyBegun c) _ hs hu hb hroom]
      rfl
  case refused =>
    intro i code form use s c hi h hf hcarry refused
    have hrefused : ∀ o, (s.custodyBegun c).useRefusal use (c.slot 0) = some o → refused o := by
      intro o ho
      have hexec : ∃ next, exec i s = .next ((s.custodyBegun c).useCheck use (c.slot 0) next) := by
        obtain ⟨rfl, rfl, rfl, rfl⟩ | ⟨rfl, rfl, rfl, rfl⟩ := hi
        · exact ⟨_, exec_keySign h hf⟩
        · exact ⟨_, exec_keyMac h hf⟩
      obtain ⟨next, e⟩ := hexec
      show exec i s = _
      rw [e, State.useCheck_refused next ho]
      exact congrArg Host.Outcome.next (State.custodyBegun_refused c o _ hcarry)
    refine ⟨fun hs => hrefused _ (State.useRefusal_empty hs), fun r hs => ⟨?_, ?_, ?_, ?_⟩⟩
    · exact fun hst => hrefused _ (State.useRefusal_spent hs hst)
    · exact fun hst hfl => hrefused _ (State.useRefusal_notPermitted hs hst hfl)
    · exact fun hst hfl hc hp => hrefused _ (State.useRefusal_wiping hs hst hfl hc hp)
    · exact fun hst hfl hw hn hp => hrefused _ (State.useRefusal_needsPresence hs hst hfl hw hn hp)
  case ends =>
    intro s h answered cut c r k before x n a hp he hr hw hs hn hcarry mac u
    have hcut : s.readCut .custody = cut := State.readCut_custody hw
    refine ⟨?_, fun hbad => ?_⟩
    · rintro rfl hlink rfl
      have hok : (true && s.linkUp && !s.readCut .custody) = true := by simp [hlink, hcut]
      refine ⟨fun htable => ?_, fun j hj hwritten hroom => ?_⟩
      · have hu := (State.macPiece_ends (s := s.atPieceEnd h .custody) k before x a hn hw rfl).trans
          (State.useResult_inTable (s := s.atPieceEnd h .custody) _ hw hs htable hcarry)
        exact exec_hashPieceEnd_ended (run := macRun k before [(x, a, n)]) h hp hr hok hu he
      · have hu := (State.macPiece_ends (s := s.atPieceEnd h .custody) k before x a hn hw rfl).trans
          (State.useResult_written (s := s.atPieceEnd h .custody) _ hw hs hj hwritten hroom)
        exact exec_hashPieceEnd_ended (run := macRun k before [(x, a, n)]) h hp hr hok hu he
    · have hok : (answered && s.linkUp && !s.readCut .custody) = false := by rw [hcut]; exact accessMade_false hbad
      have hu := State.macPiece_fails (s := s.atPieceEnd h .custody) k before [(x, a, n)] hw rfl hcarry
      exact exec_hashPieceEnd_ended (run := macRun k before [(x, a, n)]) h hp hr hok hu he
  case goesOn =>
    intro s h answered cut c k before x n a rest hp he hr hw hmore found e left
    have hcut : s.readCut .custody = cut := State.readCut_custody hw
    refine ⟨?_, fun hbad hcarry => ?_⟩
    · rintro rfl hlink rfl
      have hok : (true && s.linkUp && !s.readCut .custody) = true := by simp [hlink, hcut]
      have hu := State.macPiece_goesOn (s.atPieceEnd h .custody) k before x n a rest hmore
      exact exec_hashPieceEnd_ended (run := macRun k before ((x, a, n) :: rest)) h hp hr hok hu he
    · have hok : (answered && s.linkUp && !s.readCut .custody) = false := by rw [hcut]; exact accessMade_false hbad
      have hu := State.macPiece_fails (s := s.atPieceEnd h .custody) k before ((x, a, n) :: rest) hw rfl hcarry
      exact exec_hashPieceEnd_ended (run := macRun k before ((x, a, n) :: rest)) h hp hr hok hu he

end Sys2Proof.Machine
end

