-- ==== Sys2Proof/Proofs/KeyGenerate.lean ====
section
/-! SUPPORT. KEY GENERATE: its beginning at the randomness gate, the record it makes, and the refusal of undefined flags (R7, R8, R10,
R153, R190, R192). -/
namespace Sys2Proof.Machine

/-- KEY GENERATE whose slot passes comes to its randomness gate. -/
theorem exec_keyGenerate {s : State} {c : Card} (h : s.custodyReady 0x0101#16 = some c) (hf : keyGenerateForm c = none)
    (hc : s.mayCreate (keyGenerateFields c).cls (keyGenerateFields c).target) :
    exec .keyGenerate s = .next ((s.custodyBegun c).custodyGate (State.generateAfterGate c)) := by
  show Host.Outcome.next (s.beginCustody _ _) = _
  rw [State.beginCustody_eq _ h]
  unfold State.keyGenerate
  rw [hf]
  exact congrArg Host.Outcome.next (State.creationChecks_pass _ (s := s.custodyBegun c) hc)

/-- The key material of a KEY GENERATE is placed in a volatile slot at once. -/
theorem State.generated_volatile {s : State} (c : Card) (m : KeyMaterial) (h : 32 ≤ (keyGenerateFields c).target.val)
    (hc : s.carries) : (s.custodyBegun c).generated c m [] =
      { s.placedNow c (keyGenerateFields c).target (some (generatedRecord c m)) (Config.freeWord s.free) [] with free := s.free + 1 } := by
  unfold State.generated
  rw [State.custodyPlace_volatile _ _ _ _ h]
  exact State.custodyHandBack_eq (s := (s.custodyBegun c).setSlot _ _)
    (w := { card := c, stage := .gate, abandoned := false, committed := false })
    .done none [] rfl hc

/-- The key material of a KEY GENERATE for a persistent slot is sent to the store first. -/
theorem State.generated_persistent {s : State} {j : Fin 32} (c : Card) (m : KeyMaterial) (h : (keyGenerateFields c).target.val = j.val)
    (hr : s.storeRoom .custody) : (s.custodyBegun c).generated c m [] =
      s.placing c (keyGenerateFields c).target j (some (generatedRecord c m)) none [] :=
  State.custodyPlace_persistent (s := s.custodyBegun c) _ _ _ _ h (State.custodyBegun_work s c) hr

/-- KEY GENERATE behind its gate goes by its algorithm (R8). -/
theorem State.generateAfterGate_eq {s : State} {c : Card} {i : Fin 48} (hc : s.mayCreate (keyGenerateFields c).cls i)
    (hfit : (keyGenerateFlags c).fits (keyGenerateAlgorithm c) = true) : s.generateAfterGate c = match keyGenerateAlgorithm c with
      | .p256Sign => ((s.custodyStage .curveGenerate).afterDraw 32).curveSubmit .custody (.generate (strOf 256 (s.drawn 32)))
      | .hmac256 => (s.afterDraw 32).generated c (.hmac256 (strOf 256 (s.drawn 32))) []
      | .wrap256 => (s.afterDraw 32).generated c (.wrap256 (strOf 256 (s.drawn 32))) [] := by
  unfold State.generateAfterGate
  rw [State.creationRefusal_none hc, hfit]
  cases keyGenerateAlgorithm c <;> rfl

/-- A set bit from 5 to 7 makes a key flags byte bad (R190, R193). -/
theorem flagsBad_of_undefined {b : Byte} (h : b.extractLsb' 5 3 ≠ 0#3) : flagsBad b = true := by
  by_contra hb
  have hlt : b.toNat < 32 := by simpa [flagsBad] using hb
  apply h
  apply BitVec.eq_of_toNat_eq
  simp [BitVec.extractLsb'_toNat, Nat.shiftRight_eq_div_pow]
  omega

theorem flagsBad_of_defined {b : Byte} (h : b.extractLsb' 5 3 = 0#3) : flagsBad b = false := by
  have h' := congrArg BitVec.toNat h
  simp [BitVec.extractLsb'_toNat, Nat.shiftRight_eq_div_pow] at h'
  have hlt := b.isLt
  simp [flagsBad]
  omega

theorem classBad_of_range {n : Nat} (h : 1 ≤ n ∧ n ≤ 7) : classBad n = false := by
  obtain ⟨hlo, hhi⟩ := h
  interval_cases n <;> rfl

theorem Algorithm.ofCode_of_range {n : Nat} (h : 1 ≤ n ∧ n ≤ 3) : (Algorithm.ofCode n).isNone = false := by
  obtain ⟨hlo, hhi⟩ := h
  interval_cases n <;> rfl

/-- Settles O22, from the census's state at the gate and the slot's region. -/
theorem keyGenerateBegins : Obligations.KeyGenerateBegins := by
  refine ⟨?begins, ?undefined⟩
  case undefined =>
    intro s c h hx hslot hcls halg hflags hcarry
    have hform : keyGenerateForm c = some 4 := by
      have hs : ¬47 < c.field 0 1 := by omega
      simp [keyGenerateForm, firstBad, extraExtents, hx, hs, classBad_of_range hcls, Algorithm.ofCode_of_range halg,
        flagsBad_of_undefined hflags]
    show Host.Outcome.next (s.beginCustody _ _) = _
    rw [State.beginCustody_eq _ h]
    unfold State.keyGenerate
    rw [hform]
    exact congrArg Host.Outcome.next (State.custodyBegun_refused c .badRequest _ hcarry)
  case begins =>
    intro s c h hf f hc hfit drawn secret record
    have hgate := exec_keyGenerate h hf hc
    have hafter := State.generateAfterGate_eq (s := s.custodyBegun c) hc hfit
    refine ⟨fun m hh hm => ?_, fun hh halg => ?_, fun hd => ?_, fun hd hcarry => ?_⟩
    · have hrun : exec .keyGenerate s = .next ((drawn.custodyBegun c).generated c m []) := by
        rw [hgate, State.custodyGate_healthy (s := s.custodyBegun c) _ hh, hafter]
        obtain ⟨halg, rfl⟩ | ⟨halg, rfl⟩ := hm <;> rw [halg] <;> rfl
      rw [hrun]
      exact ⟨fun hv hcarry => congrArg Host.Outcome.next (State.generated_volatile (s := drawn) c m hv hcarry),
        fun j hj hroom => congrArg Host.Outcome.next (State.generated_persistent (s := drawn) c m hj hroom)⟩
    · rw [hgate, State.custodyGate_healthy (s := s.custodyBegun c) _ hh, hafter, halg]
      rfl
    · rw [hgate, State.custodyGate_doubt (s := s.custodyBegun c) _ hd]
      rfl
    · rw [hgate, State.custodyGate_failed (s := s.custodyBegun c) _ hd]
      exact congrArg Host.Outcome.next (State.custodyBegun_refused_free c .entropy hcarry)

end Sys2Proof.Machine
end

