-- ==== Sys2Proof/Proofs/KeyChanges.lean ====
section
/-! SUPPORT. KEY SET ATTRIBUTES, KEY FINALIZE and KEY ERASE: their checks and the placing of the record they leave (R17 to R19). -/
namespace Sys2Proof.Machine

/-- A slot that passes the checks that R17 and R18 share leaves its record. -/
theorem State.changeable_eq {s : State} {i : Fin 48} {r : KeyRecord} (hi : 6 ≤ i.val) (hs : s.slot i = some r)
    (hspent : r.state ≠ .spent) (hwiping : r.cls = .owner → s.lifecycle.pending = false) : s.changeable i = .inr r := by
  have hfixed : isFixed i = false := by simp [isFixed]; omega
  have hw : ¬(r.cls = .owner ∧ s.lifecycle.pending = true) := fun ⟨hc, hp⟩ => by simp [hwiping hc] at hp
  simp [State.changeable, hfixed, hs, hspent, hw]

/-- The flags that a KEY SET ATTRIBUTES leaves: those its mask selects take their value from the request (R17). -/
def mergedFlags (c : Card) (r : KeyRecord) : KeyFlags := r.flags.merge (KeyFlags.ofByte (c.byte 17)) (KeyFlags.ofByte (c.byte 18))

/-- What R17 asks of a merge that changes the flags. -/
def State.mergeAllowed (s : State) (r : KeyRecord) (new : KeyFlags) : Prop :=
  new ≠ r.flags ∧ (r.state = .provisional → new.fits r.material.algorithm = true
    ∧ (r.cls = .owner → s.lifecycle.presence.isSome = true))
    ∧ (r.state = .live → r.flags.loosens new = false)

/-- A merge that R17 allows has its record placed. -/
theorem State.keySetAttributes_placed {s : State} {c : Card} {r : KeyRecord} (hf : keySetForm c = none)
    (hr : s.changeable (c.slot 0) = .inr r) (ha : s.mergeAllowed r (mergedFlags c r)) : s.keySetAttributes c =
      s.custodyPlace (c.slot 0) (some { r with flags := mergedFlags c r }) none (some (BitVec.ofNat 32 (mergedFlags c r).toNat)) [] := by
  obtain ⟨hnew, hprovisional, hlive⟩ := ha
  have hfit : ¬(r.state = .provisional ∧ (mergedFlags c r).fits r.material.algorithm = false) := fun ⟨hp, hx⟩ => by
    simp [(hprovisional hp).1] at hx
  have hpresent : ¬(r.state = .provisional ∧ r.cls = .owner ∧ mergedFlags c r ≠ r.flags ∧ s.presenceOpen = false) :=
    fun ⟨hp, ho, _, hx⟩ => by simp [State.presenceOpen, (hprovisional hp).2 ho] at hx
  have hway : ¬(r.state = .live ∧ r.flags.loosens (mergedFlags c r) = true) := fun ⟨hl, hx⟩ => by simp [hlive hl] at hx
  unfold State.keySetAttributes
  rw [hf, hr]
  exact (if_neg hfit).trans ((if_neg hpresent).trans ((if_neg hway).trans (if_neg hnew)))

/-- A merge of a LIVE slot that loosens its flags is refused (R17). -/
theorem State.keySetAttributes_oneWay {s : State} {c : Card} {r : KeyRecord} (hf : keySetForm c = none)
    (hr : s.changeable (c.slot 0) = .inr r) (hlive : r.state = .live) (hl : r.flags.loosens (mergedFlags c r) = true) :
    s.keySetAttributes c = s.custodyRefuse .oneWay := by
  unfold State.keySetAttributes
  rw [hf, hr]
  simp only [hlive, reduceCtorEq, false_and, if_false, true_and]
  exact if_pos hl

/-- A flag that a merge may not set on a LIVE slot, set, or NEEDS PRESENCE cleared, loosens it. -/
theorem KeyFlags.loosens_of_flag {cur new : KeyFlags} (h : (new.sign = true ∧ cur.sign = false) ∨ (new.mac = true ∧ cur.mac = false)
    ∨ (new.wrap = true ∧ cur.wrap = false) ∨ (new.exportable = true ∧ cur.exportable = false)
    ∨ (new.needsPresence = false ∧ cur.needsPresence = true)) : cur.loosens new = true := by
  obtain ⟨h1, h2⟩ | ⟨h1, h2⟩ | ⟨h1, h2⟩ | ⟨h1, h2⟩ | ⟨h1, h2⟩ := h <;> simp [KeyFlags.loosens, h1, h2]

/-- A card begun whose record goes to a volatile slot changes it at once and settles. -/
theorem State.custodyBegun_placedNow {s : State} (c : Card) {i : Fin 48} (v : Option KeyRecord) (d : Word32) (hi : 32 ≤ i.val)
    (hc : s.carries) : (s.custodyBegun c).custodyPlace i v none (some d) [] = s.placedNow c i v d [] := by
  rw [State.custodyPlace_volatile v none (some d) [] hi]
  exact State.custodyHandBack_eq (s := (s.custodyBegun c).setSlot i v) .done (some d) [] (State.custodyBegun_work s c) hc

theorem State.custodyBegun_placedNow_free {s : State} (c : Card) {i : Fin 48} (v : Option KeyRecord) (hi : 32 ≤ i.val) (hc : s.carries) :
    (s.custodyBegun c).custodyPlace i v none none []
      = ({ s with free := s.free + 1 } : State).placedNow c i v (Config.freeWord s.free) [] := by
  rw [State.custodyPlace_volatile v none none [] hi]
  exact State.custodyHandBack_eq (s := (s.custodyBegun c).setSlot i v) .done none [] (State.custodyBegun_work s c) hc

/-- A card begun whose record goes to a persistent slot sends it to the store. -/
theorem State.custodyBegun_placing {s : State} (c : Card) {i : Fin 48} {j : Fin 32} (v : Option KeyRecord) (d : Option Word32)
    (hi : i.val = j.val) (hr : s.storeRoom .custody) : (s.custodyBegun c).custodyPlace i v none d [] = s.placing c i j v d [] :=
  State.custodyPlace_persistent (s := s.custodyBegun c) v none d [] hi (State.custodyBegun_work s c) hr

/-- KEY FINALIZE of a PROVISIONAL slot has its record placed LIVE (R18). -/
theorem State.keyFinalize_placed {s : State} {c : Card} {r : KeyRecord} (hf : keySlotForm c = none)
    (hr : s.changeable (c.slot 0) = .inr r) (hp : r.state = .provisional) :
    s.keyFinalize c = s.custodyPlace (c.slot 0) (some { r with state := .live }) none none [] := by
  unfold State.keyFinalize
  rw [hf, hr]
  simp only [hp, reduceCtorEq, if_false]

/-- KEY ERASE of a slot in use has the slot emptied (R19). -/
theorem State.keyErase_placed {s : State} {c : Card} {r : KeyRecord} (hf : keySlotForm c = none) (hi : 6 ≤ (c.slot 0).val)
    (hs : s.slot (c.slot 0) = some r)
    (ho : r.cls = .owner → s.lifecycle.presence.isSome = true ∨ s.lifecycle.pending = true) :
    s.keyErase c = s.custodyPlace (c.slot 0) none none none [] := by
  have hfixed : ¬isFixed (c.slot 0) = true := by simp [isFixed]; omega
  have hpresent : ¬(r.cls = .owner ∧ s.presenceOpen = false ∧ s.lifecycle.pending = false) := by
    rintro ⟨hc, hp, hq⟩
    obtain h | h := ho hc
    · simp [State.presenceOpen, h] at hp
    · simp [h] at hq
  unfold State.keyErase
  rw [hf]
  simp only [hfixed, if_false, hs, hpresent]
  rfl

/-- Settles O24, from the checks of each card and the placing of its record. -/
theorem keysAreChangedAndErased : Obligations.KeysAreChangedAndErased := by
  refine ⟨?changed, ?undefined⟩
  case changed =>
    intro s c r hf hi hs free open_ new allowed
    refine ⟨fun h hset hopen ha => ?_, fun h hset hopen hlive hcarry hl => ?_, fun h hopen hp => ?_, fun h ho => ?_⟩
    · have hr := State.changeable_eq (s := s.custodyBegun c) hi hs hopen.1 hopen.2
      have hrun : exec .keySetAttributes s = .next ((s.custodyBegun c).custodyPlace _ _ _ _ _) :=
        (congrArg Host.Outcome.next (State.beginCustody_eq _ h)).trans
          (congrArg Host.Outcome.next (State.keySetAttributes_placed hset hr ha))
      rw [hrun]
      exact ⟨fun hv hcarry => congrArg Host.Outcome.next (State.custodyBegun_placedNow c _ _ hv hcarry),
        fun j hj hroom => congrArg Host.Outcome.next (State.custodyBegun_placing c _ _ hj hroom)⟩
    · have hr := State.changeable_eq (s := s.custodyBegun c) hi hs hopen.1 hopen.2
      exact (congrArg Host.Outcome.next (State.beginCustody_eq _ h)).trans (congrArg Host.Outcome.next
        ((State.keySetAttributes_oneWay hset hr hlive (KeyFlags.loosens_of_flag hl)).trans
          (State.custodyBegun_refused_free c .oneWay hcarry)))
    · have hr := State.changeable_eq (s := s.custodyBegun c) hi hs hopen.1 hopen.2
      have hrun : exec .keyFinalize s = .next ((s.custodyBegun c).custodyPlace _ _ _ _ _) :=
        (congrArg Host.Outcome.next (State.beginCustody_eq _ h)).trans
          (congrArg Host.Outcome.next (State.keyFinalize_placed hf hr hp))
      rw [hrun]
      exact ⟨fun hv hcarry => congrArg Host.Outcome.next (State.custodyBegun_placedNow_free c _ hv hcarry),
        fun j hj hroom => congrArg Host.Outcome.next (State.custodyBegun_placing c _ _ hj hroom)⟩
    · have hrun : exec .keyErase s = .next ((s.custodyBegun c).custodyPlace _ _ _ _ _) :=
        (congrArg Host.Outcome.next (State.beginCustody_eq _ h)).trans
          (congrArg Host.Outcome.next (State.keyErase_placed (s := s.custodyBegun c) hf hi hs ho))
      rw [hrun]
      exact ⟨fun hv hcarry => congrArg Host.Outcome.next (State.custodyBegun_placedNow_free c _ hv hcarry),
        fun j hj hroom => congrArg Host.Outcome.next (State.custodyBegun_placing c _ _ hj hroom)⟩
  case undefined =>
    intro s c h hx hslot hcarry undefined refused
    have hs : ¬47 < c.field 0 1 := by omega
    have hrefused : ∀ n, keySetForm c = some n → refused (BitVec.ofNat 32 n) := by
      intro n hn
      refine (congrArg Host.Outcome.next (State.beginCustody_eq _ h)).trans (congrArg Host.Outcome.next ?_)
      unfold State.keySetAttributes
      rw [hn]
      exact State.custodyBegun_refused c .badRequest _ hcarry
    refine ⟨fun hb => hrefused 2 ?_, fun hb hb' => hrefused 3 ?_⟩
    · simp [keySetForm, firstBad, extraExtents, hx, hs, flagsBad_of_undefined hb]
    · simp [keySetForm, firstBad, extraExtents, hx, hs, flagsBad_of_defined (not_not.mp hb), flagsBad_of_undefined hb']

end Sys2Proof.Machine
end

