-- ==== Sys2Proof/Proofs/CustodyRequests.lean ====
section
/-! SUPPORT. The requests that other blocks hold at the custody unit: installations, removals and wipe orders (R21, R23). -/
namespace Sys2Proof.Machine

/-- The slots a wipe order erases are the persistent slots in use of class OWNER, and slot 5 (R23). -/
theorem State.mem_wipedSlots {s : State} {i : Fin 32} :
    i ∈ s.wipedSlots ↔ ∃ r, s.slot ⟨i.val, by omega⟩ = some r ∧ (r.cls = .owner ∨ i.val = 5) := by
  unfold State.wipedSlots
  simp only [List.mem_filter, List.mem_finRange, true_and]
  cases s.slot ⟨i.val, by omega⟩ with
  | none => simp
  | some r => simp

/-- Erasing slots changes the table, and nothing else. -/
theorem State.eraseSlots_frame (l : List (Fin 32)) (s : State) :
    s.eraseSlots l = { s with custody := { s.custody with table := (s.eraseSlots l).custody.table } } := by
  induction l generalizing s with
  | nil => rfl
  | cons i t ih => exact ih _

/-- What erasing slots leaves: EMPTY where a slot is named, and the slot as it was elsewhere. -/
theorem State.eraseSlots_slot (l : List (Fin 32)) (s : State) (k : Fin 48) :
    (s.eraseSlots l).slot k = if ∃ i ∈ l, i.val = k.val then none else s.slot k := by
  induction l generalizing s with
  | nil => simp [State.eraseSlots]
  | cons i t ih =>
    have hstep : s.eraseSlots (i :: t) = (s.setSlot ⟨i.val, by omega⟩ none).eraseSlots t := rfl
    rw [hstep, ih]
    by_cases hk : i.val = k.val
    · simp [State.slot, hk]
    · have hi : (⟨i.val, by omega⟩ : Fin 48) ≠ k := fun e => hk (congrArg Fin.val e)
      simp [State.slot, tableGet_tableSet_ne _ _ hi, hk]

/-- A block with nothing else to send sends several writes of slots for a wipe order, when the store has room for all of them (R160). -/
theorem State.sendAll_wipes (l : List (Fin 32)) (n : Nat) (s : State) (hout : s.outboxes.get .custody = [])
    (hroom : s.store.queue.length + l.length ≤ storeCapacity) :
    State.sendAll .custody (l.length + n) (s.setOutbox .custody (l.map fun i => Out.write (.slot i none) .custodyWipe)) = { s with
      store := { s.store with
        queue := s.store.queue ++ l.map fun i => { write := .slot i none, answerTo := .custodyWipe } } } := by
  induction l generalizing s with
  | nil =>
    rw [List.map_nil, State.setOutbox_same hout, State.sendAll_done _ hout]
    simp
  | cons i t ih =>
    rw [List.length_cons] at hroom
    rw [List.length_cons, show t.length + 1 + n = (t.length + n) + 1 by omega, List.map_cons,
      State.sendAll_write _ _ _ _ (by omega), State.enqueue_plain _ _ _ (by intro j v; simp)]
    refine (ih (s := { s with store := s.store.queued (.slot i none) .custodyWipe }) hout ?_).trans ?_
    · simp only [Store.queued, List.length_append, List.length_singleton]
      omega
    · simp [Store.queued]

/-- Settles O26, from the send of one write and of a wipe order's writes. -/
theorem custodyServesRequests : Obligations.CustodyServesRequests := by
  intro s rest hp hw hv
  have hserves : s.custodyServes = true := by simp [State.custodyServes, hw, hv]
  have hpow : ∀ f : State → State, s.whenPowered f = f s := fun f => if_pos hp
  refine ⟨fun i r by_ hh hroom => ?install, fun i hh hroom => ?remove, fun hh hl => ?wipeNone, fun hh hl hq hroom => ?wipeSome,
    fun i => State.mem_wipedSlots⟩
  case install =>
    show Host.Outcome.next (s.whenPowered _) = _
    rw [hpow, State.installationRequest, hh]
    simp only [hserves, if_true]
    exact congrArg Host.Outcome.next (State.send_plainWrite
      (s := { s with custody := { s.custody with held := rest, service := some (.install i r by_) } }) hroom (by decide)
      (by intro j v; simp))
  case remove =>
    show Host.Outcome.next (s.whenPowered _) = _
    rw [hpow, State.removalRequest, hh]
    simp only [hserves, if_true]
    exact congrArg Host.Outcome.next (State.send_plainWrite
      (s := { s with custody := { s.custody with held := rest, service := some (.remove i) } }) hroom (by decide)
      (by intro j v; simp))
  case wipeNone =>
    show Host.Outcome.next (s.whenPowered _) = _
    rw [hpow, State.custodyWipeOrder, hh]
    simp only [hserves, if_true, hl]
    rfl
  case wipeSome =>
    let u : State := { s with custody := { s.custody with
      table := (({ s with custody := { s.custody with held := rest } } : State).eraseSlots s.wipedSlots).custody.table
      held := rest, service := some (.wipe s.wipedSlots.length s.wipedSlots.length 0) } }
    have hu : exec .custodyWipeOrder s = .next { u with store := { s.store with
        queue := s.store.queue ++ s.wipedSlots.map fun i => { write := .slot i none, answerTo := .custodyWipe } } } := by
      show Host.Outcome.next (s.whenPowered _) = _
      rw [hpow, State.custodyWipeOrder, hh]
      simp only [hserves, if_true, List.isEmpty_eq_false_iff.mpr hl, Bool.false_eq_true, if_false]
      rw [State.eraseSlots_frame]
      refine congrArg Host.Outcome.next ((State.send_quiet (s := u) (c := .custody) _ hq (by decide)).trans ?_)
      rw [List.length_map]
      exact State.sendAll_wipes s.wipedSlots 32 u hq.1 hroom
    have hslot : ∀ k : Fin 48, u.slot k = if ∃ i ∈ s.wipedSlots, i.val = k.val then none else s.slot k := fun k =>
      State.eraseSlots_slot s.wipedSlots { s with custody := { s.custody with held := rest } } k
    refine ⟨_, hu, fun i r hi hs hc => ?_, fun i hno => ?_, rfl, rfl, rfl, rfl, rfl, rfl, rfl, rfl⟩
    · exact (hslot i).trans (if_pos ⟨⟨i.val, hi⟩, State.mem_wipedSlots.mpr ⟨r, hs, hc⟩, rfl⟩)
    · refine (hslot i).trans (if_neg ?_)
      rintro ⟨j, hj, hji⟩
      obtain ⟨r, hs, hc⟩ := State.mem_wipedSlots.mp hj
      have hi : (⟨j.val, by omega⟩ : Fin 48) = i := Fin.ext hji
      rw [hi] at hs
      obtain ⟨h1, h2⟩ := hno r hs (hji ▸ j.isLt)
      rw [hji] at hc
      exact hc.elim h1 h2

end Sys2Proof.Machine
end

