-- ==== Sys2Proof/Proofs/StoreWrites.lean ====
section
/-! SUPPORT. The end of a store write that a custody card, or nobody, waits for (R8, R9, R15, R160, R161, R163, R165). -/
namespace Sys2Proof.Machine

/-- A card's record has been written: the table takes it, and the card goes on (R8). -/
theorem State.custodyWriteEnd_done {s : State} {w : Work CustodyStage} {i : Fin 48} {v : Option KeyRecord} {fd : Option Word32}
    {x : CustodyThen} (hw : s.custody.work = some w) (hst : w.stage = .record i v fd x) :
    s.custodyWriteEnd true = (s.setSlot i v).custodyThen x := by
  unfold State.custodyWriteEnd
  simp only [hw, hst, if_true]

/-- A card's record could not be written: a use completed in the table alone is taken back, and the card is refused (R6, R8). -/
theorem State.custodyWriteEnd_fault {s : State} {w : Work CustodyStage} {i : Fin 48} {v : Option KeyRecord} {fd : Option Word32}
    {x : CustodyThen} (hw : s.custody.work = some w) (hst : w.stage = .record i v fd x) (hc : s.carries) :
    s.custodyWriteEnd false = { s.givesBack w.card .storeFault fd [] with
      custody := { s.custody with table := s.custody.takenBack, work := none, undo := none } } := by
  unfold State.custodyWriteEnd
  simp only [hw, hst, Bool.false_eq_true, if_false]
  exact State.custodyHandBack_eq (s := s.takeBackUse) .storeFault fd [] hw hc

/-- The store with a write carried out and gone from the front of its queue (R160, R161). -/
def Store.wrote (st : Store) (w : Write) (first second : Bool) (rest : List WriteRequest) : Store :=
  { (st.program w first second).1 with queue := rest }

/-- The end of a write that is DONE: its requester's answer may send another write behind it (R160). -/
theorem exec_storeWriteEnd_sends {s t : State} {w : Write} {a : WriteTo} {rest more : List WriteRequest} {first second : Bool}
    (hp : s.powered = true) (hq : s.store.queue = { write := w, answerTo := a } :: rest) (hn : ∀ i v, w ≠ .cred i v)
    (hok : s.endsDone w first second = true)
    (ha : ({ s with store := (s.store.program w first second).1 } : State).answerWrite { write := w, answerTo := a } true = t)
    (hw : t.store.waiting = []) (hc : t.attemptWaits = false) (hm : t.store.queue = { write := w, answerTo := a } :: more) :
    exec (.storeWriteEnd first second) s = .next { t with store := { t.store with queue := more } } :=
  exec_storeWriteEnd hp hq hn (by rw [State.programmed_done hok, hok]; exact ha) hw hc (by rw [hm]; rfl)

/-- The end of a write that its requester's answer sends no other write behind (R160). -/
theorem exec_storeWriteEnd_done {s t : State} {w : Write} {a : WriteTo} {rest : List WriteRequest} {first second : Bool}
    (hp : s.powered = true) (hq : s.store.queue = { write := w, answerTo := a } :: rest) (hn : ∀ i v, w ≠ .cred i v)
    (hw : s.store.waiting = []) (hok : s.endsDone w first second = true)
    (ha : ({ s with store := (s.store.program w first second).1 } : State).answerWrite { write := w, answerTo := a } true = t)
    (ht : t.store = (s.store.program w first second).1) (hc : t.attemptWaits = false) :
    exec (.storeWriteEnd first second) s = .next { t with store := s.store.wrote w first second rest } := by
  obtain ⟨hqueue, hwaiting, -⟩ := s.store.program_queue w first second
  rw [exec_storeWriteEnd_sends hp hq hn hok ha (by rw [ht]; exact hwaiting.trans hw) hc (by rw [ht, hqueue, hq]), ht]
  rfl

/-- The end of a failed write, whose requester's answer sends no other write (R160). -/
theorem exec_storeWriteEnd_fault {s t : State} {w : Write} {a : WriteTo} {rest : List WriteRequest} {first second : Bool}
    (hp : s.powered = true) (hq : s.store.queue = { write := w, answerTo := a } :: rest) (hn : ∀ i v, w ≠ .cred i v)
    (hw : s.store.waiting = []) (hbad : s.endsDone w first second = false)
    (he : s.startUp = .ended) (hr : s.resetLine = false) (hl : s.linkUp = true)
    (ha : ({ s with store := (s.store.program w first second).1 } : State).storeFaulted.answerWrite { write := w, answerTo := a } false = t)
    (ht : t.store = (s.store.program w first second).1) (hc : t.attemptWaits = false) :
    exec (.storeWriteEnd first second) s = .next { t with store := s.store.wrote w first second rest } := by
  obtain ⟨hqueue, hwaiting, -⟩ := s.store.program_queue w first second
  have e := exec_storeWriteEnd (t := t) (first := first) (second := second) (more := rest) hp hq hn
    (by rw [State.programmed_fault hbad he hr hl, hbad]; exact ha) (by rw [ht]; exact hwaiting.trans hw) hc
    (by rw [ht, hqueue, hq]; rfl)
  rw [e, ht]
  rfl

/-- Settles O59, from the end of a custody card's write and of one that nobody waits for. -/
theorem storeWritesEnd : Obligations.StoreWritesEnd := by
  intro s first second rest hp hwait hcred
  have hattempt : s.attemptWaits = false := State.attemptWaits_noWork hcred
  refine ⟨?settles, ?goesOn, ?takenBack, ?done, ?fault, ?empty⟩
  case settles =>
    intro i j v c fd d o body hq hwork hcarry result store
    have hn : ∀ i u, Write.slot j v ≠ .cred i u := by intro i u; simp
    let u : State := { s with store := (s.store.program (.slot j v) first second).1 }
    refine ⟨fun hok => ?_, fun hbad he hr hl => ?_⟩
    · have ha := (State.custodyWriteEnd_done (s := u) hwork rfl).trans
        (State.custodyHandBack_eq (s := u.setSlot i v) o d body hwork hcarry)
      exact exec_storeWriteEnd_done hp hq hn hwait hok ha rfl hattempt
    · have ha := State.custodyWriteEnd_fault (s := u.storeFaulted) hwork rfl hcarry
      exact ⟨_, exec_storeWriteEnd_fault hp hq hn hwait hbad he hr hl ha rfl hattempt, rfl, rfl, rfl, rfl, rfl⟩
  case goesOn =>
    intro i j v c fd hq result store table hok
    have hn : ∀ i u, Write.slot j v ≠ .cred i u := by intro i u; simp
    let u : State := { s with store := (s.store.program (.slot j v) first second).1 }
    refine ⟨fun blob hwork => ?_, fun target record hwork => ⟨fun hv hcarry => ?_, fun k hk hquiet hroom => ?_⟩⟩
    · have ha := State.custodyWriteEnd_done (s := u) hwork rfl
      rw [exec_storeWriteEnd_done hp hq hn hwait hok ha rfl hattempt]
      unfold State.custodyThen State.custodyStage
      simp only [State.setSlot, u, hwork]
      rfl
    · have ha := ((State.custodyWriteEnd_done (s := u) hwork rfl).trans (State.custodyPlace_volatile _ _ _ _ hv)).trans
        (State.custodyHandBack_eq (s := (u.setSlot i v).setSlot target (some record)) .done none [] hwork hcarry)
      exact exec_storeWriteEnd_done hp hq hn hwait hok ha rfl hattempt
    · have hend : s.endsDone (.slot j v) first second = true := hok
      have hr : (u.setSlot i v).storeRoom .custody := ⟨hquiet, hroom⟩
      have ha := (State.custodyWriteEnd_done (s := u) hwork rfl).trans
        (State.custodyPlace_persistent (some record) (some (BitVec.ofNat 32 target.val)) none [] hk hwork hr)
      have hqueue : s.store.queue ++ [({ write := .slot k (some record), answerTo := .custodyCard } : WriteRequest)] = _ :=
        congrArg (· ++ _) hq
      exact hk ▸ exec_storeWriteEnd_sends hp hq hn hend ha hwait hattempt hqueue
  case takenBack =>
    intro u
    unfold Custody.takenBack
    cases u.custody.undo <;> rfl
  case done =>
    intro w hq hn hok
    exact exec_storeWriteEnd_done (t := { s with store := (s.store.program w first second).1 }) hp hq hn hwait hok rfl rfl hattempt
  case fault =>
    intro w hq hn hbad hr
    obtain ⟨hqueue, hwaiting, -⟩ := s.store.program_queue w first second
    exact exec_storeWriteEnd hp hq hn (State.programmed_held hbad hr) (hwaiting.trans hwait) hattempt
      (by show (s.store.program w first second).1.queue.tail = rest; rw [hqueue, hq]; rfl)
  case empty =>
    intro hq
    show Host.Outcome.next (s.whenPowered _) = _
    unfold State.whenPowered State.storeWriteEnd
    rw [if_pos hp, hq]

end Sys2Proof.Machine
end

