-- ==== Sys2Proof/Proofs/KeyBlobs.lean ====
section
/-! SUPPORT. KEY IMPORT and KEY WRAP OUT: their beginning, the layout of a blob's key, and what a blob that has been read brings (R9, R15,
R188, R195, R196). -/
namespace Sys2Proof.Machine

/-! ### Beginning -/

theorem State.wrapKeyOf_eq {s : State} {i : Fin 48} {r : KeyRecord} {k : Key256} (hs : s.slot i = some r)
    (hm : r.material = .wrap256 k) : s.wrapKeyOf i = k := by
  simp [State.wrapKeyOf, hs, hm, KeyMaterial.wrapKey]

/-- KEY IMPORT whose target passes comes to the use check of its unwrapping slot (R9). -/
theorem State.keyImport_useCheck {s : State} {c : Card} (hf : keyImportForm c = none)
    (hc : s.mayCreate (keyImportFields c).cls (keyImportFields c).target) :
    s.keyImport c = s.useCheck .unwrap (wrapSlot c) (State.importRead c) := by
  unfold State.keyImport
  rw [hf]
  simp only [State.creationChecks_pass _ hc, State.creationRefusal_none hc]

/-- KEY WRAP OUT behind its checks and its gate seals the source, completes the use of a wrapping slot that R12 keeps in the table, and
begins to write the blob (R15). -/
theorem State.wrapSeal_eq {s : State} {work : Work CustodyStage} {c : Card} {w r : KeyRecord} {k : Key256}
    (hwork : s.custody.work = some work) (hw : s.slot (c.slot 1) = some w) (hl : w.state = .live) (hn : w.limit = none)
    (hm : w.material = .wrap256 k) (hr : s.slot (c.slot 0) = some r) : s.wrapSeal c = { s with
      custody := { s.custody with
        table := tableSet s.custody.table (c.slot 1) (some (usedOnce w))
        work := some { work with stage := .writeOut (sealBlob k (strOf 96 (drawnBytes s.census.seed 12))
                                                      (fillOpen s.free (blobPlaintext r))) (some 163#32) [] }
        undo := some (c.slot 1, w) }
      census := { s.census with seed := Config.drawAdvance s.census.seed 12 }
      free := s.free + countOpen (blobPlaintext r) } := by
  have htext : ((s.slot (c.slot 0)).map blobPlaintext).getD [] = blobPlaintext r := by rw [hr]; rfl
  unfold State.wrapSeal
  rw [htext, State.wrapKeyOf_eq (i := wrapSlot c) hw hm]
  refine (State.completeUse_inTable (s := (s.afterDraw 12).afterFill (blobPlaintext r)) none _ hw (.inr ⟨hl, hn⟩)).trans ?_
  unfold State.custodyThen State.custodyStage State.afterFill State.afterDraw
  simp only [hwork]
  rfl

/-! ### The layout of a blob's key (R188, R195) -/

theorem leNat_lt (l : List Byte) : leNat l < 256 ^ l.length := by
  induction l with
  | nil => simp [leNat]
  | cons b t ih =>
    have hb := b.isLt
    simp only [leNat, List.length_cons, Nat.pow_succ]
    omega

/-- A scalar spelled by 32 bytes is the number they spell, most significant byte first. -/
theorem scalarOfBytes_toNat {l : List Byte} (h : l.length = 32) : (scalarOfBytes l).toNat = leNat l.reverse := by
  have hlt := leNat_lt l.reverse
  rw [List.length_reverse, h] at hlt
  exact Nat.mod_eq_of_lt (hlt.trans_le (by norm_num))

/-- The scalar of a blob's key pair stands in the first 32 bytes of its material. -/
theorem blobContents_scalar {l : List Byte} {b : BlobContents} {k : Scalar} {pub : PublicKey} (h : blobContents l = some b)
    (hm : b.material = .p256 (some k) pub) : k = scalarOfBytes (sliceBytes l 39 32) := by
  unfold blobContents at h
  dsimp only at h
  split at h
  · next alg binding _ _ =>
    split at h
    · cases h
    · cases h
      cases alg <;> simp_all
  · cases h

/-! ### A blob that has been read -/

/-- A blob whose tag verifies under the slot's key opens to its plaintext. -/
theorem State.opened_verified {s : State} {i : Fin 48} {k : Key256} (blob : List Byte) (hk : s.wrapKeyOf i = k)
    (h : (strOf 128 (sliceBytes blob 147 16) : Tag) = Config.gcmTag k (strOf 96 (sliceBytes blob 0 12)) (sliceBytes blob 12 135)) :
    s.opened i blob = blobContents (gcmXor k (strOf 96 (sliceBytes blob 0 12)) 0 (sliceBytes blob 12 135)) := by
  unfold State.opened openBlob gcmOpen
  rw [hk, if_pos h]
  rfl

theorem State.opened_unverified {s : State} {i : Fin 48} {k : Key256} (blob : List Byte) (hk : s.wrapKeyOf i = k)
    (h : ¬(strOf 128 (sliceBytes blob 147 16) : Tag) = Config.gcmTag k (strOf 96 (sliceBytes blob 0 12)) (sliceBytes blob 12 135)) :
    s.opened i blob = none := by
  unfold State.opened openBlob gcmOpen
  rw [hk, if_neg h]
  rfl

/-- The plaintexts that are refused BAD BLOB (R9 step 4). -/
theorem blobContents_none {l : List Byte} (h : l.getD 0 0#8 ≠ 1#8 ∨ Algorithm.ofCode (l.getD 1 0#8).toNat = none
    ∨ bindingOf (sliceBytes l 3 36) = none
    ∨ ∃ alg, Algorithm.ofCode (l.getD 1 0#8).toNat = some alg ∧ (KeyFlags.ofByte (l.getD 2 0#8)).fits alg = false) :
    blobContents l = none := by
  unfold blobContents
  dsimp only
  split
  · next alg binding halg hbinding =>
    obtain hv | hx | hx | ⟨a, ha, hfit⟩ := h
    · exact if_pos (.inl hv)
    · cases halg.symm.trans hx
    · cases hbinding.symm.trans hx
    · rw [halg] at ha
      cases ha
      exact if_pos (.inr hfit)
  · rfl

/-- The plaintexts that hold a key, with what they hold (R9, R196). -/
theorem blobContents_some {l : List Byte} {binding : Option Binding} {m : KeyMaterial} (hv : l.getD 0 0#8 = 1#8)
    (hb : bindingOf (sliceBytes l 3 36) = some binding)
    (hm : (l.getD 1 0#8 = 1#8 ∧ (KeyFlags.ofByte (l.getD 2 0#8)).fits .p256Sign = true
        ∧ m = .p256 (some (scalarOfBytes (sliceBytes l 39 32))) (strOf 512 (sliceBytes l 71 64)))
      ∨ (l.getD 1 0#8 = 2#8 ∧ (KeyFlags.ofByte (l.getD 2 0#8)).fits .hmac256 = true ∧ m = .hmac256 (strOf 256 (sliceBytes l 39 32)))
      ∨ (l.getD 1 0#8 = 3#8 ∧ (KeyFlags.ofByte (l.getD 2 0#8)).fits .wrap256 = true
        ∧ m = .wrap256 (strOf 256 (sliceBytes l 39 32)))) :
    blobContents l = some { flags := KeyFlags.ofByte (l.getD 2 0#8), binding := binding, material := m } := by
  have h1 : Algorithm.ofCode (1#8 : Byte).toNat = some .p256Sign := rfl
  have h2 : Algorithm.ofCode (2#8 : Byte).toNat = some .hmac256 := rfl
  have h3 : Algorithm.ofCode (3#8 : Byte).toNat = some .wrap256 := rfl
  unfold blobContents
  obtain ⟨hc, hfit, rfl⟩ | ⟨hc, hfit, rfl⟩ | ⟨hc, hfit, rfl⟩ := hm
  · simp only [hc, h1, hb, hv, hfit, ne_eq, not_true_eq_false, Bool.true_eq_false, or_self, if_false]
  · simp only [hc, h2, hb, hv, hfit, ne_eq, not_true_eq_false, Bool.true_eq_false, or_self, if_false]
  · simp only [hc, h3, hb, hv, hfit, ne_eq, not_true_eq_false, Bool.true_eq_false, or_self, if_false]

/-- The read of a blob has been answered over a link that was up throughout: its bytes are opened. -/
theorem exec_extentDmaEnd_blob {s : State} {c : Card} (h : HostWrites) (hp : s.powered = true) (hl : s.linkUp = true)
    (hw : s.custody.work = working c .readBlob false) : exec (.extentDmaEnd .custody h .answered) s =
      .next ((s.hostStores h).importBlob c (Memory.readBytes (Memory.hostStores s.host h) (c.extentAddress 0) 163)) := by
  have hok : (dmaAnswered .answered && s.linkUp && !s.isCut .custody) = true := by
    simp [dmaAnswered, hl, State.isCut, hw, working]
  have hpending : s.dmaPending .custody = true := by simp [State.dmaPending, hw, working]
  show Host.Outcome.next (s.whenPowered _) = _
  unfold State.whenPowered State.extentDmaEnd
  rw [if_pos hp, if_pos hpending, hok]
  unfold State.dmaEnded State.custodyDmaEnd
  have hw' : (s.hostStores h).custody.work = working c .readBlob false := hw
  simp only [hw', working, Bool.false_eq_true, if_false, if_true]
  rfl

/-- Settles O23, from the checks of both cards, a blob's layout and the completion of a use. -/
theorem keysMoveInBlobs : Obligations.KeysMoveInBlobs := by
  refine ⟨?imports, ?wraps, fun k pub => rfl, ?scalar, ?reads⟩
  case imports =>
    intro s c w h hf hc hs hu hb hlen
    show Host.Outcome.next (s.beginCustody _ _) = _
    rw [State.beginCustody_eq _ h, State.keyImport_useCheck (s := s.custodyBegun c) hf hc,
      State.useCheck_unbound (s := s.custodyBegun c) (i := wrapSlot c) _ hs hu hb, State.importRead, if_neg (not_not.mpr hlen)]
    rfl
  case wraps =>
    intro s c w r k h hf hs hu hb hlive hn hm hr hur hrb hrn hh
    have hlimit : ¬(((s.custodyBegun c).slot (c.slot 0)).bind (·.limit)).isSome = true := by simp [hr, hrn]
    show Host.Outcome.next (s.beginCustody _ _) = _
    rw [State.beginCustody_eq _ h, State.keyWrapOut, hf]
    dsimp only
    rw [State.useCheck_unbound (s := s.custodyBegun c) (i := wrapSlot c) _ hs hu hb, State.wrapWrapping,
      State.useCheck_unbound (s := s.custodyBegun c) _ hr hur hrb, State.wrapSource, if_neg hlimit,
      State.custodyGate_healthy (s := s.custodyBegun c) _ hh,
      State.wrapSeal_eq (s := s.custodyBegun c) (State.custodyBegun_work s c) hs hlive hn hm hr]
    rfl
  case scalar =>
    intro l b k pub h hm
    rw [blobContents_scalar h hm]
    exact scalarOfBytes_toNat (by simp [sliceBytes])
  case reads =>
    intro s h c w k hp hl hcarry hwork hs hm blob cipher text verifies flags u ends bad f used
    have hread := exec_extentDmaEnd_blob h hp hl hwork
    have hk : u.wrapKeyOf (wrapSlot c) = k := State.wrapKeyOf_eq (i := wrapSlot c) hs hm
    refine ⟨?bad, ?placed⟩
    case bad =>
      intro hbad
      have hnone : u.opened (wrapSlot c) blob = none := by
        by_cases hver : verifies
        · exact (State.opened_verified blob hk hver).trans (blobContents_none (hbad.resolve_left (not_not.mpr hver)))
        · exact State.opened_unverified blob hk hver
      refine hread.trans (congrArg Host.Outcome.next ?_)
      show u.importBlob c blob = _
      unfold State.importBlob
      rw [hnone]
      exact State.custodyRefuse_eq (s := u) .badBlob hwork hcarry
    case placed =>
      intro m binding hver hv hb hkey record
      have hsome : u.opened (wrapSlot c) blob = some { flags := flags, binding := binding, material := m } :=
        (State.opened_verified blob hk hver).trans (blobContents_some hv hb hkey)
      have hrun : exec (.extentDmaEnd .custody h .answered) s = .next (u.completeUse (wrapSlot c)
          (some (BitVec.ofNat 32 (wrapSlot c).val)) (.importTarget f.target record)) := by
        refine hread.trans (congrArg Host.Outcome.next ?_)
        show u.importBlob c blob = _
        unfold State.importBlob
        rw [hsome]
        rfl
      refine ⟨fun htable => ?_, fun j hj hwritten hroom => ?_⟩
      · let taken : State := { u with custody := { s.custody with table := used, undo := some (c.slot 1, w) } }
        have htaken : exec (.extentDmaEnd .custody h .answered) s
            = .next (taken.custodyPlace f.target (some record) (some (BitVec.ofNat 32 f.target.val)) none []) :=
          hrun.trans (congrArg Host.Outcome.next (State.completeUse_inTable (s := u) (i := wrapSlot c) _ _ hs htable))
        refine ⟨fun hv => ?_, fun j hj hroom => ?_⟩
        · exact htaken.trans (congrArg Host.Outcome.next ((State.custodyPlace_volatile _ _ _ _ hv).trans
            (State.custodyHandBack_eq (s := taken.setSlot f.target (some record)) .done none [] hwork hcarry)))
        · rw [← hj]
          exact htaken.trans (congrArg Host.Outcome.next (State.custodyPlace_persistent (s := taken) _ _ _ _ hj hwork hroom))
      · rw [← hj]
        exact hrun.trans (congrArg Host.Outcome.next
          (State.completeUse_written (s := u) (i := wrapSlot c) _ _ hs hj hwritten hwork hroom))

end Sys2Proof.Machine
end

