-- ==== Sys2Proof/Proofs/CurveOperations.lean ====
section
/-! SUPPORT. The completion of a curve operation: what it brings its client, and the next grant (R144 to R146). -/
namespace Sys2Proof.Machine

/-- The state in which the client of a curve operation takes its result (R146). -/
def State.atOperationEnd (s : State) (c : CurveClient) : State := { s with curve := { s.curve with pointer := c } }

/-- The completion of an operation: its result reaches its client, and the engine is released. -/
theorem exec_curveOperationComplete {s u : State} {run : CurveRun} (hp : s.powered = true) (hr : s.curve.running = some run)
    (hu : (s.atOperationEnd run.client).curveEnded run = u) :
    exec .curveOperationComplete s = .next { u with curve := u.curve.release u.identityScalar } := by
  show Host.Outcome.next (s.whenPowered _) = _
  unfold State.whenPowered State.curveComplete
  rw [if_pos hp, hr, ← hu]
  rfl

/-- A curve engine that no operation waits for is left free. -/
theorem CurveEngine.release_idle {e : CurveEngine} (k : Option Scalar) (hu : e.update = none) (hm : e.measure = none)
    (hc : e.custody = none) (hl : e.lifecycle = none) : e.release k = { e with running := none } := by
  have hnone : ∀ c, ({ e with running := none } : CurveEngine).waiting c = none := by
    intro c
    cases c <;> assumption
  have hfirst : ∀ l, ({ e with running := none } : CurveEngine).firstWaiting l = none := by
    intro l
    induction l with
    | nil => rfl
    | cons c t ih => rw [CurveEngine.firstWaiting, hnone c]; exact ih
  unfold CurveEngine.release
  dsimp only
  rw [hfirst]

/-- The completion of an operation that no other waits behind leaves the engine free. -/
theorem exec_curveOperationComplete_idle {s u : State} {run : CurveRun} (hp : s.powered = true) (hu : s.curve.update = none)
    (hm : s.curve.measure = none) (hc : s.curve.custody = none) (hl : s.curve.lifecycle = none) (hr : s.curve.running = some run)
    (he : (s.atOperationEnd run.client).curveEnded run = u) (hcurve : u.curve = { s.curve with pointer := run.client }) :
    exec .curveOperationComplete s = .next { u with curve := { s.curve with running := none, pointer := run.client } } := by
  rw [exec_curveOperationComplete hp hr he, hcurve,
    CurveEngine.release_idle (e := { s.curve with pointer := run.client }) _ hu hm hc hl]

/-- The scalar that a search comes to is in range (R145). -/
theorem scalarSearch_inRange (seed : Key256) (tries n : Nat) : scalarInRange (scalarSearch seed tries n) = true := by
  induction tries generalizing n with
  | zero =>
    have hlt : Config.lateCandidate seed % (Config.curveOrder - 1) < Config.curveOrder - 1 :=
      Nat.mod_lt _ (by norm_num [Config.curveOrder])
    have horder : Config.curveOrder ≤ 2 ^ 256 := by norm_num [Config.curveOrder]
    have hval : (scalarSearch seed 0 n).toNat = 1 + Config.lateCandidate seed % (Config.curveOrder - 1) :=
      Nat.mod_eq_of_lt (by omega)
    have hne : scalarSearch seed 0 n ≠ 0#256 := by
      intro h
      rw [h] at hval
      simp at hval
      omega
    simp only [scalarInRange, Bool.and_eq_true, decide_eq_true_eq]
    exact ⟨hne, by omega⟩
  | succ tries ih =>
    unfold scalarSearch
    split
    · next h => exact h
    · exact ih _

theorem scalarOfSeed_inRange (seed : Key256) : scalarOfSeed seed ≠ 0#256 ∧ (scalarOfSeed seed).toNat < Config.curveOrder := by
  have h : scalarInRange (scalarOfSeed seed) = true := scalarSearch_inRange seed 64 0
  simpa [scalarInRange] using h

/-- A signature has come for a KEY SIGN that is not abandoned (R13). -/
theorem State.custodySigned_eq {s : State} {c : Card} {m : Bool} (sig : Signature) (hw : s.custody.work = working c .curveSign m) :
    s.custodySigned sig = (s.custodyCommitCounted (c.slot 0)).completeUse (c.slot 0) none
      (.settle .done none (outBytes (strBytes sig))) := by
  unfold State.custodySigned
  simp only [hw, working, Bool.false_eq_true, if_false]

/-- A key pair has come for a KEY GENERATE that is not abandoned (R8). -/
theorem State.custodyKeyPair_eq {s : State} {c : Card} {m : Bool} (k : Scalar) (pub : PublicKey)
    (hw : s.custody.work = working c .curveGenerate m) :
    s.custodyKeyPair k pub = s.generated c (.p256 (some k) pub) (outBytes (strBytes pub)) := by
  unfold State.custodyKeyPair
  simp only [hw, working, Bool.false_eq_true, if_false]

/-- A card settles DONE with a body of stated bytes. -/
theorem State.givesBack_outBytes (s : State) (c : Card) (o : CardOutcome) (l : List Byte) : s.givesBack c o none (outBytes l) = { s with
    exch := s.exch.handed { card := c, outcome := o, detail := Config.freeWord s.free, body := l }
    free := s.free + 1 } := by
  unfold State.givesBack
  simp

/-- A signature has come for a quote that is not abandoned, with no request in the list: the quote is written (R58). -/
theorem State.measureCurveEnd_eq {s : State} {c : Card} {body : List Byte} {seq : Nat} {m : Bool} (sig : Signature)
    (hw : s.measure.work = working c (.quoteSign body seq) m) (hi : s.measure.internal = []) : s.measureCurveEnd sig = { s with
      measure := { s.measure with
        work := working c (.writeOut (body ++ strBytes sig) (some (BitVec.ofNat 32 seq))
          (outBytes (strBytes sig) ++ outNum 2 body.length)) m } } := by
  unfold State.measureCurveEnd State.quoteSigned State.measureStage
  simp only [hw, hi, working, Bool.false_eq_true, if_false, List.isEmpty_nil, if_true, Option.map_some]

/-- An identity has been generated for a FACTORY IDENTITY that is not abandoned: the custody unit is asked to install it (R122). -/
theorem State.lifeCurveEnd_eq {s : State} {c : Card} {m : Bool} (k : Scalar) (pub : PublicKey)
    (hw : s.lifecycle.work = working c .generate m) : s.lifeCurveEnd k pub = { s with
      lifecycle := { s.lifecycle with work := working c (.install (outBytes (strBytes pub))) true }
      custody := { s.custody with held := s.custody.held ++ [.install 1 (identityRecord k pub) .lifecycle] } } := by
  unfold State.lifeCurveEnd State.identityGenerated State.lifeStage State.lifeCommit State.askCustody
  simp only [hw, working, Bool.false_eq_true, if_false, Option.map_some, Work.commit]

/-- Settles O27, from the completion of an operation and what each client's result brings. -/
theorem curveOperationsComplete : Obligations.CurveOperationsComplete := by
  intro s hp hu hm hc hl freed
  refine ⟨?sign, ?quote, ?identity, ?generate, scalarOfSeed_inRange, ?free⟩
  case sign =>
    intro k d c r hr hw hs htable hcarry
    have he := (State.custodySigned_eq (s := s.atOperationEnd .custody) (Config.ecdsaSign k d) hw).trans
      (State.useResult_inTable (s := s.atOperationEnd .custody) _ hw hs htable hcarry)
    rw [State.givesBack_outBytes] at he
    exact exec_curveOperationComplete_idle hp hu hm hc hl hr he rfl
  case quote =>
    intro k d c body seq hr hw hi sig
    have he := State.measureCurveEnd_eq (s := s.atOperationEnd .measure) (Config.ecdsaSign k d) hw hi
    exact exec_curveOperationComplete_idle hp hu hm hc hl hr he rfl
  case identity =>
    intro seed c hr hw k pub
    have he := State.lifeCurveEnd_eq (s := s.atOperationEnd .lifecycle) k pub hw
    exact exec_curveOperationComplete_idle hp hu hm hc hl hr he rfl
  case generate =>
    intro seed c hr hw k pub f record
    have he := State.custodyKeyPair_eq (s := s.atOperationEnd .custody) k pub hw
    refine ⟨fun hv hcarry => ?_, fun j hj hroom => ?_⟩
    · have hplaced := (he.trans (State.custodyPlace_volatile _ _ _ _ hv)).trans
        (State.custodyHandBack_eq (s := (s.atOperationEnd .custody).setSlot f.target (some record)) .done none _ hw hcarry)
      rw [State.givesBack_outBytes] at hplaced
      exact exec_curveOperationComplete_idle hp hu hm hc hl hr hplaced rfl
    · have hsent := he.trans (State.custodyPlace_persistent (s := s.atOperationEnd .custody) _ _ _ _ hj hw hroom)
      exact exec_curveOperationComplete_idle hp hu hm hc hl hr hsent rfl
  case free =>
    intro hr
    show Host.Outcome.next (s.whenPowered _) = _
    unfold State.whenPowered State.curveComplete
    rw [if_pos hp, hr]

end Sys2Proof.Machine
end

