-- ==== Sys2Proof/Proofs/MeasureOps.lean ====
section
/-! SUPPORT. The measure unit's serving points where nothing is in work, the sending and the acceptance of part events, and the end of a
hash piece over bytes that the unit holds (R35, R38, R39, R59, R85, R142). -/
namespace Sys2Proof.Machine

/-! ### Serving points (R39) -/

theorem State.waitingQuoteJob_noWork {s : State} (h : s.measure.work = none) : s.waitingQuoteJob = none := by
  unfold State.waitingQuoteJob
  rw [h]

theorem State.holdWaitingJob_noWork {s : State} (h : s.measure.work = none) : s.holdWaitingJob = s := by
  unfold State.holdWaitingJob
  rw [State.waitingQuoteJob_noWork h]

/-- With no card in work and no entry in service, the first entry of the list can be served. -/
theorem State.serving_noWork {s : State} (hp : s.powered = true) (hst : s.measure.starting = false) (hs : s.measure.service = none)
    (hw : s.measure.work = none) : s.serving = s.measure.internal.head? := by
  have hpoint : s.atServingPoint = true := by
    unfold State.atServingPoint
    rw [hw]
  simp [State.serving, hp, hst, hs, hpoint]

theorem State.resumeMeasure_noWork {s : State} (h : s.measure.work = none) : s.resumeMeasure = s := by
  unfold State.resumeMeasure
  split
  · cases s.measure.paused <;> simp [h]
  · rfl

/-- The entry in service has been served, and no block waits to send another. -/
theorem State.endService_none {s : State} (h : s.measureWaiting = []) :
    s.endService = { s with measure := { s.measure with service := none, internal := s.measure.internal.tail } } :=
  State.pumpMeasure_none (s := { s with measure := { s.measure with service := none, internal := s.measure.internal.tail } }) _ h

/-- The service of the part event at the head of the list begins (R35). -/
theorem State.serveEvent_eq {s : State} {e : PartEvent} {rest : List MeasureRequest} (hp : s.powered = true)
    (hst : s.measure.starting = false) (hs : s.measure.service = none) (hw : s.measure.work = none)
    (hi : s.measure.internal = .event e :: rest) : s.serveEvent = { s with
      measure := { s.measure with service := some (.eventDigest e) }
      hash := s.hash.submit .measure (shaJob e.parameters) } := by
  unfold State.serveEvent
  rw [State.serving_noWork hp hst hs hw, hi]
  simp only [List.head?_cons, State.holdWaitingJob_noWork hw]
  rfl

/-! ### Part events sent and accepted (R38, R59) -/

/-- The update unit sends its requests, and its wipe order has nothing to send. -/
theorem State.sendLane_updateAsk {s t : State} (h : State.sendAll .updateAsk (s.sendFuel .updateAsk) s = t)
    (hw : t.outboxes.updateWipe = []) : s.sendLane .updateAsk = t := by
  unfold State.sendLane
  dsimp only
  rw [h, State.sendAll_done (c := .updateWipe) _ hw]
  exact ite_self _

/-- The update unit's part event waits for an act of its own, when neither its requests nor its wipe order have anything else to send. -/
theorem State.send_event_updateAsk {s : State} (e : PartEvent) (rest : List Out) (h : s.quiet .updateAsk)
    (hw : s.outboxes.updateWipe = []) (hs : s.measure.starting = false) :
    s.send .updateAsk (.request (.event e) :: rest) = s.awaits .updateAsk (.request (.event e) :: rest) := by
  have hpush : s.push .updateAsk (.request (.event e) :: rest) = s.setOutbox .updateAsk (.request (.event e) :: rest) := by
    unfold State.push
    rw [h.1]
    rfl
  have hjoin : s.joinsAtOnce .updateAsk (.event e) = false := by simp [State.joinsAtOnce, hs]
  unfold State.send
  dsimp only
  rw [if_neg (by simp [h.2]), hpush]
  refine State.sendLane_updateAsk ?_ hw
  unfold State.sendFuel
  exact State.sendAll_waits _ _ rest hjoin

/-- The one block that waits at the measure unit has its request accepted, and its work goes on until it waits no more. -/
theorem State.requestsArrive_one {s t : State} {c : Client} (hw : s.measureWaiting = [c])
    (hl : s.measure.internal.length < internalCapacity) (ht : ({ s with measureWaiting := [] } : State).joinFirst c = t)
    (hd : t.measureWaiting = []) : s.requestsArrive = t := by
  have hf : s.pumpFuel = internalCapacity + 1 := by
    unfold State.pumpFuel
    rw [hw, List.length_singleton, Nat.add_comm]
  unfold State.requestsArrive
  rw [hf]
  conv => lhs; unfold State.pumpMeasure
  simp only [hw, hl, if_true, ht]
  exact State.pumpMeasure_none _ hd

theorem State.joinFirst_request {s : State} {c : Client} {r : MeasureRequest} {rest : List Out}
    (h : s.outboxes.get c = .request r :: rest) : s.joinFirst c = ((s.joinList r).setOutbox c rest).sendLane c := by
  unfold State.joinFirst
  rw [h]

/-- What the row PART_EVENT does: requests that wait reach the list, start-up goes on, and the service of an event begins. -/
theorem exec_partEvent {s : State} (hp : s.powered = true) : exec .partEvent s = .next s.requestsArrive.startUpGoesOn.serveEvent := by
  show Host.Outcome.next (s.whenPowered _) = _
  unfold State.whenPowered
  rw [if_pos hp]

/-- After start-up, the one waiting event is accepted, what its sender does then is done, and its service begins (R35, R38). -/
theorem exec_partEvent_waiting {s t : State} {c : Client} {e : PartEvent} {rest : List Out} (h : s.eventWaits c e rest)
    (ht : ((({ s with measureWaiting := [] } : State).joinList (.event e)).setOutbox c rest).sendLane c = t)
    (hd : t.measureWaiting = []) (hp : t.powered = true) (hu : t.startUp = .ended) (hm : t.measure = s.measure.asked (.event e)) :
    exec .partEvent s = .next { t with
      measure := { s.measure with internal := [.event e], service := some (.eventDigest e) }
      hash := t.hash.submit .measure (shaJob e.parameters) } := by
  obtain ⟨hpow, -, hst, hw, hs, hi, hmw, ho⟩ := h
  have hl : s.measure.internal.length < internalCapacity := by simp [hi, internalCapacity]
  rw [exec_partEvent hpow, State.requestsArrive_one hmw hl
    ((State.joinFirst_request (s := { s with measureWaiting := [] }) ho).trans ht) hd, State.startUpGoesOn_ended hu,
    State.serveEvent_eq (e := e) (rest := []) hp (by rw [hm]; exact hst) (by rw [hm]; exact hs) (by rw [hm]; exact hw)
      (by rw [hm]; simp [Measure.asked, hi]), hm]
  simp [Measure.asked, hi]

/-- The update unit's card in work sends a record to the store and is committed (R90, R160). -/
theorem State.updateWrite_eq {s : State} {x : Work UpdateStage} (w : Write) (stage : UpdateStage) (hw : s.update.work = some x)
    (hn : ∀ i v, w ≠ .cred i v) (hr : s.storeRoom .update) : s.updateWrite w stage = { s with
      update := { s.update with work := some { x with stage := stage, committed := true } }
      store := s.store.queued w .updateCard } := by
  unfold State.updateWrite
  rw [State.send_plainWrite (s := s.updateStage stage) hr (by decide) hn]
  unfold State.commitCard State.updateStage
  simp only [hw]
  rfl

/-! ### The end of a piece over the unit's own bytes (R142) -/

/-- The one piece of a job over bytes that the measure unit holds. -/
def shaRun (input : List Byte) : HashRun := { client := .measure, job := shaJob input, withdrawn := false }

theorem State.shaPiece_ends (s : State) {input : List Byte} (ok : Bool) (h : input.length ≤ 4096) :
    s.pieceEnded (shaRun input) ok = s.measureHashEnd (Config.sha256 input) := by
  have htake : input.take 4096 = input := List.take_of_length_le h
  have hdrop : input.drop 4096 = [] := List.drop_of_length_le h
  simp [State.pieceEnded, shaRun, shaJob, HashJob.afterPiece, HashJob.pieceBytes, ByteSource.afterPiece, ByteSource.isEmpty,
    ByteSource.isExtents, pieceSize, htake, hdrop, State.pieceNotice, State.jobEnded, State.hashEnded, HashJob.result]

/-- With an entry in service, the result is the entry's. -/
theorem State.measureHashEnd_service {s : State} {x : MeasureService} (d : Digest) (h : s.measure.service = some x) :
    s.measureHashEnd d = s.serviceHashEnd x d := by
  unfold State.measureHashEnd
  rw [h]

end Sys2Proof.Machine
end

