-- ==== Sys2Proof/Proofs/UpdateWrites.lean ====
section
/-! SUPPORT. The end of an update card's store writes, and of the requests that an anchor card has sent the custody unit (R65 to R68, R80,
R82, R85, R86). -/
namespace Sys2Proof.Machine

/-! ### The write of the card in work -/

/-- The trial of a commit has been written: the table takes it, and the session leaves CHECKED (R82). -/
theorem State.updateWriteEnd_commit {s : State} {c : Card} {k : Fin 8} {v : KindRecord} {t : Trial}
    (hw : s.update.work = working c (.commit v) true) (ht : v.trial = some t) : s.updateWriteEnd (.kind k v) true =
      ((s.setKind k v).leaveChecked).updateHandBack .done none (outNum 1 k.val ++ outNum 4 t.version ++ outNum 1 t.boots) := by
  unfold State.updateWriteEnd State.commitDone
  simp only [hw, working, if_true, ht]

theorem State.updateWriteEnd_commit_fault {s : State} {c : Card} {k : Fin 8} {v : KindRecord}
    (hw : s.update.work = working c (.commit v) true) :
    s.updateWriteEnd (.kind k v) false = (s.updateRefuse .storeFault).guardExpiry := by
  unfold State.updateWriteEnd
  simp only [hw, working, Bool.false_eq_true, if_false]

/-- The guard timer of a CHECKED session that no card in work holds (R80). -/
theorem State.guardExpiry_checked {s : State} {x : CheckedSession} (hs : s.update.session = .checked x) (hw : s.update.work = none)
    (hh : s.update.wipe ≠ .held) : s.guardExpiry = if 3600 ≤ elapsed s.pace.tick x.guardStart then s.leaveChecked else s := by
  have hserve : s.leaveChecked.serveHeldWipe = s.leaveChecked := State.serveHeldWipe_not_held hh
  simp only [State.guardExpiry, State.guardExpires, hs, State.commitInWork, hw, guardLimit, hserve, Bool.not_false, Bool.and_true]
  by_cases ht : 3600 ≤ elapsed s.pace.tick x.guardStart
  · simp only [ht, decide_true, if_true]
  · simp only [ht, decide_false, if_false, Bool.false_eq_true]

/-- A confirm's record has been written: the table takes it, and the part event goes out (R85). -/
theorem State.updateWriteEnd_confirm {s : State} {c : Card} {k : Fin 8} {v : KindRecord} {version : Nat} {signer : SignerClass}
    {below : Bool} (hw : s.update.work = working c (.confirm v version signer below) true) :
    s.updateWriteEnd (.kind k v) true = s.confirmDone k v version signer below := by
  unfold State.updateWriteEnd
  simp only [hw, working, if_true]

theorem State.updateWriteEnd_confirm_fault {s : State} {c : Card} {k : Fin 8} {v : KindRecord} {version : Nat} {signer : SignerClass}
    {below : Bool} (hw : s.update.work = working c (.confirm v version signer below) true) :
    s.updateWriteEnd (.kind k v) false = s.updateRefuse .storeFault := by
  unfold State.updateWriteEnd
  simp only [hw, working, Bool.false_eq_true, if_false]

/-- A revert's record has been written (R86). -/
theorem State.updateWriteEnd_revert {s : State} {c : Card} {k : Fin 8} {v : KindRecord} (ok : Bool)
    (hw : s.update.work = working c (.revert v) true) :
    s.updateWriteEnd (.kind k v) ok = if ok then (s.setKind k v).updateRefuse .done else s.updateRefuse .storeFault := by
  unfold State.updateWriteEnd
  simp only [hw, working]

/-- The mark of an installation has been written (R65). -/
theorem State.updateWriteEnd_installMark {s : State} {c : Card} {i : Fin 3} {v : Word32} (ok : Bool)
    (hw : s.update.work = working c .installMark true) : s.updateWriteEnd (.mark i v) ok =
      if ok then (s.setMark i v).updateHandBack .done none (outNum 1 (c.slot 0).val ++ outNum 4 v.toNat)
      else s.updateHandBack .storeFault (some (Config.recordName (markRecord i))) [] := by
  unfold State.updateWriteEnd
  simp only [hw, working]

/-- The mark of a removal has been written: the custody unit is asked to remove the slot (R67). -/
theorem State.updateWriteEnd_removeMark {s : State} {c : Card} {i : Fin 3} {v : Word32}
    (hw : s.update.work = working c .removeMark true) : s.updateWriteEnd (.mark i v) true = { s with
      update := { s.update with marks := tableSet s.update.marks i v, work := working c .removeSlot true }
      custody := { s.custody with held := s.custody.held ++ [.remove (anchorSlot (c.slot 0).val)] } } := by
  unfold State.updateWriteEnd State.delegateRemoval State.updateStage State.updateCommit State.askCustody State.setMark
  simp only [hw, working, if_true, Option.map_some, Work.commit]

theorem State.updateWriteEnd_removeMark_fault {s : State} {c : Card} {i : Fin 3} {v : Word32}
    (hw : s.update.work = working c .removeMark true) : s.updateWriteEnd (.mark i v) false = s.updateRefuse .storeFault := by
  unfold State.updateWriteEnd
  simp only [hw, working, Bool.false_eq_true, if_false]

/-- The update unit sends a part event behind a change of state, and its card settles after the event (R66, R85). -/
theorem State.updateSendsEvent {s : State} {w : Work UpdateStage} (e : PartEvent) (rest : List Out) (hw : s.update.work = some w)
    (hq : s.quiet .updateAsk) (ho : s.outboxes.updateWipe = []) (hst : s.measure.starting = false) :
    (s.updateStage .sendingEvent).send .updateAsk (.request (.event e) :: rest) =
      ({ s with update := { s.update with work := some { w with stage := .sendingEvent } } } : State).awaits .updateAsk
        (.request (.event e) :: rest) := by
  rw [State.send_event_updateAsk (s := s.updateStage .sendingEvent) e rest hq ho hst]
  unfold State.updateStage
  rw [hw]
  rfl

/-- The card that has waited for its event's acceptance settles (R66, R85). -/
theorem State.sendLane_updateSettle {s : State} {w : Work UpdateStage} (o : CardOutcome) (d : Option Word32) (b : List OutByte)
    (hw : s.update.work = some w) (hc : s.carries) (hh : s.update.wipe ≠ .held) (ho : s.outboxes.updateWipe = []) :
    (s.setOutbox .updateAsk [.act (.updateSettle o d b)]).sendLane .updateAsk =
      { (s.setOutbox .updateAsk []).givesBack w.card o d b with update := { s.update with work := none } } := by
  have hperform : (s.setOutbox .updateAsk []).perform (.updateSettle o d b) =
      { (s.setOutbox .updateAsk []).givesBack w.card o d b with update := { s.update with work := none } } := by
    unfold State.perform
    dsimp only
    rw [State.updateRelease_eq (s := s.setOutbox .updateAsk []) o d b hw hc]
    exact if_neg (by rw [State.heldWipeIsFree_not_held (by exact hh)]; exact Bool.false_ne_true)
  refine State.sendLane_updateAsk ?_ ho
  unfold State.sendFuel
  refine (State.sendAll_act _ _ []).trans ?_
  rw [hperform]
  exact State.sendAll_done _ rfl

/-! ### The answer of the custody unit -/

theorem State.custodyRequestEnd_install {s : State} {i : Fin 6} {r : KeyRecord} (ok : Bool)
    (h : s.custody.service = some (.install i r .update)) : s.custodyRequestEnd ok =
      (if ok then ({ s with custody := { s.custody with service := none } } : State).setSlot (fixedSlot i) (some r)
        else { s with custody := { s.custody with service := none } }).updateCustodyAnswer ok := by
  unfold State.custodyRequestEnd
  rw [h]

theorem State.custodyRequestEnd_remove {s : State} {i : Fin 6} (ok : Bool)
    (h : s.custody.service = some (.remove i)) : s.custodyRequestEnd ok =
      (if ok then ({ s with custody := { s.custody with service := none } } : State).setSlot (fixedSlot i) none
        else { s with custody := { s.custody with service := none } }).updateCustodyAnswer ok := by
  unfold State.custodyRequestEnd
  rw [h]

/-- A delegate's slot has been installed: its mark is written (R65). -/
theorem State.updateCustodyAnswer_installSlot {s : State} {c : Card} (hw : s.update.work = working c .installSlot true)
    (hr : s.storeRoom .update) : s.updateCustodyAnswer true = { s with
      update := { s.update with work := working c .installMark true }
      store := s.store.queued (.mark (markIndex (c.slot 0).val) (c.fieldStr 69 32)) .updateCard } := by
  unfold State.updateCustodyAnswer
  simp only [hw, working, if_true]
  exact State.updateWrite_eq _ .installMark hw (by intro i v; simp) hr

theorem State.updateCustodyAnswer_installSlot_fault {s : State} {c : Card} (hw : s.update.work = working c .installSlot true) :
    s.updateCustodyAnswer false = s.updateHandBack .storeFault (some (BitVec.ofNat 32 (c.slot 0).val)) [] := by
  unfold State.updateCustodyAnswer
  simp only [hw, working, Bool.false_eq_true, if_false]

theorem State.updateCustodyAnswer_ownerInstall {s : State} {c : Card} (hw : s.update.work = working c .ownerInstall true) :
    s.updateCustodyAnswer true = (s.updateStage .sendingEvent).send .updateAsk
      [.request (.event .ownerAnchorInstalled), .act (.updateSettle .done none [])] := by
  unfold State.updateCustodyAnswer
  simp only [hw, working, if_true]

theorem State.updateCustodyAnswer_ownerInstall_fault {s : State} {c : Card} (hw : s.update.work = working c .ownerInstall true) :
    s.updateCustodyAnswer false = s.updateRefuse .storeFault := by
  unfold State.updateCustodyAnswer
  simp only [hw, working, Bool.false_eq_true, if_false]

/-- A slot has been removed, or could not be (R67, R68). -/
theorem State.updateCustodyAnswer_remove {s : State} {c : Card} {stage : UpdateStage} (ok : Bool)
    (hst : stage = .removeSlot ∨ stage = .ownerRemove) (hw : s.update.work = working c stage true) :
    s.updateCustodyAnswer ok = s.updateRefuse (if ok then .done else .storeFault) := by
  unfold State.updateCustodyAnswer
  obtain rfl | rfl := hst <;> simp only [hw, working]

/-! ### The end of a write in progress -/

/-- The end of a write that is DONE and sends no other write. -/
theorem exec_storeWriteEnd_inWrite {s t : State} {w : Write} {a : WriteTo} {rest : List WriteRequest} {first second : Bool}
    (h : s.inWrite w a rest) (hn : ∀ i v, w ≠ .cred i v) (hok : s.endsDone w first second = true)
    (ha : ({ s with store := (s.store.program w first second).1 } : State).answerWrite { write := w, answerTo := a } true = t)
    (ht : t.store = (s.store.program w first second).1) (hc : t.attemptWaits = false) :
    exec (.storeWriteEnd first second) s = .next { t with store := s.store.wrote w first second rest } := by
  obtain ⟨hp, -, -, -, -, hq, hw, -⟩ := h
  exact exec_storeWriteEnd_done hp hq hn hw hok ha ht hc

/-- The end of a write that fails, with its requester refused. -/
theorem exec_storeWriteEnd_inWrite_fault {s t : State} {w : Write} {a : WriteTo} {rest : List WriteRequest} {first second : Bool}
    (h : s.inWrite w a rest) (hn : ∀ i v, w ≠ .cred i v) (hbad : s.endsDone w first second = false)
    (ha : ({ s with store := (s.store.program w first second).1 } : State).storeFaulted.answerWrite { write := w, answerTo := a } false = t)
    (ht : t.store = (s.store.program w first second).1) (hc : t.attemptWaits = false) :
    exec (.storeWriteEnd first second) s = .next { t with store := s.store.wrote w first second rest } := by
  obtain ⟨hp, hl, he, hr, -, hq, hw, -⟩ := h
  exact exec_storeWriteEnd_fault hp hq hn hw hbad he hr hl ha ht hc

/-- A write carried out lets no block wait that did not wait before (R160). -/
theorem State.programmed_quiet {s : State} {c : Client} (w : Write) (first second : Bool) (h : s.quiet c) :
    ({ s with store := (s.store.program w first second).1 } : State).quiet c := by
  obtain ⟨-, hwaiting, -⟩ := s.store.program_queue w first second
  obtain ⟨ho, hwait⟩ := h
  unfold State.isWaiting at hwait
  refine ⟨ho, ?_⟩
  unfold State.isWaiting
  simpa only [hwaiting] using hwait

/-- A write carried out leaves the room in the store's queue as it was, until it leaves the queue (R160). -/
theorem State.programmed_storeRoom {s : State} {c : Client} (w : Write) (first second : Bool) (h : s.storeRoom c) :
    ({ s with store := (s.store.program w first second).1 } : State).storeRoom c := by
  obtain ⟨hqueue, -, -⟩ := s.store.program_queue w first second
  obtain ⟨hquiet, hroom⟩ := h
  exact ⟨State.programmed_quiet w first second hquiet, by simpa only [hqueue] using hroom⟩

/-- Settles O38, from the update unit's three kinds of ends. -/
theorem updateWritesEnd : Obligations.UpdateWritesEnd := by
  refine ⟨?card, ?request, ?event⟩
  case card =>
    intro s w first second rest c h hh ok u ends fails left told
    obtain ⟨-, -, -, -, hcarry, -, -, hattempt⟩ := id h
    let v : State := { s with store := (s.store.program w first second).1 }
    have hfails : ∀ {stage : UpdateStage} (d : Option Word32), s.update.work = working c stage true → (∀ i x, w ≠ .cred i x) →
        ok = false → v.storeFaulted.updateWriteEnd w false = v.storeFaulted.updateHandBack .storeFault d [] → ends (fails d) := by
      intro stage d hwork hn hbad he
      have ha := he.trans (State.updateHandBack_eq (s := v.storeFaulted) .storeFault d [] hwork hcarry hh)
      exact exec_storeWriteEnd_inWrite_fault h hn hbad ha rfl hattempt
    refine ⟨?commit, ?confirm, ?revert, ?installMark, ?removeMark⟩
    case commit =>
      intro k r x t hw hwork hs ht
      have hn : ∀ i y, w ≠ .cred i y := by intro i y; simp [hw]
      subst hw
      have hexp := State.guardExpiry_checked (s := v.storeFaulted.updateRefuse .storeFault) (x := x)
        (by rw [State.updateRefuse_eq (s := v.storeFaulted) .storeFault hwork hcarry hh]; exact hs)
        (by rw [State.updateRefuse_eq (s := v.storeFaulted) .storeFault hwork hcarry hh])
        (by rw [State.updateRefuse_eq (s := v.storeFaulted) .storeFault hwork hcarry hh]; exact hh)
      rw [State.updateRefuse_eq (s := v.storeFaulted) .storeFault hwork hcarry hh] at hexp
      refine ⟨fun hok => ?_, fun hbad htime => ?_, fun hbad htime => ?_⟩
      · have ha := (State.updateWriteEnd_commit (s := v) (k := k) hwork ht).trans
          (State.updateHandBack_eq (s := (v.setKind k r).leaveChecked) .done none _ hwork hcarry hh)
        exact exec_storeWriteEnd_inWrite h hn hok ha rfl hattempt
      · have ha := (State.updateWriteEnd_commit_fault (s := v.storeFaulted) (k := k) hwork).trans
          ((congrArg State.guardExpiry (State.updateRefuse_eq (s := v.storeFaulted) .storeFault hwork hcarry hh)).trans
            (hexp.trans (if_neg (Nat.not_le.mpr htime))))
        exact exec_storeWriteEnd_inWrite_fault h hn hbad ha rfl hattempt
      · have ha := (State.updateWriteEnd_commit_fault (s := v.storeFaulted) (k := k) hwork).trans
          ((congrArg State.guardExpiry (State.updateRefuse_eq (s := v.storeFaulted) .storeFault hwork hcarry hh)).trans
            (hexp.trans (if_pos htime)))
        exact exec_storeWriteEnd_inWrite_fault h hn hbad ha rfl hattempt
    case confirm =>
      intro k r version signer below hw hwork
      have hn : ∀ i y, w ≠ .cred i y := by intro i y; simp [hw]
      subst hw
      refine ⟨fun hok hq ho hst => ?_, fun hbad => ?_⟩
      · have ha := (State.updateWriteEnd_confirm (s := v) (k := k) hwork).trans
          (State.updateSendsEvent (s := v.setKind k r) (.updateConfirmed k version signer below)
            [.act (.updateSettle .done none (outNum 4 r.floor ++ outNum 4 version ++ outNum 1 below.toNat))] hwork hq ho hst)
        exact exec_storeWriteEnd_inWrite h hn hok ha rfl hattempt
      · exact hfails none hwork hn hbad (State.updateWriteEnd_confirm_fault hwork)
    case revert =>
      intro k r hw hwork
      have hn : ∀ i y, w ≠ .cred i y := by intro i y; simp [hw]
      subst hw
      refine ⟨fun hok => ?_, fun hbad => ?_⟩
      · have ha := (State.updateWriteEnd_revert (s := v) (k := k) true hwork).trans
          (State.updateRefuse_eq (s := v.setKind k r) .done hwork hcarry hh)
        exact exec_storeWriteEnd_inWrite h hn hok ha rfl hattempt
      · exact hfails none hwork hn hbad (State.updateWriteEnd_revert false hwork)
    case installMark =>
      intro i m hw hwork
      have hn : ∀ i y, w ≠ .cred i y := by intro i y; simp [hw]
      subst hw
      refine ⟨fun hok => ?_, fun hbad => ?_⟩
      · have ha := (State.updateWriteEnd_installMark (s := v) true hwork).trans
          (State.updateHandBack_eq (s := v.setMark i m) .done none _ hwork hcarry hh)
        exact exec_storeWriteEnd_inWrite h hn hok ha rfl hattempt
      · exact hfails _ hwork hn hbad (State.updateWriteEnd_installMark false hwork)
    case removeMark =>
      intro i m hw hwork
      have hn : ∀ i y, w ≠ .cred i y := by intro i y; simp [hw]
      subst hw
      refine ⟨fun hok => ?_, fun hbad => ?_⟩
      · exact exec_storeWriteEnd_inWrite h hn hok (State.updateWriteEnd_removeMark (s := v) hwork) rfl hattempt
      · exact hfails none hwork hn hbad (State.updateWriteEnd_removeMark_fault hwork)
  case request =>
    intro s w first second rest c i h hn hh ok u ends fails table
    obtain ⟨hp, -, -, -, hcarry, hq, hwait, hattempt⟩ := id h
    let v : State := { s with store := (s.store.program w first second).1 }
    let served (x : State) : State := { x with custody := { x.custody with service := none } }
    have hfails : ∀ {stage : UpdateStage} (d : Option Word32), s.update.work = working c stage true → ok = false →
        v.storeFaulted.custodyRequestEnd false = (served v.storeFaulted).updateHandBack .storeFault d [] → ends (fails d) := by
      intro stage d hwork hbad he
      have ha := he.trans (State.updateHandBack_eq (s := served v.storeFaulted) .storeFault d [] hwork hcarry hh)
      exact exec_storeWriteEnd_inWrite_fault h hn hbad ha rfl hattempt
    refine ⟨fun r hserve hwork => ⟨?delegate, fun hbad => ?_⟩,
      fun r hserve hwork => ⟨fun hok hquiet ho hst => ?_, fun hbad => ?_⟩,
      fun stage hst hserve hwork => ⟨fun hok => ?_, fun hbad => ?_⟩⟩
    case delegate =>
      intro hok hroom m
      obtain ⟨hqueue, hwaiting, -⟩ := s.store.program_queue w first second
      have ha := (State.custodyRequestEnd_install (s := v) true hserve).trans
        (State.updateCustodyAnswer_installSlot (s := (served v).setSlot (fixedSlot i) (some r)) hwork
          (State.programmed_storeRoom w first second hroom))
      have hmore : (s.store.program w first second).1.queue ++ [({ write := m, answerTo := .updateCard } : WriteRequest)] = _ :=
        congrArg (· ++ _) (hqueue.trans hq)
      exact exec_storeWriteEnd_sends hp hq hn hok ha (hwaiting.trans hwait) hattempt hmore
    · exact hfails _ hwork hbad ((State.custodyRequestEnd_install (s := v.storeFaulted) false hserve).trans
        (State.updateCustodyAnswer_installSlot_fault (s := served v.storeFaulted) hwork))
    · have ha := ((State.custodyRequestEnd_install (s := v) true hserve).trans
        (State.updateCustodyAnswer_ownerInstall (s := (served v).setSlot (fixedSlot i) (some r)) hwork)).trans
        (State.updateSendsEvent (s := (served v).setSlot (fixedSlot i) (some r)) .ownerAnchorInstalled
          [.act (.updateSettle .done none [])] hwork
          (State.programmed_quiet w first second hquiet) ho hst)
      exact exec_storeWriteEnd_inWrite h hn hok ha rfl hattempt
    · exact hfails none hwork hbad ((State.custodyRequestEnd_install (s := v.storeFaulted) false hserve).trans
        (State.updateCustodyAnswer_ownerInstall_fault (s := served v.storeFaulted) hwork))
    · have ha := ((State.custodyRequestEnd_remove (s := v) true hserve).trans
        (State.updateCustodyAnswer_remove (s := (served v).setSlot (fixedSlot i) none) true hst hwork)).trans
        (State.updateRefuse_eq (s := (served v).setSlot (fixedSlot i) none) .done hwork hcarry hh)
      exact exec_storeWriteEnd_inWrite h hn hok ha rfl hattempt
    · exact hfails none hwork hbad ((State.custodyRequestEnd_remove (s := v.storeFaulted) false hserve).trans
        (State.updateCustodyAnswer_remove (s := served v.storeFaulted) false hst hwork))
  case event =>
    intro s c e o d b h ho hh hcarry hwork
    have ht := State.sendLane_updateSettle (s := ({ s with measureWaiting := [] } : State).joinList (.event e)) o d b hwork hcarry hh ho
    obtain ⟨hp, hend, -⟩ := id h
    exact exec_partEvent_waiting h ht rfl hp hend rfl

end Sys2Proof.Machine
end

