-- ==== Sys2Proof/Proofs/InternalRequests.lean ====
section
/-! SUPPORT. The service of binding checks and chain reads, and the answers they bring (R9 to R11, R15, R41 to R44, R84, R85, R110). -/
namespace Sys2Proof.Machine

/-! ### The beginning of a service -/

/-- The part with the first entry of the measure unit's list served and gone from it, no block waiting to send another (R38). -/
def State.served (s : State) (rest : List MeasureRequest) : State :=
  { s with measure := { s.measure with service := none, internal := rest } }

theorem State.endService_served {s : State} {r : MeasureRequest} {rest : List MeasureRequest} (hi : s.measure.internal = r :: rest)
    (hm : s.measureWaiting = []) : s.endService = s.served rest := by
  rw [State.endService_none hm, hi]
  rfl

/-- A chain read whose answer is wanted is answered at once with the chain's value (R44). -/
theorem State.serveChainRead_eq {s t : State} {chain : Fin 11} {rest : List MeasureRequest} (hp : s.powered = true)
    (hst : s.measure.starting = false) (hs : s.measure.service = none) (hw : s.measure.work = none)
    (hi : s.measure.internal = .chainRead chain true :: rest) (hm : s.measureWaiting = [])
    (ht : (s.served rest).updateChainAnswer (s.chain (chainOf chain)) = t) (hn : t.measure.work = none) : s.serveChainRead = t := by
  unfold State.serveChainRead
  rw [State.serving_noWork hp hst hs hw, hi]
  simp only [List.head?_cons, State.holdWaitingJob_noWork hw, State.endService_served hi hm, if_true, ht]
  exact State.resumeMeasure_noWork hn

/-! ### The answers -/

/-- What a binding check's answer brings the block that asked (R41). -/
def State.checkAnswer (asker : Checker) (ok : Bool) (s : State) : State :=
  match asker with
  | .custody => s.custodyBindingAnswer ok
  | .credential => s.credBindingAnswer ok

/-- A binding check whose answer is wanted is answered, and leaves the list (R38, R41). -/
theorem State.answerCheck_eq {s t : State} {asker : Checker} {b : Binding} {rest : List MeasureRequest} (ok : Bool)
    (hi : s.measure.internal = .check asker b true :: rest) (hm : s.measureWaiting = [])
    (ht : (s.served rest).checkAnswer asker ok = t) (hn : t.measure.work = none) : s.answerCheck asker ok = t := by
  have hwanted : s.answerWanted = true := by simp [State.answerWanted, hi]
  unfold State.answerCheck
  rw [hwanted, State.endService_served hi hm, ← State.resumeMeasure_noWork hn, ← ht]
  rfl

/-- The slot that the refusal of a card's binding check names (R11). -/
def boundSlot (use : KeyUse) (c : Card) : Fin 48 :=
  match use with
  | .sign => c.slot 0
  | .mac => c.slot 0
  | .unwrap => wrapSlot c
  | .wrapping => wrapSlot c
  | .source => c.slot 0

/-- What a custody card goes on to when its slot's binding is satisfied (R9, R13 to R15). -/
def State.bindingSatisfied (use : KeyUse) (c : Card) (s : State) : State :=
  match use with
  | .sign => s.signStart c
  | .mac => s.macStart c
  | .unwrap => s.importRead c
  | .wrapping => s.wrapWrapping c
  | .source => s.wrapSource c

theorem State.custodyBindingAnswer_eq {s : State} {use : KeyUse} {c : Card} {m : Bool} (ok : Bool)
    (hw : s.custody.work = working c (.binding use) m) : s.custodyBindingAnswer ok =
      if ok then s.bindingSatisfied use c else s.custodyRefuseSlot .unbound (boundSlot use c) := by
  unfold State.custodyBindingAnswer
  cases use <;> simp only [hw, working] <;> rfl

theorem State.credBindingAnswer_eq {s : State} {i : Fin 32} {e : CredEntry} {c : Card} {m : Bool} (ok : Bool)
    (hw : s.credential.work = working c (.binding i) m) (he : s.cred i = some e) : s.credBindingAnswer ok =
      if ok then s.releaseSecret e else s.credRefuse .unbound := by
  unfold State.credBindingAnswer
  simp only [hw, working, he]

/-- The last hash job of a binding check has ended: the check is answered (R41 to R43). -/
theorem exec_hashPieceEnd_check {s t : State} {input : List Byte} {asker : Checker} {b : Binding} {x : MeasureService} {ok : Bool}
    {rest : List MeasureRequest} (h : HostWrites) (answered : Bool) (hp : s.powered = true) (hl : input.length ≤ 4096)
    (hr : s.hash.running = some (shaRun input)) (hs : s.measure.service = some x)
    (hi : s.measure.internal = .check asker b true :: rest) (hm : s.measureWaiting = [])
    (hx : (∃ expected, x = .composite asker expected ∧ ok = decide (Config.sha256 input = expected))
      ∨ ∃ value hit, x = .candidates asker value [] hit ∧ ok = (hit || decide (Config.sha256 input = value)))
    (ht : ((s.atPieceEnd h .measure).served rest).checkAnswer asker ok = t) (hn : t.measure.work = none) (he : t.startUp = .ended) :
    exec (.hashPieceEnd h answered) s = .next { t with hash := t.hash.release } := by
  have hanswer : (s.atPieceEnd h .measure).serviceHashEnd x (Config.sha256 input) = (s.atPieceEnd h .measure).answerCheck asker ok := by
    obtain ⟨expected, rfl, rfl⟩ | ⟨value, hit, rfl, rfl⟩ := hx <;> rfl
  have hu := (((s.atPieceEnd h .measure).shaPiece_ends (answered && s.linkUp && !s.readCut .measure) hl).trans
    ((State.measureHashEnd_service (s := s.atPieceEnd h .measure) _ hs).trans hanswer)).trans
    (State.answerCheck_eq (s := s.atPieceEnd h .measure) ok hi hm ht hn)
  exact exec_hashPieceEnd_ended h hp hr rfl hu he

theorem State.custodyStage_eq {s : State} {w : Work CustodyStage} (x : CustodyStage) (hw : s.custody.work = some w) :
    s.custodyStage x = { s with custody := { s.custody with work := some { w with stage := x } } } := by
  unfold State.custodyStage
  rw [hw]
  rfl

/-- Settles O31, from the beginnings of the services and the answers they bring. -/
theorem internalRequestsAreServed : Obligations.InternalRequestsAreServed := by
  refine ⟨?begins, ?accepted, ?candidate, ?answers⟩
  case begins =>
    intro s rest hp hst hs hw
    refine ⟨fun e hi hm hend => ?_, fun asker mask expected wanted hi => ?_, ?image, ?chain⟩
    · have harrive : s.requestsArrive = s := State.pumpMeasure_none _ hm
      rw [exec_partEvent hp, harrive, State.startUpGoesOn_ended hend, State.serveEvent_eq hp hst hs hw hi]
    · show Host.Outcome.next s.serveCheck = _
      unfold State.serveCheck
      rw [State.serving_noWork hp hst hs hw, hi]
      simp only [List.head?_cons, State.holdWaitingJob_noWork hw]
      rfl
    case image =>
      intro asker kind chain wanted x hi hx others
      have haccepted : (s.kindRecord kind).accepted = x.digest :: others := by
        unfold KindRecord.accepted
        rw [hx]
        rfl
      show Host.Outcome.next s.serveCheck = _
      unfold State.serveCheck
      rw [State.serving_noWork hp hst hs hw, hi]
      simp only [List.head?_cons, State.holdWaitingJob_noWork hw, haccepted]
      rfl
    case chain =>
      intro chain c expected x hi hwork hx hm hpaused record below
      have hanswer : (s.served rest).updateChainAnswer (s.chain (chainOf chain)) = if s.chain (chainOf chain) = expected then
          (s.served rest).updateWrite (.kind c.kind record) (.confirm record x.version x.signer below)
          else (s.served rest).updateRefuse .notRunning := by
        have hx' : ((s.served rest).kindRecord c.kind).trial = some x := hx
        have hwork' : (s.served rest).update.work = working c (.confirmChain expected) false := hwork
        unfold State.updateChainAnswer
        simp only [hwork', working]
        unfold State.confirmChain
        simp only [hx']
        rfl
      refine ⟨fun hv hroom => ?_, fun hv hh hcarry => ?_⟩
      · have ht := (hanswer.trans (if_pos hv)).trans
          (State.updateWrite_eq (s := s.served rest) _ _ hwork (by intro i v; simp) hroom)
        show Host.Outcome.next s.serveChainRead = _
        rw [State.serveChainRead_eq hp hst hs hw hi hm ht hw]
        unfold State.served
        rw [← hs]
        rfl
      · have ht := (hanswer.trans (if_neg hv)).trans (State.updateRefuse_eq (s := s.served rest) .notRunning hwork hcarry hh)
        show Host.Outcome.next s.serveChainRead = _
        rw [State.serveChainRead_eq hp hst hs hw hi hm ht hw]
        unfold State.served
        rw [← hs]
        rfl
  case accepted =>
    intro s c e h hc
    obtain ⟨hp, hend, -⟩ := id h
    have ht := (State.sendLane_eq ((({ s with measureWaiting := [] } : State).joinList (.event e)).setOutbox c []) hc).trans
      (State.sendAll_done _ (Outboxes.get_set _ _ _))
    exact exec_partEvent_waiting h ht rfl hp hend rfl
  case candidate =>
    intro s h answered input asker value d hit hp hend hl hr hs
    have hu := ((s.atPieceEnd h .measure).shaPiece_ends (answered && s.linkUp && !s.readCut .measure) hl).trans
      (State.measureHashEnd_service (s := s.atPieceEnd h .measure) _ hs)
    exact exec_hashPieceEnd_ended h hp hr rfl hu hend
  case answers =>
    intro s h answered input c asker b x ok rest hp hend hl hr hs hi hwork hm hcarry hx pointed u answer refused stage
    let v : State := (s.atPieceEnd h .measure).served rest
    have hgo : ∀ t : State, v.checkAnswer asker ok = t → t.measure.work = none → t.startUp = .ended →
        exec (.hashPieceEnd h answered) s = .next { t with hash := t.hash.release } :=
      fun t ht hn he => exec_hashPieceEnd_check h answered hp hl hr hs hi hm hx ht hn he
    refine ⟨?custody, ?credential⟩
    case custody =>
      rintro rfl
      have hends : ∀ {use : KeyUse} {t : State}, s.custody.work = working c (.binding use) false → v.bindingSatisfied use c = t →
          t.measure.work = none → t.startUp = .ended → answer { t with hash := t.hash.release }
            { u.givesBack c .unbound (some (BitVec.ofNat 32 (boundSlot use c).val)) [] with
              custody := { s.custody with work := none, undo := none } } := by
        intro use t hw ht hn he
        have hanswer := State.custodyBindingAnswer_eq (s := v) ok hw
        cases ok with
        | true => exact hgo t (hanswer.trans ht) hn he
        | false =>
          exact hgo _ (hanswer.trans (State.custodyRefuseSlot_eq (s := v) .unbound (boundSlot use c) hw hcarry)) hwork hend
      refine ⟨fun hw => ?_, fun r k hw hslot hmac => ?_, fun hw hlen => ?_, ?wrap⟩
      · have ht : v.bindingSatisfied .sign c = { v with
            custody := stage .curveSign
            curve := s.curve.submit s.identityScalar .custody (.sign (s.scalarOf (c.slot 0)) (c.fieldStr 2 256)) } := by
          show v.signStart c = _
          unfold State.signStart
          rw [State.custodyStage_eq (s := v) _ hw]
          rfl
        exact hends hw ht hwork hend
      · have ht : v.bindingSatisfied .mac c = { v with
            custody := stage .mac
            hash := pointed.submit .custody
              { fn := .hmac k, absorbed := [], source := .extents c.extentSource, finalize := true } } := by
          show v.macStart c = _
          unfold State.macStart
          rw [State.macKeyOf_eq (s := v) hslot hmac, State.custodyStage_eq (s := v) _ hw]
          rfl
        exact hends hw ht hwork hend
      · have ht := (if_neg (not_not.mpr hlen) : v.importRead c = _).trans (State.custodyStage_eq (s := v) .readBlob hw)
        exact hends hw ht hwork hend
      case wrap =>
        intro w key k hslot hlive hnolimit hwrap hkey text sealed
        have hsource : key.limit = none → v.wrapSource c = v.custodyGate (State.wrapSeal c) := by
          intro hl'
          refine if_neg ?_
          show ¬((s.slot (c.slot 0)).bind (·.limit)).isSome = true
          simp [hkey, hl']
        have hseal : ∀ {use : KeyUse}, s.custody.work = working c (.binding use) false → v.wrapSeal c = _ :=
          fun hw => State.wrapSeal_eq (s := v) hw hslot hlive hnolimit hwrap hkey
        refine ⟨fun hw huse => ⟨fun b' hb' hquiet hroom => ?_, fun hb' hl' hc => ?_⟩,
          fun hw => ⟨fun hl' => ?_, fun hl' hc => ?_, fun hl' hc => ?_, fun hl' hc => ?_⟩⟩
        · have hask : v.measureRoom .custodyAsk := ⟨hquiet, hroom, by simp [v, State.served, State.atPieceEnd, hm], by simp⟩
          have ht := State.useCheck_bound (s := v) (State.wrapSource c) hkey huse hb' hask
          rw [State.custodyStage_eq (s := v) _ hw] at ht
          exact hends hw ht hwork hend
        · have ht := ((State.useCheck_unbound (s := v) (State.wrapSource c) hkey huse hb').trans (hsource hl')).trans
            ((State.custodyGate_healthy (s := v) _ hc).trans (hseal hw))
          exact hends hw ht hwork hend
        · have hrefused : v.wrapSource c = v.custodyRefuseSlot .notPermitted (c.slot 0) := by
            refine if_pos ?_
            show ((s.slot (c.slot 0)).bind (·.limit)).isSome = true
            rw [hkey]
            exact Option.isSome_iff_ne_none.mpr hl'
          exact hends hw (hrefused.trans (State.custodyRefuseSlot_eq (s := v) .notPermitted (c.slot 0) hw hcarry)) hwork hend
        · have ht := (hsource hl').trans ((State.custodyGate_healthy (s := v) _ hc).trans (hseal hw))
          exact hends hw ht hwork hend
        · have ht := (hsource hl').trans ((State.custodyGate_doubt (s := v) (State.wrapSeal c) hc).trans
            (congrArg (State.joinWaiters .custody) (State.custodyStage_eq (s := v) .gate hw)))
          exact hends hw ht hwork hend
        · have ht := (hsource hl').trans ((State.custodyGate_failed (s := v) (State.wrapSeal c) hc).trans
            (State.custodyRefuse_eq (s := v) .entropy hw hcarry))
          exact hends hw ht hwork hend
    case credential =>
      intro i e hasker hw he secret free
      subst hasker
      have hanswer := State.credBindingAnswer_eq (s := v) ok hw he
      cases ok with
      | true =>
        exact hgo _ (hanswer.trans (State.credHandBack_eq (s := v) .done _ _ hw hcarry)) hwork hend
      | false => exact hgo _ (hanswer.trans (State.credRefuse_eq (s := v) .unbound hw hcarry)) hwork hend

end Sys2Proof.Machine
end

