-- ==== Sys2Proof/Proofs/FixedSlots.lean ====
section
/-! SUPPORT. A state in which a key management card lets a write of a fixed slot into the store's queue. -/
namespace Sys2Proof.Machine

/-- A KEY IMPORT of a key of class SESSION into slot 32, under the key of slot 6. -/
def strandedCard : Card :=
  { take := 0, num := 1, ticket := 1#16, code := 0x0102#16,
    bytes := [0, 0, 0, 0, 0, 0, 1, 0, 0, 0, 0, 0, 0, 0, 0, 0, 32, 6, 7, 0, 0, 0, 0] }

/-- A LIVE wrapping key with a binding. -/
def strandedKey : KeyRecord :=
  { state := .live, cls := .platform, material := .wrap256 0#256,
    flags := { sign := false, mac := false, wrap := true, exportable := false, needsPresence := false },
    binding := some (.exactly 0#12 0#256), limit := none, total := 0, label := [], anchor := none }

/-- A part that is UNCLAIMED, with that card first in the custody unit's queue, that key in slot 6, and, in what the custody unit has still
to send with its requests to the measure unit, a write of slot 0 that no card waits for. -/
def stranded : State :=
  { State.reset with
    exch := { Exchange.reset with buffers := [{ card := strandedCard, unit := some .custody, phase := .waiting }] }
    custody := { Custody.reset with table := tableSet Custody.reset.table 6 (some strandedKey) }
    lifecycle := { Lifecycle.reset with effective := .unclaimed }
    outboxes := { Outboxes.empty with custodyAsk := [.write (.slot 0 none) .nobody] } }

theorem stranded_ready : stranded.custodyReady 0x0102#16 = some strandedCard := by decide

theorem strandedCard_form : keyImportForm strandedCard = none := by decide

theorem stranded_mayCreate : stranded.mayCreate (keyImportFields strandedCard).cls (keyImportFields strandedCard).target := by
  refine ⟨.inl ⟨by decide, by decide⟩, by decide, by decide, by decide⟩

/-- The card's binding check is sent behind the write, which the store's queue has room for (R38, R160). -/
theorem stranded_sends : ((stranded.custodyBegun strandedCard).useCheck .unwrap 6 (State.importRead strandedCard)).store.queue =
    [{ write := .slot 0 none, answerTo := .nobody }] := by decide

theorem exec_keyImport_stranded : exec .keyImport stranded =
    .next ((stranded.custodyBegun strandedCard).useCheck .unwrap 6 (State.importRead strandedCard)) := by
  show Host.Outcome.next (stranded.beginCustody _ _) = _
  rw [State.beginCustody_eq _ stranded_ready,
    State.keyImport_useCheck (s := stranded.custodyBegun strandedCard) strandedCard_form stranded_mayCreate]
  rfl

/-- Refutes O11: a KEY IMPORT whose unwrapping slot is bound sends its binding check behind what the custody unit has still to send there,
and what stands there in `stranded` is a write of slot 0, which enters the store's queue. -/
theorem not_keyManagementSparesFixedSlots : ¬ Obligations.KeyManagementSparesFixedSlots := by
  unfold Obligations.KeyManagementSparesFixedSlots
  intro h
  obtain ⟨-, hstep⟩ := h .keyImport 0x0102#16 keyImportForm (.inr (.inl ⟨rfl, rfl, rfl⟩))
  obtain ⟨-, hwrites, -⟩ := hstep stranded _ exec_keyImport_stranded
  obtain ⟨hqueue, -⟩ := hwrites rfl
  rw [stranded_sends] at hqueue
  obtain hold | hnew := hqueue _ (List.mem_singleton.mpr rfl)
  · exact absurd hold List.not_mem_nil
  · exact absurd (hnew 0 none rfl) (by decide)

end Sys2Proof.Machine
end

