-- ==== Sys2Proof/Proofs/StartUp.lean ====
section
/-! SUPPORT. Start-up's steps, what they load and send, and how they end (R4, R45, R63, R69, R83, R104, R119, R135, R157, R164, R165). -/
namespace Sys2Proof.Machine

/-! ### Records as start-up loads them (R159) -/

/-- Of two copies that pass, at most one takes the other's place. -/
theorem takesAlternate_asymm {a b : Word32} (h : takesAlternate a b = true) : takesAlternate b a = false := by
  unfold takesAlternate at h ⊢
  by_cases hb : b = a + 1#32
  · have ha : a ≠ b + 1#32 := by bv_omega
    rw [if_neg ha, if_pos hb]
  · rw [if_neg hb] at h
    by_cases ha : a = b + 1#32
    · rw [if_pos ha] at h
      exact absurd h Bool.false_ne_true
    · rw [if_neg ha] at h
      rw [if_neg ha, if_neg hb]
      have hlt : a.toNat < b.toNat := of_decide_eq_true h
      exact decide_eq_false (by omega)

/-- Cells that start-up has settled stay as they are when they are settled again. -/
theorem Cells.settled_settled {α : Type} (c : Cells α) : c.settled.settled = c.settled := by
  obtain ⟨cur, alt⟩ := c
  cases alt with
  | none => rfl
  | some alt =>
    cases hc : cur.passing <;> cases ha : alt.passing
    case none.none => simp [Cells.settled, hc, ha]
    case none.some => simp [Cells.settled, hc, ha]
    case some.none => simp [Cells.settled, hc, ha]
    case some.some k l =>
      cases ht : takesAlternate k.gen l.gen
      · simp [Cells.settled, hc, ha, ht]
      · simp [Cells.settled, hc, ha, ht, takesAlternate_asymm ht]

theorem Cells.loaded_settled {α : Type} (c : Cells α) : c.settled.loaded = c.loaded := by
  unfold Cells.loaded
  rw [Cells.settled_settled]

theorem tableGet_map {α β : Type} {n : Nat} (v : Vector α n) (f : α → β) (i : Fin n) : tableGet (v.map f) i = f (tableGet v i) := by
  simp [tableGet]

theorem tableGet_ofFn {α : Type} {n : Nat} (f : Fin n → α) (i : Fin n) : tableGet (Vector.ofFn f) i = f i := by
  simp [tableGet]

/-- A list of places that only one meets a condition of. -/
theorem filter_finRange_singleton {n : Nat} {f : Fin n → Bool} {i : Fin n} (hi : f i = true) (h : ∀ j, j ≠ i → f j = false) :
    (List.finRange n).filter f = [i] := by
  have hf : f = (· == i) := by
    funext j
    by_cases hj : j = i
    · simp [hj, hi]
    · simp [hj, h j hj]
  rw [hf, List.filter_beq, List.count_eq_one_of_mem (List.nodup_finRange n) (List.mem_finRange i)]
  rfl

theorem filter_finRange_nil {n : Nat} {f : Fin n → Bool} (h : ∀ j, f j = false) : (List.finRange n).filter f = [] := by
  simp [List.filter_eq_nil_iff, h]

/-! ### What the accessors read -/

theorem State.slot_congr {s t : State} (h : t.custody.table = s.custody.table) (i : Fin 48) : t.slot i = s.slot i := by
  unfold State.slot
  rw [h]

theorem State.mark_congr {s t : State} (h : t.update.marks = s.update.marks) (i : Fin 3) : t.mark i = s.mark i := by
  unfold State.mark
  rw [h]

theorem State.cred_congr {s t : State} (h : t.credential.table = s.credential.table) (i : Fin 32) : t.cred i = s.cred i := by
  unfold State.cred
  rw [h]

theorem State.kindRecord_congr {s t : State} (h : t.update.kinds = s.update.kinds) (k : Fin 8) : t.kindRecord k = s.kindRecord k := by
  unfold State.kindRecord
  rw [h]

theorem State.storeRoom_congr {s t : State} {c : Client} (ho : t.outboxes = s.outboxes) (hm : t.measureWaiting = s.measureWaiting)
    (hw : t.store.waiting = s.store.waiting) (hq : t.store.queue = s.store.queue) (h : s.storeRoom c) : t.storeRoom c := by
  unfold State.storeRoom State.quiet State.isWaiting at *
  rw [ho, hm, hw, hq]
  exact h

theorem State.requestsServed_congr {s t : State} (h : t.measure.internal = s.measure.internal)
    (hs : t.measure.service = s.measure.service) (hm : t.measureWaiting = s.measureWaiting) : t.requestsServed = s.requestsServed := by
  unfold State.requestsServed
  rw [h, hs, hm]

/-! ### Steps 1 to 3 (R4, R63, R104, R119) -/

/-- The part with the records of steps 1 to 3 in its tables. -/
@[irreducible] def State.recordsPlaced (s : State) : State := ({ s with store := s.store.settled } : State).startStep1.startStep2.startStep3

theorem State.beginStartUp_placed (s : State) : s.beginStartUp =
    if s.recordsPlaced.strayCreds.isEmpty then s.recordsPlaced.beginStep4
    else (s.recordsPlaced.atStep (.step3 s.recordsPlaced.strayCreds.length)).send .credential
      (s.recordsPlaced.strayCreds.map fun i => .write (.cred i none) .credStartUp) := by
  unfold State.recordsPlaced
  rfl

/-- What steps 1 to 3 leave as it was. -/
theorem State.recordsPlaced_frame (s : State) : s.recordsPlaced.exch = s.exch ∧ s.recordsPlaced.measure = s.measure
    ∧ s.recordsPlaced.census = s.census ∧ s.recordsPlaced.pace = s.pace ∧ s.recordsPlaced.outboxes = s.outboxes
    ∧ s.recordsPlaced.measureWaiting = s.measureWaiting ∧ s.recordsPlaced.host = s.host
    ∧ s.recordsPlaced.store = s.store.settled := by
  unfold State.recordsPlaced State.startStep3 State.startStep2 State.startStep1
  dsimp only
  exact ⟨rfl, rfl, rfl, rfl, rfl, rfl, rfl, rfl⟩

theorem State.recordsPlaced_storeRoom {s : State} {c : Client} (h : s.storeRoom c) : s.recordsPlaced.storeRoom c := by
  obtain ⟨-, -, -, -, hout, hwaiting, -, hsettled⟩ := s.recordsPlaced_frame
  exact State.storeRoom_congr hout hwaiting (congrArg (·.waiting) hsettled) (congrArg (·.queue) hsettled) h

/-- The lifecycle record as step 1 loads it (R119). -/
def Store.lifeRecord (st : Store) : LifeRecord := st.lifecycle.loaded.getD LifeRecord.fresh

theorem State.recordsPlaced_lifecycle (s : State) : s.recordsPlaced.lifecycle = { s.lifecycle with
    effective := s.store.lifeRecord.effective
    marker := s.store.lifeRecord.marker
    requested := if s.store.lifeRecord.marker then .unclaimed else s.store.lifeRecord.effective
    pending := s.store.lifeRecord.marker
    progress := if s.store.lifeRecord.marker then .incomplete else .none
    counts := WipeCounts.zero
    presence := none
    hold := 0
    holdDue := false
    certificate := s.store.certificate.loaded } := by
  unfold State.recordsPlaced State.startStep1 State.startStep2 State.startStep3 Store.settled Store.lifeRecord
  simp only [Cells.loaded_settled]

theorem State.recordsPlaced_slot (s : State) (i : Fin 48) :
    s.recordsPlaced.slot i = if h : i.val < 32 then (tableGet s.store.slots ⟨i.val, h⟩).loaded else none := by
  have htable : s.recordsPlaced.slot i = (storeSlot i).bind fun j => (tableGet s.store.settled.slots j).loaded := by
    unfold State.recordsPlaced
    exact tableGet_ofFn _ _
  rw [htable]
  unfold storeSlot Store.settled
  split
  · simp [tableGet_map, Cells.loaded_settled]
  · rfl

theorem State.recordsPlaced_mark (s : State) (i : Fin 3) : s.recordsPlaced.mark i = (tableGet s.store.marks i).loaded.getD 0#32 := by
  have htable : s.recordsPlaced.mark i = (tableGet s.store.settled.marks i).loaded.getD 0#32 := by
    unfold State.recordsPlaced
    exact tableGet_map _ _ _
  rw [htable]
  simp [Store.settled, tableGet_map, Cells.loaded_settled]

/-- Whether step 3 places a stored credential record (R104). -/
def Store.places (st : Store) (r : CredRecord) : Bool :=
  decide (r.cls = .factory) || decide (st.lifeRecord.effective = .claimed)

theorem State.recordsPlaced_placesCred (s : State) (r : CredRecord) : s.recordsPlaced.placesCred r = s.store.places r := by
  unfold State.placesCred Store.places
  rw [State.recordsPlaced_lifecycle]

theorem State.recordsPlaced_cred (s : State) (i : Fin 32) : s.recordsPlaced.cred i =
    (((tableGet s.store.creds i).loaded.filter s.store.places).map fun r =>
      { record := { r with lastTick := s.pace.tick }, working := r.debt, writes := 0, attempt := false }) := by
  have hplaces : s.recordsPlaced.placesCred = s.store.places := funext (State.recordsPlaced_placesCred s)
  have htable : s.recordsPlaced.cred i = ((tableGet s.store.settled.creds i).loaded.filter s.recordsPlaced.placesCred).map
      (CredEntry.loadedAt s.pace.tick) := by
    unfold State.recordsPlaced
    exact tableGet_map _ _ _
  rw [htable, hplaces]
  simp only [Store.settled, tableGet_map, Cells.loaded_settled]
  rfl

/-- The stored records that step 3 removes (R104). -/
theorem State.recordsPlaced_strayCreds (s : State) : s.recordsPlaced.strayCreds =
    (List.finRange 32).filter fun i => (tableGet s.store.creds i).loaded.any fun r => !s.store.places r := by
  unfold State.strayCreds
  congr 1
  funext i
  obtain ⟨-, -, -, -, -, -, -, hsettled⟩ := s.recordsPlaced_frame
  have hstore : (tableGet s.recordsPlaced.store.creds i).loaded = (tableGet s.store.creds i).loaded := by
    rw [hsettled]
    exact (congrArg Cells.loaded (tableGet_map _ _ _)).trans (Cells.loaded_settled _)
  rw [hstore]
  cases h : (tableGet s.store.creds i).loaded with
  | none => rfl
  | some r => simp [State.recordsPlaced_placesCred]

/-! ### Steps 4 and 5 (R45, R69, R83) -/

theorem State.startStep4_kindRecord (s : State) (k : Fin 8) :
    s.startStep4.kindRecord k = (tableGet s.store.kinds k).loaded.getD KindRecord.fresh := tableGet_map _ _ _

theorem State.recordsPlaced_kindRecord (s : State) (k : Fin 8) :
    s.recordsPlaced.startStep4.kindRecord k = (tableGet s.store.kinds k).loaded.getD KindRecord.fresh := by
  obtain ⟨-, -, -, -, -, -, -, hsettled⟩ := s.recordsPlaced_frame
  rw [State.startStep4_kindRecord, hsettled]
  exact congrArg (fun c : Option KindRecord => c.getD KindRecord.fresh)
    ((congrArg Cells.loaded (tableGet_map _ _ _)).trans (Cells.loaded_settled _))

/-- With no kind on trial, step 4 writes nothing (R83). -/
theorem State.beginStep4_noTrial {s : State} (h : ∀ k, (s.startStep4.kindRecord k).trial = none) :
    s.beginStep4 = s.startStep4.startStep5 := by
  have hkinds : s.startStep4.trialKinds = [] := filter_finRange_nil fun k => by rw [h k]; rfl
  unfold State.beginStep4
  simp [hkinds]

/-- With one kind on trial, step 4 sends its record with one boot fewer, or without its trial (R83). -/
theorem State.beginStep4_oneTrial {s : State} {k : Fin 8} {x : Trial} (hk : (s.startStep4.kindRecord k).trial = some x)
    (h : ∀ j, j ≠ k → (s.startStep4.kindRecord j).trial = none) (hr : s.storeRoom .update) :
    s.beginStep4 = { s.startStep4 with
      startUp := .step4 1
      store := s.store.queued (.kind k (s.startStep4.kindRecord k).booted) .updateStartUp } := by
  have hkinds : s.startStep4.trialKinds = [k] :=
    filter_finRange_singleton (by rw [hk]; rfl) fun j hj => by rw [h j hj]; rfl
  unfold State.beginStep4
  simp only [hkinds, List.isEmpty_cons, Bool.false_eq_true, if_false, List.map_cons, List.map_nil, List.length_singleton]
  exact State.send_plainWrite (s := s.startStep4.atStep (.step4 1)) hr (by decide) (by intro i v; simp)

/-- The measure unit as it leaves its starting state (R45). -/
def Measure.opened (m : Measure) : Measure :=
  { m with
    chains := Vector.replicate 12 0#256, closed := 0#11, records := [], missed := 0, truncated := false, quoteSeq := 0, starting := false }

/-- Step 5 lasts until the part events held since the reset are served (R45, R164). -/
theorem State.startStep5_eq (s : State) : s.startStep5 = { s with
    measure := s.measure.opened
    startUp := if s.requestsServed then .step6 else .step5
    census := if s.requestsServed then s.census.begun else s.census } := by
  have hsteps : s.startStep5 = if s.requestsServed then { s with measure := s.measure.opened, startUp := .step6, census := s.census.begun }
      else { s with measure := s.measure.opened, startUp := .step5 } := rfl
  rw [hsteps]
  cases s.requestsServed <;> rfl

theorem State.mayStart_queues {s : State} (h : s.mayStart = true) : s.store.queue = [] ∧ s.store.waiting = [] := by
  unfold State.mayStart at h
  simp only [Bool.and_eq_true, List.isEmpty_iff] at h
  exact ⟨h.1.2, h.2⟩

theorem exec_startUp {s : State} (h : s.mayStart = true) : exec .startUp s = .next s.beginStartUp := by
  show Host.Outcome.next (if s.mayStart then s.beginStartUp else s) = _
  rw [if_pos h]

/-- With every stored credential record placed, start-up goes on with its fourth step (R104, R164). -/
theorem State.beginStartUp_noStray {s : State} (h : ∀ i r, (tableGet s.store.creds i).loaded = some r → s.store.places r = true) :
    s.beginStartUp = s.recordsPlaced.beginStep4 := by
  have hstray : s.recordsPlaced.strayCreds = [] := by
    rw [State.recordsPlaced_strayCreds]
    refine filter_finRange_nil fun i => ?_
    cases hr : (tableGet s.store.creds i).loaded with
    | none => rfl
    | some r => simp [h i r hr]
  rw [State.beginStartUp_placed, hstray]
  rfl

/-- The removal of a stray record is sent, whose place the table leaves EMPTY (R104). -/
theorem State.send_removal {s : State} {i : Fin 32} (hr : s.storeRoom .credential) (hf : s.outboxes.refresh = []) (hc : s.cred i = none) :
    s.send .credential [.write (.cred i none) .credStartUp] = { s with store := s.store.queued (.cred i none) .credStartUp } := by
  have hdrop : s.dropRefresh i = s := by
    unfold State.dropRefresh
    rw [hf]
    exact State.setOutbox_same (c := .refresh) hf
  have htable : tableSet s.credential.table i none = s.credential.table := tableSet_get hc
  have henqueue : s.enqueue (.cred i none) .credStartUp = { s with store := s.store.queued (.cred i none) .credStartUp } := by
    unfold State.enqueue State.asSent State.commitCard
    dsimp only
    rw [hdrop, hc]
    unfold State.setCred
    dsimp only [Option.map_none]
    rw [htable]
    rfl
  rw [State.send_write _ _ hr (by decide) (by rw [henqueue]; exact hr.1.1), henqueue]

/-- With one stored credential record that is not placed, start-up sends its removal (R104). -/
theorem State.beginStartUp_oneStray {s : State} {i : Fin 32} {r : CredRecord} (hi : (tableGet s.store.creds i).loaded = some r)
    (hr : s.store.places r = false) (h : ∀ j q, j ≠ i → (tableGet s.store.creds j).loaded = some q → s.store.places q = true)
    (hroom : s.storeRoom .credential) (hf : s.outboxes.refresh = []) : s.beginStartUp = { s.recordsPlaced with
      startUp := .step3 1
      store := s.recordsPlaced.store.queued (.cred i none) .credStartUp } := by
  have hstray : s.recordsPlaced.strayCreds = [i] := by
    rw [State.recordsPlaced_strayCreds]
    refine filter_finRange_singleton (by simp [hi, hr]) fun j hj => ?_
    cases hq : (tableGet s.store.creds j).loaded with
    | none => rfl
    | some q => simp [h j q hj hq]
  have hempty : s.recordsPlaced.cred i = none := by
    rw [State.recordsPlaced_cred, hi]
    simp [Option.filter, hr]
  obtain ⟨-, -, -, -, hout, -⟩ := s.recordsPlaced_frame
  rw [State.beginStartUp_placed, hstray]
  exact State.send_removal (s := s.recordsPlaced.atStep (.step3 1)) (State.recordsPlaced_storeRoom hroom)
    ((congrArg (·.refresh) hout).trans hf)
    ((State.cred_congr (s := s.recordsPlaced) rfl i).trans hempty)

/-! ### The ends of start-up's writes (R83, R104, R165) -/

/-- Before the end of start-up, a write that fails sets the start-up fault flag (R165). -/
theorem State.programmed_startUp {s : State} (w : Write) (first second : Bool) (h : s.startUp ≠ .ended) :
    s.programmed w first second = { s with store :=
      { (s.store.program w first second).1 with startUpFault := s.store.startUpFault || !s.endsDone w first second } } := by
  obtain ⟨-, -, hfault⟩ := s.store.program_queue w first second
  cases hok : s.endsDone w first second with
  | true =>
    rw [State.programmed_done hok, ← hfault]
    simp
  | false =>
    rw [State.programmed_held hok (.inr h)]
    simp

/-- The last removal of step 3 has ended, and no kind is on trial: start-up goes on with its fourth step (R104, R164). -/
theorem State.startRemovalEnd_last {s : State} (hs : s.startUp = .step3 1)
    (h : ∀ k r, (tableGet s.store.kinds k).loaded = some r → r.trial = none) : s.startRemovalEnd = s.startStep4.startStep5 := by
  have hkinds : ∀ k, (s.startStep4.kindRecord k).trial = none := fun k => by
    rw [State.startStep4_kindRecord]
    cases hr : (tableGet s.store.kinds k).loaded with
    | none => rfl
    | some r => exact h k r hr
  unfold State.startRemovalEnd
  rw [hs]
  exact State.beginStep4_noTrial hkinds

/-- While the measure unit is starting, a lapse's part event joins its list at once, and TRIAL LAPSED is asked for (R45, R83). -/
theorem State.trialLapse_starting {s : State} (k : Fin 8) (version : Nat) (h : s.quiet .updateAsk) (ho : s.outboxes.updateWipe = [])
    (hst : s.measure.starting = true) (hm : s.measureWaiting = []) (hi : s.measure.internal = []) : s.trialLapse k version =
      ({ s with measure := s.measure.asked (.event (.updateLapsed k version .bootsExhausted)) } : State).ask .trialLapsed := by
  have hjoin : s.joinsAtOnce .updateAsk (.event (.updateLapsed k version .bootsExhausted)) = true := by
    simp [State.joinsAtOnce, hst, hm, hi, internalCapacity]
  have hpush : ∀ l, s.push .updateAsk l = s.setOutbox .updateAsk l := fun l => by
    unfold State.push
    rw [h.1]
    rfl
  have hask : ∀ u : State, u.outboxes.updateAsk = [] → (u.ask .trialLapsed).outboxes.updateAsk = [] := fun u hu => by
    rw [State.ask_eq]
    exact hu
  have hdone : ({ s with measure := s.measure.asked (.event (.updateLapsed k version .bootsExhausted)) } : State).setOutbox .updateAsk [] =
      { s with measure := s.measure.asked (.event (.updateLapsed k version .bootsExhausted)) } := State.setOutbox_same h.1
  unfold State.trialLapse State.send
  dsimp only
  rw [if_neg (by simp [h.2]), hpush]
  refine State.sendLane_updateAsk ?_ (by rw [State.ask_eq]; exact ho)
  unfold State.sendFuel
  refine (State.sendAll_request _ _ _ hjoin).trans ((State.sendAll_act _ _ []).trans ?_)
  rw [hdone]
  exact State.sendAll_done _ (hask _ h.1)

/-- The table takes what step 4 has written (R83). -/
theorem State.takeBoot_lapse {s : State} {k : Fin 8} {r : KindRecord} {x : Trial} (hx : (s.kindRecord k).trial = some x)
    (hr : r.trial = none) : s.takeBoot k r = (s.setKind k r).trialLapse k x.version := by
  unfold State.takeBoot
  simp only [hx, hr]

theorem State.takeBoot_decrement {s : State} {k : Fin 8} {r : KindRecord} (hr : r.trial ≠ none) : s.takeBoot k r = s.setKind k r := by
  unfold State.takeBoot
  cases hx : r.trial with
  | none => exact absurd hx hr
  | some t => cases (s.kindRecord k).trial <;> rfl

/-- The last write of step 4 has ended: start-up goes on with its fifth step (R164). -/
theorem State.startKindEnd_last {s t : State} {k : Fin 8} {r : KindRecord} {ok : Bool} (ht : (if ok then s.takeBoot k r else s) = t)
    (hs : t.startUp = .step4 1) : s.startKindEnd (.kind k r) ok = t.startStep5 := by
  unfold State.startKindEnd
  dsimp only
  rw [ht, hs]
  rfl

/-! ### The start-up run (R149 to R157) -/

/-- The census's fields after a run that passes in DOUBT (R150, R151, R154). -/
theorem Census.afterRun_passes {c : Census} {run : CensusRun} {bounded : Bool} (tick : Word32) (jitter : List Byte)
    (hd : c.state = .doubt) (hp : censusPasses run.a run.b run.r bounded = true) : c.afterRun tick run bounded jitter = { c with
      state := .healthy
      run := none
      a := run.a
      b := run.b
      r := run.r
      period := some { start := tick, limit := 256 }
      seed := Config.conditioning c.seed jitter } := by
  unfold Census.afterRun
  rw [hp, hd]
  rfl

/-- The census's fields after a run that fails in DOUBT (R150, R151). -/
theorem Census.afterRun_fails {c : Census} {run : CensusRun} {bounded : Bool} (tick : Word32) (jitter : List Byte)
    (hd : c.state = .doubt) (hp : censusPasses run.a run.b run.r bounded = false) : c.afterRun tick run bounded jitter = { c with
      state := .failed
      run := none
      a := run.a
      b := run.b
      r := run.r
      period := some { start := tick, limit := 16 } } := by
  unfold Census.afterRun
  rw [hp, hd]
  rfl

/-- The counters of a run that has just begun have counted what the oscillators have brought. -/
theorem CensusRun.counted_begun (a b r : Byte) :
    ({ a := 0#8, b := 0#8, r := 0#8 } : CensusRun).counted a b r = { a := a, b := b, r := r } := by
  simp [CensusRun.counted]

/-- With no block at a gate, nothing is answered (R153). -/
theorem State.answerWaiters_none {s : State} (h : s.census.waiters = []) : s.answerWaiters = s := by
  have hsame : ({ s with census := { s.census with waiters := [] } } : State) = s := by rw [← h]
  unfold State.answerWaiters
  rw [h]
  cases s.census.state
  case doubt => rfl
  all_goals exact hsame

theorem exec_censusRunEnd {s : State} {run : CensusRun} (a b r : Byte) (bounded : Bool) (jitter : List Byte) (hp : s.powered = true)
    (hr : s.census.run = some run) {t u : State}
    (ht : { s with census := s.census.afterRun s.pace.tick (run.counted a b r) bounded jitter } = t)
    (hu : (if t.census.state = .failed ∧ s.census.state ≠ .failed then t.censusFails else t) = u) :
    exec (.censusRunEnd a b r bounded jitter) s = .next u.answerWaiters.startUpGoesOn := by
  have e : s.censusEnd a b r bounded jitter = u.answerWaiters.startUpGoesOn := by
    subst hu ht
    unfold State.censusEnd
    rw [hr]
  show Host.Outcome.next (s.whenPowered _) = _
  unfold State.whenPowered
  rw [if_pos hp, e]

/-- The start-up run is over, and its effects are sent: start-up goes on with its seventh step (R157). -/
theorem State.startUpGoesOn_runOver {s : State} (hs : s.startUp = .step6) (hr : s.census.run = none) (hd : s.census.state ≠ .doubt)
    (ho : s.outboxes.census = []) : s.startUpGoesOn = s.startStep7 := by
  have hover : s.startRunOver = true := by simp [State.startRunOver, hr, hd, ho]
  unfold State.startUpGoesOn
  rw [hs]
  exact if_pos hover

/-- The start-up run's effects are still to be sent: start-up waits (R157). -/
theorem State.startUpGoesOn_unsent {s : State} (hs : s.startUp = .step6) (ho : s.outboxes.census ≠ []) : s.startUpGoesOn = s := by
  have hover : s.startRunOver = false := by simp [State.startRunOver, ho]
  unfold State.startUpGoesOn
  rw [hs]
  exact if_neg (Bool.eq_false_iff.mp hover)

theorem State.startStep7_released {s : State} (h : s.lifecycle.pending = false) : s.startStep7 = s.startStep8 :=
  if_neg (Bool.eq_false_iff.mp h)

theorem State.startStep7_pending {s : State} (h : s.lifecycle.pending = true) :
    s.startStep7 = (s.atStep .step7).sendWipeOrders := if_pos h

/-! ### The part events of start-up (R45, R135, R157) -/

/-- CENSUS FAILED's event has been accepted, and its attention bit is asked for (R152). -/
theorem State.sendLane_censusAttention {s : State} :
    (s.setOutbox .census [.act .censusAttention]).sendLane .census = (s.setOutbox .census []).ask .censusFailed := by
  have hdone : ((s.setOutbox .census []).ask .censusFailed).outboxes.census = [] := by
    rw [State.ask_eq]
    rfl
  rw [State.sendLane_eq _ (by decide)]
  unfold State.sendFuel
  exact (State.sendAll_act _ _ []).trans (State.sendAll_done _ hdone)

/-- Once CENSUS FAILED is asked for, another request sends no message (R180). -/
theorem attention_censusFailed_ne (a : BitVec 9) : a ||| 32#9 ≠ 0#9 := by
  intro h
  have hbit := congrArg (fun v : BitVec 9 => v.getLsbD 5) h
  simp at hbit

/-- The last step of start-up, another attention request standing: STORE FAULT sends no message of its own (R180). -/
theorem State.startStep8_asked {s : State} (h : s.exch.attention ≠ 0#9) : s.startStep8 = { s with
    startUp := .ended
    exch := { s.exch with
      fetcher := if s.exch.fetcher = .waitingStartUp then .reading else s.exch.fetcher
      attention := if s.store.startUpFault then s.exch.attention ||| 8#9 else s.exch.attention }
    store := { s.store with startUpFault := false } } := by
  have hnone : s.askMessages s.exch.enable = 0 := by simp [State.askMessages, h]
  rw [State.startStep8_eq, hnone, ite_self, Nat.add_zero]

/-- The extension of a part event has ended, with room in the record list: the event leaves the list of requests (R28, R35). -/
theorem State.eventExtended {s : State} {e : PartEvent} {digest value : Digest} {rest : List MeasureRequest}
    (hi : s.measure.internal = .event e :: rest) (hm : s.measureWaiting = []) (hw : s.measure.work = none)
    (hl : s.measure.records.length < 96) : s.serviceHashEnd (.eventExtend e digest) value = { s with measure := { s.measure with
      chains := tableSet s.measure.chains 11 value
      records := s.measure.records ++ [{ seq := s.measure.records.length + 1, chain := 11, event := e.code, digest := digest }]
      service := none
      internal := rest } } := by
  show ((s.applyExtension 11 e.code digest value).endService).resumeMeasure = _
  rw [State.applyExtension_lists 11 e.code digest value hl, State.endService_served (by exact hi) (by exact hm),
    State.resumeMeasure_noWork (by exact hw)]
  rfl

theorem State.startUpGoesOn_step5 {s : State} (h : s.startUp = .step5) :
    s.startUpGoesOn = if s.requestsServed then s.startStep6 else s := by
  unfold State.startUpGoesOn
  rw [h]

theorem State.startUpGoesOn_step7 {s : State} (h : s.startUp = .step7) :
    s.startUpGoesOn = if s.wipeResumed then s.startStep8 else s := by
  unfold State.startUpGoesOn
  rw [h]

/-- Settles O56, from start-up's steps in their order. -/
theorem startUpLoadsTheTables : Obligations.StartUpLoadsTheTables := by
  refine ⟨?loads, ?trial, ?stray, ?removed, ?booted, ?passes, ?fails, ?accepted, ?served⟩
  case loads =>
    intro s hmay life hplaces htrials held
    obtain ⟨hqueue, -⟩ := State.mayStart_queues hmay
    have hall : ∀ i r, (tableGet s.store.creds i).loaded = some r → s.store.places r = true := fun i r hr => by
      by_cases hf : r.cls = .factory
      · simp [Store.places, hf]
      · have hclaimed : s.store.lifeRecord.effective = .claimed := (hplaces i r hr).resolve_left hf
        simp [Store.places, hclaimed]
    have hkinds : ∀ k, (s.recordsPlaced.startStep4.kindRecord k).trial = none := fun k => by
      rw [State.recordsPlaced_kindRecord]
      cases hr : (tableGet s.store.kinds k).loaded with
      | none => rfl
      | some r => exact htrials k r hr
    have hcred : ∀ i, s.recordsPlaced.cred i = ((tableGet s.store.creds i).loaded).map fun r =>
        { record := { r with lastTick := s.pace.tick }, working := r.debt, writes := 0, attempt := false } := fun i => by
      rw [State.recordsPlaced_cred]
      cases hr : (tableGet s.store.creds i).loaded with
      | none => rfl
      | some r => simp [Option.filter, hall i r hr]
    have hchain : ∀ c : Fin 12, tableGet (Vector.replicate 12 (0#256 : Digest)) c = 0#256 := fun c => by simp [tableGet]
    have hlife := State.recordsPlaced_lifecycle s
    have hexec : exec .startUp s = .next s.recordsPlaced.startStep4.startStep5 := by
      rw [exec_startUp hmay, State.beginStartUp_noStray hall, State.beginStep4_noTrial hkinds]
    rw [hexec, State.startStep5_eq]
    obtain ⟨hexch, hmeasure, hcensus, hpace, -, hwaiting, hhost, hsettled⟩ := s.recordsPlaced_frame
    have hserved : s.recordsPlaced.startStep4.requestsServed = !held :=
      (State.requestsServed_congr (s := s) (congrArg (·.internal) hmeasure) (congrArg (·.service) hmeasure) hwaiting).trans
        (Bool.not_not s.requestsServed).symm
    rw [hserved]
    refine ⟨_, rfl, ?_, ?_, rfl, congrArg (·.effective) hlife, congrArg (·.requested) hlife, congrArg (·.pending) hlife,
      congrArg (·.progress) hlife, congrArg (·.presence) hlife, congrArg (·.hold) hlife, congrArg (·.certificate) hlife,
      fun i => (State.slot_congr (s := s.recordsPlaced) rfl i).trans (State.recordsPlaced_slot s i),
      fun i => (State.mark_congr (s := s.recordsPlaced) rfl i).trans (State.recordsPlaced_mark s i),
      fun i => (State.cred_congr (s := s.recordsPlaced) rfl i).trans (hcred i),
      fun k => (State.kindRecord_congr (s := s.recordsPlaced.startStep4) rfl k).trans (State.recordsPlaced_kindRecord s k),
      hchain, rfl, rfl, rfl, rfl, rfl, (congrArg (·.queue) hsettled).trans hqueue, hexch, hpace,
      fun a => congrArg (Memory.read · a) hhost⟩
    · cases held <;> rfl
    · have hrun : s.recordsPlaced.startStep4.census.run = s.census.run := congrArg (·.run) hcensus
      cases held
      · rfl
      · exact hrun
  case trial =>
    intro s k r x hmay hquiet hfactory hr hx hothers
    obtain ⟨hqueue, -⟩ := State.mayStart_queues hmay
    have hall : ∀ i c, (tableGet s.store.creds i).loaded = some c → s.store.places c = true := fun i c hc => by
      simp [Store.places, hfactory i c hc]
    have hk : s.recordsPlaced.startStep4.kindRecord k = r := by
      rw [State.recordsPlaced_kindRecord, hr]
      rfl
    have hnone : ∀ j, j ≠ k → (s.recordsPlaced.startStep4.kindRecord j).trial = none := fun j hj => by
      rw [State.recordsPlaced_kindRecord]
      cases hq : (tableGet s.store.kinds j).loaded with
      | none => rfl
      | some q => exact hothers j q hj hq
    have hroom : s.storeRoom .update := ⟨hquiet, by rw [hqueue]; decide⟩
    refine ⟨_, (exec_startUp hmay).trans (congrArg Host.Outcome.next ((State.beginStartUp_noStray hall).trans
      (State.beginStep4_oneTrial (by rw [hk]; exact hx) hnone
        (State.recordsPlaced_storeRoom hroom)))), rfl, ?_, hk⟩
    have hbooted : r.booted = { r with trial := if x.boots = 0 then none else some { x with boots := x.boots - 1 } } := by
      unfold KindRecord.booted KindRecord.withoutTrial
      rw [hx]
      by_cases hb : x.boots = 0
      · simp [hb]
      · simp [hb, Nat.pos_of_ne_zero hb]
    obtain ⟨-, -, -, -, -, -, -, hsettled⟩ := s.recordsPlaced_frame
    rw [hk, hbooted]
    exact congrArg (· ++ _) ((congrArg (·.queue) hsettled).trans hqueue)
  case stray =>
    intro s i r hmay hquiet hrefresh hlife hi howner hothers
    obtain ⟨hqueue, -⟩ := State.mayStart_queues hmay
    have heff : s.store.lifeRecord.effective ≠ .claimed := hlife
    have hfactory : ∀ j q, j ≠ i → (tableGet s.store.creds j).loaded = some q → s.store.places q = true := fun j q hj hq => by
      simp [Store.places, hothers j q hj hq]
    have hnot : s.store.places r = false := by simp [Store.places, howner, heff]
    have hroom : s.storeRoom .credential := ⟨hquiet, by rw [hqueue]; decide⟩
    obtain ⟨-, hmeasure, hcensus, -, -, -, -, hsettled⟩ := s.recordsPlaced_frame
    refine ⟨_, (exec_startUp hmay).trans (congrArg Host.Outcome.next
      (State.beginStartUp_oneStray hi hnot hfactory hroom hrefresh)), rfl, ?_, fun j hj => ?_,
      congrArg (· ++ _) ((congrArg (·.queue) hsettled).trans hqueue), hmeasure, hcensus⟩
    · refine ((State.cred_congr (s := s.recordsPlaced) rfl i).trans (State.recordsPlaced_cred s i)).trans ?_
      rw [hi]
      simp [Option.filter, hnot]
    · refine ((State.cred_congr (s := s.recordsPlaced) rfl j).trans (State.recordsPlaced_cred s j)).trans ?_
      cases hq : (tableGet s.store.creds j).loaded with
      | none => rfl
      | some q => simp [Option.filter, hfactory j q hj hq]
  case removed =>
    intro s first second i hp hstep hwait hqueue hwork hnone htrials hi hserve hm
    let v : State := { s with store :=
      { (s.store.program (.cred i none) first second).1 with
        startUpFault := s.store.startUpFault || !s.endsDone (.cred i none) first second } }
    have hprog : s.programmed (.cred i none) first second = v :=
      State.programmed_startUp _ first second (by rw [hstep]; decide)
    have htable : tableSet s.credential.table i none = s.credential.table := tableSet_get hnone
    have hover : v.credWriteOver (.cred i none) = v := by
      show v.setCred i ((s.cred i).map CredEntry.writeOver) = v
      rw [hnone]
      unfold State.setCred
      rw [Option.map_none, htable]
    have hserved : v.startStep4.requestsServed = true := by
      show (s.measure.internal.isEmpty && s.measure.service.isNone && s.measureWaiting.isEmpty) = true
      simp [hi, hserve, hm]
    have hanswer := ((congrArg (State.answerWrite { write := .cred i none, answerTo := .credStartUp }
      (s.endsDone (.cred i none) first second)) hprog).trans (State.startRemovalEnd_last (s := v) hstep htrials)).trans
      (State.startStep5_eq v.startStep4)
    rw [hserved] at hanswer
    refine ⟨_, exec_storeWriteEnd_answered (more := []) hp hqueue (by rw [hprog]; exact hover) hanswer hwait
      (State.attemptWaits_noWork hwork) (congrArg List.tail hqueue), rfl, rfl, rfl, rfl, rfl, rfl, rfl, ?_⟩
    exact State.startStep4_kindRecord v
  case booted =>
    intro s first second k r x hp hstep hwait hqueue hwork hx hst hquiet ho hm hi hserve ok
    let v : State := { s with store :=
      { (s.store.program (.kind k r) first second).1 with startUpFault := s.store.startUpFault || !ok } }
    have hprog : s.programmed (.kind k r) first second = v :=
      State.programmed_startUp _ first second (by rw [hstep]; decide)
    have hover : v.credWriteOver (.kind k r) = v := rfl
    have hends : ∀ t : State, (if ok then v.takeBoot k r else v) = t → t.startUp = .step4 1 → t.store = v.store →
        t.credential.work = none → exec (.storeWriteEnd first second) s = .next { t with
          measure := t.measure.opened
          startUp := if t.requestsServed then .step6 else .step5
          census := if t.requestsServed then t.census.begun else t.census
          store := { t.store with queue := [] } } := by
      intro t ht hs hstore hw
      have hanswer := ((congrArg (State.answerWrite { write := .kind k r, answerTo := .updateStartUp } ok) hprog).trans
        (State.startKindEnd_last (s := v) ht hs)).trans (State.startStep5_eq t)
      exact exec_storeWriteEnd_answered (more := []) hp hqueue (by rw [hprog]; exact hover) hanswer (by rw [hstore]; exact hwait)
        (State.attemptWaits_noWork hw) (by rw [hstore]; exact congrArg List.tail hqueue)
    have hserved : ∀ t : State, t.measure.internal = [] → t.measure.service = none → t.measureWaiting = [] →
        t.requestsServed = true := by
      intro t hi hserve hm
      unfold State.requestsServed
      simp [hi, hserve, hm]
    have hheld : ∀ t : State, t.measure.internal ≠ [] → t.requestsServed = false := by
      intro t hi
      unfold State.requestsServed
      simp [hi]
    clear_value ok
    cases ok with
    | false =>
      have hexec := hends v rfl hstep rfl hwork
      rw [hserved v hi hserve hm] at hexec
      exact ⟨_, hexec, rfl, rfl, rfl, rfl, hi, rfl, rfl⟩
    | true =>
      by_cases hr : r.trial = none
      · have ht := ((if_pos rfl : (if true = true then v.takeBoot k r else v) = _).trans (State.takeBoot_lapse (s := v) hx hr)).trans
          ((State.trialLapse_starting (s := v.setKind k r) k x.version hquiet ho hst hm hi).trans (State.ask_eq _ _))
        have hexec := hends _ ht hstep rfl hwork
        have hevent : s.measure.internal ++ [.event (.updateLapsed k x.version .bootsExhausted)] =
            [.event (.updateLapsed k x.version .bootsExhausted)] := by rw [hi]; rfl
        rw [hheld _ (by show s.measure.internal ++ _ ≠ []; simp)] at hexec
        simp only [hr, and_self, if_true]
        exact ⟨_, hexec, rfl, rfl, rfl, tableGet_tableSet_same _ _ _, hevent, rfl, rfl⟩
      · have ht := (if_pos rfl : (if true = true then v.takeBoot k r else v) = _).trans (State.takeBoot_decrement (s := v) hr)
        have hexec := hends _ ht hstep rfl hwork
        rw [hserved (v.setKind k r) hi hserve hm] at hexec
        simp only [hr, and_false, if_false]
        exact ⟨_, hexec, rfl, rfl, rfl, tableGet_tableSet_same _ _ _, hi, rfl, rfl⟩
  case passes =>
    intro s a b r jitter hp hstep hrun hdoubt hwaiters hout ha hr hb hb'
    have hpass : censusPasses a b r false = true := by simp [censusPasses, ha, hr, hb, hb']
    have hafter : s.census.afterRun s.pace.tick (CensusRun.counted { a := 0#8, b := 0#8, r := 0#8 } a b r) false jitter = _ :=
      (congrArg (s.census.afterRun s.pace.tick · false jitter) (CensusRun.counted_begun a b r)).trans
        (Census.afterRun_passes s.pace.tick jitter hdoubt hpass)
    have hexec := exec_censusRunEnd (s := s) a b r false jitter hp hrun (congrArg (fun c => { s with census := c }) hafter)
      (if_neg (by simp))
    rw [State.answerWaiters_none (by exact hwaiters), State.startUpGoesOn_runOver (by exact hstep) rfl (by simp) (by exact hout)] at hexec
    cases hpend : s.lifecycle.pending with
    | false =>
      rw [State.startStep7_released (by exact hpend), State.startStep8_eq] at hexec
      exact ⟨_, hexec, rfl, rfl, fun _ => ⟨rfl, rfl, rfl, rfl, rfl⟩, fun h => absurd h (by decide)⟩
    | true =>
      rw [State.startStep7_pending (by exact hpend)] at hexec
      exact ⟨_, hexec, rfl, rfl, fun h => absurd h (by decide), fun _ => ⟨rfl, rfl, rfl, rfl, rfl, rfl, rfl, rfl⟩⟩
  case fails =>
    intro s a b r bounded jitter hp hstep hrun hdoubt hwaiters hquiet hst hbad
    have hfail : censusPasses a b r bounded = false := by
      unfold censusPasses
      obtain h | h | h | h | h := hbad
      · simp [h]
      all_goals simp; omega
    have hafter : s.census.afterRun s.pace.tick (CensusRun.counted { a := 0#8, b := 0#8, r := 0#8 } a b r) bounded jitter = _ :=
      (congrArg (s.census.afterRun s.pace.tick · bounded jitter) (CensusRun.counted_begun a b r)).trans
        (Census.afterRun_fails s.pace.tick jitter hdoubt hfail)
    have hexec := exec_censusRunEnd (s := s) a b r bounded jitter hp hrun (congrArg (fun c => { s with census := c }) hafter)
      (if_pos ⟨rfl, by rw [hdoubt]; decide⟩)
    unfold State.censusFails at hexec
    rw [State.send_event .censusFailed _ (by exact hquiet) (by decide) (by exact hst), State.answerWaiters_none (by exact hwaiters),
      State.startUpGoesOn_unsent (by exact hstep) (by simp [State.awaits, Outboxes.set])] at hexec
    exact hexec
  case accepted =>
    intro s hp hstep hrun hfailed hst hw hserve hi hm ho t asked
    let v : State := { s with measureWaiting := [], measure := { s.measure with internal := [.event .censusFailed] } }
    have hjoin : ({ s with measureWaiting := [] } : State).joinList (.event .censusFailed) = v := by
      unfold State.joinList
      rw [hi]
      rfl
    have harrive : s.requestsArrive = _ := (State.requestsArrive_one hm (by simp [hi, internalCapacity])
      ((State.joinFirst_request (s := { s with measureWaiting := [] }) (c := .census) ho).trans
        ((congrArg (fun u : State => (u.setOutbox .census [.act .censusAttention]).sendLane .census) hjoin).trans
          (State.sendLane_censusAttention (s := v))))
      (by rw [State.ask_eq]; rfl)).trans (State.ask_eq _ _)
    have hexec := exec_partEvent hp
    have hover : s.census.state ≠ .doubt := by rw [hfailed]; decide
    rw [harrive, State.startUpGoesOn_runOver (by exact hstep) (by exact hrun) (by exact hover) rfl] at hexec
    refine ⟨fun hpend => ?_, fun hpend => ?_⟩
    · rw [State.startStep7_released (by exact hpend), State.startStep8_asked (by exact attention_censusFailed_ne _),
        State.serveEvent_eq (e := .censusFailed) (rest := []) (by exact hp) (by exact hst) (by exact hserve) (by exact hw)
          rfl] at hexec
      exact hexec
    · rw [State.startStep7_pending (by exact hpend), State.serveEvent_eq (e := .censusFailed) (rest := []) (by exact hp) (by exact hst)
        (by exact hserve) (by exact hw) rfl] at hexec
      exact hexec
  case served =>
    intro s h answered old digest e rest hp hr hserve hi hm hw hl
    have hlen : (strBytes old ++ strBytes digest).length ≤ 4096 := by simp [strBytes, leBytes]
    have hexec := exec_hashPieceEnd h answered hp hr
    have hpiece := ((s.atPieceEnd h .measure).shaPiece_ends (answered && s.linkUp && !s.readCut .measure) hlen).trans
      ((State.measureHashEnd_service (s := s.atPieceEnd h .measure) _ hserve).trans
        (State.eventExtended (s := s.atPieceEnd h .measure) hi hm hw hl))
    have hgoes := hexec.trans (congrArg
      (fun u : State => Host.Outcome.next ({ u with hash := u.hash.release } : State).startUpGoesOn) hpiece)
    have hrest : ∀ t : State, t.measure.internal = rest → t.measure.service = none → t.measureWaiting = [] →
        t.requestsServed = decide (rest = []) := by
      intro t hi hserve hm
      unfold State.requestsServed
      rw [hi, hserve, hm]
      cases rest <;> rfl
    refine ⟨fun hstep => ?_, fun hstep hprogress => ?_⟩
    · rw [State.startUpGoesOn_step5 (by exact hstep), hrest _ rfl rfl (by exact hm)] at hgoes
      by_cases hnil : rest = []
      · simp only [hnil, decide_true, if_true] at hgoes ⊢
        exact ⟨_, hgoes, rfl, rfl, rfl⟩
      · simp only [hnil, decide_false, Bool.false_eq_true, if_false] at hgoes ⊢
        exact ⟨_, hgoes, rfl, hstep, rfl⟩
    · have hover : ∀ t : State, t.lifecycle.progress = s.lifecycle.progress → t.requestsServed = decide (rest = []) →
          t.wipeResumed = decide (rest = []) := by
        intro t hprog hserved
        have hends : (decide (t.lifecycle.progress = .none) || decide (t.lifecycle.progress = .incomplete)) = true := by
          rw [hprog]
          simpa using hprogress
        unfold State.wipeResumed
        rw [hends, hserved, Bool.true_and]
      rw [State.startUpGoesOn_step7 (by exact hstep), hover _ (by rfl) (hrest _ (by rfl) (by rfl) (by exact hm))] at hgoes
      by_cases hnil : rest = []
      · simp only [hnil, decide_true, if_true] at hgoes ⊢
        rw [State.startStep8_eq] at hgoes
        refine ⟨_, hgoes, rfl, rfl, rfl, ?_, ?_⟩
        · simp only [true_and]
          rfl
        · show s.messages + (if s.store.startUpFault && s.linkUp then s.askMessages s.exch.enable else 0) = _
          simp only [Bool.and_eq_true, true_and]
      · have hmore : decide (rest ≠ []) = true := decide_eq_true hnil
        simp only [hmore, Bool.true_and]
        simp only [hnil, decide_false, Bool.false_eq_true, if_false, false_and] at hgoes ⊢
        exact ⟨_, hgoes, rfl, hstep, rfl, rfl, rfl⟩

end Sys2Proof.Machine
end

