-- ==== Sys2Proof/Proofs/Abandon.lean ====
section
/-! SUPPORT. An ABANDON at the exchange and the notices that it brings the units (R24, R90, R117, R137, R143, R147, R183). -/
namespace Sys2Proof.Machine

/-! ### At the exchange (R180, R183) -/

/-- A write to AREA CONTROL takes the enable it carries, and sends a message when the enable is set with news waiting (R180). -/
theorem State.setEnable_eq {s : State} (b : Bool) (hl : s.linkUp = true) : s.setEnable b = { s with
    messages := s.messages + s.enableMessages b, exch := { s.exch with enable := b } } := by
  unfold State.setEnable State.sendMessage State.enableMessages Exchange.hasNews
  dsimp only
  rw [hl]
  cases hnews : (b && !s.exch.enable && (decide (s.exch.tally ≠ s.exch.ack) || decide (s.exch.attention ≠ 0#9)))
  · rfl
  · have hb : b = true := by
      simp only [Bool.and_eq_true] at hnews
      exact hnews.1.1
    subst hb
    rfl

/-- An ABANDON with no card that has not begun: the notices go to the units, and the area waits for their cards (R183). -/
theorem exec_areaAbandon {s t : State} {b : Bool} (hr : s.reachable = true) (ha : s.exch.area = .opened ∨ s.exch.area = .draining)
    (hx : ∀ x ∈ s.exch.buffers, x.unit = none ∨ x.phase ≠ .waiting) (ht : (s.abandoning b).abandonNotices = t)
    (hb : t.exch.buffers ≠ []) : exec (.areaAbandon b) s = .next t := by
  have hl : s.linkUp = true := by
    simp only [State.reachable, Bool.and_eq_true] at hr
    exact hr.1.2
  have hnone : s.exch.buffers.filter Buffer.unbegun = [] := by
    rw [List.filter_eq_nil_iff]
    intro x hmem
    obtain hu | hph := hx x hmem
    · simp [Buffer.unbegun, hu]
    · simp [Buffer.unbegun, hph]
  have harea : (s.setEnable b).abandonArea = t := by
    have hstop : (s.setEnable b).abandonArea =
        (((s.exch.buffers.filter Buffer.unbegun).foldl State.abandonUnbegun (s.abandoning b)).abandonNotices).closeWhenEmpty := by
      rw [State.setEnable_eq b hl]
      rfl
    rw [hstop, hnone, List.foldl_nil, ht]
    exact if_neg (by rw [List.isEmpty_iff]; exact hb)
  have hcommand : (s.setEnable b).abandonCommand = t := by
    have hsame : (s.setEnable b).exch.area = s.exch.area := by rw [State.setEnable_eq b hl]
    unfold State.abandonCommand
    rw [hsame]
    obtain ha | ha := ha <;> rw [ha] <;> exact harea
  show Host.Outcome.next (s.whenReachable _) = _
  unfold State.whenReachable
  rw [if_pos hr]
  exact congrArg Host.Outcome.next hcommand

/-! ### The units' notices -/

theorem State.custodyAbandon_none {s : State} (h : s.custody.work = none) : s.custodyAbandon = s := by
  unfold State.custodyAbandon
  rw [h]

theorem State.measureAbandon_none {s : State} (h : s.measure.work = none) : s.measureAbandon = s := by
  unfold State.measureAbandon
  rw [h]

theorem State.updateAbandon_none {s : State} (h : s.update.work = none) : s.updateAbandon = s := by
  unfold State.updateAbandon
  rw [h]

theorem State.credAbandon_none {s : State} (h : s.credential.work = none) : s.credAbandon = s := by
  unfold State.credAbandon
  rw [h]

theorem State.lifeAbandon_none {s : State} (h : s.lifecycle.work = none) : s.lifeAbandon = s := by
  unfold State.lifeAbandon
  rw [h]

/-- A committed card is carried on (R24). -/
theorem State.custodyAbandon_committed {s : State} (h : ∀ w, s.custody.work = some w → w.committed = true) : s.custodyAbandon = s := by
  unfold State.custodyAbandon
  cases hw : s.custody.work with
  | none => rfl
  | some w => exact if_pos (h w hw)

/-- A committed card is carried on (R90). -/
theorem State.updateAbandon_committed {s : State} (h : ∀ w, s.update.work = some w → w.committed = true) : s.updateAbandon = s := by
  unfold State.updateAbandon
  cases hw : s.update.work with
  | none => rfl
  | some w => exact if_pos (h w hw)

/-- A committed card is carried on (R117). -/
theorem State.credAbandon_committed {s : State} (h : ∀ w, s.credential.work = some w → w.committed = true) : s.credAbandon = s := by
  unfold State.credAbandon
  cases hw : s.credential.work with
  | none => rfl
  | some w => exact if_pos (h w hw)

/-- A committed card is carried on (R137). -/
theorem State.lifeAbandon_committed {s : State} (h : ∀ w, s.lifecycle.work = some w → w.committed = true) : s.lifeAbandon = s := by
  unfold State.lifeAbandon
  cases hw : s.lifecycle.work with
  | none => rfl
  | some w => exact if_pos (h w hw)

/-- The notices with a card in work at the custody unit alone. -/
theorem State.abandonNotices_custody {s t : State} (ht : s.custodyAbandon = t) (hm : t.measure.work = none) (hu : t.update.work = none)
    (hc : t.credential.work = none) (hl : t.lifecycle.work = none) : s.abandonNotices = t := by
  unfold State.abandonNotices
  rw [ht, State.measureAbandon_none hm, State.updateAbandon_none hu, State.credAbandon_none hc, State.lifeAbandon_none hl]

/-- The notices with a card in work at the measure unit alone. -/
theorem State.abandonNotices_measure {s t : State} (hk : s.custody.work = none) (ht : s.measureAbandon = t) (hu : t.update.work = none)
    (hc : t.credential.work = none) (hl : t.lifecycle.work = none) : s.abandonNotices = t := by
  unfold State.abandonNotices
  rw [State.custodyAbandon_none hk, ht, State.updateAbandon_none hu, State.credAbandon_none hc, State.lifeAbandon_none hl]

/-- The notices with a card in work at the update unit alone. -/
theorem State.abandonNotices_update {s t : State} (hk : s.custody.work = none) (hm : s.measure.work = none) (ht : s.updateAbandon = t)
    (hc : t.credential.work = none) (hl : t.lifecycle.work = none) : s.abandonNotices = t := by
  unfold State.abandonNotices
  rw [State.custodyAbandon_none hk, State.measureAbandon_none hm, ht, State.credAbandon_none hc, State.lifeAbandon_none hl]

/-- The notices with a card in work at the credential unit alone. -/
theorem State.abandonNotices_credential {s t : State} (hk : s.custody.work = none) (hm : s.measure.work = none)
    (hu : s.update.work = none) (ht : s.credAbandon = t) (hl : t.lifecycle.work = none) : s.abandonNotices = t := by
  unfold State.abandonNotices
  rw [State.custodyAbandon_none hk, State.measureAbandon_none hm, State.updateAbandon_none hu, ht, State.lifeAbandon_none hl]

/-- The notices with a card in work at the lifecycle controller alone. -/
theorem State.abandonNotices_lifecycle {s t : State} (hk : s.custody.work = none) (hm : s.measure.work = none)
    (hu : s.update.work = none) (hc : s.credential.work = none) (ht : s.lifeAbandon = t) : s.abandonNotices = t := by
  unfold State.abandonNotices
  rw [State.custodyAbandon_none hk, State.measureAbandon_none hm, State.updateAbandon_none hu, State.credAbandon_none hc, ht]

/-- The notice at a unit whose card in work is given. -/
theorem State.custodyAbandon_held {s t : State} {w : Work CustodyStage} (hw : s.custody.work = some w)
    (ht : ({ s with custody := { s.custody with work := some w } } : State).custodyAbandon = t) : s.custodyAbandon = t := by
  rw [← ht, ← hw]

theorem State.measureAbandon_held {s t : State} {w : Work MeasureStage} (hw : s.measure.work = some w)
    (ht : ({ s with measure := { s.measure with work := some w } } : State).measureAbandon = t) : s.measureAbandon = t := by
  rw [← ht, ← hw]

theorem State.updateAbandon_held {s t : State} {w : Work UpdateStage} (hw : s.update.work = some w)
    (ht : ({ s with update := { s.update with work := some w } } : State).updateAbandon = t) : s.updateAbandon = t := by
  rw [← ht, ← hw]

theorem State.credAbandon_held {s t : State} {w : Work CredStage} (hw : s.credential.work = some w)
    (ht : ({ s with credential := { s.credential with work := some w } } : State).credAbandon = t) : s.credAbandon = t := by
  rw [← ht, ← hw]

theorem State.lifeAbandon_held {s t : State} {w : Work LifeStage} (hw : s.lifecycle.work = some w)
    (ht : ({ s with lifecycle := { s.lifecycle with work := some w } } : State).lifeAbandon = t) : s.lifeAbandon = t := by
  rw [← ht, ← hw]

/-! ### What a card gives up -/

/-- A withdrawal at the hash engine, in the terms of the statements (R143). -/
theorem HashEngine.withdraw_eq (e : HashEngine) (c : HashClient) : e.withdraw c = e.withdrawn c := by
  obtain ⟨running, jobs⟩ := e
  cases running with
  | none => cases c <;> rfl
  | some run =>
    by_cases hc : run.client = c
    · cases c <;> simp [HashEngine.withdraw, HashEngine.withdrawn, HashEngine.setWaiting, hc]
    · cases c <;> simp [HashEngine.withdraw, HashEngine.withdrawn, HashEngine.setWaiting, hc]

theorem State.hashWithdraw_eq (s : State) (c : HashClient) : s.hashWithdraw c = { s with hash := s.hash.withdrawn c } := by
  unfold State.hashWithdraw
  rw [HashEngine.withdraw_eq]

theorem HashEngine.serves_of_piece {e : HashEngine} {c : HashClient}
    (h : ∃ run, e.running = some run ∧ run.client = c ∧ run.withdrawn = false) : e.serves c = true := by
  obtain ⟨run, hr, hc, hw⟩ := h
  simp [HashEngine.serves, hr, hc, hw]

theorem HashEngine.serves_of_noPiece {e : HashEngine} {c : HashClient} (h : ∀ run, e.running = some run → run.client ≠ c) :
    ¬e.serves c = true := by
  unfold HashEngine.serves
  cases hr : e.running with
  | none => simp
  | some run => simp [h run hr]

theorem CurveEngine.serves_of_operation {e : CurveEngine} {c : CurveClient} (h : ∃ run, e.running = some run ∧ run.client = c) :
    e.serves c = true := by
  obtain ⟨run, hr, hc⟩ := h
  simp [CurveEngine.serves, hr, hc]

theorem CurveEngine.serves_of_noOperation {e : CurveEngine} {c : CurveClient} (h : ∀ run, e.running = some run → run.client ≠ c) :
    ¬e.serves c = true := by
  unfold CurveEngine.serves
  cases hr : e.running with
  | none => simp
  | some run => simp [h run hr]

/-- A request given up, in the terms of the statements (R24, R90, R117). -/
theorem MeasureRequest.unwanted_eq (who : Option Checker) (r : MeasureRequest) :
    (if r.isFrom who then r.givenUp else r) = unwanted who r := by
  cases r with
  | event e => rfl
  | check d b wanted =>
    cases who with
    | none => simp [MeasureRequest.isFrom, unwanted]
    | some k =>
      by_cases hk : d = k
      · simp [MeasureRequest.isFrom, MeasureRequest.givenUp, unwanted, hk]
      · have hk' : k ≠ d := fun h => hk h.symm
        simp [MeasureRequest.isFrom, unwanted, hk, hk']
  | chainRead chain wanted => cases who <;> simp [MeasureRequest.isFrom, MeasureRequest.givenUp, unwanted]

theorem State.giveUpRequest_eq (s : State) (who : Option Checker) : s.giveUpRequest who = s.gaveUp who := by
  unfold State.giveUpRequest State.gaveUp
  simp only [MeasureRequest.unwanted_eq]
  rfl

/-- The one write that a block holds unsent is withdrawn, and the block waits for no room (log entry 12). -/
theorem State.withdrawWrite_one {s : State} {c : Client} {w : Write} {a : WriteTo} (h : s.outboxes.get c = [.write w a]) :
    s.withdrawWrite c a = { s with
      outboxes := s.outboxes.set c []
      store := { s.store with waiting := s.store.waiting.filter fun x => !(x == c) } } := by
  unfold State.withdrawWrite
  dsimp only
  rw [h]
  simp [State.setOutbox]

/-- An OPEN session is dropped (R72). -/
theorem State.dropSession_opened {s : State} {x : OpenSession} (h : s.update.session = .opened x) :
    s.dropSession = { s with update := { s.update with session := .idle } } := by
  unfold State.dropSession
  rw [h]

/-- A card that has completed no use in the table alone is handed back ABANDONED by the custody unit (R24). -/
theorem State.custodyGiveUp_noUse {s : State} {w : Work CustodyStage} (hw : s.custody.work = some w) (hn : s.custody.undo = none)
    (h : s.carries) : s.custodyGiveUp =
      { s.givesBack w.card .abandoned none [] with custody := { s.custody with work := none, undo := none } } := by
  have htable : s.custody.takenBack = s.custody.table := by
    unfold Custody.takenBack
    rw [hn]
  rw [State.custodyGiveUp_eq hw h, htable]

/-! ### The ends of marked work -/

/-- The end of a unit's own DMA access that is under way. -/
theorem exec_extentDmaEnd {s : State} {u : DmaUnit} {ok : Bool} (h : HostWrites) (r : DmaResult) (hp : s.powered = true)
    (hpending : s.dmaPending u = true) (hok : (dmaAnswered r && s.linkUp && !s.isCut u) = ok) :
    exec (.extentDmaEnd u h r) s = .next ((s.hostStores h).dmaEnded u ok (dmaWritten r)) := by
  show Host.Outcome.next (s.whenPowered _) = _
  unfold State.whenPowered State.extentDmaEnd
  rw [if_pos hp, if_pos hpending, hok]

theorem State.custodyDmaEnd_marked {s : State} {c : Card} {stage : CustodyStage} (ok : Bool) (n : Nat)
    (hw : s.custody.work = marked c stage) : (stage = .readBlob → s.custodyDmaEnd ok n = s.custodyGiveUp)
      ∧ ∀ l d body, stage = .writeOut l d body → s.custodyDmaEnd ok n = (s.writeOutput c ok n l).custodyGiveUp := by
  unfold State.custodyDmaEnd
  simp only [hw, marked]
  refine ⟨?_, ?_⟩
  · rintro rfl
    rfl
  · rintro l d body rfl
    rfl

theorem State.measureDmaEnd_marked {s : State} {c : Card} {l : List Byte} {d : Option Word32} {body : List OutByte} (ok : Bool) (n : Nat)
    (hw : s.measure.work = marked c (.writeOut l d body)) (hpaused : s.measure.paused = none) :
    s.measureDmaEnd ok n = (s.writeOutput c ok n l).measureRefuse .abandoned := by
  unfold State.measureDmaEnd
  simp only [hw, marked, hpaused]
  rfl

theorem State.updateDmaEnd_marked {s : State} {c : Card} {l : List Byte} {d : Option Word32} {body : List OutByte} (ok : Bool) (n : Nat)
    (hw : s.update.work = marked c (.writeOut l d body)) :
    s.updateDmaEnd ok n = (s.writeOutput c ok n l).updateRefuse .abandoned := by
  unfold State.updateDmaEnd
  simp only [hw, marked]
  rfl

theorem State.lifeDmaEnd_marked {s : State} {c : Card} {stage : LifeStage} (ok : Bool) (n : Nat)
    (hw : s.lifecycle.work = marked c stage) : (stage = .readCertificate → s.lifeDmaEnd ok n = s.lifeRefuse .abandoned)
      ∧ ∀ l d body, stage = .writeOut l d body → s.lifeDmaEnd ok n = (s.writeOutput c ok n l).lifeRefuse .abandoned := by
  unfold State.lifeDmaEnd
  simp only [hw, marked]
  refine ⟨?_, ?_⟩
  · rintro rfl
    rfl
  · rintro l d body rfl
    rfl

/-- A piece withdrawn ends with no taker: its client learns that it has ended (R142, R143). -/
theorem State.pieceEnded_withdrawn {s : State} {run : HashRun} (ok : Bool) (h : run.withdrawn = true) :
    s.pieceEnded run ok = s.hashWithdrawn run.client := if_pos h

theorem State.custodyHashWithdrawn_marked {s : State} {c : Card} {stage : CustodyStage} (hw : s.custody.work = marked c stage) :
    s.custodyHashWithdrawn = s.custodyGiveUp := by
  unfold State.custodyHashWithdrawn
  rw [hw]
  rfl

theorem State.measureHashWithdrawn_marked {s : State} {c : Card} {stage : MeasureStage} (hw : s.measure.work = marked c stage) :
    s.measureHashWithdrawn = s.measureRefuse .abandoned := by
  unfold State.measureHashWithdrawn
  rw [hw]
  rfl

theorem State.updateHashWithdrawn_marked {s : State} {c : Card} (hw : s.update.work = marked c .feed) :
    s.updateHashWithdrawn = s.dropSession.updateRefuse .abandoned := by
  unfold State.updateHashWithdrawn
  rw [hw]
  rfl

theorem State.credHashWithdrawn_marked {s : State} {c : Card} {stage : CredStage} (hw : s.credential.work = marked c stage) :
    s.credHashWithdrawn = s.credRefuse .abandoned := by
  unfold State.credHashWithdrawn
  rw [hw]
  rfl

/-- A READ CHAINS whose digest comes after an ABANDON is handed back (R60). -/
theorem State.measureHashEnd_marked {s : State} {c : Card} {values : List Byte} {tail : List OutByte} (d : Digest)
    (hs : s.measure.service = none) (hw : s.measure.work = marked c (.chainsHash values tail)) :
    s.measureHashEnd d = s.measureRefuse .abandoned := by
  unfold State.measureHashEnd
  rw [hs, hw]
  rfl

theorem State.custodySigned_marked {s : State} {c : Card} (sig : Signature) (hw : s.custody.work = marked c .curveSign) :
    s.custodySigned sig = s.custodyGiveUp := by
  unfold State.custodySigned
  rw [hw]
  rfl

theorem State.custodyKeyPair_marked {s : State} {c : Card} (k : Scalar) (pub : PublicKey) (hw : s.custody.work = marked c .curveGenerate) :
    s.custodyKeyPair k pub = s.custodyGiveUp := by
  unfold State.custodyKeyPair
  rw [hw]
  rfl

theorem State.measureCurveEnd_marked {s : State} {c : Card} {body : List Byte} {seq : Nat} (sig : Signature)
    (hw : s.measure.work = marked c (.quoteSign body seq)) : s.measureCurveEnd sig = s.measureRefuse .abandoned := by
  unfold State.measureCurveEnd
  rw [hw]
  rfl

theorem State.updateCurveEnd_marked {s : State} {c : Card} (valid : Bool) (hw : s.update.work = marked c .verifyCurve) :
    s.updateCurveEnd valid = s.updateRefuse .abandoned := by
  unfold State.updateCurveEnd
  rw [hw]
  rfl

theorem State.lifeCurveEnd_marked {s : State} {c : Card} (k : Scalar) (pub : PublicKey) (hw : s.lifecycle.work = marked c .generate) :
    s.lifeCurveEnd k pub = s.lifeRefuse .abandoned := by
  unfold State.lifeCurveEnd
  rw [hw]
  rfl

end Sys2Proof.Machine
end

