-- ==== Sys2Proof/Proofs/AbandonedCards.lean ====
section
/-! SUPPORT. What an ABANDON brings the card in work at each of its stages, and what the work that it marks ends in (R24, R46, R60, R90,
R117, R137, R143, R147). -/
namespace Sys2Proof.Machine

/-- Settles O15, from the notices at the units and the ends of the work they mark. -/
theorem abandonsReachCardsInWork : Obligations.AbandonsReachCardsInWork := by
  refine ⟨?committed, ?stages, ?ends⟩
  case committed =>
    intro s b hr ha hne hx hk hm hu hc hl
    have ht : (s.abandoning b).abandonNotices = s.abandoning b := by
      unfold State.abandonNotices
      rw [State.custodyAbandon_committed (s := s.abandoning b) hk, State.measureAbandon_none (s := s.abandoning b) hm,
        State.updateAbandon_committed (s := s.abandoning b) hu, State.credAbandon_committed (s := s.abandoning b) hc,
        State.lifeAbandon_committed (s := s.abandoning b) hl]
    exact exec_areaAbandon hr ha hx ht hne
  case stages =>
    intro s b c unit hr ha hbuf halone ends u gone pieceOf noPieceOf operationOf noOperationOf leaves store
    have hbegun : ∀ x ∈ s.exch.buffers, x.unit = none ∨ x.phase ≠ .waiting := by
      intro x hmem
      rw [hbuf, List.mem_singleton] at hmem
      subst hmem
      exact .inr Phase.noConfusion
    have hmarked : u.exch.buffers ≠ [] := by
      show s.exch.buffers ≠ []
      rw [hbuf]
      exact List.cons_ne_nil _ _
    have hgone : gone.exch.buffers ≠ [] := by
      show s.exch.buffers.map _ ≠ []
      rw [hbuf]
      exact List.cons_ne_nil _ _
    have hcarry : u.carries := by
      show AreaState.abandoning ≠ .faulted
      decide
    obtain ⟨hk, hm, hu, hc, hl⟩ := halone
    refine ⟨?custody, ?measure, ?update, ?credential, ?lifecycle⟩
    case custody =>
      rintro rfl held free mark
      have hm := hm (by decide)
      have hu := hu (by decide)
      have hc := hc (by decide)
      have hl := hl (by decide)
      let v (stage : CustodyStage) : State := { u with custody := { s.custody with work := working c stage false } }
      have hends : ∀ {stage : CustodyStage} {t : State}, held stage → (v stage).custodyAbandon = t → t.exch.buffers ≠ [] →
          t.measure.work = none → t.update.work = none → t.credential.work = none → t.lifecycle.work = none → ends t := by
        intro stage t hw ht hb hm hu hc hl
        exact exec_areaAbandon hr ha hbegun
          (State.abandonNotices_custody (State.custodyAbandon_held (s := u) hw ht) hm hu hc hl) hb
      refine ⟨fun hundo => ⟨fun hw => ?_, fun use hw => ?_, fun stage hst hw hno => ?_, fun hw hno => ?_,
          fun i x fd next w hw hout => ?_⟩,
        fun r hw hop hs => ?_, fun hw hop => ?_, fun hw hpiece => ?_, fun stage hst hw => ?_⟩
      · exact hends hw (State.custodyGiveUp_noUse (s := (v .gate).leaveWaiters .custody) rfl hundo hcarry) hgone hm hu hc hl
      · have hgave : (v (.binding use)).custodyAbandon = ((v (.binding use)).gaveUp (some .custody)).custodyGiveUp :=
          congrArg State.custodyGiveUp (State.giveUpRequest_eq (v (.binding use)) (some .custody))
        exact hends hw (hgave.trans (State.custodyGiveUp_noUse (s := (v (.binding use)).gaveUp (some .custody)) rfl hundo hcarry))
          hgone hm hu hc hl
      · have hserves := CurveEngine.serves_of_noOperation (e := s.curve) hno
        have hgive : (v stage).custodyAbandon = ((v stage).curveWithdraw .custody).custodyGiveUp := by
          obtain rfl | rfl := hst <;> exact if_neg hserves
        exact hends hw (hgive.trans (State.custodyGiveUp_noUse (s := (v stage).curveWithdraw .custody) rfl hundo hcarry)) hgone hm hu hc hl
      · have hserves := HashEngine.serves_of_noPiece (e := s.hash) hno
        have hgive : (v .mac).custodyAbandon = ({ v .mac with hash := s.hash.withdrawn .custody } : State).custodyGiveUp :=
          (if_neg hserves).trans (congrArg State.custodyGiveUp (State.hashWithdraw_eq (v .mac) .custody))
        exact hends hw (hgive.trans (State.custodyGiveUp_noUse (s := { v .mac with hash := s.hash.withdrawn .custody }) rfl hundo hcarry))
          hgone hm hu hc hl
      · have hwithdraw := State.withdrawWrite_one (s := v (.record i x fd next)) (c := .custody) (a := .custodyCard) hout
        let z : State :=
          { v (.record i x fd next) with outboxes := { s.outboxes with custody := [] }, store := store .custody }
        exact hends hw ((congrArg State.custodyGiveUp hwithdraw).trans (State.custodyGiveUp_noUse (s := z) rfl hundo hcarry))
          hgone hm hu hc hl
      · have hserves := CurveEngine.serves_of_operation (e := s.curve) hop
        have hslot : (v .curveSign).isCounted (c.slot 0) = r.limit.isSome := by
          show ((s.slot (c.slot 0)).bind (·.limit)).isSome = _
          rw [hs]
          rfl
        have hstep : (v .curveSign).custodyAbandon = if r.limit.isSome then (v .curveSign).custodyCommit
            else { u with custody := mark .curveSign } := by
          rw [← hslot]
          exact if_pos hserves
        by_cases hlimit : r.limit = none
        · rw [if_pos hlimit]
          rw [hlimit] at hstep
          exact hends hw hstep hmarked hm hu hc hl
        · rw [if_neg hlimit]
          exact hends hw (hstep.trans (if_pos (Option.isSome_iff_ne_none.mpr hlimit))) hmarked hm hu hc hl
      · exact hends hw (if_pos (CurveEngine.serves_of_operation (e := s.curve) hop)) hmarked hm hu hc hl
      · have hmark : (v .mac).custodyAbandon = ({ u with custody := mark .mac } : State).hashWithdraw .custody :=
          if_pos (HashEngine.serves_of_piece (e := s.hash) hpiece)
        exact hends hw (hmark.trans (State.hashWithdraw_eq _ _)) hmarked hm hu hc hl
      · obtain rfl | ⟨l, d, body, rfl⟩ := hst <;> exact hends hw rfl hmarked hm hu hc hl
    case measure =>
      rintro rfl held free mark
      have hk := hk (by decide)
      have hu := hu (by decide)
      have hc := hc (by decide)
      have hl := hl (by decide)
      let v (stage : MeasureStage) : State := { u with measure := { s.measure with work := working c stage false } }
      have hends : ∀ {stage : MeasureStage} {t : State}, held stage → (v stage).measureAbandon = t → t.exch.buffers ≠ [] →
          t.update.work = none → t.credential.work = none → t.lifecycle.work = none → ends t := by
        intro stage t hw ht hb hu hc hl
        exact exec_areaAbandon hr ha hbegun
          (State.abandonNotices_measure (s := u) hk (State.measureAbandon_held (s := u) hw ht) hu hc hl) hb
      refine ⟨fun stage hw hpaused => ?_, fun hpaused => ?_⟩
      · have hgive : (v stage).measureAbandon = (v stage).measureRefuse .abandoned := if_pos (Option.isSome_iff_ne_none.mpr hpaused)
        exact hends hw (hgive.trans (State.measureRefuse_eq (s := v stage) .abandoned rfl hcarry)) hgone hu hc hl
      · have hnot : ¬s.measure.paused.isSome = true := by simp [hpaused]
        refine ⟨fun chain event digest hw hpiece => ?_, fun values tail hw hpiece => ?_, fun stage hst hw hpiece => ?_,
          fun stage hst hw hno => ?_, fun body seq hw => ⟨fun hop => ?_, fun hno => ?_⟩, fun l d body hw => ?_⟩
        · have hserves := HashEngine.serves_of_piece (e := s.hash) hpiece
          have hcarried : v (.extendHash chain event digest) = u := by
            show ({ u with measure := { s.measure with work := working c _ false } } : State) = u
            rw [← hw]
            rfl
          exact hends hw (((if_neg hnot).trans (if_pos hserves)).trans hcarried) hmarked hu hc hl
        · have hserves := HashEngine.serves_of_piece (e := s.hash) hpiece
          exact hends hw ((if_neg hnot).trans (if_pos hserves)) hmarked hu hc hl
        · have hserves := HashEngine.serves_of_piece (e := s.hash) hpiece
          have hmark : (v stage).measureAbandon = ({ u with measure := mark stage } : State).hashWithdraw .measure := by
            obtain ⟨rest, seq, rfl⟩ | ⟨body, seq, rfl⟩ := hst <;> exact (if_neg hnot).trans (if_pos hserves)
          exact hends hw (hmark.trans (State.hashWithdraw_eq _ _)) hmarked hu hc hl
        · have hserves := HashEngine.serves_of_noPiece (e := s.hash) hno
          have hgive : (v stage).measureAbandon = ((v stage).hashWithdraw .measure).measureRefuse .abandoned := by
            obtain ⟨chain, event, digest, rfl⟩ | ⟨values, tail, rfl⟩ | ⟨rest, seq, rfl⟩ | ⟨body, seq, rfl⟩ := hst <;>
              exact (if_neg hnot).trans (if_neg hserves)
          exact hends hw ((hgive.trans (congrArg (State.measureRefuse .abandoned) (State.hashWithdraw_eq (v stage) .measure))).trans
            (State.measureRefuse_eq (s := { v stage with hash := s.hash.withdrawn .measure }) .abandoned rfl hcarry)) hgone hu hc hl
        · exact hends hw ((if_neg hnot).trans (if_pos (CurveEngine.serves_of_operation (e := s.curve) hop))) hmarked hu hc hl
        · let z : State := (v (.quoteSign body seq)).curveWithdraw .measure
          have hgive : (v (.quoteSign body seq)).measureAbandon = z.measureRefuse .abandoned :=
            (if_neg hnot).trans (if_neg (CurveEngine.serves_of_noOperation (e := s.curve) hno))
          exact hends hw (hgive.trans (State.measureRefuse_eq (s := z) .abandoned rfl hcarry)) hgone hu hc hl
        · exact hends hw (if_neg hnot) hmarked hu hc hl
    case update =>
      rintro rfl hwipe held free mark
      have hk := hk (by decide)
      have hm := hm (by decide)
      have hc := hc (by decide)
      have hl := hl (by decide)
      let v (stage : UpdateStage) : State := { u with update := { s.update with work := working c stage false } }
      have hends : ∀ {stage : UpdateStage} {t : State}, held stage → (v stage).updateAbandon = t → t.exch.buffers ≠ [] →
          t.credential.work = none → t.lifecycle.work = none → ends t := by
        intro stage t hw ht hb hc hl
        exact exec_areaAbandon hr ha hbegun
          (State.abandonNotices_update (s := u) hk hm (State.updateAbandon_held (s := u) hw ht) hc hl) hb
      refine ⟨fun hw hpiece => ?_, fun x hw hno hs => ?_, fun stage hst hw => ?_, fun hw hop => ?_, fun hw hno => ?_,
        fun expected hw => ?_,
        fun l d body hw => hends hw rfl hmarked hc hl, fun stage w hst hw hout => ?_⟩
      · have hmark : (v .feed).updateAbandon = ({ u with update := mark .feed } : State).hashWithdraw .update :=
          if_pos (HashEngine.serves_of_piece (e := s.hash) hpiece)
        exact hends hw (hmark.trans (State.hashWithdraw_eq _ _)) hmarked hc hl
      · let z : State := { v .feed with hash := s.hash.withdrawn .update }
        have hdropped : z.dropSession = { z with update := { z.update with session := .idle } } := State.dropSession_opened hs
        have hgive : (v .feed).updateAbandon = z.dropSession.updateRefuse .abandoned :=
          (if_neg (HashEngine.serves_of_noPiece (e := s.hash) hno)).trans
            (congrArg (fun x : State => x.dropSession.updateRefuse .abandoned) (State.hashWithdraw_eq (v .feed) .update))
        exact hends hw ((hgive.trans (congrArg (State.updateRefuse .abandoned) hdropped)).trans
          (State.updateRefuse_eq (s := { z with update := { z.update with session := .idle } }) .abandoned rfl hcarry hwipe)) hgone hc hl
      · have hgive : (v stage).updateAbandon = ((v stage).hashWithdraw .update).updateRefuse .abandoned := by
          obtain ⟨pub, rfl⟩ | rfl := hst <;> rfl
        exact hends hw ((hgive.trans (congrArg (State.updateRefuse .abandoned) (State.hashWithdraw_eq (v stage) .update))).trans
          (State.updateRefuse_eq (s := { v stage with hash := s.hash.withdrawn .update }) .abandoned rfl hcarry hwipe)) hgone hc hl
      · exact hends hw (if_pos (CurveEngine.serves_of_operation (e := s.curve) hop)) hmarked hc hl
      · have hgive : (v .verifyCurve).updateAbandon = ((v .verifyCurve).curveWithdraw .update).updateRefuse .abandoned :=
          if_neg (CurveEngine.serves_of_noOperation (e := s.curve) hno)
        exact hends hw (hgive.trans (State.updateRefuse_eq (s := (v .verifyCurve).curveWithdraw .update) .abandoned rfl hcarry hwipe))
          hgone hc hl
      · have hgave := congrArg (State.updateRefuse .abandoned) (State.giveUpRequest_eq (v (.confirmChain expected)) none)
        exact hends hw (hgave.trans (State.updateRefuse_eq (s := (v (.confirmChain expected)).gaveUp none) .abandoned rfl hcarry hwipe))
          hgone hc hl
      · have hgive : (v stage).updateAbandon = ((v stage).withdrawWrite .update .updateCard).updateRefuse .abandoned := by
          obtain rfl | rfl | ⟨r, rfl⟩ | ⟨r, x, y, d, rfl⟩ | ⟨r, rfl⟩ := hst <;> rfl
        have hwithdraw := congrArg (State.updateRefuse .abandoned)
          (State.withdrawWrite_one (s := v stage) (c := .update) (a := .updateCard) hout)
        let z : State := { v stage with outboxes := { s.outboxes with update := [] }, store := store .update }
        exact hends hw ((hgive.trans hwithdraw).trans (State.updateRefuse_eq (s := z) .abandoned rfl hcarry hwipe)) hgone hc hl
    case credential =>
      rintro rfl held free
      have hk := hk (by decide)
      have hm := hm (by decide)
      have hu := hu (by decide)
      have hl := hl (by decide)
      let v (stage : CredStage) : State := { u with credential := { s.credential with work := working c stage false } }
      have hends : ∀ {stage : CredStage} {t : State}, held stage → (v stage).credAbandon = t → t.exch.buffers ≠ [] →
          t.lifecycle.work = none → ends t := by
        intro stage t hw ht hb hl
        exact exec_areaAbandon hr ha hbegun
          (State.abandonNotices_credential (s := u) hk hm hu (State.credAbandon_held (s := u) hw ht) hl) hb
      refine ⟨fun hw => ?_, fun i salt hw => ?_, fun i hw => ?_, fun stage hst hw => ⟨fun hpiece => ?_, fun hno => ?_⟩,
        fun stage w answerTo hst hw hout => ?_⟩
      · exact hends hw (State.credRefuse_eq (s := (v .gate).leaveWaiters .credential) .abandoned rfl hcarry) hgone hl
      · exact hends hw (State.credRefuse_eq (s := v (.awaitRecord i salt)) .abandoned rfl hcarry) hgone hl
      · have hgave := congrArg (State.credRefuse .abandoned) (State.giveUpRequest_eq (v (.binding i)) (some .credential))
        exact hends hw (hgave.trans (State.credRefuse_eq (s := (v (.binding i)).gaveUp (some .credential)) .abandoned rfl hcarry)) hgone hl
      · have hserves := HashEngine.serves_of_piece (e := s.hash) hpiece
        have hmark : (v stage).credAbandon =
            ({ u with credential := { s.credential with work := marked c stage } } : State).hashWithdraw .credential := by
          obtain ⟨salt, x, rfl⟩ | ⟨i, salt, x, a, rfl⟩ := hst <;> exact if_pos hserves
        exact hends hw (hmark.trans (State.hashWithdraw_eq _ _)) hmarked hl
      · have hserves := HashEngine.serves_of_noPiece (e := s.hash) hno
        have hgive : (v stage).credAbandon = ((v stage).hashWithdraw .credential).credRefuse .abandoned := by
          obtain ⟨salt, x, rfl⟩ | ⟨i, salt, x, a, rfl⟩ := hst <;> exact if_neg hserves
        exact hends hw ((hgive.trans (congrArg (State.credRefuse .abandoned) (State.hashWithdraw_eq (v stage) .credential))).trans
          (State.credRefuse_eq (s := { v stage with hash := s.hash.withdrawn .credential }) .abandoned rfl hcarry)) hgone hl
      · have hgive : (v stage).credAbandon = ((v stage).withdrawWrite .credential answerTo).credRefuse .abandoned := by
          obtain ⟨⟨i, r, rfl⟩ | ⟨i, rfl⟩, rfl⟩ | ⟨⟨i, r, a, rfl⟩, rfl⟩ := hst <;> rfl
        have hwithdraw := congrArg (State.credRefuse .abandoned) (State.withdrawWrite_one (s := v stage) (c := .credential) hout)
        let z : State := { v stage with outboxes := { s.outboxes with credential := [] }, store := store .credential }
        exact hends hw ((hgive.trans hwithdraw).trans (State.credRefuse_eq (s := z) .abandoned rfl hcarry)) hgone hl
    case lifecycle =>
      rintro rfl held free mark
      have hk := hk (by decide)
      have hm := hm (by decide)
      have hu := hu (by decide)
      have hc := hc (by decide)
      let v (stage : LifeStage) : State := { u with lifecycle := { s.lifecycle with work := working c stage false } }
      have hends : ∀ {stage : LifeStage} {t : State}, held stage → (v stage).lifeAbandon = t → t.exch.buffers ≠ [] → ends t := by
        intro stage t hw ht hb
        exact exec_areaAbandon hr ha hbegun
          (State.abandonNotices_lifecycle (s := u) hk hm hu hc (State.lifeAbandon_held (s := u) hw ht)) hb
      refine ⟨fun hw => ?_, fun hw hop => ?_, fun hw hno => ?_, fun stage hst hw => ?_, fun stage w hst hw hout => ?_⟩
      · exact hends hw (State.lifeRefuse_eq (s := (v .gate).leaveWaiters .lifecycle) .abandoned rfl hcarry) hgone
      · exact hends hw (if_pos (CurveEngine.serves_of_operation (e := s.curve) hop)) hmarked
      · have hgive : (v .generate).lifeAbandon = ((v .generate).curveWithdraw .lifecycle).lifeRefuse .abandoned :=
          if_neg (CurveEngine.serves_of_noOperation (e := s.curve) hno)
        exact hends hw (hgive.trans (State.lifeRefuse_eq (s := (v .generate).curveWithdraw .lifecycle) .abandoned rfl hcarry)) hgone
      · obtain rfl | ⟨l, d, body, rfl⟩ := hst <;> exact hends hw rfl hmarked
      · have hgive : (v stage).lifeAbandon = ((v stage).withdrawWrite .lifecycle .lifeCard).lifeRefuse .abandoned := by
          obtain ⟨l, rfl⟩ | rfl := hst <;> rfl
        have hwithdraw := congrArg (State.lifeRefuse .abandoned) (State.withdrawWrite_one (s := v stage) (c := .lifecycle) hout)
        let z : State := { v stage with outboxes := { s.outboxes with lifecycle := [] }, store := store .lifecycle }
        exact hends hw ((hgive.trans hwithdraw).trans (State.lifeRefuse_eq (s := z) .abandoned rfl hcarry)) hgone
  case ends =>
    intro s c hp hend hcarry hwipe custody measure update credential lifecycle
    refine ⟨?dma, ?piece, ?operation⟩
    case dma =>
      intro h r found read
      let v : State := s.hostStores h
      refine ⟨fun hw => ?_, fun hw => ?_, ?written⟩
      · obtain ⟨hread, -⟩ := State.custodyDmaEnd_marked (s := v) (dmaAnswered r && s.linkUp && !s.isCut .custody) (dmaWritten r) hw
        have hpending : s.dmaPending .custody = true := by simp [State.dmaPending, hw, marked]
        exact (exec_extentDmaEnd h r hp hpending rfl).trans (congrArg Host.Outcome.next ((hread rfl).trans
          (State.custodyGiveUp_eq (s := v) hw hcarry)))
      · obtain ⟨hread, -⟩ := State.lifeDmaEnd_marked (s := v) (dmaAnswered r && s.linkUp && !s.isCut .lifecycle) (dmaWritten r) hw
        have hpending : s.dmaPending .lifecycle = true := by simp [State.dmaPending, hw, marked]
        exact (exec_extentDmaEnd h r hp hpending rfl).trans (congrArg Host.Outcome.next ((hread rfl).trans
          (State.lifeRefuse_eq (s := v) .abandoned hw hcarry)))
      case written =>
        intro l d body stored t
        let ok := dmaAnswered r && s.linkUp
        let out : State := v.writeOutput c ok (dmaWritten r) l
        have huncut : ∀ {cut : Bool}, cut = false → (dmaAnswered r && s.linkUp && !cut) = ok := by
          rintro cut rfl
          exact Bool.and_true _
        refine ⟨fun hw => ?_, fun hw hpaused => ?_, fun hw => ?_, fun hw => ?_⟩
        · obtain ⟨-, hwrite⟩ := State.custodyDmaEnd_marked (s := v) ok (dmaWritten r) hw
          have hpending : s.dmaPending .custody = true := by simp [State.dmaPending, hw, marked]
          exact (exec_extentDmaEnd h r hp hpending (huncut (by simp [State.isCut, hw, marked]))).trans
            (congrArg Host.Outcome.next ((hwrite l d body rfl).trans (State.custodyGiveUp_eq (s := out) hw hcarry)))
        · have hpending : s.dmaPending .measure = true := by simp [State.dmaPending, hw, marked, hpaused]
          exact (exec_extentDmaEnd h r hp hpending (huncut (by simp [State.isCut, hw, marked]))).trans
            (congrArg Host.Outcome.next ((State.measureDmaEnd_marked (s := v) ok (dmaWritten r) hw hpaused).trans
              (State.measureRefuse_eq (s := out) .abandoned hw hcarry)))
        · have hpending : s.dmaPending .update = true := by simp [State.dmaPending, hw, marked]
          exact (exec_extentDmaEnd h r hp hpending (huncut (by simp [State.isCut, hw, marked]))).trans
            (congrArg Host.Outcome.next ((State.updateDmaEnd_marked (s := v) ok (dmaWritten r) hw).trans
              (State.updateRefuse_eq (s := out) .abandoned hw hcarry hwipe)))
        · obtain ⟨-, hwrite⟩ := State.lifeDmaEnd_marked (s := v) ok (dmaWritten r) hw
          have hpending : s.dmaPending .lifecycle = true := by simp [State.dmaPending, hw, marked]
          exact (exec_extentDmaEnd h r hp hpending (huncut (by simp [State.isCut, hw, marked]))).trans
            (congrArg Host.Outcome.next ((hwrite l d body rfl).trans (State.lifeRefuse_eq (s := out) .abandoned hw hcarry)))
    case piece =>
      intro h answered who job t ends
      let v : State := s.atPieceEnd h who
      have hgoes : ∀ {withdrawn : Bool} {job : HashJob} {t : State},
          s.hash.running = some { client := who, job := job, withdrawn := withdrawn } →
          v.pieceEnded { client := who, job := job, withdrawn := withdrawn } (answered && s.linkUp && !s.readCut who) = t →
          t.startUp = .ended → ends { t with hash := t.hash.release } :=
        fun hr hu he => exec_hashPieceEnd_ended h hp hr rfl hu he
      refine ⟨fun hr => ⟨fun stage hwho hw => ?_, fun stage hwho hw => ?_, fun x hwho hw hs => ?_, fun stage hwho hw => ?_⟩,
        fun input values tail hwho hr hlen hserve hw => ?_⟩
      all_goals subst hwho
      · exact hgoes hr ((State.pieceEnded_withdrawn (s := v) _ rfl).trans ((State.custodyHashWithdrawn_marked (s := v) hw).trans
          (State.custodyGiveUp_eq (s := v) hw hcarry))) hend
      · exact hgoes hr ((State.pieceEnded_withdrawn (s := v) _ rfl).trans ((State.measureHashWithdrawn_marked (s := v) hw).trans
          (State.measureRefuse_eq (s := v) .abandoned hw hcarry))) hend
      · have hdropped : v.dropSession = { v with update := { v.update with session := .idle } } := State.dropSession_opened hs
        exact hgoes hr ((State.pieceEnded_withdrawn (s := v) _ rfl).trans ((State.updateHashWithdrawn_marked (s := v) hw).trans
          ((congrArg (State.updateRefuse .abandoned) hdropped).trans
            (State.updateRefuse_eq (s := { v with update := { v.update with session := .idle } }) .abandoned hw hcarry hwipe)))) hend
      · exact hgoes hr ((State.pieceEnded_withdrawn (s := v) _ rfl).trans ((State.credHashWithdrawn_marked (s := v) hw).trans
          (State.credRefuse_eq (s := v) .abandoned hw hcarry))) hend
      · exact hgoes hr ((v.shaPiece_ends _ hlen).trans ((State.measureHashEnd_marked (s := v) _ hserve hw).trans
          (State.measureRefuse_eq (s := v) .abandoned hw hcarry))) hend
    case operation =>
      intro who op hr t ends
      let v : State := s.atOperationEnd who
      have hgoes : ∀ {t : State}, v.curveEnded { client := who, op := op } = t →
          ends { t with curve := t.curve.release t.identityScalar } := fun hu => exec_curveOperationComplete hp hr hu
      have hgave : ∀ {stage : CustodyStage}, s.custody.undo = none → s.custody.work = marked c stage →
          v.custodyGiveUp = { v.givesBack c .abandoned none [] with custody := { s.custody with work := none } } := by
        intro stage hundo hw
        have hfree : ({ s.custody with work := none, undo := none } : Custody) = { s.custody with work := none } := by rw [← hundo]
        exact (State.custodyGiveUp_noUse (s := v) hw hundo hcarry).trans
          (congrArg (fun x => { v.givesBack c .abandoned none [] with custody := x }) hfree)
      refine ⟨fun k d hwho hop hundo hw => ?_, fun seed hwho hop hundo hw => ?_, fun k d body seq hwho hop hw => ?_,
        fun pub d sig hwho hop hw => ?_, fun seed hwho hop hw => ?_⟩
      all_goals subst hwho hop
      · exact hgoes ((State.custodySigned_marked (s := v) _ hw).trans (hgave hundo hw))
      · exact hgoes ((State.custodyKeyPair_marked (s := v) _ _ hw).trans (hgave hundo hw))
      · exact hgoes ((State.measureCurveEnd_marked (s := v) _ hw).trans (State.measureRefuse_eq (s := v) .abandoned hw hcarry))
      · exact hgoes ((State.updateCurveEnd_marked (s := v) _ hw).trans (State.updateRefuse_eq (s := v) .abandoned hw hcarry hwipe))
      · exact hgoes ((State.lifeCurveEnd_marked (s := v) _ _ hw).trans (State.lifeRefuse_eq (s := v) .abandoned hw hcarry))

end Sys2Proof.Machine
end

