-- ==== Sys2Proof/Proofs/Ledger.lean ====
section
/-! SUPPORT. The chains and the record list as one ledger: what leaves it as it is, what returns it to zero, what an extension makes of it,
and all that a row can do to it (R28, R30, R31, R45, R164, R167). -/
namespace Sys2Proof.Machine

/-! ### The ledger -/

/-- What an extension changes of the measure unit: the chains, the record list, the missed count and the TRUNCATED flag (R28, R30, R31). -/
structure Ledger where
  chains    : Vector Digest 12
  records   : List Record
  missed    : Nat
  truncated : Bool

def Measure.ledger (m : Measure) : Ledger :=
  { chains := m.chains, records := m.records, missed := m.missed, truncated := m.truncated }

def Still.ledger (x : Still) : Ledger :=
  { chains := x.chains, records := x.records, missed := x.missed, truncated := x.truncated }

/-- The ledger is a part of what the units leave still. -/
theorem ledger_of_still {s t : State} (h : t.still = s.still) : t.measure.ledger = s.measure.ledger := congrArg Still.ledger h

@[simp] theorem State.whenPowered_ledger (f : State → State) (s : State) (hf : ∀ t, (f t).measure.ledger = t.measure.ledger) :
    (s.whenPowered f).measure.ledger = s.measure.ledger := by
  unfold State.whenPowered
  split
  · exact hf s
  · rfl

@[simp] theorem State.whenReachable_ledger (f : State → State) (s : State) (hf : ∀ t, (f t).measure.ledger = t.measure.ledger) :
    (s.whenReachable f).measure.ledger = s.measure.ledger := by
  unfold State.whenReachable
  split
  · exact hf s
  · rfl

/-! ### The exchange -/

@[simp] theorem State.sendMessage_ledger (s : State) : s.sendMessage.measure.ledger = s.measure.ledger :=
  ledger_of_still s.sendMessage_still

@[simp] theorem State.ask_ledger (a : Attention) (s : State) : (s.ask a).measure.ledger = s.measure.ledger :=
  ledger_of_still (State.ask_still a s)

@[simp] theorem State.freeBuffer_ledger (c : Card) (s : State) : (s.freeBuffer c).measure.ledger = s.measure.ledger :=
  ledger_of_still (State.freeBuffer_still c s)

@[simp] theorem State.handBack_ledger (c : Card) (o : CardOutcome) (d : Option Word32) (b : List OutByte) (s : State) :
    (s.handBack c o d b).measure.ledger = s.measure.ledger := ledger_of_still (State.handBack_still c o d b s)

theorem foldl_ledger {α : Type} (f : State → α → State) (h : ∀ s x, (f s x).measure.ledger = s.measure.ledger) (l : List α)
    (s : State) : (l.foldl f s).measure.ledger = s.measure.ledger := by
  induction l generalizing s with
  | nil => rfl
  | cons x l ih => exact (ih (f s x)).trans (h s x)

@[simp] theorem State.setEnable_ledger (b : Bool) (s : State) : (s.setEnable b).measure.ledger = s.measure.ledger := by
  unfold State.setEnable
  dsimp only
  split <;> simp

@[simp] theorem State.writeAck_ledger (v : Word32) (s : State) : (s.writeAck v).measure.ledger = s.measure.ledger := by
  unfold State.writeAck
  dsimp only
  split <;> simp

@[simp] theorem State.nudge_ledger (s : State) : s.nudge.measure.ledger = s.measure.ledger := by
  unfold State.nudge
  repeat' split
  all_goals rfl

@[simp] theorem State.enterFaulted_ledger (f : FaultCode) (n : Nat) (b : Bool) (s : State) :
    (s.enterFaulted f n b).measure.ledger = s.measure.ledger := by
  unfold State.enterFaulted
  split
  · refine (foldl_ledger _ (fun s c => State.freeBuffer_ledger c s) _ _).trans ?_
    dsimp only
    split
    · exact State.ask_ledger .areaFault _
    · exact State.ask_ledger .areaFault _
  · rfl

@[simp] theorem State.openArea_ledger (h : HostWrites) (a : OpenAnswer) (s : State) :
    (s.openArea h a).measure.ledger = s.measure.ledger := by
  unfold State.openArea
  split
  · cases a with
    | readAwaited => rfl
    | writeAwaited =>
      dsimp only
      split
      · rfl
      · exact State.enterFaulted_ledger _ _ _ _
    | both =>
      dsimp only
      split
      · rfl
      · exact State.enterFaulted_ledger _ _ _ _
  · exact State.ask_ledger .controlIgnored s

@[simp] theorem State.closeWhenEmpty_ledger (s : State) : s.closeWhenEmpty.measure.ledger = s.measure.ledger := by
  unfold State.closeWhenEmpty
  split <;> rfl

@[simp] theorem State.closeCommand_ledger (s : State) : s.closeCommand.measure.ledger = s.measure.ledger := by
  unfold State.closeCommand
  split
  · exact State.closeWhenEmpty_ledger _
  · split
    · rfl
    · exact State.closeWhenEmpty_ledger _
  all_goals exact State.ask_ledger .controlIgnored s

@[simp] theorem State.abandonUnbegun_ledger (b : Buffer) (s : State) : (s.abandonUnbegun b).measure.ledger = s.measure.ledger := by
  unfold State.abandonUnbegun
  dsimp only
  split
  · exact (ledger_of_still (State.restartIdle_still _)).trans (State.handBack_ledger _ _ _ _ _)
  · exact State.handBack_ledger _ _ _ _ _

theorem State.abandonNotices_still (s : State) : s.abandonNotices.still = s.still := by simp [State.abandonNotices]

@[simp] theorem State.abandonCommand_ledger (s : State) : s.abandonCommand.measure.ledger = s.measure.ledger := by
  have hall (s : State) : s.abandonArea.measure.ledger = s.measure.ledger := by
    refine (State.closeWhenEmpty_ledger _).trans ((ledger_of_still (State.abandonNotices_still _)).trans ?_)
    exact foldl_ledger _ (fun s b => State.abandonUnbegun_ledger b s) _ _
  unfold State.abandonCommand
  split
  · exact hall s
  · exact hall s
  all_goals exact State.ask_ledger .controlIgnored s

@[simp] theorem State.writeRegister_ledger (o : BitVec 5) (v : Word32) (s : State) :
    (s.writeRegister o v).measure.ledger = s.measure.ledger := by
  have hbase (b : Word64) : (s.writeBase b).measure.ledger = s.measure.ledger := by
    unfold State.writeBase
    split <;> rfl
  have hcontrol : (s.writeControl v).measure.ledger = s.measure.ledger := by
    unfold State.writeControl
    dsimp only
    split <;> simp
  unfold State.writeRegister
  repeat' split
  · exact hbase _
  · exact hbase _
  · exact hcontrol
  · simp
  · simp
  all_goals rfl

theorem State.noCard_ledger (s : State) : s.noCard.measure.ledger = s.measure.ledger := by
  unfold State.noCard
  split <;> rfl

theorem State.readChain_ledger (s : State) : s.readChain.measure.ledger = s.measure.ledger := by
  have hfound (n : Nat) (c : Card) : (s.candidateFound n c).measure.ledger = s.measure.ledger := by
    unfold State.candidateFound
    repeat' split
    all_goals rfl
  have hwrong (n : Nat) : (s.wrongTicket n).measure.ledger = s.measure.ledger := by
    unfold State.wrongTicket
    split
    · exact State.ask_ledger .chainMismatch _
    · rfl
  unfold State.readChain
  split
  · exact s.noCard_ledger
  · dsimp only
    split
    · exact s.noCard_ledger
    · split
      · exact (State.noCard_ledger _).trans (hwrong _)
      · exact hfound _ _

@[simp] theorem State.readingPass_ledger (h : HostWrites) (s : State) : (s.readingPass h).measure.ledger = s.measure.ledger := by
  have hopen (t : State) : t.completeOpening.measure.ledger = t.measure.ledger := by
    unfold State.completeOpening
    repeat' split
    · rfl
    · exact State.enterFaulted_ledger _ _ _ _
    all_goals rfl
  unfold State.readingPass
  repeat' split
  · exact hopen _
  · exact State.readChain_ledger _
  · rfl

@[simp] theorem State.cardTake_ledger (h : HostWrites) (s : State) : (s.cardTake h).measure.ledger = s.measure.ledger := by
  have hroute (c : Card) (t : State) : (t.routeCard c).measure.ledger = t.measure.ledger := by
    unfold State.routeCard
    dsimp only
    repeat' split
    · exact State.handBack_ledger _ _ _ _ _
    · exact State.handBack_ledger _ _ _ _ _
    · rfl
  unfold State.cardTake
  repeat' split
  · exact hroute _ _
  all_goals rfl

@[simp] theorem State.writeReply_ledger (e : Settlement) (s : State) : (s.writeReply e).measure.ledger = s.measure.ledger := by
  simp [State.writeReply]

@[simp] theorem State.writeSettled_ledger (e : Settlement) (s : State) : (s.writeSettled e).measure.ledger = s.measure.ledger := by
  simp [State.writeSettled]

@[simp] theorem State.settleCard_ledger (s : State) : s.settleCard.measure.ledger = s.measure.ledger := by
  have hunhold (t : State) : t.unhold.measure.ledger = t.measure.ledger := by
    unfold State.unhold
    split <;> rfl
  have hclose (t : State) : t.closeIfDone.measure.ledger = t.measure.ledger := by
    unfold State.closeIfDone
    split <;> simp
  have htally (e : Settlement) (rest : List Settlement) (t : State) :
      (t.tallySettle e rest).measure.ledger = t.measure.ledger := by
    refine (hclose _).trans ((hunhold _).trans ?_)
    dsimp only
    split
    · exact (State.sendMessage_ledger _).trans (State.freeBuffer_ledger _ _)
    · exact State.freeBuffer_ledger _ _
  unfold State.settleCard
  repeat' split
  · rfl
  · refine (htally _ _ _).trans ?_
    simp
  · rfl

@[simp] theorem State.accessFails_ledger (x : FailedAccess) (h : HostWrites) (b : Bool) (s : State) :
    (s.accessFails x h b).measure.ledger = s.measure.ledger := by
  have hopening (a : OpenAnswer) (fails : State → State) (hf : ∀ t, (fails t).measure.ledger = t.measure.ledger) :
      (s.openingFault a fails h).measure.ledger = s.measure.ledger := by
    unfold State.openingFault
    split
    · exact hf _
    · rfl
  have hpass (fails : State → State) (hf : ∀ t, (fails t).measure.ledger = t.measure.ledger) :
      (s.passFault fails h).measure.ledger = s.measure.ledger := by
    unfold State.passFault
    split
    · exact hf _
    · rfl
  have htake (f : FaultCode) (before : Nat → State → State) (hf : ∀ n t, (before n t).measure.ledger = t.measure.ledger) :
      (s.takeFault f before h b).measure.ledger = s.measure.ledger := by
    unfold State.takeFault
    repeat' split
    · exact (State.enterFaulted_ledger _ _ _ _).trans (hf _ _)
    all_goals rfl
  have hsettle (before : Settlement → State → State) (n : Settlement → Nat)
      (hf : ∀ e t, (before e t).measure.ledger = t.measure.ledger) : (s.settleFault before n h b).measure.ledger = s.measure.ledger := by
    unfold State.settleFault
    repeat' split
    · exact (State.enterFaulted_ledger _ _ _ _).trans (hf _ _)
    all_goals rfl
  unfold State.accessFails
  cases x with
  | headerRead => exact hopening _ _ (by simp)
  | openingWrite => exact hopening _ _ (by simp)
  | faultWrite =>
    refine hopening _ _ fun t => ?_
    split
    · exact State.enterFaulted_ledger _ _ _ _
    · rfl
  | linkRead => exact hpass _ (by simp)
  | headRead =>
    refine hpass _ fun t => ?_
    split
    · exact State.enterFaulted_ledger _ _ _ _
    · rfl
  | cardRead => exact htake _ _ fun n t => rfl
  | takenStateWrite => exact htake _ _ fun n t => rfl
  | takenTicketWrite => exact htake _ _ fun n t => rfl
  | replyWrite => exact hsettle _ _ fun e t => rfl
  | settledWrite => exact hsettle _ _ (by simp)
  | tallyWrite => exact hsettle _ _ fun e t => (State.writeSettled_ledger e _).trans (State.writeReply_ledger e t)

/-! ### The pace clock and the link -/

@[simp] theorem State.storedDebtRefresh_ledger (s : State) : s.storedDebtRefresh.measure.ledger = s.measure.ledger := by
  unfold State.storedDebtRefresh
  split
  · exact (ledger_of_still (State.send_still _ _ _)).trans rfl
  · rfl

@[simp] theorem State.decayStep_ledger (s : State) : s.decayStep.measure.ledger = s.measure.ledger := by
  unfold State.decayStep
  split
  · exact (ledger_of_still (State.decayAll_still _)).trans rfl
  · rfl

@[simp] theorem State.periodExpiry_ledger (s : State) : s.periodExpiry.measure.ledger = s.measure.ledger := by
  unfold State.periodExpiry
  split <;> rfl

@[simp] theorem State.paceTick_ledger (low : Bool) (s : State) : (s.paceTick low).measure.ledger = s.measure.ledger := by
  have hflush : s.flushTick.measure.ledger = s.measure.ledger :=
    calc s.flushTick.measure.ledger
      _ = s.presenceExpiry.decayStep.storedDebtRefresh.idleExpiry.guardExpiry.periodExpiry.measure.ledger :=
        ledger_of_still (State.ownerReleaseHold_still _)
      _ = s.presenceExpiry.decayStep.storedDebtRefresh.idleExpiry.guardExpiry.measure.ledger := State.periodExpiry_ledger _
      _ = s.presenceExpiry.decayStep.storedDebtRefresh.measure.ledger :=
        ledger_of_still ((State.guardExpiry_still _).trans (State.idleExpiry_still _))
      _ = s.presenceExpiry.measure.ledger := (State.storedDebtRefresh_ledger _).trans (State.decayStep_ledger _)
      _ = s.measure.ledger := ledger_of_still (State.presenceExpiry_still s)
  unfold State.paceTick
  dsimp only
  split <;> exact hflush

@[simp] theorem State.linkLoss_ledger (s : State) : s.linkLoss.measure.ledger = s.measure.ledger := by
  unfold State.linkLoss
  split
  · exact State.enterFaulted_ledger _ _ _ _
  · rfl

@[simp] theorem State.linkReturn_ledger (s : State) : s.linkReturn.measure.ledger = s.measure.ledger := by
  unfold State.linkReturn
  split <;> rfl

/-! ### The measure unit's cards -/

@[simp] theorem State.beginMeasure_ledger (code : Word16) (body : Card → State → State) (s : State)
    (hb : ∀ c t, (body c t).measure.ledger = t.measure.ledger) : (s.beginMeasure code body).measure.ledger = s.measure.ledger := by
  unfold State.beginMeasure
  split
  · exact hb _ _
  · rfl

@[simp] theorem State.closeChain_ledger (c : Card) (s : State) : (s.closeChain c).measure.ledger = s.measure.ledger := by
  unfold State.closeChain
  split
  · exact ledger_of_still (State.measureBad_still _ _)
  · split
    · exact ledger_of_still (State.measureRefuse_still _ _)
    · exact (ledger_of_still (State.measureHandBack_still _ _ _ _)).trans rfl

@[simp] theorem State.quote_ledger (c : Card) (s : State) : (s.quote c).measure.ledger = s.measure.ledger := by
  unfold State.quote
  split
  · exact ledger_of_still (State.measureBad_still _ _)
  · split
    · exact ledger_of_still (State.measureRefuse_still _ _)
    · split
      · exact ledger_of_still (State.measureBad_still _ _)
      · simp [Measure.ledger, State.measureStage]

/-! ### The engines, the census and the units' accesses -/

@[simp] theorem State.curveEnded_still (run : CurveRun) (s : State) : (s.curveEnded run).still = s.still := by
  unfold State.curveEnded
  dsimp only
  repeat' split
  all_goals simp

@[simp] theorem State.curveComplete_ledger (s : State) : s.curveComplete.measure.ledger = s.measure.ledger := by
  unfold State.curveComplete
  split
  · rfl
  · exact ledger_of_still (State.curveEnded_still _ _)

@[simp] theorem State.answerWaiters_still (s : State) : s.answerWaiters.still = s.still := by
  have hone (b : Bool) (s : State) (w : Waiter) : (s.answerWaiter b w).still = s.still := by cases w <;> simp [State.answerWaiter]
  unfold State.answerWaiters
  split
  · rfl
  · exact State.foldl_still _ (hone true) _ _
  · exact State.foldl_still _ (hone false) _ _

@[simp] theorem State.censusFails_still (s : State) : s.censusFails.still = s.still :=
  State.send_still _ _ _

@[simp] theorem State.censusEnd_ledger (a b r : Byte) (bounded : Bool) (jitter : List Byte) (s : State) :
    (s.censusEnd a b r bounded jitter).measure.ledger = s.measure.ledger := by
  unfold State.censusEnd
  split
  · refine ledger_of_still ((State.startUpGoesOn_still _).trans ((State.answerWaiters_still _).trans ?_))
    dsimp only
    split
    · exact State.censusFails_still _
    · rfl
  · rfl

theorem State.writeOutput_ledger (c : Card) (ok : Bool) (n : Nat) (l : List Byte) (s : State) :
    (s.writeOutput c ok n l).measure.ledger = s.measure.ledger := rfl

@[simp] theorem State.extentDmaEnd_ledger (u : DmaUnit) (h : HostWrites) (r : DmaResult) (s : State) :
    (s.extentDmaEnd u h r).measure.ledger = s.measure.ledger := by
  have hended (ok : Bool) (n : Nat) (t : State) : (t.dmaEnded u ok n).measure.ledger = t.measure.ledger := by
    have hwrite (c : Card) (l : List Byte) {v : State} (hv : v.still = (t.writeOutput c ok n l).still) :
        v.measure.ledger = t.measure.ledger := (ledger_of_still hv).trans (State.writeOutput_ledger c ok n l t)
    cases u with
    | custody =>
      show (t.custodyDmaEnd ok n).measure.ledger = _
      unfold State.custodyDmaEnd
      repeat' split
      · rfl
      · exact ledger_of_still (State.custodyGiveUp_still _)
      · exact ledger_of_still (State.importBlob_still _ _ _)
      · exact ledger_of_still (State.custodyRefuse_still _ _)
      · exact hwrite _ _ (State.custodyGiveUp_still _)
      · exact hwrite _ _ (State.custodyHandBack_still _ _ _ _)
      · exact hwrite _ _ ((State.custodyRefuse_still _ _).trans (State.takeBackUse_still _))
      · rfl
    | measure =>
      show (t.measureDmaEnd ok n).measure.ledger = _
      unfold State.measureDmaEnd
      repeat' split
      · rfl
      · exact hwrite _ _ (State.measureRefuse_still _ _)
      · exact hwrite _ _ (State.measureHandBack_still _ _ _ _)
      · exact hwrite _ _ (State.measureRefuse_still _ _)
      · rfl
    | update =>
      show (t.updateDmaEnd ok n).measure.ledger = _
      unfold State.updateDmaEnd
      repeat' split
      · rfl
      · exact hwrite _ _ (State.updateRefuse_still _ _)
      · exact hwrite _ _ (State.updateHandBack_still _ _ _ _)
      · exact hwrite _ _ (State.updateRefuse_still _ _)
      · rfl
    | lifecycle =>
      show (t.lifeDmaEnd ok n).measure.ledger = _
      unfold State.lifeDmaEnd
      repeat' split
      · rfl
      · exact ledger_of_still (State.lifeRefuse_still _ _)
      · exact ledger_of_still ((State.send_still _ _ _).trans (State.lifeStage_still _ _))
      · exact ledger_of_still (State.lifeRefuse_still _ _)
      · exact hwrite _ _ (State.lifeRefuse_still _ _)
      · exact hwrite _ _ (State.lifeHandBack_still _ _ _ _)
      · exact hwrite _ _ (State.lifeRefuse_still _ _)
      · rfl
  unfold State.extentDmaEnd
  split
  · exact hended _ _ _
  · rfl

/-- The end of a piece of any requester but the measure unit. -/
theorem State.pieceEnded_still {run : HashRun} (hc : run.client ≠ .measure) (ok : Bool) (s : State) :
    (s.pieceEnded run ok).still = s.still := by
  obtain ⟨client, job, withdrawn⟩ := run
  have hnotice (n : Nat) (j : HashJob) (t : State) : (t.pieceNotice client n j).still = t.still := by
    cases client <;> simp [State.pieceNotice]
  have hended (j : HashJob) (t : State) : (t.jobEnded client j).still = t.still := by
    unfold State.jobEnded State.hashEnded State.hashContinued
    cases client with
    | measure => exact absurd rfl hc
    | _ => dsimp only; split <;> simp
  have hmore (j : HashJob) (t : State) : (t.pieceGoesOn client j).still = t.still := by
    cases client with
    | measure => exact absurd rfl hc
    | _ => rfl
  have hwithdrawn (t : State) : (t.hashWithdrawn client).still = t.still := by cases client <;> simp [State.hashWithdrawn]
  have hfault (n : Nat) (t : State) : (t.hashFault client n).still = t.still := by cases client <;> simp [State.hashFault]
  unfold State.pieceEnded
  dsimp only
  repeat' split
  · exact hwithdrawn s
  · exact hfault _ s
  · exact (hended _ _).trans (hnotice _ _ _)
  · exact (hmore _ _).trans (hnotice _ _ _)

/-! ### The ends of store writes -/

@[simp] theorem State.trialLapse_still (k : Fin 8) (version : Nat) (s : State) : (s.trialLapse k version).still = s.still :=
  State.send_still _ _ _

@[simp] theorem State.takeBoot_still (k : Fin 8) (r : KindRecord) (s : State) : (s.takeBoot k r).still = s.still := by
  unfold State.takeBoot
  split
  · exact (State.trialLapse_still _ _ _).trans (State.setKind_still _ _ _)
  · exact State.setKind_still _ _ _

/-! ### Start-up's step through a send -/

@[simp] theorem State.ask_startUp (a : Attention) (s : State) : (s.ask a).startUp = s.startUp := by
  rw [State.ask_eq]

@[simp] theorem State.askStoreFault_startUp (s : State) : s.askStoreFault.startUp = s.startUp := by
  unfold State.askStoreFault
  split <;> simp

@[simp] theorem State.restartIdle_startUp (s : State) : s.restartIdle.startUp = s.startUp := by
  unfold State.restartIdle
  split <;> rfl

@[simp] theorem State.freeBuffer_startUp (c : Card) (s : State) : (s.freeBuffer c).startUp = s.startUp := by
  unfold State.freeBuffer
  dsimp only
  split
  · exact State.restartIdle_startUp _
  · rfl

@[simp] theorem State.handBack_startUp (c : Card) (o : CardOutcome) (d : Option Word32) (b : List OutByte) (s : State) :
    (s.handBack c o d b).startUp = s.startUp := by
  unfold State.handBack
  split
  · dsimp only
    split <;> simp
  · cases d <;> rfl

@[simp] theorem State.enqueue_startUp (w : Write) (t : WriteTo) (s : State) : (s.enqueue w t).startUp = s.startUp := by
  have hcommit : (s.commitCard t).startUp = s.startUp := by cases t <;> rfl
  unfold State.enqueue
  dsimp only
  split <;> exact hcommit

@[simp] theorem State.serveUpdateWipe_startUp (s : State) : s.serveUpdateWipe.startUp = s.startUp := by
  have hkinds (l : List (Fin 8)) (t : State) :
      (l.foldl (fun s k => s.setKind k (s.kindRecord k).withoutTrial) t).startUp = t.startUp := by
    induction l generalizing t with
    | nil => rfl
    | cons k l ih => exact ih _
  unfold State.serveUpdateWipe
  dsimp only
  split
  · refine (hkinds _ _).trans ?_
    repeat' split
    all_goals rfl
  · refine (State.push_startUp _ _ _).trans ((hkinds _ _).trans ?_)
    repeat' split
    all_goals rfl

@[simp] theorem State.perform_startUp (a : After) (s : State) : (s.perform a).startUp = s.startUp := by
  have hrelease (o : CardOutcome) (d : Option Word32) (b : List OutByte) : (s.updateRelease o d b).startUp = s.startUp := by
    unfold State.updateRelease
    split
    · exact State.handBack_startUp _ _ _ _ _
    · rfl
  have hsent : s.updateWipeSent.startUp = s.startUp := by
    unfold State.updateWipeSent
    repeat' split
    all_goals rfl
  have hcred (o : CardOutcome) (d : Option Word32) (b : List OutByte) (t : State) : (t.credHandBack o d b).startUp = t.startUp := by
    unfold State.credHandBack
    split
    · exact State.handBack_startUp _ _ _ _ _
    · rfl
  have hclaim (t : State) : t.claimAnswered.startUp = t.startUp := by
    unfold State.claimAnswered
    repeat' split
    · exact (hcred _ _ _ _).trans rfl
    all_goals rfl
  cases a with
  | updateSettle o d b =>
    unfold State.perform
    dsimp only
    split
    · exact (State.serveUpdateWipe_startUp _).trans (hrelease o d b)
    · exact hrelease o d b
  | trialLapsed => exact State.ask_startUp _ s
  | updateWipeSent => exact hsent
  | claimDone =>
    refine (hclaim _).trans ?_
    unfold State.openPresence
    split <;> rfl
  | releaseDone => exact State.ask_startUp _ s
  | censusAttention => exact State.ask_startUp _ s

@[simp] theorem State.sendAll_startUp (c : Client) (n : Nat) (s : State) : (State.sendAll c n s).startUp = s.startUp := by
  induction n generalizing s with
  | zero => rfl
  | succ n ih =>
    unfold State.sendAll
    repeat' split
    all_goals simp [ih]

@[simp] theorem State.send_startUp (c : Client) (l : List Out) (s : State) : (s.send c l).startUp = s.startUp := by
  unfold State.send State.sendLane
  dsimp only
  repeat' split
  all_goals simp

@[simp] theorem State.takeBoot_startUp (k : Fin 8) (r : KindRecord) (s : State) : (s.takeBoot k r).startUp = s.startUp := by
  unfold State.takeBoot State.trialLapse
  split <;> simp

@[simp] theorem State.credWriteOver_startUp (w : Write) (s : State) : (s.credWriteOver w).startUp = s.startUp := by
  unfold State.credWriteOver
  split <;> simp

/-! ### Start-up -/

/-- The ledger of chains that are zero and a record list that is empty (R45, R167). -/
def Ledger.empty : Ledger := { chains := Vector.replicate 12 0#256, records := [], missed := 0, truncated := false }

/-- The fifth step of start-up zeroes the chains and empties the record list (R45). -/
theorem State.startStep5_ledger (s : State) : s.startStep5.measure.ledger = Ledger.empty := by
  rw [State.startStep5_eq]
  rfl

/-- The fourth step of start-up goes on to the fifth, or sends its writes. -/
theorem State.beginStep4_ledger (s : State) :
    s.beginStep4.measure.ledger = s.measure.ledger ∨ s.beginStep4.measure.ledger = Ledger.empty := by
  unfold State.beginStep4
  dsimp only
  split
  · exact .inr (State.startStep5_ledger _)
  · exact .inl (ledger_of_still ((State.send_still _ _ _).trans ((State.atStep_still _ _).trans (State.startStep4_still s))))

theorem State.beginStartUp_ledger (s : State) :
    s.beginStartUp.measure.ledger = s.measure.ledger ∨ s.beginStartUp.measure.ledger = Ledger.empty := by
  have hplaced : s.recordsPlaced.measure.ledger = s.measure.ledger := congrArg Measure.ledger s.recordsPlaced_frame.2.1
  rw [State.beginStartUp_placed]
  split
  · obtain h | h := s.recordsPlaced.beginStep4_ledger
    · exact .inl (h.trans hplaced)
    · exact .inr h
  · exact .inl ((ledger_of_still ((State.send_still _ _ _).trans (State.atStep_still _ _))).trans hplaced)

/-- Start-up is at its third or fourth step (R164). -/
def State.loads (s : State) : Prop := ∃ n, s.startUp = .step3 n ∨ s.startUp = .step4 n

/-- The part when a write of the fourth step has been answered: a decrement or a lapse that is DONE is in the table (R83). -/
def State.bootWritten (w : Write) (ok : Bool) (s : State) : State :=
  match w with
  | .kind k r => if ok then s.takeBoot k r else s
  | _ => s

@[simp] theorem State.bootWritten_still (w : Write) (ok : Bool) (s : State) : (s.bootWritten w ok).still = s.still := by
  unfold State.bootWritten
  repeat' split
  all_goals simp

@[simp] theorem State.bootWritten_startUp (w : Write) (ok : Bool) (s : State) : (s.bootWritten w ok).startUp = s.startUp := by
  unfold State.bootWritten
  repeat' split
  all_goals simp

/-- The end of a write of the fourth step: the last one goes on to the fifth. -/
theorem State.startKindEnd_step4 {s : State} {n : Nat} (w : Write) (ok : Bool) (h : s.startUp = .step4 n) :
    s.startKindEnd w ok =
      if n ≤ 1 then (s.bootWritten w ok).startStep5 else (s.bootWritten w ok).atStep (.step4 (n - 1)) := by
  have hu := (State.bootWritten_startUp w ok s).trans h
  cases w with
  | kind k r =>
    unfold State.startKindEnd
    dsimp only
    split
    · next m hm => cases hm.symm.trans hu; rfl
    all_goals exact absurd (hu.symm.trans ‹_›) (by simp)
  | _ =>
    unfold State.startKindEnd
    simp only [h]
    rfl

theorem State.startKindEnd_other {s : State} (w : Write) (ok : Bool) (h : ∀ n, s.startUp ≠ .step4 n) :
    s.startKindEnd w ok = s.bootWritten w ok := by
  have hu (n : Nat) : (s.bootWritten w ok).startUp ≠ .step4 n := by simpa using h n
  unfold State.startKindEnd
  dsimp only
  split
  · next n hn => exact absurd hn (hu n)
  all_goals rfl

/-- The end of a store write leaves the ledger, or ends the last of start-up's loads. -/
theorem State.answerWrite_ledger (r : WriteRequest) (ok : Bool) (s : State) :
    (s.answerWrite r ok).measure.ledger = s.measure.ledger ∨ s.loads ∧ (s.answerWrite r ok).measure.ledger = Ledger.empty := by
  obtain ⟨w, a⟩ := r
  cases a with
  | credStartUp =>
    show s.startRemovalEnd.measure.ledger = _ ∨ s.loads ∧ s.startRemovalEnd.measure.ledger = _
    unfold State.startRemovalEnd
    split
    · next n hn =>
      split
      · exact s.beginStep4_ledger.imp id fun h => ⟨⟨n, .inl hn⟩, h⟩
      · exact .inl rfl
    all_goals exact .inl rfl
  | updateStartUp =>
    show (s.startKindEnd w ok).measure.ledger = _ ∨ s.loads ∧ (s.startKindEnd w ok).measure.ledger = _
    by_cases hstep : ∃ n, s.startUp = .step4 n
    · obtain ⟨n, hn⟩ := hstep
      rw [State.startKindEnd_step4 w ok hn]
      split
      · exact .inr ⟨⟨n, .inr hn⟩, State.startStep5_ledger _⟩
      · exact .inl (ledger_of_still (by simp))
    · rw [State.startKindEnd_other w ok fun n hn => hstep ⟨n, hn⟩]
      exact .inl (ledger_of_still (by simp))
  | nobody => exact .inl rfl
  | lifeClosing => exact .inl (ledger_of_still ((State.startUpGoesOn_still _).trans (State.closingEnd_still _ s)))
  | _ => exact .inl (ledger_of_still (by simp [State.answerWrite]))

theorem State.storeWriteEnd_ledger (first second : Bool) (s : State) :
    (s.storeWriteEnd first second).measure.ledger = s.measure.ledger
      ∨ s.loads ∧ (s.storeWriteEnd first second).measure.ledger = Ledger.empty := by
  have hleave (t : State) : t.leaveQueue.measure.ledger = t.measure.ledger :=
    (ledger_of_still ((State.resumeAttempt_still _).trans (State.pumpStore_still _ _))).trans rfl
  cases hq : s.store.queue with
  | nil =>
    have hidle : s.storeWriteEnd first second = s := by
      unfold State.storeWriteEnd
      rw [hq]
    exact .inl (congrArg (·.measure.ledger) hidle)
  | cons r rest =>
    let u := (s.programmed r.write first second).credWriteOver r.write
    have hend : s.storeWriteEnd first second = (u.answerWrite r (s.endsDone r.write first second)).leaveQueue := by
      unfold State.storeWriteEnd
      rw [hq]
      rfl
    have hprogrammed : (s.programmed r.write first second).measure.ledger = s.measure.ledger
        ∧ (s.programmed r.write first second).startUp = s.startUp := by
      unfold State.programmed
      dsimp only
      split
      · exact ⟨rfl, rfl⟩
      · exact ⟨(ledger_of_still (State.askStoreFault_still _)).trans rfl, State.askStoreFault_startUp _⟩
    have hledger : u.measure.ledger = s.measure.ledger := (ledger_of_still (State.credWriteOver_still _ _)).trans hprogrammed.1
    have hstep : u.startUp = s.startUp := (State.credWriteOver_startUp _ _).trans hprogrammed.2
    rw [hend, hleave]
    obtain h | ⟨⟨n, hn⟩, h⟩ := State.answerWrite_ledger r (s.endsDone r.write first second) u
    · exact .inl (h.trans hledger)
    · exact .inr ⟨⟨n, by rwa [hstep] at hn⟩, h⟩

/-! ### Extensions -/

/-- The ledger after an extension: the chain's value, and a record, or the count of missed records once 96 are held (R28, R30, R31). -/
def Ledger.extended (l : Ledger) (i : Fin 12) (event : Word16) (digest value : Digest) : Ledger :=
  let chains := tableSet l.chains i value
  if l.records.length < 96 then
    { l with
      chains := chains
      records := l.records ++ [{ seq := l.records.length + 1, chain := i, event := event, digest := digest }] }
  else { l with chains := chains, missed := min 65535 (l.missed + 1), truncated := true }

theorem State.applyExtension_ledger (i : Fin 12) (event : Word16) (digest value : Digest) (s : State) :
    (s.applyExtension i event digest value).measure.ledger = s.measure.ledger.extended i event digest value := by
  unfold Ledger.extended
  dsimp only
  by_cases h : s.measure.records.length < 96
  · rw [State.applyExtension_lists i event digest value h]
    exact (if_pos h).symm
  · refine Eq.trans ?_ (if_neg h).symm
    cases ht : s.measure.truncated with
    | true =>
      rw [State.applyExtension_misses i event digest value h ht]
      simp [Measure.ledger, ht]
    | false =>
      rw [State.applyExtension_truncates i event digest value h ht]
      rfl

/-- The end of a hash job of the measure unit applies an extension, or leaves the ledger. -/
theorem State.measureHashEnd_ledger (result : Digest) (s : State) :
    (s.measureHashEnd result).measure.ledger = s.measure.ledger
      ∨ ∃ i event digest, (s.measureHashEnd result).measure.ledger = s.measure.ledger.extended i event digest result := by
  have hservice (x : MeasureService) : (s.serviceHashEnd x result).measure.ledger = s.measure.ledger
      ∨ ∃ i event digest, (s.serviceHashEnd x result).measure.ledger = s.measure.ledger.extended i event digest result := by
    cases x with
    | eventExtend e digest =>
      exact .inr ⟨11, e.code, digest, (ledger_of_still ((State.resumeMeasure_still _).trans (State.endService_still _))).trans
        (State.applyExtension_ledger _ _ _ _ s)⟩
    | eventDigest e => exact .inl rfl
    | composite asker expected => exact .inl (ledger_of_still (State.answerCheck_still _ _ s))
    | candidates asker value left hit =>
      cases left with
      | nil => exact .inl (ledger_of_still (State.answerCheck_still _ _ s))
      | cons d rest => exact .inl rfl
  have hcard (w : Work MeasureStage) : (s.cardHashEnd w result).measure.ledger = s.measure.ledger
      ∨ ∃ i event digest, (s.cardHashEnd w result).measure.ledger = s.measure.ledger.extended i event digest result := by
    unfold State.cardHashEnd
    split
    · next c event digest _ =>
      exact .inr ⟨chainOf c, event, digest, (ledger_of_still (State.measureHandBack_still _ _ _ _)).trans
        (State.applyExtension_ledger _ _ _ _ s)⟩
    · refine .inl (ledger_of_still ?_)
      split <;> simp
    · exact .inl (ledger_of_still ((State.pauseOr_still _ _ _ (State.hashSubmit_still _ _)).trans (State.measureStage_still _ s)))
    all_goals exact .inl (ledger_of_still (by simp))
  unfold State.measureHashEnd
  split
  · exact hservice _
  · split
    · exact hcard _
    · exact .inl rfl

/-- The measure unit's piece is in progress. -/
def State.hashesMeasure (s : State) : Prop := ∃ run, s.hash.running = some run ∧ run.client = .measure

/-- The end of a piece of the measure unit's job applies an extension, or leaves the ledger. -/
theorem State.pieceEnded_ledger {run : HashRun} (hc : run.client = .measure) (ok : Bool) (s : State) :
    (s.pieceEnded run ok).measure.ledger = s.measure.ledger
      ∨ ∃ i event digest value, (s.pieceEnded run ok).measure.ledger = s.measure.ledger.extended i event digest value := by
  obtain ⟨client, job, withdrawn⟩ := run
  obtain rfl : client = .measure := hc
  unfold State.pieceEnded
  dsimp only
  split
  · exact .inl (ledger_of_still (State.measureHashWithdrawn_still s))
  · split
    · exact .inl rfl
    · split
      · show (State.jobEnded .measure _ s).measure.ledger = _
          ∨ ∃ i event digest value, (State.jobEnded .measure _ s).measure.ledger = _
        unfold State.jobEnded
        split
        · exact (s.measureHashEnd_ledger _).imp id fun ⟨i, event, digest, h⟩ => ⟨i, event, digest, _, h⟩
        · exact .inl rfl
      · exact .inl ((ledger_of_still (State.measureHashPiece_still _ _)).trans rfl)

theorem State.hashPieceEnd_ledger (h : HostWrites) (answered : Bool) (s : State) :
    (s.hashPieceEnd h answered).measure.ledger = s.measure.ledger ∨ s.hashesMeasure
      ∧ ∃ i event digest value, (s.hashPieceEnd h answered).measure.ledger = s.measure.ledger.extended i event digest value := by
  unfold State.hashPieceEnd
  split
  · exact .inl rfl
  · next run hr =>
    by_cases hc : run.client = .measure
    · exact (State.pieceEnded_ledger hc _ (s.atPieceEnd h run.client)).imp id fun hx => ⟨⟨run, hr, hc⟩, hx⟩
    · exact .inl ((ledger_of_still (State.pieceEnded_still hc _ (s.atPieceEnd h run.client))).trans rfl)

/-! ### What a row does to the ledger -/

/-- The rows at which chains and records return to zero: reset, the loss and the return of supply, and start-up's fifth step, which the
row of start-up or the end of a write of its third or fourth step can come to (R45, R164, R167). -/
def emptiesLedger (c : Instr) (s : State) : Prop :=
  match c with
  | .startUp => True
  | .powerUp => True
  | .powerLoss _ => True
  | .platformReset _ => True
  | .storeWriteEnd _ _ => s.loads
  | _ => False

/-- The row at which an extension is applied: the end of a hash piece of the measure unit (R28, R35). -/
def extendsLedger (c : Instr) (s : State) : Prop :=
  match c with
  | .hashPieceEnd _ _ => s.hashesMeasure
  | _ => False

theorem ledger_of_exec {c : Instr} {s t u : State} (h : exec c s = .next t) (e : exec c s = .next u)
    (hu : u.measure.ledger = s.measure.ledger) : t.measure.ledger = s.measure.ledger := by
  cases h.symm.trans e
  exact hu

theorem State.powerUp_ledger (s : State) : s.powerUp.measure.ledger = s.measure.ledger ∨ s.powerUp.measure.ledger = Ledger.empty := by
  unfold State.powerUp
  split
  · exact .inl rfl
  · exact .inr rfl

theorem State.resetLineSet_ledger (b : Bool) (s : State) :
    (s.resetLineSet b).measure.ledger = s.measure.ledger ∨ (s.resetLineSet b).measure.ledger = Ledger.empty := by
  unfold State.resetLineSet
  repeat' split
  · exact .inl rfl
  · exact .inr rfl
  · exact .inl rfl

/-- All that a row can do to chains and records: leave them, return them to zero, or apply one extension (R28, R30, R45, R167). -/
theorem exec_ledger {c : Instr} {s t : State} (h : exec c s = .next t) : t.measure.ledger = s.measure.ledger
    ∨ emptiesLedger c s ∧ t.measure.ledger = Ledger.empty
    ∨ extendsLedger c s ∧ ∃ i event digest value, t.measure.ledger = s.measure.ledger.extended i event digest value := by
  cases c with
  | startUp =>
    cases h
    split
    · exact s.beginStartUp_ledger.imp id fun hx => .inl ⟨trivial, hx⟩
    · exact .inl rfl
  | powerUp =>
    cases h
    exact s.powerUp_ledger.imp id fun hx => .inl ⟨trivial, hx⟩
  | powerLoss cut =>
    cases h
    unfold State.whenPowered
    split
    · exact .inr (.inl ⟨trivial, rfl⟩)
    · exact .inl rfl
  | platformReset b =>
    cases h
    unfold State.whenPowered
    split
    · exact (s.resetLineSet_ledger b).imp id fun hx => .inl ⟨trivial, hx⟩
    · exact .inl rfl
  | storeWriteEnd first second =>
    cases h
    unfold State.whenPowered
    split
    · exact (s.storeWriteEnd_ledger first second).imp id .inl
    · exact .inl rfl
  | hashPieceEnd stores answered =>
    cases h
    unfold State.whenPowered
    split
    · have hgoes := ledger_of_still (s.hashPieceEnd stores answered).startUpGoesOn_still
      exact (s.hashPieceEnd_ledger stores answered).imp hgoes.trans fun ⟨hm, i, event, digest, value, hx⟩ =>
        .inr ⟨hm, i, event, digest, value, hgoes.trans hx⟩
    · exact .inl rfl
  | areaOpen _ _ _ | areaClose _ | areaAbandon _ | interruptEnableWrite _ | nudge _ | settleAck _ | registerWrite _ _ | readingPass _
  | cardTake _ | settle | areaFaulted _ _ | linkLoss | linkReturn | paceTick _ | decayStep | storedDebtRefresh | periodTimerExpiry
  | censusRunEnd _ _ _ _ _ | curveOperationComplete | extentDmaEnd _ _ _ | closeChain | quote =>
    exact .inl (ledger_of_exec h rfl (by simp))
  | attentionClear v => exact .inl (ledger_of_exec h rfl (State.whenReachable_ledger _ _ fun _ => rfl))
  | factoryRoot =>
    exact .inl (ledger_of_exec h rfl (ledger_of_still
      (State.beginLife_still _ _ _ s fun c t => State.factory_still _ _ c t State.factoryRoot_still)))
  | factoryPairing =>
    exact .inl (ledger_of_exec h rfl (ledger_of_still
      (State.beginLife_still _ _ _ s fun c t => State.factory_still _ _ c t State.factoryPairing_still)))
  | _ => exact .inl (ledger_of_exec h rfl (ledger_of_still (by simp)))

end Sys2Proof.Machine
end

