-- ==== Sys2Proof/Proofs/RecordList.lean ====
section
/-! SUPPORT. The part fresh from the factory, and the record list over every step (R30, R31, R167). -/
namespace Sys2Proof.Machine

/-! ### After reset -/

/-- The locations of a record that has never been written hold no copy for start-up to take from the alternate one (R159). -/
theorem Cells.settled_fresh {α : Type} (record : Nat) : (Cells.fresh record : Cells α).settled = Cells.fresh record := rfl

/-- Settles O4: nothing has been taken, recorded or begun, and every record of the store is absent. -/
theorem resetMeetsTheInvariants : Obligations.ResetMeetsTheInvariants := by
  have hfresh {n : Nat} {α : Type} (first : Nat) (i : Fin n) :
      (tableGet (Vector.ofFn fun j : Fin n => (Cells.fresh (first + j.val) : Cells α)) i).settled
        = tableGet (Vector.ofFn fun j : Fin n => (Cells.fresh (first + j.val) : Cells α)) i := by
    rw [tableGet_ofFn, Cells.settled_fresh]
  refine ⟨rfl, ⟨by decide, rfl, fun _ => rfl, by decide⟩, ⟨by decide, by decide, by decide, by decide⟩, rfl, rfl, rfl, rfl, ?_⟩
  exact ⟨hfresh 2, hfresh 34, hfresh 37, hfresh 69⟩

/-! ### The record list -/

/-- The record list is numbered from 1 without a gap, within 96 records, and nothing is missed before it is full (R30, R31). -/
def Ledger.recordsOk (l : Ledger) : Prop :=
  l.records.length ≤ recordCapacity ∧ l.records.map (·.seq) = List.range' 1 l.records.length
    ∧ (l.records.length < recordCapacity → l.missed = 0) ∧ (l.truncated = true ↔ 0 < l.missed)

theorem State.recordsOk_iff_ledger (s : State) : s.recordsOk ↔ s.measure.ledger.recordsOk := Iff.rfl

theorem Ledger.recordsOk_empty : Ledger.empty.recordsOk := ⟨by decide, rfl, fun _ => rfl, by decide⟩

/-- An extension with room takes the next number; one without room counts as missed, and is flagged. -/
theorem Ledger.recordsOk_extended {l : Ledger} (h : l.recordsOk) (i : Fin 12) (event : Word16) (digest value : Digest) :
    (l.extended i event digest value).recordsOk := by
  obtain ⟨hlength, hseq, hmissed, hflag⟩ := h
  unfold Ledger.extended
  dsimp only
  split
  · next hroom =>
    refine ⟨?_, ?_, fun _ => hmissed hroom, hflag⟩
    · simpa [recordCapacity] using hroom
    · simp [hseq, List.range'_concat, Nat.add_comm]
  · next hfull =>
    refine ⟨hlength, hseq, fun hroom => absurd hroom hfull, ?_⟩
    show true = true ↔ 0 < min 65535 (l.missed + 1)
    simp

/-- Settles O6: a step leaves the ledger, empties it, or extends it once. -/
theorem stepsKeepTheRecordList : Obligations.StepsKeepTheRecordList := by
  intro s t hok hstep
  rw [State.recordsOk_iff_ledger] at hok ⊢
  have hrow : ∀ (c : Instr) (u : State), u.measure = s.measure → exec c u = .next t → t.measure.ledger.recordsOk := by
    intro c u hu h
    obtain hx | ⟨-, hx⟩ | ⟨-, i, event, digest, value, hx⟩ := exec_ledger h <;> rw [hx]
    · rwa [hu]
    · exact Ledger.recordsOk_empty
    · rw [hu]
      exact Ledger.recordsOk_extended hok i event digest value
  unfold step at hstep
  split at hstep
  · cases hstep
    exact hok
  · next c rest _ => exact hrow c { s with pending := rest } rfl hstep

/-- Settles O10: the rows it leaves out are those that empty the ledger or extend it. -/
theorem chainsChangeOnlyByExtension : Obligations.ChainsChangeOnlyByExtension := by
  intro c s t hpiece hwrite hstart hup hloss hreset h
  have hempties : ¬emptiesLedger c s := by
    cases c with
    | startUp => exact absurd rfl hstart
    | powerUp => exact absurd rfl hup
    | powerLoss cut => exact absurd rfl (hloss cut)
    | platformReset b => exact absurd rfl (hreset b)
    | storeWriteEnd first second =>
      rintro ⟨n, hn | hn⟩
      · exact (hwrite first second rfl n).1 hn
      · exact (hwrite first second rfl n).2 hn
    | _ => exact id
  have hextends : ¬extendsLedger c s := by
    cases c with
    | hashPieceEnd stores answered =>
      rintro ⟨run, hrun, hclient⟩
      exact hpiece stores answered rfl run hrun hclient
    | _ => exact id
  obtain hx | ⟨he, -⟩ | ⟨he, -⟩ := exec_ledger h
  · exact ⟨fun i => congrArg (fun l : Ledger => tableGet l.chains i) hx, congrArg Ledger.records hx⟩
  · exact absurd he hempties
  · exact absurd he hextends

end Sys2Proof.Machine
end

