-- ==== Sys2Proof/Proofs/MeasureCards.lean ====
section
/-! SUPPORT. The measure unit's cards: EXTEND and CLOSE CHAIN, the beginnings of READ CHAINS, READ RECORDS and QUOTE, the ends of their
jobs' pieces, and the layouts of what they read (R26 to R29, R32, R33, R40, R52 to R57, R59, R142, R143, R195). -/
namespace Sys2Proof.Machine

/-! ### A card begun (R37) -/

/-- The part with a card of the measure unit begun, before the first of its checks (R178). -/
def State.measureBegun (s : State) (c : Card) : State :=
  { s.begins c with measure := { s.measure with work := working c (.writeOut [] none []) false, paused := none } }

theorem State.beginMeasure_eq {s : State} {code : Word16} {c : Card} (body : Card → State → State) (h : s.measureReady code = some c) :
    s.beginMeasure code body = body c (s.measureBegun c) := by
  unfold State.beginMeasure
  rw [h]
  rfl

/-- A card begun and handed back in one step. -/
theorem State.measureBegun_givesBack {s : State} (c : Card) (o : CardOutcome) (d : Option Word32) (b : List OutByte) (h : s.carries) :
    (s.measureBegun c).measureHandBack o d b = { (s.begins c).givesBack c o d b with
      measure := { s.measure with work := none, paused := none } } :=
  State.measureHandBack_eq (s := s.measureBegun c) o d b rfl h

/-- A card begun has gone on to a stage. -/
theorem State.measureBegun_stage (s : State) (c : Card) (stage : MeasureStage) : (s.measureBegun c).measureStage stage =
    { s.begins c with measure := { s.measure with work := working c stage false, paused := none } } := rfl

/-! ### EXTEND and CLOSE CHAIN (R26 to R29) -/

theorem hostChain_of_lt {n : Nat} (i : Fin 11) (h : n = i.val) : hostChain n = some i := by
  subst h
  exact dif_pos i.isLt

theorem hostChain_reserved {n : Nat} (h : n = 11) : hostChain n = none := by
  subst h
  rfl

theorem State.extend_open {s : State} {c : Card} {i : Fin 11} (hf : extendForm c = none) (hi : c.field 0 1 = i.val)
    (ho : s.measure.closed.getLsbD i.val = false) : s.extend c =
      (s.measureStage (.extendHash i (BitVec.ofNat 16 (c.field 1 2)) (c.fieldStr 3 256))).hashSubmit .measure
        (s.extendJob (chainOf i) (c.fieldStr 3 256)) := by
  unfold State.extend State.isClosed
  rw [hf, hostChain_of_lt i hi]
  exact if_neg (ne_true_of_eq_false ho)

theorem State.extend_closed {s : State} {c : Card} {i : Fin 11} (hf : extendForm c = none) (hi : c.field 0 1 = i.val)
    (hc : s.measure.closed.getLsbD i.val = true) : s.extend c = s.measureRefuse .chainClosed := by
  unfold State.extend State.isClosed
  rw [hf, hostChain_of_lt i hi]
  exact if_pos hc

theorem State.extend_reserved {s : State} {c : Card} (hf : extendForm c = none) (hi : c.field 0 1 = 11) :
    s.extend c = s.measureRefuse .reservedChain := by
  unfold State.extend
  rw [hf, hostChain_reserved hi]

theorem State.closeChain_host {s : State} {c : Card} {i : Fin 11} (hf : closeChainForm c = none) (hi : c.field 0 1 = i.val) :
    s.closeChain c = ({ s with measure := { s.measure with closed := closedWith s.measure.closed i } }).measureHandBack .done
      (some ((closedWith s.measure.closed i).setWidth 32)) [] := by
  unfold State.closeChain
  rw [hf, hostChain_of_lt i hi]

theorem State.closeChain_reserved {s : State} {c : Card} (hf : closeChainForm c = none) (hi : c.field 0 1 = 11) :
    s.closeChain c = s.measureRefuse .reservedChain := by
  unfold State.closeChain
  rw [hf, hostChain_reserved hi]

/-- The closed set with one more chain: its bit is set, and the others stand (R29). -/
theorem closedWith_getLsbD (closed : BitVec 11) (i : Fin 11) {j : Nat} (hj : j < 11) :
    (closedWith closed i).getLsbD j = (closed.getLsbD j || decide (j = i.val)) := by
  simp only [closedWith, BitVec.getLsbD_or, BitVec.getLsbD_ofNat, hj, decide_true, Bool.true_and, Nat.testBit_two_pow, eq_comm]

/-- Settles O28, from what each card does with a host chain and with chain 11. -/
theorem chainsAreExtendedAndClosed : Obligations.ChainsAreExtendedAndClosed := by
  refine ⟨?extend, ?reserved, ?close⟩
  case extend =>
    intro s c i h hf hi
    have hexec : exec .extend s = .next ((s.measureBegun c).extend c) := congrArg Host.Outcome.next (State.beginMeasure_eq _ h)
    refine ⟨fun ho => ?_, fun hc hcarry => ?_⟩
    · rw [hexec, State.extend_open (s := s.measureBegun c) hf hi ho, State.measureBegun_stage]
      rfl
    · rw [hexec, State.extend_closed (s := s.measureBegun c) hf hi hc]
      exact congrArg Host.Outcome.next (State.measureBegun_givesBack c .chainClosed none [] hcarry)
  case reserved =>
    rintro i code form s c (⟨rfl, rfl, rfl⟩ | ⟨rfl, rfl, rfl⟩) h hf hi hcarry
    all_goals refine congrArg Host.Outcome.next ((State.beginMeasure_eq _ h).trans
      (Eq.trans ?_ (State.measureBegun_givesBack c .reservedChain none [] hcarry)))
    · exact State.extend_reserved hf hi
    · exact State.closeChain_reserved hf hi
  case close =>
    intro s c i h hf hi hcarry
    refine ⟨closedWith s.measure.closed i, ?_, fun j hj => closedWith_getLsbD _ i hj⟩
    refine congrArg Host.Outcome.next ((State.beginMeasure_eq _ h).trans ((State.closeChain_host hf hi).trans ?_))
    exact State.measureHandBack_eq (s := { s.measureBegun c with
      measure := { (s.measureBegun c).measure with closed := closedWith s.measure.closed i } }) .done _ [] rfl hcarry

/-! ### READ CHAINS, READ RECORDS and QUOTE begun (R32, R33, R52 to R55) -/

theorem State.recordSummary_append (s : State) (l : List OutByte) : l ++ s.recordSummary =
    l ++ outNum 1 s.measure.records.length ++ outNum 2 s.measure.missed ++ outNum 1 s.measure.truncated.toNat := by
  unfold State.recordSummary
  rw [← List.append_assoc, ← List.append_assoc]

theorem exec_readChains {s : State} {c : Card} (h : s.measureReady 0x0203#16 = some c) (hf : readChainsForm c = none) :
    exec .readChains s = .next { s.begins c with
      measure := { s.measure with
        work := working c (.chainsHash (s.chainValues (c.mask 0)) (outNum 2 s.measure.closed.toNat ++ s.recordSummary)) false
        paused := none }
      hash := s.hash.submit .measure (shaJob (compositeInput (c.mask 0) s.measure.chains)) } := by
  refine congrArg Host.Outcome.next ((State.beginMeasure_eq _ h).trans ?_)
  unfold State.readChains
  rw [hf]
  rfl

/-- The beginning of READ RECORDS: a reply at once when no record is selected, and otherwise the writing of the entries. -/
theorem exec_readRecords {s : State} {c : Card} (h : s.measureReady 0x0204#16 = some c) (hf : readRecordsForm c = none) :
    exec .readRecords s = .next (
      let l := s.recordsToRead c
      let count : Option Word32 := some (BitVec.ofNat 32 l.length)
      if l.isEmpty then (s.measureBegun c).measureHandBack .done count s.recordSummary
      else ((s.measureBegun c).afterFill (l.flatMap recordEntry)).measureStage
        (.writeOut (s.filled (l.flatMap recordEntry)) count s.recordSummary)) := by
  refine congrArg Host.Outcome.next ((State.beginMeasure_eq _ h).trans ?_)
  unfold State.readRecords
  rw [hf]
  rfl

/-- The length that a QUOTE needs in its extent: the body and the signature (R54, R195). -/
theorem State.quoteLength_signed (s : State) (c : Card) : s.quoteLength c + 64 =
    264 + 32 * (maskChains (c.mask 32)).length
      + 40 * (if Machine.quoteRecords c then ((s.measure.records.drop (c.field 35 1)).take (c.field 36 1)).length else 0) := by
  have hrecords : (s.quoteRecords c).length =
      if Machine.quoteRecords c then ((s.measure.records.drop (c.field 35 1)).take (c.field 36 1)).length else 0 := by
    unfold State.quoteRecords
    split <;> rfl
  unfold State.quoteLength quoteMask
  omega

theorem exec_quote {s : State} {c : Card} (h : s.measureReady 0x0205#16 = some c) :
    exec .quote s = .next ((s.measureBegun c).quote c) := congrArg Host.Outcome.next (State.beginMeasure_eq _ h)

theorem State.quote_blank {s : State} {c : Card} (hf : quoteForm c = none) (hb : s.lifecycle.effective = .blank) :
    s.quote c = s.measureRefuse .wrongLifecycle := by
  unfold State.quote
  rw [hf]
  exact if_pos hb

theorem State.quote_short {s : State} {c : Card} (hf : quoteForm c = none) (hb : s.lifecycle.effective ≠ .blank)
    (hl : c.extentLength 0 < s.quoteLength c + 64) : s.quote c = s.measureBad (s.quoteLength c + 64) := by
  unfold State.quote
  rw [hf]
  exact (if_neg hb).trans (if_pos hl)

/-- QUOTE takes its snapshot and the next quote sequence, and begins with the fingerprint of the identity key (R52, R54, R55). -/
theorem State.measureBegun_quote {s : State} {c : Card} (hf : quoteForm c = none) (hb : s.lifecycle.effective ≠ .blank)
    (hl : s.quoteLength c + 64 ≤ c.extentLength 0) : (s.measureBegun c).quote c = { s.begins c with
      measure := { s.measure with
        work := working c (.fingerprint (fillOpen s.free (s.quoteRest c s.nextQuote)) s.nextQuote) false
        paused := none, quoteSeq := s.nextQuote }
      hash := s.hash.submit .measure (shaJob (strBytes s.identityKey))
      free := s.free + countOpen (s.quoteRest c s.nextQuote) } := by
  unfold State.quote
  rw [hf]
  exact (if_neg hb).trans (if_neg (by exact Nat.not_lt.mpr hl))

/-! ### The end of a piece of a card's job (R40, R57, R59, R142, R143) -/

/-- The last piece of the measure unit's job over bytes of its own. -/
theorem State.ownPiece_ends (s : State) {before input : List Byte} (ok : Bool) (h : input.length ≤ 4096) :
    s.pieceEnded { client := .measure, withdrawn := false
                   job := { fn := .sha256, absorbed := before, source := .own input, finalize := true } } ok
      = s.measureHashEnd (Config.sha256 (before ++ input)) := by
  have htake : input.take 4096 = input := List.take_of_length_le h
  have hdrop : input.drop 4096 = [] := List.drop_of_length_le h
  simp [State.pieceEnded, HashJob.afterPiece, HashJob.pieceBytes, ByteSource.afterPiece, ByteSource.isEmpty,
    ByteSource.isExtents, pieceSize, htake, hdrop, State.pieceNotice, State.jobEnded, State.hashEnded, HashJob.result]

/-- A piece that is not the last takes in 4096 bytes, and the job goes on with the rest. -/
theorem State.ownPiece_goesOn (s : State) {before input : List Byte} (ok : Bool) (h : 4096 < input.length) :
    s.pieceEnded { client := .measure, withdrawn := false
                   job := { fn := .sha256, absorbed := before, source := .own input, finalize := true } } ok
      = s.pieceGoesOn .measure
          { fn := .sha256, absorbed := before ++ input.take 4096, source := .own (input.drop 4096), finalize := true } := by
  have hdrop : (input.drop 4096).isEmpty = false := by simpa using h
  simp [State.pieceEnded, HashJob.afterPiece, HashJob.pieceBytes, ByteSource.afterPiece, ByteSource.isEmpty,
    ByteSource.isExtents, pieceSize, hdrop, State.pieceNotice]

/-- With no entry in service, the result is the card's. -/
theorem State.measureHashEnd_card {s : State} {w : Work MeasureStage} (d : Digest) (h : s.measure.service = none)
    (hw : s.measure.work = some w) : s.measureHashEnd d = s.cardHashEnd w d := by
  unfold State.measureHashEnd
  rw [h]
  dsimp only
  rw [hw]

theorem State.measureStage_eq {s : State} {w : Work MeasureStage} (x : MeasureStage) (hw : s.measure.work = some w) :
    s.measureStage x = { s with measure := { s.measure with work := some { w with stage := x } } } := by
  unfold State.measureStage
  rw [hw]
  rfl

theorem State.pauseOr_goesOn {s : State} (r : MeasureResume) (goOn : State → State) (h : s.measure.internal = []) :
    s.pauseOr r goOn = goOn s := if_pos (by rw [h]; rfl)

theorem State.pauseOr_pauses {s : State} (r : MeasureResume) (goOn : State → State) (h : s.measure.internal ≠ []) :
    s.pauseOr r goOn = { s with measure := { s.measure with paused := some r } } := if_neg (by simpa using h)

/-! ### The layouts (R55, R56, R188, R195) -/

theorem replyNum_eq (n v : Nat) : replyNum n v = outBytes (leBytes n v) := by
  simp [replyNum, outBytes, leBytes, Nat.shiftRight_eq_div_pow, Nat.pow_mul]

theorem outBytes_strBytes {w : Nat} (v : BitVec w) : outBytes (strBytes v) = replyNum (w / 8) v.toNat := (replyNum_eq _ _).symm

theorem outBytes_flatMap {α : Type} (l : List α) (f : α → List Byte) : outBytes (l.flatMap f) = l.flatMap fun x => outBytes (f x) :=
  List.map_flatMap

theorem flatMap_filter {α β : Type} (l : List α) (p : α → Bool) (f : α → List β) :
    (l.filter p).flatMap f = l.flatMap fun x => if p x then f x else [] := by
  induction l with
  | nil => rfl
  | cons x t ih => cases hp : p x <;> simp [hp, ih]

/-- The values of the chains that a mask selects, in ascending order. -/
theorem outBytes_maskChains (mask : BitVec 12) (chains : Vector Digest 12) :
    outBytes ((maskChains mask).flatMap fun i => strBytes (tableGet chains i)) =
      (List.finRange 12).flatMap fun i => if mask.getLsbD i.val then replyNum 32 (tableGet chains i).toNat else [] := by
  unfold maskChains
  rw [outBytes_flatMap, flatMap_filter]
  simp only [outBytes_strBytes]

theorem recordEntry_layout (r : Record) : recordEntry r =
    replyNum 4 r.seq ++ replyNum 1 r.chain.val ++ replyOpen 1 ++ replyNum 2 r.event.toNat ++ replyNum 32 r.digest.toNat := by
  simp only [replyNum_eq]
  rfl

theorem compositeInput_layout (mask : BitVec 12) (chains : Vector Digest 12) : outBytes (compositeInput mask chains) =
    replyNum 2 mask.toNat
      ++ (List.finRange 12).flatMap fun i => if mask.getLsbD i.val then replyNum 32 (tableGet chains i).toNat else [] := by
  rw [← outBytes_maskChains, replyNum_eq, outBytes_append]
  rfl

/-- A kind's floor, then its confirmed image and its trial, or zeros where it has none (R56). -/
theorem kindElement_layout (k : KindRecord) : kindElement k = replyNum 4 k.floor
    ++ (match k.confirmed with
      | some x => replyNum 1 1 ++ replyNum 4 x.version ++ replyNum 1 x.signer.code
      | none => replyNum 6 0)
    ++ match k.trial with
      | some x => replyNum 1 1 ++ replyNum 4 x.version
      | none => replyNum 5 0 := by
  simp only [replyNum_eq]
  obtain ⟨floor, _ | x, _ | y⟩ := k
  all_goals rfl

/-- The quote's body behind its fingerprint, field by field (R55, R56). -/
theorem State.quoteRest_layout (s : State) (c : Card) (seq : Nat) : s.quoteRest c seq =
    replyNum 1 s.lifecycle.effective.code ++ replyNum 1 s.lifecycle.pending.toNat ++ replyNum 1 s.census.state.code ++ replyNum 4 seq
      ++ replyNum 2 (c.mask 32).toNat
      ++ ((List.finRange 12).flatMap fun i => if (c.mask 32).getLsbD i.val then replyNum 32 (s.chain i).toNat else [])
      ++ replyNum 1 s.measure.records.length ++ replyNum 2 s.measure.missed ++ replyNum 1 s.measure.truncated.toNat
      ++ replyNum 1 (if Machine.quoteRecords c then c.field 35 1 else 0) ++ replyNum 1 (s.quoteRecords c).length
      ++ (s.quoteRecords c).flatMap recordEntry
      ++ ((List.finRange 8).flatMap fun k => kindElement (s.kindRecord k)) ++ (List.range 32).map fun i => some (c.byte (16 + i)) := by
  have hnonce : outBytes (c.fieldBytes 0 32) = (List.range 32).map fun i => some (c.byte (16 + i)) := List.map_map
  have hvalues : outBytes (s.chainValues (quoteMask c)) = _ := outBytes_maskChains (c.mask 32) s.measure.chains
  unfold State.quoteRest
  rw [State.recordSummary_append, hvalues, hnonce]
  simp only [replyNum_eq]
  rfl

/-- Settles O29, from the beginnings of the three cards, the ends of their jobs' pieces, and the layouts. -/
theorem measurementsAreRead : Obligations.MeasurementsAreRead := by
  refine ⟨?chains, ?records, ?quote, ?ends, ?more, recordEntry_layout, compositeInput_layout, ?kinds, ?body⟩
  case chains =>
    intro s c h hf
    rw [exec_readChains h hf, State.recordSummary_append]
    rfl
  case records =>
    intro s c h hf l count summary
    rw [exec_readRecords h hf]
    refine ⟨fun hl hcarry => ?_, fun hl => ?_⟩
    · refine congrArg Host.Outcome.next ((if_pos (List.isEmpty_iff.mpr hl)).trans ?_)
      exact State.measureBegun_givesBack c .done count summary hcarry
    · refine congrArg Host.Outcome.next ((if_neg (by exact mt List.isEmpty_iff.mp hl)).trans ?_)
      rfl
  case quote =>
    intro s c h hf records seq length refused
    have hlength : (s.measureBegun c).quoteLength c + 64 = length := by
      rw [State.quoteLength_signed]
      rfl
    refine ⟨fun hb hl => ?_, fun hb hcarry => ?_, fun hb hl hcarry => ?_⟩
    · rw [exec_quote h, State.measureBegun_quote hf hb (by exact hlength.trans_le hl)]
      rfl
    · rw [exec_quote h, State.quote_blank (s := s.measureBegun c) hf hb]
      exact congrArg Host.Outcome.next (State.measureBegun_givesBack c .wrongLifecycle none [] hcarry)
    · rw [exec_quote h, State.quote_short (s := s.measureBegun c) hf hb (by exact hl.trans_eq hlength.symm), hlength]
      exact congrArg Host.Outcome.next (State.measureBegun_givesBack c .badRequest _ [] hcarry)
  case ends =>
    intro s h answered c before input hp hend hl hserve hr digest u goesOn ends
    let v : State := s.atPieceEnd h .measure
    have hgo : ∀ (stage : MeasureStage) (t : State), s.measure.work = working c stage false →
        v.cardHashEnd { card := c, stage := stage, abandoned := false, committed := false } digest = t →
        t.startUp = .ended → ends { t with hash := t.hash.release } := by
      intro stage t hw ht he
      exact exec_hashPieceEnd_ended h hp hr rfl
        ((v.ownPiece_ends _ hl).trans ((State.measureHashEnd_card (s := v) digest hserve hw).trans ht)) he
    have hstage : ∀ {stage : MeasureStage} (x : MeasureStage), s.measure.work = working c stage false →
        v.measureStage x = { v with measure := { s.measure with work := working c x false } } :=
      fun x hw => State.measureStage_eq (s := v) x hw
    refine ⟨fun values tail hw => ?_, fun rest seq hw => ?_, fun body seq hw => ?_⟩
    · intro stage
      have hcard : v.cardHashEnd { card := c, stage := .chainsHash values tail, abandoned := false, committed := false } digest
          = (v.measureStage stage).pauseOr .transfer id := rfl
      rw [hstage stage hw] at hcard
      exact ⟨fun hi => hgo _ _ hw (hcard.trans (State.pauseOr_goesOn _ _ hi)) hend,
        fun hi => hgo _ _ hw (hcard.trans (State.pauseOr_pauses _ _ hi)) hend⟩
    · intro body
      have hcard : v.cardHashEnd { card := c, stage := .fingerprint rest seq, abandoned := false, committed := false } digest
          = (v.measureStage (.quoteHash body seq)).pauseOr (.job (shaJob body)) (State.hashSubmit .measure (shaJob body)) := rfl
      rw [hstage _ hw] at hcard
      exact ⟨fun hi => hgo _ _ hw (hcard.trans (State.pauseOr_goesOn _ _ hi)) hend,
        fun hi => hgo _ _ hw (hcard.trans (State.pauseOr_pauses _ _ hi)) hend⟩
    · have hcard : v.cardHashEnd { card := c, stage := .quoteHash body seq, abandoned := false, committed := false } digest
          = (v.measureStage (.quoteSign body seq)).curveSubmit .measure (.signByIdentity none digest) := rfl
      rw [hstage _ hw] at hcard
      exact hgo _ _ hw hcard hend
  case more =>
    intro s h answered c body before input seq hp hend hl hserve hw hr left u e
    let v : State := s.atPieceEnd h .measure
    have hgo : ∀ t : State, v.pieceGoesOn .measure left = t → t.startUp = .ended →
        exec (.hashPieceEnd h answered) s = .next { t with hash := t.hash.release } := by
      intro t ht he
      exact exec_hashPieceEnd_ended h hp hr rfl ((v.ownPiece_goesOn _ hl).trans ht) he
    have hpiece : ∀ t : State, t.measure = s.measure → t.measureHashPiece left = if s.measure.internal = [] then t else { t with
        hash := t.hash.setWaiting .measure none
        measure := { s.measure with paused := some (.job left) } } := by
      intro t ht
      unfold State.measureHashPiece
      rw [ht, hserve]
      cases s.measure.internal <;> rfl
    refine ⟨fun hi => ?_, fun hi => ?_⟩
    · exact hgo _ ((hpiece { v with hash := v.hash.setWaiting .measure (some left) } rfl).trans (if_pos hi)) hend
    · exact hgo _ ((hpiece { v with hash := v.hash.setWaiting .measure (some left) } rfl).trans (if_neg hi)) hend
  case kinds =>
    intro k signer
    rw [kindElement_layout]
    rfl
  case body =>
    intro s c seq flag taken life census
    have htaken : s.quoteRecords c = taken := rfl
    rw [State.quoteRest_layout, htaken]
    rfl

end Sys2Proof.Machine
end

