-- ==== Sys2Proof/Proofs/Extensions.lean ====
section
/-! SUPPORT. An extension at the end of its hash piece: the host's card and the part event, what a paused card resumes with, and the layouts
of the part events (R28, R30, R31, R34, R35, R39, R40, R195). -/
namespace Sys2Proof.Machine

/-! ### An extension applied in one act (R28, R30, R31, R35) -/

theorem strBytes_length {w : Nat} (v : BitVec w) : (strBytes v).length = w / 8 := by simp [strBytes, leBytes]

theorem extendInput_length (old digest : Digest) : (strBytes old ++ strBytes digest).length ≤ 4096 := by simp [strBytes_length]

/-- The end of a one-piece job of the measure unit, after start-up. -/
theorem exec_hashPieceEnd_sha {s t : State} {input : List Byte} (h : HostWrites) (answered : Bool) (hp : s.powered = true)
    (hl : input.length ≤ 4096) (hr : s.hash.running = some (shaRun input))
    (ht : (s.atPieceEnd h .measure).measureHashEnd (Config.sha256 input) = t) (he : t.startUp = .ended) :
    exec (.hashPieceEnd h answered) s = .next { t with hash := t.hash.release } :=
  exec_hashPieceEnd_ended h hp hr rfl (((s.atPieceEnd h .measure).shaPiece_ends _ hl).trans ht) he

/-- An extension leaves the internal request list and the blocks that wait for it. -/
theorem State.applyExtension_frame (i : Fin 12) (e : Word16) (d v : Digest) (s : State) :
    (s.applyExtension i e d v).measure.internal = s.measure.internal
      ∧ (s.applyExtension i e d v).measureWaiting = s.measureWaiting := by
  by_cases hn : s.measure.records.length < 96
  · rw [State.applyExtension_lists i e d v hn]
    exact ⟨rfl, rfl⟩
  · cases ht : s.measure.truncated with
    | true =>
      rw [State.applyExtension_misses i e d v hn ht]
      exact ⟨rfl, rfl⟩
    | false =>
      rw [State.applyExtension_truncates i e d v hn ht]
      exact ⟨rfl, rfl⟩

/-- A part event has extended chain 11: it leaves the list, and a paused card resumes (R35, R38, R39). -/
theorem State.eventExtend_eq {s : State} {e : PartEvent} {digest : Digest} {rest : List MeasureRequest} (value : Digest)
    (hi : s.measure.internal = .event e :: rest) (hm : s.measureWaiting = []) :
    s.serviceHashEnd (.eventExtend e digest) value = ((s.applyExtension 11 e.code digest value).served rest).resumeMeasure := by
  obtain ⟨hinternal, hwaiting⟩ := s.applyExtension_frame 11 e.code digest value
  exact congrArg State.resumeMeasure (State.endService_served (hinternal.trans hi) (hwaiting.trans hm))

/-- A job that arrives while a piece is in progress waits in its place (R141). -/
theorem HashEngine.submit_busy {e : HashEngine} {run : HashRun} (c : HashClient) (j : HashJob) (h : e.running = some run) :
    e.submit c j = e.setWaiting c (some j) := by
  unfold HashEngine.submit
  rw [h]

/-- With the list served, the card that was paused resumes with what it was paused with (R39, R40). -/
theorem State.resumeMeasure_job {s : State} {w : Work MeasureStage} {j : HashJob} {run : HashRun} (hi : s.measure.internal = [])
    (hs : s.measure.service = none) (hw : s.measure.work = some w) (hp : s.measure.paused = some (.job j))
    (hr : s.hash.running = some run) : s.resumeMeasure = { s with
      measure := { s.measure with paused := none }
      hash := s.hash.setWaiting .measure (some j) } := by
  rw [← HashEngine.submit_busy .measure j hr]
  unfold State.resumeMeasure
  simp only [hi, hs, hw, hp]
  rfl

theorem State.resumeMeasure_transfer {s : State} {w : Work MeasureStage} (hi : s.measure.internal = [])
    (hs : s.measure.service = none) (hw : s.measure.work = some w) (hp : s.measure.paused = some .transfer) :
    s.resumeMeasure = { s with measure := { s.measure with paused := none } } := by
  unfold State.resumeMeasure
  simp only [hi, hs, hw, hp]
  rfl

theorem State.resumeMeasure_signature {s : State} {c : Card} {body : List Byte} {seq : Nat} {sig : Signature}
    (hi : s.measure.internal = []) (hs : s.measure.service = none) (hw : s.measure.work = working c (.quoteSign body seq) false)
    (hp : s.measure.paused = some (.signature sig)) : s.resumeMeasure = { s with measure := { s.measure with
      paused := none
      work := working c (.writeOut (body ++ strBytes sig) (some (BitVec.ofNat 32 seq))
        (replyNum 64 sig.toNat ++ replyNum 2 body.length)) false } } := by
  have hbody : replyNum 64 sig.toNat ++ replyNum 2 body.length = outBytes (strBytes sig) ++ outNum 2 body.length := by
    simp only [replyNum_eq]
    rfl
  unfold State.resumeMeasure
  simp only [hi, hs, hw, hp, hbody]
  rfl

theorem PartEvent.parameters_length (e : PartEvent) : e.parameters.length ≤ 4096 := by
  cases e <;> simp [PartEvent.parameters, leBytes]

/-- The digest of a part event's parameters has come: chain 11's value with that digest goes to the engine (R35). -/
theorem exec_hashPieceEnd_eventDigest {s : State} {e : PartEvent} (h : HostWrites) (answered : Bool) (hp : s.powered = true)
    (hend : s.startUp = .ended) (hr : s.hash.running = some (shaRun e.parameters)) (hs : s.measure.service = some (.eventDigest e)) :
    exec (.hashPieceEnd h answered) s = .next { s with
      host := Memory.hostStores s.host h
      measure := { s.measure with service := some (.eventExtend e (Config.sha256 e.parameters)) }
      hash := ({ s.hash with pointer := .measure
                             measure := some (shaJob (strBytes (s.chain 11) ++ strBytes (Config.sha256 e.parameters))) }).release } := by
  let v : State := s.atPieceEnd h .measure
  let digest := Config.sha256 e.parameters
  have ht : v.measureHashEnd digest = { v with
      measure := { s.measure with service := some (.eventExtend e digest) }
      hash := v.hash.setWaiting .measure (some (s.extendJob 11 digest)) } := by
    rw [← HashEngine.submit_busy (e := v.hash) .measure _ hr]
    exact State.measureHashEnd_service (s := v) digest hs
  exact exec_hashPieceEnd_sha h answered hp e.parameters_length hr ht hend

theorem Ledger.extended_chains (l : Ledger) (i : Fin 12) (event : Word16) (digest value : Digest) :
    (l.extended i event digest value).chains = tableSet l.chains i value := by
  unfold Ledger.extended
  dsimp only
  split <;> rfl

/-- The end of an extension's piece leaves its chain with the job's digest, and every other chain as it was (R28). -/
theorem exec_hashPieceEnd_extends {s : State} {input : List Byte} {i : Fin 12} {event : Word16} {digest : Digest} (h : HostWrites)
    (answered : Bool) (hp : s.powered = true) (hl : input.length ≤ 4096) (hr : s.hash.running = some (shaRun input))
    (hx : ((s.atPieceEnd h .measure).measureHashEnd (Config.sha256 input)).measure.ledger
      = s.measure.ledger.extended i event digest (Config.sha256 input)) :
    ∃ u, exec (.hashPieceEnd h answered) s = .next u ∧ u.chain i = Config.sha256 input ∧ ∀ j, j ≠ i → u.chain j = s.chain j := by
  let v : State := s.atPieceEnd h .measure
  let ok := answered && s.linkUp && !s.readCut .measure
  let w : State := v.pieceEnded (shaRun input) ok
  let u : State := ({ w with hash := w.hash.release } : State).startUpGoesOn
  have hexec : exec (.hashPieceEnd h answered) s = .next u := exec_hashPieceEnd h answered hp hr
  have hledger : u.measure.ledger = s.measure.ledger.extended i event digest (Config.sha256 input) :=
    calc u.measure.ledger
      _ = w.measure.ledger := (ledger_of_still (State.startUpGoesOn_still _)).trans rfl
      _ = (v.measureHashEnd (Config.sha256 input)).measure.ledger := congrArg (·.measure.ledger) (v.shaPiece_ends ok hl)
      _ = _ := hx
  have hchains : u.measure.chains = tableSet s.measure.chains i (Config.sha256 input) :=
    (congrArg Ledger.chains hledger).trans (Ledger.extended_chains _ _ _ _ _)
  refine ⟨u, hexec, ?_, fun j hj => ?_⟩
  · exact (congrArg (tableGet · i) hchains).trans (tableGet_tableSet_same _ _ _)
  · exact (congrArg (tableGet · j) hchains).trans (tableGet_tableSet_ne _ _ hj.symm)

/-- The extension of a host's card is applied, and the card settles DONE with the chain's value (R28). -/
theorem State.cardHashEnd_extend {s t : State} {c : Card} {i : Fin 11} {event : Word16} {digest value : Digest}
    (hw : t.measure.work = working c (.extendHash i event digest) false) (hcarry : t.carries)
    (ht : s.applyExtension (chainOf i) event digest value = t) :
    s.cardHashEnd { card := c, stage := .extendHash i event digest, abandoned := false, committed := false } value =
      { t.givesBack c .done (some (BitVec.ofNat 32 s.recordNumber)) (outBytes (strBytes value)) with
        measure := { t.measure with work := none, paused := none } } := by
  subst ht
  exact State.measureHandBack_eq .done _ _ hw hcarry

/-- A released engine that one job waits for grants it its piece (R141). -/
theorem HashEngine.release_measure {e : HashEngine} {j : HashJob} (hm : e.measure = some j) (hp : e.pointer = .measure)
    (hothers : e.credential = none ∧ e.custody = none ∧ e.update = none) :
    e.release.running = some { client := .measure, job := j, withdrawn := false } := by
  obtain ⟨hcred, hcustody, hupdate⟩ := hothers
  simp [HashEngine.release, hp, HashClient.rotation, HashEngine.firstWaiting, HashEngine.waiting, hcred, hcustody, hupdate, hm,
    HashEngine.grantTo]

/-- Settles O30, from the end of an extension's piece for a card and for a part event. -/
theorem extensionsAreAppliedWhole : Obligations.ExtensionsAreAppliedWhole := by
  refine ⟨?applied, ?digest, ?extend, ?records, ?codes⟩
  case applied =>
    intro s h answered old digest hp hend hr value n u truncates
    let v : State := s.atPieceEnd h .measure
    have hlength := extendInput_length old digest
    refine ⟨fun c i event hserve hw hcarry => ?_, fun e rest hserve hi hm => ?_⟩
    · intro k m dropped
      have hgo : ∀ t w : State, v.applyExtension k event digest value = w → w.measure.work = s.measure.work → w.carries →
          { w.givesBack c .done (some (BitVec.ofNat 32 s.recordNumber)) (outBytes (strBytes value)) with
            measure := { w.measure with work := none, paused := none } } = t → t.startUp = .ended →
          exec (.hashPieceEnd h answered) s = .next { t with hash := t.hash.release } := by
        intro t w hx hwork hc ht he
        have hcard := (State.measureHashEnd_card (s := v) value hserve hw).trans
          ((State.cardHashEnd_extend (s := v) (hwork.trans hw) hc hx).trans ht)
        exact exec_hashPieceEnd_sha h answered hp hlength hr hcard he
      refine ⟨fun hn => ?_, fun hn ht => ?_, fun hn ht => ?_⟩
      · have hnumber : s.recordNumber = n + 1 := if_pos hn
        rw [hgo _ _ (State.applyExtension_lists (s := v) k event digest value hn) rfl hcarry rfl hend, hnumber]
        rfl
      · have hnumber : s.recordNumber = 0 := if_neg (Nat.not_lt.mpr hn)
        rw [hgo _ _ (State.applyExtension_misses (s := v) k event digest value (Nat.not_lt.mpr hn) ht) rfl hcarry rfl hend, hnumber]
        rfl
      · have hnumber : s.recordNumber = 0 := if_neg (Nat.not_lt.mpr hn)
        rw [hgo _ _ (State.applyExtension_truncates (s := v) k event digest value (Nat.not_lt.mpr hn) ht) rfl hcarry rfl hend,
          hnumber]
        rfl
    · intro m entered
      have hgo : ∀ t w : State, v.applyExtension 11 e.code digest value = w → (w.served rest).resumeMeasure = t →
          t.startUp = .ended → exec (.hashPieceEnd h answered) s = .next { t with hash := t.hash.release } := by
        intro t w hx ht he
        subst hx
        have hservice := (State.measureHashEnd_service (s := v) value hserve).trans
          ((State.eventExtend_eq (s := v) value hi hm).trans ht)
        exact exec_hashPieceEnd_sha h answered hp hlength hr hservice he
      refine ⟨fun hw => ⟨fun hn => ?_, fun hn ht => ?_, fun hn ht => ?_⟩, fun c stage hw hn hrest => ?_⟩
      · exact hgo _ _ (State.applyExtension_lists (s := v) 11 e.code digest value hn) (State.resumeMeasure_noWork (by exact hw)) hend
      · exact hgo _ _ (State.applyExtension_misses (s := v) 11 e.code digest value (Nat.not_lt.mpr hn) ht)
          (State.resumeMeasure_noWork (by exact hw)) hend
      · exact hgo _ _ (State.applyExtension_truncates (s := v) 11 e.code digest value (Nat.not_lt.mpr hn) ht)
          (State.resumeMeasure_noWork (by exact hw)) hend
      · have hx := State.applyExtension_lists (s := v) 11 e.code digest value hn
        subst hrest
        refine ⟨fun j hj => ?_, fun hj => ?_, fun body seq sig hstage hj => ?_⟩
        · exact hgo _ _ hx (State.resumeMeasure_job (s := State.served _ []) rfl rfl (by exact hw) (by exact hj) (by exact hr)) hend
        · exact hgo _ _ hx (State.resumeMeasure_transfer (s := State.served _ []) rfl rfl (by exact hw) (by exact hj)) hend
        · subst hstage
          exact hgo _ _ hx (State.resumeMeasure_signature (s := State.served _ []) rfl rfl (by exact hw) (by exact hj)) hend
  case digest =>
    intro s h answered e hp hend hr hserve digest
    have hexec := exec_hashPieceEnd_eventDigest h answered hp hend hr hserve
    refine ⟨hexec, fun rest hi hw hm hnone h' answered' => ?_⟩
    have hrun := HashEngine.release_measure (e := { s.hash with
      pointer := .measure, measure := some (shaJob (strBytes (s.chain 11) ++ strBytes digest)) }) rfl rfl
      ⟨hnone .credential, hnone .custody, hnone .update⟩
    obtain ⟨u, hu, hchain, hothers⟩ := exec_hashPieceEnd_extends (s := { s with
      host := Memory.hostStores s.host h
      measure := { s.measure with service := some (.eventExtend e digest) }
      hash := ({ s.hash with
        pointer := .measure, measure := some (shaJob (strBytes (s.chain 11) ++ strBytes digest)) }).release })
      h' answered' hp (extendInput_length _ _) hrun
      ((ledger_of_still ((State.resumeMeasure_still _).trans (State.endService_still _))).trans
        (State.applyExtension_ledger 11 e.code digest _ _))
    exact ⟨_, u, hexec, hu, hchain, hothers⟩
  case extend =>
    intro s h answered c i hready hf hi ho hend hcarry hfree k
    obtain ⟨⟨hp, -, hserve, -, -⟩, -, -⟩ := State.measureReady_iff.mp hready
    obtain ⟨hextend, -, -⟩ := chainsAreExtendedAndClosed
    have hexec := (hextend s c i hready hf hi).1 ho
    have hgranted : ∀ j, s.hash.submit .measure j = s.hash.grantTo .measure j := fun j => by
      unfold HashEngine.submit
      rw [hfree]
    rw [hgranted] at hexec
    let t : State := { s.begins c with
      measure := { s.measure with
        work := working c (.extendHash i (BitVec.ofNat 16 (c.field 1 2)) (c.fieldStr 3 256)) false, paused := none }
      hash := s.hash.grantTo .measure (shaJob (strBytes (s.chain k) ++ strBytes (c.fieldStr 3 256))) }
    obtain ⟨u, hu, hchain, hothers⟩ := exec_hashPieceEnd_extends (s := t) h answered hp (extendInput_length _ _) rfl
      ((congrArg (·.measure.ledger) (State.measureHashEnd_card (s := t.atPieceEnd h .measure) _ hserve rfl)).trans
        ((ledger_of_still (State.measureHandBack_still _ _ _ _)).trans (State.applyExtension_ledger k _ _ _ _)))
    exact ⟨t, u, hexec, hu, hchain, hothers⟩
  case records =>
    intro kind version signer below reason confirmed lapsed
    refine ⟨rfl, rfl, ?_, ?_⟩
    · simp only [replyNum_eq]
      cases signer <;> cases below <;> rfl
    · simp only [replyNum_eq]
      cases reason <;> rfl
  case codes =>
    intro e code hmem
    simp only [List.mem_cons, Prod.mk.injEq, List.not_mem_nil, or_false] at hmem
    obtain ⟨rfl, rfl⟩ | ⟨rfl, rfl⟩ | ⟨rfl, rfl⟩ | ⟨rfl, rfl⟩ := hmem
    all_goals exact ⟨rfl, by rw [replyNum_eq]; rfl⟩

end Sys2Proof.Machine
end

