-- ==== Sys2Proof/Proofs/Watch.lean ====
section
/-! SUPPORT. The guard line, the CHECKED session, release pending and release progress under every operation that leaves the four in step:
one lemma for each operation, and the rows of the exchange, the census and the pace clock that are made of them (R80, R119). -/
namespace Sys2Proof.Machine

/-! ### The watched fields -/

/-- What the guard line's invariant and release pending's speak of: the guard line, whether the session is CHECKED, release pending, and
whether release progress is other than NONE (R80, R119). -/
structure Watch where
  guard       : Bool
  checked     : Bool
  pending     : Bool
  progressing : Bool

def watchOf (guard : Bool) (x : Session) (pending : Bool) (p : Progress) : Watch :=
  { guard := guard, checked := decide (x.code = 2), pending := pending, progressing := decide (p ≠ .none) }

def State.watch (s : State) : Watch := watchOf s.update.guardOn s.update.session s.lifecycle.pending s.lifecycle.progress

/-- A state given by its fields is watched through the update unit's and the lifecycle controller's. -/
@[simp] theorem State.watch_mk (exch : Exchange) (custody : Custody) (measure : Measure) (update : Update) (credential : Credential)
    (lifecycle : Lifecycle) (hash : HashEngine) (curve : CurveEngine) (census : Census) (pace : Pace) (store : Store) (startUp : StartUp)
    (outboxes : Outboxes) (waiting : List Client) (powered linkUp resetLine ownerLineLow : Bool) (host : List Host.Cell)
    (messages free : Nat) (pending : List Instr) :
    (State.mk exch custody measure update credential lifecycle hash curve census pace store startUp outboxes waiting powered linkUp
      resetLine ownerLineLow host messages free pending).watch =
      watchOf update.guardOn update.session lifecycle.pending lifecycle.progress := rfl

@[simp] theorem watchOf_fields (s : State) :
    watchOf s.update.guardOn s.update.session s.lifecycle.pending s.lifecycle.progress = s.watch := rfl

/-- An OPEN session that ends, or goes on with another context, is watched as before: it is CHECKED neither before nor after. -/
theorem State.watch_openSession {s : State} {x : OpenSession} {y : Session} (h : s.update.session = .opened x) (hy : y.code ≠ 2) :
    ({ s with update := { s.update with session := y } } : State).watch = s.watch := by
  have hx : s.update.session.code ≠ 2 := by simp [h, Session.code]
  simp only [State.watch, watchOf, hx, hy]

/-! ### Lists of acts and rows -/

theorem foldl_watch {α : Type} (f : State → α → State) (h : ∀ s x, (f s x).watch = s.watch) (l : List α) (s : State) :
    (l.foldl f s).watch = s.watch := by
  induction l generalizing s with
  | nil => rfl
  | cons x l ih => exact (ih (f s x)).trans (h s x)

@[simp] theorem State.whenPowered_watch (next : State → State) (s : State) (hb : ∀ t, (next t).watch = t.watch) :
    (s.whenPowered next).watch = s.watch := by
  unfold State.whenPowered
  split <;> simp [hb]

/-! ### The shared operations -/

@[simp] theorem State.afterDraw_watch (n : Nat) (s : State) : (s.afterDraw n).watch = s.watch := rfl

@[simp] theorem State.setSlot_watch (i : Fin 48) (r : Option KeyRecord) (s : State) : (s.setSlot i r).watch = s.watch := rfl

@[simp] theorem State.setKind_watch (k : Fin 8) (r : KindRecord) (s : State) : (s.setKind k r).watch = s.watch := rfl

@[simp] theorem State.setMark_watch (i : Fin 3) (v : Word32) (s : State) : (s.setMark i v).watch = s.watch := rfl

@[simp] theorem State.setCred_watch (i : Fin 32) (e : Option CredEntry) (s : State) : (s.setCred i e).watch = s.watch := rfl

@[simp] theorem State.afterFill_watch (b : List OutByte) (s : State) : (s.afterFill b).watch = s.watch := rfl

@[simp] theorem State.afterDetail_watch (d : Option Word32) (s : State) : (s.afterDetail d).watch = s.watch := by
  unfold State.afterDetail
  split <;> simp

@[simp] theorem State.sendMessage_watch (s : State) : s.sendMessage.watch = s.watch := by
  unfold State.sendMessage
  split <;> simp

@[simp] theorem State.ask_watch (a : Attention) (s : State) : (s.ask a).watch = s.watch := by
  unfold State.ask
  split <;> simp

@[simp] theorem State.askStoreFault_watch (s : State) : s.askStoreFault.watch = s.watch := by
  unfold State.askStoreFault
  split <;> simp

@[simp] theorem State.restartIdle_watch (s : State) : s.restartIdle.watch = s.watch := by
  unfold State.restartIdle
  split
  · exact State.watch_openSession ‹_› (by simp [Session.code])
  all_goals rfl

@[simp] theorem State.freeBuffer_watch (c : Card) (s : State) : (s.freeBuffer c).watch = s.watch := by
  unfold State.freeBuffer
  dsimp only
  (repeat' split) <;> simp

@[simp] theorem State.closeArea_watch (s : State) : s.closeArea.watch = s.watch := rfl

@[simp] theorem State.handBack_watch (c : Card) (o : CardOutcome) (d : Option Word32) (b : List OutByte) (s : State) :
    (s.handBack c o d b).watch = s.watch := by
  unfold State.handBack
  dsimp only
  (repeat' split) <;> simp

@[simp] theorem State.beginCard_watch (c : Card) (s : State) : (s.beginCard c).watch = s.watch := rfl

@[simp] theorem State.hashSubmit_watch (client : HashClient) (j : HashJob) (s : State) : (s.hashSubmit client j).watch = s.watch := rfl

@[simp] theorem State.hashWithdraw_watch (client : HashClient) (s : State) : (s.hashWithdraw client).watch = s.watch := rfl

@[simp] theorem State.curveSubmit_watch (client : CurveClient) (op : CurveOp) (s : State) : (s.curveSubmit client op).watch = s.watch := rfl

@[simp] theorem State.curveWithdraw_watch (client : CurveClient) (s : State) : (s.curveWithdraw client).watch = s.watch := rfl

@[simp] theorem State.setOutbox_watch (c : Client) (l : List Out) (s : State) : (s.setOutbox c l).watch = s.watch := rfl

@[simp] theorem State.push_watch (c : Client) (l : List Out) (s : State) : (s.push c l).watch = s.watch := rfl

@[simp] theorem State.commitCard_watch (s : State) (a : WriteTo) : (s.commitCard a).watch = s.watch := by
  unfold State.commitCard
  split <;> simp

@[simp] theorem State.dropRefresh_watch (i : Fin 32) (s : State) : (s.dropRefresh i).watch = s.watch := rfl

@[simp] theorem State.enqueue_watch (w : Write) (t : WriteTo) (s : State) : (s.enqueue w t).watch = s.watch := by
  unfold State.enqueue
  dsimp only
  (repeat' split) <;> simp

@[simp] theorem State.openPresence_watch (s : State) : s.openPresence.watch = s.watch := by
  unfold State.openPresence
  split <;> simp

@[simp] theorem State.closePresence_watch (s : State) : s.closePresence.watch = s.watch := rfl

@[simp] theorem State.endPresence_watch (s : State) : s.endPresence.watch = s.watch := by
  unfold State.endPresence
  split <;> simp

@[simp] theorem State.serveUpdateWipe_watch (s : State) : s.serveUpdateWipe.watch = s.watch := by
  have hkinds (l : List (Fin 8)) (t : State) :
      (l.foldl (fun s k => s.setKind k (s.kindRecord k).withoutTrial) t).watch = t.watch :=
    foldl_watch _ (fun s k => State.setKind_watch k _ s) l t
  unfold State.serveUpdateWipe
  dsimp only
  split
  · refine (hkinds _ _).trans ?_
    repeat' split
    · exact State.watch_openSession ‹_› (by simp [Session.code])
    all_goals rfl
  · refine (State.push_watch _ _ _).trans ((hkinds _ _).trans ?_)
    repeat' split
    · exact State.watch_openSession ‹_› (by simp [Session.code])
    all_goals rfl

@[simp] theorem State.answerUpdateWipe_watch (c : WipeCount) (s : State) : (s.answerUpdateWipe c).watch = s.watch := rfl

@[simp] theorem State.updateWipeSent_watch (s : State) : s.updateWipeSent.watch = s.watch := by
  unfold State.updateWipeSent
  (repeat' split) <;> simp

@[simp] theorem State.updateRelease_watch (o : CardOutcome) (d : Option Word32) (b : List OutByte) (s : State) :
    (s.updateRelease o d b).watch = s.watch := by
  unfold State.updateRelease
  split <;> simp

@[simp] theorem State.credHandBack_watch (o : CardOutcome) (d : Option Word32) (b : List OutByte) (s : State) :
    (s.credHandBack o d b).watch = s.watch := by
  unfold State.credHandBack
  split <;> simp

@[simp] theorem State.claimAnswered_watch (s : State) : s.claimAnswered.watch = s.watch := by
  unfold State.claimAnswered
  (repeat' split) <;> simp

@[simp] theorem State.perform_watch (a : After) (s : State) : (s.perform a).watch = s.watch := by
  unfold State.perform
  dsimp only
  (repeat' split) <;> simp

@[simp] theorem State.joinList_watch (r : MeasureRequest) (s : State) : (s.joinList r).watch = s.watch := rfl

@[simp] theorem State.sendAll_watch (c : Client) (n : Nat) (s : State) : (State.sendAll c n s).watch = s.watch := by
  induction n generalizing s with
  | zero => rfl
  | succ n ih =>
    unfold State.sendAll
    (repeat' split) <;> simp [ih]

@[simp] theorem State.sendLane_watch (c : Client) (s : State) : (s.sendLane c).watch = s.watch := by
  unfold State.sendLane
  dsimp only
  (repeat' split) <;> simp

@[simp] theorem State.send_watch (c : Client) (l : List Out) (s : State) : (s.send c l).watch = s.watch := by
  unfold State.send
  split <;> simp

@[simp] theorem State.serveHeldWipe_watch (s : State) : s.serveHeldWipe.watch = s.watch := by
  unfold State.serveHeldWipe
  split <;> simp

@[simp] theorem State.updateHandBack_watch (o : CardOutcome) (d : Option Word32) (b : List OutByte) (s : State) :
    (s.updateHandBack o d b).watch = s.watch := by
  simp [State.updateHandBack]

@[simp] theorem State.pumpStore_watch (n : Nat) (s : State) : (State.pumpStore n s).watch = s.watch := by
  induction n generalizing s with
  | zero => rfl
  | succ n ih =>
    unfold State.pumpStore
    (repeat' split) <;> simp [ih]

@[simp] theorem State.joinFirst_watch (c : Client) (s : State) : (s.joinFirst c).watch = s.watch := by
  unfold State.joinFirst
  split <;> simp

@[simp] theorem State.pumpMeasure_watch (n : Nat) (s : State) : (State.pumpMeasure n s).watch = s.watch := by
  induction n generalizing s with
  | zero => rfl
  | succ n ih =>
    unfold State.pumpMeasure
    (repeat' split) <;> simp [ih]

@[simp] theorem State.withdrawWrite_watch (c : Client) (a : WriteTo) (s : State) : (s.withdrawWrite c a).watch = s.watch := by
  unfold State.withdrawWrite
  dsimp only
  (repeat' split) <;> simp

@[simp] theorem State.giveUpRequest_watch (o : Option Checker) (s : State) : (s.giveUpRequest o).watch = s.watch := rfl

@[simp] theorem State.joinWaiters_watch (w : Waiter) (s : State) : (s.joinWaiters w).watch = s.watch := rfl

@[simp] theorem State.leaveWaiters_watch (w : Waiter) (s : State) : (s.leaveWaiters w).watch = s.watch := rfl

@[simp] theorem State.sendCheck_watch (c : Client) (c2 : Checker) (b : Binding) (s : State) : (s.sendCheck c c2 b).watch = s.watch := by
  simp [State.sendCheck]

/-! ### The update unit -/

@[simp] theorem State.beginUpdate_watch (code : Word16) (stage : UpdateStage) (body : Card → State → State) (s : State) (hb : ∀ x t,
    (body x t).watch = t.watch) :
    (s.beginUpdate code stage body).watch = s.watch := by
  unfold State.beginUpdate
  split <;> simp [hb]

@[simp] theorem State.updateStage_watch (stage : UpdateStage) (s : State) : (s.updateStage stage).watch = s.watch := rfl

@[simp] theorem State.updateCommit_watch (s : State) : s.updateCommit.watch = s.watch := rfl

@[simp] theorem State.updateBad_watch (n : Nat) (s : State) : (s.updateBad n).watch = s.watch := by simp [State.updateBad]

@[simp] theorem State.updateRefuse_watch (o : CardOutcome) (s : State) : (s.updateRefuse o).watch = s.watch := by simp [State.updateRefuse]

@[simp] theorem State.updateWrite_watch (w : Write) (stage : UpdateStage) (s : State) : (s.updateWrite w stage).watch = s.watch := by
  simp [State.updateWrite]

@[simp] theorem State.askCustody_watch (c : CustodyRequest) (s : State) : (s.askCustody c).watch = s.watch := rfl

@[simp] theorem State.verifySigned_watch (pub : PublicKey) (l : List Byte) (s : State) : (s.verifySigned pub l).watch = s.watch := rfl

@[simp] theorem State.anchorInstallDelegate_watch (c : Card) (s : State) : (s.anchorInstallDelegate c).watch = s.watch := by
  unfold State.anchorInstallDelegate
  dsimp only
  (repeat' split) <;> simp

@[simp] theorem State.anchorInstallOwner_watch (c : Card) (s : State) : (s.anchorInstallOwner c).watch = s.watch := by
  unfold State.anchorInstallOwner
  (repeat' split) <;> simp

@[simp] theorem State.anchorInstall_watch (c : Card) (s : State) : (s.anchorInstall c).watch = s.watch := by
  unfold State.anchorInstall
  (repeat' split) <;> simp

@[simp] theorem State.anchorRemoveDelegate_watch (c : Card) (s : State) : (s.anchorRemoveDelegate c).watch = s.watch := by
  unfold State.anchorRemoveDelegate
  dsimp only
  (repeat' split) <;> simp

@[simp] theorem State.anchorRemoveOwner_watch (s : State) : s.anchorRemoveOwner.watch = s.watch := by
  unfold State.anchorRemoveOwner
  (repeat' split) <;> simp

@[simp] theorem State.anchorRemove_watch (c : Card) (s : State) : (s.anchorRemove c).watch = s.watch := by
  unfold State.anchorRemove
  (repeat' split) <;> simp

@[simp] theorem State.delegateVerified_watch (c : Card) (s : State) : (s.delegateVerified c).watch = s.watch := by
  unfold State.delegateVerified
  dsimp only
  (repeat' split) <;> simp

@[simp] theorem State.delegateRemoval_watch (c : Card) (s : State) : (s.delegateRemoval c).watch = s.watch := rfl

@[simp] theorem State.removalVerified_watch (c : Card) (s : State) : (s.removalVerified c).watch = s.watch := by
  unfold State.removalVerified
  dsimp only
  (repeat' split) <;> simp

@[simp] theorem State.updateOpen_watch (c : Card) (s : State) : (s.updateOpen c).watch = s.watch := by
  unfold State.updateOpen
  dsimp only
  (repeat' split) <;> simp

@[simp] theorem State.updateFeed_watch (c : Card) (s : State) : (s.updateFeed c).watch = s.watch := by
  unfold State.updateFeed
  (repeat' split) <;> simp

@[simp] theorem State.feedPiece_watch (n : Nat) (l : List Byte) (s : State) : (s.feedPiece n l).watch = s.watch := by
  unfold State.feedPiece
  split
  · exact State.watch_openSession ‹_› (by simp [Session.code])
  all_goals rfl

@[simp] theorem State.feedMore_watch (s : State) : s.feedMore.watch = s.watch := by
  unfold State.feedMore
  split <;> simp

@[simp] theorem State.feedFault_watch (s : State) : s.feedFault.watch = s.watch := by
  unfold State.feedFault
  split
  · next x h =>
    rw [State.updateHandBack_watch]
    exact State.watch_openSession h (by simp [Session.code])
  all_goals simp

@[simp] theorem State.updateCommitCard_watch (c : Card) (s : State) : (s.updateCommitCard c).watch = s.watch := by
  unfold State.updateCommitCard
  (repeat' split) <;> simp

@[simp] theorem State.updateConfirm_watch (c : Card) (s : State) : (s.updateConfirm c).watch = s.watch := by
  unfold State.updateConfirm
  (repeat' split) <;> simp

@[simp] theorem State.confirmExpect_watch (c : Card) (x : Digest) (s : State) : (s.confirmExpect c x).watch = s.watch := by
  simp [State.confirmExpect]

@[simp] theorem State.confirmChain_watch (c : Card) (x : Digest) (x2 : Digest) (s : State) : (s.confirmChain c x x2).watch = s.watch := by
  unfold State.confirmChain
  dsimp only
  (repeat' split) <;> simp

@[simp] theorem State.confirmDone_watch (k : Fin 8) (r : KindRecord) (n : Nat) (x : SignerClass) (ok : Bool) (s : State) :
    (s.confirmDone k r n x ok).watch = s.watch := by
  simp [State.confirmDone]

@[simp] theorem State.updateRevert_watch (c : Card) (s : State) : (s.updateRevert c).watch = s.watch := by
  unfold State.updateRevert
  dsimp only
  (repeat' split) <;> simp

@[simp] theorem State.bootAdvice_watch (c : Card) (s : State) : (s.bootAdvice c).watch = s.watch := by
  unfold State.bootAdvice
  split <;> simp

@[simp] theorem State.updateHashContinued_watch (s : State) : s.updateHashContinued.watch = s.watch := by
  unfold State.updateHashContinued
  (repeat' split) <;> simp

@[simp] theorem State.updateHashPiece_watch (n : Nat) (l : List Byte) (s : State) : (s.updateHashPiece n l).watch = s.watch := by
  unfold State.updateHashPiece
  (repeat' split) <;> simp

@[simp] theorem State.updateHashFault_watch (n : Nat) (s : State) : (s.updateHashFault n).watch = s.watch := by
  unfold State.updateHashFault
  (repeat' split) <;> simp

@[simp] theorem State.updateChainAnswer_watch (x : Digest) (s : State) : (s.updateChainAnswer x).watch = s.watch := by
  unfold State.updateChainAnswer
  (repeat' split) <;> simp

@[simp] theorem State.updateCustodyAnswer_watch (ok : Bool) (s : State) : (s.updateCustodyAnswer ok).watch = s.watch := by
  unfold State.updateCustodyAnswer
  (repeat' split) <;> simp

@[simp] theorem State.updateWipeEnd_watch (ok : Bool) (s : State) : (s.updateWipeEnd ok).watch = s.watch := by
  unfold State.updateWipeEnd
  dsimp only
  (repeat' split) <;> simp

@[simp] theorem State.updateWipeOrder_watch (s : State) : s.updateWipeOrder.watch = s.watch := by
  unfold State.updateWipeOrder
  (repeat' split) <;> simp

@[simp] theorem State.idleExpiry_watch (s : State) : s.idleExpiry.watch = s.watch := by
  unfold State.idleExpiry
  split
  · next h =>
    unfold State.idleExpires at h
    split at h
    · exact State.watch_openSession ‹_› (by simp [Session.code])
    all_goals cases h
  · rfl

/-! ### The lifecycle controller -/

@[simp] theorem State.beginLife_watch (code : Word16) (stage : LifeStage) (body : Card → State → State) (s : State) (hb : ∀ x t,
    (body x t).watch = t.watch) :
    (s.beginLife code stage body).watch = s.watch := by
  unfold State.beginLife
  split <;> simp [hb]

@[simp] theorem State.lifeStage_watch (stage : LifeStage) (s : State) : (s.lifeStage stage).watch = s.watch := rfl

@[simp] theorem State.lifeCommit_watch (s : State) : s.lifeCommit.watch = s.watch := rfl

@[simp] theorem State.lifeHandBack_watch (o : CardOutcome) (d : Option Word32) (b : List OutByte) (s : State) :
    (s.lifeHandBack o d b).watch = s.watch := by
  unfold State.lifeHandBack
  split <;> simp

@[simp] theorem State.lifeBad_watch (n : Nat) (s : State) : (s.lifeBad n).watch = s.watch := by simp [State.lifeBad]

@[simp] theorem State.lifeRefuse_watch (o : CardOutcome) (s : State) : (s.lifeRefuse o).watch = s.watch := by simp [State.lifeRefuse]

@[simp] theorem State.factory_watch (form : Card → Option Nat) (body : Card → State → State) (c : Card) (s : State) (hb : ∀ x t,
    (body x t).watch = t.watch) :
    (s.factory form body c).watch = s.watch := by
  unfold State.factory
  (repeat' split) <;> simp [hb]

@[simp] theorem State.identityDraw_watch (s : State) : s.identityDraw.watch = s.watch := rfl

@[simp] theorem State.factoryIdentity_watch (s : State) : s.factoryIdentity.watch = s.watch := by
  unfold State.factoryIdentity
  (repeat' split) <;> simp

@[simp] theorem State.identityGenerated_watch (k : Scalar) (pub : PublicKey) (s : State) :
    (s.identityGenerated k pub).watch = s.watch := rfl

@[simp] theorem State.factoryRoot_watch (c : Card) (s : State) : (s.factoryRoot c).watch = s.watch := rfl

@[simp] theorem State.factoryPairing_watch (c : Card) (s : State) : (s.factoryPairing c).watch = s.watch := rfl

@[simp] theorem State.factoryFinish_watch (s : State) : s.factoryFinish.watch = s.watch := by
  unfold State.factoryFinish
  split <;> simp

@[simp] theorem State.settleRelease_watch (o : CardOutcome) (d : Option Word32) (s : State) : (s.settleRelease o d).watch = s.watch := by
  unfold State.settleRelease
  (repeat' split) <;> simp

@[simp] theorem State.afterWithdrawDetail_watch (s : State) : s.afterWithdrawDetail.watch = s.watch := rfl

@[simp] theorem State.ownerWithdraw_watch (c : Card) (s : State) : (s.ownerWithdraw c).watch = s.watch := by
  unfold State.ownerWithdraw
  split <;> simp

@[simp] theorem State.censusFailedReport_watch (s : State) : s.censusFailedReport.watch = s.watch := by
  unfold State.censusFailedReport
  split <;> simp

@[simp] theorem State.presenceExpiry_watch (s : State) : s.presenceExpiry.watch = s.watch := by
  unfold State.presenceExpiry
  split <;> simp

@[simp] theorem State.sampleLine_watch (ok : Bool) (s : State) : (s.sampleLine ok).watch = s.watch := rfl

@[simp] theorem State.lifecycleDescribe_watch (c : Card) (s : State) : (s.lifecycleDescribe c).watch = s.watch := by
  unfold State.lifecycleDescribe
  split <;> simp

@[simp] theorem State.identityDescribe_watch (c : Card) (s : State) : (s.identityDescribe c).watch = s.watch := by
  unfold State.identityDescribe
  dsimp only
  (repeat' split) <;> simp

@[simp] theorem State.lifeGate_watch (ok : Bool) (s : State) : (s.lifeGate ok).watch = s.watch := by
  unfold State.lifeGate
  (repeat' split) <;> simp

@[simp] theorem State.lifeCurveEnd_watch (k : Scalar) (pub : PublicKey) (s : State) : (s.lifeCurveEnd k pub).watch = s.watch := by
  unfold State.lifeCurveEnd
  (repeat' split) <;> simp

@[simp] theorem State.lifeInstallAnswer_watch (ok : Bool) (s : State) : (s.lifeInstallAnswer ok).watch = s.watch := by
  unfold State.lifeInstallAnswer
  (repeat' split) <;> simp

@[simp] theorem State.lifePairingAnswer_watch (o : CardOutcome) (b : List OutByte) (s : State) :
    (s.lifePairingAnswer o b).watch = s.watch := by
  unfold State.lifePairingAnswer
  (repeat' split) <;> simp

@[simp] theorem State.lifeWriteEnd_watch (ok : Bool) (s : State) : (s.lifeWriteEnd ok).watch = s.watch := by
  unfold State.lifeWriteEnd
  (repeat' split) <;> simp

@[simp] theorem State.lifeAbandon_watch (s : State) : s.lifeAbandon.watch = s.watch := by
  unfold State.lifeAbandon
  (repeat' split) <;> simp

/-! ### The custody unit -/

@[simp] theorem State.beginCustody_watch (code : Word16) (body : Card → State → State) (s : State) (hb : ∀ x t,
    (body x t).watch = t.watch) :
    (s.beginCustody code body).watch = s.watch := by
  unfold State.beginCustody
  split <;> simp [hb]

@[simp] theorem State.custodyStage_watch (stage : CustodyStage) (s : State) : (s.custodyStage stage).watch = s.watch := rfl

@[simp] theorem State.custodyCommit_watch (s : State) : s.custodyCommit.watch = s.watch := rfl

@[simp] theorem State.custodyHandBack_watch (o : CardOutcome) (d : Option Word32) (b : List OutByte) (s : State) :
    (s.custodyHandBack o d b).watch = s.watch := by
  unfold State.custodyHandBack
  split <;> simp

@[simp] theorem State.takeBackUse_watch (s : State) : s.takeBackUse.watch = s.watch := rfl

@[simp] theorem State.custodyGiveUp_watch (s : State) : s.custodyGiveUp.watch = s.watch := by simp [State.custodyGiveUp]

@[simp] theorem State.custodyBad_watch (n : Nat) (s : State) : (s.custodyBad n).watch = s.watch := by simp [State.custodyBad]

@[simp] theorem State.custodyRefuse_watch (o : CardOutcome) (s : State) : (s.custodyRefuse o).watch = s.watch := by
  simp [State.custodyRefuse]

@[simp] theorem State.custodyRefuseSlot_watch (o : CardOutcome) (i : Fin 48) (s : State) : (s.custodyRefuseSlot o i).watch = s.watch := by
  simp [State.custodyRefuseSlot]

@[simp] theorem State.custodyPlace_watch (i : Fin 48) (r : Option KeyRecord) (d : Option Word32) (d2 : Option Word32) (b : List OutByte)
    (s : State) :
    (s.custodyPlace i r d d2 b).watch = s.watch := by
  unfold State.custodyPlace
  split <;> simp

@[simp] theorem State.custodyThen_watch (x : CustodyThen) (s : State) : (s.custodyThen x).watch = s.watch := by
  unfold State.custodyThen
  split <;> simp

@[simp] theorem State.custodyCommitCounted_watch (i : Fin 48) (s : State) : (s.custodyCommitCounted i).watch = s.watch := by
  unfold State.custodyCommitCounted
  split <;> simp

@[simp] theorem State.completeUse_watch (i : Fin 48) (d : Option Word32) (x : CustodyThen) (s : State) :
    (s.completeUse i d x).watch = s.watch := by
  unfold State.completeUse
  (repeat' split) <;> simp

@[simp] theorem State.useCheck_watch (use : KeyUse) (i : Fin 48) (next : State → State) (s : State) (hb : ∀ t, (next t).watch = t.watch) :
    (s.useCheck use i next).watch = s.watch := by
  unfold State.useCheck
  (repeat' split) <;> simp [hb]

@[simp] theorem State.custodyGate_watch (next : State → State) (s : State) (hb : ∀ t, (next t).watch = t.watch) :
    (s.custodyGate next).watch = s.watch := by
  unfold State.custodyGate
  split <;> simp [hb]

@[simp] theorem State.generated_watch (c : Card) (m : KeyMaterial) (b : List OutByte) (s : State) :
    (s.generated c m b).watch = s.watch := by
  simp [State.generated]

@[simp] theorem State.generateAfterGate_watch (c : Card) (s : State) : (s.generateAfterGate c).watch = s.watch := by
  unfold State.generateAfterGate
  (repeat' split) <;> simp

@[simp] theorem State.creationChecks_watch (f : CreateFields) (n : Nat) (next : State → State) (s : State) (hb : ∀ t,
    (next t).watch = t.watch) :
    (s.creationChecks f n next).watch = s.watch := by
  unfold State.creationChecks
  (repeat' split) <;> simp [hb]

@[simp] theorem State.keyGenerate_watch (c : Card) (s : State) : (s.keyGenerate c).watch = s.watch := by
  unfold State.keyGenerate
  split <;> simp

@[simp] theorem State.importRead_watch (c : Card) (s : State) : (s.importRead c).watch = s.watch := by
  unfold State.importRead
  split <;> simp

@[simp] theorem State.keyImport_watch (c : Card) (s : State) : (s.keyImport c).watch = s.watch := by
  unfold State.keyImport
  split
  · simp
  · refine State.creationChecks_watch _ _ _ _ fun t => ?_
    split
    · simp
    · exact State.useCheck_watch _ _ _ _ (by simp)

@[simp] theorem State.importBlob_watch (c : Card) (l : List Byte) (s : State) : (s.importBlob c l).watch = s.watch := by
  unfold State.importBlob
  split <;> simp

@[simp] theorem State.signStart_watch (c : Card) (s : State) : (s.signStart c).watch = s.watch := rfl

@[simp] theorem State.keySign_watch (c : Card) (s : State) : (s.keySign c).watch = s.watch := by
  unfold State.keySign
  split
  · simp
  · exact State.useCheck_watch _ _ _ _ (by simp)

@[simp] theorem State.macStart_watch (c : Card) (s : State) : (s.macStart c).watch = s.watch := rfl

@[simp] theorem State.keyMac_watch (c : Card) (s : State) : (s.keyMac c).watch = s.watch := by
  unfold State.keyMac
  split
  · simp
  · exact State.useCheck_watch _ _ _ _ (by simp)

@[simp] theorem State.wrapSeal_watch (c : Card) (s : State) : (s.wrapSeal c).watch = s.watch := by simp [State.wrapSeal]

@[simp] theorem State.wrapSource_watch (c : Card) (s : State) : (s.wrapSource c).watch = s.watch := by
  unfold State.wrapSource
  split <;> simp

@[simp] theorem State.wrapWrapping_watch (c : Card) (s : State) : (s.wrapWrapping c).watch = s.watch := by simp [State.wrapWrapping]

@[simp] theorem State.keyWrapOut_watch (c : Card) (s : State) : (s.keyWrapOut c).watch = s.watch := by
  unfold State.keyWrapOut
  split <;> simp

@[simp] theorem State.drawAfterGate_watch (c : Card) (s : State) : (s.drawAfterGate c).watch = s.watch := by simp [State.drawAfterGate]

@[simp] theorem State.drawRandom_watch (c : Card) (s : State) : (s.drawRandom c).watch = s.watch := by
  unfold State.drawRandom
  split <;> simp

@[simp] theorem State.keySetAttributes_watch (c : Card) (s : State) : (s.keySetAttributes c).watch = s.watch := by
  unfold State.keySetAttributes
  dsimp only
  (repeat' split) <;> simp

@[simp] theorem State.keyFinalize_watch (c : Card) (s : State) : (s.keyFinalize c).watch = s.watch := by
  unfold State.keyFinalize
  (repeat' split) <;> simp

@[simp] theorem State.keyErase_watch (c : Card) (s : State) : (s.keyErase c).watch = s.watch := by
  unfold State.keyErase
  (repeat' split) <;> simp

@[simp] theorem State.keyDescribe_watch (c : Card) (s : State) : (s.keyDescribe c).watch = s.watch := by
  unfold State.keyDescribe
  (repeat' split) <;> simp

@[simp] theorem State.custodyGateAnswer_watch (ok : Bool) (s : State) : (s.custodyGateAnswer ok).watch = s.watch := by
  unfold State.custodyGateAnswer
  (repeat' split) <;> simp

@[simp] theorem State.custodyBindingAnswer_watch (ok : Bool) (s : State) : (s.custodyBindingAnswer ok).watch = s.watch := by
  unfold State.custodyBindingAnswer
  (repeat' split) <;> simp

@[simp] theorem State.custodySigned_watch (sig : Signature) (s : State) : (s.custodySigned sig).watch = s.watch := by
  unfold State.custodySigned
  (repeat' split) <;> simp

@[simp] theorem State.custodyKeyPair_watch (k : Scalar) (pub : PublicKey) (s : State) : (s.custodyKeyPair k pub).watch = s.watch := by
  unfold State.custodyKeyPair
  (repeat' split) <;> simp

@[simp] theorem State.custodyHashEnd_watch (x : Digest) (s : State) : (s.custodyHashEnd x).watch = s.watch := by
  unfold State.custodyHashEnd
  (repeat' split) <;> simp

@[simp] theorem State.custodyHashFault_watch (n : Nat) (s : State) : (s.custodyHashFault n).watch = s.watch := by
  unfold State.custodyHashFault
  (repeat' split) <;> simp

@[simp] theorem State.custodyHashWithdrawn_watch (s : State) : s.custodyHashWithdrawn.watch = s.watch := by
  unfold State.custodyHashWithdrawn
  (repeat' split) <;> simp

@[simp] theorem State.custodyWriteEnd_watch (ok : Bool) (s : State) : (s.custodyWriteEnd ok).watch = s.watch := by
  unfold State.custodyWriteEnd
  (repeat' split) <;> simp

@[simp] theorem State.installationRequest_watch (s : State) : s.installationRequest.watch = s.watch := by
  unfold State.installationRequest
  (repeat' split) <;> simp

@[simp] theorem State.removalRequest_watch (s : State) : s.removalRequest.watch = s.watch := by
  unfold State.removalRequest
  (repeat' split) <;> simp

@[simp] theorem State.eraseSlots_watch (l : List (Fin 32)) (s : State) : (s.eraseSlots l).watch = s.watch :=
  foldl_watch _ (by simp) l s

@[simp] theorem State.answerCustodyWipe_watch (w : WipeTally) (s : State) : (s.answerCustodyWipe w).watch = s.watch := rfl

@[simp] theorem State.custodyWipeOrder_watch (s : State) : s.custodyWipeOrder.watch = s.watch := by
  unfold State.custodyWipeOrder
  dsimp only
  (repeat' split) <;> simp

@[simp] theorem State.custodyRequestEnd_watch (ok : Bool) (s : State) : (s.custodyRequestEnd ok).watch = s.watch := by
  unfold State.custodyRequestEnd
  (repeat' split) <;> simp

@[simp] theorem State.custodyWipeEnd_watch (ok : Bool) (s : State) : (s.custodyWipeEnd ok).watch = s.watch := by
  unfold State.custodyWipeEnd
  (repeat' split) <;> simp

@[simp] theorem State.custodyAbandon_watch (s : State) : s.custodyAbandon.watch = s.watch := by
  unfold State.custodyAbandon
  (repeat' split) <;> simp

/-! ### The credential unit -/

@[simp] theorem State.beginCred_watch (code : Word16) (body : Card → State → State) (s : State) (hb : ∀ x t, (body x t).watch = t.watch) :
    (s.beginCred code body).watch = s.watch := by
  unfold State.beginCred
  split <;> simp [hb]

@[simp] theorem State.credStage_watch (stage : CredStage) (s : State) : (s.credStage stage).watch = s.watch := rfl

@[simp] theorem State.credCommit_watch (s : State) : s.credCommit.watch = s.watch := rfl

@[simp] theorem State.credBad_watch (n : Nat) (s : State) : (s.credBad n).watch = s.watch := by simp [State.credBad]

@[simp] theorem State.credRefuse_watch (o : CardOutcome) (s : State) : (s.credRefuse o).watch = s.watch := by simp [State.credRefuse]

@[simp] theorem State.credWrite_watch (i : Fin 32) (r : Option CredRecord) (a : WriteTo) (stage : CredStage) (s : State) :
    (s.credWrite i r a stage).watch = s.watch := by
  simp [State.credWrite]

@[simp] theorem State.onRecord_watch (c : Card) (body : CredEntry → State → State) (s : State) (hb : ∀ x t, (body x t).watch = t.watch) :
    (s.onRecord c body).watch = s.watch := by
  unfold State.onRecord
  (repeat' split) <;> simp [hb]

@[simp] theorem State.startAttempt_watch (c : Card) (i : Fin 32) (e : CredEntry) (salt : Option Salt) (s : State) :
    (s.startAttempt c i e salt).watch = s.watch := rfl

@[simp] theorem State.attempt_watch (c : Card) (i : Fin 32) (salt : Option Salt) (s : State) : (s.attempt c i salt).watch = s.watch := by
  unfold State.attempt
  (repeat' split) <;> simp

@[simp] theorem State.replaceDraw_watch (c : Card) (e : CredEntry) (attempt : Option (Nat × Word32)) (s : State) :
    (s.replaceDraw c e attempt).watch = s.watch := rfl

@[simp] theorem State.compared_watch (c : Card) (i : Fin 32) (n : Nat) (v : Word32) (salt : Option Salt) (x : Digest) (s : State) :
    (s.compared c i n v salt x).watch = s.watch := by
  unfold State.compared
  dsimp only
  (repeat' split) <;> simp

@[simp] theorem State.claimHash_watch (c : Card) (salt : Salt) (n : Nat) (s : State) : (s.claimHash c salt n).watch = s.watch := rfl

@[simp] theorem State.attemptWritten_watch (c : Card) (i : Fin 32) (r : CredRecord) (ok : Bool) (salt : Option Salt) (ok2 : Bool)
    (s : State) :
    (s.attemptWritten c i r ok salt ok2).watch = s.watch := by
  unfold State.attemptWritten
  (repeat' split) <;> simp

@[simp] theorem State.credVerify_watch (c : Card) (s : State) : (s.credVerify c).watch = s.watch := by
  unfold State.credVerify
  split <;> simp

@[simp] theorem State.enrolAfterGate_watch (c : Card) (s : State) : (s.enrolAfterGate c).watch = s.watch := by
  unfold State.enrolAfterGate
  dsimp only
  (repeat' split) <;> simp

@[simp] theorem State.credGate_watch (next : State → State) (s : State) (hb : ∀ t, (next t).watch = t.watch) :
    (s.credGate next).watch = s.watch := by
  unfold State.credGate
  split <;> simp [hb]

@[simp] theorem State.credEnroll_watch (c : Card) (s : State) : (s.credEnroll c).watch = s.watch := by
  unfold State.credEnroll
  dsimp only
  (repeat' split) <;> simp

@[simp] theorem State.enrolHashed_watch (c : Card) (salt : Salt) (secret : Option SealedSecret) (x : Digest) (s : State) :
    (s.enrolHashed c salt secret x).watch = s.watch := by
  unfold State.enrolHashed
  split <;> simp

@[simp] theorem State.claimHashed_watch (c : Card) (salt : Salt) (n : Nat) (x : Digest) (s : State) :
    (s.claimHashed c salt n x).watch = s.watch := by
  unfold State.claimHashed
  split <;> simp

@[simp] theorem State.releaseSecret_watch (e : CredEntry) (s : State) : (s.releaseSecret e).watch = s.watch := by simp [State.releaseSecret]

@[simp] theorem State.credRelease_watch (c : Card) (s : State) : (s.credRelease c).watch = s.watch := by
  unfold State.credRelease
  split
  · simp
  · refine State.onRecord_watch _ _ _ fun e t => ?_
    (repeat' split) <;> simp

@[simp] theorem State.replaceAfterGate_watch (c : Card) (s : State) : (s.replaceAfterGate c).watch = s.watch := by
  unfold State.replaceAfterGate
  (repeat' split) <;> simp

@[simp] theorem State.credReplace_watch (c : Card) (s : State) : (s.credReplace c).watch = s.watch := by
  unfold State.credReplace
  split
  · simp
  · refine State.onRecord_watch _ _ _ fun e t => ?_
    (repeat' split) <;> simp

@[simp] theorem State.replaceHashed_watch (i : Fin 32) (salt : Salt) (secret : Option SealedSecret) (attempt : Option (Nat × Word32))
    (x : Digest) (s : State) :
    (s.replaceHashed i salt secret attempt x).watch = s.watch := by
  unfold State.replaceHashed
  split <;> simp

@[simp] theorem State.credRemove_watch (c : Card) (s : State) : (s.credRemove c).watch = s.watch := by
  unfold State.credRemove
  split
  · simp
  · refine State.onRecord_watch _ _ _ fun e t => ?_
    (repeat' split) <;> simp

@[simp] theorem State.credDescribe_watch (c : Card) (s : State) : (s.credDescribe c).watch = s.watch := by
  unfold State.credDescribe
  split <;> simp

@[simp] theorem State.decayAll_watch (s : State) : s.decayAll.watch = s.watch := by
  unfold State.decayAll
  split <;> simp

@[simp] theorem State.emptyPlaces_watch (l : List (Fin 32)) (s : State) : (s.emptyPlaces l).watch = s.watch :=
  foldl_watch _ (by simp) l s

@[simp] theorem State.answerCredWipe_watch (w : WipeTally) (s : State) : (s.answerCredWipe w).watch = s.watch := rfl

@[simp] theorem State.credentialWipeOrder_watch (s : State) : s.credentialWipeOrder.watch = s.watch := by
  unfold State.credentialWipeOrder
  dsimp only
  (repeat' split) <;> simp

@[simp] theorem State.credWipeEnd_watch (ok : Bool) (s : State) : (s.credWipeEnd ok).watch = s.watch := by
  unfold State.credWipeEnd
  (repeat' split) <;> simp

@[simp] theorem State.credService_watch (x : Option CredService) (s : State) : (s.credService x).watch = s.watch := rfl

@[simp] theorem State.pairingDraw_watch (l : List Byte) (l2 : List Byte) (p : Policy) (s : State) :
    (s.pairingDraw l l2 p).watch = s.watch := rfl

@[simp] theorem State.pairingRequest_watch (s : State) : s.pairingRequest.watch = s.watch := by
  unfold State.pairingRequest
  dsimp only
  (repeat' split) <;> simp

@[simp] theorem State.pairingHashed_watch (salt : Salt) (l : List Byte) (p : Policy) (x : Digest) (s : State) :
    (s.pairingHashed salt l p x).watch = s.watch := by
  simp [State.pairingHashed]

@[simp] theorem State.pairingEnd_watch (ok : Bool) (s : State) : (s.pairingEnd ok).watch = s.watch := by
  unfold State.pairingEnd
  (repeat' split) <;> simp

@[simp] theorem State.credGateAnswer_watch (ok : Bool) (s : State) : (s.credGateAnswer ok).watch = s.watch := by
  unfold State.credGateAnswer
  (repeat' split) <;> simp

@[simp] theorem State.credBindingAnswer_watch (ok : Bool) (s : State) : (s.credBindingAnswer ok).watch = s.watch := by
  unfold State.credBindingAnswer
  (repeat' split) <;> simp

@[simp] theorem State.credHashEnd_watch (x : Digest) (s : State) : (s.credHashEnd x).watch = s.watch := by
  unfold State.credHashEnd
  (repeat' split) <;> simp

@[simp] theorem State.credHashWithdrawn_watch (s : State) : s.credHashWithdrawn.watch = s.watch := by
  unfold State.credHashWithdrawn
  (repeat' split) <;> simp

@[simp] theorem State.credWriteEnd_watch (w : Write) (ok : Bool) (s : State) : (s.credWriteEnd w ok).watch = s.watch := by
  unfold State.credWriteEnd
  (repeat' split) <;> simp

@[simp] theorem State.refreshEnd_watch (w : Write) (ok : Bool) (s : State) : (s.refreshEnd w ok).watch = s.watch := by
  unfold State.refreshEnd
  (repeat' split) <;> simp

@[simp] theorem State.credWriteOver_watch (w : Write) (s : State) : (s.credWriteOver w).watch = s.watch := by
  unfold State.credWriteOver
  split <;> simp

@[simp] theorem State.resumeAttempt_watch (s : State) : s.resumeAttempt.watch = s.watch := by
  unfold State.resumeAttempt
  (repeat' split) <;> simp

@[simp] theorem State.presenceRequest_watch (s : State) : s.presenceRequest.watch = s.watch := by
  unfold State.presenceRequest
  (repeat' split) <;> simp

@[simp] theorem State.claimRequest_watch (s : State) : s.claimRequest.watch = s.watch := by
  unfold State.claimRequest
  (repeat' split) <;> simp

@[simp] theorem State.claimEnd_watch (ok : Bool) (s : State) : (s.claimEnd ok).watch = s.watch := by
  unfold State.claimEnd
  dsimp only
  (repeat' split) <;> simp

@[simp] theorem State.credAbandon_watch (s : State) : s.credAbandon.watch = s.watch := by
  unfold State.credAbandon
  (repeat' split) <;> simp

/-! ### The measure unit -/

@[simp] theorem State.beginMeasure_watch (code : Word16) (body : Card → State → State) (s : State) (hb : ∀ x t,
    (body x t).watch = t.watch) :
    (s.beginMeasure code body).watch = s.watch := by
  unfold State.beginMeasure
  split <;> simp [hb]

@[simp] theorem State.measureStage_watch (stage : MeasureStage) (s : State) : (s.measureStage stage).watch = s.watch := rfl

@[simp] theorem State.measureHandBack_watch (o : CardOutcome) (d : Option Word32) (b : List OutByte) (s : State) :
    (s.measureHandBack o d b).watch = s.watch := by
  unfold State.measureHandBack
  split <;> simp

@[simp] theorem State.measureBad_watch (n : Nat) (s : State) : (s.measureBad n).watch = s.watch := by simp [State.measureBad]

@[simp] theorem State.measureRefuse_watch (o : CardOutcome) (s : State) : (s.measureRefuse o).watch = s.watch := by
  simp [State.measureRefuse]

@[simp] theorem State.extend_watch (c : Card) (s : State) : (s.extend c).watch = s.watch := by
  unfold State.extend
  (repeat' split) <;> simp

@[simp] theorem State.readChains_watch (c : Card) (s : State) : (s.readChains c).watch = s.watch := by
  unfold State.readChains
  split <;> simp

@[simp] theorem State.readRecords_watch (c : Card) (s : State) : (s.readRecords c).watch = s.watch := by
  unfold State.readRecords
  dsimp only
  (repeat' split) <;> simp

@[simp] theorem State.quoteSigned_watch (l : List Byte) (n : Nat) (sig : Signature) (s : State) :
    (s.quoteSigned l n sig).watch = s.watch := rfl

@[simp] theorem State.resumeMeasure_watch (s : State) : s.resumeMeasure.watch = s.watch := by
  unfold State.resumeMeasure
  (repeat' split) <;> simp

@[simp] theorem State.holdWaitingJob_watch (s : State) : s.holdWaitingJob.watch = s.watch := by
  unfold State.holdWaitingJob
  split <;> simp

@[simp] theorem State.requestsArrive_watch (s : State) : s.requestsArrive.watch = s.watch := by simp [State.requestsArrive]

@[simp] theorem State.endService_watch (s : State) : s.endService.watch = s.watch := by simp [State.endService]

@[simp] theorem State.answerCheck_watch (c : Checker) (ok : Bool) (s : State) : (s.answerCheck c ok).watch = s.watch := by
  unfold State.answerCheck
  dsimp only
  (repeat' split) <;> simp

@[simp] theorem State.measureService_watch (x : MeasureService) (s : State) : (s.measureService x).watch = s.watch := rfl

@[simp] theorem State.serveEvent_watch (s : State) : s.serveEvent.watch = s.watch := by
  unfold State.serveEvent
  split <;> simp

@[simp] theorem State.serveCheck_watch (s : State) : s.serveCheck.watch = s.watch := by
  unfold State.serveCheck
  dsimp only
  (repeat' split) <;> simp

@[simp] theorem State.serveChainRead_watch (s : State) : s.serveChainRead.watch = s.watch := by
  unfold State.serveChainRead
  (repeat' split) <;> simp

@[simp] theorem State.pauseOr_watch (r : MeasureResume) (next : State → State) (s : State) (hb : ∀ t, (next t).watch = t.watch) :
    (s.pauseOr r next).watch = s.watch := by
  unfold State.pauseOr
  split <;> simp [hb]

@[simp] theorem State.measureHashPiece_watch (j : HashJob) (s : State) : (s.measureHashPiece j).watch = s.watch := by
  unfold State.measureHashPiece
  split <;> simp

@[simp] theorem State.measureHashWithdrawn_watch (s : State) : s.measureHashWithdrawn.watch = s.watch := by
  unfold State.measureHashWithdrawn
  (repeat' split) <;> simp

@[simp] theorem State.measureCurveEnd_watch (sig : Signature) (s : State) : (s.measureCurveEnd sig).watch = s.watch := by
  unfold State.measureCurveEnd
  (repeat' split) <;> simp

@[simp] theorem State.measureAbandon_watch (s : State) : s.measureAbandon.watch = s.watch := by
  unfold State.measureAbandon
  (repeat' split) <;> simp

/-! ### Start-up -/

@[simp] theorem State.startStep2_watch (s : State) : s.startStep2.watch = s.watch := by simp [State.startStep2]

@[simp] theorem State.startStep3_watch (s : State) : s.startStep3.watch = s.watch := rfl

@[simp] theorem State.startStep4_watch (s : State) : s.startStep4.watch = s.watch := rfl

@[simp] theorem State.atStep_watch (x : StartUp) (s : State) : (s.atStep x).watch = s.watch := rfl

@[simp] theorem State.startStep8_watch (s : State) : s.startStep8.watch = s.watch := by
  unfold State.startStep8
  dsimp only
  (repeat' split) <;> simp

@[simp] theorem State.startStep6_watch (s : State) : s.startStep6.watch = s.watch := rfl

/-! ### The rows that leave the watch as it is -/

@[simp] theorem State.whenReachable_watch (next : State → State) (s : State) (hb : ∀ t, (next t).watch = t.watch) :
    (s.whenReachable next).watch = s.watch := by
  unfold State.whenReachable
  split <;> simp [hb]

@[simp] theorem State.setEnable_watch (enable : Bool) (s : State) : (s.setEnable enable).watch = s.watch := by
  unfold State.setEnable
  dsimp only
  split <;> simp

@[simp] theorem State.writeAck_watch (v : Word32) (s : State) : (s.writeAck v).watch = s.watch := by
  unfold State.writeAck
  dsimp only
  split <;> simp

@[simp] theorem State.clearAttention_watch (v : Word32) (s : State) : (s.clearAttention v).watch = s.watch := rfl

@[simp] theorem State.nudge_watch (s : State) : s.nudge.watch = s.watch := by
  unfold State.nudge
  (repeat' split) <;> simp

@[simp] theorem State.hostStores_watch (h : HostWrites) (s : State) : (s.hostStores h).watch = s.watch := rfl

@[simp] theorem State.writePage_watch (page off : Nat) (l : List Byte) (s : State) : (s.writePage page off l).watch = s.watch := rfl

@[simp] theorem State.writeOutput_watch (c : Card) (ok : Bool) (n : Nat) (l : List Byte) (s : State) :
    (s.writeOutput c ok n l).watch = s.watch := rfl

@[simp] theorem State.stopFetcher_watch (s : State) : s.stopFetcher.watch = s.watch := rfl

@[simp] theorem State.enterFaulted_watch (f : FaultCode) (n : Nat) (b : Bool) (s : State) : (s.enterFaulted f n b).watch = s.watch := by
  unfold State.enterFaulted
  split
  · refine (foldl_watch _ (fun s c => State.freeBuffer_watch c s) _ _).trans ?_
    dsimp only
    split <;> simp
  · rfl

@[simp] theorem State.finishOpening_watch (s : State) : s.finishOpening.watch = s.watch := rfl

@[simp] theorem State.openArea_watch (h : HostWrites) (a : OpenAnswer) (s : State) : (s.openArea h a).watch = s.watch := by
  unfold State.openArea State.controlIgnored
  dsimp only
  (repeat' split) <;> simp

@[simp] theorem State.closeWhenEmpty_watch (s : State) : s.closeWhenEmpty.watch = s.watch := by
  unfold State.closeWhenEmpty
  split <;> simp

@[simp] theorem State.closeCommand_watch (s : State) : s.closeCommand.watch = s.watch := by
  unfold State.closeCommand State.controlIgnored
  dsimp only
  (repeat' split) <;> simp

@[simp] theorem State.abandonUnbegun_watch (b : Buffer) (s : State) : (s.abandonUnbegun b).watch = s.watch := by
  unfold State.abandonUnbegun
  dsimp only
  split <;> simp

@[simp] theorem State.noCard_watch (s : State) : s.noCard.watch = s.watch := by
  unfold State.noCard
  split <;> simp

@[simp] theorem State.candidateFound_watch (n : Nat) (c : Card) (s : State) : (s.candidateFound n c).watch = s.watch := by
  unfold State.candidateFound State.holdFetcher
  (repeat' split) <;> simp

@[simp] theorem State.wrongTicket_watch (n : Nat) (s : State) : (s.wrongTicket n).watch = s.watch := by
  unfold State.wrongTicket
  split <;> simp

@[simp] theorem State.readChain_watch (s : State) : s.readChain.watch = s.watch := by
  unfold State.readChain
  dsimp only
  (repeat' split) <;> simp

@[simp] theorem State.completeOpening_watch (s : State) : s.completeOpening.watch = s.watch := by
  unfold State.completeOpening
  (repeat' split) <;> simp

@[simp] theorem State.readingPass_watch (h : HostWrites) (s : State) : (s.readingPass h).watch = s.watch := by
  unfold State.readingPass
  (repeat' split) <;> simp

@[simp] theorem State.routeCard_watch (c : Card) (s : State) : (s.routeCard c).watch = s.watch := by
  unfold State.routeCard
  dsimp only
  (repeat' split) <;> simp

@[simp] theorem State.cardTake_watch (h : HostWrites) (s : State) : (s.cardTake h).watch = s.watch := by
  unfold State.cardTake State.takeCard
  dsimp only
  (repeat' split) <;> simp

@[simp] theorem State.writeReply_watch (e : Settlement) (s : State) : (s.writeReply e).watch = s.watch := by
  simp [State.writeReply]

@[simp] theorem State.writeSettled_watch (e : Settlement) (s : State) : (s.writeSettled e).watch = s.watch := rfl

@[simp] theorem State.unhold_watch (s : State) : s.unhold.watch = s.watch := by
  unfold State.unhold
  split <;> simp

@[simp] theorem State.closeIfDone_watch (s : State) : s.closeIfDone.watch = s.watch := by
  unfold State.closeIfDone
  split <;> simp

@[simp] theorem State.tallySettle_watch (e : Settlement) (rest : List Settlement) (s : State) :
    (s.tallySettle e rest).watch = s.watch := by
  unfold State.tallySettle
  dsimp only
  split <;> simp

@[simp] theorem State.settleCard_watch (s : State) : s.settleCard.watch = s.watch := by
  unfold State.settleCard
  (repeat' split) <;> simp

@[simp] theorem State.openingFault_watch (a : OpenAnswer) (fails : State → State) (h : HostWrites) (s : State)
    (hb : ∀ t, (fails t).watch = t.watch) : (s.openingFault a fails h).watch = s.watch := by
  unfold State.openingFault
  split <;> simp [hb]

@[simp] theorem State.passFault_watch (fails : State → State) (h : HostWrites) (s : State) (hb : ∀ t, (fails t).watch = t.watch) :
    (s.passFault fails h).watch = s.watch := by
  unfold State.passFault
  split <;> simp [hb]

@[simp] theorem State.takeFault_watch (f : FaultCode) (before : Nat → State → State) (h : HostWrites) (b : Bool) (s : State)
    (hb : ∀ n t, (before n t).watch = t.watch) : (s.takeFault f before h b).watch = s.watch := by
  unfold State.takeFault
  (repeat' split) <;> simp [hb]

@[simp] theorem State.settleFault_watch (before : Settlement → State → State) (card : Settlement → Nat) (h : HostWrites) (b : Bool)
    (s : State) (hb : ∀ e t, (before e t).watch = t.watch) : (s.settleFault before card h b).watch = s.watch := by
  unfold State.settleFault
  (repeat' split) <;> simp [hb]

@[simp] theorem State.accessFails_watch (x : FailedAccess) (h : HostWrites) (b : Bool) (s : State) :
    (s.accessFails x h b).watch = s.watch := by
  unfold State.accessFails
  split
  · simp
  · simp
  · exact State.openingFault_watch _ _ _ _ fun t => by split <;> simp
  · simp
  · exact State.passFault_watch _ _ _ fun t => by split <;> simp
  · simp
  · simp
  · exact State.takeFault_watch _ _ _ _ _ fun n t => State.writePage_watch _ _ _ t
  all_goals simp

@[simp] theorem State.storedDebtRefresh_watch (s : State) : s.storedDebtRefresh.watch = s.watch := by
  unfold State.storedDebtRefresh
  split <;> simp

@[simp] theorem State.decayStep_watch (s : State) : s.decayStep.watch = s.watch := by
  unfold State.decayStep
  split <;> simp

@[simp] theorem State.periodExpiry_watch (s : State) : s.periodExpiry.watch = s.watch := by
  unfold State.periodExpiry
  split <;> simp

@[simp] theorem State.cutAccesses_watch (named : DmaUnit → Bool) (s : State) : (s.cutAccesses named).watch = s.watch := rfl

@[simp] theorem State.linkLoss_watch (s : State) : s.linkLoss.watch = s.watch := by
  unfold State.linkLoss
  split <;> simp

@[simp] theorem State.linkReturn_watch (s : State) : s.linkReturn.watch = s.watch := by
  unfold State.linkReturn
  split <;> simp

@[simp] theorem State.closeChain_watch (c : Card) (s : State) : (s.closeChain c).watch = s.watch := by
  unfold State.closeChain
  (repeat' split) <;> simp

@[simp] theorem State.quote_watch (c : Card) (s : State) : (s.quote c).watch = s.watch := by
  unfold State.quote
  (repeat' split) <;> simp

@[simp] theorem State.applyExtension_watch (i : Fin 12) (e : Word16) (d v : Digest) (s : State) :
    (s.applyExtension i e d v).watch = s.watch := by
  unfold State.applyExtension State.addRecord State.setChain
  dsimp only
  (repeat' split) <;> simp

@[simp] theorem State.measureHashEnd_watch (x : Digest) (s : State) : (s.measureHashEnd x).watch = s.watch := by
  have hpause (r : MeasureResume) (j : HashJob) (t : State) : (t.pauseOr r fun t => t.hashSubmit .measure j).watch = t.watch :=
    State.pauseOr_watch _ _ _ fun t => t.hashSubmit_watch .measure j
  unfold State.measureHashEnd State.serviceHashEnd State.cardHashEnd
  dsimp only
  (repeat' split) <;> simp [hpause]

@[simp] theorem State.answerWaiters_watch (s : State) : s.answerWaiters.watch = s.watch := by
  have hone (b : Bool) (s : State) (w : Waiter) : (s.answerWaiter b w).watch = s.watch := by cases w <;> simp [State.answerWaiter]
  unfold State.answerWaiters
  split
  · rfl
  · exact foldl_watch _ (hone true) _ _
  · exact foldl_watch _ (hone false) _ _

@[simp] theorem State.censusFails_watch (s : State) : s.censusFails.watch = s.watch := by simp [State.censusFails]

@[simp] theorem State.extentDmaEnd_watch (u : DmaUnit) (h : HostWrites) (r : DmaResult) (s : State) :
    (s.extentDmaEnd u h r).watch = s.watch := by
  have hended (ok : Bool) (n : Nat) (t : State) : (t.dmaEnded u ok n).watch = t.watch := by
    cases u <;> unfold State.dmaEnded <;>
      dsimp only [State.custodyDmaEnd, State.measureDmaEnd, State.updateDmaEnd, State.lifeDmaEnd] <;> (repeat' split) <;> simp
  unfold State.extentDmaEnd
  split <;> simp [hended]

@[simp] theorem State.takeBoot_watch (k : Fin 8) (r : KindRecord) (s : State) : (s.takeBoot k r).watch = s.watch := by
  unfold State.takeBoot State.trialLapse
  split <;> simp

@[simp] theorem State.leaveQueue_watch (s : State) : s.leaveQueue.watch = s.watch := by simp [State.leaveQueue]

end Sys2Proof.Machine
end

