-- ==== Sys2Proof/Proofs/GuardAndRelease.lean ====
section
/-! SUPPORT. What enters or leaves CHECKED moves the guard line with it, and what sets or clears release pending moves release progress with
it: both invariants over every row (R80, R119). -/
namespace Sys2Proof.Machine

/-! ### The rows that change the watch -/

/-- Both invariants, as far as they held of what was watched before, hold of what is watched now. -/
def Watch.Keeps (w v : Watch) : Prop :=
  (w.guard = w.checked → v.guard = v.checked) ∧ (w.pending = w.progressing → v.pending = v.progressing)

@[simp] theorem Watch.Keeps.refl (w : Watch) : w.Keeps w := ⟨id, id⟩

theorem Watch.Keeps.trans {w v u : Watch} (h : w.Keeps v) (k : v.Keeps u) : w.Keeps u := ⟨k.1 ∘ h.1, k.2 ∘ h.2⟩

/-- A step in two acts, of which the first leaves the watch as it is. -/
theorem Watch.Keeps.after {w v u : Watch} (k : v.Keeps u) (h : v = w) : w.Keeps u := h ▸ k

theorem Watch.Keeps.of_eq {w v : Watch} (h : v = w) : w.Keeps v := h ▸ .refl v

/-- A session entered or left together with the guard line (R80). -/
@[simp] theorem State.keeps_session (s : State) {g : Bool} {x : Session} (h : g = decide (x.code = 2)) :
    s.watch.Keeps (watchOf g x s.lifecycle.pending s.lifecycle.progress) := ⟨fun _ => h, id⟩

/-- Release pending set or cleared together with release progress (R119). -/
@[simp] theorem State.keeps_release (s : State) {b : Bool} {p : Progress} (h : b = decide (p ≠ .none)) :
    s.watch.Keeps (watchOf s.update.guardOn s.update.session b p) := ⟨id, fun _ => h⟩

/-- Release progress that goes on from a state other than NONE to another. -/
theorem State.watch_progress {s t : State} (hg : t.update.guardOn = s.update.guardOn) (hx : t.update.session = s.update.session)
    (hl : t.lifecycle.pending = s.lifecycle.pending) (h : s.lifecycle.progress ≠ .none) (ht : t.lifecycle.progress ≠ .none) :
    t.watch = s.watch := by
  simp only [State.watch, watchOf, hg, hx, hl, ne_eq, h, ht]

/-! #### The update session (R72, R80) -/

theorem State.leaveChecked_keeps (s : State) : s.watch.Keeps s.leaveChecked.watch := s.keeps_session rfl

theorem State.dropSession_keeps (s : State) : s.watch.Keeps s.dropSession.watch := by
  unfold State.dropSession
  split
  · exact s.leaveChecked_keeps
  · exact .of_eq (State.watch_openSession ‹_› (by simp [Session.code]))
  · exact .refl _

theorem State.guardExpiry_keeps (s : State) : s.watch.Keeps s.guardExpiry.watch := by
  unfold State.guardExpiry
  split
  · rw [State.serveHeldWipe_watch]
    exact s.leaveChecked_keeps
  · exact .refl _

theorem State.manifestVerified_keeps (c : Card) (s : State) : s.watch.Keeps (s.manifestVerified c).watch := by
  unfold State.manifestVerified
  dsimp only
  (repeat' split) <;> simp [Session.code]

theorem State.feedEnd_keeps (x : Digest) (s : State) : s.watch.Keeps (s.feedEnd x).watch := by
  unfold State.feedEnd
  split
  · next y hy =>
    split
    · simp [Session.code]
    · rw [State.updateHandBack_watch]
      exact .of_eq (State.watch_openSession hy (by simp [Session.code]))
  all_goals simp

theorem State.commitDone_keeps (k : Fin 8) (r : KindRecord) (s : State) : s.watch.Keeps (s.commitDone k r).watch := by
  have h := State.leaveChecked_keeps (s.setKind k r)
  rw [State.setKind_watch] at h
  unfold State.commitDone
  rw [State.updateHandBack_watch]
  exact h

theorem State.updateCancel_keeps (c : Card) (s : State) : s.watch.Keeps (s.updateCancel c).watch := by
  unfold State.updateCancel
  split
  · simp
  · rw [State.updateHandBack_watch]
    exact s.dropSession_keeps

theorem State.updateHashEnd_keeps (x : Digest) (s : State) : s.watch.Keeps (s.updateHashEnd x).watch := by
  unfold State.updateHashEnd
  cases s.update.work with
  | none => exact .refl _
  | some w =>
    dsimp only
    cases w.stage with
    | verifyHash pub => exact .of_eq ((State.curveSubmit_watch _ _ _).trans (State.updateStage_watch _ s))
    | feed => exact s.feedEnd_keeps x
    | confirmHash => exact .of_eq (State.confirmExpect_watch _ _ s)
    | _ => exact .refl _

theorem State.updateHashWithdrawn_keeps (s : State) : s.watch.Keeps s.updateHashWithdrawn.watch := by
  unfold State.updateHashWithdrawn
  repeat' split
  · exact .refl _
  · rw [State.updateRefuse_watch]
    exact s.dropSession_keeps
  all_goals exact .refl _

theorem State.updateCurveEnd_keeps (valid : Bool) (s : State) : s.watch.Keeps (s.updateCurveEnd valid).watch := by
  have hmanifest := fun c => s.manifestVerified_keeps c
  unfold State.updateCurveEnd
  (repeat' split) <;> simp [hmanifest]

theorem State.updateWriteEnd_keeps (w : Write) (ok : Bool) (s : State) : s.watch.Keeps (s.updateWriteEnd w ok).watch := by
  have hcommit := fun k r => s.commitDone_keeps k r
  have hfault := (s.updateRefuse .storeFault).guardExpiry_keeps.after (s.updateRefuse_watch .storeFault)
  unfold State.updateWriteEnd
  (repeat' split) <;> simp [hcommit, hfault]

theorem State.updateAbandon_keeps (s : State) : s.watch.Keeps s.updateAbandon.watch := by
  have hdrop := (s.hashWithdraw .update).dropSession_keeps.after (s.hashWithdraw_watch .update)
  unfold State.updateAbandon
  dsimp only
  (repeat' split) <;> simp [hdrop]

/-! #### Release progress (R119, R131 to R135) -/

theorem State.takeRelease_keeps (s : State) : s.watch.Keeps s.takeRelease.watch := by
  unfold State.takeRelease
  simp

theorem State.ownershipRelease_keeps (c : Card) (s : State) : s.watch.Keeps (s.ownershipRelease c).watch := by
  have htake := ((s.lifeStage .release).lifeCommit).takeRelease_keeps.after (w := s.watch) (by simp)
  unfold State.ownershipRelease
  (repeat' split) <;> simp [htake]

theorem State.ownerReleaseHold_keeps (s : State) : s.watch.Keeps s.ownerReleaseHold.watch := by
  unfold State.ownerReleaseHold
  dsimp only
  repeat' split
  · exact (State.takeRelease_keeps _).after rfl
  all_goals exact .refl _

theorem State.sendWipeOrders_watch {s : State} (h : s.lifecycle.progress ≠ .none) : s.sendWipeOrders.watch = s.watch :=
  State.watch_progress rfl rfl rfl h (by simp [State.sendWipeOrders])

theorem State.markerEnd_keeps (ok : Bool) (s : State) : s.watch.Keeps (s.markerEnd ok).watch := by
  unfold State.markerEnd
  split
  · exact .refl _
  · next h =>
    have hp : s.lifecycle.progress ≠ .none := by rw [not_not.mp h]; decide
    dsimp only
    split
    · refine .of_eq ?_
      rw [State.settleRelease_watch]
      split
      · exact State.watch_progress rfl rfl rfl hp (by simp)
      all_goals exact State.sendWipeOrders_watch (s := { s with lifecycle := { s.lifecycle with marker := true } }) hp
    · simp

theorem State.closingEnd_keeps (ok : Bool) (s : State) : s.watch.Keeps (s.closingEnd ok).watch := by
  unfold State.closingEnd
  split
  · exact .refl _
  · next h =>
    split
    · simp
    · exact .of_eq (State.watch_progress rfl rfl rfl (by simp [not_not.mp h]) (by simp))

theorem State.answersComplete_watch (x : WipeCounts) (s : State) : (s.answersComplete x).watch = s.watch := by
  unfold State.answersComplete
  split
  · rfl
  · next h =>
    have hp : s.lifecycle.progress ≠ .none := by rw [not_not.mp h]; decide
    dsimp only
    split
    · exact State.watch_progress rfl rfl rfl hp (by simp)
    · rw [State.send_watch]
      exact State.watch_progress rfl rfl rfl hp (by simp)

@[simp] theorem State.wipeAnswer_watch (u : WipeUnit) (s : State) : (s.wipeAnswer u).watch = s.watch := by
  unfold State.wipeAnswer
  dsimp only
  (repeat' split) <;> simp [State.answersComplete_watch]

@[simp] theorem State.sessionLeftChecked_watch (s : State) : s.sessionLeftChecked.watch = s.watch := by
  unfold State.sessionLeftChecked
  dsimp only
  split
  · split
    · next h =>
      refine State.sendWipeOrders_watch (s := { s with lifecycle := { s.lifecycle with notices := s.lifecycle.notices - 1 } }) ?_
      rw [h]
      decide
    · rfl
  · rfl

/-! #### Start-up and the pace clock (R135, R155, R164) -/

theorem State.startStep7_keeps (s : State) : s.watch.Keeps s.startStep7.watch := by
  unfold State.startStep7
  split
  · next h => exact s.keeps_release h
  · simp

theorem State.startUpGoesOn_keeps (s : State) : s.watch.Keeps s.startUpGoesOn.watch := by
  have h7 := s.startStep7_keeps
  unfold State.startUpGoesOn
  (repeat' split) <;> simp [h7]

theorem State.startStep5_keeps (s : State) : s.watch.Keeps s.startStep5.watch := by
  unfold State.startStep5
  exact (State.startUpGoesOn_keeps _).after rfl

theorem State.beginStep4_keeps (s : State) : s.watch.Keeps s.beginStep4.watch := by
  have h5 := s.startStep4.startStep5_keeps.after s.startStep4_watch
  unfold State.beginStep4
  dsimp only
  split <;> simp [h5]

theorem State.beginStartUp_keeps (s : State) : s.watch.Keeps s.beginStartUp.watch := by
  have hplaced : s.watch.Keeps s.recordsPlaced.watch := by
    unfold State.recordsPlaced
    refine s.keeps_release ?_
    show (s.store.settled.lifecycle.loaded.getD LifeRecord.fresh).marker = _
    cases h : (s.store.settled.lifecycle.loaded.getD LifeRecord.fresh).marker <;>
      simp [State.startStep3, State.startStep2, State.startStep1, h]
  rw [State.beginStartUp_placed]
  split
  · exact hplaced.trans s.recordsPlaced.beginStep4_keeps
  · simpa using hplaced

theorem State.censusEnd_keeps (a b r : Byte) (bounded : Bool) (jitter : List Byte) (s : State) :
    s.watch.Keeps (s.censusEnd a b r bounded jitter).watch := by
  unfold State.censusEnd
  split
  · refine (State.startUpGoesOn_keeps _).after ?_
    dsimp only
    split <;> simp
  · exact .refl _

theorem State.paceTick_keeps (low : Bool) (s : State) : s.watch.Keeps (s.paceTick low).watch := by
  have hflush : s.watch.Keeps s.flushTick.watch := by
    refine .trans (v := s.presenceExpiry.decayStep.storedDebtRefresh.idleExpiry.guardExpiry.watch) ?_ ?_
    · exact (State.guardExpiry_keeps _).after (by simp)
    · exact (State.ownerReleaseHold_keeps _).after (by simp)
  unfold State.paceTick
  dsimp only
  split <;> simpa using hflush

/-! #### The engines, the store and an ABANDON -/

theorem State.pieceEnded_keeps (run : HashRun) (ok : Bool) (s : State) : s.watch.Keeps (s.pieceEnded run ok).watch := by
  obtain ⟨client, job, withdrawn⟩ := run
  cases client with
  | update =>
    unfold State.pieceEnded
    dsimp only
    split
    · exact s.updateHashWithdrawn_keeps
    · split
      · simp [State.hashFault]
      · split
        · refine .after ?_ (s.updateHashPiece_watch (job.pieceBytes s.host).length (job.afterPiece s.host).absorbed)
          unfold State.jobEnded
          split
          · exact State.updateHashEnd_keeps _ _
          · simp [State.hashContinued, State.pieceNotice]
        · simp [State.pieceGoesOn, State.pieceNotice]
  | _ =>
    unfold State.pieceEnded State.jobEnded
    dsimp only [State.hashWithdrawn, State.hashFault, State.pieceNotice, State.hashEnded, State.hashContinued, State.pieceGoesOn]
    (repeat' split) <;> simp

theorem State.hashPieceEnd_keeps (h : HostWrites) (answered : Bool) (s : State) : s.watch.Keeps (s.hashPieceEnd h answered).watch := by
  unfold State.hashPieceEnd
  split
  · exact .refl _
  · exact (State.pieceEnded_keeps _ _ (s.atPieceEnd h _)).after rfl

theorem State.curveComplete_keeps (s : State) : s.watch.Keeps s.curveComplete.watch := by
  have hended (run : CurveRun) (t : State) : t.watch.Keeps (t.curveEnded run).watch := by
    have hupdate := fun v => t.updateCurveEnd_keeps v
    unfold State.curveEnded
    dsimp only
    (repeat' split) <;> simp [hupdate]
  unfold State.curveComplete
  split
  · exact .refl _
  · exact (hended _ (s.atOperationEnd _)).after rfl

theorem State.startRemovalEnd_keeps (s : State) : s.watch.Keeps s.startRemovalEnd.watch := by
  have h4 := s.beginStep4_keeps
  unfold State.startRemovalEnd
  (repeat' split) <;> simp [h4]

theorem State.startKindEnd_keeps (w : Write) (ok : Bool) (s : State) : s.watch.Keeps (s.startKindEnd w ok).watch := by
  have hwritten : (s.bootWritten w ok).watch = s.watch := by
    unfold State.bootWritten
    (repeat' split) <;> simp
  by_cases hstep : ∃ n, s.startUp = .step4 n
  · obtain ⟨n, hn⟩ := hstep
    rw [State.startKindEnd_step4 w ok hn]
    split
    · exact (State.startStep5_keeps _).after hwritten
    · simp [hwritten]
  · rw [State.startKindEnd_other w ok fun n hn => hstep ⟨n, hn⟩, hwritten]
    exact .refl _

theorem State.answerWrite_keeps (r : WriteRequest) (ok : Bool) (s : State) : s.watch.Keeps (s.answerWrite r ok).watch := by
  obtain ⟨w, a⟩ := r
  cases a with
  | credStartUp => exact s.startRemovalEnd_keeps
  | updateCard => exact s.updateWriteEnd_keeps w ok
  | updateStartUp => exact s.startKindEnd_keeps w ok
  | lifeMarker => exact s.markerEnd_keeps ok
  | lifeClosing => exact (s.closingEnd_keeps ok).trans (State.startUpGoesOn_keeps _)
  | _ => simp [State.answerWrite]

theorem State.storeWriteEnd_keeps (first second : Bool) (s : State) : s.watch.Keeps (s.storeWriteEnd first second).watch := by
  unfold State.storeWriteEnd
  split
  · exact .refl _
  · dsimp only
    rw [State.leaveQueue_watch]
    refine (State.answerWrite_keeps _ _ _).after ?_
    split <;> simp

theorem State.abandonCommand_keeps (s : State) : s.watch.Keeps s.abandonCommand.watch := by
  have hnotices (t : State) : t.watch.Keeps t.abandonNotices.watch := by
    unfold State.abandonNotices
    simpa using (State.updateAbandon_keeps _).after (show t.custodyAbandon.measureAbandon.watch = t.watch by simp)
  have harea : s.watch.Keeps s.abandonArea.watch := by
    unfold State.abandonArea
    rw [State.closeWhenEmpty_watch]
    exact (hnotices _).after (foldl_watch _ (fun s b => State.abandonUnbegun_watch b s) _ _)
  unfold State.abandonCommand State.controlIgnored
  split <;> simp [harea]

theorem State.writeRegister_keeps (o : BitVec 5) (v : Word32) (s : State) : s.watch.Keeps (s.writeRegister o v).watch := by
  have hcontrol : s.watch.Keeps (s.writeControl v).watch := by
    have habandon := (s.setEnable (v.getLsbD 8)).abandonCommand_keeps.after (s.setEnable_watch _)
    unfold State.writeControl
    dsimp only
    split
    case h_4 => exact habandon
    all_goals simp
  unfold State.writeRegister State.writeBase
  (repeat' split) <;> simp [hcontrol]

/-! ### Every row -/

/-- A row that a part without supply does not carry out. -/
theorem State.whenPowered_keeps (next : State → State) (s : State) (h : s.watch.Keeps (next s).watch) :
    s.watch.Keeps (s.whenPowered next).watch := by
  unfold State.whenPowered
  split
  · exact h
  · exact .refl _

theorem State.whenReachable_keeps (next : State → State) (s : State) (h : s.watch.Keeps (next s).watch) :
    s.watch.Keeps (s.whenReachable next).watch := by
  unfold State.whenReachable
  split
  · exact h
  · exact .refl _

theorem State.beginUpdate_keeps (code : Word16) (stage : UpdateStage) (body : Card → State → State) (s : State)
    (h : ∀ (c : Card) (t : State), t.watch.Keeps (body c t).watch) : s.watch.Keeps (s.beginUpdate code stage body).watch := by
  unfold State.beginUpdate
  split
  · exact (h _ _).after rfl
  · exact .refl _

theorem State.beginLife_keeps (code : Word16) (stage : LifeStage) (body : Card → State → State) (s : State)
    (h : ∀ (c : Card) (t : State), t.watch.Keeps (body c t).watch) : s.watch.Keeps (s.beginLife code stage body).watch := by
  unfold State.beginLife
  split
  · exact (h _ _).after rfl
  · exact .refl _

/-- After a reset of every block the guard line is released with the session IDLE, and no release is pending (R167). -/
theorem State.keeps_cleared {s t : State} (hu : t.update = Update.reset) (hl : t.lifecycle = Lifecycle.reset) :
    s.watch.Keeps t.watch := by
  unfold State.watch
  rw [hu, hl]
  exact ⟨fun _ => rfl, fun _ => rfl⟩

theorem keeps_of_exec {c : Instr} {s t u : State} (h : exec c s = .next t) (e : exec c s = .next u) (hu : s.watch.Keeps u.watch) :
    s.watch.Keeps t.watch := by
  cases h.symm.trans e
  exact hu

theorem exec_keeps {c : Instr} {s t : State} (h : exec c s = .next t) : s.watch.Keeps t.watch := by
  cases c with
  | startUp =>
    refine keeps_of_exec h rfl ?_
    split
    · exact s.beginStartUp_keeps
    · exact .refl _
  | powerUp =>
    refine keeps_of_exec h rfl ?_
    unfold State.powerUp
    split
    · exact .refl _
    · exact State.keeps_cleared rfl rfl
  | powerLoss cut => exact keeps_of_exec h rfl (s.whenPowered_keeps _ (State.keeps_cleared rfl rfl))
  | platformReset b =>
    refine keeps_of_exec h rfl (s.whenPowered_keeps _ ?_)
    unfold State.resetLineSet
    repeat' split
    · exact .refl _
    · exact State.keeps_cleared rfl rfl
    · exact .refl _
  | areaAbandon b =>
    exact keeps_of_exec h rfl (s.whenReachable_keeps _ ((State.abandonCommand_keeps _).after (s.setEnable_watch b)))
  | registerWrite o v => exact keeps_of_exec h rfl (s.whenReachable_keeps _ (s.writeRegister_keeps o v))
  | attentionClear v => exact keeps_of_exec h rfl (.of_eq (State.whenReachable_watch _ _ (State.clearAttention_watch v)))
  | factoryRoot =>
    exact keeps_of_exec h rfl (.of_eq (State.beginLife_watch _ _ _ s fun c t => State.factory_watch _ _ c t State.factoryRoot_watch))
  | factoryPairing =>
    exact keeps_of_exec h rfl (.of_eq (State.beginLife_watch _ _ _ s fun c t => State.factory_watch _ _ c t State.factoryPairing_watch))
  | updateCancel => exact keeps_of_exec h rfl (s.beginUpdate_keeps _ _ _ State.updateCancel_keeps)
  | ownershipRelease => exact keeps_of_exec h rfl (s.beginLife_keeps _ _ _ State.ownershipRelease_keeps)
  | ownerReleaseHold => exact keeps_of_exec h rfl (s.whenPowered_keeps _ s.ownerReleaseHold_keeps)
  | paceTick low => exact keeps_of_exec h rfl (s.whenPowered_keeps _ (s.paceTick_keeps low))
  | guardTimerExpiry => exact keeps_of_exec h rfl (s.whenPowered_keeps _ s.guardExpiry_keeps)
  | censusRunEnd a b r bounded jitter =>
    exact keeps_of_exec h rfl (s.whenPowered_keeps _ (s.censusEnd_keeps a b r bounded jitter))
  | hashPieceEnd stores answered =>
    exact keeps_of_exec h rfl (s.whenPowered_keeps _ ((s.hashPieceEnd_keeps stores answered).trans (State.startUpGoesOn_keeps _)))
  | curveOperationComplete => exact keeps_of_exec h rfl (s.whenPowered_keeps _ s.curveComplete_keeps)
  | storeWriteEnd first second => exact keeps_of_exec h rfl (s.whenPowered_keeps _ (s.storeWriteEnd_keeps first second))
  | wipeAnswer u =>
    exact keeps_of_exec h rfl (s.whenPowered_keeps _ ((State.startUpGoesOn_keeps _).after (s.wipeAnswer_watch u)))
  | partEvent =>
    refine keeps_of_exec h rfl (s.whenPowered_keeps _ ?_)
    simpa using (State.startUpGoesOn_keeps _).after s.requestsArrive_watch
  | _ => exact keeps_of_exec h rfl (.of_eq (by simp))

/-- Settles O8: every row keeps both, whatever the part was before. -/
theorem stepsKeepTheGuardLineAndReleasePending : Obligations.StepsKeepTheGuardLineAndReleasePending := by
  have hstep {s t : State} (h : step s = .next t) : s.watch.Keeps t.watch := by
    unfold step at h
    split at h
    · cases h
      exact .refl _
    · exact (exec_keeps h).after rfl
  exact ⟨fun s t hs h => (hstep h).1 hs, fun s t hs h => (hstep h).2 hs⟩

end Sys2Proof.Machine
end

