-- ==== Sys2Proof/Proofs/UpdateCards.lean ====
section
/-! SUPPORT. How the update unit begins its cards, the checks of its anchor and session cards, and the settling of O32. -/
namespace Sys2Proof.Machine

/-! ### A card of the update unit begins -/

/-- The part with a card of the update unit begun and in work. -/
def State.updateBegun (s : State) (c : Card) (stage : UpdateStage) : State :=
  { s.begins c with update := { s.update with work := working c stage false } }

theorem State.beginUpdate_eq {s : State} {code : Word16} {c : Card} (stage : UpdateStage) (body : Card → State → State)
    (h : s.updateReady code = some c) : s.beginUpdate code stage body = body c (s.updateBegun c stage) := by
  unfold State.beginUpdate
  rw [h]
  rfl

/-- A card of the update unit that is begun and refused in one act. -/
theorem State.updateBegun_handBack {s : State} (c : Card) (stage : UpdateStage) (o : CardOutcome) (d : Option Word32) (b : List OutByte)
    (h : s.carries) (hh : s.update.wipe ≠ .held) : (s.updateBegun c stage).updateHandBack o d b =
      { (s.begins c).givesBack c o d b with update := { s.update with work := none } } :=
  State.updateHandBack_eq (s := s.updateBegun c stage) (w := { card := c, stage := stage, abandoned := false, committed := false })
    o d b rfl h hh

/-! ### The slots that the cards name (R62, R196) -/

/-- A number below 48 in a card's body is the slot it names. -/
theorem Card.slot_val {c : Card} {off : Nat} (h : c.field off 1 < 48) : (c.slot off).val = c.field off 1 := by
  unfold Card.slot slotIndex
  rw [dif_pos h]
  rfl

theorem firstBad_cons {bad : Bool} {n : Nat} {t : List (Bool × Nat)} :
    firstBad ((bad, n) :: t) = none ↔ bad = false ∧ firstBad t = none := by
  cases bad <;> simp [firstBad]

theorem isDelegateSlot_iff {n : Nat} : isDelegateSlot n = true ↔ 2 ≤ n ∧ n ≤ 4 := by simp [isDelegateSlot]

/-- An ANCHOR INSTALL of a good form that does not name slot 5 names a delegate slot (R64). -/
theorem anchorInstallForm_delegate {c : Card} (h : anchorInstallForm c = none) (h5 : c.field 0 1 ≠ 5) :
    2 ≤ c.field 0 1 ∧ c.field 0 1 ≤ 4 := by
  unfold anchorInstallForm at h
  simp only [if_neg h5, extraExtents, firstBad_cons, Bool.not_eq_false', isDelegateSlot_iff] at h
  exact h.2.1

/-- An ANCHOR REMOVE of a good form that does not name slot 5 names a delegate slot (R67). -/
theorem anchorRemoveForm_delegate {c : Card} (h : anchorRemoveForm c = none) (h5 : c.field 0 1 ≠ 5) :
    2 ≤ c.field 0 1 ∧ c.field 0 1 ≤ 4 := by
  unfold anchorRemoveForm at h
  simp only [if_neg h5, extraExtents, firstBad_cons, Bool.not_eq_false', isDelegateSlot_iff] at h
  exact h.2.1

/-! ### The signed bytes go to the hash engine (R64, R67, R73) -/

/-- A card begun whose signed bytes go to the hash engine at once. -/
theorem State.updateBegun_verifySigned (s : State) (c : Card) (stage : UpdateStage) (pub : PublicKey) (l : List Byte) :
    (s.updateBegun c stage).verifySigned pub l =
      { s.begins c with
        update := { s.update with work := working c (.verifyHash pub) false }
        hash := s.hash.submit .update (shaJob l) } := rfl

theorem State.anchorInstall_delegate {s : State} {c : Card} {root : PublicKey} (hform : anchorInstallForm c = none)
    (h5 : c.field 0 1 ≠ 5) (hlife : s.lifecycle.effective ≠ .blank) (hroot : s.publicKeyOf 0 = some root)
    (hfree : s.update.session.signerSlot ≠ some (c.field 0 1)) : s.anchorInstall c = s.verifySigned root (c.fieldBytes 1 72) := by
  have hslot : (c.slot 0).val = c.field 0 1 := Card.slot_val (by have := anchorInstallForm_delegate hform h5; omega)
  simp only [State.anchorInstall, hform, if_neg h5, State.anchorInstallDelegate, if_neg hlife, hroot, hslot, if_neg hfree]
  rfl

theorem State.anchorInstall_owner {s : State} {c : Card} (hform : anchorInstallForm c = none) (h5 : c.field 0 1 = 5)
    (howner : s.ownerRefusal = none) (hfree : s.update.session.signerSlot ≠ some 5) : s.anchorInstall c =
      ((s.updateStage .ownerInstall).updateCommit).askCustody
        (.install 5 (anchorRecord .ownerAnchor (c.fieldStr 1 512) (some { kinds := c.byte 81, serial := none })) .update) := by
  simp only [State.anchorInstall, hform, if_pos h5, State.anchorInstallOwner, howner, if_neg hfree]

theorem State.anchorRemove_delegate {s : State} {c : Card} {root : PublicKey} {r : KeyRecord} {a : Anchor}
    (hform : anchorRemoveForm c = none) (h5 : c.field 0 1 ≠ 5) (hroot : s.publicKeyOf 0 = some root)
    (hr : s.slot (c.slot 0) = some r) (ha : r.anchor = some a) (hserial : a.serial = some (c.fieldStr 4 32))
    (hfree : s.update.session.signerSlot ≠ some (c.field 0 1)) : s.anchorRemove c = s.verifySigned root (c.fieldBytes 1 7) := by
  have hslot : (c.slot 0).val = c.field 0 1 := Card.slot_val (by have := anchorRemoveForm_delegate hform h5; omega)
  simp only [State.anchorRemove, hform, if_neg h5, State.anchorRemoveDelegate, hroot, hr, ha, Option.bind_some, hserial, ne_eq,
    not_true_eq_false, if_false, hslot, if_neg hfree]
  rfl

theorem State.anchorRemove_owner {s : State} {c : Card} {r : KeyRecord} (hform : anchorRemoveForm c = none) (h5 : c.field 0 1 = 5)
    (howner : s.ownerRefusal = none) (hr : s.slot 5 = some r) (hfree : s.update.session.signerSlot ≠ some 5) :
    s.anchorRemove c = ((s.updateStage .ownerRemove).updateCommit).askCustody (.remove 5) := by
  simp [State.anchorRemove, hform, h5, State.anchorRemoveOwner, howner, hr, hfree]

/-- The signer slots, with what the owner's needs beside its key (R62, R73). -/
def State.maySign (s : State) (slot : Fin 48) : Prop :=
  slot = 0 ∨ slot = 2 ∨ slot = 3 ∨ slot = 4
    ∨ (slot = 5 ∧ s.lifecycle.effective = .claimed ∧ s.lifecycle.presence.isSome = true)

theorem State.maySign.signs {s : State} {slot : Fin 48} (h : s.maySign slot) : isSignerSlot slot.val = true := by
  obtain rfl | rfl | rfl | rfl | ⟨rfl, -⟩ := h <;> rfl

/-- The owner's key signs in CLAIMED, with presence open. -/
theorem State.maySign.owner {s : State} {slot : Fin 48} (h : s.maySign slot) (h5 : slot.val = 5) :
    s.lifecycle.effective = .claimed ∧ s.presenceOpen = true := by
  obtain rfl | rfl | rfl | rfl | ⟨-, howner⟩ := h
  case inr.inr.inr.inr => exact howner
  all_goals exact absurd h5 (by decide)

theorem State.signerPermits_of {s : State} {slot : Fin 48} {kind : Fin 8} {r : KeyRecord} (hr : s.slot slot = some r)
    (h : slot ≠ 0 → ∃ a, r.anchor = some a ∧ a.kinds.getLsbD kind.val = true) : s.signerPermits slot kind = true := by
  by_cases h0 : slot = 0
  · simp [State.signerPermits, h0]
  · obtain ⟨a, ha, hkind⟩ := h h0
    simp [State.signerPermits, hr, ha, hkind]

theorem State.updateOpen_signed {s : State} {c : Card} {r : KeyRecord} {pub : PublicKey} (hform : updateOpenForm c = none)
    (hidle : s.update.session = .idle) (hsigner : s.maySign (c.slot 41)) (hr : s.slot (c.slot 41) = some r)
    (hpub : r.material.publicKey = some pub)
    (hkind : c.slot 41 ≠ 0 → ∃ a, r.anchor = some a ∧ a.kinds.getLsbD c.kind.val = true) :
    s.updateOpen c = s.verifySigned pub (c.fieldBytes 0 43) := by
  have hkey : s.publicKeyOf (c.slot 41) = some pub := by rw [State.publicKeyOf, hr]; exact hpub
  have hclaimed : ¬((c.slot 41).val = 5 ∧ s.lifecycle.effective ≠ .claimed) := fun ⟨h5, he⟩ => he (hsigner.owner h5).1
  have hpresent : ¬((c.slot 41).val = 5 ∧ s.presenceOpen = false) := fun ⟨h5, hp⟩ => by
    simp [(hsigner.owner h5).2] at hp
  simp only [State.updateOpen, hform, hidle, ne_eq, not_true_eq_false, if_false, hsigner.signs, if_true, hkey,
    State.signerPermits_of hr hkind, Bool.true_eq_false, if_neg hclaimed, if_neg hpresent]
  rfl

theorem State.updateFeed_fits {s : State} {c : Card} {x : OpenSession} (hform : feedForm c = none)
    (hx : s.update.session = .opened x) (h : x.fed + c.extentTotal ≤ x.length) :
    s.updateFeed c = (s.updateStage .feed).hashSubmit .update (feedJob c x) := by
  simp only [State.updateFeed, hform, hx, if_neg (Nat.not_lt.mpr h)]

theorem State.updateFeed_overrun {s : State} {c : Card} {x : OpenSession} (hform : feedForm c = none)
    (hx : s.update.session = .opened x) (h : x.length < x.fed + c.extentTotal) :
    s.updateFeed c = s.updateHandBack .overrun (some (BitVec.ofNat 32 (x.length - x.fed))) [] := by
  simp only [State.updateFeed, hform, hx, if_pos h]

/-- Settles O32, card by card: each is begun with its body, and the body's checks pass one by one. -/
theorem updateCardsBegin : Obligations.UpdateCardsBegin := by
  refine ⟨?_, ?_, ?_⟩
  · intro s c hfree owner verifying
    refine ⟨?_, ?_, ?_, ?_⟩
    · intro root hc hform h5 hlife hroot
      show Host.Outcome.next (s.beginUpdate _ _ _) = _
      rw [State.beginUpdate_eq _ _ hc, State.anchorInstall_delegate (s := s.updateBegun c .verifyCurve) hform h5 hlife hroot hfree]
      rfl
    · rintro hc hform h5 ⟨he, hp, ho⟩
      show Host.Outcome.next (s.beginUpdate _ _ _) = _
      rw [State.beginUpdate_eq _ _ hc,
        State.anchorInstall_owner (s := s.updateBegun c .verifyCurve) hform h5 (State.ownerRefusal_none he hp ho) (h5 ▸ hfree)]
      rfl
    · intro root r a hc hform h5 hroot hr ha hserial
      show Host.Outcome.next (s.beginUpdate _ _ _) = _
      rw [State.beginUpdate_eq _ _ hc, State.anchorRemove_delegate (s := s.updateBegun c .verifyCurve) hform h5 hroot hr ha hserial hfree]
      rfl
    · rintro r hc hform h5 ⟨he, hp, ho⟩ hr
      show Host.Outcome.next (s.beginUpdate _ _ _) = _
      rw [State.beginUpdate_eq _ _ hc,
        State.anchorRemove_owner (s := s.updateBegun c .verifyCurve) hform h5 (State.ownerRefusal_none he hp ho) hr (h5 ▸ hfree)]
      rfl
  · intro s c r pub hc hform hidle slot hsigner hr hpub hkind
    show Host.Outcome.next (s.beginUpdate _ _ _) = _
    rw [State.beginUpdate_eq _ _ hc, State.updateOpen_signed (s := s.updateBegun c .verifyCurve) hform hidle hsigner hr hpub hkind]
    rfl
  · intro s c x hc hform hx
    refine ⟨fun hfit => ?_, fun hover hwipe hcarries => ?_⟩
    · show Host.Outcome.next (s.beginUpdate _ _ _) = _
      rw [State.beginUpdate_eq _ _ hc, State.updateFeed_fits (s := s.updateBegun c .feed) hform hx hfit]
      rfl
    · show Host.Outcome.next (s.beginUpdate _ _ _) = _
      rw [State.beginUpdate_eq _ _ hc, State.updateFeed_overrun (s := s.updateBegun c .feed) hform hx hover,
        State.updateBegun_handBack c .feed _ _ _ hcarries hwipe]

end Sys2Proof.Machine
end

