-- ==== Sys2Proof/Proofs/SessionTimers.lean ====
section
/-! SUPPORT. The two timers of the update session, and the settling of O36. -/
namespace Sys2Proof.Machine

theorem State.whenPowered_on {s : State} (f : State → State) (h : s.powered = true) : s.whenPowered f = f s := if_pos h

/-- A feed is queued exactly where a buffer of the update unit's queue holds a card of its code (R79). -/
theorem State.feedQueued_iff {s : State} :
    s.feedQueued = true ↔ ∃ b ∈ s.exch.buffers, b.unit = some .update ∧ b.card.code = 0x0304#16 := by
  simp only [State.feedQueued, State.queueOf, feedCode, List.any_eq_true, List.mem_filter, beq_iff_eq, and_assoc]

theorem State.commitInWork_iff {s : State} : s.commitInWork = true ↔ ∃ w, s.update.work = some w ∧ w.card.code = 0x0306#16 := by
  unfold State.commitInWork
  cases s.update.work <;> simp

/-- When the idle timer of an OPEN session expires (R79). -/
theorem State.idleExpires_opened {s : State} {x : OpenSession} (hx : s.update.session = .opened x) :
    s.idleExpires = true ↔ 480 ≤ elapsed s.pace.tick x.idleStart ∧ s.feedQueued = false := by
  unfold State.idleExpires
  simp only [hx, Bool.and_eq_true, decide_eq_true_eq, Bool.not_eq_true']
  exact Iff.rfl

/-- When the guard timer of a CHECKED session expires (R80). -/
theorem State.guardExpires_checked {s : State} {x : CheckedSession} (hx : s.update.session = .checked x) :
    s.guardExpires = true ↔ 3600 ≤ elapsed s.pace.tick x.guardStart ∧ s.commitInWork = false := by
  unfold State.guardExpires
  simp only [hx, Bool.and_eq_true, decide_eq_true_eq, Bool.not_eq_true']
  exact Iff.rfl

theorem exec_idleTimerExpiry {s : State} {x : OpenSession} (hp : s.powered = true) (hx : s.update.session = .opened x) :
    (480 ≤ elapsed s.pace.tick x.idleStart → (∀ b ∈ s.exch.buffers, b.unit = some .update → b.card.code ≠ 0x0304#16) →
        exec .idleTimerExpiry s = .next { s with update := { s.update with session := .idle } })
      ∧ (elapsed s.pace.tick x.idleStart < 480 ∨ (∃ b ∈ s.exch.buffers, b.unit = some .update ∧ b.card.code = 0x0304#16) →
        exec .idleTimerExpiry s = .next s) := by
  have hexec : exec .idleTimerExpiry s = .next s.idleExpiry := congrArg _ (State.whenPowered_on _ hp)
  rw [hexec]
  refine ⟨fun hlate hfeed => congrArg _ (if_pos ?_), fun h => congrArg _ (if_neg ?_)⟩
  · refine (State.idleExpires_opened hx).mpr ⟨hlate, Bool.eq_false_iff.mpr fun hq => ?_⟩
    obtain ⟨b, hb, hu, hcode⟩ := State.feedQueued_iff.mp hq
    exact hfeed b hb hu hcode
  · intro hexp
    obtain ⟨hlate, hq⟩ := (State.idleExpires_opened hx).mp hexp
    obtain hearly | hfeed := h
    · omega
    · rw [State.feedQueued_iff.mpr hfeed] at hq
      exact Bool.noConfusion hq

theorem exec_guardTimerExpiry {s : State} {x : CheckedSession} (hp : s.powered = true) (hx : s.update.session = .checked x) :
    (3600 ≤ elapsed s.pace.tick x.guardStart → (∀ w, s.update.work = some w → w.card.code ≠ 0x0306#16) → s.update.wipe ≠ .held →
        exec .guardTimerExpiry s = .next s.leaveChecked)
      ∧ (elapsed s.pace.tick x.guardStart < 3600 ∨ (∃ w, s.update.work = some w ∧ w.card.code = 0x0306#16) →
        exec .guardTimerExpiry s = .next s) := by
  have hexec : exec .guardTimerExpiry s = .next s.guardExpiry := congrArg _ (State.whenPowered_on _ hp)
  rw [hexec]
  refine ⟨fun hlate hcommit hwipe => congrArg _ ((if_pos ?_).trans (State.serveHeldWipe_not_held hwipe)),
    fun h => congrArg _ (if_neg ?_)⟩
  · refine (State.guardExpires_checked hx).mpr ⟨hlate, Bool.eq_false_iff.mpr fun hc => ?_⟩
    obtain ⟨w, hw, hcode⟩ := State.commitInWork_iff.mp hc
    exact hcommit w hw hcode
  · intro hexp
    obtain ⟨hlate, hc⟩ := (State.guardExpires_checked hx).mp hexp
    obtain hearly | hcommit := h
    · omega
    · rw [State.commitInWork_iff.mpr hcommit] at hc
      exact Bool.noConfusion hc

/-- Settles O36: each timer, on both sides of its limit. -/
theorem sessionTimersExpire : Obligations.SessionTimersExpire :=
  ⟨fun _ _ hp hx => exec_idleTimerExpiry hp hx, fun _ _ hp hx => exec_guardTimerExpiry hp hx⟩

end Sys2Proof.Machine
end

