-- ==== Sys2Proof/Proofs/TrialCards.lean ====
section
/-! SUPPORT. The cards that leave a session or act on a trial, the layouts of BOOT ADVICE, and the settling of O35. -/
namespace Sys2Proof.Machine

/-! ### Sessions left, and records sent (R81, R82, R84, R86) -/

/-- The notice of a CHECKED session's end, with the session dropped (R72, R81). -/
theorem State.dropSession_eq (s : State) : s.dropSession = { s with
    update := { s.update with
      session := .idle, guardOn := if s.update.session.code = 2 then false else s.update.guardOn }
    lifecycle := { s.lifecycle with
      notices := if s.update.session.code = 2 then s.lifecycle.notices + 1 else s.lifecycle.notices } } := by
  cases hx : s.update.session with
  | idle =>
    have hidle : { s with update := { s.update with session := .idle } } = s := by rw [← hx]
    unfold State.dropSession
    rw [hx]
    exact hidle.symm
  | opened x =>
    unfold State.dropSession
    rw [hx]
    rfl
  | checked x =>
    unfold State.dropSession
    rw [hx]
    rfl

theorem State.updateCancel_eq {s : State} {c : Card} (hform : noFieldsForm c = none) :
    s.updateCancel c = s.dropSession.updateHandBack .done (some (BitVec.ofNat 32 s.update.session.code)) [] := by
  simp only [State.updateCancel, hform]

theorem State.updateCommitCard_checked {s : State} {c : Card} {x : CheckedSession} (hform : noFieldsForm c = none)
    (hx : s.update.session = .checked x) : s.updateCommitCard c =
      s.updateWrite (.kind x.kind (x.committed (s.kindRecord x.kind))) (.commit (x.committed (s.kindRecord x.kind))) := by
  simp only [State.updateCommitCard, hform, hx]

theorem State.updateConfirm_trial {s : State} {c : Card} {t : Trial} (hform : updateConfirmForm c = none)
    (ht : (s.kindRecord c.kind).trial = some t) :
    s.updateConfirm c = (s.updateStage .confirmHash).hashSubmit .update (shaJob (candidateInput t.digest)) := by
  simp only [State.updateConfirm, hform, ht]

theorem State.updateRevert_trial {s : State} {c : Card} {t : Trial} (hform : updateRevertForm c = none)
    (ht : (s.kindRecord c.kind).trial = some t) : s.updateRevert c =
      s.updateWrite (.kind c.kind (s.kindRecord c.kind).withoutTrial) (.revert (s.kindRecord c.kind).withoutTrial) := by
  simp only [State.updateRevert, hform, ht, Option.isNone_some, Bool.false_eq_true, if_false]

theorem State.bootAdvice_eq {s : State} {c : Card} (hform : bootAdviceForm c = none) : s.bootAdvice c =
    s.updateStage (.writeOut ((List.finRange 8).flatMap fun k => adviceEntry (s.kindRecord k)) none s.adviceReply) := by
  simp only [State.bootAdvice, hform]

/-- A card begun whose record of a kind goes to the store at once. -/
theorem State.updateBegun_write {s : State} (c : Card) (start stage : UpdateStage) (k : Fin 8) (r : KindRecord)
    (h : s.storeRoom .update) : (s.updateBegun c start).updateWrite (.kind k r) stage =
      { s.begins c with
        update := { s.update with work := working c stage true }
        store := s.store.queued (.kind k r) .updateCard } :=
  State.updateWrite_eq (s := s.updateBegun c start) (x := { card := c, stage := start, abandoned := false, committed := false })
    (.kind k r) stage rfl (by intro i v; simp) h

/-! ### The layouts of BOOT ADVICE (R87, R194, R195) -/

@[simp] theorem leBytes_length (n v : Nat) : (leBytes n v).length = n := by simp [leBytes]

theorem adviceEntry_length (k : KindRecord) : (adviceEntry k).length = 79 := by
  obtain ⟨floor, _ | x, _ | y⟩ := k
  all_goals simp [adviceEntry, strBytes_length]

theorem advice_length (s : State) : ((List.finRange 8).flatMap fun k => adviceEntry (s.kindRecord k)).length = 632 := by
  simp [List.length_flatMap, adviceEntry_length]

theorem adviceEntry_layout (k : KindRecord) : outBytes (adviceEntry k) = replyNum 4 k.floor
    ++ (match k.confirmed with
      | some x => replyNum 1 1 ++ replyNum 4 x.version ++ replyNum 32 x.digest.toNat
      | none => replyNum 37 0)
    ++ match k.trial with
      | some x => replyNum 1 1 ++ replyNum 4 x.version ++ replyNum 32 x.digest.toNat ++ replyNum 1 x.boots
      | none => replyNum 38 0 := by
  have happend (a b : List Byte) : outBytes (a ++ b) = outBytes a ++ outBytes b := (outBytes_append a b).symm
  simp only [replyNum_eq, adviceEntry, happend]
  obtain ⟨floor, _ | x, _ | y⟩ := k
  all_goals rfl

theorem State.adviceReply_layout (s : State) : s.adviceReply = match s.update.session with
    | .idle => replyNum 1 0 ++ replyOpen 9
    | .opened x => replyNum 1 1 ++ replyNum 1 x.kind.val ++ replyNum 4 x.fed ++ replyOpen 4
    | .checked x => replyNum 1 2 ++ replyOpen 5 ++ replyNum 4 (3600 - (s.pace.tick - x.guardStart).toNat) := by
  unfold State.adviceReply
  simp only [replyNum_eq]
  cases s.update.session <;> rfl

/-- Settles O35: each card is begun with its body; the two layouts stand on their own. -/
theorem trialCardsBegin : Obligations.TrialCardsBegin := by
  refine ⟨?_, adviceEntry_layout, State.adviceReply_layout⟩
  intro s c
  refine ⟨?_, ?_, ?_, ?_, ?_⟩
  · intro hc hform hwipe hcarries
    show Host.Outcome.next (s.beginUpdate _ _ _) = _
    rw [State.beginUpdate_eq _ _ hc, State.updateCancel_eq hform, State.dropSession_eq,
      State.updateHandBack_eq (w := { card := c, stage := .confirmHash, abandoned := false, committed := false }) _ _ _ rfl
        (by exact hcarries) (by exact hwipe)]
    rfl
  · intro x hc hform hx hroom record
    show Host.Outcome.next (s.beginUpdate _ _ _) = _
    rw [State.beginUpdate_eq _ _ hc, State.updateCommitCard_checked (s := s.updateBegun c .confirmHash) hform hx,
      State.updateBegun_write c .confirmHash _ _ _ hroom]
    rfl
  · intro x hc hform hx
    show Host.Outcome.next (s.beginUpdate _ _ _) = _
    rw [State.beginUpdate_eq _ _ hc, State.updateConfirm_trial (s := s.updateBegun c .confirmHash) hform hx]
    rfl
  · intro x hc hform hx hroom record
    show Host.Outcome.next (s.beginUpdate _ _ _) = _
    rw [State.beginUpdate_eq _ _ hc, State.updateRevert_trial (s := s.updateBegun c .confirmHash) hform hx,
      State.updateBegun_write c .confirmHash _ _ _ hroom]
    rfl
  · intro hc hform advice
    refine ⟨?_, advice_length s⟩
    show Host.Outcome.next (s.beginUpdate _ _ _) = _
    rw [State.beginUpdate_eq _ _ hc, State.bootAdvice_eq (s := s.updateBegun c .confirmHash) hform]
    rfl

end Sys2Proof.Machine
end

