-- ==== Sys2Proof/Proofs/Signatures.lean ====
section
/-! SUPPORT. The answer of a verify and what a verified signature leads to, and the settling of O33. -/
namespace Sys2Proof.Machine

/-! ### The answer of a verify (R144) -/

/-- The verify of an update card is in progress, the card waits for its answer, and no other operation of the curve engine waits. -/
structure State.Verifying (s : State) (c : Card) (pub : PublicKey) (d : Digest) (sig : Signature) : Prop where
  powered : s.powered = true
  noUpdate : s.curve.update = none
  noMeasure : s.curve.measure = none
  noCustody : s.curve.custody = none
  noLife : s.curve.lifecycle = none
  running : s.curve.running = some { client := .update, op := .verify pub d sig }
  work : s.update.work = working c .verifyCurve false
  noWipe : s.update.wipe ≠ .held
  carries : s.carries

/-- The part with the curve engine left free behind the update unit's operation. -/
def State.verifyFreed (s : State) : State := { s with curve := { s.curve with running := none, pointer := .update } }

/-- A card refused behind its verify. -/
def State.verifyRefused (s : State) (c : Card) (o : CardOutcome) : State :=
  { s.verifyFreed.givesBack c o none [] with update := { s.update with work := none } }

/-- What a verified signature leads to, card by card (R65, R67, R74). -/
def State.signatureVerified (c : Card) (s : State) : State :=
  if c.code = 0x0301#16 then s.delegateVerified c else if c.code = 0x0302#16 then s.removalVerified c else s.manifestVerified c

theorem State.updateCurveEnd_true {s : State} {c : Card} (hw : s.update.work = working c .verifyCurve false) :
    s.updateCurveEnd true = s.signatureVerified c := by
  unfold State.updateCurveEnd State.signatureVerified
  simp only [hw, working, Bool.false_eq_true, Bool.true_eq_false, if_false]

theorem State.updateCurveEnd_false {s : State} {c : Card} (hw : s.update.work = working c .verifyCurve false) :
    s.updateCurveEnd false = s.updateRefuse .badSignature := by
  unfold State.updateCurveEnd
  simp only [hw, working, Bool.false_eq_true, if_false, if_true]

theorem State.Verifying.invalid {s : State} {c : Card} {pub : PublicKey} {d : Digest} {sig : Signature} (h : s.Verifying c pub d sig)
    (hv : verifySignature pub d sig = false) : exec .curveOperationComplete s = .next (s.verifyRefused c .badSignature) := by
  refine exec_curveOperationComplete_idle h.powered h.noUpdate h.noMeasure h.noCustody h.noLife h.running
    (u := { (s.atOperationEnd .update).givesBack c .badSignature none [] with update := { s.update with work := none } }) ?_ rfl
  show (s.atOperationEnd .update).updateCurveEnd (verifySignature pub d sig) = _
  rw [hv, State.updateCurveEnd_false (s := s.atOperationEnd .update) h.work]
  exact State.updateRefuse_eq (s := s.atOperationEnd .update) .badSignature h.work h.carries h.noWipe

/-- The verify of a card decides: what a verified signature leads to, or BAD SIGNATURE. -/
theorem State.Verifying.decides {s : State} {c : Card} {pub : PublicKey} {d : Digest} {sig : Signature} (h : s.Verifying c pub d sig)
    {t : State} (ht : (s.atOperationEnd .update).signatureVerified c = t) (hcurve : t.curve = { s.curve with pointer := .update }) :
    exec .curveOperationComplete s = .next
      (if verifySignature pub d sig then { t with curve := { s.curve with running := none, pointer := .update } }
        else s.verifyRefused c .badSignature) := by
  cases hv : verifySignature pub d sig with
  | false => exact h.invalid hv
  | true =>
    refine exec_curveOperationComplete_idle h.powered h.noUpdate h.noMeasure h.noCustody h.noLife h.running ?_ hcurve
    show (s.atOperationEnd .update).updateCurveEnd (verifySignature pub d sig) = _
    rw [hv, State.updateCurveEnd_true (s := s.atOperationEnd .update) h.work, ht]

/-- A card whose signature verifies is refused for another reason. -/
theorem State.Verifying.decides_refused {s : State} {c : Card} {pub : PublicKey} {d : Digest} {sig : Signature}
    (h : s.Verifying c pub d sig) (o : CardOutcome)
    (ho : (s.atOperationEnd .update).signatureVerified c = (s.atOperationEnd .update).updateRefuse o) :
    exec .curveOperationComplete s = .next
      (if verifySignature pub d sig then s.verifyRefused c o else s.verifyRefused c .badSignature) :=
  h.decides (t := { (s.atOperationEnd .update).givesBack c o none [] with update := { s.update with work := none } })
    (ho.trans (State.updateRefuse_eq (s := s.atOperationEnd .update) o h.work h.carries h.noWipe)) rfl

/-! ### What a verified signature leads to (R65, R67, R73, R74) -/

theorem State.signatureVerified_install {s : State} {c : Card} (h : c.code = 0x0301#16) :
    s.signatureVerified c = s.delegateVerified c := if_pos h

theorem State.signatureVerified_remove {s : State} {c : Card} (h : c.code = 0x0302#16) :
    s.signatureVerified c = s.removalVerified c := by
  simp only [State.signatureVerified, h, if_true, if_neg (by decide : ¬(0x0302#16 = 0x0301#16))]

theorem State.signatureVerified_open {s : State} {c : Card} (h : c.code = 0x0303#16) :
    s.signatureVerified c = s.manifestVerified c := by
  simp only [State.signatureVerified, h, if_neg (by decide : ¬(0x0303#16 = 0x0301#16)), if_neg (by decide : ¬(0x0303#16 = 0x0302#16))]

theorem State.delegateVerified_rollback {s : State} {c : Card} (h : (c.fieldStr 69 32 : Word32).toNat ≤ s.highWater (c.slot 0)) :
    s.delegateVerified c = s.updateRefuse .rollback := if_pos h

theorem State.delegateVerified_installs {s : State} {c : Card} (hw : s.update.work = working c .verifyCurve false)
    (h : s.highWater (c.slot 0) < (c.fieldStr 69 32 : Word32).toNat) : s.delegateVerified c = { s with
      update := { s.update with work := working c .installSlot true }
      custody := { s.custody with held := s.custody.held ++ [.install (anchorSlot (c.slot 0).val)
        (anchorRecord .delegate (c.fieldStr 4 512) (some { kinds := c.byte 84, serial := some (c.fieldStr 69 32) })) .update] } } := by
  refine (if_neg (Nat.not_le.mpr h)).trans ?_
  unfold State.updateStage State.updateCommit State.askCustody
  rw [hw]
  rfl

theorem State.removalVerified_marks {s : State} {c : Card} (hw : s.update.work = working c .verifyCurve false)
    (h : (s.mark (markIndex (c.slot 0).val)).toNat < (c.fieldStr 4 32 : Word32).toNat) (hroom : s.storeRoom .update) :
    s.removalVerified c = { s with
      update := { s.update with work := working c .removeMark true }
      store := s.store.queued (.mark (markIndex (c.slot 0).val) (c.fieldStr 4 32)) .updateCard } :=
  (if_pos h).trans (State.updateWrite_eq _ .removeMark hw (by intro i v; simp) hroom)

theorem State.removalVerified_removes {s : State} {c : Card} (hw : s.update.work = working c .verifyCurve false)
    (h : (c.fieldStr 4 32 : Word32).toNat ≤ (s.mark (markIndex (c.slot 0).val)).toNat) : s.removalVerified c = { s with
      update := { s.update with work := working c .removeSlot true }
      custody := { s.custody with held := s.custody.held ++ [.remove (anchorSlot (c.slot 0).val)] } } := by
  refine (if_neg (Nat.not_lt.mpr h)).trans ?_
  unfold State.delegateRemoval State.updateStage State.updateCommit State.askCustody
  rw [hw]
  rfl

theorem signerClassOf_owner {n : Nat} : signerClassOf n = .owner ↔ n = 5 := by
  unfold signerClassOf
  split
  · simp_all
  · split <;> simp_all

/-- The downgrade exception, in the terms of R73. -/
theorem State.downgradeApplies_iff {s : State} {c : Card} : s.downgradeApplies c = true ↔
    (c.byte 58).getLsbD 0 = true ∧ c.field 41 1 ≠ 5 ∧ s.lifecycle.presence.isSome = true := by
  simp only [State.downgradeApplies, State.presenceOpen, Bool.and_eq_true, decide_eq_true_eq, ne_eq, signerClassOf_owner, and_assoc]

theorem State.manifestVerified_onTrial {s : State} {c : Card} (h : (s.kindRecord c.kind).trial.isSome = true) :
    s.manifestVerified c = s.updateRefuse .trialPending := if_pos h

theorem State.manifestVerified_below {s : State} {c : Card} (ht : (s.kindRecord c.kind).trial = none)
    (hb : c.field 1 4 < (s.kindRecord c.kind).floor) (hd : s.downgradeApplies c = false) :
    s.manifestVerified c = s.updateRefuse .rollback := by
  unfold State.manifestVerified State.sessionOf
  simp only [ht, hb, hd, Option.isSome_none, Bool.false_eq_true, if_false, decide_true, Bool.not_false, Bool.and_true, if_true]

theorem State.manifestVerified_opens {s : State} {c : Card} (hw : s.update.work = working c .verifyCurve false)
    (hc : s.carries) (hh : s.update.wipe ≠ .held) (ht : (s.kindRecord c.kind).trial = none)
    (hb : decide (c.field 1 4 < (s.kindRecord c.kind).floor) = false ∨ s.downgradeApplies c = true) :
    s.manifestVerified c = { s.givesBack c .done none
        (outNum 1 c.kind.val ++ outNum 4 (c.field 1 4) ++ outNum 4 (c.field 5 4) ++ outNum 1 (signerClassOf (c.field 41 1)).code
          ++ outNum 1 (decide (c.field 1 4 < (s.kindRecord c.kind).floor)).toNat) with
      update := { s.update with session := .opened (s.sessionOf c), guardOn := false, work := none } } := by
  have hpass : ¬(((s.sessionOf c).belowFloor && !s.downgradeApplies c) = true) := by
    obtain h | h := hb <;> simp [State.sessionOf, h]
  unfold State.manifestVerified
  simp only [ht, Option.isSome_none, Bool.false_eq_true, if_false, hpass]
  exact State.updateHandBack_eq
    (s := { s with update := { s.update with session := .opened (s.sessionOf c), guardOn := false } }) .done none _ hw hc hh

/-- A key is a point of the curve, with the conditions in one list. -/
theorem onCurve_eq (pub : PublicKey) : onCurve pub =
    decide (halfOf pub 0 < Config.curvePrime ∧ halfOf pub 1 < Config.curvePrime
      ∧ (halfOf pub 1 * halfOf pub 1 + 3 * halfOf pub 0) % Config.curvePrime =
        (halfOf pub 0 * halfOf pub 0 * halfOf pub 0 + Config.curveConstant) % Config.curvePrime) := by
  simp only [onCurve, Bool.decide_and, Bool.and_assoc]

theorem halfInRange_eq (n : Nat) : halfInRange n = decide (1 ≤ n ∧ n < Config.curveOrder) := (Bool.decide_and _ _).symm

/-- Settles O33: a verify decides between BAD SIGNATURE and what the signature leads to, card by card. -/
theorem signaturesDecide : Obligations.SignaturesDecide := by
  intro s c pub d sig hp hu hm hc hl hr hw hh hcarry u refused half p onCurve inRange valid decides
  have h : s.Verifying c pub d sig := ⟨hp, hu, hm, hc, hl, hr, hw, hh, hcarry⟩
  have hon : onCurve = Machine.onCurve pub := (onCurve_eq pub).symm
  have hin (i : Nat) : inRange i = halfInRange (halfOf sig i) := (halfInRange_eq _).symm
  have hvalid : valid = verifySignature pub d sig := by
    show (onCurve && inRange 0 && inRange 1 && _) = _
    rw [hon, hin, hin]
    rfl
  have hdecides (good : State) : decides good ↔ exec .curveOperationComplete s = .next
      (if verifySignature pub d sig then good else s.verifyRefused c .badSignature) := by
    show (_ = Host.Outcome.next (if valid then _ else _)) ↔ _
    rw [hvalid]
    rfl
  refine ⟨?invalid, ?install, ?remove, ?manifest⟩
  case invalid =>
    intro hbad
    rw [hon, hin, hin] at hbad
    exact h.invalid (verifySignature_eq_false d hbad)
  case install =>
    intro hcode
    refine ⟨fun hserial => (hdecides _).mpr ?_, fun hserial => (hdecides _).mpr ?_⟩
    · have hgood := h.decides ((State.signatureVerified_install hcode).trans
        (State.delegateVerified_installs (s := s.atOperationEnd .update) hw hserial)) rfl
      exact hgood
    · exact h.decides_refused .rollback ((State.signatureVerified_install hcode).trans
        (State.delegateVerified_rollback (s := s.atOperationEnd .update) hserial))
  case remove =>
    intro hcode serial i
    refine ⟨fun hserial hroom => (hdecides _).mpr ?_, fun hserial => (hdecides _).mpr ?_⟩
    · have hgood := h.decides ((State.signatureVerified_remove hcode).trans
        (State.removalVerified_marks (s := s.atOperationEnd .update) hw hserial hroom)) rfl
      exact hgood
    · have hgood := h.decides ((State.signatureVerified_remove hcode).trans
        (State.removalVerified_removes (s := s.atOperationEnd .update) hw hserial)) rfl
      exact hgood
  case manifest =>
    intro hcode _ below excepted x
    have hexcepted : s.downgradeApplies c = true ↔ excepted := State.downgradeApplies_iff
    refine ⟨fun ht => (hdecides _).mpr ?_, fun ht hb he => (hdecides _).mpr ?_, fun ht hb => (hdecides _).mpr ?_⟩
    · exact h.decides_refused .trialPending ((State.signatureVerified_open hcode).trans
        (State.manifestVerified_onTrial (s := s.atOperationEnd .update) ht))
    · exact h.decides_refused .rollback ((State.signatureVerified_open hcode).trans
        (State.manifestVerified_below (s := s.atOperationEnd .update) ht (of_decide_eq_true hb)
          (Bool.eq_false_iff.mpr fun hd => he (hexcepted.mp hd))))
    · have hgood := h.decides ((State.signatureVerified_open hcode).trans
        (State.manifestVerified_opens (s := s.atOperationEnd .update) hw hcarry hh ht (hb.imp_right hexcepted.mpr))) rfl
      exact hgood

end Sys2Proof.Machine
end

