-- ==== Sys2Proof/Proofs/Feeds.lean ====
section
/-! SUPPORT. The pieces and the end of a feed, the digests of the bytes that the update unit holds, and the settling of O34. -/
namespace Sys2Proof.Machine

/-! ### The pieces of a feed (R76, R140 to R142) -/

theorem State.readCut_update {s : State} {w : Work UpdateStage} (hw : s.update.work = some w) : s.readCut .update = w.cut := by
  unfold State.readCut State.isCut
  rw [hw]
  rfl

@[simp] theorem readBytes_length (m : Memory) (a n : Nat) : (Memory.readBytes m a n).length = n := by simp [Memory.readBytes]

/-- A feed's job: the running digest continued over the extents that are left. -/
def feedRest (before : List Byte) (left : List (Nat × Word64 × Nat)) (final : Bool) : HashJob :=
  { fn := .sha256, absorbed := before, source := .extents left, finalize := final }

/-- The piece of a feed that is in progress. -/
def feedRun (before : List Byte) (left : List (Nat × Word64 × Nat)) (final : Bool) : HashRun :=
  { client := .update, withdrawn := false, job := feedRest before left final }

theorem State.updateHashPiece_feed {s : State} {w : Work UpdateStage} (n : Nat) (l : List Byte) (hw : s.update.work = some w)
    (hst : w.stage = .feed) : s.updateHashPiece n l = s.feedPiece n l := by
  unfold State.updateHashPiece
  simp only [hw, hst]

/-- The session with one more piece of its image fed. -/
def State.fedTo (s : State) (x : OpenSession) (n : Nat) (l : List Byte) : State :=
  { s with update := { s.update with session := .opened { x with fed := x.fed + n, running := x.running ++ l } } }

theorem State.feedPiece_opened {s : State} {x : OpenSession} (n : Nat) (l : List Byte) (hx : s.update.session = .opened x) :
    s.feedPiece n (x.running ++ l) = s.fedTo x n l := by
  unfold State.feedPiece
  simp only [hx]
  rfl

/-- What the notices of a feed's job bring its card. -/
theorem State.updateHash_feed {s : State} {w : Work UpdateStage} (hw : s.update.work = some w) (hst : w.stage = .feed) :
    (∀ e, s.updateHashFault e = s.feedFault) ∧ s.updateHashContinued = s.feedMore ∧ ∀ d, s.updateHashEnd d = s.feedEnd d := by
  unfold State.updateHashFault State.updateHashContinued State.updateHashEnd
  simp only [hw, hst, implies_true, and_self]

theorem State.feedFault_opened {s : State} {x : OpenSession} (hx : s.update.session = .opened x) : s.feedFault =
    ({ s with update := { s.update with session := .idle } } : State).updateHandBack .linkFault (some (BitVec.ofNat 32 x.fed)) [] := by
  unfold State.feedFault
  rw [hx]

theorem State.feedMore_opened {s : State} {x : OpenSession} (hx : s.update.session = .opened x) :
    s.feedMore = s.updateHandBack .done (some 1#32) (outNum 4 x.fed ++ outNum 4 (x.length - x.fed)) := by
  unfold State.feedMore
  rw [hx]

/-- A read of a feed's extents that has failed ends the session (R78). -/
theorem State.feedPiece_fails {s : State} {w : Work UpdateStage} {x : OpenSession} (before : List Byte)
    (left : List (Nat × Word64 × Nat)) (final : Bool) (hw : s.update.work = some w) (hst : w.stage = .feed)
    (hx : s.update.session = .opened x) (hc : s.carries) (hh : s.update.wipe ≠ .held) :
    s.pieceEnded (feedRun before left final) false = { s.givesBack w.card .linkFault (some (BitVec.ofNat 32 x.fed)) [] with
      update := { s.update with session := .idle, work := none } } := by
  have hend : s.pieceEnded (feedRun before left final) false = s.updateHashFault (ByteSource.extents left).extent := rfl
  obtain ⟨hfault, -⟩ := State.updateHash_feed hw hst
  rw [hend, hfault, State.feedFault_opened hx]
  exact State.updateHandBack_eq (s := { s with update := { s.update with session := .idle } }) .linkFault _ _ hw hc hh

/-- The last piece of a feed: its bytes are counted, and the job ends. -/
theorem State.feedPiece_last {s : State} {w : Work UpdateStage} {x : OpenSession} (i : Nat) (a : Word64) {n : Nat} (final : Bool)
    (hn : n ≤ 4096) (hw : s.update.work = some w) (hst : w.stage = .feed) (hx : s.update.session = .opened x) :
    s.pieceEnded (feedRun x.running [(i, a, n)] final) true = (s.fedTo x n (Memory.readBytes s.host a.toNat n)).jobEnded .update
      (feedRest (x.running ++ Memory.readBytes s.host a.toNat n) [] final) := by
  have hend : s.pieceEnded (feedRun x.running [(i, a, n)] final) true =
      (s.updateHashPiece n (x.running ++ Memory.readBytes s.host a.toNat n)).jobEnded .update
        (feedRest (x.running ++ Memory.readBytes s.host a.toNat n) [] final) := by
    simp [State.pieceEnded, feedRun, feedRest, HashJob.afterPiece, HashJob.pieceBytes, ByteSource.afterPiece, ByteSource.isEmpty,
      pieceSize, hn, State.pieceNotice]
  rw [hend, State.updateHashPiece_feed _ _ hw hst, State.feedPiece_opened _ _ hx]

/-- A piece of a feed that is not its last: its bytes are counted, and the job waits again with the rest of its extents (R141). -/
theorem State.feedPiece_goesOn {s : State} {w : Work UpdateStage} {x : OpenSession} (i n : Nat) (a : Word64)
    (rest : List (Nat × Word64 × Nat)) (final : Bool) (h : 4096 < n ∨ rest ≠ []) (hw : s.update.work = some w) (hst : w.stage = .feed)
    (hx : s.update.session = .opened x) : s.pieceEnded (feedRun x.running ((i, a, n) :: rest) final) true =
      { s.fedTo x (min n 4096) (Memory.readBytes s.host a.toNat (min n 4096)) with hash := { s.hash with
        update := some (feedRest (x.running ++ Memory.readBytes s.host a.toNat (min n 4096))
          (if n ≤ 4096 then rest else (i, a + 4096#64, n - 4096) :: rest) final) } } := by
  have hend : s.pieceEnded (feedRun x.running ((i, a, n) :: rest) final) true =
      (s.updateHashPiece (min n 4096) (x.running ++ Memory.readBytes s.host a.toNat (min n 4096))).pieceGoesOn .update
        (feedRest (x.running ++ Memory.readBytes s.host a.toNat (min n 4096))
          (if n ≤ 4096 then rest else (i, a + 4096#64, n - 4096) :: rest) final) := by
    by_cases hn : n ≤ 4096
    · have hrest : rest ≠ [] := h.resolve_left (by omega)
      simp [State.pieceEnded, feedRun, feedRest, HashJob.afterPiece, HashJob.pieceBytes, ByteSource.afterPiece, ByteSource.isEmpty,
        pieceSize, hn, hrest, State.pieceNotice]
    · simp [State.pieceEnded, feedRun, feedRest, HashJob.afterPiece, HashJob.pieceBytes, ByteSource.afterPiece, ByteSource.isEmpty,
        pieceSize, hn, State.pieceNotice]
  rw [hend, State.updateHashPiece_feed _ _ hw hst, State.feedPiece_opened _ _ hx]
  rfl

/-! ### The end of a feed (R76, R77) -/

/-- A feed whose job yields no result settles with what is left of the image. -/
theorem State.jobEnded_feedMore {s : State} {w : Work UpdateStage} {x : OpenSession} (l : List Byte) (hw : s.update.work = some w)
    (hst : w.stage = .feed) (hx : s.update.session = .opened x) (hc : s.carries) (hh : s.update.wipe ≠ .held) :
    s.jobEnded .update (feedRest l [] false) =
      { s.givesBack w.card .done (some 1#32) (outNum 4 x.fed ++ outNum 4 (x.length - x.fed)) with
        update := { s.update with work := none } } := by
  have hend : s.jobEnded .update (feedRest l [] false) = s.updateHashContinued := rfl
  obtain ⟨-, hmore, -⟩ := State.updateHash_feed hw hst
  rw [hend, hmore, State.feedMore_opened hx]
  exact State.updateHandBack_eq .done _ _ hw hc hh

/-- The session that a complete image leaves behind, when its digest is the manifest's (R77). -/
def OpenSession.checkedAt (x : OpenSession) (tick : Word32) : CheckedSession :=
  { kind := x.kind, version := x.version, digest := x.digest, slot := x.slot, signer := x.signer, guardStart := tick }

/-- The feed that completes the image: the session is CHECKED under the guard line, or ends, by the digest. -/
theorem State.jobEnded_feedEnd {s : State} {w : Work UpdateStage} {x : OpenSession} (l : List Byte) (hw : s.update.work = some w)
    (hst : w.stage = .feed) (hx : s.update.session = .opened x) (hc : s.carries) (hh : s.update.wipe ≠ .held) :
    s.jobEnded .update (feedRest l [] true) =
      if Config.sha256 l = x.digest then
        { s.givesBack w.card .done (some 2#32) (outNum 1 x.kind.val ++ outNum 4 x.version ++ outBytes (strBytes x.digest)) with
          update := { s.update with session := .checked (x.checkedAt s.pace.tick), guardOn := true, work := none } }
      else { s.givesBack w.card .digestMismatch none (outBytes (strBytes (Config.sha256 l))) with
          update := { s.update with session := .idle, work := none } } := by
  have hend : s.jobEnded .update (feedRest l [] true) = s.updateHashEnd (Config.sha256 l) := rfl
  obtain ⟨-, -, hresult⟩ := State.updateHash_feed hw hst
  rw [hend, hresult]
  unfold State.feedEnd
  rw [hx]
  dsimp only
  by_cases hd : Config.sha256 l = x.digest
  · rw [if_pos hd, if_pos hd]
    exact State.updateHandBack_eq
      (s := { s with update := { s.update with session := .checked (x.checkedAt s.pace.tick), guardOn := true } }) .done _ _ hw hc hh
  · rw [if_neg hd, if_neg hd]
    exact State.updateHandBack_eq (s := { s with update := { s.update with session := .idle } }) .digestMismatch _ _ hw hc hh

/-! ### The digest of bytes that the unit holds (R64, R67, R73, R84) -/

/-- The one piece of a job over bytes that the update unit holds. -/
def signedRun (input : List Byte) : HashRun := { client := .update, job := shaJob input, withdrawn := false }

theorem State.signedPiece_ends (s : State) {input : List Byte} (ok : Bool) (h : input.length ≤ 4096)
    (hst : ∀ n l, s.updateHashPiece n l = s) : s.pieceEnded (signedRun input) ok = s.updateHashEnd (Config.sha256 input) := by
  have htake : input.take 4096 = input := List.take_of_length_le h
  have hdrop : input.drop 4096 = [] := List.drop_of_length_le h
  simp [State.pieceEnded, signedRun, shaJob, HashJob.afterPiece, HashJob.pieceBytes, ByteSource.afterPiece, ByteSource.isEmpty,
    ByteSource.isExtents, pieceSize, htake, hdrop, State.pieceNotice, State.jobEnded, State.hashEnded, HashJob.result, hst]

/-- A piece of a job other than a feed's keeps nothing (R142). -/
theorem State.updateHashPiece_unfed {s : State} {w : Work UpdateStage} (n : Nat) (l : List Byte) (hw : s.update.work = some w)
    (hst : w.stage ≠ .feed) : s.updateHashPiece n l = s := by
  unfold State.updateHashPiece
  rw [hw]
  dsimp only
  split
  · next h => exact absurd h hst
  · rfl

/-- The digest of the signed bytes goes to the curve engine with the card's signature. -/
theorem State.updateHashEnd_signed {s : State} {c : Card} {pub : PublicKey} {sig : Signature} (d : Digest)
    (hw : s.update.work = working c (.verifyHash pub) false)
    (hsig : (c.code = 0x0301#16 ∧ sig = c.fieldStr 73 512) ∨ (c.code = 0x0302#16 ∧ sig = c.fieldStr 8 512)
      ∨ (c.code = 0x0303#16 ∧ sig = c.fieldStr 43 512)) :
    s.updateHashEnd d = { s with
      update := { s.update with work := working c .verifyCurve false }
      curve := s.curve.submit s.identityScalar .update (.verify pub d sig) } := by
  have hread : (if c.code = 0x0301#16 then c.fieldStr 73 512 else if c.code = 0x0302#16 then c.fieldStr 8 512
      else c.fieldStr 43 512) = sig := by
    obtain ⟨hc, rfl⟩ | ⟨hc, rfl⟩ | ⟨hc, rfl⟩ := hsig <;> rw [hc] <;> rfl
  unfold State.updateHashEnd
  simp only [hw, working]
  rw [hread]
  unfold State.updateStage
  rw [hw]
  rfl

/-- A chain read is asked for at once, when the internal request list has room and the unit nothing else to send (R38). -/
theorem State.send_chainRead {s : State} (chain : Fin 11) (wanted : Bool) (h : s.measureRoom .updateAsk) :
    s.send .updateAsk [.request (.chainRead chain wanted)] = { s with measure := s.measure.asked (.chainRead chain wanted) } := by
  obtain ⟨⟨hempty, hwaiting⟩, hroom, hblock, hwipe⟩ := h
  have hjoin : s.joinsAtOnce .updateAsk (.chainRead chain wanted) = true := by
    unfold State.joinsAtOnce
    simp only [hroom, decide_true, Bool.true_and, Bool.or_true, Bool.and_true, Bool.not_eq_true']
    simpa using hblock
  have hpush : s.push .updateAsk [.request (.chainRead chain wanted)] =
      s.setOutbox .updateAsk [.request (.chainRead chain wanted)] := by
    unfold State.push
    rw [hempty]
    rfl
  unfold State.send
  dsimp only
  rw [if_neg (by simp [hwaiting]), hpush]
  refine State.sendLane_updateAsk ?_ (hwipe rfl)
  unfold State.sendFuel
  refine (State.sendAll_request _ _ [] hjoin).trans ?_
  rw [State.setOutbox_same (s := { s with measure := s.measure.asked (.chainRead chain wanted) }) hempty]
  exact State.sendAll_done _ hempty

/-- The expected chain value of an UPDATE CONFIRM is known: the chain is read. -/
theorem State.updateHashEnd_confirm {s : State} {c : Card} {chain : Fin 11} (d : Digest)
    (hw : s.update.work = working c .confirmHash false) (hchain : c.field 1 1 = chain.val) (hroom : s.measureRoom .updateAsk) :
    s.updateHashEnd d = { s with
      update := { s.update with work := working c (.confirmChain d) false }
      measure := s.measure.asked (.chainRead chain true) } := by
  have hnumber : (⟨c.field 1 1 % 11, Nat.mod_lt _ (by decide)⟩ : Fin 11) = chain := by
    apply Fin.ext
    show c.field 1 1 % 11 = chain.val
    rw [hchain]
    exact Nat.mod_eq_of_lt chain.isLt
  unfold State.updateHashEnd State.confirmExpect
  simp only [hw, working]
  rw [hnumber, State.send_chainRead (s := s.updateStage (.confirmChain d)) chain true hroom]
  unfold State.updateStage
  rw [hw]
  rfl

/-- The end of a one-piece job of the update unit over its own bytes, after start-up. -/
theorem exec_hashPieceEnd_signed {s t : State} {w : Work UpdateStage} {input : List Byte} (h : HostWrites) (answered : Bool)
    (hp : s.powered = true) (hl : input.length ≤ 4096) (hr : s.hash.running = some (signedRun input)) (hw : s.update.work = some w)
    (hst : w.stage ≠ .feed) (ht : (s.atPieceEnd h .update).updateHashEnd (Config.sha256 input) = t) (he : t.startUp = .ended) :
    exec (.hashPieceEnd h answered) s = .next { t with hash := t.hash.release } :=
  exec_hashPieceEnd_ended h hp hr rfl
    (((s.atPieceEnd h .update).signedPiece_ends _ hl fun _ _ => State.updateHashPiece_unfed _ _ hw hst).trans ht) he

/-- Settles O34: the pieces of a feed, its three ends, and the digests of the bytes that the unit holds. -/
theorem feedsEnd : Obligations.FeedsEnd := by
  refine ⟨?last, ?piece, ?own⟩
  case last =>
    intro s h answered c x i n a cut hp hst hr hw hx hn hh hc bytes digest u ends
    have hcut : s.readCut .update = cut := State.readCut_update hw
    have hlast := fun final => State.feedPiece_last (s := s.atPieceEnd h .update) i a final hn hw rfl hx
    refine ⟨?_, ?_, ?_⟩
    · rintro rfl hl rfl hmore
      rw [decide_eq_false (by omega)] at hr
      exact exec_hashPieceEnd_ended (ok := true) h hp hr (by rw [hl, hcut]; rfl)
        ((hlast false).trans (State.jobEnded_feedMore (s := (s.atPieceEnd h .update).fedTo x n bytes) _ hw rfl rfl hc hh)) hst
    · rintro rfl hl rfl hall
      rw [decide_eq_true hall] at hr
      have hend := (hlast true).trans (State.jobEnded_feedEnd (s := (s.atPieceEnd h .update).fedTo x n bytes) _ hw rfl rfl hc hh)
      by_cases hd : digest = x.digest
      · rw [if_pos hd]
        exact exec_hashPieceEnd_ended (ok := true) h hp hr (by rw [hl, hcut]; rfl) (hend.trans (if_pos hd)) hst
      · rw [if_neg hd]
        exact exec_hashPieceEnd_ended (ok := true) h hp hr (by rw [hl, hcut]; rfl) (hend.trans (if_neg hd)) hst
    · intro hfail
      exact exec_hashPieceEnd_ended (ok := false) h hp hr (by rw [hcut]; exact accessMade_false hfail)
        (State.feedPiece_fails (s := s.atPieceEnd h .update) _ _ _ hw rfl hx hc hh) hst
  case piece =>
    intro s h answered final cut c x i n a rest hp hst hr hw hx hlong found bytes e left
    have hcut : s.readCut .update = cut := State.readCut_update hw
    refine ⟨?_, fun hfail hh hc => ?_⟩
    · rintro rfl hl rfl
      exact exec_hashPieceEnd_ended (ok := true) h hp hr (by rw [hl, hcut]; rfl)
        (State.feedPiece_goesOn (s := s.atPieceEnd h .update) i n a rest final hlong hw rfl hx) hst
    · exact exec_hashPieceEnd_ended (ok := false) h hp hr (by rw [hcut]; exact accessMade_false hfail)
        (State.feedPiece_fails (s := s.atPieceEnd h .update) _ _ _ hw rfl hx hc hh) hst
  case own =>
    intro s h answered c input hp hst hl hr digest u
    refine ⟨fun pub sig hw hsig => ?_, fun chain hw hchain hroom => ?_⟩
    · exact exec_hashPieceEnd_signed h answered hp hl hr hw (by simp)
        (State.updateHashEnd_signed (s := s.atPieceEnd h .update) digest hw hsig) hst
    · exact exec_hashPieceEnd_signed h answered hp hl hr hw (by simp)
        (State.updateHashEnd_confirm (s := s.atPieceEnd h .update) digest hw hchain hroom) hst

end Sys2Proof.Machine
end

