-- ==== Sys2Proof/Proofs/UpdateWipes.lean ====
section
/-! SUPPORT. What the wipe order removes at the update unit, what it sends at once, and the acceptance of its events (R38, R88, R89). -/
namespace Sys2Proof.Machine

/-! ### What a wipe order removes (R89) -/

/-- The kinds of a list without their trials. -/
def wipedKinds (l : List (Fin 8)) (v : Vector KindRecord 8) : Vector KindRecord 8 :=
  l.foldl (fun v k => tableSet v k (tableGet v k).withoutTrial) v

theorem wipedKinds_get (l : List (Fin 8)) (v : Vector KindRecord 8) (j : Fin 8) :
    tableGet (wipedKinds l v) j = if j ∈ l then (tableGet v j).withoutTrial else tableGet v j := by
  induction l generalizing v with
  | nil => simp [wipedKinds]
  | cons k t ih =>
    have hstep : wipedKinds (k :: t) v = wipedKinds t (tableSet v k (tableGet v k).withoutTrial) := rfl
    rw [hstep, ih]
    by_cases hk : k = j
    · subst hk
      simp [KindRecord.withoutTrial]
    · simp [tableGet_tableSet_ne _ _ hk, Ne.symm hk]

/-- Removing the trials of a list of kinds changes the kinds' table, and nothing else. -/
theorem State.foldl_setKind (l : List (Fin 8)) (s : State) :
    l.foldl (fun s k => s.setKind k (s.kindRecord k).withoutTrial) s =
      { s with update := { s.update with kinds := wipedKinds l s.update.kinds } } := by
  induction l generalizing s with
  | nil => rfl
  | cons k t ih => exact ih _

theorem State.mem_ownerTrials {s : State} {k : Fin 8} :
    k ∈ s.ownerTrials ↔ ∃ x, (s.kindRecord k).trial = some x ∧ x.signer = .owner := by
  simp [State.ownerTrials]

theorem State.ownerTrials_pairwise (s : State) : s.ownerTrials.Pairwise (· < ·) :=
  (List.sortedLT_finRange 8).pairwise.filter _

/-- The session as a wipe order leaves it: one signed by the owner ends. -/
def Session.wiped : Session → Session
  | .opened c => if c.signer = .owner then .idle else .opened c
  | .idle => .idle
  | .checked c => .checked c

/-- The update unit with its wipe order's removals done. -/
def Update.wiped (u : Update) (l : List (Fin 8)) : Update :=
  { u with session := u.session.wiped, kinds := wipedKinds l u.kinds, wipe := .none }

/-- The answer to a wipe order with nothing to remove. -/
def Lifecycle.toldNothing (x : Lifecycle) : Lifecycle :=
  { x with answersSent := { x.answersSent with update := some { erased := 0, failed := 0 } } }

/-- The service of a wipe order that removes `n` trials, as it begins. -/
def wipeBegun (n : Nat) : WipeCount := { removed := n, outstanding := n, failed := 0 }

/-- The part with a session signed by the owner ended. -/
def State.ownerSessionEnded (s : State) : State :=
  match s.update.session with
  | .opened c => if c.signer = SignerClass.owner then { s with update := { s.update with session := .idle } } else s
  | .idle => s
  | .checked _ => s

theorem State.ownerSessionEnded_eq (s : State) :
    s.ownerSessionEnded = { s with update := { s.update with session := s.update.session.wiped } } := by
  have hsame {x : Session} (hx : s.update.session = x) : s = { s with update := { s.update with session := x } } := by rw [← hx]
  unfold State.ownerSessionEnded Session.wiped
  cases hx : s.update.session with
  | idle => exact hsame hx
  | checked x => exact hsame hx
  | opened x =>
    dsimp only
    by_cases ho : x.signer = .owner
    · rw [if_pos ho, if_pos ho]
    · rw [if_neg ho, if_neg ho]
      exact hsame hx

/-- What serving the wipe order does: nothing to remove answers it at once. -/
theorem State.serveUpdateWipe_eq (s : State) : s.serveUpdateWipe =
    if s.ownerTrials.isEmpty then
      { s with update := s.update.wiped s.ownerTrials, lifecycle := s.lifecycle.toldNothing }
    else
      ({ s with update := { s.update.wiped s.ownerTrials with service := some (wipeBegun s.ownerTrials.length) } } : State).push
        .updateWipe (s.ownerTrials.flatMap s.wipeSends ++ [.act .updateWipeSent]) := by
  let removed : State := s.ownerTrials.foldl (fun s k => s.setKind k (s.kindRecord k).withoutTrial) s.ownerSessionEnded
  have hremoved : removed = { s with update :=
      { s.update with session := s.update.session.wiped, kinds := wipedKinds s.ownerTrials s.update.kinds } } := by
    refine (State.foldl_setKind s.ownerTrials s.ownerSessionEnded).trans ?_
    rw [State.ownerSessionEnded_eq]
  have hserve : s.serveUpdateWipe =
      if s.ownerTrials.isEmpty then
        { removed with update := { removed.update with wipe := .none }, lifecycle := removed.lifecycle.toldNothing }
      else
        ({ removed with update := { removed.update with
            wipe := .none, service := some (wipeBegun s.ownerTrials.length) } } : State).push
          .updateWipe (s.ownerTrials.flatMap s.wipeSends ++ [.act .updateWipeSent]) := rfl
  rw [hserve, hremoved]
  rfl

/-- Serving a wipe order does not read whether the order has waited. -/
theorem State.serveUpdateWipe_wipe (s : State) (a : UpdateWipe) :
    ({ s with update := { s.update with wipe := a } } : State).serveUpdateWipe = s.serveUpdateWipe := by
  rw [State.serveUpdateWipe_eq, State.serveUpdateWipe_eq]
  rfl

/-! ### The part with its wipe order served, as far as its sends go at once (R38, R160) -/

/-- The part with its wipe order served: answered when nothing is to be removed, and otherwise with the first trial's write in the store's
queue and its event waiting for an act of its own. -/
def State.wipeServed (s : State) : State :=
  match s.ownerTrials with
  | [] => { s with update := s.update.wiped [], lifecycle := s.lifecycle.toldNothing }
  | k :: rest =>
    ({ s with
      update := { s.update.wiped (k :: rest) with service := some (wipeBegun (k :: rest).length) }
      store := s.store.queued (.kind k (s.kindRecord k).withoutTrial) .updateWipe } : State).awaits .updateWipe
        (.request (.event (.updateLapsed k (((s.kindRecord k).trial.map (·.version)).getD 0) .ownerSignerRemoved))
          :: (rest.flatMap s.wipeSends ++ [.act .updateWipeSent]))

theorem State.wipeServed_none {s : State} (h : s.ownerTrials = []) : s.wipeServed =
    { s with update := s.update.wiped [], lifecycle := s.lifecycle.toldNothing } := by
  unfold State.wipeServed
  rw [h]

theorem State.wipeServed_some {s : State} {k : Fin 8} {rest : List (Fin 8)} (h : s.ownerTrials = k :: rest) : s.wipeServed =
    ({ s with
      update := { s.update.wiped (k :: rest) with service := some (wipeBegun (k :: rest).length) }
      store := s.store.queued (.kind k (s.kindRecord k).withoutTrial) .updateWipe } : State).awaits .updateWipe
        (.request (.event (.updateLapsed k (((s.kindRecord k).trial.map (·.version)).getD 0) .ownerSignerRemoved))
          :: (rest.flatMap s.wipeSends ++ [.act .updateWipeSent])) := by
  unfold State.wipeServed
  rw [h]

theorem State.send_nothing {s : State} {c : Client} (h : s.quiet c) (hc : c ≠ .updateAsk) : s.send c [] = s := by
  rw [State.send_quiet _ h hc, State.setOutbox_same h.1]
  exact State.sendAll_done _ h.1

theorem State.push_quiet {s : State} {c : Client} (l : List Out) (h : s.quiet c) : s.push c l = s.setOutbox c l := by
  unfold State.push
  rw [h.1]
  rfl

/-- What stands in the outbox of a block that waits for no room is sent. -/
theorem State.send_setOutbox {s : State} {c : Client} (l : List Out) (h : s.quiet c) :
    (s.setOutbox c l).send c [] = (s.setOutbox c l).sendLane c := by
  have hpush : (s.setOutbox c l).push c [] = s.setOutbox c l := by
    unfold State.push
    rw [List.append_nil]
    exact State.setOutbox_same rfl
  have hwait : (s.setOutbox c l).isWaiting c = false := h.2
  unfold State.send
  dsimp only
  rw [hpush, hwait]
  rfl

/-- A write that finds room in the store's queue is sent, and the part event behind it waits for an act of its own. -/
theorem State.sendLane_writeEvent {s : State} {c : Client} {w : Write} (t : WriteTo) (e : PartEvent) (more : List Out)
    (hc : c ≠ .updateAsk) (hw : ∀ i v, w ≠ .cred i v) (hlen : s.store.queue.length < storeCapacity)
    (hst : s.measure.starting = false) : (s.setOutbox c (.write w t :: .request (.event e) :: more)).sendLane c =
      ({ s.commitCard t with store := s.store.queued w t } : State).awaits c (.request (.event e) :: more) := by
  have hfuel : (s.setOutbox c (.write w t :: .request (.event e) :: more)).sendFuel c = (more.length + 32) + 1 + 1 := by
    simp only [State.sendFuel, State.setOutbox, Outboxes.get_set, List.length_cons]
  have hcommit : (s.commitCard t).measure = s.measure := by cases t <;> rfl
  have hset : ((s.setOutbox c (.request (.event e) :: more)).enqueue w t) =
      ({ s.commitCard t with store := s.store.queued w t } : State).setOutbox c (.request (.event e) :: more) := by
    rw [State.enqueue_plain _ _ _ hw]
    cases t <;> rfl
  rw [State.sendLane_eq _ hc, hfuel, State.sendAll_write _ _ _ _ hlen, hset]
  refine State.sendAll_waits _ _ more ?_
  simp [State.joinsAtOnce, hcommit, hst]

/-- With nothing to remove the order is answered at once, and nothing is sent. -/
theorem State.serveUpdateWipe_send_none {s : State} (hq : s.quiet .updateWipe) (h : s.ownerTrials = []) :
    s.serveUpdateWipe.send .updateWipe [] = s.wipeServed := by
  rw [State.wipeServed_none h, State.serveUpdateWipe_eq, h]
  exact State.send_nothing (s := { s with update := s.update.wiped [], lifecycle := s.lifecycle.toldNothing }) hq (by decide)

theorem State.serveUpdateWipe_send_some {s : State} {k : Fin 8} {rest : List (Fin 8)} (hroom : s.storeRoom .updateWipe)
    (hst : s.measure.starting = false) (h : s.ownerTrials = k :: rest) : s.serveUpdateWipe.send .updateWipe [] = s.wipeServed := by
  obtain ⟨hq, hlen⟩ := hroom
  let u : State := { s with update := { s.update.wiped (k :: rest) with service := some (wipeBegun (k :: rest).length) } }
  have hserve : s.serveUpdateWipe = u.setOutbox .updateWipe ((k :: rest).flatMap s.wipeSends ++ [.act .updateWipeSent]) := by
    rw [State.serveUpdateWipe_eq, h]
    exact State.push_quiet (s := u) _ hq
  rw [hserve, State.send_setOutbox (s := u) _ hq, State.wipeServed_some h]
  exact State.sendLane_writeEvent (s := u) .updateWipe _ _ (by decide) (by intro i v; simp) hlen hst

/-- A wipe order served with room at the store. -/
theorem State.serveUpdateWipe_send {s : State} (hroom : s.storeRoom .updateWipe) (hst : s.measure.starting = false) :
    s.serveUpdateWipe.send .updateWipe [] = s.wipeServed := by
  cases h : s.ownerTrials with
  | nil => exact State.serveUpdateWipe_send_none hroom.1 h
  | cons k rest => exact State.serveUpdateWipe_send_some hroom hst h

/-- Serving the order does not read whether it has waited. -/
theorem State.wipeServed_wipe (s : State) (a : UpdateWipe) :
    ({ s with update := { s.update with wipe := a } } : State).wipeServed = s.wipeServed := by
  have htrials : ({ s with update := { s.update with wipe := a } } : State).ownerTrials = s.ownerTrials := rfl
  cases h : s.ownerTrials with
  | nil =>
    rw [State.wipeServed_none (htrials.trans h), State.wipeServed_none h]
    rfl
  | cons k rest =>
    rw [State.wipeServed_some (htrials.trans h), State.wipeServed_some h]
    rfl

/-- An order served while a write stands at the front of the store's queue leaves what it would leave behind that write (R160). -/
theorem State.wipeServed_behind {s : State} {r : WriteRequest} {rest : List WriteRequest} (hq : s.store.queue = r :: rest) :
    { s.wipeServed with store := { s.wipeServed.store with queue := s.wipeServed.store.queue.tail } } =
      ({ s with store := { s.store with queue := rest } } : State).wipeServed := by
  have htrials : ({ s with store := { s.store with queue := rest } } : State).ownerTrials = s.ownerTrials := rfl
  cases h : s.ownerTrials with
  | nil =>
    rw [State.wipeServed_none h, State.wipeServed_none (htrials.trans h)]
    simp only [hq, List.tail_cons]
  | cons k more =>
    rw [State.wipeServed_some h, State.wipeServed_some (htrials.trans h)]
    simp only [State.awaits, Store.queued, hq, List.cons_append, List.tail_cons]
    rfl

/-- Serving the order leaves the attempts of the credential unit, and no requester waits behind it for the store. -/
theorem State.wipeServed_frame (s : State) :
    s.wipeServed.store.waiting = s.store.waiting ∧ s.wipeServed.attemptWaits = s.attemptWaits := by
  cases h : s.ownerTrials with
  | nil => rw [State.wipeServed_none h]; exact ⟨rfl, rfl⟩
  | cons k rest => rw [State.wipeServed_some h]; exact ⟨rfl, rfl⟩

/-! ### The wipe order at the update unit (R88, R89) -/

/-- A wipe order that arrives at an update unit with nothing in work or in service is served, unless the session is CHECKED. -/
theorem exec_updateWipeOrder_serves {s : State} (hp : s.powered = true) (ha : s.update.wipe = .arrived) (hw : s.update.work = none)
    (hv : s.update.service = none) (hx : ∀ x, s.update.session ≠ .checked x) :
    exec .updateWipeOrder s = .next (s.serveUpdateWipe.send .updateWipe []) := by
  have e : s.updateWipeOrder = s.serveUpdateWipe.send .updateWipe [] := by
    unfold State.updateWipeOrder
    rw [if_pos (by simp [ha, hw, hv])]
    cases h : s.update.session with
    | idle => rfl
    | opened x => rfl
    | checked x => exact absurd h (hx x)
  exact congrArg Host.Outcome.next ((State.whenPowered_on _ hp).trans e)

theorem exec_updateWipeOrder_holds {s : State} {x : CheckedSession} (hp : s.powered = true) (ha : s.update.wipe = .arrived)
    (hw : s.update.work = none) (hv : s.update.service = none) (hx : s.update.session = .checked x) :
    exec .updateWipeOrder s = .next { s with update := { s.update with wipe := .held } } := by
  have e : s.updateWipeOrder = { s with update := { s.update with wipe := .held } } := by
    unfold State.updateWipeOrder
    rw [if_pos (by simp [ha, hw, hv]), hx]
  exact congrArg Host.Outcome.next ((State.whenPowered_on _ hp).trans e)

/-- A held order is served as soon as the session has left CHECKED and no card is in work. -/
theorem State.serveHeldWipe_free {s : State} (hh : s.update.wipe = .held) (hw : s.update.work = none)
    (hx : ∀ x, s.update.session ≠ .checked x) : s.serveHeldWipe = s.serveUpdateWipe.send .updateWipe [] := by
  have hfree : s.heldWipeIsFree = true := by
    have hcode : s.update.session.code ≠ 2 := by
      cases h : s.update.session with
      | checked x => exact absurd h (hx x)
      | _ => simp [Session.code]
    simp [State.heldWipeIsFree, hh, hw, hcode]
  exact if_pos hfree

/-- A held order stays held while a card is in work. -/
theorem State.serveHeldWipe_working {s : State} {w : Work UpdateStage} (hw : s.update.work = some w) : s.serveHeldWipe = s :=
  if_neg (by simp [State.heldWipeIsFree, hw])

/-- A held order stays held while the session is CHECKED. -/
theorem State.serveHeldWipe_checked {s : State} {x : CheckedSession} (hx : s.update.session = .checked x) : s.serveHeldWipe = s :=
  if_neg (by simp [State.heldWipeIsFree, hx, Session.code])

/-- A held order served at once is the order served as it arrives. -/
theorem exec_updateWipeOrder_held {s : State} (hp : s.powered = true) (hh : s.update.wipe = .held) (hw : s.update.work = none)
    (hv : s.update.service = none) (hx : ∀ x, s.update.session ≠ .checked x) :
    exec .updateWipeOrder { s with update := { s.update with wipe := .arrived } } = .next s.serveHeldWipe := by
  rw [exec_updateWipeOrder_serves (s := { s with update := { s.update with wipe := .arrived } }) hp rfl hw hv hx,
    State.serveUpdateWipe_wipe, State.serveHeldWipe_free hh hw hx]

/-! ### An event of the wipe order accepted (R38, R89) -/

theorem State.pumpMeasure_cons {s : State} {c : Client} {rest : List Client} (n : Nat) (hw : s.measureWaiting = c :: rest)
    (hl : s.measure.internal.length < internalCapacity) :
    State.pumpMeasure (n + 1) s = State.pumpMeasure n (({ s with measureWaiting := rest } : State).joinFirst c) := by
  conv => lhs; unfold State.pumpMeasure
  rw [hw]
  exact if_pos hl

/-- The last event of the order has been sent: the order is answered when its writes have ended before. -/
theorem State.sendLane_wipeSent {s : State} {n : WipeCount} (hn : s.update.service = some n) :
    (s.setOutbox .updateWipe [.act .updateWipeSent]).sendLane .updateWipe =
      if n.outstanding = 0 then (s.setOutbox .updateWipe []).answerUpdateWipe n else s.setOutbox .updateWipe [] := by
  have hperform : (s.setOutbox .updateWipe []).perform .updateWipeSent =
      if n.outstanding = 0 then (s.setOutbox .updateWipe []).answerUpdateWipe n else s.setOutbox .updateWipe [] := by
    have hn' : (s.setOutbox .updateWipe []).update.service = some n := hn
    show (s.setOutbox .updateWipe []).updateWipeSent = _
    unfold State.updateWipeSent
    rw [hn']
  have hdone : ∀ m, State.sendAll .updateWipe m ((s.setOutbox .updateWipe []).perform .updateWipeSent) =
      (s.setOutbox .updateWipe []).perform .updateWipeSent := by
    intro m
    refine State.sendAll_done m ?_
    rw [hperform]
    split <;> rfl
  rw [State.sendLane_eq _ (by decide)]
  unfold State.sendFuel
  refine (State.sendAll_act _ _ []).trans ?_
  rw [hdone, hperform]

/-- The last event of a wipe order is accepted. -/
theorem exec_partEvent_wipeLast {s : State} {e : PartEvent} {n : WipeCount} (h : s.eventWaits .updateWipe e [.act .updateWipeSent])
    (hn : s.update.service = some n) : exec .partEvent s = .next (if n.outstanding = 0 then
      { s.eventTaken .updateWipe e with
        update := { s.update with service := none }
        lifecycle := { s.lifecycle with
          answersSent := { s.lifecycle.answersSent with update := some { erased := n.removed, failed := n.failed } } } }
      else s.eventTaken .updateWipe e) := by
  obtain ⟨hpow, hu, -⟩ := id h
  have hsent := State.sendLane_wipeSent (s := ({ s with measureWaiting := [] } : State).joinList (.event e)) hn
  by_cases h0 : n.outstanding = 0
  · rw [if_pos h0] at hsent ⊢
    exact exec_partEvent_waiting h hsent rfl hpow hu rfl
  · rw [if_neg h0] at hsent ⊢
    exact exec_partEvent_waiting h hsent rfl hpow hu rfl

/-- An event of a wipe order is accepted with another trial behind it: that trial's write goes out, and its event, the only one that waits,
is accepted as well (R38). -/
theorem exec_partEvent_wipeNext {s : State} {e f : PartEvent} {k : Fin 8} {r : KindRecord} {n : WipeCount}
    (h : s.eventWaits .updateWipe e [.write (.kind k r) .updateWipe, .request (.event f), .act .updateWipeSent])
    (hn : s.update.service = some n) (hlen : s.store.queue.length < storeCapacity) (h0 : 0 < n.outstanding) :
    exec .partEvent s = .next { s.eventTaken .updateWipe e with
      store := s.store.queued (.kind k r) .updateWipe
      measure := { s.measure with internal := [.event e, .event f], service := some (.eventDigest e) } } := by
  obtain ⟨hpow, hu, hst, hw, hs, hi, hmw, ho⟩ := h
  let a : State := ({ s with measureWaiting := [] } : State).joinList (.event e)
  let b : State := ({ a with store := s.store.queued (.kind k r) .updateWipe } : State).awaits .updateWipe
    [.request (.event f), .act .updateWipeSent]
  let d : State := (({ b with measureWaiting := [] } : State).joinList (.event f)).setOutbox .updateWipe []
  have hb : ({ s with measureWaiting := [] } : State).joinFirst .updateWipe = b :=
    (State.joinFirst_request (s := { s with measureWaiting := [] }) ho).trans
      (State.sendLane_writeEvent (s := a) .updateWipe f _ (by decide) (by intro i v; simp) hlen hst)
  have hd : ({ b with measureWaiting := [] } : State).joinFirst .updateWipe = d := by
    refine (State.joinFirst_request (s := { b with measureWaiting := [] }) rfl).trans ?_
    rw [State.sendLane_wipeSent (s := ({ b with measureWaiting := [] } : State).joinList (.event f)) hn,
      if_neg (Nat.ne_of_gt h0)]
  have hfuel : s.pumpFuel = internalCapacity - 1 + 1 + 1 := by
    simp [State.pumpFuel, hmw, internalCapacity]
  have harrive : s.requestsArrive = d := by
    unfold State.requestsArrive
    rw [hfuel, State.pumpMeasure_cons _ hmw (by simp [hi, internalCapacity]), hb,
      State.pumpMeasure_cons (s := b) (rest := []) _ rfl (by simp [b, a, State.awaits, State.joinList, hi, internalCapacity]), hd]
    exact State.pumpMeasure_none _ rfl
  have hinternal : d.measure.internal = .event e :: [.event f] := by simp [d, b, a, State.awaits, State.joinList, State.setOutbox, hi]
  rw [exec_partEvent hpow, harrive, State.startUpGoesOn_ended (s := d) hu,
    State.serveEvent_eq (s := d) (e := e) (rest := [.event f]) hpow hst hs hw hinternal]
  simp [d, b, a, State.awaits, State.joinList, State.setOutbox, State.eventTaken, hi]

end Sys2Proof.Machine
end

