-- ==== Sys2Proof/Proofs/HeldWipes.lean ====
section
/-! SUPPORT. A wipe order that a CHECKED session has held, served where the session is left, and the settling of O37. -/
namespace Sys2Proof.Machine

/-! ### An order held while the session was CHECKED (R80, R81, R82, R89) -/

/-- A card handed back, with a held order served where it has become free. -/
theorem State.updateHandBack_serves {s : State} {w : Work UpdateStage} (o : CardOutcome) (d : Option Word32) (b : List OutByte)
    (hw : s.update.work = some w) (hc : s.carries) : s.updateHandBack o d b =
      ({ s.givesBack w.card o d b with update := { s.update with work := none } } : State).serveHeldWipe := by
  unfold State.updateHandBack
  rw [State.updateRelease_eq o d b hw hc]

/-- A card handed back with the session still CHECKED. -/
theorem State.updateRefuse_checked {s : State} {w : Work UpdateStage} {x : CheckedSession} (o : CardOutcome)
    (hw : s.update.work = some w) (hc : s.carries) (hx : s.update.session = .checked x) :
    s.updateRefuse o = { s.givesBack w.card o none [] with update := { s.update with work := none } } :=
  (State.updateHandBack_serves o none [] hw hc).trans (State.serveHeldWipe_checked hx)

theorem State.guardExpiry_late {s : State} {x : CheckedSession} (hx : s.update.session = .checked x) (hw : s.commitInWork = false)
    (ht : 3600 ≤ elapsed s.pace.tick x.guardStart) : s.guardExpiry = s.leaveChecked.serveHeldWipe :=
  if_pos ((State.guardExpires_checked hx).mpr ⟨ht, hw⟩)

theorem State.guardExpiry_early {s : State} {x : CheckedSession} (hx : s.update.session = .checked x)
    (ht : elapsed s.pace.tick x.guardStart < 3600) : s.guardExpiry = s :=
  if_neg fun h => Nat.not_le.mpr ht ((State.guardExpires_checked hx).mp h).1

theorem State.commitInWork_none {s : State} (h : s.update.work = none) : s.commitInWork = false := by
  unfold State.commitInWork
  rw [h]

/-- The guard timer's expiry serves a held order, or leaves it to the card in work. -/
theorem exec_guardTimerExpiry_held {s : State} {x : CheckedSession} (hp : s.powered = true) (hh : s.update.wipe = .held)
    (hx : s.update.session = .checked x) (hv : s.update.service = none) (ht : 3600 ≤ elapsed s.pace.tick x.guardStart) :
    (s.update.work = none → exec .guardTimerExpiry s
        = exec .updateWipeOrder { s.leaveChecked with update := { s.leaveChecked.update with wipe := .arrived } })
      ∧ ∀ w, s.update.work = some w → w.card.code ≠ 0x0306#16 → exec .guardTimerExpiry s = .next s.leaveChecked := by
  have hexec : exec .guardTimerExpiry s = .next s.guardExpiry := congrArg _ (State.whenPowered_on _ hp)
  refine ⟨fun hw => ?_, fun w hw hcode => ?_⟩
  · rw [hexec, State.guardExpiry_late hx (State.commitInWork_none hw) ht]
    exact (exec_updateWipeOrder_held (s := s.leaveChecked) hp hh hw hv (by intro y; simp [State.leaveChecked])).symm
  · have hcommit : s.commitInWork = false := Bool.eq_false_iff.mpr fun hc => by
      obtain ⟨w', hw', hcode'⟩ := State.commitInWork_iff.mp hc
      obtain rfl : w = w' := Option.some.inj (hw.symm.trans hw')
      exact hcode hcode'
    rw [hexec, State.guardExpiry_late hx hcommit ht]
    exact congrArg _ (State.serveHeldWipe_working (s := s.leaveChecked) hw)

theorem exec_updateCancel_held {s : State} {x : CheckedSession} {c : Card} (hp : s.powered = true) (hh : s.update.wipe = .held)
    (hx : s.update.session = .checked x) (hv : s.update.service = none) (hready : s.updateReady 0x0305#16 = some c)
    (hform : noFieldsForm c = none) (hc : s.carries) : exec .updateCancel s = exec .updateWipeOrder
      { (s.begins c).givesBack c .done (some 2#32) [] with
        update := { s.update with session := .idle, guardOn := false, work := none, wipe := .arrived }
        lifecycle := { s.lifecycle with notices := s.lifecycle.notices + 1 } } := by
  let b : State := s.updateBegun c .confirmHash
  have hdrop : b.dropSession = b.leaveChecked := by
    have hb : b.update.session = .checked x := hx
    unfold State.dropSession
    rw [hb]
  have hcode : BitVec.ofNat 32 b.update.session.code = 2#32 := by
    have hb : b.update.session = .checked x := hx
    rw [hb]
    rfl
  have hexec : exec .updateCancel s = .next (b.leaveChecked.updateHandBack .done (some 2#32) []) := by
    show Host.Outcome.next (s.beginUpdate _ _ _) = _
    rw [State.beginUpdate_eq _ _ hready, State.updateCancel_eq (s := b) hform, hdrop, hcode]
  rw [hexec, State.updateHandBack_serves (s := b.leaveChecked)
    (w := { card := c, stage := .confirmHash, abandoned := false, committed := false }) .done (some 2#32) [] rfl hc]
  exact (exec_updateWipeOrder_held
    (s := { b.leaveChecked.givesBack c .done (some 2#32) [] with update := { b.leaveChecked.update with work := none } })
    hp hh rfl hv (by intro y; simp [State.leaveChecked])).symm

/-- The answer to the update unit's card at the end of a write that is DONE. -/
theorem answerWrite_done {s t : State} {w : Write} {first second : Bool} (hok : s.endsDone w first second = true)
    (ht : ({ s with store := (s.store.program w first second).1 } : State).updateWriteEnd w true = t) :
    (s.programmed w first second).answerWrite { write := w, answerTo := .updateCard } (s.endsDone w first second) = t := by
  rw [State.programmed_done hok, hok]
  exact ht

/-- The answer to the update unit's card at the end of a write that fails. -/
theorem answerWrite_fault {s t : State} {w : Write} {rest : List WriteRequest} {first second : Bool}
    (h : s.inWrite w .updateCard rest) (hbad : s.endsDone w first second = false)
    (ht : ({ s with store := (s.store.program w first second).1 } : State).storeFaulted.updateWriteEnd w false = t) :
    (s.programmed w first second).answerWrite { write := w, answerTo := .updateCard } (s.endsDone w first second) = t := by
  obtain ⟨-, hl, he, hr, -⟩ := h
  rw [State.programmed_fault hbad he hr hl, hbad]
  exact ht

/-- The end of a write whose requester's answer serves a held order: the step does what the order would do if it arrived behind the
write. -/
theorem exec_storeWriteEnd_servesWipe {s y : State} {w : Write} {a : WriteTo} {rest : List WriteRequest} {first second : Bool}
    (h : s.inWrite w a rest) (hn : ∀ i v, w ≠ .cred i v)
    (ha : (s.programmed w first second).answerWrite { write := w, answerTo := a } (s.endsDone w first second) = y.serveHeldWipe)
    (hstore : y.store = (s.store.program w first second).1) (hp : y.powered = true) (hh : y.update.wipe = .held)
    (hw : y.update.work = none) (hv : y.update.service = none) (hx : ∀ x, y.update.session ≠ .checked x)
    (hq : y.quiet .updateWipe) (hlen : s.store.queue.length < storeCapacity) (hst : y.measure.starting = false)
    (hc : y.attemptWaits = false) : exec (.storeWriteEnd first second) s = exec .updateWipeOrder
      { y with store := { y.store with queue := rest }, update := { y.update with wipe := .arrived } } := by
  obtain ⟨hpow, -, -, -, -, hqueue, hwait, -⟩ := h
  obtain ⟨hkeepq, hkeepw, -⟩ := s.store.program_queue w first second
  have hyq : y.store.queue = { write := w, answerTo := a } :: rest := by rw [hstore, hkeepq, hqueue]
  have hyw : y.store.waiting = [] := by rw [hstore, hkeepw, hwait]
  have hroom : y.storeRoom .updateWipe := ⟨hq, by rw [hstore, hkeepq]; exact hlen⟩
  obtain ⟨hfw, hfc⟩ := y.wipeServed_frame
  let z : State := { y with store := { y.store with queue := rest } }
  have hzroom : z.storeRoom .updateWipe := ⟨hq, by
    rw [hqueue, List.length_cons] at hlen
    exact Nat.lt_of_succ_lt hlen⟩
  have hserved : y.serveHeldWipe = y.wipeServed := (State.serveHeldWipe_free hh hw hx).trans (State.serveUpdateWipe_send hroom hst)
  have hleft : z.serveHeldWipe = z.wipeServed :=
    (State.serveHeldWipe_free (s := z) hh hw hx).trans (State.serveUpdateWipe_send hzroom hst)
  rw [exec_storeWriteEnd hpow hqueue hn (ha.trans hserved) (hfw.trans hyw) (hfc.trans hc) rfl, State.wipeServed_behind hyq, ← hleft]
  exact (exec_updateWipeOrder_held (s := z) hp hh hw hv hx).symm

/-- The end of a BOOT ADVICE's output, with a held order that waits for the card (log entry 42). -/
theorem exec_extentDmaEnd_update {s : State} {c : Card} {l : List Byte} {d : Option Word32} {body : List OutByte} (h : HostWrites)
    (hp : s.powered = true) (hl : s.linkUp = true) (hw : s.update.work = working c (.writeOut l d body) false) :
    exec (.extentDmaEnd .update h .answered) s =
      .next (((s.hostStores h).writeOutput c true 0 l).updateHandBack .done d body) := by
  have hok : (dmaAnswered .answered && s.linkUp && !s.isCut .update) = true := by
    simp [dmaAnswered, hl, State.isCut, hw, working]
  have hpending : s.dmaPending .update = true := by simp [State.dmaPending, hw, working]
  rw [exec_extentDmaEnd h .answered hp hpending hok]
  have hw' : (s.hostStores h).update.work = working c (.writeOut l d body) false := hw
  show Host.Outcome.next ((s.hostStores h).updateDmaEnd true 0) = _
  unfold State.updateDmaEnd
  simp only [hw', working, Bool.false_eq_true, if_false, if_true]

/-- Settles O37: the order as it arrives, its events, and the moments at which a held order is served. -/
theorem updateUnitWipes : Obligations.UpdateUnitWipes := by
  refine ⟨?arrives, ?events, ?held, ?dma⟩
  case arrives =>
    intro s hp ha hw hv hq session owned event write
    refine ⟨?_, ?_, ?_, fun k => State.mem_ownerTrials, s.ownerTrials_pairwise⟩
    · exact fun x hx => exec_updateWipeOrder_holds hp ha hw hv hx
    · intro hx hnone
      have htrials : s.ownerTrials = [] :=
        List.eq_nil_iff_forall_not_mem.mpr fun k hk => hnone k (State.mem_ownerTrials.mp hk)
      rw [exec_updateWipeOrder_serves hp ha hw hv hx, State.serveUpdateWipe_send_none hq htrials, State.wipeServed_none htrials]
      rfl
    · intro k rest hx htrials hlen hst n
      have hn : n = (k :: rest).length := congrArg List.length htrials
      have hkind (j : Fin 8) : s.wipeServed.kindRecord j =
          if j ∈ s.ownerTrials then (s.kindRecord j).withoutTrial else s.kindRecord j := by
        rw [State.wipeServed_some htrials, htrials]
        exact wipedKinds_get (k :: rest) s.update.kinds j
      refine ⟨s.wipeServed, ?_, fun j hj => ?_, fun j hj => ?_, ?_⟩
      · rw [exec_updateWipeOrder_serves hp ha hw hv hx, State.serveUpdateWipe_send ⟨hq, hlen⟩ hst]
      · exact (hkind j).trans (if_pos (State.mem_ownerTrials.mpr hj))
      · exact (hkind j).trans (if_neg fun h => hj (State.mem_ownerTrials.mp h))
      · rw [State.wipeServed_some htrials, hn]
        exact ⟨rfl, rfl, rfl, rfl, rfl, rfl, rfl, rfl, rfl, rfl, rfl⟩
  case events =>
    intro s e f k r n hn
    exact ⟨fun h hlen h0 => exec_partEvent_wipeNext h hn hlen h0, fun h => exec_partEvent_wipeLast h hn⟩
  case held =>
    intro s x hp hh hx hv left told
    refine ⟨fun ht => exec_guardTimerExpiry_held hp hh hx hv ht, fun c hready hform hc => ?_, ?_⟩
    · exact exec_updateCancel_held hp hh hx hv hready hform hc
    · intro k v new first second rest c h hwork hnew hq hlen hst ok u ends fails
      obtain ⟨-, -, -, -, hcarry, -, -, hattempt⟩ := id h
      let p : State := { s with store := (s.store.program (.kind k v) first second).1 }
      have hpq : p.quiet .updateWipe := State.programmed_quiet _ first second hq
      have hn : ∀ i y, Write.kind k v ≠ .cred i y := by intro i y; simp
      refine ⟨fun hok => ?done, fun hbad ht => ?late, fun hbad ht => ?early⟩
      case done =>
        have hanswer := (State.updateWriteEnd_commit (s := p) (k := k) hwork hnew).trans
          (State.updateHandBack_serves (s := (p.setKind k v).leaveChecked) .done none _ hwork hcarry)
        have hserve := exec_storeWriteEnd_servesWipe h hn (answerWrite_done hok hanswer) rfl hp hh rfl hv
          (by intro y; simp [State.leaveChecked]) hpq hlen hst hattempt
        exact hserve
      all_goals
        have hrefused := State.updateRefuse_checked (s := p.storeFaulted) .storeFault hwork hcarry hx
        have hanswer := (State.updateWriteEnd_commit_fault (s := p.storeFaulted) (k := k) hwork).trans
          (congrArg State.guardExpiry hrefused)
      case late =>
        have hlate := hanswer.trans (State.guardExpiry_late hx (State.commitInWork_none rfl) ht)
        have hserve := exec_storeWriteEnd_servesWipe h hn (answerWrite_fault h hbad hlate) rfl hp hh rfl hv
          (by intro y; simp [State.leaveChecked]) hpq hlen hst hattempt
        exact hserve
      case early =>
        have hearly := hanswer.trans (State.guardExpiry_early hx ht)
        have hkept := exec_storeWriteEnd_inWrite_fault h hn hbad hearly rfl hattempt
        exact hkept
  case dma =>
    intro s c h l d body hp hl hc hh hx hv hw
    let t : State := (s.hostStores h).writeOutput c true 0 l
    rw [exec_extentDmaEnd_update h hp hl hw, State.updateHandBack_serves (s := t) .done d body hw hc]
    exact (exec_updateWipeOrder_held (s := { t.givesBack c .done d body with update := { t.update with work := none } })
      hp hh rfl hv hx).symm

end Sys2Proof.Machine
end

