-- ==== Sys2Proof/Proofs/CredentialOps.lean ====
section
/-! SUPPORT. The credential unit's operations where their side conditions are met: a card begun, the places of its table, a draw, the
randomness gate, and a write of a record sent and ended (R92 to R96, R100, R107, R160, R161). -/
namespace Sys2Proof.Machine

/-! ### A card begun -/

/-- The part with a card of the credential unit begun, before the first of its checks (R178). -/
def State.credBegun (s : State) (c : Card) : State :=
  { s with credential := { s.credential with work := working c .gate false }, exch := s.exch.begun c }

theorem State.beginCred_eq {s : State} {code : Word16} {c : Card} (body : Card → State → State) (h : s.credReady code = some c) :
    s.beginCred code body = body c (s.credBegun c) := by
  unfold State.beginCred
  rw [h]
  rfl

/-- A card about a record passes the checks behind its form where the place holds a record and no release is pending (R96). -/
theorem State.onRecord_eq {s : State} {c : Card} {e : CredEntry} (body : CredEntry → State → State)
    (hp : s.lifecycle.pending = false) (he : s.cred c.place = some e) : s.onRecord c body = body e s := by
  unfold State.onRecord
  simp [hp, he]

/-! ### The table's places (R92, R93) -/

@[simp] theorem tableSet_tableSet {α : Type} {n : Nat} (v : Vector α n) (i : Fin n) (x y : α) :
    tableSet (tableSet v i x) i y = tableSet v i y := by simp [tableSet]

@[simp] theorem State.setCred_setCred (i : Fin 32) (x y : Option CredEntry) (s : State) : (s.setCred i x).setCred i y = s.setCred i y := by
  simp [State.setCred]

/-- The first place of an ascending search is the one that no lower place comes before. -/
theorem find?_finRange_first {n : Nat} {p : Fin n → Bool} {i : Fin n} (h : p i = true) (hlow : ∀ j, j < i → p j = false) :
    (List.finRange n).find? p = some i := by
  rw [List.find?_eq_some_iff_getElem]
  refine ⟨h, i.val, by simp, by simp, fun j hj => ?_⟩
  simp [hlow ⟨j, by omega⟩ hj]

theorem State.emptyPlace_lowest {s : State} {i : Fin 32} (h : s.cred i = none) (hlow : ∀ j, j < i → s.cred j ≠ none) :
    s.emptyPlace = some i :=
  find?_finRange_first (by simp [h]) fun j hj => by
    simpa [Option.isSome_iff_ne_none] using hlow j hj

theorem State.emptyPlace_isSome {s : State} (h : ∃ i, s.cred i = none) : s.emptyPlace.isNone = false := by
  obtain ⟨i, hi⟩ := h
  have hfound : s.emptyPlace.isSome = true := List.find?_isSome.mpr ⟨i, List.mem_finRange i, by simp [hi]⟩
  simpa using hfound

theorem State.factoryPlace_lowest {s : State} {i : Fin 32} {e : CredEntry} (h : s.cred i = some e) (hf : e.record.cls = .factory)
    (hlow : ∀ j, j < i → ∀ x, s.cred j = some x → x.record.cls ≠ .factory) : s.factoryPlace = some i := by
  refine find?_finRange_first (by simp [h, hf]) fun j hj => ?_
  cases hc : s.cred j with
  | none => rfl
  | some x => simp [hlow j hj x hc]

theorem State.factoryPlace_none {s : State} (h : ∀ j x, s.cred j = some x → x.record.cls ≠ .factory) : s.factoryPlace = none := by
  refine List.find?_eq_none.mpr fun j _ => ?_
  cases hc : s.cred j with
  | none => simp
  | some x => simp [h j x hc]

/-! ### Draws and the gate (R94, R107, R153, R154) -/

@[simp] theorem drawnBytes_length (seed : Key256) (n : Nat) : (drawnBytes seed n).length = n := by simp [drawnBytes]

/-- A slice of a list that is long enough drops what stands before it and takes its bytes. -/
theorem sliceBytes_eq_take_drop {l : List Byte} {off n : Nat} (h : off + n ≤ l.length) : sliceBytes l off n = (l.drop off).take n := by
  apply List.ext_getElem
  · simp [sliceBytes]
    omega
  · intro i hi _
    have hi' : i < n := by simpa [sliceBytes] using hi
    have hoff : off + i < l.length := by omega
    simp [sliceBytes, List.getD_eq_getElem?_getD, hoff]

/-- The salt of a draw is its first 16 bytes (R94). -/
theorem State.drawnSalt_eq (s : State) (sealed : Bool) :
    s.drawnSalt sealed = strOf 128 ((drawnBytes s.census.seed (drawSize sealed)).take 16) := by
  have hlen : 0 + 16 ≤ (drawnBytes s.census.seed (drawSize sealed)).length := by cases sealed <;> simp [drawSize]
  unfold State.drawnSalt State.drawn
  rw [sliceBytes_eq_take_drop hlen, List.drop_zero]

/-- A draw of a salt alone is the salt. -/
theorem State.drawnSalt_alone (s : State) : s.drawnSalt false = strOf 128 (drawnBytes s.census.seed 16) := by
  rw [State.drawnSalt_eq, List.take_of_length_le (by simp [drawSize])]
  rfl

/-- A secret that is sealed takes the 12 bytes behind the salt as its nonce (R94, log entry 22). -/
theorem State.drawnSeal_sealed (s : State) (secret : List Byte) :
    s.drawnSeal true secret = some (sealSecret (strOf 96 ((drawnBytes s.census.seed 28).drop 16)) secret) := by
  have hnonce : sliceBytes (drawnBytes s.census.seed 28) 16 12 = (drawnBytes s.census.seed 28).drop 16 := by
    rw [sliceBytes_eq_take_drop (by simp), List.take_of_length_le (by simp)]
  unfold State.drawnSeal State.drawn
  rw [hnonce]
  rfl

theorem State.credGate_healthy {s : State} (next : State → State) (h : s.census.state = .healthy) : s.credGate next = next s := by
  simp [State.credGate, State.gate, h]

/-! ### A write of a record is sent (R100, R160) -/

/-- The write of a credential record joins the store's queue, and the record counts it, where no refresh is held to be dropped. -/
theorem State.enqueue_cred {s : State} (i : Fin 32) (v : Option CredRecord) {t : WriteTo} (ht : t ≠ .credReplace)
    (hf : s.outboxes.refresh = []) : s.enqueue (.cred i v) t = { s.commitCard t with
      credential := { (s.commitCard t).credential with
        table := tableSet s.credential.table i ((s.cred i).map CredEntry.writeSent) }
      store := s.store.queued (.cred i v) t } := by
  have hsent : s.asSent (.cred i v) t = .cred i v := by
    cases t with
    | credReplace => exact absurd rfl ht
    | _ => cases v <;> rfl
  have hout : (s.commitCard t).outboxes.refresh = [] := by cases t <;> exact hf
  have htable : (s.commitCard t).credential.table = s.credential.table := by cases t <;> rfl
  have hcred : (s.commitCard t).cred i = s.cred i := congrArg (tableGet · i) htable
  have hstore : (s.commitCard t).store = s.store := by cases t <;> rfl
  have hdrop : (s.commitCard t).dropRefresh i = s.commitCard t := by
    unfold State.dropRefresh
    rw [hout]
    exact State.setOutbox_same (c := .refresh) hout
  unfold State.enqueue
  dsimp only
  rw [hsent]
  dsimp only
  rw [hdrop]
  unfold State.setCred
  rw [htable, hcred]
  dsimp only
  rw [hstore]
  rfl

theorem State.send_cred {s : State} (i : Fin 32) (v : Option CredRecord) {t : WriteTo} (ht : t ≠ .credReplace)
    (h : s.storeRoom .credential) (hf : s.outboxes.refresh = []) : s.send .credential [.write (.cred i v) t] = { s.commitCard t with
      credential := { (s.commitCard t).credential with
        table := tableSet s.credential.table i ((s.cred i).map CredEntry.writeSent) }
      store := s.store.queued (.cred i v) t } := by
  have hout : (s.enqueue (.cred i v) t).outboxes.get .credential = [] := by
    rw [State.enqueue_cred i v ht hf]
    refine Eq.trans ?_ h.1.1
    cases t <;> rfl
  rw [State.send_write _ _ h (by decide) hout, State.enqueue_cred i v ht hf]

/-- A write of the card in work commits the card. -/
theorem State.credWrite_eq {s : State} {c : Card} {before : CredStage} {m : Bool} (i : Fin 32) (v : Option CredRecord) (x : CredStage)
    (hw : s.credential.work = working c before m) (h : s.storeRoom .credential) (hf : s.outboxes.refresh = []) :
    s.credWrite i v .credCard x = { s with
      credential := { s.credential with
        table := tableSet s.credential.table i ((s.cred i).map CredEntry.writeSent), work := working c x true }
      store := s.store.queued (.cred i v) .credCard } := by
  refine (State.send_cred (s := s.credStage x) i v (by decide) h hf).trans ?_
  unfold State.commitCard State.credStage
  rw [hw]
  rfl

/-! ### The end of a record's write (R100, R160, R161) -/

theorem State.askStoreFault_frame (s : State) : s.askStoreFault.credential = s.credential ∧ s.askStoreFault.exch.area = s.exch.area
    ∧ s.askStoreFault.store.queue = s.store.queue ∧ s.askStoreFault.store.waiting = s.store.waiting := by
  unfold State.askStoreFault
  split
  · exact ⟨rfl, rfl, rfl, rfl⟩
  · rw [State.ask_eq]
    exact ⟨rfl, rfl, rfl, rfl⟩

/-- A write carried out leaves the credential unit, the area, the store's queue and its waiting requesters as they were. -/
theorem State.programmed_frame (s : State) (w : Write) (first second : Bool) :
    (s.programmed w first second).credential = s.credential ∧ (s.programmed w first second).exch.area = s.exch.area
      ∧ (s.programmed w first second).store.queue = s.store.queue
      ∧ (s.programmed w first second).store.waiting = s.store.waiting := by
  obtain ⟨hqueue, hwaiting, -⟩ := s.store.program_queue w first second
  unfold State.programmed
  dsimp only
  split
  · exact ⟨rfl, rfl, hqueue, hwaiting⟩
  · obtain ⟨hcred, harea, hq, hw⟩ := ({ s with store := (s.store.program w first second).1 } : State).askStoreFault_frame
    exact ⟨hcred, harea, hq.trans hqueue, hw.trans hwaiting⟩

/-- The part as the requester of a record's write learns its end: the write is carried out, and the record counts one write fewer. -/
def State.atWriteEnd (s : State) (i : Fin 32) (v : Option CredRecord) (first second : Bool) : State :=
  (s.programmed (.cred i v) first second).setCred i ((s.cred i).map CredEntry.writeOver)

theorem State.atWriteEnd_cred (s : State) (i : Fin 32) (v : Option CredRecord) (first second : Bool) :
    (s.atWriteEnd i v first second).cred i = (s.cred i).map CredEntry.writeOver := tableGet_tableSet_same _ _ _

theorem State.atWriteEnd_setCred (s : State) (i : Fin 32) (v : Option CredRecord) (first second : Bool) (x : Option CredEntry) :
    (s.atWriteEnd i v first second).setCred i x = (s.programmed (.cred i v) first second).setCred i x := State.setCred_setCred _ _ _ _

theorem State.atWriteEnd_work (s : State) (i : Fin 32) (v : Option CredRecord) (first second : Bool) :
    (s.atWriteEnd i v first second).credential.work = s.credential.work := by
  obtain ⟨hcred, -⟩ := s.programmed_frame (.cred i v) first second
  unfold State.atWriteEnd State.setCred
  rw [hcred]

/-- A place left as the end of its write finds it. -/
theorem State.atWriteEnd_same (s : State) (i : Fin 32) (v : Option CredRecord) (first second : Bool) :
    (s.atWriteEnd i v first second).setCred i ((s.cred i).map CredEntry.writeOver) = s.atWriteEnd i v first second :=
  State.setCred_setCred _ _ _ _

/-- The end of a record's write: its requester is answered, and the write leaves the queue. -/
theorem exec_storeWriteEnd_cred {s t : State} {i : Fin 32} {v : Option CredRecord} {a : WriteTo} {rest : List WriteRequest}
    {first second : Bool} (hp : s.powered = true) (hq : s.store.queue = { write := .cred i v, answerTo := a } :: rest)
    (ha : (s.atWriteEnd i v first second).answerWrite { write := .cred i v, answerTo := a } (s.endsDone (.cred i v) first second) = t)
    (hw : t.store.waiting = []) (hc : t.attemptWaits = false) (hm : t.store.queue.tail = rest) :
    exec (.storeWriteEnd first second) s = .next { t with store := { t.store with queue := rest } } := by
  have hcred : (s.programmed (.cred i v) first second).cred i = s.cred i := by
    obtain ⟨h, -⟩ := s.programmed_frame (.cred i v) first second
    exact congrArg (fun u : Credential => tableGet u.table i) h
  have hover : (s.programmed (.cred i v) first second).credWriteOver (.cred i v) = s.atWriteEnd i v first second := by
    unfold State.credWriteOver State.atWriteEnd
    dsimp only
    rw [hcred]
  have e : s.storeWriteEnd first second = t.leaveQueue := by
    unfold State.storeWriteEnd
    rw [hq, ← ha, ← hover]
    rfl
  show Host.Outcome.next (s.whenPowered _) = _
  rw [State.whenPowered_on _ hp, e, State.leaveQueue_none hw hc, hm]

/-- The card in work goes on to another stage, with the record's place left holding `x`. -/
theorem State.atWriteEnd_credStage {s : State} {c : Card} {before : CredStage} {m : Bool} (i : Fin 32) (v : Option CredRecord)
    (first second : Bool) (x : Option CredEntry) (stage : CredStage) (hw : s.credential.work = working c before m) :
    ((s.atWriteEnd i v first second).setCred i x).credStage stage = { s.programmed (.cred i v) first second with
      credential := { s.credential with table := tableSet s.credential.table i x, work := working c stage m } } := by
  obtain ⟨hcred, -⟩ := s.programmed_frame (.cred i v) first second
  rw [State.atWriteEnd_setCred]
  unfold State.credStage State.setCred
  rw [hcred, hw]
  rfl

/-- The end of a write of a credential card that goes on. -/
theorem exec_storeWriteEnd_goesOn {s t : State} {i : Fin 32} {v : Option CredRecord} {a : WriteTo} {rest : List WriteRequest}
    {first second : Bool} (hp : s.powered = true) (hq : s.store.queue = { write := .cred i v, answerTo := a } :: rest)
    (ha : a = .credCard ∨ a = .credReplace) (hwait : s.store.waiting = [])
    (hend : (s.atWriteEnd i v first second).credWriteEnd (.cred i v) (s.endsDone (.cred i v) first second) = t)
    (hstore : t.store = (s.programmed (.cred i v) first second).store) (hc : t.attemptWaits = false) :
    exec (.storeWriteEnd first second) s = .next { t with store := { t.store with queue := rest } } := by
  obtain ⟨-, -, hqueue, hwaiting⟩ := s.programmed_frame (.cred i v) first second
  have hanswer : (s.atWriteEnd i v first second).answerWrite { write := .cred i v, answerTo := a }
      (s.endsDone (.cred i v) first second) = t := by obtain rfl | rfl := ha <;> exact hend
  exact exec_storeWriteEnd_cred hp hq hanswer (by rw [hstore, hwaiting, hwait]) hc (by rw [hstore, hqueue, hq]; rfl)

/-- The end of a record's write that hands the card in work back, with the record's place left holding `e`. -/
theorem exec_storeWriteEnd_handsBack {s : State} {w : Work CredStage} {i : Fin 32} {v : Option CredRecord} {a : WriteTo}
    {rest : List WriteRequest} {first second : Bool} (hp : s.powered = true)
    (hq : s.store.queue = { write := .cred i v, answerTo := a } :: rest) (ha : a = .credCard ∨ a = .credReplace)
    (hwait : s.store.waiting = []) (hc : s.carries) (hw : s.credential.work = some w) (o : CardOutcome) (d : Option Word32)
    (b : List OutByte) (e : Option CredEntry)
    (hend : (s.atWriteEnd i v first second).credWriteEnd (.cred i v) (s.endsDone (.cred i v) first second) =
      ((s.atWriteEnd i v first second).setCred i e).credHandBack o d b) :
    exec (.storeWriteEnd first second) s = .next { (s.programmed (.cred i v) first second).givesBack w.card o d b with
      credential := { s.credential with table := tableSet s.credential.table i e, work := none }
      store := { (s.programmed (.cred i v) first second).store with queue := rest } } := by
  obtain ⟨hcred, harea, hqueue, hwaiting⟩ := s.programmed_frame (.cred i v) first second
  have hcarry : ((s.programmed (.cred i v) first second).setCred i e).carries := by
    unfold State.carries at hc ⊢
    exact harea ▸ hc
  have hanswer : (s.atWriteEnd i v first second).answerWrite { write := .cred i v, answerTo := a }
      (s.endsDone (.cred i v) first second) = ((s.programmed (.cred i v) first second).setCred i e).credHandBack o d b := by
    rw [← State.atWriteEnd_setCred]
    obtain rfl | rfl := ha <;> exact hend
  have hback := State.credHandBack_eq (s := (s.programmed (.cred i v) first second).setCred i e) (w := w) o d b
    (by rw [← hw, ← hcred]; rfl) hcarry
  have hreached := exec_storeWriteEnd_cred (rest := rest) hp hq (hanswer.trans hback) (hwaiting.trans hwait) rfl
    (congrArg List.tail (hqueue.trans hq))
  rw [hreached]
  unfold State.setCred
  rw [hcred]
  rfl

end Sys2Proof.Machine
end

