-- ==== Sys2Proof/Proofs/Attempts.lean ====
section
/-! SUPPORT. An attempt at a record: how it is paced, what its comparison writes, and what the end of that write brings; O39 and O40 are
settled here (R98 to R100, R105, R106, R108, R109, R111, R112). -/
namespace Sys2Proof.Machine

/-! ### Pacing (R98) -/

theorem CredEntry.busy_eq_false {e : CredEntry} (ha : e.attempt = false) (hw : e.writes = 0) : e.busy = false := by
  simp [CredEntry.busy, ha, hw]

theorem State.attempt_throttled {s : State} {w : Work CredStage} {id : Fin 32} {e : CredEntry} (c : Card) (salt : Option Salt)
    (hw : s.credential.work = some w) (he : s.cred id = some e) (hb : e.busy = false) (hc : s.carries)
    (hlock : e.record.policy.lock ≤ e.working) : s.attempt c id salt = {
      s.givesBack w.card .throttled (some (BitVec.ofNat 32 e.working))
        (outNum 2 e.working ++ outNum 2 e.record.policy.lock ++ outNum 1 (e.working / 512)) with
      credential := { s.credential with work := none } } := by
  have hadmission : admission s.pace.tick e.working e.record.policy.lock e.record.lastTick = .throttled := if_pos hlock
  unfold State.attempt
  simp only [he, hb, Bool.false_eq_true, if_false, hadmission]
  exact State.credHandBack_eq _ _ _ hw hc

theorem State.attempt_tooSoon {s : State} {w : Work CredStage} {id : Fin 32} {e : CredEntry} (c : Card) (salt : Option Salt)
    (hw : s.credential.work = some w) (he : s.cred id = some e) (hb : e.busy = false) (hc : s.carries)
    (hlock : e.working < e.record.policy.lock) (hsoon : (s.pace.tick - e.record.lastTick).toNat < e.working / 512) :
    s.attempt c id salt = {
      s.givesBack w.card .tooSoon (some (BitVec.ofNat 32 (e.working / 512 - (s.pace.tick - e.record.lastTick).toNat)))
        (outNum 2 e.working ++ outNum 1 (e.working / 512)) with
      credential := { s.credential with work := none } } := by
  have hadmission : admission s.pace.tick e.working e.record.policy.lock e.record.lastTick
      = .tooSoon (ticksToWait s.pace.tick e.record.lastTick e.working) := (if_neg (Nat.not_le.mpr hlock)).trans (if_pos hsoon)
  unfold State.attempt
  simp only [he, hb, Bool.false_eq_true, if_false, hadmission]
  exact State.credHandBack_eq _ _ _ hw hc

/-- An attempt neither throttled nor too soon is admitted: the record is busy, the card committed, and the presented secret's HMAC goes to
the engine (R98, R99). -/
theorem State.attempt_admitted {s : State} {c : Card} {before : CredStage} {m : Bool} {id : Fin 32} {e : CredEntry} (salt : Option Salt)
    (hw : s.credential.work = working c before m) (he : s.cred id = some e) (hb : e.busy = false)
    (hlock : e.working < e.record.policy.lock) (hpace : e.working / 512 ≤ (s.pace.tick - e.record.lastTick).toNat) :
    s.attempt c id salt = { s with
      credential := { s.credential with
        table := tableSet s.credential.table id (some { e with attempt := true })
        work := working c (.compare id e.working s.pace.tick salt) true }
      hash := s.hash.submit .credential (verifierJob e.record.salt (presentedSecret c)) } := by
  have hadmission : admission s.pace.tick e.working e.record.policy.lock e.record.lastTick = .admitted :=
    (if_neg (Nat.not_le.mpr hlock)).trans (if_neg (Nat.not_lt.mpr hpace))
  unfold State.attempt
  simp only [he, hb, Bool.false_eq_true, if_false, hadmission]
  unfold State.startAttempt State.credStage State.credCommit State.setCred State.hashSubmit
  dsimp only
  rw [hw]
  rfl

/-- CRED VERIFY at a record is an attempt at it, by the card just begun (R105). -/
theorem exec_credVerify {s : State} {c : Card} {e : CredEntry} (h : s.credReady 0x0402#16 = some c) (hf : credVerifyForm c = none)
    (hp : s.lifecycle.pending = false) (he : s.cred c.place = some e) :
    exec .credVerify s = .next ((s.credBegun c).attempt c c.place none) := by
  show Host.Outcome.next (s.beginCred 0x0402#16 State.credVerify) = _
  rw [State.beginCred_eq _ h]
  unfold State.credVerify
  rw [hf]
  exact congrArg Host.Outcome.next (State.onRecord_eq (s := s.credBegun c) _ hp he)

/-- Settles O39, from the three ways in which an attempt is admitted or refused. -/
theorem attemptsArePaced : Obligations.AttemptsArePaced := by
  intro s c e h hf hp he ha hn debt lock passed
  have hb := CredEntry.busy_eq_false ha hn
  have hexec := exec_credVerify h hf hp he
  refine ⟨fun hlock hc => ?throttled, fun hlock hsoon hc => ?tooSoon, fun hlock hpace => ?admitted⟩
  case throttled =>
    rw [hexec, State.attempt_throttled (s := s.credBegun c) c none rfl he hb hc hlock]
    rfl
  case tooSoon =>
    rw [hexec, State.attempt_tooSoon (s := s.credBegun c) c none rfl he hb hc hlock hsoon]
    rfl
  case admitted =>
    obtain ⟨-, -, hcode⟩ := State.credReady_iff.mp h
    have hsecret : presentedSecret c = c.fieldBytes 2 (c.field 1 1) := if_pos hcode
    rw [hexec, State.attempt_admitted (s := s.credBegun c) none rfl he hb hlock hpace, hsecret]
    rfl

/-! ### The end of a verifier's job (R94, R142) -/

/-- The one piece of a verifier's job: a salt and a secret fit in it. -/
def verifierRun (salt : Salt) (secret : List Byte) : HashRun :=
  { client := .credential, job := verifierJob salt secret, withdrawn := false }

theorem State.verifierPiece_ends (s : State) (salt : Salt) {secret : List Byte} (ok : Bool) (h : secret.length ≤ 64) :
    s.pieceEnded (verifierRun salt secret) ok = s.credHashEnd (Config.hmacSha256 Config.credentialKey (strBytes salt ++ secret)) := by
  have hlen : (strBytes salt ++ secret).length ≤ 4096 := by
    simp only [List.length_append, strBytes, leBytes_length]
    omega
  have htake : (strBytes salt ++ secret).take 4096 = strBytes salt ++ secret := List.take_of_length_le hlen
  have hdrop : (strBytes salt ++ secret).drop 4096 = [] := List.drop_of_length_le hlen
  simp [State.pieceEnded, verifierRun, verifierJob, verifierInput, HashJob.afterPiece, HashJob.pieceBytes, ByteSource.afterPiece,
    ByteSource.isEmpty, ByteSource.isExtents, pieceSize, htake, hdrop, State.pieceNotice, State.jobEnded, State.hashEnded,
    HashJob.result]

/-- The end of a verifier's job after start-up brings the unit the verifier, and the next grant follows. -/
theorem exec_hashPieceEnd_verifier {s t : State} {salt : Salt} {secret : List Byte} (h : HostWrites) (answered : Bool)
    (hp : s.powered = true) (hl : secret.length ≤ 64) (hr : s.hash.running = some (verifierRun salt secret))
    (ht : (s.atPieceEnd h .credential).credHashEnd (Config.hmacSha256 Config.credentialKey (strBytes salt ++ secret)) = t)
    (he : t.startUp = .ended) : exec (.hashPieceEnd h answered) s = .next { t with hash := t.hash.release } :=
  exec_hashPieceEnd_ended h hp hr rfl ((State.verifierPiece_ends _ salt _ hl).trans ht) he

/-! ### The comparison (R99, R111, R112) -/

theorem State.credHashEnd_compare {s : State} {c : Card} {id : Fin 32} {debt : Nat} {tick : Word32} {claim : Option Salt} {m : Bool}
    (d : Digest) (hs : s.credential.service = none) (hw : s.credential.work = working c (.compare id debt tick claim) m) :
    s.credHashEnd d = s.compared c id debt tick claim d := by
  unfold State.credHashEnd
  simp only [hs, hw, working]

/-- A comparison's result is written before it is answered (R99). -/
theorem State.compared_writes {s : State} {c : Card} {before : CredStage} {m : Bool} {id : Fin 32} {e : CredEntry} {d : Digest}
    (debt : Nat) (tick : Word32) (claim : Option Salt) (hw : s.credential.work = working c before m) (he : s.cred id = some e)
    (hcode : c.code ≠ 0x0404#16 ∨ decide (d = e.record.verifier) = false) (hroom : s.storeRoom .credential)
    (hf : s.outboxes.refresh = []) :
    let hit := decide (d = e.record.verifier)
    let r := e.record.attempted debt tick hit
    s.compared c id debt tick claim d = { s with
      credential := { s.credential with
        table := tableSet s.credential.table id (some { e with writes := e.writes + 1 })
        work := working c (.attemptWrite id r hit claim) true }
      store := s.store.queued (.cred id (some r)) .credCard } := by
  intro hit r
  have hcond : ¬(c.code = 0x0404#16 ∧ hit = true) := fun ⟨hc, hh⟩ => hcode.elim (· hc) fun hm => by simp [hit, hm] at hh
  have hcompared : s.compared c id debt tick claim d = s.credWrite id (some r) .credCard (.attemptWrite id r hit claim) := by
    unfold State.compared
    rw [he]
    exact if_neg hcond
  rw [hcompared, State.credWrite_eq id (some r) _ hw hroom hf, he]
  rfl

/-- The draw of a replacement: its salt, and for a RELEASABLE record the nonce that seals its secret, and its verifier's job (R112). -/
theorem State.replaceDraw_eq {s : State} {c : Card} {before : CredStage} {m : Bool} {e : CredEntry} {n : Nat}
    (att : Option (Nat × Word32)) (hw : s.credential.work = working c before m)
    (hn : n = if e.record.kind = .releasable then 28 else 16) :
    let drawn := drawnBytes s.census.seed n
    let salt : Salt := strOf 128 (drawn.take 16)
    let new := c.fieldBytes 3 (c.field 1 1)
    let copy := if e.record.kind = .releasable then some (sealSecret (strOf 96 (drawn.drop 16)) new) else none
    s.replaceDraw c e att = { s with
      census := { s.census with seed := Config.drawAdvance s.census.seed n }
      credential := { s.credential with work := working c (.replaceHash c.place salt copy att) m }
      hash := s.hash.submit .credential (verifierJob salt new) } := by
  unfold State.replaceDraw State.credStage
  dsimp only
  rw [hw, State.drawnSalt_eq]
  by_cases hk : e.record.kind = .releasable
  · rw [if_pos hk] at hn
    subst hn
    simp only [hk, decide_true, if_true, State.drawnSeal_sealed]
    rfl
  · rw [if_neg hk] at hn
    subst hn
    simp only [hk, decide_false, if_false]
    rfl

/-- The old secret of a CRED REPLACE matches: the new verifier is computed, and its write is to carry the match's debt and tick (R112). -/
theorem State.compared_replaces {s : State} {c : Card} {id : Fin 32} {e : CredEntry} {d : Digest} (debt : Nat) (tick : Word32)
    (claim : Option Salt) (he : s.cred id = some e) (hcode : c.code = 0x0404#16) (hit : decide (d = e.record.verifier) = true) :
    s.compared c id debt tick claim d = s.replaceDraw c e (some (debt / 4, tick)) := by
  unfold State.compared
  rw [he]
  exact if_pos ⟨hcode, hit⟩

/-! ### The end of the attempt's write (R100, R105, R106, R109) -/

theorem State.credWriteEnd_attempt {s : State} {c : Card} {id : Fin 32} {r : CredRecord} {hit m : Bool} {claim : Option Salt} (w : Write)
    (ok : Bool) (hw : s.credential.work = working c (.attemptWrite id r hit claim) m) :
    s.credWriteEnd w ok = s.attemptWritten c id r hit claim ok := by
  unfold State.credWriteEnd
  simp only [hw, working]

theorem State.attemptWritten_mismatch {s : State} {id : Fin 32} {x : CredEntry} (c : Card) (r : CredRecord) (claim : Option Salt)
    (hx : s.cred id = some x) : s.attemptWritten c id r false claim true =
      (s.setCred id (some (x.written r))).credHandBack .mismatch none (mismatchBody r) := by
  unfold State.attemptWritten
  rw [hx]
  rfl

theorem State.attemptWritten_matched {s : State} {id : Fin 32} {x : CredEntry} {r : CredRecord} (c : Card) (hx : s.cred id = some x)
    (hk : r.kind ≠ .admin) : s.attemptWritten c id r true none true =
      (s.setCred id (some (x.written r))).credHandBack .matched none (debtBody r.debt ++ outOpen 3) := by
  unfold State.attemptWritten
  rw [hx]
  exact if_neg hk

theorem State.attemptWritten_admin {s : State} {id : Fin 32} {x : CredEntry} {r : CredRecord} (c : Card) (hx : s.cred id = some x)
    (hk : r.kind = .admin) : s.attemptWritten c id r true none true =
      (s.setCred id (some (x.written r))).credStage (.awaitPresence r.debt) := by
  unfold State.attemptWritten
  rw [hx]
  exact if_pos hk

theorem State.attemptWritten_claim {s : State} {id : Fin 32} {x : CredEntry} (c : Card) (r : CredRecord) (salt : Salt)
    (hx : s.cred id = some x) : s.attemptWritten c id r true (some salt) true =
      (s.setCred id (some (x.written r))).claimHash c salt r.debt := by
  unfold State.attemptWritten
  rw [hx]
  rfl

theorem State.attemptWritten_fault {s : State} {id : Fin 32} {x : CredEntry} (c : Card) (r : CredRecord) (hit : Bool)
    (claim : Option Salt) (hx : s.cred id = some x) : s.attemptWritten c id r hit claim false =
      (s.setCred id (some x.attemptOver)).credHandBack .storeFault none [] := by
  unfold State.attemptWritten
  rw [hx]
  rfl

/-- A failed write after start-up asks for STORE FAULT (R161, R165). -/
theorem State.programmed_asks {s : State} {w : Write} {first second : Bool} (h : s.endsDone w first second = false)
    (he : s.startUp = .ended) (hr : s.resetLine = false) :
    s.programmed w first second = ({ s with store := (s.store.program w first second).1 } : State).ask .storeFault := by
  unfold State.programmed State.askStoreFault
  simp [h, he, hr]

/-- Settles O40, from the comparison's two courses and the ends of the attempt's write. -/
theorem attemptsAreWrittenAndEnd : Obligations.AttemptsAreWrittenAndEnd := by
  refine ⟨?compared, ?written⟩
  case compared =>
    intro s h answered c id debt tick e secret claim hp hend hl hs hr hw he hit r pointed
    let t : State := s.atPieceEnd h .credential
    let d : Digest := Config.hmacSha256 Config.credentialKey (strBytes e.record.salt ++ secret)
    have hcompared : t.credHashEnd d = t.compared c id debt tick claim d := State.credHashEnd_compare (s := t) d hs hw
    refine ⟨fun hcode hroom hf => ?writes, fun n hcode hmatch hid hn => ?replaces⟩
    case writes =>
      have hwritten := hcompared.trans (State.compared_writes (s := t) debt tick claim hw he hcode hroom hf)
      exact exec_hashPieceEnd_verifier h answered hp hl hr hwritten hend
    case replaces =>
      intro drawn salt new copy
      have hdrawn := (hcompared.trans (State.compared_replaces (s := t) debt tick claim he hcode hmatch)).trans
        (State.replaceDraw_eq (s := t) (some (debt / 4, tick)) hw hn)
      subst hid
      exact exec_hashPieceEnd_verifier h answered hp hl hr hdrawn hend
  case written =>
    intro s first second rest c id e r hit claim hp hwait hq hw he hc result u taken
    let p : State := s.atWriteEnd id (some r) first second
    have hx : p.cred id = some e.writeOver := by rw [State.atWriteEnd_cred, he]; rfl
    have hpw : p.credential.work = working c (.attemptWrite id r hit claim) true := (State.atWriteEnd_work ..).trans hw
    have hdone : s.endsDone (.cred id (some r)) first second = result.2.2 := rfl
    rw [← hdone]
    have hends : ∀ ok, s.endsDone (.cred id (some r)) first second = ok →
        p.credWriteEnd (.cred id (some r)) (s.endsDone (.cred id (some r)) first second) = p.attemptWritten c id r hit claim ok :=
      fun ok hok => hok ▸ State.credWriteEnd_attempt _ _ hpw
    have hback (o : CardOutcome) (b : List OutByte) (x : CredEntry) :=
      exec_storeWriteEnd_handsBack (first := first) (second := second) hp hq (.inl rfl) hwait hc hw o none b (some x)
    refine ⟨fun hok hh => ?mismatch, fun hok hh hn hk => ?matched, fun hok hh hn hk => ?admin, fun salt hok hh hn => ?claim,
      fun hbad hend hreset hatt => ?fault⟩
    case mismatch =>
      subst hh
      rw [hback _ _ _ ((hends true hok).trans (State.attemptWritten_mismatch c r claim hx)), State.programmed_done hok]
      rfl
    case matched =>
      subst hh hn
      rw [hback _ _ _ ((hends true hok).trans (State.attemptWritten_matched c hx hk)), State.programmed_done hok]
      rfl
    case admin =>
      subst hh hn
      have hstage := ((hends true hok).trans (State.attemptWritten_admin c hx hk)).trans
        (State.atWriteEnd_credStage id _ first second _ _ hw)
      rw [exec_storeWriteEnd_goesOn hp hq (.inl rfl) hwait hstage rfl rfl, State.programmed_done hok]
      rfl
    case claim =>
      subst hh hn
      have hstage := ((hends true hok).trans (State.attemptWritten_claim c r salt hx)).trans
        (congrArg (State.hashSubmit .credential (verifierJob salt (credEnrollFields c).secret))
          (State.atWriteEnd_credStage id _ first second _ (.claimHash salt r.debt) hw))
      rw [exec_storeWriteEnd_goesOn hp hq (.inl rfl) hwait hstage rfl rfl, State.programmed_done hok]
      rfl
    case fault =>
      have hfault := (hends false hbad).trans (State.attemptWritten_fault c r hit claim hx)
      refine ⟨_, hback _ _ _ hfault, tableGet_tableSet_same _ _ _, ?_, ?_, ?_⟩
      all_goals rw [State.programmed_asks hbad hend hreset, State.ask_eq]
      all_goals rfl

end Sys2Proof.Machine
end

