-- ==== Sys2Proof/Proofs/Enrolments.lean ====
section
/-! SUPPORT. CRED ENROLL: the draw of an enrolment, the attempt of a claim, and the write of the new OWNER record when its verifier has
come; O43 is settled here (R94, R97, R107 to R109). -/
namespace Sys2Proof.Machine

/-! ### The card begins (R107, R108) -/

theorem credEnrollFields_kind (c : Card) : (credEnrollFields c).kind = .admin ∨ (credEnrollFields c).kind = .releasable := by
  unfold credEnrollFields
  dsimp only
  split
  · exact .inl rfl
  · exact .inr rfl

/-- The pairing code is absent exactly where its length field is 0 (R107). -/
theorem credEnrollFields_pairing_isEmpty (c : Card) : (credEnrollFields c).pairing.isEmpty = decide (c.field 1 1 = 0) := by
  cases hn : c.field 1 1 with
  | zero => simp [credEnrollFields, Card.fieldBytes, sliceBytes, hn]
  | succ n => simp [credEnrollFields, Card.fieldBytes, sliceBytes, hn, List.range_succ]

/-- A CRED ENROLL that is not refused for its lifecycle, its kind or a full table comes to its gate, and with the census HEALTHY past it
(R107). -/
theorem exec_credEnroll {s : State} {c : Card} (h : s.credReady 0x0401#16 = some c) (hf : credEnrollForm c = none)
    (hp : s.lifecycle.pending = false) (hc : s.census.state = .healthy) (hroom : ∃ i, s.cred i = none)
    (hlife : s.enrolRefusal (credEnrollFields c) = none) (hkind : c.field 1 1 ≠ 0 → (credEnrollFields c).kind = .admin) :
    exec .credEnroll s = .next ((s.credBegun c).enrolAfterGate c) := by
  have hplace : (s.credBegun c).emptyPlace.isNone = false := State.emptyPlace_isSome (s := s.credBegun c) hroom
  have hallowed : ¬((credEnrollFields c).pairing.isEmpty = false ∧ (credEnrollFields c).kind ≠ .admin) := by
    rintro ⟨hpair, hno⟩
    rw [credEnrollFields_pairing_isEmpty] at hpair
    exact hno (hkind (of_decide_eq_false hpair))
  have hpending : (s.credBegun c).lifecycle.pending = false := hp
  have hrefusal : (s.credBegun c).enrolRefusal (credEnrollFields c) = none := hlife
  show Host.Outcome.next (s.beginCred 0x0401#16 State.credEnroll) = _
  rw [State.beginCred_eq _ h]
  unfold State.credEnroll
  simp only [hf, hpending, hrefusal, hallowed, hplace, Bool.false_eq_true, if_false]
  exact congrArg Host.Outcome.next (State.credGate_healthy (s := s.credBegun c) _ hc)

/-- An enrolment with presence open: the draw of its salt, and of a nonce where its secret is sealed, and its verifier's job (R107). -/
theorem State.enrolAfterGate_enrols {s : State} {c : Card} {before : CredStage} {m : Bool} {n : Nat}
    (hw : s.credential.work = working c before m) (hpair : c.field 1 1 = 0) (hpres : s.lifecycle.presence.isSome = true)
    (hn : n = if (credEnrollFields c).kind = .admin then 16 else 28) :
    let f := credEnrollFields c
    let drawn := drawnBytes s.census.seed n
    let salt : Salt := strOf 128 (drawn.take 16)
    let copy := if f.kind = .admin then none else some (sealSecret (strOf 96 (drawn.drop 16)) f.secret)
    s.enrolAfterGate c = { s with
      census := { s.census with seed := Config.drawAdvance s.census.seed n }
      credential := { s.credential with work := working c (.enrolHash salt copy) m }
      hash := s.hash.submit .credential (verifierJob salt f.secret) } := by
  have hempty : (credEnrollFields c).pairing.isEmpty = true := by simp [credEnrollFields_pairing_isEmpty, hpair]
  have hopen : s.presenceOpen ≠ false := by simp [State.presenceOpen, hpres]
  unfold State.enrolAfterGate State.credStage
  simp only [hempty, hopen, if_true]
  rw [hw, State.drawnSalt_eq]
  obtain hk | hk := credEnrollFields_kind c
  · rw [if_pos hk] at hn
    subst hn
    simp only [hk]
    rfl
  · rw [if_neg (by rw [hk]; decide)] at hn
    subst hn
    simp only [hk, decide_true, State.drawnSeal_sealed]
    rfl

/-- A claim draws its salt and makes an attempt at the FACTORY record (R108). -/
theorem State.enrolAfterGate_claims {s : State} {c : Card} {id : Fin 32} (hpair : c.field 1 1 ≠ 0) (hid : s.factoryPlace = some id) :
    s.enrolAfterGate c = (s.afterDraw 16).attempt c id (some (strOf 128 (drawnBytes s.census.seed 16))) := by
  have hempty : (credEnrollFields c).pairing.isEmpty = false := by simp [credEnrollFields_pairing_isEmpty, hpair]
  unfold State.enrolAfterGate
  simp only [hempty, Bool.false_eq_true, if_false, hid, State.drawnSalt_alone]

/-! ### The verifier has come (R97, R107, R109) -/

theorem State.credHashEnd_enrol {s : State} {c : Card} {salt : Salt} {copy : Option SealedSecret} {m : Bool} (d : Digest)
    (hs : s.credential.service = none) (hw : s.credential.work = working c (.enrolHash salt copy) m) :
    s.credHashEnd d = s.enrolHashed c salt copy d := by
  unfold State.credHashEnd
  simp only [hs, hw, working]

theorem State.credHashEnd_claim {s : State} {c : Card} {salt : Salt} {debt : Nat} {m : Bool} (d : Digest)
    (hs : s.credential.service = none) (hw : s.credential.work = working c (.claimHash salt debt) m) :
    s.credHashEnd d = s.claimHashed c salt debt d := by
  unfold State.credHashEnd
  simp only [hs, hw, working]

/-- The new record is written at the lowest empty place, which stays empty until the write is done (R107). -/
theorem State.credWrite_new {s : State} {c : Card} {before : CredStage} {m : Bool} {i : Fin 32} (r : CredRecord) (x : CredStage)
    (hw : s.credential.work = working c before m) (hi : s.cred i = none) (hroom : s.storeRoom .credential)
    (hf : s.outboxes.refresh = []) : s.credWrite i (some r) .credCard x = { s with
      credential := { s.credential with work := working c x true }
      store := s.store.queued (.cred i (some r)) .credCard } := by
  have hsame : tableSet s.credential.table i none = s.credential.table := tableSet_get hi
  rw [State.credWrite_eq i (some r) x hw hroom hf, hi, Option.map_none, hsame]

theorem State.enrolHashed_eq {s : State} {i : Fin 32} (c : Card) (salt : Salt) (copy : Option SealedSecret) (d : Digest)
    (hi : s.emptyPlace = some i) : s.enrolHashed c salt copy d =
      s.credWrite i (some (enrolled (credEnrollFields c) salt d copy s.pace.tick)) .credCard
        (.enrolWrite i (enrolled (credEnrollFields c) salt d copy s.pace.tick)) := by
  unfold State.enrolHashed
  rw [hi]

theorem State.claimHashed_eq {s : State} {i : Fin 32} (c : Card) (salt : Salt) (debt : Nat) (d : Digest)
    (hi : s.emptyPlace = some i) : s.claimHashed c salt debt d =
      s.credWrite i (some (enrolled (credEnrollFields c) salt d none s.pace.tick)) .credCard
        (.claimWrite i (enrolled (credEnrollFields c) salt d none s.pace.tick) debt) := by
  unfold State.claimHashed
  rw [hi]

/-- Settles O43: an enrolment's draw, a claim's attempt, and the two records that are written when their verifiers have come. -/
theorem enrolmentsAndClaimsBegin : Obligations.EnrolmentsAndClaimsBegin := by
  refine ⟨?begins, ?verifier⟩
  case begins =>
    intro s c h hf hp hc hroom f verifier
    refine ⟨fun n hlife hpair hpres hn => ?enrols,
      fun id e hlife hpair hkind he hcls honly ha hw hlock hpace => ?claims⟩
    case enrols =>
      have hempty : f.pairing.isEmpty = true := by simp [f, credEnrollFields_pairing_isEmpty, hpair]
      have hallowed : s.enrolRefusal f = none := by simp [State.enrolRefusal, hlife, hempty]
      rw [exec_credEnroll h hf hp hc hroom hallowed fun hno => absurd hpair hno,
        State.enrolAfterGate_enrols (s := s.credBegun c) rfl hpair hpres hn]
      rfl
    case claims =>
      have hempty : f.pairing.isEmpty = false := by simp [f, credEnrollFields_pairing_isEmpty, hpair]
      have hallowed : s.enrolRefusal f = none := by simp [State.enrolRefusal, hlife, hempty]
      have hplace : (s.credBegun c).factoryPlace = some id :=
        State.factoryPlace_lowest (s := s.credBegun c) he hcls fun j hj x hx hfac => absurd (honly j x hx hfac) (Fin.ne_of_lt hj)
      obtain ⟨-, -, hcode⟩ := State.credReady_iff.mp h
      have hsecret : presentedSecret c = f.pairing := by simp [presentedSecret, hcode, f]
      rw [exec_credEnroll h hf hp hc hroom hallowed fun _ => hkind, State.enrolAfterGate_claims (s := s.credBegun c) hpair hplace,
        State.attempt_admitted (s := (s.credBegun c).afterDraw 16) _ rfl he (CredEntry.busy_eq_false ha hw) hlock hpace, hsecret]
      rfl
  case verifier =>
    intro s h answered c salt i hp hend f verifier record writes hl hr hs hi hlow hroom hf
    let t : State := s.atPieceEnd h .credential
    have hplace : t.emptyPlace = some i := State.emptyPlace_lowest (s := t) hi hlow
    refine ⟨fun copy hw => ?_, fun debt hw => ?_⟩
    · have hwritten := ((State.credHashEnd_enrol (s := t) verifier hs hw).trans (State.enrolHashed_eq c salt copy verifier hplace)).trans
        (State.credWrite_new (s := t) _ _ hw hi hroom hf)
      exact exec_hashPieceEnd_verifier h answered hp hl hr hwritten hend
    · have hwritten := ((State.credHashEnd_claim (s := t) verifier hs hw).trans (State.claimHashed_eq c salt debt verifier hplace)).trans
        (State.credWrite_new (s := t) _ _ hw hi hroom hf)
      exact exec_hashPieceEnd_verifier h answered hp hl hr hwritten hend

end Sys2Proof.Machine
end

