-- ==== Sys2Proof/Proofs/CredentialRequests.lean ====
section
/-! SUPPORT. The requests that the lifecycle controller holds at the credential unit: wipe orders and the pairing installation; O45 is
settled here (R97, R115, R116). -/
namespace Sys2Proof.Machine

/-! ### Wipe orders (R116) -/

/-- The places a wipe order empties are those of OWNER records (R116). -/
theorem State.mem_wipedPlaces {s : State} {i : Fin 32} :
    i ∈ s.wipedPlaces ↔ ∃ e, s.cred i = some e ∧ e.record.cls = .owner := by
  unfold State.wipedPlaces
  simp only [List.mem_filter, List.mem_finRange, true_and]
  cases s.cred i with
  | none => simp
  | some e => simp

/-- Emptying places changes the table, and nothing else. -/
theorem State.emptyPlaces_frame (l : List (Fin 32)) (s : State) :
    s.emptyPlaces l = { s with credential := { s.credential with table := (s.emptyPlaces l).credential.table } } := by
  induction l generalizing s with
  | nil => rfl
  | cons i t ih => exact ih _

/-- What emptying places leaves: nothing where a place is named, and the place as it was elsewhere. -/
theorem State.emptyPlaces_cred (l : List (Fin 32)) (s : State) (k : Fin 32) :
    (s.emptyPlaces l).cred k = if k ∈ l then none else s.cred k := by
  induction l generalizing s with
  | nil => simp [State.emptyPlaces]
  | cons i t ih =>
    have hstep : s.emptyPlaces (i :: t) = (s.setCred i none).emptyPlaces t := rfl
    rw [hstep, ih]
    by_cases hk : k = i
    · subst hk
      simp [State.cred, State.setCred]
    · simp [State.cred, State.setCred, tableGet_tableSet_ne _ _ (Ne.symm hk), hk]

/-- The removal of a record whose place the table has emptied joins the queue; a refresh of it that is held is dropped (R103, R116). -/
theorem State.enqueue_removal {s : State} {i : Fin 32} (h : s.cred i = none) :
    s.enqueue (.cred i none) .credWipe = { s.dropRefresh i with store := s.store.queued (.cred i none) .credWipe } := by
  have hsame : tableSet s.credential.table i none = s.credential.table := tableSet_get h
  unfold State.enqueue State.asSent State.commitCard
  dsimp only
  rw [h]
  unfold State.setCred
  rw [Option.map_none, show (s.dropRefresh i).credential = s.credential from rfl, hsame]
  rfl

/-- The removals of emptied places are sent together, when the store has room for all of them; what this leaves of the block's unsent
refreshes is the outboxes alone (R103, R160). -/
theorem State.sendAll_removals (l : List (Fin 32)) (n : Nat) (s : State) (hnone : ∀ i ∈ l, s.cred i = none)
    (hout : s.outboxes.get .credential = []) (hroom : s.store.queue.length + l.length ≤ storeCapacity) :
    ∃ o, State.sendAll .credential (l.length + n) (s.setOutbox .credential (l.map fun i => Out.write (.cred i none) .credWipe)) = { s with
      outboxes := o
      store := { s.store with
        queue := s.store.queue ++ l.map fun i => { write := .cred i none, answerTo := .credWipe } } } := by
  induction l generalizing s with
  | nil =>
    rw [List.map_nil, State.setOutbox_same hout, State.sendAll_done _ hout]
    exact ⟨s.outboxes, by simp⟩
  | cons i t ih =>
    let next : State := { s.dropRefresh i with store := s.store.queued (.cred i none) .credWipe }
    have hi : s.cred i = none := hnone i List.mem_cons_self
    have hsent : (s.setOutbox .credential (t.map fun j => Out.write (.cred j none) .credWipe)).enqueue (.cred i none) .credWipe
        = next.setOutbox .credential (t.map fun j => Out.write (.cred j none) .credWipe) :=
      State.enqueue_removal (s := s.setOutbox .credential (t.map fun j => Out.write (.cred j none) .credWipe)) hi
    rw [List.length_cons] at hroom
    have hlen : next.store.queue.length + t.length ≤ storeCapacity := by
      simp only [next, Store.queued, List.length_append, List.length_singleton]
      omega
    obtain ⟨o, ho⟩ := ih next (fun j hj => hnone j (List.mem_cons_of_mem i hj)) hout hlen
    refine ⟨o, ?_⟩
    rw [List.length_cons, show t.length + 1 + n = (t.length + n) + 1 by omega, List.map_cons,
      State.sendAll_write _ _ _ _ (by omega), hsent, ho]
    simp [next, Store.queued, State.dropRefresh, State.setOutbox]

/-! ### The pairing installation (R115) -/

theorem State.pairingDraw_eq (s : State) (code label : List Byte) (policy : Policy) : s.pairingDraw code label policy = { s with
    census := { s.census with seed := Config.drawAdvance s.census.seed 16 }
    credential := { s.credential with
      service := some (.pairingHash (strOf 128 (drawnBytes s.census.seed 16)) label policy) }
    hash := s.hash.submit .credential (verifierJob (strOf 128 (drawnBytes s.census.seed 16)) code) } := by
  unfold State.pairingDraw
  rw [State.drawnSalt_alone]
  rfl

/-- The PAIRING record of an installation, with the verifier that has come (R97, R115). -/
def pairingRecord (salt : Salt) (label : List Byte) (policy : Policy) (verifier : Digest) (tick : Word32) : CredRecord :=
  { kind := .pairing, cls := .factory, label := label, salt := salt, verifier := verifier, secret := none, binding := none
    policy := policy.clamped, debt := 0, saturated := false, failures := 0, lastTick := tick }

/-- The verifier of the pairing code has come: the write of the PAIRING record is sent for the place found for it (R115). -/
theorem State.credHashEnd_pairing {s : State} {salt : Salt} {label : List Byte} {policy : Policy} {i : Fin 32} (d : Digest)
    (hs : s.credential.service = some (.pairingHash salt label policy))
    (hi : (s.factoryPlace.orElse fun _ => s.emptyPlace) = some i) (hroom : s.storeRoom .credential) (hf : s.outboxes.refresh = []) :
    s.credHashEnd d = { s with
      credential := { s.credential with
        table := tableSet s.credential.table i ((s.cred i).map CredEntry.writeSent)
        service := some (.pairingWrite i (pairingRecord salt label policy d s.pace.tick)) }
      store := s.store.queued (.cred i (some (pairingRecord salt label policy d s.pace.tick))) .credRequest } := by
  let r := pairingRecord salt label policy d s.pace.tick
  have hend : s.credHashEnd d
      = (s.credService (some (.pairingWrite i r))).send .credential [.write (.cred i (some r)) .credRequest] := by
    unfold State.credHashEnd State.pairingHashed
    simp only [hs, hi]
    rfl
  rw [hend]
  exact State.send_cred (s := s.credService (some (.pairingWrite i r))) i (some r) (by decide) hroom hf

/-- Settles O45: the requests as they are served, and the write of the PAIRING record. -/
theorem credentialUnitServesRequests : Obligations.CredentialUnitServesRequests := by
  refine ⟨?serves, ?verifier⟩
  case serves =>
    intro s rest hp hw hv
    have hserves : s.credServes = true := by simp [State.credServes, hw, hv]
    refine ⟨fun code label policy hh hc => ?pairing, fun hh hno => ?wipeNone, fun hh hl hq hroom => ?wipeSome,
      fun i => State.mem_wipedPlaces⟩
    case pairing =>
      have hgate : s.gate = .pass := by simp [State.gate, hc]
      show Host.Outcome.next (s.whenPowered _) = _
      rw [State.whenPowered_on _ hp, State.pairingRequest, hh]
      simp only [hserves, if_true]
      rw [show ({ s with credential := { s.credential with held := rest } } : State).gate = s.gate from rfl, hgate]
      exact congrArg Host.Outcome.next (State.pairingDraw_eq _ code label policy)
    case wipeNone =>
      have hl : s.wipedPlaces = [] := List.eq_nil_iff_forall_not_mem.mpr fun i hi => by
        obtain ⟨e, he, hcls⟩ := State.mem_wipedPlaces.mp hi
        simp [hno i e he] at hcls
      show Host.Outcome.next (s.whenPowered _) = _
      rw [State.whenPowered_on _ hp, State.credentialWipeOrder, hh]
      simp only [hserves, if_true, hl]
      rfl
    case wipeSome =>
      intro n
      let held : State := { s with credential := { s.credential with held := rest } }
      let u : State := { s with credential := { s.credential with
        table := (held.emptyPlaces s.wipedPlaces).credential.table
        held := rest, service := some (.wipe { removed := n, outstanding := n, failed := 0 }) } }
      have hplace : ∀ k, u.cred k = if k ∈ s.wipedPlaces then none else s.cred k := State.emptyPlaces_cred s.wipedPlaces held
      obtain ⟨o, ho⟩ := State.sendAll_removals s.wipedPlaces 32 u (fun i hi => (hplace i).trans (if_pos hi)) hq.1 hroom
      have hu : exec .credentialWipeOrder s = .next { u with
          outboxes := o
          store := { s.store with
            queue := s.store.queue ++ s.wipedPlaces.map fun i => { write := .cred i none, answerTo := .credWipe } } } := by
        show Host.Outcome.next (s.whenPowered _) = _
        rw [State.whenPowered_on _ hp, State.credentialWipeOrder, hh]
        simp only [hserves, if_true, List.isEmpty_eq_false_iff.mpr hl, Bool.false_eq_true, if_false]
        rw [State.emptyPlaces_frame]
        refine congrArg Host.Outcome.next ((State.send_quiet (s := u) (c := .credential) _ hq (by decide)).trans ?_)
        rw [List.length_map]
        exact ho
      refine ⟨_, hu, fun i e he hcls => ?_, fun i hno => ?_, rfl, rfl, rfl, rfl, rfl, rfl, rfl, rfl⟩
      · exact (hplace i).trans (if_pos (State.mem_wipedPlaces.mpr ⟨e, he, hcls⟩))
      · refine (hplace i).trans (if_neg fun hi => ?_)
        obtain ⟨e, he, hcls⟩ := State.mem_wipedPlaces.mp hi
        exact hno e he hcls
  case verifier =>
    intro s h answered salt code label policy i hp hend hl hs hr hw hroom hf record writes
    let t : State := s.atPieceEnd h .credential
    have hsent : (t.factoryPlace.orElse fun _ => t.emptyPlace) = some i →
        writes (tableSet s.credential.table i ((s.cred i).map CredEntry.writeSent)) := fun hi =>
      exec_hashPieceEnd_verifier h answered hp hl hr (State.credHashEnd_pairing (s := t) _ hs hi hroom hf) hend
    refine ⟨fun e he hcls hlow => ?factory, fun hi hno hlow => ?empty⟩
    case factory =>
      have hplace : t.factoryPlace = some i := State.factoryPlace_lowest (s := t) he hcls hlow
      have hwrites := hsent (by rw [hplace]; rfl)
      rw [he] at hwrites
      exact hwrites
    case empty =>
      have hnone : t.factoryPlace = none := State.factoryPlace_none (s := t) hno
      have hplace : t.emptyPlace = some i := State.emptyPlace_lowest (s := t) hi hlow
      have hwrites := hsent (by rw [hnone, hplace]; rfl)
      have hsame : tableSet s.credential.table i none = s.credential.table := tableSet_get hi
      rw [hi, Option.map_none, hsame] at hwrites
      exact hwrites

end Sys2Proof.Machine
end

