-- ==== Sys2Proof/Proofs/CredentialWrites.lean ====
section
/-! SUPPORT. The ends of the store writes of enrolments, claims, replacements, removals and the pairing installation; O46 is settled here
(R100, R107, R109, R112, R113, R115, R124). -/
namespace Sys2Proof.Machine

/-! ### A card's write by its stage -/

theorem State.credWriteEnd_enrol {s : State} {c : Card} {i : Fin 32} {r : CredRecord} {m : Bool} (w : Write)
    (hw : s.credential.work = working c (.enrolWrite i r) m) :
    s.credWriteEnd w true = (s.setCred i (some (CredEntry.placed r))).credHandBack .done none (outNum 1 (idOf i) ++ policyBody r.policy)
      ∧ s.credWriteEnd w false = s.credHandBack .storeFault none [] := by
  unfold State.credWriteEnd
  simp only [hw, working]
  exact ⟨rfl, rfl⟩

theorem State.credWriteEnd_claim {s : State} {c : Card} {i : Fin 32} {r : CredRecord} {debt : Nat} {m : Bool} (w : Write)
    (hw : s.credential.work = working c (.claimWrite i r debt) m) :
    s.credWriteEnd w true = s.credStage (.awaitClaim i r debt)
      ∧ s.credWriteEnd w false = s.credHandBack .storeFault (some (Config.recordName (37 + i.val))) [] := by
  unfold State.credWriteEnd
  simp only [hw, working]
  exact ⟨rfl, rfl⟩

theorem State.credWriteEnd_undo {s : State} {c : Card} {i : Fin 32} {m : Bool} (w : Write) (ok : Bool)
    (hw : s.credential.work = working c (.claimUndo i) m) :
    s.credWriteEnd w ok = s.credHandBack .storeFault (some (Config.recordName 0)) [] := by
  unfold State.credWriteEnd
  simp only [hw, working]
  rfl

/-- A replacement is taken with the debt that its write carried (R100, R112). -/
theorem State.credWriteEnd_replace {s : State} {c : Card} {i : Fin 32} {r : CredRecord} {att m : Bool} {x : CredEntry} (j : Fin 32)
    (v : CredRecord) (hw : s.credential.work = working c (.replaceWrite i r att) m) (hx : s.cred i = some x) :
    s.credWriteEnd (.cred j (some v)) true = (s.setCred i (some (x.written v))).credHandBack .done none (debtBody v.debt)
      ∧ s.credWriteEnd (.cred j (some v)) false = (s.setCred i (some x.attemptOver)).credHandBack .storeFault none [] := by
  unfold State.credWriteEnd
  simp only [hw, working, hx]
  exact ⟨rfl, rfl⟩

theorem State.credWriteEnd_remove {s : State} {c : Card} {i : Fin 32} {m : Bool} (w : Write)
    (hw : s.credential.work = working c (.removeWrite i) m) :
    s.credWriteEnd w true = (s.setCred i none).credHandBack .done none [] ∧ s.credWriteEnd w false = s.credHandBack .storeFault none [] := by
  unfold State.credWriteEnd
  simp only [hw, working]
  exact ⟨rfl, rfl⟩

/-! ### The step -/

/-- A write carried out after start-up with the link up: STORE FAULT is asked for where it has failed (R161). -/
theorem State.programmed_inWrite {s : State} {w : Write} {a : WriteTo} {rest : List WriteRequest} {first second : Bool}
    (h : s.inWrite w a rest) : s.programmed w first second =
      if s.endsDone w first second then { s with store := (s.store.program w first second).1 }
      else ({ s with store := (s.store.program w first second).1 } : State).storeFaulted := by
  obtain ⟨-, hl, he, hr, -⟩ := h
  cases hok : s.endsDone w first second with
  | true => exact State.programmed_done hok
  | false => exact State.programmed_fault hok he hr hl

/-- The end of a card's write that hands the card back, with the record's place left holding `e`. -/
theorem exec_storeWriteEnd_inWrite_handsBack {s : State} {w : Work CredStage} {i : Fin 32} {v : Option CredRecord} {a : WriteTo}
    {rest : List WriteRequest} {first second ok : Bool} (h : s.inWrite (.cred i v) a rest) (ha : a = .credCard ∨ a = .credReplace)
    (hok : s.endsDone (.cred i v) first second = ok) (hw : s.credential.work = some w) {o : CardOutcome} {d : Option Word32}
    {b : List OutByte} (e : Option CredEntry)
    (hend : (s.atWriteEnd i v first second).credWriteEnd (.cred i v) ok = ((s.atWriteEnd i v first second).setCred i e).credHandBack o d b) :
    exec (.storeWriteEnd first second) s = .next {
      (if ok then s.wrote (.cred i v) first second rest else (s.wrote (.cred i v) first second rest).storeFaulted).givesBack w.card o d b with
      credential := { s.credential with table := tableSet s.credential.table i e, work := none } } := by
  obtain ⟨hp, -, -, -, hc, hq, hwait, -⟩ := id h
  rw [exec_storeWriteEnd_handsBack hp hq ha hwait hc hw o d b e (hok ▸ hend), State.programmed_inWrite h, hok]
  cases ok <;> rfl

/-- The same where the end leaves the place as it found it. -/
theorem exec_storeWriteEnd_inWrite_leaves {s : State} {w : Work CredStage} {i : Fin 32} {v : Option CredRecord} {a : WriteTo}
    {rest : List WriteRequest} {first second ok : Bool} (h : s.inWrite (.cred i v) a rest) (ha : a = .credCard ∨ a = .credReplace)
    (hok : s.endsDone (.cred i v) first second = ok) (hw : s.credential.work = some w) {o : CardOutcome} {d : Option Word32}
    {b : List OutByte}
    (hend : (s.atWriteEnd i v first second).credWriteEnd (.cred i v) ok = (s.atWriteEnd i v first second).credHandBack o d b) :
    exec (.storeWriteEnd first second) s = .next {
      (if ok then s.wrote (.cred i v) first second rest else (s.wrote (.cred i v) first second rest).storeFaulted).givesBack w.card o d b with
      credential := { s.credential with
        table := tableSet s.credential.table i ((s.cred i).map CredEntry.writeOver), work := none } } :=
  exec_storeWriteEnd_inWrite_handsBack h ha hok hw _ (by rw [State.atWriteEnd_same]; exact hend)

/-- The pairing installation's write has ended: the lifecycle controller answers its card (R115, R124). -/
theorem State.pairingEnd_eq {s : State} {c : Card} {i : Fin 32} {r : CredRecord} (hs : s.credential.service = some (.pairingWrite i r))
    (hw : s.lifecycle.work = working c .pairing true) (hc : s.carries) :
    (s.pairingEnd true = { s.givesBack c .done none (outNum 1 (idOf i) ++ policyBody r.policy) with
      lifecycle := { s.lifecycle with work := none }
      credential := { s.credential with
        service := none, table := tableSet s.credential.table i (some (CredEntry.placed r)) } })
    ∧ s.pairingEnd false = { s.givesBack c .storeFault none [] with
      lifecycle := { s.lifecycle with work := none }, credential := { s.credential with service := none } } := by
  have hanswer : ∀ (t : State) (o : CardOutcome) (b : List OutByte), t.lifecycle.work = working c .pairing true → t.carries →
      t.lifePairingAnswer o b = { t.givesBack c o none b with lifecycle := { t.lifecycle with work := none } } := by
    intro t o b ht hct
    have hback : t.lifePairingAnswer o b = t.lifeHandBack o none b := by
      unfold State.lifePairingAnswer
      simp only [ht, working]
    rw [hback]
    exact State.lifeHandBack_eq o none b ht hct
  unfold State.pairingEnd
  simp only [hs, if_true, Bool.false_eq_true, if_false]
  exact ⟨hanswer ((s.credService none).setCred i (some (CredEntry.placed r))) .done _ hw hc,
    hanswer (s.credService none) .storeFault [] hw hc⟩

/-- Settles O46, from the ends of a card's write by its stage and the end of the pairing record's. -/
theorem credentialWritesEnd : Obligations.CredentialWritesEnd := by
  refine ⟨?cards, ?pairing⟩
  case cards =>
    intro s w a first second rest c i h ha ok u ends cred fails id policy
    have hwork : ∀ (v : Option CredRecord) (x : CredStage) (m : Bool), s.credential.work = working c x m →
        (s.atWriteEnd i v first second).credential.work = working c x m := fun v x m hw => (State.atWriteEnd_work ..).trans hw
    refine ⟨?enrol, ?replace, ?remove, ?claim, ?undo⟩
    case enrol =>
      rintro r rfl hw hi
      obtain ⟨hdone, hfault⟩ := State.credWriteEnd_enrol (.cred i (some r)) (hwork (some r) _ _ hw)
      refine ⟨fun hok => exec_storeWriteEnd_inWrite_handsBack h ha hok hw _ hdone, fun hbad => ?_⟩
      have hends := exec_storeWriteEnd_inWrite_leaves h ha hbad hw hfault
      rw [hi] at hends
      exact hends
    case replace =>
      rintro r v att e rfl hw hi
      have hx : (s.atWriteEnd i (some v) first second).cred i = some e.writeOver := by rw [State.atWriteEnd_cred, hi]; rfl
      obtain ⟨hdone, hfault⟩ := State.credWriteEnd_replace i v (hwork (some v) _ _ hw) hx
      exact ⟨fun hok => exec_storeWriteEnd_inWrite_handsBack h ha hok hw _ hdone,
        fun hbad => exec_storeWriteEnd_inWrite_handsBack h ha hbad hw _ hfault⟩
    case remove =>
      rintro e rfl hw hi
      obtain ⟨hdone, hfault⟩ := State.credWriteEnd_remove (.cred i none) (hwork none _ _ hw)
      refine ⟨fun hok => exec_storeWriteEnd_inWrite_handsBack h ha hok hw _ hdone, fun hbad => ?_⟩
      have hends := exec_storeWriteEnd_inWrite_leaves h ha hbad hw hfault
      rw [hi] at hends
      exact hends
    case claim =>
      rintro r debt rfl hw hi
      obtain ⟨hdone, hfault⟩ := State.credWriteEnd_claim (.cred i (some r)) (hwork (some r) _ _ hw)
      refine ⟨fun hok => ?_, fun hbad => ?_⟩
      · have hstage := State.atWriteEnd_credStage i (some r) first second ((s.cred i).map CredEntry.writeOver) (.awaitClaim i r debt) hw
        rw [State.atWriteEnd_same, hi] at hstage
        have hgoes := (congrArg (fun b => (s.atWriteEnd i (some r) first second).credWriteEnd (.cred i (some r)) b) hok).trans (hdone.trans hstage)
        obtain ⟨hp, -, -, -, -, hq, hwait, -⟩ := h
        show exec (.storeWriteEnd first second) s = _
        rw [exec_storeWriteEnd_goesOn hp hq ha hwait hgoes rfl rfl, State.programmed_done hok]
        rfl
      · have hends := exec_storeWriteEnd_inWrite_leaves h ha hbad hw hfault
        rw [hi] at hends
        exact hends
    case undo =>
      rintro rfl hw hi
      have hends := exec_storeWriteEnd_inWrite_leaves (first := first) (second := second) h ha rfl hw
        (State.credWriteEnd_undo (.cred i none) _ (hwork none _ _ hw))
      rw [hi] at hends
      exact hends
  case pairing =>
    intro s first second rest c i r w h hs hw ok u done p
    obtain ⟨hp, hl, he, hr, hc, hq, hwait, hattempt⟩ := h
    obtain ⟨hqueue, hwaiting, -⟩ := s.store.program_queue w first second
    let q : State := ({ s with store := (s.store.program w first second).1 } : State).setCred i ((s.cred i).map CredEntry.writeOver)
    have hanswer : ∀ b, s.endsDone w first second = b → (s.atWriteEnd i (some r) first second).answerWrite
        { write := w, answerTo := .credRequest } (s.endsDone w first second) = (s.atWriteEnd i (some r) first second).pairingEnd b := by
      rintro b rfl
      rfl
    refine ⟨fun hok => ?done, fun hbad hi => ?fault⟩
    case done =>
      have hreached : s.atWriteEnd i (some r) first second = q := by
        unfold State.atWriteEnd
        rw [State.programmed_done hok]
      obtain ⟨hend, -⟩ := State.pairingEnd_eq (s := q) hs hw hc
      have hdone := (hanswer true hok).trans ((congrArg (State.pairingEnd true) hreached).trans hend)
      rw [exec_storeWriteEnd_cred hp hq hdone (hwaiting.trans hwait) hattempt (congrArg List.tail (hqueue.trans hq))]
      simp only [q, State.setCred, tableSet_tableSet]
      rfl
    case fault =>
      have hreached : s.atWriteEnd i (some r) first second = q.storeFaulted := by
        unfold State.atWriteEnd
        rw [State.programmed_fault hbad he hr hl]
        rfl
      have hsame : tableSet s.credential.table i none = s.credential.table := tableSet_get hi
      obtain ⟨-, hend⟩ := State.pairingEnd_eq (s := q.storeFaulted) hs hw hc
      have hfault := (hanswer false hbad).trans ((congrArg (State.pairingEnd false) hreached).trans hend)
      rw [exec_storeWriteEnd_cred hp hq hfault (hwaiting.trans hwait) hattempt (congrArg List.tail (hqueue.trans hq))]
      simp only [q, hi, Option.map_none, State.setCred, hsame]
      rfl

end Sys2Proof.Machine
end

