-- ==== Sys2Proof/Proofs/PresenceAndClaims.lean ====
section
/-! SUPPORT. What the lifecycle controller does for the credential unit: it opens presence for an ADMIN match and writes the lifecycle
record of a claim; O47 is settled here (R106, R126, R127). -/
namespace Sys2Proof.Machine

theorem State.presenceMayOpen_iff {s : State} : s.presenceMayOpen = true ↔
    s.lifecycle.effective = .claimed ∧ s.lifecycle.pending = false ∧ s.census.state ≠ .failed := by
  simp [State.presenceMayOpen, and_assoc]

/-- Presence that opens has its 1200 ticks left in the step that opens it (R127). -/
theorem State.openPresence_opens {s : State} (h : s.presenceMayOpen = true) :
    s.openPresence = { s with lifecycle := { s.lifecycle with presence := some (s.pace.tick + 1200#32) } }
      ∧ s.openPresence.presenceReply = outNum 1 1 ++ outNum 2 1200 := by
  have hopen : s.openPresence = { s with lifecycle := { s.lifecycle with presence := some (s.pace.tick + 1200#32) } } := if_pos h
  have hleft : elapsed (s.pace.tick + 1200#32) s.pace.tick = 1200 := by
    unfold elapsed
    bv_omega
  refine ⟨hopen, ?_⟩
  rw [hopen]
  simp [State.presenceReply, State.presenceOpen, State.presenceLeft, hleft]

theorem State.openPresence_closed {s : State} (h : s.presenceMayOpen = false) : s.openPresence = s := if_neg (by simp [h])

/-- The reply to an ADMIN match states presence as the request leaves it (R106, log entry 28). -/
theorem State.presenceRequest_eq {s : State} {c : Card} {debt : Nat} {m : Bool}
    (hw : s.credential.work = working c (.awaitPresence debt) m) : s.presenceRequest = s.openPresence.credHandBack .matched none
      (debtBody debt ++ if s.presenceMayOpen then s.openPresence.presenceReply else outNum 1 0 ++ outOpen 2) := by
  unfold State.presenceRequest
  simp only [hw, working]

theorem State.claimRequest_eq {s : State} {c : Card} {id : Fin 32} {r : CredRecord} {debt : Nat} {m : Bool}
    (hw : s.credential.work = working c (.awaitClaim id r debt) m) : s.claimRequest =
      if s.lifecycle.claiming then s
      else ({ s with lifecycle := { s.lifecycle with claiming := true } } : State).send .lifecycle
        [.write (.lifecycle { effective := .claimed, marker := false }) .lifeClaim] := by
  unfold State.claimRequest
  simp only [hw, working]

/-- Settles O47: presence opened or left closed, and the claim's write sent once. -/
theorem presenceOpensAndClaimsComplete : Obligations.PresenceOpensAndClaimsComplete := by
  refine ⟨?presence, ?claim⟩
  case presence =>
    intro s c debt hp hw hc may head
    have hexec : exec .presenceOpeningRequest s = .next s.presenceRequest := congrArg _ (State.whenPowered_on _ hp)
    refine ⟨fun hmay => ?opens, fun hmay => ?closed⟩
    case opens =>
      have hopens : s.presenceMayOpen = true := State.presenceMayOpen_iff.mpr hmay
      obtain ⟨hstate, hreply⟩ := State.openPresence_opens hopens
      rw [hexec, State.presenceRequest_eq hw, if_pos hopens, hreply, ← List.append_assoc, hstate]
      exact congrArg Host.Outcome.next (State.credHandBack_eq
        (s := { s with lifecycle := { s.lifecycle with presence := some (s.pace.tick + 1200#32) } }) .matched none _ hw hc)
    case closed =>
      have hstays : s.presenceMayOpen = false := Bool.eq_false_iff.mpr fun h => hmay (State.presenceMayOpen_iff.mp h)
      rw [hexec, State.presenceRequest_eq hw, State.openPresence_closed hstays, hstays, State.credHandBack_eq .matched none _ hw hc]
      simp only [Bool.false_eq_true, if_false, ← List.append_assoc]
      rfl
  case claim =>
    intro s c id r debt hp hw
    have hexec : exec .claimCompletionRequest s = .next s.claimRequest := congrArg _ (State.whenPowered_on _ hp)
    rw [hexec, State.claimRequest_eq hw]
    refine ⟨fun hno hroom => ?_, fun hclaiming => ?_⟩
    · rw [if_neg (by simp [hno])]
      exact congrArg Host.Outcome.next (State.send_plainWrite
        (s := { s with lifecycle := { s.lifecycle with claiming := true } }) hroom (by decide) (by intro i v; simp))
    · rw [if_pos hclaiming]

end Sys2Proof.Machine
end

