-- ==== Sys2Proof/Proofs/DecayAndTicks.lean ====
section
/-! SUPPORT. A decay step, held while the census is FAILED, and a pace tick behind which nothing is left to take; O42 and O55 are settled
here (R101 to R103, R132, R155). -/
namespace Sys2Proof.Machine

/-! ### Decay (R101, R102) -/

/-- A decay step lowers a debt that is not zero, under every factor a policy can hold (R101). -/
theorem decayed_lt {d f : Nat} (hd : 0 < d) (hf : f ≤ 65535) : decayed d f < d := by
  have hmul : d * f ≤ d * 65535 := Nat.mul_le_mul_left d hf
  unfold decayed
  dsimp only
  split <;> omega

theorem CredEntry.decayed_owing {e : CredEntry} (hb : e.busy = false) (hd : 0 < e.working) :
    e.decayed = { e with working := Machine.decayed e.working e.record.policy.decay } :=
  if_neg (by simp [hb, Nat.ne_of_gt hd])

theorem State.decayStep_held {s : State} (hd : s.pace.decayDue = true) (hc : s.census.state = .failed) :
    s.decayStep = { s with pace := { s.pace with decayDue := false } } := (if_pos hd).trans (if_pos hc)

/-- A decay step outside FAILED decays every record of the table (R101, R102). -/
theorem State.decayStep_decays {s : State} (hd : s.pace.decayDue = true) (hc : s.census.state ≠ .failed) :
    s.decayStep = { s with
      pace := { s.pace with decayDue := false }
      credential := { s.credential with table := s.credential.table.map fun e => e.map CredEntry.decayed } } :=
  (if_pos hd).trans (if_neg hc)

theorem State.decayStep_notDue {s : State} (hd : s.pace.decayDue = false) : s.decayStep = s := if_neg (by simp [hd])

/-- Settles O42: the held step, the pacing that still applies, and the step that lowers a debt again. -/
theorem decayIsHeldWhileFailed : Obligations.DecayIsHeldWhileFailed := by
  have hexec : ∀ s : State, s.powered = true → exec .decayStep s = .next s.decayStep := fun s hp => congrArg _ (State.whenPowered_on _ hp)
  refine ⟨fun s hp hd hc => ?held, fun s hp hd => ?notDue, ?paced, ?resumes⟩
  case held => rw [hexec s hp, State.decayStep_held hd hc]
  case notDue => rw [hexec s hp, State.decayStep_notDue hd]
  case paced =>
    intro s c e _ h hf hp he ha hn hc settles
    obtain ⟨hthrottled, hsoon, -⟩ := attemptsArePaced s c e h hf hp he ha hn
    exact ⟨fun hlock => ⟨_, _, hthrottled hlock hc, rfl, rfl, rfl, rfl⟩,
      fun hlock hpace => ⟨_, _, hsoon hlock hpace hc, rfl, rfl, rfl, rfl⟩⟩
  case resumes =>
    intro s i e hp hd hc he ha hn hw hf
    refine ⟨_, e.decayed, (hexec s hp).trans (congrArg _ (State.decayStep_decays hd hc)), ?_, ?_⟩
    · have hmap : tableGet (s.credential.table.map fun x => x.map CredEntry.decayed) i = (s.cred i).map CredEntry.decayed := by
        simp [tableGet, State.cred]
      exact hmap.trans (by rw [he]; rfl)
    · rw [CredEntry.decayed_owing (CredEntry.busy_eq_false ha hn) hw]
      exact ⟨rfl, decayed_lt hw hf⟩

/-! ### A pace tick (R132, R155) -/

/-- Where the present tick owes nothing, nothing is taken before the next (log entry 10). -/
theorem State.flushTick_nothing {s : State} (hpres : s.presenceDue = false) (hd : s.pace.decayDue = false)
    (hr : s.pace.refreshDue = false) (hi : s.idleExpires = false) (hg : s.guardExpires = false) (hper : s.periodExpires = false)
    (hh : s.lifecycle.holdDue = false) : s.flushTick = s := by
  have hpresence : s.presenceExpiry = s := if_neg (by simp [hpres])
  have hrefresh : s.storedDebtRefresh = s := if_neg (by simp [hr])
  have hidle : s.idleExpiry = s := if_neg (by simp [hi])
  have hguard : s.guardExpiry = s := if_neg (by simp [hg])
  have hperiod : s.periodExpiry = s := if_neg (by simp [hper])
  have hhold : s.ownerReleaseHold = s := if_neg (by simp [hh])
  unfold State.flushTick
  rw [hpresence, State.decayStep_notDue hd, hrefresh, hidle, hguard, hperiod, hhold]

/-- Settles O55: with nothing left to take, the tick advances the count, and after start-up samples the line. -/
theorem paceTicks : Obligations.PaceTicks := by
  intro s low hp hpres hd hr hi hg hper hh
  have hexec : exec (.paceTick low) s = .next (s.paceTick low) := congrArg _ (State.whenPowered_on _ hp)
  rw [hexec]
  unfold State.paceTick
  rw [State.flushTick_nothing hpres hd hr hi hg hper hh]
  dsimp only
  by_cases hs : s.startUp = .ended
  · rw [if_pos hs, if_pos hs]
    rfl
  · rw [if_neg hs, if_neg hs]
    rfl

end Sys2Proof.Machine
end

