-- ==== Sys2Proof/Proofs/FactoryCards.lean ====
section
/-! SUPPORT. How the lifecycle controller begins its cards, and the factory cards in BLANK and elsewhere; O48 is settled here (R120 to
R125). -/
namespace Sys2Proof.Machine

/-! ### A card of the lifecycle controller begins (R120) -/

/-- The part with a card of the lifecycle controller begun and in work. -/
def State.lifeBegun (s : State) (c : Card) (stage : LifeStage) : State :=
  { s.begins c with lifecycle := { s.lifecycle with work := working c stage false } }

theorem State.beginLife_eq {s : State} {code : Word16} {c : Card} (stage : LifeStage) (body : Card → State → State)
    (h : s.lifeReady code = some c) : s.beginLife code stage body = body c (s.lifeBegun c stage) := by
  unfold State.beginLife
  rw [h]
  rfl

/-- A card of the lifecycle controller that is begun and handed back in one act. -/
theorem State.lifeBegun_handBack {s : State} (c : Card) (stage : LifeStage) (o : CardOutcome) (d : Option Word32) (b : List OutByte)
    (h : s.carries) : (s.lifeBegun c stage).lifeHandBack o d b =
      { (s.begins c).givesBack c o d b with lifecycle := { s.lifecycle with work := none } } :=
  State.lifeHandBack_eq (s := s.lifeBegun c stage) (w := { card := c, stage := stage, abandoned := false, committed := false })
    o d b rfl h

/-- A factory card of a good form takes its own steps in BLANK (R121). -/
theorem State.beginLife_factory_blank {s : State} {code : Word16} {c : Card} {form : Card → Option Nat} (stage : LifeStage)
    (body : Card → State → State) (hb : s.lifecycle.effective = .blank) (h : s.lifeReady code = some c) (hf : form c = none) :
    s.beginLife code stage (State.factory form body) = body c (s.lifeBegun c stage) := by
  rw [State.beginLife_eq _ _ h]
  unfold State.factory
  rw [hf]
  exact if_pos hb

/-- A factory card of a good form is refused WRONG LIFECYCLE elsewhere (R121). -/
theorem State.beginLife_factory_elsewhere {s : State} {code : Word16} {c : Card} {form : Card → Option Nat} (stage : LifeStage)
    (body : Card → State → State) (hb : s.lifecycle.effective ≠ .blank) (h : s.lifeReady code = some c) (hf : form c = none)
    (hc : s.carries) : s.beginLife code stage (State.factory form body) =
      { (s.begins c).givesBack c .wrongLifecycle none [] with lifecycle := { s.lifecycle with work := none } } := by
  rw [State.beginLife_eq _ _ h]
  unfold State.factory
  rw [hf]
  exact (if_neg hb).trans (State.lifeBegun_handBack c stage .wrongLifecycle none [] hc)

/-! ### The steps of a factory card (R122 to R125) -/

/-- FACTORY IDENTITY past its checks, with the census HEALTHY: the seed is drawn and goes to the curve engine (R122, R145). -/
theorem State.factoryIdentity_draws {s : State} {c : Card} {before : LifeStage} {m : Bool} (hw : s.lifecycle.work = working c before m)
    (hslot : s.slot 1 = none) (hc : s.census.state = .healthy) : s.factoryIdentity = { s with
      census := { s.census with seed := Config.drawAdvance s.census.seed 32 }
      lifecycle := { s.lifecycle with work := working c .generate m }
      curve := s.curve.submit s.identityScalar .lifecycle (.generate (strOf 256 (drawnBytes s.census.seed 32))) } := by
  have hpass : s.gate = .pass := by simp [State.gate, hc]
  have hdraw : s.factoryIdentity = s.identityDraw := by simp [State.factoryIdentity, hslot, hpass]
  rw [hdraw]
  unfold State.identityDraw State.lifeStage
  rw [hw]
  rfl

/-- A FACTORY PAIRING record somewhere in the table is found (R125). -/
theorem State.hasPairing_of {s : State} {i : Fin 32} {e : CredEntry} (hi : s.cred i = some e) (hk : e.record.kind = .pairing)
    (hc : e.record.cls = .factory) : s.hasPairing = true := by
  have hmem : some e ∈ s.credential.table.toList := hi ▸ Vector.mem_toList_iff.mpr (Vector.getElem_mem i.isLt)
  exact List.any_eq_true.mpr ⟨some e, hmem, by simp [hk, hc]⟩

theorem State.missingInstallation_none {s : State} (h0 : s.slot 0 ≠ none) (h1 : s.slot 1 ≠ none) (hc : s.lifecycle.certificate ≠ none)
    (hp : s.hasPairing = true) : s.missingInstallation = none := by
  simp [State.missingInstallation, firstBad, h0, h1, hc, hp]

/-- FACTORY FINISH with all four installations in place sends its write (R125). -/
theorem State.factoryFinish_sends {s : State} {c : Card} {before : LifeStage} {m : Bool} (hw : s.lifecycle.work = working c before m)
    (hm : s.missingInstallation = none) (hr : s.storeRoom .lifecycle) : s.factoryFinish = { s with
      lifecycle := { s.lifecycle with work := working c .finish true }
      store := s.store.queued (.lifecycle { effective := .unclaimed, marker := false }) .lifeCard } := by
  unfold State.factoryFinish
  rw [hm]
  refine (State.send_plainWrite (s := s.lifeStage .finish) hr (by decide) (by intro i v; simp)).trans ?_
  unfold State.commitCard State.lifeStage
  rw [hw]
  rfl

/-- Settles O48: each factory card past its form and the lifecycle check, and the refusal outside BLANK. -/
theorem factoryCardsBegin : Obligations.FactoryCardsBegin := by
  refine ⟨fun s c hb => ⟨?identity, ?root, ?certificate, ?pairing, ?finish⟩, ?elsewhere⟩
  case identity =>
    intro h hf hslot hc
    exact congrArg Host.Outcome.next ((State.beginLife_factory_blank _ _ hb h hf).trans
      (State.factoryIdentity_draws (s := s.lifeBegun c .gate) rfl hslot hc))
  case root =>
    intro h hf
    exact congrArg Host.Outcome.next (State.beginLife_factory_blank _ _ hb h hf)
  case certificate =>
    intro h hf
    exact congrArg Host.Outcome.next (State.beginLife_factory_blank _ _ hb h hf)
  case pairing =>
    intro h hf
    exact congrArg Host.Outcome.next (State.beginLife_factory_blank _ _ hb h hf)
  case finish =>
    rintro h hf h0 h1 hcert ⟨i, e, hi, hk, hcls⟩ hroom
    have hm : (s.lifeBegun c .finish).missingInstallation = none :=
      State.missingInstallation_none (s := s.lifeBegun c .finish) h0 h1 hcert (State.hasPairing_of (i := i) hi hk hcls)
    exact congrArg Host.Outcome.next ((State.beginLife_factory_blank _ _ hb h hf).trans (State.factoryFinish_sends rfl hm hroom))
  case elsewhere =>
    intro i code form s c hcard hb h hf hc
    obtain ⟨rfl, rfl, rfl⟩ | ⟨rfl, rfl, rfl⟩ | ⟨rfl, rfl, rfl⟩ | ⟨rfl, rfl, rfl⟩ | ⟨rfl, rfl, rfl⟩ := hcard
    all_goals exact congrArg Host.Outcome.next (State.beginLife_factory_elsewhere _ _ hb h hf hc)

end Sys2Proof.Machine
end

