-- ==== Sys2Proof/Proofs/OwnerPresence.lean ====
section
/-! SUPPORT. How presence ends, OWNER WITHDRAW, and the release request of the owner-release line; O50 and O51 are settled here (R128,
R129, R131, R132). -/
namespace Sys2Proof.Machine

/-! ### Presence ends (R128) -/

theorem State.endPresence_open {s : State} {expiry : Word32} (h : s.lifecycle.presence = some expiry) : s.endPresence = { s with
    exch := { s.exch with attention := s.exch.attention ||| 256#9 }
    messages := s.messages + (if s.linkUp then s.askMessages s.exch.enable else 0)
    lifecycle := { s.lifecycle with presence := none } } := by
  have hopen : s.presenceOpen = true := by simp [State.presenceOpen, h]
  exact (if_pos hopen).trans (State.ask_eq s.closePresence .presenceEnded)

theorem State.endPresence_closed {s : State} (h : s.lifecycle.presence = none) : s.endPresence = s :=
  if_neg (by simp [State.presenceOpen, h])

theorem State.closePresence_closed {s : State} (h : s.lifecycle.presence = none) : s.closePresence = s := by
  unfold State.closePresence
  rw [← h]

theorem exec_presenceExpiry {s : State} (hp : s.powered = true) :
    (s.lifecycle.presence = some s.pace.tick → exec .presenceExpiry s = .next s.endPresence)
      ∧ (s.lifecycle.presence ≠ some s.pace.tick → exec .presenceExpiry s = .next s) := by
  have hexec : exec .presenceExpiry s = .next s.presenceExpiry := congrArg _ (State.whenPowered_on _ hp)
  rw [hexec]
  exact ⟨fun h => congrArg _ (if_pos (decide_eq_true h)), fun h => congrArg _ (if_neg (by simp [State.presenceDue, h]))⟩

/-! ### OWNER WITHDRAW (R129) -/

/-- A card that names no extent has the form of one without fields. -/
theorem noFieldsForm_none {c : Card} (h : c.extentCount = 0) : noFieldsForm c = none := by
  simp [noFieldsForm, firstBad, extraExtents, h]

theorem noFieldsForm_extents {c : Card} (h : 0 < c.extentCount) : noFieldsForm c = some 0x110 := by
  simp [noFieldsForm, firstBad, extraExtents, h]

/-- OWNER WITHDRAW begun, before its form check. -/
theorem exec_ownerWithdraw {s : State} {c : Card} (h : s.lifeReady 0x0507#16 = some c) :
    exec .ownerWithdraw s = .next ((s.lifeBegun c .pairing).ownerWithdraw c) :=
  congrArg Host.Outcome.next (State.beginLife_eq _ _ h)

theorem State.ownerWithdraw_closes {s : State} {c : Card} (hf : noFieldsForm c = none) :
    s.ownerWithdraw c = s.afterWithdrawDetail.closePresence.lifeHandBack .done (some s.withdrawDetail) [] := by
  unfold State.ownerWithdraw
  rw [hf]

theorem exec_ownerWithdraw_refused {s : State} {c : Card} {n : Nat} (h : s.lifeReady 0x0507#16 = some c) (hc : s.carries)
    (hf : noFieldsForm c = some n) : exec .ownerWithdraw s =
      .next { (s.begins c).givesBack c .badRequest (some (BitVec.ofNat 32 n)) [] with
        lifecycle := { s.lifecycle with work := none } } := by
  have hbad : (s.lifeBegun c .pairing).ownerWithdraw c = (s.lifeBegun c .pairing).lifeBad n := by
    unfold State.ownerWithdraw
    rw [hf]
  rw [exec_ownerWithdraw h, hbad]
  exact congrArg Host.Outcome.next (State.lifeBegun_handBack c .pairing .badRequest _ [] hc)

theorem exec_ownerWithdraw_open {s : State} {c : Card} {expiry : Word32} (h : s.lifeReady 0x0507#16 = some c) (hc : s.carries)
    (hf : noFieldsForm c = none) (hp : s.lifecycle.presence = some expiry) : exec .ownerWithdraw s =
      .next { (s.begins c).givesBack c .done (some (BitVec.ofNat 32 (65536 + (expiry - s.pace.tick).toNat))) [] with
        lifecycle := { s.lifecycle with presence := none, work := none } } := by
  let b : State := s.lifeBegun c .pairing
  have hopen : b.presenceOpen = true := by simp [b, State.presenceOpen, State.lifeBegun, hp]
  have hleft : b.presenceLeft = (expiry - s.pace.tick).toNat := by
    have hb : b.lifecycle.presence = some expiry := hp
    unfold State.presenceLeft
    rw [hb]
    rfl
  have hfree : b.afterWithdrawDetail = b := by simp [State.afterWithdrawDetail, hopen]
  rw [exec_ownerWithdraw h, State.ownerWithdraw_closes hf, State.withdrawDetail_open hopen, hleft, hfree]
  exact congrArg Host.Outcome.next (State.lifeHandBack_eq (s := b.closePresence) .done _ [] rfl hc)

theorem exec_ownerWithdraw_closed {s : State} {c : Card} (h : s.lifeReady 0x0507#16 = some c) (hc : s.carries)
    (hf : noFieldsForm c = none) (hp : s.lifecycle.presence = none) : exec .ownerWithdraw s =
      .next { (s.begins c).givesBack c .done (some (Config.freeWord s.free &&& 0xFFFF#32)) [] with
        lifecycle := { s.lifecycle with work := none }, free := s.free + 1 } := by
  let b : State := s.lifeBegun c .pairing
  have hclosed : b.presenceOpen = false := by simp [b, State.presenceOpen, State.lifeBegun, hp]
  have hfree : b.afterWithdrawDetail = { b with free := b.free + 1 } := by simp [State.afterWithdrawDetail, hclosed]
  rw [exec_ownerWithdraw h, State.ownerWithdraw_closes hf, State.withdrawDetail_closed hclosed, hfree,
    State.closePresence_closed (s := { b with free := b.free + 1 }) hp]
  exact congrArg Host.Outcome.next (State.lifeHandBack_eq (s := { b with free := b.free + 1 }) .done _ [] rfl hc)

/-! ### The detail word's fields (R194) -/

/-- The detail word of a withdraw that found presence open: bit 16 is set, and the ticks stand below it. -/
theorem withdrawDetail_fields {n : Nat} (h : n < 65536) :
    (BitVec.ofNat 32 (65536 + n)).getLsbD 16 = true ∧ ((BitVec.ofNat 32 (65536 + n)).extractLsb' 0 16).toNat = n := by
  refine ⟨?_, ?_⟩
  · have hbit : (2 ^ 16 + n).testBit 16 = true := by rw [Nat.testBit_two_pow_add_eq, Nat.testBit_lt_two_pow h]; rfl
    rw [BitVec.getLsbD_ofNat]
    exact hbit
  · simp only [BitVec.extractLsb'_toNat, BitVec.toNat_ofNat, Nat.shiftRight_zero]
    omega

theorem low16_getLsbD (x : Word32) : (x &&& 0xFFFF#32).getLsbD 16 = false := by simp

/-- Settles O50: the refusal, the withdraw that finds presence closed or open, and the two orders at the expiry tick. -/
theorem ownerWithdrawClosesPresence : Obligations.OwnerWithdrawClosesPresence := by
  intro s c h hc settles
  have hopen : ∀ expiry, c.extentCount = 0 → s.lifecycle.presence = some expiry →
      settles s .done (BitVec.ofNat 32 (65536 + (expiry - s.pace.tick).toNat)) := fun expiry hx hp =>
    ⟨_, [], exec_ownerWithdraw_open h hc (noFieldsForm_none hx) hp, rfl, rfl, rfl, rfl⟩
  refine ⟨fun hx => ?refused, fun hx hp => ?closed, fun expiry hx hp hleft => ?opened, fun hx hp => ⟨?first, ?after⟩⟩
  case refused => exact ⟨_, _, [], exec_ownerWithdraw_refused h hc (noFieldsForm_extents hx), rfl, rfl, rfl, rfl⟩
  case closed =>
    exact ⟨_, ⟨_, [], exec_ownerWithdraw_closed h hc (noFieldsForm_none hx) hp, rfl, hp, rfl, rfl⟩, low16_getLsbD _⟩
  case opened =>
    obtain ⟨hflag, hticks⟩ := withdrawDetail_fields hleft
    exact ⟨_, hopen expiry hx hp, hflag, hticks⟩
  case first =>
    have hzero : (s.pace.tick - s.pace.tick).toNat = 0 := by simp
    obtain ⟨hflag, hticks⟩ := withdrawDetail_fields (n := (s.pace.tick - s.pace.tick).toNat) (by omega)
    exact ⟨_, hopen _ hx hp, hflag, BitVec.eq_of_toNat_eq (hticks.trans hzero)⟩
  case after =>
    obtain ⟨⟨hpow, -⟩, -⟩ := State.lifeReady_iff.mp h
    have hexp := (exec_presenceExpiry hpow).1 hp
    rw [State.endPresence_open hp] at hexp
    exact ⟨_, hexp, rfl, rfl, _, ⟨_, [], exec_ownerWithdraw_closed (by exact h) hc (noFieldsForm_none hx) rfl, rfl, rfl, rfl, rfl⟩,
      low16_getLsbD _⟩

/-! ### The owner-release line (R131, R132) -/

theorem State.releaseMayBegin_iff {s : State} :
    s.releaseMayBegin = true ↔ s.lifecycle.effective = .claimed ∧ s.lifecycle.pending = false := by
  simp [State.releaseMayBegin]

/-- A release request is taken in one act, and its marker's write is sent (R131). -/
theorem State.takeRelease_eq {s : State} (h : s.storeRoom .lifecycle) : s.takeRelease = { s with
    lifecycle := { s.lifecycle with requested := .unclaimed, pending := true, progress := .marking, presence := none }
    store := s.store.queued (.lifecycle { effective := .claimed, marker := true }) .lifeMarker } :=
  State.send_plainWrite (s := { s with lifecycle := { s.lifecycle with
    requested := .unclaimed, pending := true, progress := .marking, presence := none } }) h (by decide) (by intro i v; simp)

theorem State.ownerReleaseHold_due {s : State} (h : s.lifecycle.holdDue = true) : s.ownerReleaseHold =
    (let t : State := { s with lifecycle := { s.lifecycle with holdDue := false } }
     if t.releaseMayBegin then t.takeRelease else t) := if_pos h

/-- The census's report of entering FAILED is taken, and open presence ends (R128). -/
theorem exec_censusFailedReport {s : State} {n : Nat} (hp : s.powered = true) (hn : s.lifecycle.reports = n + 1) :
    exec .censusFailedReport s = .next ({ s with lifecycle := { s.lifecycle with reports := n } } : State).endPresence := by
  have hexec : exec .censusFailedReport s = .next s.censusFailedReport := congrArg _ (State.whenPowered_on _ hp)
  rw [hexec]
  unfold State.censusFailedReport
  simp only [hn, Nat.succ_pos, if_true, Nat.add_sub_cancel]

/-- Settles O51: the line's release request, taken or not, and the two ends of presence. -/
theorem holdAndPresenceEvents : Obligations.HoldAndPresenceEvents := by
  intro s hp ended
  have hexec : exec .ownerReleaseHold s = .next s.ownerReleaseHold := congrArg _ (State.whenPowered_on _ hp)
  obtain ⟨hdue, hearly⟩ := exec_presenceExpiry hp
  refine ⟨fun hd he hno hroom => ?taken, fun hd hno => ?ignored, fun h => ?expires, hearly,
    fun n expiry hn => ⟨fun h => ?failed, fun h => ?stays⟩⟩
  case taken =>
    have hmay : ({ s with lifecycle := { s.lifecycle with holdDue := false } } : State).releaseMayBegin = true :=
      State.releaseMayBegin_iff.mpr ⟨he, hno⟩
    rw [hexec, State.ownerReleaseHold_due hd]
    exact congrArg _ ((if_pos hmay).trans (State.takeRelease_eq (by exact hroom)))
  case ignored =>
    have hmay : ¬({ s with lifecycle := { s.lifecycle with holdDue := false } } : State).releaseMayBegin = true := fun hb => by
      obtain ⟨he, hf⟩ := State.releaseMayBegin_iff.mp hb
      exact hno.elim (fun hx => hx he) (fun hx => Bool.false_ne_true (hf.symm.trans hx))
    rw [hexec, State.ownerReleaseHold_due hd]
    exact congrArg _ (if_neg hmay)
  case expires => exact (hdue h).trans (congrArg _ (State.endPresence_open h))
  case failed => exact (exec_censusFailedReport hp hn).trans (congrArg _ (State.endPresence_open (by exact h)))
  case stays => exact (exec_censusFailedReport hp hn).trans (congrArg _ (State.endPresence_closed h))

end Sys2Proof.Machine
end

