-- ==== Sys2Proof/Proofs/ReleaseWipes.lean ====
section
/-! SUPPORT. A release's wipe orders sent, the answers of the three units, and the ends of the units' wipe writes; O52 is settled here (R23,
R38, R89, R116, R133, R134). -/
namespace Sys2Proof.Machine

/-! ### The session has left CHECKED (R133) -/

theorem exec_sessionLeftCheckedNotice {s : State} {n : Nat} (hp : s.powered = true) (hn : s.lifecycle.notices = n + 1) :
    exec .sessionLeftCheckedNotice s = .next
      (let t : State := { s with lifecycle := { s.lifecycle with notices := n } }
       if s.lifecycle.progress = .deferred then t.sendWipeOrders else t) := by
  have hexec : exec .sessionLeftCheckedNotice s = .next s.sessionLeftChecked := congrArg _ (State.whenPowered_on _ hp)
  rw [hexec]
  unfold State.sessionLeftChecked
  simp only [hn, Nat.succ_pos, if_true, Nat.add_sub_cancel]

/-! ### The answers of the three units (R133, R134) -/

/-- The lifecycle controller's fields when the third answer has come: the counts are recorded, and no answer is kept (R134). -/
def Lifecycle.counted (l : Lifecycle) (left : Trio (Option WipeTally)) (c : WipeCounts) (p : Progress) : Lifecycle :=
  { l with answersSent := left, answersTaken := Trio.empty, counts := c, progress := p }

theorem wipeCountsOf_anyFailed {a b d : WipeTally} :
    (wipeCountsOf a b d).anyFailed = true ↔ 0 < a.failed ∨ 0 < b.failed ∨ 0 < d.failed := by
  refine decide_eq_true_iff.trans ?_
  simp only [wipeCountsOf]
  omega

/-- The last answer has come and no unit's write failed: the closing write is sent (R134). -/
theorem State.answersComplete_closes {s : State} {c : WipeCounts} (hw : s.lifecycle.progress = .wiping) (hc : c.anyFailed = false)
    (hr : s.storeRoom .lifecycle) : s.answersComplete c = { s with
      lifecycle := s.lifecycle.counted s.lifecycle.answersSent c .closing
      store := s.store.queued (.lifecycle { effective := .unclaimed, marker := false }) .lifeClosing } := by
  unfold State.answersComplete
  simp only [hw, hc, Bool.false_eq_true, ne_eq, not_true_eq_false, if_false]
  exact State.send_plainWrite (s := { s with lifecycle := s.lifecycle.counted s.lifecycle.answersSent c .closing }) hr (by decide)
    (by intro i v; simp)

/-- The last answer has come and some write failed: the release stays INCOMPLETE (R134). -/
theorem State.answersComplete_fails {s : State} {c : WipeCounts} (hw : s.lifecycle.progress = .wiping) (hc : c.anyFailed = true) :
    s.answersComplete c = { s with lifecycle := s.lifecycle.counted s.lifecycle.answersSent c .incomplete } := by
  unfold State.answersComplete
  simp only [hw, hc, ne_eq, not_true_eq_false, if_false, if_true]
  rfl

/-- An answer taken with another still to come. -/
theorem State.wipeAnswer_waits {s : State} {unit : WipeUnit} {t : WipeTally} {taken : Trio (Option WipeTally)}
    (hs : s.lifecycle.answersSent.get unit = some t) (ht : s.lifecycle.answersTaken.put unit (some t) = taken)
    (hmore : taken.custody = none ∨ taken.credential = none ∨ taken.update = none) : s.wipeAnswer unit =
      { s with lifecycle := { s.lifecycle with answersSent := s.lifecycle.answersSent.put unit none, answersTaken := taken } } := by
  subst ht
  unfold State.wipeAnswer
  rw [hs]
  dsimp only
  split
  next ha hb hd => simp [ha, hb, hd] at hmore
  next => rfl

/-- The third answer taken. -/
theorem State.wipeAnswer_third {s : State} {unit : WipeUnit} {t a b d : WipeTally} (hs : s.lifecycle.answersSent.get unit = some t)
    (ht : s.lifecycle.answersTaken.put unit (some t) = { custody := some a, credential := some b, update := some d }) :
    s.wipeAnswer unit = ({ s with lifecycle := { s.lifecycle with
      answersSent := s.lifecycle.answersSent.put unit none
      answersTaken := { custody := some a, credential := some b, update := some d } } } : State).answersComplete
        (wipeCountsOf a b d) := by
  unfold State.wipeAnswer
  rw [hs]
  dsimp only
  rw [ht]

/-- After start-up, an answer moves start-up no further. -/
theorem exec_wipeAnswer {s t : State} {unit : WipeUnit} (hp : s.powered = true) (ht : s.wipeAnswer unit = t) (hu : t.startUp = .ended) :
    exec (.wipeAnswer unit) s = .next t := by
  subst ht
  exact congrArg Host.Outcome.next ((State.whenPowered_on _ hp).trans (State.startUpGoesOn_ended hu))

theorem exec_wipeAnswer_waits {s : State} {unit : WipeUnit} {t : WipeTally} {taken : Trio (Option WipeTally)} (hp : s.powered = true)
    (hu : s.startUp = .ended) (hs : s.lifecycle.answersSent.get unit = some t)
    (ht : s.lifecycle.answersTaken.put unit (some t) = taken)
    (hmore : taken.custody = none ∨ taken.credential = none ∨ taken.update = none) : exec (.wipeAnswer unit) s = .next
      { s with lifecycle := { s.lifecycle with answersSent := s.lifecycle.answersSent.put unit none, answersTaken := taken } } :=
  exec_wipeAnswer hp (State.wipeAnswer_waits hs ht hmore) hu

/-- The third answer, whichever unit's it is. -/
theorem exec_wipeAnswer_third {s : State} {unit : WipeUnit} {t a b d : WipeTally} (hp : s.powered = true) (hu : s.startUp = .ended)
    (hw : s.lifecycle.progress = .wiping) (hs : s.lifecycle.answersSent.get unit = some t)
    (ht : s.lifecycle.answersTaken.put unit (some t) = { custody := some a, credential := some b, update := some d }) :
    let life := s.lifecycle.counted (s.lifecycle.answersSent.put unit none) (wipeCountsOf a b d)
    (a.failed = 0 ∧ b.failed = 0 ∧ d.failed = 0 → s.storeRoom .lifecycle → exec (.wipeAnswer unit) s = .next { s with
      lifecycle := life .closing
      store := s.store.queued (.lifecycle { effective := .unclaimed, marker := false }) .lifeClosing })
    ∧ (0 < a.failed ∨ 0 < b.failed ∨ 0 < d.failed → exec (.wipeAnswer unit) s = .next { s with lifecycle := life .incomplete }) := by
  intro life
  have hthird := State.wipeAnswer_third hs ht
  refine ⟨fun hnone hroom => ?_, fun hsome => ?_⟩
  · have hclean : (wipeCountsOf a b d).anyFailed = false := Bool.eq_false_iff.mpr fun h => by
      have := wipeCountsOf_anyFailed.mp h
      omega
    exact exec_wipeAnswer hp (hthird.trans (State.answersComplete_closes hw hclean hroom)) hu
  · exact exec_wipeAnswer hp (hthird.trans (State.answersComplete_fails hw (wipeCountsOf_anyFailed.mpr hsome))) hu

/-! ### The end of a unit's wipe write (R23, R38, R89, R116) -/

theorem State.custodyWipeEnd_eq {s : State} {removed n failed : Nat} (ok : Bool)
    (h : s.custody.service = some (.wipe removed (n + 1) failed)) :
    (n = 0 → s.custodyWipeEnd ok = { s with
      custody := { s.custody with service := none }
      lifecycle := { s.lifecycle with answersSent := { s.lifecycle.answersSent with
        custody := some { erased := removed, failed := failed + (!ok).toNat } } } })
    ∧ (0 < n → s.custodyWipeEnd ok =
      { s with custody := { s.custody with service := some (.wipe removed n (failed + (!ok).toNat)) } }) := by
  unfold State.custodyWipeEnd
  rw [h]
  exact ⟨fun h0 => if_pos (by omega), fun hn => if_neg (by omega)⟩

theorem State.credWipeEnd_eq {s : State} {removed n failed : Nat} (ok : Bool)
    (h : s.credential.service = some (.wipe { removed := removed, outstanding := n + 1, failed := failed })) :
    (n = 0 → s.credWipeEnd ok = { s with
      credential := { s.credential with service := none }
      lifecycle := { s.lifecycle with answersSent := { s.lifecycle.answersSent with
        credential := some { erased := removed, failed := failed + (!ok).toNat } } } })
    ∧ (0 < n → s.credWipeEnd ok = { s with credential := { s.credential with
        service := some (.wipe { removed := removed, outstanding := n, failed := failed + (!ok).toNat }) } }) := by
  unfold State.credWipeEnd
  rw [h]
  exact ⟨fun h0 => if_pos (by simp [h0]), fun hn => if_neg (by simp; omega)⟩

/-- The update unit's order is answered with its last write when no event of it is still unsent (R38). -/
theorem State.updateWipeEnd_eq {s : State} {removed n failed : Nat} (ok : Bool)
    (h : s.update.service = some { removed := removed, outstanding := n + 1, failed := failed }) :
    (n = 0 → s.outboxes.updateWipe = [] → s.updateWipeEnd ok = { s with
      update := { s.update with service := none }
      lifecycle := { s.lifecycle with answersSent := { s.lifecycle.answersSent with
        update := some { erased := removed, failed := failed + (!ok).toNat } } } })
    ∧ (0 < n ∨ s.outboxes.updateWipe ≠ [] → s.updateWipeEnd ok = { s with update := { s.update with
        service := some { removed := removed, outstanding := n, failed := failed + (!ok).toNat } } }) := by
  unfold State.updateWipeEnd
  rw [h]
  refine ⟨fun h0 hout => if_pos ⟨h0, hout⟩, fun hmore => if_neg ?_⟩
  rintro ⟨h0, hout⟩
  exact hmore.elim (fun hn => Nat.ne_of_gt hn h0) (fun hne => hne hout)

/-- The end of a write in progress, whether or not it failed: besides the store, only the exchange and the count of messages are as the
request for STORE FAULT leaves them when its requester learns of it (R160, R161). -/
theorem exec_storeWriteEnd_reached {s : State} {w : Write} {a : WriteTo} {rest : List WriteRequest} {first second : Bool}
    (h : s.inWrite w a rest) (hover : ∀ p : State, p.credential = s.credential → p.credWriteOver w = p) :
    ∃ (e : Exchange) (m : Nat),
      (if s.endsDone w first second then s.wrote w first second rest else (s.wrote w first second rest).storeFaulted) =
          { s with exch := e, messages := m, store := s.store.wrote w first second rest }
        ∧ ∀ t : State, ({ s with exch := e, messages := m, store := (s.store.program w first second).1 } : State).answerWrite
              { write := w, answerTo := a } (s.endsDone w first second) = t →
            t.store = (s.store.program w first second).1 → t.attemptWaits = false →
            exec (.storeWriteEnd first second) s = .next { t with store := s.store.wrote w first second rest } := by
  obtain ⟨hp, -, -, -, -, hq, hwait, -⟩ := id h
  obtain ⟨hqueue, hwaiting, -⟩ := s.store.program_queue w first second
  obtain ⟨e, m, hprog, hleft⟩ : ∃ (e : Exchange) (m : Nat), s.programmed w first second =
        { s with exch := e, messages := m, store := (s.store.program w first second).1 }
      ∧ (if s.endsDone w first second then s.wrote w first second rest else (s.wrote w first second rest).storeFaulted) =
        { s with exch := e, messages := m, store := s.store.wrote w first second rest } := by
    rw [State.programmed_inWrite h]
    cases s.endsDone w first second with
    | true => exact ⟨s.exch, s.messages, rfl, rfl⟩
    | false => exact ⟨_, _, rfl, rfl⟩
  refine ⟨e, m, hleft, fun t ht hstore hc => ?_⟩
  have hend := exec_storeWriteEnd_answered (t := t) (first := first) (second := second) (more := rest) hp hq
    (by rw [hprog]; exact hover _ rfl) (by rw [hprog]; exact ht) (by rw [hstore, hwaiting, hwait]) hc
    (by rw [hstore, hqueue, hq]; rfl)
  rw [hend, hstore]
  rfl

/-- The write of an empty place counts at no entry. -/
theorem State.credWriteOver_empty {s : State} {i : Fin 32} (v : Option CredRecord) (h : s.cred i = none) :
    s.credWriteOver (.cred i v) = s := by
  have hsame : tableSet s.credential.table i none = s.credential.table := tableSet_get h
  show s.setCred i ((s.cred i).map CredEntry.writeOver) = s
  unfold State.setCred
  rw [h, Option.map_none, hsame]

/-- Settles O52: the notice, each unit's answer as the third and before, and each unit's wipe write as the last and before. -/
theorem releasesWipe : Obligations.ReleasesWipe := by
  refine ⟨fun s n hp hn => ⟨fun hd => ?deferred, fun hd => ?notDeferred⟩, ?answers, ?writes⟩
  case deferred => exact (exec_sessionLeftCheckedNotice hp hn).trans (congrArg _ (if_pos hd))
  case notDeferred => exact (exec_sessionLeftCheckedNotice hp hn).trans (congrArg _ (if_neg hd))
  case answers =>
    intro s a b d hp hu hw counts sent taken third waits
    refine ⟨fun hs => ⟨fun hb hd => ?_, fun hmore => ?_⟩, fun hs => ⟨fun ha hd => ?_, fun hmore => ?_⟩,
      fun hs => ⟨fun ha hb => ?_, fun hmore => ?_⟩⟩
    · exact exec_wipeAnswer_third hp hu hw hs (by simp [Trio.put, ← hb, ← hd, taken])
    · exact exec_wipeAnswer_waits hp hu hs rfl (.inr hmore)
    · exact exec_wipeAnswer_third hp hu hw hs (by simp [Trio.put, ← ha, ← hd, taken])
    · exact exec_wipeAnswer_waits hp hu hs rfl (hmore.elim .inl (.inr ∘ .inr))
    · exact exec_wipeAnswer_third hp hu hw hs (by simp [Trio.put, ← ha, ← hb, taken])
    · exact exec_wipeAnswer_waits hp hu hs rfl (hmore.elim .inl (.inr ∘ .inl))
  case writes =>
    intro s w a first second rest removed n failed h ok u failed' tally counts ends
    obtain ⟨-, -, -, -, -, -, -, hattempt⟩ := id h
    refine ⟨?custody, ?credential, ?update⟩
    case custody =>
      rintro rfl hv hplain
      obtain ⟨e, m, hu, hexec⟩ := exec_storeWriteEnd_reached (first := first) (second := second) h
        fun p _ => State.credWriteOver_plain p hplain
      obtain ⟨hlast, hmore⟩ := State.custodyWipeEnd_eq
        (s := { s with exch := e, messages := m, store := (s.store.program w first second).1 }) ok hv
      replace hu : u = _ := hu
      rw [hu]
      exact ⟨fun h0 => hexec _ (hlast h0) rfl hattempt, fun hn => hexec _ (hmore hn) rfl hattempt⟩
    case credential =>
      rintro i rfl rfl hi hv
      obtain ⟨e, m, hu, hexec⟩ := exec_storeWriteEnd_reached (first := first) (second := second) h
        fun p hp => State.credWriteOver_empty none ((congrArg (fun x : Credential => tableGet x.table i) hp).trans hi)
      obtain ⟨hlast, hmore⟩ := State.credWipeEnd_eq
        (s := { s with exch := e, messages := m, store := (s.store.program (.cred i none) first second).1 }) ok hv
      replace hu : u = _ := hu
      rw [hu]
      exact ⟨fun h0 => hexec _ (hlast h0) rfl hattempt, fun hn => hexec _ (hmore hn) rfl hattempt⟩
    case update =>
      rintro rfl hplain hv
      obtain ⟨e, m, hu, hexec⟩ := exec_storeWriteEnd_reached (first := first) (second := second) h
        fun p _ => State.credWriteOver_plain p hplain
      obtain ⟨hlast, hmore⟩ := State.updateWipeEnd_eq
        (s := { s with exch := e, messages := m, store := (s.store.program w first second).1 }) ok hv
      replace hu : u = _ := hu
      rw [hu]
      exact ⟨fun h0 hout => hexec _ (hlast h0 hout) rfl hattempt, fun hn => hexec _ (hmore hn) rfl hattempt⟩

end Sys2Proof.Machine
end

