-- ==== Sys2Proof/Proofs/LifecycleWrites.lean ====
section
/-! SUPPORT. The ends of the lifecycle controller's store writes and of its installation at the custody unit, and the acceptance of its part
events; O53 is settled here (R21, R122 to R127, R130, R131, R134). -/
namespace Sys2Proof.Machine

/-! ### The write of the card in work (R123, R125) -/

theorem State.lifeWriteEnd_finish {s : State} {c : Card} {m : Bool} (hw : s.lifecycle.work = working c .finish m) :
    s.lifeWriteEnd true = ({ s with lifecycle := { s.lifecycle with
        effective := .unclaimed, requested := .unclaimed, marker := false } } : State).lifeRefuse .done
      ∧ s.lifeWriteEnd false = s.lifeRefuse .storeFault := by
  unfold State.lifeWriteEnd
  simp only [hw, working]
  exact ⟨rfl, rfl⟩

theorem State.lifeWriteEnd_certificate {s : State} {c : Card} {bytes : List Byte} {m : Bool}
    (hw : s.lifecycle.work = working c (.certificateWrite bytes) m) :
    s.lifeWriteEnd true = ({ s with lifecycle := { s.lifecycle with certificate := some bytes } } : State).lifeHandBack .done
        (some (BitVec.ofNat 32 bytes.length)) []
      ∧ s.lifeWriteEnd false = s.lifeRefuse .storeFault := by
  unfold State.lifeWriteEnd
  simp only [hw, working]
  exact ⟨rfl, rfl⟩

/-! ### The marker of a release (R130, R131) -/

/-- An OWNERSHIP RELEASE in work is handed back. -/
theorem State.settleRelease_card {s : State} {c : Card} {m : Bool} (o : CardOutcome) (d : Option Word32)
    (hw : s.lifecycle.work = working c .release m) (hc : s.carries) : s.settleRelease o d =
      { s.givesBack c o d [] with lifecycle := { s.lifecycle with work := none } } := by
  have hback : s.settleRelease o d = s.lifeHandBack o d [] := by
    unfold State.settleRelease
    simp only [hw, working]
  exact hback.trans (State.lifeHandBack_eq o d [] hw hc)

/-- A release that the owner-release line began has no card to hand back (R132). -/
theorem State.settleRelease_noCard {s : State} (o : CardOutcome) (d : Option Word32) (hw : s.lifecycle.work = none) :
    s.settleRelease o d = s := by
  unfold State.settleRelease
  rw [hw]

/-- With the session not CHECKED the marker's end lets the wipe orders go out (R131). -/
theorem State.markerEnd_wipes {s : State} (hm : s.lifecycle.progress = .marking) (hx : ∀ x, s.update.session ≠ .checked x) :
    s.markerEnd true = ({ s with lifecycle := { s.lifecycle with marker := true } } : State).sendWipeOrders.settleRelease .done
      (some 3#32) := by
  unfold State.markerEnd
  simp only [hm, ne_eq, not_true_eq_false, if_false, if_true]
  cases hsession : s.update.session with
  | checked x => exact absurd hsession (hx x)
  | idle => rfl
  | opened x => rfl

/-- With the session CHECKED the wipe orders are deferred (R131). -/
theorem State.markerEnd_defers {s : State} {x : CheckedSession} (hm : s.lifecycle.progress = .marking)
    (hx : s.update.session = .checked x) : s.markerEnd true =
      ({ s with lifecycle := { s.lifecycle with marker := true, progress := .deferred } } : State).settleRelease .done (some 2#32) := by
  unfold State.markerEnd
  simp only [hm, hx, ne_eq, not_true_eq_false, if_false, if_true]
  rfl

/-- The marker's fault withdraws the release (R131). -/
theorem State.markerEnd_fault {s : State} (hm : s.lifecycle.progress = .marking) : s.markerEnd false =
    ({ s with lifecycle := { s.lifecycle with
      requested := .claimed, pending := false, progress := .none } } : State).settleRelease .storeFault none := by
  unfold State.markerEnd
  simp only [hm, ne_eq, not_true_eq_false, Bool.false_eq_true, if_false]

/-! ### The closing write and a claim's write (R109, R126, R134) -/

/-- The part is UNCLAIMED, and OWNERSHIP RELEASED waits to be accepted (R134). -/
theorem State.closingEnd_done {s : State} (hp : s.lifecycle.progress = .closing) (hq : s.quiet .lifecycleAsk)
    (hst : s.measure.starting = false) : s.closingEnd true = ({ s with lifecycle := { s.lifecycle with
      effective := .unclaimed, marker := false, pending := false, progress := .none } } : State).awaits .lifecycleAsk
        [.request (.event .ownershipReleased), .act .releaseDone] := by
  unfold State.closingEnd
  simp only [hp, ne_eq, not_true_eq_false, if_false, if_true]
  exact State.send_event _ _ hq (by decide) hst

theorem State.closingEnd_fault {s : State} (hp : s.lifecycle.progress = .closing) : s.closingEnd false =
    { s with lifecycle := { s.lifecycle with progress := .incomplete } } := by
  unfold State.closingEnd
  simp only [hp, ne_eq, not_true_eq_false, Bool.false_eq_true, if_false]

/-- The part is CLAIMED, and OWNERSHIP CLAIMED waits to be accepted (R126). -/
theorem State.claimEnd_done {s : State} (hq : s.quiet .lifecycleAsk) (hst : s.measure.starting = false) : s.claimEnd true =
    ({ s with lifecycle := { s.lifecycle with effective := .claimed, requested := .claimed, marker := false } } : State).awaits
      .lifecycleAsk [.request (.event .ownershipClaimed), .act .claimDone] :=
  State.send_event (s := { s with lifecycle := { s.lifecycle with effective := .claimed, requested := .claimed, marker := false } })
    _ _ hq (by decide) hst

/-- A claim's fault has the administrator record, which the table has not taken, removed from the store (R109). -/
theorem State.claimEnd_fault {s : State} {c : Card} {i : Fin 32} {r : CredRecord} {debt : Nat} {m : Bool}
    (hw : s.credential.work = working c (.awaitClaim i r debt) m) (hi : s.cred i = none) (hr : s.storeRoom .credential)
    (hf : s.outboxes.refresh = []) : s.claimEnd false = { s with
      lifecycle := { s.lifecycle with claiming := false }
      credential := { s.credential with work := working c (.claimUndo i) true }
      store := s.store.queued (.cred i none) .credCard } := by
  let t : State := { s with lifecycle := { s.lifecycle with claiming := false } }
  have hundo : s.claimEnd false = t.credWrite i none .credCard (.claimUndo i) := by
    unfold State.claimEnd
    simp only [hw, working, Bool.false_eq_true, if_false]
    rfl
  have hsame : tableSet s.credential.table i (Option.map CredEntry.writeSent none) = s.credential.table := tableSet_get hi
  have hsent := State.credWrite_eq (s := t) i none (.claimUndo i) hw hr hf
  have hnone : t.cred i = none := hi
  rw [hundo, hsent, hnone, hsame]

/-! ### The installation at the custody unit (R21, R122, R123) -/

theorem State.custodyRequestEnd_lifecycle {s : State} {i : Fin 6} {r : KeyRecord} (ok : Bool)
    (h : s.custody.service = some (.install i r .lifecycle)) : s.custodyRequestEnd ok =
      (if ok then ({ s with custody := { s.custody with service := none } } : State).setSlot (fixedSlot i) (some r)
        else { s with custody := { s.custody with service := none } }).lifeInstallAnswer ok := by
  unfold State.custodyRequestEnd
  rw [h]

theorem State.lifeInstallAnswer_eq {s : State} {c : Card} {body : List OutByte} {m : Bool}
    (hw : s.lifecycle.work = working c (.install body) m) (hc : s.carries) :
    s.lifeInstallAnswer true = { s.givesBack c .done none body with lifecycle := { s.lifecycle with work := none } }
      ∧ s.lifeInstallAnswer false = { s.givesBack c .storeFault none [] with lifecycle := { s.lifecycle with work := none } } := by
  unfold State.lifeInstallAnswer
  simp only [hw, working, if_true, Bool.false_eq_true, if_false]
  exact ⟨State.lifeHandBack_eq .done none body hw hc, State.lifeRefuse_eq .storeFault hw hc⟩

/-! ### The controller's part events accepted (R34, R38) -/

/-- A block that has one act left carries it out, and has nothing more to send. -/
theorem State.sendLane_act {s t : State} {c : Client} {x : After} (hc : c ≠ .updateAsk) (ht : (s.setOutbox c []).perform x = t)
    (ho : t.outboxes.get c = []) : (s.setOutbox c [.act x]).sendLane c = t := by
  rw [State.sendLane_eq _ hc]
  unfold State.sendFuel
  exact (State.sendAll_act _ x []).trans ((congrArg _ ht).trans (State.sendAll_done _ ho))

/-- The claim is answered: the table takes the administrator record, and the card settles MATCHED (R109). -/
theorem State.claimAnswered_eq {s : State} {c : Card} {i : Fin 32} {r : CredRecord} {debt : Nat} {m : Bool}
    (hw : s.credential.work = working c (.awaitClaim i r debt) m) (hc : s.carries) : s.claimAnswered =
      { s.givesBack c .matched none (outNum 1 (idOf i) ++ policyBody r.policy ++ outNum 2 debt ++ s.presenceReply) with
        credential := { s.credential with work := none, table := tableSet s.credential.table i (some (CredEntry.placed r)) } } := by
  have hback : s.claimAnswered = (s.setCred i (some (CredEntry.placed r))).credHandBack .matched none
      (outNum 1 (idOf i) ++ policyBody r.policy ++ outNum 2 debt ++ s.presenceReply) := by
    unfold State.claimAnswered
    simp only [hw, working]
    rfl
  exact hback.trans (State.credHandBack_eq (s := s.setCred i (some (CredEntry.placed r))) .matched none _ hw hc)

/-- What OWNERSHIP CLAIMED's acceptance brings: presence opens, and the claim is answered (R109, R126, R127). -/
theorem State.perform_claimDone {s : State} {c : Card} {i : Fin 32} {r : CredRecord} {debt : Nat} {m : Bool}
    (hw : s.credential.work = working c (.awaitClaim i r debt) m) (hc : s.carries) (hmay : s.presenceMayOpen = true) :
    s.perform .claimDone =
      { s.givesBack c .matched none
          (outNum 1 (idOf i) ++ policyBody r.policy ++ outNum 2 debt ++ outNum 1 1 ++ outNum 2 1200) with
        credential := { s.credential with work := none, table := tableSet s.credential.table i (some (CredEntry.placed r)) }
        lifecycle := { s.lifecycle with claiming := false, presence := some (s.pace.tick + 1200#32) } } := by
  let t : State := { s with lifecycle := { s.lifecycle with claiming := false } }
  obtain ⟨hopen, hreply⟩ := State.openPresence_opens (s := t) hmay
  have hanswer := State.claimAnswered_eq (s := t.openPresence) (by rw [hopen]; exact hw) (by rw [hopen]; exact hc)
  show t.openPresence.claimAnswered = _
  rw [hanswer, hreply, hopen, ← List.append_assoc]
  rfl

/-- The end of a write that fails, with another write sent behind it (R160). -/
theorem exec_storeWriteEnd_inWrite_faultSends {s t : State} {w : Write} {a : WriteTo} {rest more : List WriteRequest}
    {first second : Bool} (h : s.inWrite w a rest) (hn : ∀ i v, w ≠ .cred i v) (hbad : s.endsDone w first second = false)
    (ha : ({ s with store := (s.store.program w first second).1 } : State).storeFaulted.answerWrite { write := w, answerTo := a } false = t)
    (hw : t.store.waiting = []) (hc : t.attemptWaits = false) (hm : t.store.queue = { write := w, answerTo := a } :: more) :
    exec (.storeWriteEnd first second) s = .next { t with store := { t.store with queue := more } } := by
  obtain ⟨hp, hl, he, hr, -, hq, -, -⟩ := h
  exact exec_storeWriteEnd hp hq hn (by rw [State.programmed_fault hbad he hr hl, hbad]; exact ha) hw hc (by rw [hm]; rfl)

/-- Settles O53: the ends of the controller's writes by what they answer, the installation's, and the two events' acceptance. -/
theorem lifecycleWritesEnd : Obligations.LifecycleWritesEnd := by
  refine ⟨?writes, ?install, fun s e hl => ⟨fun h => ?released, fun c i r debt h hw hc he hp hs => ?claimed⟩⟩
  case writes =>
    intro s w a first second rest c h hn ok u ends fails
    obtain ⟨-, -, hstart, -, hcarry, hq, hwait, hattempt⟩ := id h
    let v : State := { s with store := (s.store.program w first second).1 }
    refine ⟨?finish, ?certificate, ?marker, ?markerLine, ?closing, ?claim⟩
    case finish =>
      rintro rfl hw
      obtain ⟨hdone, -⟩ := State.lifeWriteEnd_finish (s := v) hw
      obtain ⟨-, hfault⟩ := State.lifeWriteEnd_finish (s := v.storeFaulted) hw
      refine ⟨fun hok => ?_, fun hbad => ?_⟩
      · exact exec_storeWriteEnd_inWrite h hn hok (hdone.trans (State.lifeRefuse_eq .done hw hcarry)) rfl hattempt
      · exact exec_storeWriteEnd_inWrite_fault h hn hbad (hfault.trans (State.lifeRefuse_eq .storeFault hw hcarry)) rfl hattempt
    case certificate =>
      rintro bytes rfl hw
      obtain ⟨hdone, -⟩ := State.lifeWriteEnd_certificate (s := v) hw
      obtain ⟨-, hfault⟩ := State.lifeWriteEnd_certificate (s := v.storeFaulted) hw
      refine ⟨fun hok => ?_, fun hbad => ?_⟩
      · exact exec_storeWriteEnd_inWrite h hn hok (hdone.trans (State.lifeHandBack_eq .done _ [] hw hcarry)) rfl hattempt
      · exact exec_storeWriteEnd_inWrite_fault h hn hbad (hfault.trans (State.lifeRefuse_eq .storeFault hw hcarry)) rfl hattempt
    case marker =>
      rintro rfl hm hw
      refine ⟨fun hok hx => ?_, fun x hok hx => ?_, fun hbad => ?_⟩
      · exact exec_storeWriteEnd_inWrite h hn hok ((State.markerEnd_wipes (s := v) hm hx).trans
          (State.settleRelease_card .done _ hw hcarry)) rfl hattempt
      · exact exec_storeWriteEnd_inWrite h hn hok ((State.markerEnd_defers (s := v) hm hx).trans
          (State.settleRelease_card .done _ hw hcarry)) rfl hattempt
      · exact exec_storeWriteEnd_inWrite_fault h hn hbad ((State.markerEnd_fault (s := v.storeFaulted) hm).trans
          (State.settleRelease_card .storeFault none hw hcarry)) rfl hattempt
    case markerLine =>
      rintro rfl hm hw
      refine ⟨fun hok hx => ?_, fun x hok hx => ?_, fun hbad => ?_⟩
      · exact exec_storeWriteEnd_inWrite h hn hok ((State.markerEnd_wipes (s := v) hm hx).trans
          (State.settleRelease_noCard .done _ hw)) rfl hattempt
      · exact exec_storeWriteEnd_inWrite h hn hok ((State.markerEnd_defers (s := v) hm hx).trans
          (State.settleRelease_noCard .done _ hw)) rfl hattempt
      · exact exec_storeWriteEnd_inWrite_fault h hn hbad ((State.markerEnd_fault (s := v.storeFaulted) hm).trans
          (State.settleRelease_noCard .storeFault none hw)) rfl hattempt
    case closing =>
      rintro rfl hclosing
      refine ⟨fun hok hquiet hst => ?_, fun hbad => ?_⟩
      · have hdone := State.closingEnd_done (s := v) hclosing (State.programmed_quiet w first second hquiet) hst
        exact exec_storeWriteEnd_inWrite h hn hok ((congrArg State.startUpGoesOn hdone).trans (State.startUpGoesOn_ended hstart))
          rfl hattempt
      · have hfault := State.closingEnd_fault (s := v.storeFaulted) hclosing
        exact exec_storeWriteEnd_inWrite_fault h hn hbad
          ((congrArg State.startUpGoesOn hfault).trans (State.startUpGoesOn_ended hstart)) rfl hattempt
    case claim =>
      rintro i r debt rfl hw
      refine ⟨fun hok hquiet hst => ?_, fun hbad hroom hf hi => ?_⟩
      · exact exec_storeWriteEnd_inWrite h hn hok
          (State.claimEnd_done (s := v) (State.programmed_quiet w first second hquiet) hst) rfl hattempt
      · obtain ⟨hqueue, hwaiting, -⟩ := s.store.program_queue w first second
        have hundo := State.claimEnd_fault (s := v.storeFaulted) hw hi (State.programmed_storeRoom w first second hroom) hf
        have hmore : (s.store.program w first second).1.queue ++ [({ write := .cred i none, answerTo := .credCard } : WriteRequest)] = _ :=
          congrArg (· ++ _) (hqueue.trans hq)
        exact exec_storeWriteEnd_inWrite_faultSends h hn hbad hundo (hwaiting.trans hwait) rfl hmore
  case install =>
    intro s w first second rest c i r body h hn hv hw ok u done
    obtain ⟨-, -, -, -, hcarry, -, -, hattempt⟩ := id h
    let served (x : State) : State := { x with custody := { x.custody with service := none } }
    let v : State := { s with store := (s.store.program w first second).1 }
    obtain ⟨hdone, -⟩ := State.lifeInstallAnswer_eq (s := (served v).setSlot (fixedSlot i) (some r)) hw hcarry
    obtain ⟨-, hfault⟩ := State.lifeInstallAnswer_eq (s := served v.storeFaulted) hw hcarry
    refine ⟨fun hok => ?_, fun hbad => ?_⟩
    · exact exec_storeWriteEnd_inWrite h hn hok ((State.custodyRequestEnd_lifecycle (s := v) true hv).trans hdone) rfl hattempt
    · exact exec_storeWriteEnd_inWrite_fault h hn hbad
        ((State.custodyRequestEnd_lifecycle (s := v.storeFaulted) false hv).trans hfault) rfl hattempt
  case released =>
    obtain ⟨hpow, hu, -⟩ := id h
    let q : State := ({ s with measureWaiting := [] } : State).joinList (.event e)
    have hasked := State.ask_eq (q.setOutbox .lifecycleAsk []) .releaseDone
    rw [if_pos (show (q.setOutbox .lifecycleAsk []).linkUp = true from hl)] at hasked
    exact exec_partEvent_waiting h (State.sendLane_act (s := q) (by decide) hasked rfl) rfl hpow hu rfl
  case claimed =>
    obtain ⟨hpow, hu, -⟩ := id h
    let q : State := ({ s with measureWaiting := [] } : State).joinList (.event e)
    have hdone := State.perform_claimDone (s := q.setOutbox .lifecycleAsk []) hw hc (State.presenceMayOpen_iff.mpr ⟨he, hp, hs⟩)
    exact exec_partEvent_waiting h (State.sendLane_act (s := q) (by decide) hdone rfl) rfl hpow hu rfl

end Sys2Proof.Machine
end

