-- ==== Sys2Proof/Proofs/EngineRotation.lean ====
section
/-! SUPPORT. The rotations of the two engines and the grants of a free and of a released engine; O57 is settled here (R141, R146). -/
namespace Sys2Proof.Machine

/-! ### A cyclic order and the first of it that has something -/

/-- A search along a list ends no later than at an element that would be found. -/
theorem exists_findSome?_before {α β : Type} [DecidableEq α] {f : α → Option β} {l : List α} {c : α} {b : β} (hc : c ∈ l)
    (hb : f c = some b) : ∃ x a, l.findSome? (fun y => (f y).map (y, ·)) = some (x, a) ∧ f x = some a
      ∧ (x = c ∨ l.idxOf x < l.idxOf c) := by
  induction l with
  | nil => cases hc
  | cons y t ih =>
    cases hy : f y with
    | some a =>
      refine ⟨y, a, by simp [hy], hy, ?_⟩
      by_cases hyc : y = c
      · exact .inl hyc
      · rw [List.idxOf_cons_self, List.idxOf_cons_ne t hyc]
        exact .inr (Nat.succ_pos _)
    | none =>
      have hyc : y ≠ c := by
        rintro rfl
        cases hy.symm.trans hb
      obtain ⟨x, a, hfound, hx, hle⟩ := ih ((List.mem_cons.mp hc).resolve_left (Ne.symm hyc))
      have hyx : y ≠ x := by
        rintro rfl
        cases hy.symm.trans hx
      refine ⟨x, a, by simpa [hy] using hfound, hx, hle.imp_right fun hlt => ?_⟩
      rw [List.idxOf_cons_ne t hyx, List.idxOf_cons_ne t hyc]
      exact Nat.succ_lt_succ hlt

/-- Turned until `x` stands last, a cyclic order brings each element behind `x` nearer to its front. -/
theorem idxOf_rotate_lt {α : Type} [DecidableEq α] {l : List α} {x c : α} (hc : c ∈ l) (hlt : l.idxOf x < l.idxOf c) :
    (l.rotate (l.idxOf x + 1)).idxOf c < l.idxOf c := by
  have hx : x ∈ l := List.idxOf_lt_length_iff.mp (hlt.trans (List.idxOf_lt_length_of_mem hc))
  obtain ⟨before, after, rfl, hfirst⟩ := List.eq_append_cons_of_mem hx
  have hlast : (before ++ x :: after).rotate (before.length + 1) = after ++ (before ++ [x]) := by
    simpa using List.rotate_append_length_eq (before ++ [x]) after
  have hposition : (before ++ x :: after).idxOf x = before.length := by simp [List.idxOf_append_of_notMem hfirst]
  rw [hposition] at hlt ⊢
  rw [hlast]
  have hbefore : c ∉ before := fun h => by
    rw [List.idxOf_append_of_mem h] at hlt
    exact absurd (List.idxOf_lt_length_of_mem h) (Nat.lt_asymm hlt)
  rw [List.idxOf_append_of_notMem hbefore] at hlt ⊢
  have hxc : x ≠ c := by
    rintro rfl
    simp at hlt
  have hafter : c ∈ after := by simpa [hbefore, Ne.symm hxc] using hc
  rw [List.idxOf_append_of_mem hafter, List.idxOf_cons_ne after hxc]
  omega

/-! ### The hash engine (R141) -/

/-- Every requester has its place in every rotation. -/
theorem HashClient.mem_rotation (p c : HashClient) : c ∈ p.rotation := by
  cases p <;> cases c <;> decide

/-- The four rotations are one cyclic order: the rotation after `x` is any other, turned until `x` stands last. -/
theorem HashClient.rotation_turned (p x : HashClient) : x.rotation = p.rotation.rotate (p.rotation.idxOf x + 1) := by
  cases p <;> cases x <;> rfl

theorem HashClient.rotation_nearer {p x c : HashClient} (h : p.rotation.idxOf x < p.rotation.idxOf c) :
    x.rotation.idxOf c < p.rotation.idxOf c := by
  rw [p.rotation_turned x]
  exact idxOf_rotate_lt (p.mem_rotation c) h

theorem HashEngine.waiting_running (e : HashEngine) (run : Option HashRun) (c : HashClient) :
    ({ e with running := run } : HashEngine).waiting c = e.waiting c := by
  cases c <;> rfl

theorem HashEngine.setWaiting_waiting (e : HashEngine) (c : HashClient) : e.setWaiting c (e.waiting c) = e := by
  cases c <;> rfl

theorem HashEngine.waiting_setWaiting (e : HashEngine) (x c : HashClient) (j : Option HashJob) :
    (e.setWaiting x j).waiting c = if x = c then j else e.waiting c := by
  cases x <;> cases c <;> rfl

theorem HashEngine.grantTo_other (e : HashEngine) {x c : HashClient} (j : HashJob) (h : x ≠ c) :
    (e.grantTo x j).waiting c = e.waiting c :=
  ((e.setWaiting x none).waiting_running _ c).trans ((e.waiting_setWaiting x c none).trans (if_neg h))

theorem HashEngine.firstWaiting_eq_findSome? (e : HashEngine) (l : List HashClient) :
    e.firstWaiting l = l.findSome? fun c => (e.waiting c).map (c, ·) := by
  induction l with
  | nil => rfl
  | cons c t ih => cases hc : e.waiting c <;> simp [HashEngine.firstWaiting, hc, ih]

/-- While a job waits, the released engine grants the first of the rotation, which is that job or one before it. -/
theorem HashEngine.release_grants {e : HashEngine} {c : HashClient} {j : HashJob} (h : e.waiting c = some j) :
    ∃ x a, e.release = ({ e with running := none } : HashEngine).grantTo x a ∧ e.waiting x = some a
      ∧ (x = c ∨ e.pointer.rotation.idxOf x < e.pointer.rotation.idxOf c) := by
  obtain ⟨x, a, hfound, hx, hle⟩ := exists_findSome?_before (e.pointer.mem_rotation c) h
  have hfirst : ({ e with running := none } : HashEngine).firstWaiting e.pointer.rotation = some (x, a) := by
    simp only [HashEngine.firstWaiting_eq_findSome?, HashEngine.waiting_running, hfound]
  refine ⟨x, a, ?_, hx, hle⟩
  unfold HashEngine.release
  dsimp only
  rw [hfirst]

/-- A job that arrives at a free engine is granted its first piece at once (R141). -/
theorem HashEngine.submit_free {e : HashEngine} {c : HashClient} (j : HashJob) (hr : e.running = none) (hw : e.waiting c = none) :
    e.submit c j = { e with running := some { client := c, job := j, withdrawn := false } } := by
  have hplace : e.setWaiting c none = e := hw ▸ e.setWaiting_waiting c
  simp only [HashEngine.submit, hr, HashEngine.grantTo, hplace]

/-! ### The curve engine (R146) -/

theorem CurveClient.mem_rotation (p c : CurveClient) : c ∈ p.rotation := by
  cases p <;> cases c <;> decide

/-- The curve engine's four rotations are one cyclic order too. -/
theorem CurveClient.rotation_turned (p x : CurveClient) : x.rotation = p.rotation.rotate (p.rotation.idxOf x + 1) := by
  cases p <;> cases x <;> rfl

theorem CurveClient.rotation_nearer {p x c : CurveClient} (h : p.rotation.idxOf x < p.rotation.idxOf c) :
    x.rotation.idxOf c < p.rotation.idxOf c := by
  rw [p.rotation_turned x]
  exact idxOf_rotate_lt (p.mem_rotation c) h

theorem CurveEngine.waiting_running (e : CurveEngine) (run : Option CurveRun) (c : CurveClient) :
    ({ e with running := run } : CurveEngine).waiting c = e.waiting c := by
  cases c <;> rfl

theorem CurveEngine.setWaiting_waiting (e : CurveEngine) (c : CurveClient) : e.setWaiting c (e.waiting c) = e := by
  cases c <;> rfl

theorem CurveEngine.waiting_setWaiting (e : CurveEngine) (x c : CurveClient) (o : Option CurveOp) :
    (e.setWaiting x o).waiting c = if x = c then o else e.waiting c := by
  cases x <;> cases c <;> rfl

theorem CurveEngine.grantTo_other (e : CurveEngine) (k : Option Scalar) {x c : CurveClient} (o : CurveOp) (h : x ≠ c) :
    (e.grantTo k x o).waiting c = e.waiting c :=
  ((e.setWaiting x none).waiting_running _ c).trans ((e.waiting_setWaiting x c none).trans (if_neg h))

theorem CurveEngine.firstWaiting_eq_findSome? (e : CurveEngine) (l : List CurveClient) :
    e.firstWaiting l = l.findSome? fun c => (e.waiting c).map (c, ·) := by
  induction l with
  | nil => rfl
  | cons c t ih => cases hc : e.waiting c <;> simp [CurveEngine.firstWaiting, hc, ih]

/-- While an operation waits, the released engine grants the first of the rotation, which is that operation or one before it. -/
theorem CurveEngine.release_grants {e : CurveEngine} {c : CurveClient} {o : CurveOp} (k : Option Scalar) (h : e.waiting c = some o) :
    ∃ x a, e.release k = ({ e with running := none } : CurveEngine).grantTo k x a ∧ e.waiting x = some a
      ∧ (x = c ∨ e.pointer.rotation.idxOf x < e.pointer.rotation.idxOf c) := by
  obtain ⟨x, a, hfound, hx, hle⟩ := exists_findSome?_before (e.pointer.mem_rotation c) h
  have hfirst : ({ e with running := none } : CurveEngine).firstWaiting e.pointer.rotation = some (x, a) := by
    simp only [CurveEngine.firstWaiting_eq_findSome?, CurveEngine.waiting_running, hfound]
  refine ⟨x, a, ?_, hx, hle⟩
  unfold CurveEngine.release
  dsimp only
  rw [hfirst]

/-- An operation that arrives at a free engine is granted at once, with the scalar of that moment (R22, R146). -/
theorem CurveEngine.submit_free {e : CurveEngine} {c : CurveClient} (k : Option Scalar) (o : CurveOp) (hr : e.running = none)
    (hw : e.waiting c = none) : e.submit k c o = { e with running := some { client := c, op := o.granted k } } := by
  have hplace : e.setWaiting c none = e := hw ▸ e.setWaiting_waiting c
  simp only [CurveEngine.submit, hr, CurveEngine.grantTo, hplace]

/-- Settles O57: the grant goes to the job that waits or to one before it, and the rotation turns past the one that got it. -/
theorem enginesServeInRotation : Obligations.EnginesServeInRotation := by
  refine ⟨?hash, ?curve, ?hashFree, ?curveFree⟩
  case hash =>
    intro e c j h
    obtain ⟨x, a, hrelease, hx, hplace⟩ := HashEngine.release_grants h
    rw [hrelease]
    refine ⟨_, rfl, ?_⟩
    by_cases hxc : x = c
    · subst hxc
      exact .inl ⟨rfl, Option.some.inj (hx.symm.trans h)⟩
    · have hwaits := (HashEngine.grantTo_other { e with running := none } a hxc).trans ((e.waiting_running none c).trans h)
      exact .inr ⟨hxc, hwaits, HashClient.rotation_nearer (hplace.resolve_left hxc)⟩
  case curve =>
    intro e k c o h
    obtain ⟨x, a, hrelease, hx, hplace⟩ := CurveEngine.release_grants k h
    rw [hrelease]
    refine ⟨_, rfl, ?_⟩
    by_cases hxc : x = c
    · subst hxc
      exact .inl ⟨rfl, congrArg (CurveOp.granted k) (Option.some.inj (hx.symm.trans h))⟩
    · have hwaits := (CurveEngine.grantTo_other { e with running := none } k a hxc).trans ((e.waiting_running none c).trans h)
      exact .inr ⟨hxc, hwaits, CurveClient.rotation_nearer (hplace.resolve_left hxc)⟩
  case hashFree =>
    intro e c j hr hw
    exact HashEngine.submit_free j hr hw
  case curveFree =>
    intro e k c o hr hw
    exact CurveEngine.submit_free k o hr hw

end Sys2Proof.Machine
end

