-- ==== Sys2Proof/Proofs/CensusRuns.lean ====
section
/-! SUPPORT. What a census run leaves, what its end answers at the gates, and the period timer; O54 is settled here (R10, R115, R122, R149
to R154). -/
namespace Sys2Proof.Machine

/-! ### What a run leaves (R149 to R151, R154) -/

theorem censusPasses_iff {a b r : Byte} {bounded : Bool} : censusPasses a b r bounded = true ↔
    bounded = false ∧ 240 ≤ a.toNat ∧ 240 ≤ r.toNat ∧ 208 ≤ b.toNat ∧ b.toNat ≤ 238 := by
  simp [censusPasses, and_assoc]

/-- The census after a run that leaves a state: its counts, the period timer of that state, and the re-run that follows DOUBT. -/
def Census.ranTo (c : Census) (tick : Word32) (x : CensusRun) (new : CensusState) (seed : Key256) : Census :=
  { c with
    state := new
    run := if new = .doubt then some { a := 0#8, b := 0#8, r := 0#8 } else none
    a := x.a, b := x.b, r := x.r, seed := seed
    period := some { start := tick, limit := if new = .failed then 16 else 256 } }

theorem Census.afterRun_eq (c : Census) (tick : Word32) (x : CensusRun) (bounded : Bool) (jitter : List Byte) {pass : Bool}
    (hpass : censusPasses x.a x.b x.r bounded = pass) : c.afterRun tick x bounded jitter =
      c.ranTo tick x (c.state.after pass) (if pass then Config.conditioning c.seed jitter else c.seed) := by
  unfold Census.afterRun Census.ranTo
  rw [hpass]
  dsimp only
  cases c.state.after pass <;> rfl

/-- The part with its census run at its end. -/
def State.ranTo (s : State) (x : CensusRun) (new : CensusState) (seed : Key256) : State :=
  { s with census := s.census.ranTo s.pace.tick x new seed }

/-- A run that passes, or that fails out of another state than DOUBT, changes the census alone and then answers the gates (R150, R153). -/
theorem exec_censusRunEnd_ranTo {s t : State} {x : CensusRun} {a b r : Byte} {bounded pass : Bool} {jitter : List Byte}
    {new : CensusState} (hp : s.powered = true) (hr : s.census.run = some x)
    (hpass : censusPasses (x.a + a) (x.b + b) (x.r + r) bounded = pass) (hnew : s.census.state.after pass = new)
    (hstays : new = .failed → s.census.state = .failed)
    (ht : (s.ranTo (x.counted a b r) new (if pass then Config.conditioning s.census.seed jitter else s.census.seed)).answerWaiters = t)
    (he : t.startUp = .ended) : exec (.censusRunEnd a b r bounded jitter) s = .next t := by
  subst hnew
  have hafter := s.census.afterRun_eq s.pace.tick (x.counted a b r) bounded jitter hpass
  rw [exec_censusRunEnd a b r bounded jitter hp hr (congrArg (fun c => { s with census := c }) hafter)
    (if_neg fun ⟨hfailed, hother⟩ => hother (hstays hfailed))]
  exact congrArg Host.Outcome.next ((congrArg State.startUpGoesOn ht).trans (State.startUpGoesOn_ended he))

/-- The part with the census FAILED: the lifecycle controller told, and the part event still to be accepted (R152). -/
def State.censusFailed (s : State) (x : CensusRun) : State :=
  ({ s.ranTo x .failed s.census.seed with
    lifecycle := { s.lifecycle with reports := s.lifecycle.reports + 1 } }).awaits .census
      [.request (.event .censusFailed), .act .censusAttention]

/-- A run that fails in DOUBT enters FAILED, and then answers the gates (R150, R152, R153). -/
theorem exec_censusRunEnd_fails {s t : State} {x : CensusRun} {a b r : Byte} {bounded : Bool} (jitter : List Byte)
    (hp : s.powered = true) (hr : s.census.run = some x) (hd : s.census.state = .doubt)
    (hfail : censusPasses (x.a + a) (x.b + b) (x.r + r) bounded = false) (hq : s.quiet .census) (hst : s.measure.starting = false)
    (ht : (s.censusFailed (x.counted a b r)).answerWaiters = t) (he : t.startUp = .ended) :
    exec (.censusRunEnd a b r bounded jitter) s = .next t := by
  have hafter := s.census.afterRun_eq s.pace.tick (x.counted a b r) bounded jitter hfail
  rw [hd] at hafter
  have hsent : (s.ranTo (x.counted a b r) .failed s.census.seed).censusFails = s.censusFailed (x.counted a b r) :=
    State.send_event .censusFailed [.act .censusAttention] hq (by decide) hst
  rw [exec_censusRunEnd a b r bounded jitter hp hr (congrArg (fun c => { s with census := c }) hafter)
    ((if_pos ⟨rfl, by rw [hd]; decide⟩).trans hsent)]
  exact congrArg Host.Outcome.next ((congrArg State.startUpGoesOn ht).trans (State.startUpGoesOn_ended he))

/-! ### The gates (R10, R153) -/

/-- The part with nobody left to wait for the census. -/
def State.noWaiters (s : State) : State := { s with census := { s.census with waiters := [] } }

/-- A run that leaves DOUBT answers nobody. -/
theorem State.answerWaiters_doubt {s : State} (h : s.census.state = .doubt) : s.answerWaiters = s := by
  unfold State.answerWaiters
  rw [h]

/-- A run that leaves another state answers every waiter, in the order in which they came. -/
theorem State.answerWaiters_settled {s : State} {healthy : Bool} {l : List Waiter}
    (h : s.census.state = if healthy then .healthy else .failed) (hl : s.census.waiters = l) :
    s.answerWaiters = l.foldl (State.answerWaiter healthy) s.noWaiters := by
  unfold State.answerWaiters
  rw [h, hl]
  cases healthy <;> rfl

/-- A custody card at its gate goes on by its code when the census is HEALTHY (R153). -/
theorem State.custodyGateAnswer_passes {s : State} {c : Card} {m : Bool} (hw : s.custody.work = working c .gate m) :
    s.custodyGateAnswer true = if c.code = 0x0101#16 then s.generateAfterGate c else if c.code = 0x0105#16 then s.wrapSeal c
      else s.drawAfterGate c := by
  unfold State.custodyGateAnswer
  simp only [hw, working, Bool.true_eq_false, if_false]

theorem State.custodyGateAnswer_refused {s : State} {c : Card} {m : Bool} (hw : s.custody.work = working c .gate m) (hc : s.carries) :
    s.custodyGateAnswer false =
      { s.givesBack c .entropy none [] with custody := { s.custody with work := none, undo := none } } := by
  refine Eq.trans ?_ (State.custodyRefuse_eq .entropy hw hc)
  unfold State.custodyGateAnswer
  simp only [hw, working, if_true]

theorem State.credGateAnswer_passes {s : State} {c : Card} {m : Bool} (hv : s.credential.service = none)
    (hw : s.credential.work = working c .gate m) :
    s.credGateAnswer true = if c.code = 0x0401#16 then s.enrolAfterGate c else s.replaceAfterGate c := by
  unfold State.credGateAnswer
  simp only [hv, hw, working, Bool.true_eq_false, if_false]

theorem State.credGateAnswer_refused {s : State} {c : Card} {m : Bool} (hv : s.credential.service = none)
    (hw : s.credential.work = working c .gate m) (hc : s.carries) :
    s.credGateAnswer false = { s.givesBack c .entropy none [] with credential := { s.credential with work := none } } := by
  refine Eq.trans ?_ (State.credRefuse_eq .entropy hw hc)
  unfold State.credGateAnswer
  simp only [hv, hw, working, if_true]

/-- The pairing request at its gate goes on when the census is HEALTHY (R115). -/
theorem State.credGateAnswer_pairs {s : State} {code label : List Byte} {policy : Policy}
    (hv : s.credential.service = some (.pairingGate code label policy)) :
    s.credGateAnswer true = s.pairingDraw code label policy := by
  unfold State.credGateAnswer
  simp only [hv, if_true]

/-- The pairing request is refused, and with it the FACTORY PAIRING that waits for its answer (R115, R124). -/
theorem State.credGateAnswer_pairingRefused {s : State} {c : Card} {code label : List Byte} {policy : Policy} {m : Bool}
    (hv : s.credential.service = some (.pairingGate code label policy)) (hw : s.lifecycle.work = working c .pairing m)
    (hc : s.carries) : s.credGateAnswer false = { s.givesBack c .entropy none [] with
      credential := { s.credential with service := none }, lifecycle := { s.lifecycle with work := none } } := by
  have hanswer : s.credGateAnswer false = (s.credService none).lifeHandBack .entropy none [] := by
    unfold State.credGateAnswer State.lifePairingAnswer State.credService
    simp only [hv, hw, working, Bool.false_eq_true, if_false]
  exact hanswer.trans (State.lifeHandBack_eq (s := s.credService none) .entropy none [] hw hc)

/-- FACTORY IDENTITY at its gate draws its seed and asks the curve engine when the census is HEALTHY (R122). -/
theorem State.lifeGate_passes {s : State} {c : Card} {m : Bool} (hw : s.lifecycle.work = working c .gate m) :
    s.lifeGate true = { s with
      census := { s.census with seed := Config.drawAdvance s.census.seed 32 }
      lifecycle := { s.lifecycle with work := working c .generate m }
      curve := s.curve.submit s.identityScalar .lifecycle (.generate (strOf 256 (drawnBytes s.census.seed 32))) } := by
  unfold State.lifeGate State.identityDraw State.lifeStage
  simp only [hw, working, if_true]
  rfl

theorem State.lifeGate_refused {s : State} {c : Card} {m : Bool} (hw : s.lifecycle.work = working c .gate m) (hc : s.carries) :
    s.lifeGate false = { s.givesBack c .entropy none [] with lifecycle := { s.lifecycle with work := none } } := by
  refine Eq.trans ?_ (State.lifeRefuse_eq .entropy hw hc)
  unfold State.lifeGate
  simp only [hw, working, Bool.false_eq_true, if_false]

/-! ### What the cards do behind their gates (R8, R16, R112) -/

theorem State.drawAfterGate_eq {s : State} {w : Work CustodyStage} (c : Card) (hw : s.custody.work = some w) (hc : s.carries) :
    s.drawAfterGate c = { s with
      census := { s.census with seed := Config.drawAdvance s.census.seed (c.field 0 1) }
      custody := { s.custody with work := none, undo := none }
      exch := s.exch.handed { card := w.card, outcome := .done, detail := BitVec.ofNat 32 (c.field 0 1),
                              body := drawnBytes s.census.seed (c.field 0 1) } } := by
  refine (State.custodyHandBack_eq (s := s.afterDraw (c.field 0 1)) .done _ _ hw hc).trans ?_
  simp [State.givesBack, State.afterDraw, State.drawn]

/-- KEY GENERATE of a P256-SIGN key draws its seed and asks the curve engine (R8, R145). -/
theorem State.generateAfterGate_keyPair {s : State} {c : Card} {before : CustodyStage} {m : Bool}
    (hw : s.custody.work = working c before m) (halg : keyGenerateAlgorithm c = .p256Sign)
    (hfit : (keyGenerateFlags c).fits .p256Sign = true) (hblank : s.lifecycle.effective ≠ .blank)
    (howner : (keyGenerateFields c).cls = .owner →
      s.lifecycle.effective = .claimed ∧ s.lifecycle.pending = false ∧ s.lifecycle.presence.isSome = true) :
    s.generateAfterGate c = { s with
      census := { s.census with seed := Config.drawAdvance s.census.seed 32 }
      custody := { s.custody with work := working c .curveGenerate m }
      curve := s.curve.submit s.identityScalar .custody (.generate (strOf 256 (drawnBytes s.census.seed 32))) } := by
  have hallowed : s.creationRefusal (keyGenerateFields c).cls = none := by
    unfold State.creationRefusal
    rw [if_neg hblank]
    by_cases hcls : (keyGenerateFields c).cls = .owner
    · obtain ⟨he, hpending, hpresence⟩ := howner hcls
      rw [if_neg (not_not.mpr hcls), State.ownerRefusal_none he hpending hpresence]
    · exact if_pos hcls
  unfold State.generateAfterGate State.custodyStage
  simp only [hallowed, halg, hfit, hw, working, Bool.true_eq_false, if_false]
  rfl

/-- CRED REPLACE without an old secret, under presence, draws for its new one (R111, R112). -/
theorem State.replaceAfterGate_present {s : State} {c : Card} {e : CredEntry} (he : s.cred c.place = some e) (hold : c.field 2 1 = 0)
    (hpres : s.lifecycle.presence.isSome = true) : s.replaceAfterGate c = s.replaceDraw c e none := by
  unfold State.replaceAfterGate State.presenceOpen
  simp only [he, hold, hpres, Nat.lt_irrefl, if_false, if_true]

/-! ### The run's end, the period timer and the gates (R149 to R154) -/

/-- A run that passes in DOUBT finds the gates open: the waiters go on in a part whose census is HEALTHY (R150, R153). -/
theorem exec_censusRunEnd_opens {s t : State} {x : CensusRun} {a b r : Byte} {bounded : Bool} {jitter : List Byte} {l : List Waiter}
    (hp : s.powered = true) (hr : s.census.run = some x) (hd : s.census.state = .doubt)
    (hpass : censusPasses (x.a + a) (x.b + b) (x.r + r) bounded = true) (hl : s.census.waiters = l)
    (ht : l.foldl (State.answerWaiter true)
      (s.ranTo (x.counted a b r) .healthy (Config.conditioning s.census.seed jitter)).noWaiters = t)
    (he : t.startUp = .ended) : exec (.censusRunEnd a b r bounded jitter) s = .next t := by
  have hgates := State.answerWaiters_settled (healthy := true)
    (s := s.ranTo (x.counted a b r) .healthy (Config.conditioning s.census.seed jitter)) rfl hl
  exact exec_censusRunEnd_ranTo hp hr hpass (by rw [hd]; rfl) (fun h => by cases h) (hgates.trans ht) he

/-- A run that fails in DOUBT finds the gates shut: the waiters are refused in a part whose census is FAILED (R150, R153). -/
theorem exec_censusRunEnd_shuts {s t : State} {x : CensusRun} {a b r : Byte} {bounded : Bool} (jitter : List Byte) {l : List Waiter}
    (hp : s.powered = true) (hr : s.census.run = some x) (hd : s.census.state = .doubt)
    (hfail : censusPasses (x.a + a) (x.b + b) (x.r + r) bounded = false) (hq : s.quiet .census) (hst : s.measure.starting = false)
    (hl : s.census.waiters = l)
    (ht : l.foldl (State.answerWaiter false) (s.censusFailed (x.counted a b r)).noWaiters = t) (he : t.startUp = .ended) :
    exec (.censusRunEnd a b r bounded jitter) s = .next t :=
  exec_censusRunEnd_fails jitter hp hr hd hfail hq hst
    ((State.answerWaiters_settled (healthy := false) (s := s.censusFailed (x.counted a b r)) rfl hl).trans ht) he

/-- The period timer has run its limit, and no run is in progress (R151). -/
theorem State.periodExpires_iff {s : State} {p : PeriodTimer} (hper : s.census.period = some p) (hr : s.census.run = none) :
    s.periodExpires = true ↔ p.limit ≤ (s.pace.tick - p.start).toNat := by
  unfold State.periodExpires elapsed
  simp only [hper, hr, Option.isNone_none, Bool.and_true, decide_eq_true_eq]

/-- Settles O54: the state change by the verdict and the state before, then the answer at each gate by its unit's card. -/
theorem censusRunsEnd : Obligations.CensusRunsEnd := by
  refine ⟨?changes, ?accepted, ?period, ?draws, ?opens, ?shuts⟩
  case changes =>
    intro s x a b r bounded jitter hp hr hl hstart pass after seed
    have hverdict : pass ↔ censusPasses (x.a + a) (x.b + b) (x.r + r) bounded = true := censusPasses_iff.symm
    have hfails (h : ¬pass) : censusPasses (x.a + a) (x.b + b) (x.r + r) bounded = false :=
      Bool.eq_false_iff.mpr fun hpass => h (hverdict.mpr hpass)
    have hleaves (new : CensusState) (seed : Key256) :
        (s.ranTo (x.counted a b r) new seed).answerWaiters = after new seed := State.answerWaiters_none hl
    refine ⟨fun h hs => ?_, fun h hs => ?_, fun h hs => ?_, fun h hs => ?_, fun h hs hq hst => ?_⟩
    · have hnew : s.census.state.after true = .healthy := by
        cases hc : s.census.state
        case failed => exact absurd hc hs
        all_goals rfl
      exact exec_censusRunEnd_ranTo hp hr (hverdict.mp h) hnew (fun h => by cases h) (hleaves .healthy seed) hstart
    · exact exec_censusRunEnd_ranTo hp hr (hverdict.mp h) (by rw [hs]; rfl) (fun h => by cases h) (hleaves .doubt seed) hstart
    · exact exec_censusRunEnd_ranTo hp hr (hfails h) (by rw [hs]; rfl) (fun h => by cases h) (hleaves .doubt s.census.seed) hstart
    · exact exec_censusRunEnd_ranTo hp hr (hfails h) (by rw [hs]; rfl) (fun _ => hs) (hleaves .failed s.census.seed) hstart
    · exact exec_censusRunEnd_fails jitter hp hr hs (hfails h) hq hst
        (State.answerWaiters_none (s := s.censusFailed (x.counted a b r)) hl) hstart
  case accepted =>
    intro s h hlink
    obtain ⟨hpow, hstart, -⟩ := id h
    let q : State := ({ s with measureWaiting := [] } : State).joinList (.event .censusFailed)
    have hasked := State.ask_eq (q.setOutbox .census []) .censusFailed
    rw [if_pos (show (q.setOutbox .census []).linkUp = true from hlink)] at hasked
    exact exec_partEvent_waiting h (State.sendLane_act (s := q) (by decide) hasked rfl) rfl hpow hstart rfl
  case period =>
    intro s p hp hper hr
    have hexec : exec .periodTimerExpiry s = .next s.periodExpiry := congrArg _ (State.whenPowered_on _ hp)
    rw [hexec]
    refine ⟨fun h => ?_, fun h => ?_⟩
    · exact congrArg Host.Outcome.next (if_pos ((State.periodExpires_iff hper hr).mpr h))
    · exact congrArg Host.Outcome.next (if_neg fun hx => Nat.not_le.mpr h ((State.periodExpires_iff hper hr).mp hx))
  case draws =>
    intro s x c a b r jitter hp hr hl hstart hw hcode hcarry ha hr' hb hb' seed n
    have hpass := censusPasses_iff.mpr ⟨rfl, ha, hr', hb, hb'⟩
    refine ⟨fun hs => ?_, fun hs => ?_⟩
    · let u : State := (s.ranTo (x.counted a b r) .healthy seed).noWaiters
      have hanswer : u.custodyGateAnswer true = u.drawAfterGate c := (State.custodyGateAnswer_passes (s := u) hw).trans
        ((if_neg (by rw [hcode]; decide)).trans (if_neg (by rw [hcode]; decide)))
      exact ⟨_, exec_censusRunEnd_opens hp hr hs hpass hl (hanswer.trans (State.drawAfterGate_eq (s := u) c hw hcarry)) hstart,
        rfl, rfl, rfl, rfl, rfl⟩
    · let u : State := s.ranTo (x.counted a b r) .doubt seed
      have hexec := exec_censusRunEnd_ranTo hp hr hpass (by rw [hs]; rfl) (fun h => by cases h)
        (State.answerWaiters_doubt (s := u) rfl) hstart
      exact ⟨_, hexec, rfl, hl, rfl, rfl, rfl⟩
  case opens =>
    intro s x c a b r jitter hp hr hstart hs ha hr' hb hb' seed went ends
    have hpass := censusPasses_iff.mpr ⟨rfl, ha, hr', hb, hb'⟩
    let u : State := (s.ranTo (x.counted a b r) .healthy seed).noWaiters
    have hgoes {w : Waiter} {t : State} (hl : s.census.waiters = [w]) (ht : u.answerWaiter true w = t) (he : t.startUp = .ended) :
        ends t := exec_censusRunEnd_opens hp hr hs hpass hl ht he
    refine ⟨fun hl hw => ⟨fun hcode halg hfit hblank howner => ?generate, fun w key k hcode hslot hlive hlimit hkey hsource => ?wrap⟩,
      fun hl hv hw hpres n => ⟨fun hcode hpair hn => ?enrol, fun e hcode he hold hn => ?replace⟩,
      fun code label policy hl hv => ?pairing, fun hl hw => ?identity⟩
    case generate =>
      have hanswer := (State.custodyGateAnswer_passes (s := u) hw).trans (if_pos hcode)
      exact hgoes hl (hanswer.trans (State.generateAfterGate_keyPair (s := u) hw halg hfit hblank howner)) hstart
    case wrap =>
      have hanswer : u.custodyGateAnswer true = u.wrapSeal c :=
        (State.custodyGateAnswer_passes (s := u) hw).trans ((if_neg (by rw [hcode]; decide)).trans (if_pos hcode))
      exact hgoes hl (hanswer.trans (State.wrapSeal_eq (s := u) hw hslot hlive hlimit hkey hsource)) hstart
    case enrol =>
      have hanswer := (State.credGateAnswer_passes (s := u) hv hw).trans (if_pos hcode)
      exact hgoes hl (hanswer.trans (State.enrolAfterGate_enrols (s := u) hw hpair hpres hn)) hstart
    case replace =>
      have hanswer := (State.credGateAnswer_passes (s := u) hv hw).trans (if_neg (by rw [hcode]; decide))
      have hdraw := State.replaceAfterGate_present (s := u) he hold hpres
      exact hgoes hl (hanswer.trans (hdraw.trans (State.replaceDraw_eq (s := u) none hw hn))) hstart
    case pairing =>
      exact hgoes hl ((State.credGateAnswer_pairs (s := u) hv).trans (State.pairingDraw_eq u code label policy)) hstart
    case identity => exact hgoes hl (State.lifeGate_passes (s := u) hw) hstart
  case shuts =>
    intro s x c d a b r bounded jitter hp hr hstart hs hcarry hq hst hbad told failed refused ends
    have hfail : censusPasses (x.a + a) (x.b + b) (x.r + r) bounded = false := by
      refine Bool.eq_false_iff.mpr fun hpass => ?_
      obtain ⟨hin, ha, hr', hb, hb'⟩ := censusPasses_iff.mp hpass
      obtain h | h | h | h | h := hbad
      · exact Bool.false_ne_true (hin.symm.trans h)
      all_goals omega
    let u : State := (s.censusFailed (x.counted a b r)).noWaiters
    have hgoes {l : List Waiter} {t : State} (hl : s.census.waiters = l) (ht : l.foldl (State.answerWaiter false) u = t)
        (he : t.startUp = .ended) : ends t := exec_censusRunEnd_shuts jitter hp hr hs hfail hq hst hl ht he
    refine ⟨fun hl hw => ?_, fun hl hv hw => ?_, fun code label policy hl hv hw => ?_, fun hl hw => ?_, fun hl hw hw' => ?_⟩
    · exact hgoes hl (State.custodyGateAnswer_refused (s := u) hw hcarry) hstart
    · exact hgoes hl (State.credGateAnswer_refused (s := u) hv hw hcarry) hstart
    · exact hgoes hl (State.credGateAnswer_pairingRefused (s := u) hv hw hcarry) hstart
    · exact hgoes hl (State.lifeGate_refused (s := u) hw hcarry) hstart
    · have hfirst := State.lifeGate_refused (s := u) hw hcarry
      exact hgoes hl ((congrArg (State.custodyGateAnswer false) hfirst).trans
        (State.custodyGateAnswer_refused (s := { u.givesBack c .entropy none [] with lifecycle := { told with work := none } })
          hw' hcarry)) hstart

end Sys2Proof.Machine
end

