-- ==== Sys2Proof/Proofs/ProgramAndVerify.lean ====
section
/-! SUPPORT. What a write by program and verify makes of a record and of the location map, whole and cut by a loss of supply (R159, R161,
R162), and O58. -/
namespace Sys2Proof.Machine

/-! ### Records as start-up would load them (R159) -/

/-- A record whose alternate location holds no copy that passes its check is loaded from its current location. -/
theorem Cells.settled_of_passing_none {α : Type} {c : Cells α} (h : ∀ spot, c.alternate = some spot → spot.passing = none) :
    c.settled = c := by
  unfold Cells.settled
  cases ha : c.alternate with
  | none => rfl
  | some spot => simp only [h spot ha]

theorem Cells.loaded_of_settled {α : Type} {c : Cells α} (h : c.settled = c) : c.loaded = c.current.passing.bind (·.value) := by
  unfold Cells.loaded
  rw [h]

/-- The copy that a write programs has the higher generation, so that start-up takes it and not the former one (R159). -/
theorem Cells.confirm_settled {α : Type} (c : Cells α) (l : Loc) (v : Option α) : (c.confirm l v).settled = c.confirm l v := by
  have hgen (k : Copy α) (hk : c.current.passing = some k) : takesAlternate c.nextGen k.gen = false := by
    have hcopy : c.current.copy = some k := by
      unfold Spot.passing at hk
      split at hk
      · next old ho =>
        split at hk
        · exact ho.trans hk
        · cases hk
      · cases hk
    have hnext : c.nextGen = k.gen + 1#32 := by
      unfold Cells.nextGen
      rw [hcopy]
    have htwice : k.gen ≠ k.gen + 1#32 + 1#32 := by bv_omega
    unfold takesAlternate
    rw [hnext, if_neg htwice, if_pos rfl]
  cases hp : c.current.passing with
  | none =>
    refine Cells.settled_of_passing_none fun spot hs => ?_
    cases hs
    exact hp
  | some k =>
    have hnew : (c.confirm l v).current.passing = some (c.newCopy v) := rfl
    unfold Cells.settled
    rw [hnew]
    simp only [Cells.confirm, hp, Cells.newCopy, hgen k hp]
    rfl

/-! ### What a write can come to (R161) -/

/-- The record after a write that ends in a fault: no alternate location (R161). -/
def Cells.withoutAlternate {α : Type} (c : Cells α) : Cells α := { c with alternate := none }

theorem Cells.withoutAlternate_of_none {α : Type} {c : Cells α} (h : c.alternate = none) : c.withoutAlternate = c := by
  unfold Cells.withoutAlternate
  rw [← h]

@[simp] theorem Cells.withoutAlternate_settled {α : Type} (c : Cells α) : c.withoutAlternate.settled = c.withoutAlternate := rfl

/-- The write at the location of step 1: the first read-back confirms it, or it is retired and a spare, if one is left, is programmed
(R161). -/
theorem Cells.program_at {α : Type} {c : Cells α} {m m' : LocationMap} {l : Loc} (v : Option α) (first second : Bool)
    (h : c.locate m = some (l, m')) : c.program v m first second =
      if first then (c.confirm l v, m', true)
      else if m'.spares = 0 then (c.withoutAlternate, { spares := 0, retired := l :: m'.retired }, false)
      else if second then
        (c.confirm (.spare (64 - m'.spares)) v, { spares := m'.spares - 1, retired := l :: m'.retired }, true)
      else
        (c.withoutAlternate, { spares := m'.spares - 1, retired := .spare (64 - m'.spares) :: l :: m'.retired }, false) := by
  obtain ⟨spares, retired⟩ := m'
  unfold Cells.program
  rw [h]
  cases first with
  | true => rfl
  | false =>
    cases spares with
    | zero => rfl
    | succ n => rfl

theorem Cells.program_nowhere {α : Type} {c : Cells α} {m : LocationMap} (v : Option α) (first second : Bool)
    (h : c.locate m = none) : c.program v m first second = (c, m, false) := by
  unfold Cells.program
  rw [h]

theorem Cells.locate_alternate {α : Type} {c : Cells α} {spot : Spot α} (m : LocationMap) (h : c.alternate = some spot) :
    c.locate m = some (spot.loc, m) := by
  unfold Cells.locate
  rw [h]

theorem Cells.locate_none {α : Type} {c : Cells α} {m : LocationMap} (h : c.alternate = none) (hn : m.spares = 0) :
    c.locate m = none := by
  unfold Cells.locate LocationMap.takeSpare
  rw [h]
  exact if_pos hn

theorem Cells.locate_spare {α : Type} {c : Cells α} {m : LocationMap} (h : c.alternate = none) (hn : 0 < m.spares) :
    c.locate m = some (.spare (64 - m.spares), { m with spares := m.spares - 1 }) := by
  unfold Cells.locate LocationMap.takeSpare
  rw [h]
  exact if_neg (by omega)

theorem Cells.alternate_of_locate_none {α : Type} {c : Cells α} {m : LocationMap} (h : c.locate m = none) : c.alternate = none := by
  cases ha : c.alternate with
  | none => rfl
  | some spot => cases (Cells.locate_alternate m ha).symm.trans h

/-- A write ends DONE with the new copy confirmed at some location, or in a fault with the record as it was and no alternate location
(R161). -/
theorem Cells.program_cases {α : Type} (c : Cells α) (v : Option α) (m : LocationMap) (first second : Bool) :
    (∃ l m', c.program v m first second = (c.confirm l v, m', true))
      ∨ ∃ m', c.program v m first second = (c.withoutAlternate, m', false) := by
  cases hl : c.locate m with
  | none =>
    refine .inr ⟨m, ?_⟩
    rw [Cells.program_nowhere v first second hl, Cells.withoutAlternate_of_none (Cells.alternate_of_locate_none hl)]
  | some p =>
    obtain ⟨l, m'⟩ := p
    rw [Cells.program_at v first second hl]
    repeat' split
    · exact .inl ⟨_, _, rfl⟩
    · exact .inr ⟨_, rfl⟩
    · exact .inl ⟨_, _, rfl⟩
    · exact .inr ⟨_, rfl⟩

theorem Cells.program_of_done {α : Type} {c : Cells α} {v : Option α} {m : LocationMap} {first second : Bool}
    (h : (c.program v m first second).2.2 = true) : ∃ l, (c.program v m first second).1 = c.confirm l v := by
  obtain ⟨l, m', hr⟩ | ⟨m', hr⟩ := c.program_cases v m first second
  · exact ⟨l, congrArg Prod.fst hr⟩
  · rw [hr] at h
    cases h

theorem Cells.program_of_fault {α : Type} {c : Cells α} {v : Option α} {m : LocationMap} {first second : Bool}
    (h : (c.program v m first second).2.2 = false) : (c.program v m first second).1 = c.withoutAlternate := by
  obtain ⟨l, m', hr⟩ | ⟨m', hr⟩ := c.program_cases v m first second
  · rw [hr] at h
    cases h
  · exact congrArg Prod.fst hr

theorem Cells.program_settled {α : Type} (c : Cells α) (v : Option α) (m : LocationMap) (first second : Bool) :
    (c.program v m first second).1.settled = (c.program v m first second).1 := by
  obtain ⟨l, m', h⟩ | ⟨m', h⟩ := c.program_cases v m first second <;> rw [h]
  · exact c.confirm_settled l v
  · exact c.withoutAlternate_settled

/-! ### What a cut write leaves (R162) -/

/-- The record after a write cut at a location: the copy there is incomplete, and fails its check (R159, R162). -/
def Cells.tornAt {α : Type} (c : Cells α) (l : Loc) (v : Option α) : Cells α :=
  { c with alternate := some { loc := l, copy := some { c.newCopy v with intact := false } } }

@[simp] theorem Cells.tornAt_settled {α : Type} (c : Cells α) (l : Loc) (v : Option α) : (c.tornAt l v).settled = c.tornAt l v :=
  Cells.settled_of_passing_none fun _ h => by
    cases h
    rfl

/-- A write cut at the location of step 1, or at the spare that followed it (R162). -/
theorem Cells.tear_at {α : Type} {c : Cells α} {m m' : LocationMap} {l : Loc} (v : Option α) (cut : WriteCut)
    (h : c.locate m = some (l, m')) : c.tear v m cut =
      if cut = .firstProgramming then (c.tornAt l v, m')
      else if m'.spares = 0 then (c.withoutAlternate, { spares := 0, retired := l :: m'.retired })
      else (c.tornAt (.spare (64 - m'.spares)) v, { spares := m'.spares - 1, retired := l :: m'.retired }) := by
  obtain ⟨spares, retired⟩ := m'
  unfold Cells.tear
  rw [h]
  cases cut with
  | firstProgramming => rfl
  | secondProgramming =>
    cases spares with
    | zero => rfl
    | succ n => rfl

theorem Cells.tear_nowhere {α : Type} {c : Cells α} {m : LocationMap} (v : Option α) (cut : WriteCut) (h : c.locate m = none) :
    c.tear v m cut = (c, m) := by
  unfold Cells.tear
  rw [h]

/-- A cut write leaves the current location as it was. -/
theorem Cells.tear_current {α : Type} (c : Cells α) (v : Option α) (m : LocationMap) (cut : WriteCut) :
    (c.tear v m cut).1.current = c.current := by
  cases hl : c.locate m with
  | none => rw [Cells.tear_nowhere v cut hl]
  | some p =>
    obtain ⟨l, m'⟩ := p
    rw [Cells.tear_at v cut hl]
    repeat' split
    all_goals rfl

/-- A cut write leaves no copy that start-up would take instead of the current one (R159, R162). -/
theorem Cells.tear_settled {α : Type} {c : Cells α} (v : Option α) (m : LocationMap) (cut : WriteCut) (h : c.settled = c) :
    (c.tear v m cut).1.settled = (c.tear v m cut).1 := by
  cases hl : c.locate m with
  | none => rwa [Cells.tear_nowhere v cut hl]
  | some p =>
    obtain ⟨l, m'⟩ := p
    rw [Cells.tear_at v cut hl]
    repeat' split
    · exact c.tornAt_settled _ v
    · exact c.withoutAlternate_settled
    · exact c.tornAt_settled _ v

theorem Cells.tear_loaded {α : Type} {c : Cells α} (v : Option α) (m : LocationMap) (cut : WriteCut) (h : c.settled = c) :
    (c.tear v m cut).1.loaded = c.loaded := by
  rw [Cells.loaded_of_settled (Cells.tear_settled v m cut h), Cells.loaded_of_settled h, Cells.tear_current]

/-! ### The store's records -/

/-- Every record of a table stands as start-up would load it (R159). -/
def tableLoadable {α : Type} {n : Nat} (v : Vector (Cells α) n) : Prop := ∀ i, (tableGet v i).settled = tableGet v i

theorem tableLoadable_set {α : Type} {n : Nat} {v : Vector (Cells α) n} {c : Cells α} (i : Fin n) (h : tableLoadable v)
    (hc : c.settled = c) : tableLoadable (tableSet v i c) := by
  intro j
  by_cases hij : i = j
  · subst hij
    rwa [tableGet_tableSet_same]
  · rw [tableGet_tableSet_ne v c hij]
    exact h j

/-- The records of a store stand as start-up would load them (R159). -/
structure Store.Loadable (st : Store) : Prop where
  lifecycle   : st.lifecycle.settled = st.lifecycle
  certificate : st.certificate.settled = st.certificate
  slots       : tableLoadable st.slots
  marks       : tableLoadable st.marks
  creds       : tableLoadable st.creds
  kinds       : tableLoadable st.kinds

theorem State.storeOk_iff_loadable (s : State) : s.storeOk ↔ s.store.Loadable :=
  ⟨fun ⟨hlife, hcert, hslots, hmarks, hcreds, hkinds⟩ => ⟨hlife, hcert, hslots, hmarks, hcreds, hkinds⟩,
    fun ⟨hlife, hcert, hslots, hmarks, hcreds, hkinds⟩ => ⟨hlife, hcert, hslots, hmarks, hcreds, hkinds⟩⟩

/-- The records of one table are loaded with the values of another's. -/
def tableLoadsAs {α : Type} {n : Nat} (v v' : Vector (Cells α) n) : Prop := ∀ i, (tableGet v' i).loaded = (tableGet v i).loaded

theorem tableLoadsAs_set {α : Type} {n : Nat} (v : Vector (Cells α) n) {c : Cells α} (i : Fin n)
    (hc : c.loaded = (tableGet v i).loaded) : tableLoadsAs v (tableSet v i c) := by
  intro j
  by_cases hij : i = j
  · subst hij
    rwa [tableGet_tableSet_same]
  · rw [tableGet_tableSet_ne v c hij]

/-- The records of one store are loaded with the values of another's. -/
structure Store.LoadsAs (st st' : Store) : Prop where
  lifecycle   : st'.lifecycle.loaded = st.lifecycle.loaded
  certificate : st'.certificate.loaded = st.certificate.loaded
  slots       : tableLoadsAs st.slots st'.slots
  marks       : tableLoadsAs st.marks st'.marks
  creds       : tableLoadsAs st.creds st'.creds
  kinds       : tableLoadsAs st.kinds st'.kinds

theorem Store.LoadsAs.refl (st : Store) : st.LoadsAs st := ⟨rfl, rfl, fun _ => rfl, fun _ => rfl, fun _ => rfl, fun _ => rfl⟩

theorem Store.program_loadable {st : Store} (w : Write) (first second : Bool) (h : st.Loadable) :
    (st.program w first second).1.Loadable := by
  cases w with
  | lifecycle v => exact { h with lifecycle := Cells.program_settled _ _ _ _ _ }
  | certificate v => exact { h with certificate := Cells.program_settled _ _ _ _ _ }
  | slot i v => exact { h with slots := tableLoadable_set i h.slots (Cells.program_settled _ _ _ _ _) }
  | mark i v => exact { h with marks := tableLoadable_set i h.marks (Cells.program_settled _ _ _ _ _) }
  | cred i v => exact { h with creds := tableLoadable_set i h.creds (Cells.program_settled _ _ _ _ _) }
  | kind k v => exact { h with kinds := tableLoadable_set k h.kinds (Cells.program_settled _ _ _ _ _) }

theorem Store.tear_loadable {st : Store} (w : Write) (cut : WriteCut) (h : st.Loadable) : (st.tear w cut).Loadable := by
  cases w with
  | lifecycle v => exact { h with lifecycle := Cells.tear_settled _ _ _ h.lifecycle }
  | certificate v => exact { h with certificate := Cells.tear_settled _ _ _ h.certificate }
  | slot i v => exact { h with slots := tableLoadable_set i h.slots (Cells.tear_settled _ _ _ (h.slots i)) }
  | mark i v => exact { h with marks := tableLoadable_set i h.marks (Cells.tear_settled _ _ _ (h.marks i)) }
  | cred i v => exact { h with creds := tableLoadable_set i h.creds (Cells.tear_settled _ _ _ (h.creds i)) }
  | kind k v => exact { h with kinds := tableLoadable_set k h.kinds (Cells.tear_settled _ _ _ (h.kinds k)) }

/-- A cut write leaves every record of the store with its former value (R162). -/
theorem Store.tear_loadsAs {st : Store} (w : Write) (cut : WriteCut) (h : st.Loadable) : st.LoadsAs (st.tear w cut) := by
  have hsame := Store.LoadsAs.refl st
  cases w with
  | lifecycle v => exact { hsame with lifecycle := Cells.tear_loaded _ _ _ h.lifecycle }
  | certificate v => exact { hsame with certificate := Cells.tear_loaded _ _ _ h.certificate }
  | slot i v => exact { hsame with slots := tableLoadsAs_set _ i (Cells.tear_loaded _ _ _ (h.slots i)) }
  | mark i v => exact { hsame with marks := tableLoadsAs_set _ i (Cells.tear_loaded _ _ _ (h.marks i)) }
  | cred i v => exact { hsame with creds := tableLoadsAs_set _ i (Cells.tear_loaded _ _ _ (h.creds i)) }
  | kind k v => exact { hsame with kinds := tableLoadsAs_set _ k (Cells.tear_loaded _ _ _ (h.kinds k)) }

theorem Store.cut_loadable {st : Store} (cut : WriteCut) (h : st.Loadable) : (st.cut cut).Loadable := by
  unfold Store.cut
  split
  · exact { h with }
  · exact { Store.tear_loadable _ cut h with }

/-- A loss of supply leaves every record of the store with its former value, whether or not it cuts a write (R162). -/
theorem Store.cut_loadsAs {st : Store} (cut : WriteCut) (h : st.Loadable) : st.LoadsAs (st.cut cut) := by
  unfold Store.cut
  split
  · exact { Store.LoadsAs.refl st with }
  · exact { Store.tear_loadsAs _ cut h with }

/-! ### The statement -/

/-- Settles O58: a write confirms its new copy or leaves the former one, and the location map follows the places it goes through. -/
theorem writesProgramAndVerify : Obligations.WritesProgramAndVerify := by
  refine ⟨?program, ?tear, fun st first second => ?stores, fun st cut => ?tears, fun s cut hp hok => ?loss⟩
  case program =>
    intro α c v m first second hsettled result n spare next done faults
    have hdone {n : Nat} {retired : List Loc} {l : Loc}
        (h : result = (c.confirm l v, { spares := n, retired := retired }, true)) : done n retired l := by
      show result.2.2 = true ∧ result.2.1 = { spares := n, retired := retired } ∧ result.1.current.loc = l
      rw [h]
      exact ⟨rfl, rfl, rfl⟩
    have hfaults {n : Nat} {retired : List Loc}
        (h : result = (c.withoutAlternate, { spares := n, retired := retired }, false)) : faults n retired := by
      show result.2.2 = false ∧ result.2.1 = { spares := n, retired := retired }
      rw [h]
      exact ⟨rfl, rfl⟩
    refine ⟨fun hok => ?_, fun hfault => ?_, c.program_settled v m first second, fun spot hspot => ?_, fun hnone => ?_⟩
    · obtain ⟨l, hr⟩ := Cells.program_of_done hok
      rw [hr]
      exact ⟨Cells.loaded_of_settled (c.confirm_settled l v), rfl, c.newCopy v, rfl, rfl, rfl, rfl⟩
    · rw [Cells.program_of_fault hfault]
      exact ⟨(Cells.loaded_of_settled c.withoutAlternate_settled).trans (Cells.loaded_of_settled hsettled).symm, rfl, rfl⟩
    · have hat := Cells.program_at v first second (Cells.locate_alternate m hspot)
      refine ⟨fun hf => hdone ?_, fun hf hn => hfaults ?_, fun hf hn hs => hdone ?_, fun hf hn hs => hfaults ?_⟩
      · exact hat.trans (if_pos hf)
      · exact hat.trans ((if_neg (by simp [hf])).trans (if_pos hn))
      · exact hat.trans ((if_neg (by simp [hf])).trans ((if_neg (by omega)).trans (if_pos hs)))
      · exact hat.trans ((if_neg (by simp [hf])).trans ((if_neg (by omega)).trans (if_neg (by simp [hs]))))
    · have hat (hn : 0 < n) := Cells.program_at v first second (Cells.locate_spare hnone hn)
      have hsecond (hn : 1 < n) : Loc.spare (64 - (n - 1)) = next := by
        have hindex : 64 - (n - 1) = 65 - n := by omega
        rw [hindex]
      refine ⟨fun hn => hfaults ?_, fun hn hf => hdone ?_, fun hn hf => hfaults ?_, fun hn hf hs => hdone ?_,
        fun hn hf hs => hfaults ?_⟩
      · have hmap : m = { spares := 0, retired := m.retired } := hn ▸ rfl
        rw [Cells.withoutAlternate_of_none hnone, ← hmap]
        exact Cells.program_nowhere v first second (Cells.locate_none hnone hn)
      · exact (hat hn).trans (if_pos hf)
      · exact (hat (by omega)).trans ((if_neg (by simp [hf])).trans (if_pos (show n - 1 = 0 by omega)))
      · rw [← hsecond hn]
        exact (hat (by omega)).trans ((if_neg (by simp [hf])).trans ((if_neg (show n - 1 ≠ 0 by omega)).trans (if_pos hs)))
      · rw [← hsecond hn]
        exact (hat (by omega)).trans ((if_neg (by simp [hf])).trans ((if_neg (show n - 1 ≠ 0 by omega)).trans (if_neg (by simp [hs]))))
  case tear =>
    intro α c v m cut hsettled result n spare
    refine ⟨Cells.tear_loaded v m cut hsettled, c.tear_current v m cut, Cells.tear_settled v m cut hsettled, fun spot hspot => ?_,
      fun hnone => ⟨fun hn => ?_, fun hn => ?_, fun hn => ?_⟩⟩
    · have hat := Cells.tear_at v cut (Cells.locate_alternate m hspot)
      refine ⟨fun hcut => ?_, fun hcut => ?_⟩
      · exact congrArg Prod.snd (hat.trans (if_pos hcut))
      · refine (congrArg Prod.snd (hat.trans (if_neg (by simp [hcut])))).trans ?_
        split
        · next hn => rw [show n - 1 = 0 by omega]
        · rfl
    · exact congrArg Prod.snd (Cells.tear_nowhere v cut (Cells.locate_none hnone hn))
    · intro hcut
      exact congrArg Prod.snd ((Cells.tear_at v cut (Cells.locate_spare hnone hn)).trans (if_pos hcut))
    · intro hcut
      refine (congrArg Prod.snd ((Cells.tear_at v cut (Cells.locate_spare hnone hn)).trans (if_neg (by simp [hcut])))).trans ?_
      split
      · next hspent =>
        have hlast : n - 1 = 0 := hspent
        rw [show n - 2 = 0 by omega]
      · rw [show n - 2 = n - 1 - 1 by omega]
  case stores => exact ⟨fun _ => rfl, fun _ => rfl, fun _ _ => rfl, fun _ _ => rfl, fun _ _ => rfl, fun _ _ => rfl⟩
  case tears => exact ⟨fun _ => rfl, fun _ => rfl, fun _ _ => rfl, fun _ _ => rfl, fun _ _ => rfl, fun _ _ => rfl⟩
  case loss =>
    have hload := s.storeOk_iff_loadable.mp hok
    obtain ⟨hlife, hcert, hslots, hmarks, hcreds, hkinds⟩ := Store.cut_loadsAs cut hload
    exact ⟨s.powerLoss cut, congrArg Host.Outcome.next (State.whenPowered_on _ hp), rfl,
      (State.storeOk_iff_loadable _).mpr (Store.cut_loadable cut hload), hlife, hcert, hslots, hmarks, hcreds, hkinds⟩

end Sys2Proof.Machine
end

