-- ==== Sys2Proof/Proofs/Retention.lean ====
section
/-! SUPPORT. What every row keeps of host memory and of the store: the canonical form of the one, and in the other the copy of each record
that start-up would take at its current location (R159, R161, R162). -/
namespace Sys2Proof.Machine

/-! ### What is kept -/

/-- Host memory stays canonical, and the store's records stay loadable at their current locations. -/
structure State.Retains (s t : State) : Prop where
  memory : s.memoryOk → t.memoryOk
  store  : s.storeOk → t.storeOk

theorem State.Retains.refl (s : State) : s.Retains s := ⟨id, id⟩

theorem State.Retains.trans {s t u : State} (h : s.Retains t) (h' : t.Retains u) : s.Retains u :=
  ⟨h'.memory ∘ h.memory, h'.store ∘ h.store⟩

/-- Host memory and the store's records are a part of what the units leave still. -/
theorem State.Retains.of_still {s t : State} (h : t.still = s.still) : s.Retains t := by
  have hrecords (x : State) : x.storeOk ↔ x.still.lifeCells.settled = x.still.lifeCells ∧ x.still.certCells.settled = x.still.certCells
      ∧ (∀ i, (tableGet x.still.slotCells i).settled = tableGet x.still.slotCells i)
      ∧ (∀ i, (tableGet x.still.markCells i).settled = tableGet x.still.markCells i)
      ∧ (∀ i, (tableGet x.still.credCells i).settled = tableGet x.still.credCells i)
      ∧ ∀ k, (tableGet x.still.kindCells k).settled = tableGet x.still.kindCells k := Iff.rfl
  have hhost (x : State) : x.memoryOk ↔ Memory.wf x.still.host = true := Iff.rfl
  refine ⟨fun hs => ?_, fun hs => ?_⟩
  · rwa [hhost, h]
  · rwa [hrecords, h]

/-- An update of the other fields, after what `t` has kept. -/
theorem State.Retains.upTo {s t u : State} (h : s.Retains t) (hh : u.host = t.host) (hs : u.store = t.store) : s.Retains u := by
  refine h.trans ⟨fun hm => ?_, fun hr => ?_⟩
  · unfold State.memoryOk
    rwa [hh]
  · unfold State.storeOk
    rwa [hs]

/-- An update of the other fields, before what follows keeps. -/
theorem State.Retains.after {s t u : State} (h : t.Retains u) (hh : t.host = s.host) (hs : t.store = s.store) : s.Retains u :=
  ((State.Retains.refl s).upTo hh hs).trans h

/-- A row that leaves host memory and the store as they are. -/
theorem State.Retains.of_fields {s t : State} (hh : t.host = s.host) (hs : t.store = s.store) : s.Retains t :=
  (State.Retains.refl s).upTo hh hs

theorem State.Retains.foldl {α : Type} {f : State → α → State} (h : ∀ (s : State) x, s.Retains (f s x)) (l : List α) (s : State) :
    s.Retains (l.foldl f s) := by
  induction l generalizing s with
  | nil => exact .refl s
  | cons x l ih => exact (h s x).trans (ih (f s x))

theorem State.whenPowered_retains {next : State → State} (s : State) (h : s.Retains (next s)) : s.Retains (s.whenPowered next) := by
  unfold State.whenPowered
  split
  · exact h
  · exact .refl s

theorem State.whenReachable_retains {next : State → State} (s : State) (h : s.Retains (next s)) : s.Retains (s.whenReachable next) := by
  unfold State.whenReachable
  split
  · exact h
  · exact .refl s

/-! ### Host memory -/

theorem State.hostStores_retains (h : HostWrites) (s : State) : s.Retains (s.hostStores h) := ⟨State.hostStores_memoryOk h, id⟩

theorem State.writePage_retains (page off : Nat) (l : List Byte) (s : State) : s.Retains (s.writePage page off l) :=
  ⟨State.writePage_memoryOk page off l, id⟩

theorem State.writeOutput_retains (c : Card) (ok : Bool) (n : Nat) (l : List Byte) (s : State) : s.Retains (s.writeOutput c ok n l) :=
  ⟨State.writeHost_memoryOk _ _, id⟩

/-! ### The exchange -/

theorem State.setEnable_retains (b : Bool) (s : State) : s.Retains (s.setEnable b) := by
  unfold State.setEnable
  dsimp only
  split
  · exact (State.Retains.of_still (State.sendMessage_still _)).after rfl rfl
  · exact .of_fields rfl rfl

theorem State.writeAck_retains (v : Word32) (s : State) : s.Retains (s.writeAck v) := by
  unfold State.writeAck
  dsimp only
  split
  · exact (State.Retains.of_still (State.sendMessage_still _)).after rfl rfl
  · exact .of_fields rfl rfl

theorem State.nudge_retains (s : State) : s.Retains s.nudge := by
  unfold State.nudge
  repeat' split
  all_goals exact .of_fields rfl rfl

/-- The part as an active area enters FAULTED, before the cards of the settle list leave their buffers: the fetcher stopped, AREA FAULT
asked for, the code and the card recorded and, when that write is made, written to the header page (R184). -/
def State.faultRecorded (f : FaultCode) (n : Nat) (headerWritten : Bool) (s : State) : State :=
  { s with
    exch := { s.exch.halted with
      area := .faulted, closeRequested := false, faultCode := BitVec.ofNat 16 f.code, faultCard := byteOf n
      attention := s.exch.attention ||| 1#9, settleList := [] }
    messages := s.messages + if s.linkUp then s.askMessages s.exch.enable else 0
    host := if headerWritten && s.linkUp && decide (f ≠ .linkLost)
      then Memory.writeBytes s.host (s.pageAddress 0 14) (leBytes 2 f.code ++ leBytes 1 n) else s.host }

/-- Entry into FAULTED from an active area (R184). -/
theorem State.enterFaulted_active {s : State} (f : FaultCode) (n : Nat) (b : Bool) (h : s.exch.area.isActive = true) :
    s.enterFaulted f n b = (s.exch.settleList.map (·.card)).foldl (fun s c => s.freeBuffer c) (s.faultRecorded f n b) := by
  unfold State.enterFaulted State.faultRecorded
  rw [if_pos h]
  simp only [State.ask_eq]
  cases hw : b && s.linkUp && decide (f ≠ .linkLost)
  · rw [if_neg (by simpa [State.stopFetcher] using hw)]
    rfl
  · rw [if_pos (by simpa [State.stopFetcher] using hw)]
    rfl

theorem State.enterFaulted_retains (f : FaultCode) (n : Nat) (b : Bool) (s : State) : s.Retains (s.enterFaulted f n b) := by
  cases h : s.exch.area.isActive with
  | false =>
    have hnone : s.enterFaulted f n b = s := if_neg (by simp [h])
    rw [hnone]
    exact .refl s
  | true =>
    rw [State.enterFaulted_active f n b h]
    refine .trans (t := s.faultRecorded f n b) ⟨fun hm => ?_, id⟩ (.foldl (fun s c => .of_still (State.freeBuffer_still c s)) _ _)
    show Memory.wf (if _ then _ else s.host) = true
    split
    · exact Memory.writeBytes_wf _ _ hm
    · exact hm

theorem State.closeWhenEmpty_retains (s : State) : s.Retains s.closeWhenEmpty := by
  unfold State.closeWhenEmpty
  split
  · exact .of_fields rfl rfl
  · exact .refl s

theorem State.finishOpening_retains (s : State) : s.Retains s.finishOpening := (State.writePage_retains _ _ _ s).upTo rfl rfl

theorem State.openArea_retains (h : HostWrites) (a : OpenAnswer) (s : State) : s.Retains (s.openArea h a) := by
  have hstores : s.Retains (({ s with exch := { s.exch with area := .opening } } : State).hostStores h) :=
    (State.hostStores_retains h _).after rfl rfl
  unfold State.openArea
  split
  · cases a with
    | readAwaited => exact hstores.upTo rfl rfl
    | writeAwaited =>
      dsimp only
      split
      · exact hstores.upTo rfl rfl
      · exact hstores.trans (State.enterFaulted_retains _ _ _ _)
    | both =>
      dsimp only
      split
      · exact hstores.trans ((State.finishOpening_retains _).after rfl rfl)
      · exact hstores.trans (State.enterFaulted_retains _ _ _ _)
  · exact .of_still (State.ask_still _ s)

theorem State.closeCommand_retains (s : State) : s.Retains s.closeCommand := by
  unfold State.closeCommand
  split
  · exact (State.closeWhenEmpty_retains _).after rfl rfl
  · split
    · exact .refl s
    · exact (State.closeWhenEmpty_retains _).after rfl rfl
  all_goals exact .of_still (State.ask_still _ s)

theorem State.abandonUnbegun_retains (b : Buffer) (s : State) : s.Retains (s.abandonUnbegun b) := by
  have hback := State.Retains.of_still (State.handBack_still b.card .abandoned none [] s)
  unfold State.abandonUnbegun
  dsimp only
  split
  · exact (hback.upTo rfl rfl).trans (.of_still (State.restartIdle_still _))
  · exact hback.upTo rfl rfl

theorem State.abandonCommand_retains (s : State) : s.Retains s.abandonCommand := by
  have hall : s.Retains s.abandonArea := by
    refine .trans ?_ (State.closeWhenEmpty_retains _)
    refine .trans ?_ (.of_still (State.abandonNotices_still _))
    exact (State.Retains.foldl (fun s b => State.abandonUnbegun_retains b s) _ _).after rfl rfl
  unfold State.abandonCommand
  split
  · exact hall
  · exact hall
  all_goals exact .of_still (State.ask_still _ s)

theorem State.writeRegister_retains (o : BitVec 5) (v : Word32) (s : State) : s.Retains (s.writeRegister o v) := by
  have hbase (b : Word64) : s.Retains (s.writeBase b) := by
    unfold State.writeBase
    split <;> exact .of_fields rfl rfl
  have hcontrol : s.Retains (s.writeControl v) := by
    refine (s.setEnable_retains (v.getLsbD 8)).trans ?_
    unfold State.writeControl
    dsimp only
    split
    · exact .refl _
    · exact State.openArea_retains _ _ _
    · exact State.closeCommand_retains _
    · exact State.abandonCommand_retains _
  unfold State.writeRegister
  repeat' split
  · exact hbase _
  · exact hbase _
  · exact hcontrol
  · exact s.nudge_retains
  · exact s.writeAck_retains v
  all_goals exact .of_fields rfl rfl

theorem State.noCard_retains (s : State) : s.Retains s.noCard := by
  unfold State.noCard
  split <;> exact .of_fields rfl rfl

theorem State.readChain_retains (s : State) : s.Retains s.readChain := by
  have hfound (n : Nat) (c : Card) : s.Retains (s.candidateFound n c) := by
    unfold State.candidateFound
    repeat' split
    all_goals exact .of_fields rfl rfl
  have hwrong (n : Nat) : s.Retains (s.wrongTicket n) := by
    unfold State.wrongTicket
    split
    · exact (State.Retains.of_still (State.ask_still _ _)).after rfl rfl
    · exact .refl s
  unfold State.readChain
  split
  · exact s.noCard_retains
  · dsimp only
    split
    · exact s.noCard_retains
    · split
      · exact (hwrong _).trans (State.noCard_retains _)
      · exact hfound _ _

theorem State.completeOpening_retains (s : State) : s.Retains s.completeOpening := by
  unfold State.completeOpening
  repeat' split
  · exact (State.finishOpening_retains _).after rfl rfl
  · exact State.enterFaulted_retains _ _ _ s
  · exact s.finishOpening_retains
  all_goals exact .refl s

theorem State.readingPass_retains (h : HostWrites) (s : State) : s.Retains (s.readingPass h) := by
  unfold State.readingPass
  repeat' split
  · exact (s.hostStores_retains h).trans (State.completeOpening_retains _)
  · exact (s.hostStores_retains h).trans (State.readChain_retains _)
  · exact .refl s

theorem State.routeCard_retains (c : Card) (s : State) : s.Retains (s.routeCard c) := by
  unfold State.routeCard
  dsimp only
  repeat' split
  · exact (State.Retains.of_still (State.handBack_still _ _ _ _ _)).after rfl rfl
  · exact (State.Retains.of_still (State.handBack_still _ _ _ _ _)).after rfl rfl
  · exact .of_fields rfl rfl

theorem State.takeCard_retains (n : Nat) (ticket code : Word16) (s : State) : s.Retains (s.takeCard n ticket code) := by
  have hwrites : s.Retains ((s.writePage n 0 [2#8]).writePage 0 12 (leBytes 2 ticket.toNat)) :=
    (s.writePage_retains n 0 [2#8]).trans (State.writePage_retains _ _ _ _)
  exact hwrites.trans ((State.routeCard_retains _ _).after rfl rfl)

theorem State.cardTake_retains (h : HostWrites) (s : State) : s.Retains (s.cardTake h) := by
  unfold State.cardTake
  repeat' split
  · exact (s.hostStores_retains h).trans (State.takeCard_retains _ _ _ _)
  all_goals exact .refl s

theorem State.writeReply_retains (e : Settlement) (s : State) : s.Retains (s.writeReply e) :=
  (State.writePage_retains _ _ _ s).trans (.of_still (State.afterFill_still _ _))

theorem State.writeSettled_retains (e : Settlement) (s : State) : s.Retains (s.writeSettled e) := State.writePage_retains _ _ _ s

theorem State.tallySettle_retains (e : Settlement) (rest : List Settlement) (s : State) : s.Retains (s.tallySettle e rest) := by
  have hunhold (t : State) : t.Retains t.unhold := by
    unfold State.unhold
    split <;> exact .of_fields rfl rfl
  have hclose (t : State) : t.Retains t.closeIfDone := by
    unfold State.closeIfDone
    split
    · exact t.closeWhenEmpty_retains
    · exact t.closeWhenEmpty_retains
    all_goals exact .refl t
  refine .trans ?_ ((hunhold _).trans (hclose _))
  dsimp only
  split
  · refine .trans ?_ (.of_still ((State.sendMessage_still _).trans (State.freeBuffer_still _ _)))
    exact ⟨s.writePage_memoryOk _ _ _, id⟩
  · refine .trans ?_ (.of_still (State.freeBuffer_still _ _))
    exact ⟨s.writePage_memoryOk _ _ _, id⟩

theorem State.settleCard_retains (s : State) : s.Retains s.settleCard := by
  unfold State.settleCard
  repeat' split
  · exact .refl s
  · exact ((s.writeReply_retains _).trans (State.writeSettled_retains _ _)).trans (State.tallySettle_retains _ _ _)
  · exact .refl s

theorem State.accessFails_retains (x : FailedAccess) (h : HostWrites) (b : Bool) (s : State) : s.Retains (s.accessFails x h b) := by
  have hstores := s.hostStores_retains h
  have hopening (a : OpenAnswer) (fails : State → State) (hf : ∀ t : State, t.Retains (fails t)) :
      s.Retains (s.openingFault a fails h) := by
    unfold State.openingFault
    split
    · exact hstores.trans (hf _)
    · exact .refl s
  have hpass (fails : State → State) (hf : ∀ t : State, t.Retains (fails t)) : s.Retains (s.passFault fails h) := by
    unfold State.passFault
    split
    · exact hstores.trans (hf _)
    · exact .refl s
  have htake (f : FaultCode) (before : Nat → State → State) (hf : ∀ n (t : State), t.Retains (before n t)) :
      s.Retains (s.takeFault f before h b) := by
    unfold State.takeFault
    repeat' split
    · exact (hstores.trans (hf _ _)).trans (State.enterFaulted_retains _ _ _ _)
    all_goals exact .refl s
  have hsettle (before : Settlement → State → State) (n : Settlement → Nat) (hf : ∀ e (t : State), t.Retains (before e t)) :
      s.Retains (s.settleFault before n h b) := by
    unfold State.settleFault
    repeat' split
    · exact (hstores.trans (hf _ _)).trans (State.enterFaulted_retains _ _ _ _)
    all_goals exact .refl s
  unfold State.accessFails
  cases x with
  | headerRead => exact hopening _ _ fun t => t.enterFaulted_retains _ _ _
  | openingWrite => exact hopening _ _ fun t => t.enterFaulted_retains _ _ _
  | faultWrite =>
    refine hopening _ _ fun t => ?_
    split
    · exact t.enterFaulted_retains _ _ _
    · exact .refl t
  | linkRead => exact hpass _ fun t => t.enterFaulted_retains _ _ _
  | headRead =>
    refine hpass _ fun t => ?_
    split
    · exact t.enterFaulted_retains _ _ _
    · exact .refl t
  | cardRead => exact htake _ _ fun n t => .refl t
  | takenStateWrite => exact htake _ _ fun n t => .refl t
  | takenTicketWrite => exact htake _ _ fun n t => t.writePage_retains _ _ _
  | replyWrite => exact hsettle _ _ fun e t => .refl t
  | settledWrite => exact hsettle _ _ fun e t => t.writeReply_retains e
  | tallyWrite => exact hsettle _ _ fun e t => (t.writeReply_retains e).trans (State.writeSettled_retains e _)

/-! ### The pace clock and the link -/

theorem State.storedDebtRefresh_retains (s : State) : s.Retains s.storedDebtRefresh := by
  unfold State.storedDebtRefresh
  split
  · exact (State.Retains.of_still (State.send_still _ _ _)).after rfl rfl
  · exact .refl s

theorem State.decayStep_retains (s : State) : s.Retains s.decayStep := by
  unfold State.decayStep
  split
  · exact (State.Retains.of_still (State.decayAll_still _)).after rfl rfl
  · exact .refl s

theorem State.periodExpiry_retains (s : State) : s.Retains s.periodExpiry := by
  unfold State.periodExpiry
  split <;> exact .of_fields rfl rfl

/-- What the present tick still owes, act by act. -/
theorem State.flushTick_retains (s : State) : s.Retains s.flushTick := by
  have hpresence := State.Retains.of_still (State.presenceExpiry_still s)
  have hdebts := hpresence.trans ((State.decayStep_retains _).trans (State.storedDebtRefresh_retains _))
  have htimers := hdebts.trans (.of_still ((State.guardExpiry_still _).trans (State.idleExpiry_still _)))
  exact (htimers.trans (State.periodExpiry_retains _)).trans (.of_still (State.ownerReleaseHold_still _))

theorem State.paceTick_retains (low : Bool) (s : State) : s.Retains (s.paceTick low) := by
  unfold State.paceTick
  dsimp only
  split <;> exact s.flushTick_retains.upTo rfl rfl

theorem State.linkLoss_retains (s : State) : s.Retains s.linkLoss := by
  unfold State.linkLoss
  split
  · exact (State.enterFaulted_retains _ _ _ _).after rfl rfl
  · exact .refl s

theorem State.linkReturn_retains (s : State) : s.Retains s.linkReturn := by
  unfold State.linkReturn
  split <;> exact .of_fields rfl rfl

/-! ### The measure unit -/

theorem State.beginMeasure_retains (code : Word16) {body : Card → State → State} (s : State)
    (hb : ∀ c (t : State), t.Retains (body c t)) : s.Retains (s.beginMeasure code body) := by
  unfold State.beginMeasure
  split
  · exact (hb _ _).after rfl rfl
  · exact .refl s

theorem State.closeChain_retains (c : Card) (s : State) : s.Retains (s.closeChain c) := by
  unfold State.closeChain
  repeat' split
  · exact .of_still (State.measureBad_still _ _)
  · exact .of_still (State.measureRefuse_still _ _)
  · exact (State.Retains.of_still (State.measureHandBack_still _ _ _ _)).after rfl rfl

theorem State.quote_retains (c : Card) (s : State) : s.Retains (s.quote c) := by
  unfold State.quote
  repeat' split
  · exact .of_still (State.measureBad_still _ _)
  · exact .of_still (State.measureRefuse_still _ _)
  · exact .of_still (State.measureBad_still _ _)
  · exact .of_fields (by simp) (by simp)

theorem State.applyExtension_retains (i : Fin 12) (event : Word16) (digest value : Digest) (s : State) :
    s.Retains (s.applyExtension i event digest value) := by
  unfold State.applyExtension State.addRecord
  dsimp only
  repeat' split
  · exact .of_fields rfl rfl
  · exact .of_fields rfl rfl
  · exact (State.Retains.of_still (State.ask_still _ _)).after rfl rfl

theorem State.measureHashEnd_retains (result : Digest) (s : State) : s.Retains (s.measureHashEnd result) := by
  have hservice (x : MeasureService) : s.Retains (s.serviceHashEnd x result) := by
    cases x with
    | eventExtend e digest =>
      exact (s.applyExtension_retains _ _ _ _).trans (.of_still ((State.resumeMeasure_still _).trans (State.endService_still _)))
    | eventDigest e => exact .of_fields rfl rfl
    | composite asker expected => exact .of_still (State.answerCheck_still _ _ s)
    | candidates asker value left hit =>
      cases left with
      | nil => exact .of_still (State.answerCheck_still _ _ s)
      | cons d rest => exact .of_fields rfl rfl
  have hcard (w : Work MeasureStage) : s.Retains (s.cardHashEnd w result) := by
    unfold State.cardHashEnd
    split
    · exact (s.applyExtension_retains _ _ _ _).trans (.of_still (State.measureHandBack_still _ _ _ _))
    · refine .of_still ?_
      split <;> simp
    · exact .of_still ((State.pauseOr_still _ _ _ (State.hashSubmit_still _ _)).trans (State.measureStage_still _ s))
    all_goals exact .of_still (by simp)
  unfold State.measureHashEnd
  repeat' split
  · exact hservice _
  · exact hcard _
  · exact .refl s

/-! ### The ends of the engines' work, of a census run and of the units' accesses -/

theorem State.pieceEnded_retains (run : HashRun) (ok : Bool) (s : State) : s.Retains (s.pieceEnded run ok) := by
  by_cases hc : run.client = .measure
  · obtain ⟨client, job, withdrawn⟩ := run
    obtain rfl : client = .measure := hc
    unfold State.pieceEnded
    dsimp only
    repeat' split
    · exact .of_still (State.measureHashWithdrawn_still s)
    · exact .refl s
    · show s.Retains (s.jobEnded .measure _)
      unfold State.jobEnded
      split
      · exact s.measureHashEnd_retains _
      · exact .refl s
    · exact (State.Retains.of_still (State.measureHashPiece_still _ _)).after rfl rfl
  · exact .of_still (State.pieceEnded_still hc ok s)

theorem State.hashPieceEnd_retains (h : HostWrites) (answered : Bool) (s : State) : s.Retains (s.hashPieceEnd h answered) := by
  unfold State.hashPieceEnd
  split
  · exact .refl s
  · next run _ =>
    have hat : s.Retains (s.atPieceEnd h run.client) := ⟨s.hostStores_memoryOk h, id⟩
    exact .upTo (hat.trans (State.pieceEnded_retains run (answered && s.linkUp && !s.readCut run.client) _)) rfl rfl

theorem State.curveComplete_retains (s : State) : s.Retains s.curveComplete := by
  unfold State.curveComplete
  split
  · exact .refl s
  · next run _ =>
    let t : State := { s with curve := { s.curve with pointer := run.client } }
    have ht : t.Retains (t.curveEnded run) := .of_still (State.curveEnded_still run t)
    exact (ht.after (s := s) rfl rfl).upTo rfl rfl

theorem State.censusEnd_retains (a b r : Byte) (bounded : Bool) (jitter : List Byte) (s : State) :
    s.Retains (s.censusEnd a b r bounded jitter) := by
  unfold State.censusEnd
  split
  · refine .trans ?_ (.of_still ((State.startUpGoesOn_still _).trans (State.answerWaiters_still _)))
    split
    · exact (State.Retains.of_still (State.censusFails_still _)).after rfl rfl
    · exact .of_fields rfl rfl
  · exact .refl s

theorem State.extentDmaEnd_retains (u : DmaUnit) (h : HostWrites) (r : DmaResult) (s : State) : s.Retains (s.extentDmaEnd u h r) := by
  have hended (ok : Bool) (n : Nat) (t : State) : t.Retains (t.dmaEnded u ok n) := by
    have hwrite (c : Card) (l : List Byte) {v : State} (hv : v.still = (t.writeOutput c ok n l).still) : t.Retains v :=
      (t.writeOutput_retains c ok n l).trans (.of_still hv)
    cases u with
    | custody =>
      show t.Retains (t.custodyDmaEnd ok n)
      unfold State.custodyDmaEnd
      repeat' split
      · exact .refl t
      · exact .of_still (State.custodyGiveUp_still _)
      · exact .of_still (State.importBlob_still _ _ _)
      · exact .of_still (State.custodyRefuse_still _ _)
      · exact hwrite _ _ (State.custodyGiveUp_still _)
      · exact hwrite _ _ (State.custodyHandBack_still _ _ _ _)
      · exact hwrite _ _ ((State.custodyRefuse_still _ _).trans (State.takeBackUse_still _))
      · exact .refl t
    | measure =>
      show t.Retains (t.measureDmaEnd ok n)
      unfold State.measureDmaEnd
      repeat' split
      · exact .refl t
      · exact hwrite _ _ (State.measureRefuse_still _ _)
      · exact hwrite _ _ (State.measureHandBack_still _ _ _ _)
      · exact hwrite _ _ (State.measureRefuse_still _ _)
      · exact .refl t
    | update =>
      show t.Retains (t.updateDmaEnd ok n)
      unfold State.updateDmaEnd
      repeat' split
      · exact .refl t
      · exact hwrite _ _ (State.updateRefuse_still _ _)
      · exact hwrite _ _ (State.updateHandBack_still _ _ _ _)
      · exact hwrite _ _ (State.updateRefuse_still _ _)
      · exact .refl t
    | lifecycle =>
      show t.Retains (t.lifeDmaEnd ok n)
      unfold State.lifeDmaEnd
      repeat' split
      · exact .refl t
      · exact .of_still (State.lifeRefuse_still _ _)
      · exact .of_still ((State.send_still _ _ _).trans (State.lifeStage_still _ _))
      · exact .of_still (State.lifeRefuse_still _ _)
      · exact hwrite _ _ (State.lifeRefuse_still _ _)
      · exact hwrite _ _ (State.lifeHandBack_still _ _ _ _)
      · exact hwrite _ _ (State.lifeRefuse_still _ _)
      · exact .refl t
  unfold State.extentDmaEnd
  split
  · exact (s.hostStores_retains h).trans (hended _ _ _)
  · exact .refl s

/-! ### The store and start-up -/

/-- The copies that start-up takes stand at the current locations of their records (R159, R164). -/
theorem Store.settled_loadable (st : Store) : st.settled.Loadable := by
  have htable {α : Type} {n : Nat} (v : Vector (Cells α) n) : tableLoadable (v.map Cells.settled) := by
    intro i
    rw [tableGet_map, Cells.settled_settled]
  exact ⟨Cells.settled_settled _, Cells.settled_settled _, htable _, htable _, htable _, htable _⟩

theorem State.recordsPlaced_retains (s : State) : s.Retains s.recordsPlaced := by
  obtain ⟨-, -, -, -, -, -, hhost, hstore⟩ := s.recordsPlaced_frame
  refine ⟨fun hm => ?_, fun _ => ?_⟩
  · unfold State.memoryOk
    rwa [hhost]
  · rw [State.storeOk_iff_loadable, hstore]
    exact s.store.settled_loadable

theorem State.startStep5_retains (s : State) : s.Retains s.startStep5 := by
  rw [State.startStep5_eq]
  exact .of_fields rfl rfl

theorem State.beginStep4_retains (s : State) : s.Retains s.beginStep4 := by
  unfold State.beginStep4
  dsimp only
  split
  · exact (State.startStep5_retains _).after rfl rfl
  · exact .of_still ((State.send_still _ _ _).trans ((State.atStep_still _ _).trans (State.startStep4_still s)))

theorem State.beginStartUp_retains (s : State) : s.Retains s.beginStartUp := by
  rw [State.beginStartUp_placed]
  split
  · exact s.recordsPlaced_retains.trans (State.beginStep4_retains _)
  · exact s.recordsPlaced_retains.trans (.of_still ((State.send_still _ _ _).trans (State.atStep_still _ _)))

theorem State.startRemovalEnd_retains (s : State) : s.Retains s.startRemovalEnd := by
  unfold State.startRemovalEnd
  repeat' split
  · exact s.beginStep4_retains
  all_goals exact .of_fields rfl rfl

theorem State.startKindEnd_retains (w : Write) (ok : Bool) (s : State) : s.Retains (s.startKindEnd w ok) := by
  have hwritten := State.Retains.of_still (State.bootWritten_still w ok s)
  by_cases hstep : ∃ n, s.startUp = .step4 n
  · obtain ⟨n, hn⟩ := hstep
    rw [State.startKindEnd_step4 w ok hn]
    split
    · exact hwritten.trans (State.startStep5_retains _)
    · exact hwritten.trans (.of_still (State.atStep_still _ _))
  · rwa [State.startKindEnd_other w ok fun n hn => hstep ⟨n, hn⟩]

theorem State.answerWrite_retains (r : WriteRequest) (ok : Bool) (s : State) : s.Retains (s.answerWrite r ok) := by
  obtain ⟨w, a⟩ := r
  cases a with
  | credStartUp => exact s.startRemovalEnd_retains
  | updateStartUp => exact s.startKindEnd_retains w ok
  | nobody => exact .refl s
  | lifeClosing => exact .of_still ((State.startUpGoesOn_still _).trans (State.closingEnd_still _ s))
  | _ => exact .of_still (by simp [State.answerWrite])

/-- A write that has been programmed and verified leaves its record loadable at its current location (R161). -/
theorem State.programmed_retains (w : Write) (first second : Bool) (s : State) : s.Retains (s.programmed w first second) := by
  let t : State := { s with store := (s.store.program w first second).1 }
  have hwritten : s.Retains t :=
    ⟨id, fun h => t.storeOk_iff_loadable.mpr (Store.program_loadable w first second (s.storeOk_iff_loadable.mp h))⟩
  unfold State.programmed
  dsimp only
  split
  · exact hwritten
  · exact hwritten.trans (.of_still (State.askStoreFault_still t))

theorem State.leaveQueue_retains (s : State) : s.Retains s.leaveQueue := by
  let t : State := { s with store := { s.store with queue := s.store.queue.tail } }
  have hleft : t.still = s.still := rfl
  exact .of_still ((State.resumeAttempt_still _).trans ((State.pumpStore_still _ t).trans hleft))

theorem State.storeWriteEnd_retains (first second : Bool) (s : State) : s.Retains (s.storeWriteEnd first second) := by
  unfold State.storeWriteEnd
  split
  · exact .refl s
  · next r _ _ =>
    have hover := (s.programmed_retains r.write first second).trans (.of_still (State.credWriteOver_still r.write _))
    exact (hover.trans (State.answerWrite_retains r _ _)).trans (State.leaveQueue_retains _)

/-! ### Supply and reset -/

theorem State.powerLoss_retains (cut : WriteCut) (s : State) : s.Retains (s.powerLoss cut) :=
  ⟨id, fun h => (State.storeOk_iff_loadable _).mpr (Store.cut_loadable cut (s.storeOk_iff_loadable.mp h))⟩

theorem State.powerUp_retains (s : State) : s.Retains s.powerUp := by
  unfold State.powerUp
  split
  · exact .refl s
  · exact ⟨id, id⟩

theorem State.resetLineSet_retains (b : Bool) (s : State) : s.Retains (s.resetLineSet b) := by
  unfold State.resetLineSet
  repeat' split
  · exact .refl s
  · exact ⟨id, id⟩
  · exact .of_fields rfl rfl

/-! ### Every row -/

theorem retains_of_exec {c : Instr} {s t u : State} (h : exec c s = .next t) (e : exec c s = .next u) (hu : s.Retains u) :
    s.Retains t := by
  cases h.symm.trans e
  exact hu

/-- Every row keeps host memory canonical and the store's records loadable. -/
theorem exec_retains {c : Instr} {s t : State} (h : exec c s = .next t) : s.Retains t := by
  have hreach {next : State → State} (e : exec c s = .next (s.whenReachable next)) (hn : s.Retains (next s)) : s.Retains t :=
    retains_of_exec h e (s.whenReachable_retains hn)
  have hpowered {next : State → State} (e : exec c s = .next (s.whenPowered next)) (hn : s.Retains (next s)) : s.Retains t :=
    retains_of_exec h e (s.whenPowered_retains hn)
  cases c with
  | areaOpen b stores a => exact hreach rfl ((s.setEnable_retains b).trans (State.openArea_retains stores a _))
  | areaClose b => exact hreach rfl ((s.setEnable_retains b).trans (State.closeCommand_retains _))
  | areaAbandon b => exact hreach rfl ((s.setEnable_retains b).trans (State.abandonCommand_retains _))
  | interruptEnableWrite b => exact hreach rfl (s.setEnable_retains b)
  | nudge v => exact hreach rfl s.nudge_retains
  | settleAck v => exact hreach rfl (s.writeAck_retains v)
  | attentionClear v => exact hreach rfl (.of_fields rfl rfl)
  | registerWrite o v => exact hreach rfl (s.writeRegister_retains o v)
  | readingPass stores => exact retains_of_exec h rfl (s.readingPass_retains stores)
  | cardTake stores => exact retains_of_exec h rfl (s.cardTake_retains stores)
  | settle => exact retains_of_exec h rfl s.settleCard_retains
  | areaFaulted failure answered => exact hpowered rfl (s.accessFails_retains _ _ answered)
  | linkLoss => exact hpowered rfl s.linkLoss_retains
  | linkReturn => exact hpowered rfl s.linkReturn_retains
  | powerUp => exact retains_of_exec h rfl s.powerUp_retains
  | powerLoss cut => exact hpowered rfl (s.powerLoss_retains cut)
  | platformReset b => exact hpowered rfl (s.resetLineSet_retains b)
  | startUp =>
    refine retains_of_exec h rfl ?_
    split
    · exact s.beginStartUp_retains
    · exact .refl s
  | paceTick low => exact hpowered rfl (s.paceTick_retains low)
  | decayStep => exact hpowered rfl s.decayStep_retains
  | storedDebtRefresh => exact hpowered rfl s.storedDebtRefresh_retains
  | periodTimerExpiry => exact hpowered rfl s.periodExpiry_retains
  | censusRunEnd a b r bounded jitter => exact hpowered rfl (s.censusEnd_retains a b r bounded jitter)
  | hashPieceEnd stores answered =>
    exact hpowered rfl ((s.hashPieceEnd_retains stores answered).trans (.of_still (State.startUpGoesOn_still _)))
  | curveOperationComplete => exact hpowered rfl s.curveComplete_retains
  | storeWriteEnd first second => exact hpowered rfl (s.storeWriteEnd_retains first second)
  | extentDmaEnd u stores r => exact hpowered rfl (s.extentDmaEnd_retains u stores r)
  | closeChain => exact retains_of_exec h rfl (s.beginMeasure_retains _ State.closeChain_retains)
  | quote => exact retains_of_exec h rfl (s.beginMeasure_retains _ State.quote_retains)
  | factoryRoot =>
    exact retains_of_exec h rfl (.of_still (State.beginLife_still _ _ _ s fun c t => State.factory_still _ _ c t State.factoryRoot_still))
  | factoryPairing =>
    exact retains_of_exec h rfl
      (.of_still (State.beginLife_still _ _ _ s fun c t => State.factory_still _ _ c t State.factoryPairing_still))
  | _ => exact retains_of_exec h rfl (.of_still (by simp))

/-- Settles O5: every row keeps both, and a step that finds no command changes nothing. -/
theorem stepsKeepTheMemoryFormAndTheStore : Obligations.StepsKeepTheMemoryFormAndTheStore := by
  have hstep {s t : State} (h : step s = .next t) : s.Retains t := by
    unfold step at h
    split at h
    · cases h
      exact .refl s
    · exact (exec_retains h).after rfl rfl
  exact ⟨fun s t hs h => (hstep h).memory hs, fun s t hs h => (hstep h).store hs⟩

end Sys2Proof.Machine
end

