-- ==== Sys2Proof/Proofs/ResetAndLink.lean ====
section
/-! SUPPORT. The blocks in reset, and the loss and return of the link: O2 and O20 (R91, R162, R163, R167, R168, R184, R186). -/
namespace Sys2Proof.Machine

/-! ### Power-up, reset and loss of supply -/

/-- R167's table, from the fields that a reset of every block sets. -/
theorem State.cleared_blocksReset (s : State) : s.cleared.BlocksReset where
  area := ⟨rfl, rfl⟩
  interrupts := ⟨rfl, rfl, rfl⟩
  fetching := ⟨rfl, rfl, rfl⟩
  queues := ⟨rfl, rfl⟩
  attention := rfl
  custody := ⟨rfl, rfl, rfl, rfl⟩
  measure := ⟨rfl, rfl, rfl⟩
  serving := ⟨rfl, rfl⟩
  update := ⟨rfl, rfl, rfl⟩
  updateWipe := ⟨rfl, rfl⟩
  credential := ⟨rfl, rfl, rfl⟩
  lifecycle := ⟨rfl, rfl, rfl⟩
  arrivals := ⟨rfl, rfl⟩
  answers := ⟨rfl, rfl⟩
  hash := ⟨rfl, rfl, fun c => by cases c <;> rfl⟩
  curve := ⟨rfl, rfl, fun c => by cases c <;> rfl⟩
  census := ⟨rfl, rfl, rfl, rfl⟩
  counts := ⟨rfl, rfl, rfl⟩
  pace := ⟨rfl, rfl, rfl⟩
  unsent := ⟨rfl, rfl⟩

/-- The store, the supply and the reset line are no part of R167's table. -/
theorem State.BlocksReset.withStore {s : State} (h : s.BlocksReset) (store : Store) (powered resetLine : Bool) :
    ({ s with store := store, powered := powered, resetLine := resetLine } : State).BlocksReset := { h with }

theorem Store.cut_idle {st : Store} (cut : WriteCut) (h : st.queue = []) :
    st.cut cut = { st with waiting := [], startUpFault := false } := by
  unfold Store.cut Store.withoutQueue
  rw [h]

theorem Store.cut_writing {st : Store} {r : WriteRequest} {rest : List WriteRequest} (cut : WriteCut) (h : st.queue = r :: rest) :
    st.cut cut = { st.tear r.write cut with queue := [], waiting := [], startUpFault := false } := by
  unfold Store.cut
  rw [h]
  rfl

/-- Settles O2: each of the four leaves every block in its reset state; they differ in the store, the supply and the reset line. -/
theorem powerUpAndResetLeaveEveryBlockReset : Obligations.PowerUpAndResetLeaveEveryBlockReset := by
  refine ⟨State.cleared_blocksReset State.reset, fun s hp => ?up, fun s hp hr => ?reset, fun s hp => ?release, fun cut s hp => ?loss⟩
  case up =>
    have hexec : exec .powerUp s = .next { s.cleared with store := s.store.withoutQueue, powered := true } :=
      congrArg Host.Outcome.next (if_neg (by simp [hp]))
    exact ⟨_, hexec, s.cleared_blocksReset.withStore _ _ _, rfl, rfl, rfl, fun _ => rfl⟩
  case reset =>
    have hexec : exec (.platformReset true) s = .next { s.cleared with store := s.store.orphaned, resetLine := true } :=
      congrArg Host.Outcome.next ((State.whenPowered_on _ hp).trans ((if_pos rfl).trans (if_neg (by simp [hr]))))
    exact ⟨_, hexec, s.cleared_blocksReset.withStore _ _ _, rfl, rfl, rfl, rfl, fun _ => rfl⟩
  case release => exact congrArg Host.Outcome.next (State.whenPowered_on _ hp)
  case loss =>
    exact ⟨s.powerLoss cut, congrArg Host.Outcome.next (State.whenPowered_on _ hp), s.cleared_blocksReset.withStore _ _ _, rfl,
      rfl, rfl, Store.cut_idle cut, fun r rest => Store.cut_writing cut, fun _ => rfl⟩

/-! ### The link -/

/-- A card that leaves its buffer restarts no idle timer: no session is OPEN, or it is no feed (R79, R178). -/
theorem State.freeBuffer_plain {s : State} {c : Card} (h : (∀ x, s.update.session ≠ .opened x)
    ∨ ∀ b ∈ s.exch.buffers, b.card.take = c.take → b.card.code ≠ feedCode) :
    s.freeBuffer c = { s with exch := { s.exch with buffers := s.exch.buffers.filter fun b => !b.holds c } } := by
  unfold State.freeBuffer
  dsimp only
  split
  · next hleaves =>
    obtain hsession | hfeed := h
    · unfold State.restartIdle
      split
      · next x hx => exact absurd hx (hsession x)
      all_goals rfl
    · obtain ⟨b, hb, hleave⟩ := List.any_eq_true.mp hleaves
      simp only [Bool.and_eq_true, beq_iff_eq, Buffer.holds] at hleave
      obtain ⟨⟨htake, -⟩, hcode⟩ := hleave
      exact absurd hcode (hfeed b hb htake)
  · rfl

/-- Cards that leave their buffers one after another. -/
theorem State.foldl_freeBuffer (l : List Card) {s : State} (h : (∀ x, s.update.session ≠ .opened x)
    ∨ ∀ b ∈ s.exch.buffers, ∀ c ∈ l, b.card.take = c.take → b.card.code ≠ feedCode) :
    l.foldl (fun s c => s.freeBuffer c) s =
      { s with exch := { s.exch with buffers := s.exch.buffers.filter fun b => !(l.any fun c => c.take == b.card.take) } } := by
  induction l generalizing s with
  | nil => simp
  | cons c l ih =>
    have hc := State.freeBuffer_plain (h.imp id fun h b hb => h b hb c List.mem_cons_self)
    have hl := ih (s := s.freeBuffer c) (by
      rw [hc]
      exact h.imp id fun h b hb d hd => h b (List.mem_filter.mp hb).1 d (List.mem_cons_of_mem c hd))
    rw [List.foldl_cons, hl, hc]
    have hfilter : (s.exch.buffers.filter fun b => !b.holds c).filter (fun b => !(l.any fun d => d.take == b.card.take))
        = s.exch.buffers.filter fun b => !((c :: l).any fun d => d.take == b.card.take) := by
      rw [List.filter_filter]
      refine List.filter_congr fun b _ => ?_
      rw [List.any_cons, Bool.not_or, Bool.and_comm, Buffer.holds, BEq.comm]
    rw [← hfilter]

/-- The loss of the link faults an active area: no message goes out and nothing is written, and the settle list is discarded with its
buffers (R168, R184). -/
theorem State.enterFaulted_linkLost {s : State} (ha : s.exch.area.isActive = true) (hl : s.linkUp = false)
    (h : (∀ x, s.update.session ≠ .opened x) ∨ ∀ b ∈ s.exch.buffers, ∀ x ∈ s.exch.settleList,
      b.card.take = x.card.take → b.card.code ≠ feedCode) :
    s.enterFaulted .linkLost 0 false = { s with exch := s.exch.faultedWith 4#16 0#8 } := by
  have hleave : (∀ x, s.update.session ≠ .opened x) ∨ ∀ b ∈ s.exch.buffers, ∀ c ∈ s.exch.settleList.map (·.card),
      b.card.take = c.take → b.card.code ≠ feedCode :=
    h.imp id fun h b hb c hc => by
      obtain ⟨x, hx, rfl⟩ := List.mem_map.mp hc
      exact h b hb x hx
  rw [State.enterFaulted_active _ _ _ ha, State.foldl_freeBuffer _ (s := s.faultRecorded .linkLost 0 false) hleave]
  unfold State.faultRecorded Exchange.faultedWith Exchange.kept
  simp only [hl, List.any_map]
  rfl

theorem State.enterFaulted_inactive {s : State} (f : FaultCode) (n : Nat) (b : Bool) (h : s.exch.area.isActive = false) :
    s.enterFaulted f n b = s := if_neg (by simp [h])

theorem State.linkLoss_faults {s : State} (hl : s.linkUp = true) :
    s.linkLoss = ({ s.cutAccesses s.needsHost with linkUp := false } : State).enterFaulted .linkLost 0 false := if_pos hl

/-! ### The accesses that a loss or a return marks (R91, R168, R186) -/

theorem State.dmaPending_custody {s : State} {w : Work CustodyStage} (hw : s.custody.work = some w) :
    s.dmaPending .custody = true ↔ w.stage = .readBlob ∨ ∃ b d r, w.stage = .writeOut b d r := by
  cases hs : w.stage <;> simp [State.dmaPending, hw, hs]

theorem State.dmaPending_measure {s : State} {w : Work MeasureStage} (hw : s.measure.work = some w) :
    s.dmaPending .measure = true ↔ s.measure.paused = none ∧ ∃ b d r, w.stage = .writeOut b d r := by
  cases hs : w.stage <;> simp [State.dmaPending, hw, hs]

theorem State.dmaPending_update {s : State} {w : Work UpdateStage} (hw : s.update.work = some w) :
    s.dmaPending .update = true ↔ ∃ b d r, w.stage = .writeOut b d r := by
  cases hs : w.stage <;> simp [State.dmaPending, hw, hs]

theorem State.dmaPending_lifecycle {s : State} {w : Work LifeStage} (hw : s.lifecycle.work = some w) :
    s.dmaPending .lifecycle = true ↔ w.stage = .readCertificate ∨ ∃ b d r, w.stage = .writeOut b d r := by
  cases hs : w.stage <;> simp [State.dmaPending, hw, hs]

theorem State.needsHost_custody {s : State} {w : Work CustodyStage} (hw : s.custody.work = some w) :
    s.needsHost .custody = true ↔ s.dmaPending .custody = true ∨ w.stage = .mac := by
  simp [State.needsHost, hw]

theorem State.needsHost_update {s : State} {w : Work UpdateStage} (hw : s.update.work = some w) :
    s.needsHost .update = true ↔ s.dmaPending .update = true ∨ w.stage = .feed := by
  simp [State.needsHost, hw]

theorem State.needsHost_measure (s : State) : s.needsHost .measure = s.dmaPending .measure := Bool.or_false _

theorem State.needsHost_lifecycle (s : State) : s.needsHost .lifecycle = s.dmaPending .lifecycle := Bool.or_false _

/-- The piece in progress reads extents of a client's card (R140). -/
def State.readsFor (s : State) (c : HashClient) : Prop :=
  ∃ run, s.hash.running = some run ∧ run.client = c ∧ run.job.source.isExtents = true

theorem State.accessMade_custody (s : State) : s.accessMade .custody = true ↔ s.dmaPending .custody = true ∨ s.readsFor .custody := by
  unfold State.accessMade State.readsFor
  cases s.hash.running <;> simp [and_comm]

theorem State.accessMade_update (s : State) : s.accessMade .update = true ↔ s.dmaPending .update = true ∨ s.readsFor .update := by
  unfold State.accessMade State.readsFor
  cases s.hash.running <;> simp [and_comm]

theorem State.accessMade_measure (s : State) : s.accessMade .measure = s.dmaPending .measure := by
  unfold State.accessMade
  cases s.hash.running <;> simp

theorem State.accessMade_lifecycle (s : State) : s.accessMade .lifecycle = s.dmaPending .lifecycle := by
  unfold State.accessMade
  cases s.hash.running <;> simp

/-- Settles O20: the loss cuts the accesses and faults an active area; which accesses are cut is read off each unit's stage. -/
theorem linkLossAndReturn : Obligations.LinkLossAndReturn := by
  refine ⟨fun s hp hl ha hfeed => ?faults, fun s hp hl ha => ?stays, fun s hp hl => ?returns, fun s hl => ?down, fun s hl => ?up,
    fun s => ⟨fun w hw => ?custody, fun w hw => ?measure, fun w hw => ?update, fun w hw => ?lifecycle, fun w hw => ?custodyMade,
      fun w hw => ?measureMade, fun w hw => ?updateMade, fun w hw => ?lifecycleMade, fun named => rfl⟩⟩
  case faults =>
    refine congrArg Host.Outcome.next ((State.whenPowered_on _ hp).trans ((State.linkLoss_faults hl).trans ?_))
    exact State.enterFaulted_linkLost ha rfl hfeed
  case stays =>
    have hinactive : s.exch.area.isActive = false := by obtain ha | ha := ha <;> rw [ha] <;> rfl
    refine congrArg Host.Outcome.next ((State.whenPowered_on _ hp).trans ((State.linkLoss_faults hl).trans ?_))
    exact State.enterFaulted_inactive _ _ _ hinactive
  case returns => exact congrArg Host.Outcome.next ((State.whenPowered_on _ hp).trans (if_neg (by simp [hl])))
  case down =>
    have hloss : s.linkLoss = s := if_neg (by simp [hl])
    refine congrArg Host.Outcome.next ?_
    unfold State.whenPowered
    rw [hloss, ite_self]
  case up =>
    have hreturn : s.linkReturn = s := if_pos hl
    refine congrArg Host.Outcome.next ?_
    unfold State.whenPowered
    rw [hreturn, ite_self]
  case custody => rw [State.needsHost_custody hw, State.dmaPending_custody hw, or_right_comm, or_assoc]
  case measure => rw [State.needsHost_measure, State.dmaPending_measure hw]
  case update => rw [State.needsHost_update hw, State.dmaPending_update hw, or_comm]
  case lifecycle => rw [State.needsHost_lifecycle, State.dmaPending_lifecycle hw]
  case custodyMade =>
    rw [State.accessMade_custody, State.dmaPending_custody hw, or_assoc]
    rfl
  case measureMade => rw [State.accessMade_measure, State.dmaPending_measure hw]
  case updateMade =>
    rw [State.accessMade_update, State.dmaPending_update hw]
    rfl
  case lifecycleMade => rw [State.accessMade_lifecycle, State.dmaPending_lifecycle hw]

end Sys2Proof.Machine
end

