-- ==== Sys2Proof/Proofs/Buffers.lean ====
section
/-! SUPPORT. The buffers of the exchange area, kept by every step: O7 (R174, R178). -/
namespace Sys2Proof.Machine

/-- The invariant of the buffers, of what it speaks of: the buffers, the fetcher's candidate and the count of takes. -/
def buffersSound (bs : List Buffer) (candidate : Option (Nat × Word16 × Word16)) (takes : Nat) : Prop :=
  bs.length ≤ 24 ∧ (candidate.isSome = true → bs.length < 24) ∧ (bs.map (·.card.take)).Nodup ∧ ∀ b ∈ bs, b.card.take < takes

section
variable {bs : List Buffer} {candidate : Option (Nat × Word16 × Word16)} {takes : Nat} {s : State}

theorem buffersSound_filter (p : Buffer → Bool) (h : buffersSound bs candidate takes) : buffersSound (bs.filter p) candidate takes := by
  obtain ⟨hlength, hroom, hnodup, hold⟩ := h
  have hle : (bs.filter p).length ≤ bs.length := List.length_filter_le _ _
  exact ⟨hle.trans hlength, fun hc => hle.trans_lt (hroom hc), hnodup.sublist (List.filter_sublist.map _),
    fun b hb => hold b (List.mem_filter.mp hb).1⟩

theorem buffersSound_map {f : Buffer → Buffer} (hf : ∀ b, (f b).card = b.card) :
    buffersSound (bs.map f) candidate takes ↔ buffersSound bs candidate takes := by
  simp [buffersSound, hf, Function.comp_def]

theorem buffersSound_noCandidate (h : buffersSound bs candidate takes) : buffersSound bs none takes :=
  ⟨h.1, fun hc => absurd hc (by simp), h.2.2⟩

@[simp] theorem State.buffersOk_mk (exch : Exchange) (custody : Custody) (measure : Measure) (update : Update) (credential : Credential)
    (lifecycle : Lifecycle) (hash : HashEngine) (curve : CurveEngine) (census : Census) (pace : Pace) (store : Store) (startUp : StartUp)
    (outboxes : Outboxes) (waiting : List Client) (powered linkUp resetLine ownerLineLow : Bool) (host : List Host.Cell)
    (messages free : Nat) (pending : List Instr) :
    (State.mk exch custody measure update credential lifecycle hash curve census pace store startUp outboxes waiting powered linkUp
      resetLine ownerLineLow host messages free pending).buffersOk ↔ buffersSound exch.buffers exch.candidate exch.takes := ⟨id, id⟩

@[simp] theorem buffersSound_fields : buffersSound s.exch.buffers s.exch.candidate s.exch.takes ↔ s.buffersOk := ⟨id, id⟩

theorem foldl_buffersOk {α : Type} {f : State → α → State} (hf : ∀ x (t : State), t.buffersOk → (f t x).buffersOk) (xs : List α) {s : State}
    (h : s.buffersOk) : (xs.foldl f s).buffersOk := by
  induction xs generalizing s with
  | nil => exact h
  | cons x xs ih => exact ih (hf x s h)

/-! ### The operations every unit uses -/

@[simp] theorem State.afterDraw_buffersOk (n : Nat) : (s.afterDraw n).buffersOk ↔ s.buffersOk := ⟨id, id⟩

@[simp] theorem State.setSlot_buffersOk (i : Fin 48) (r : Option KeyRecord) : (s.setSlot i r).buffersOk ↔ s.buffersOk := ⟨id, id⟩

@[simp] theorem State.setKind_buffersOk (k : Fin 8) (r : KindRecord) : (s.setKind k r).buffersOk ↔ s.buffersOk := ⟨id, id⟩

@[simp] theorem State.setMark_buffersOk (i : Fin 3) (tick : Word32) : (s.setMark i tick).buffersOk ↔ s.buffersOk := ⟨id, id⟩

@[simp] theorem State.setCred_buffersOk (i : Fin 32) (e : Option CredEntry) : (s.setCred i e).buffersOk ↔ s.buffersOk := ⟨id, id⟩

@[simp] theorem State.whenPowered_buffersOk (next : State → State) (hbody : ∀ (t : State), t.buffersOk → (next t).buffersOk)
    (h : s.buffersOk) : (s.whenPowered next).buffersOk := by
  unfold State.whenPowered
  (repeat' split) <;> simp [h, hbody]

@[simp] theorem State.afterFill_buffersOk (b : List OutByte) : (s.afterFill b).buffersOk ↔ s.buffersOk := ⟨id, id⟩

@[simp] theorem State.afterDetail_buffersOk (d : Option Word32) : (s.afterDetail d).buffersOk ↔ s.buffersOk := by
  unfold State.afterDetail
  (repeat' split) <;> simp

@[simp] theorem State.sendMessage_buffersOk : s.sendMessage.buffersOk ↔ s.buffersOk := by
  unfold State.sendMessage
  (repeat' split) <;> simp

@[simp] theorem State.ask_buffersOk (a : Attention) : (s.ask a).buffersOk ↔ s.buffersOk := by
  unfold State.ask
  (repeat' split) <;> simp

@[simp] theorem State.askStoreFault_buffersOk : s.askStoreFault.buffersOk ↔ s.buffersOk := by
  unfold State.askStoreFault
  (repeat' split) <;> simp

@[simp] theorem State.restartIdle_buffersOk : s.restartIdle.buffersOk ↔ s.buffersOk := by
  unfold State.restartIdle
  (repeat' split) <;> simp

@[simp] theorem State.freeBuffer_buffersOk (c : Card) (h : s.buffersOk) : (s.freeBuffer c).buffersOk := by
  have hfree := buffersSound_filter (fun b => !b.holds c) h
  unfold State.freeBuffer
  dsimp only
  split
  · exact State.restartIdle_buffersOk.mpr hfree
  · exact hfree

@[simp] theorem State.closeArea_buffersOk : s.closeArea.buffersOk ↔ s.buffersOk := ⟨id, id⟩

@[simp] theorem State.handBack_buffersOk (c : Card) (o : CardOutcome) (d : Option Word32) (b : List OutByte) (h : s.buffersOk) :
    (s.handBack c o d b).buffersOk := by
  unfold State.handBack
  dsimp only
  repeat' split
  · exact State.freeBuffer_buffersOk c h
  · exact State.freeBuffer_buffersOk c h
  · exact (buffersSound_map fun x => by split <;> rfl).mpr ((State.afterDetail_buffersOk d).mpr h)

@[simp] theorem State.beginCard_buffersOk (c : Card) : (s.beginCard c).buffersOk ↔ s.buffersOk :=
  buffersSound_map fun x => by split <;> rfl

@[simp] theorem State.hashSubmit_buffersOk (client : HashClient) (j : HashJob) : (s.hashSubmit client j).buffersOk ↔ s.buffersOk := ⟨id, id⟩

@[simp] theorem State.hashWithdraw_buffersOk (client : HashClient) : (s.hashWithdraw client).buffersOk ↔ s.buffersOk := ⟨id, id⟩

@[simp] theorem State.curveSubmit_buffersOk (client : CurveClient) (op : CurveOp) :
    (s.curveSubmit client op).buffersOk ↔ s.buffersOk := ⟨id, id⟩

@[simp] theorem State.curveWithdraw_buffersOk (client : CurveClient) : (s.curveWithdraw client).buffersOk ↔ s.buffersOk := ⟨id, id⟩

@[simp] theorem State.setOutbox_buffersOk (client : Client) (out : List Out) : (s.setOutbox client out).buffersOk ↔ s.buffersOk := ⟨id, id⟩

@[simp] theorem State.push_buffersOk (client : Client) (out : List Out) : (s.push client out).buffersOk ↔ s.buffersOk := ⟨id, id⟩

@[simp] theorem State.commitCard_buffersOk (a : WriteTo) : (s.commitCard a).buffersOk ↔ s.buffersOk := by
  unfold State.commitCard
  (repeat' split) <;> simp

@[simp] theorem State.dropRefresh_buffersOk (i : Fin 32) : (s.dropRefresh i).buffersOk ↔ s.buffersOk := ⟨id, id⟩

@[simp] theorem State.enqueue_buffersOk (w : Write) (a : WriteTo) : (s.enqueue w a).buffersOk ↔ s.buffersOk := by
  unfold State.enqueue
  dsimp only
  split <;> simp

@[simp] theorem State.openPresence_buffersOk : s.openPresence.buffersOk ↔ s.buffersOk := by
  unfold State.openPresence
  (repeat' split) <;> simp

@[simp] theorem State.closePresence_buffersOk : s.closePresence.buffersOk ↔ s.buffersOk := ⟨id, id⟩

@[simp] theorem State.endPresence_buffersOk : s.endPresence.buffersOk ↔ s.buffersOk := by
  unfold State.endPresence
  (repeat' split) <;> simp

@[simp] theorem State.sendWipeOrders_buffersOk : s.sendWipeOrders.buffersOk ↔ s.buffersOk := ⟨id, id⟩

@[simp] theorem State.leaveChecked_buffersOk : s.leaveChecked.buffersOk ↔ s.buffersOk := ⟨id, id⟩

@[simp] theorem State.dropSession_buffersOk : s.dropSession.buffersOk ↔ s.buffersOk := by
  unfold State.dropSession
  (repeat' split) <;> simp

@[simp] theorem State.serveUpdateWipe_buffersOk : s.serveUpdateWipe.buffersOk ↔ s.buffersOk := by
  have hkinds (ks : List (Fin 8)) (t : State) : (ks.foldl (fun s k => s.setKind k (s.kindRecord k).withoutTrial) t).exch = t.exch := by
    induction ks generalizing t with
    | nil => rfl
    | cons k ks ih => exact ih _
  unfold State.serveUpdateWipe
  dsimp only
  (repeat' split) <;> simp [hkinds]

@[simp] theorem State.answerUpdateWipe_buffersOk (count : WipeCount) : (s.answerUpdateWipe count).buffersOk ↔ s.buffersOk := ⟨id, id⟩

@[simp] theorem State.updateWipeSent_buffersOk : s.updateWipeSent.buffersOk ↔ s.buffersOk := by
  unfold State.updateWipeSent
  (repeat' split) <;> simp

@[simp] theorem State.updateRelease_buffersOk (o : CardOutcome) (d : Option Word32) (b : List OutByte) (h : s.buffersOk) :
    (s.updateRelease o d b).buffersOk := by
  unfold State.updateRelease
  (repeat' split) <;> simp [h]

@[simp] theorem State.credHandBack_buffersOk (o : CardOutcome) (d : Option Word32) (b : List OutByte) (h : s.buffersOk) :
    (s.credHandBack o d b).buffersOk := by
  unfold State.credHandBack
  (repeat' split) <;> simp [h]

@[simp] theorem State.claimAnswered_buffersOk (h : s.buffersOk) : s.claimAnswered.buffersOk := by
  unfold State.claimAnswered
  (repeat' split) <;> simp [h]

@[simp] theorem State.perform_buffersOk (a : After) (h : s.buffersOk) : (s.perform a).buffersOk := by
  unfold State.perform
  dsimp only
  (repeat' split) <;> simp [h]

@[simp] theorem State.joinList_buffersOk (r : MeasureRequest) : (s.joinList r).buffersOk ↔ s.buffersOk := ⟨id, id⟩

@[simp] theorem State.sendAll_buffersOk (client : Client) (n : Nat) (h : s.buffersOk) : (s.sendAll client n).buffersOk := by
  induction n generalizing s with
  | zero => exact h
  | succ n ih =>
    unfold State.sendAll
    (repeat' split) <;> simp [ih, h]

@[simp] theorem State.sendLane_buffersOk (client : Client) (h : s.buffersOk) : (s.sendLane client).buffersOk := by
  unfold State.sendLane
  dsimp only
  (repeat' split) <;> simp [h]

@[simp] theorem State.send_buffersOk (client : Client) (out : List Out) (h : s.buffersOk) : (s.send client out).buffersOk := by
  unfold State.send
  (repeat' split) <;> simp [h]

@[simp] theorem State.serveHeldWipe_buffersOk (h : s.buffersOk) : s.serveHeldWipe.buffersOk := by
  unfold State.serveHeldWipe
  (repeat' split) <;> simp [h]

@[simp] theorem State.updateHandBack_buffersOk (o : CardOutcome) (d : Option Word32) (b : List OutByte) (h : s.buffersOk) :
    (s.updateHandBack o d b).buffersOk := by
  simp [State.updateHandBack, h]

@[simp] theorem State.pumpStore_buffersOk (n : Nat) (h : s.buffersOk) : (s.pumpStore n).buffersOk := by
  induction n generalizing s with
  | zero => exact h
  | succ n ih =>
    unfold State.pumpStore
    (repeat' split) <;> simp [ih, h]

@[simp] theorem State.joinFirst_buffersOk (client : Client) (h : s.buffersOk) : (s.joinFirst client).buffersOk := by
  unfold State.joinFirst
  (repeat' split) <;> simp [h]

@[simp] theorem State.pumpMeasure_buffersOk (n : Nat) (h : s.buffersOk) : (s.pumpMeasure n).buffersOk := by
  induction n generalizing s with
  | zero => exact h
  | succ n ih =>
    unfold State.pumpMeasure
    (repeat' split) <;> simp [ih, h]

@[simp] theorem State.withdrawWrite_buffersOk (client : Client) (a : WriteTo) : (s.withdrawWrite client a).buffersOk ↔ s.buffersOk := by
  unfold State.withdrawWrite
  dsimp only
  (repeat' split) <;> simp

@[simp] theorem State.giveUpRequest_buffersOk (who : Option Checker) : (s.giveUpRequest who).buffersOk ↔ s.buffersOk := ⟨id, id⟩

@[simp] theorem State.joinWaiters_buffersOk (waiter : Waiter) : (s.joinWaiters waiter).buffersOk ↔ s.buffersOk := ⟨id, id⟩

@[simp] theorem State.leaveWaiters_buffersOk (waiter : Waiter) : (s.leaveWaiters waiter).buffersOk ↔ s.buffersOk := ⟨id, id⟩

@[simp] theorem State.sendCheck_buffersOk (client : Client) (asker : Checker) (binding : Binding) (h : s.buffersOk) :
    (s.sendCheck client asker binding).buffersOk := by
  simp [State.sendCheck, h]

/-! ### The update unit -/

@[simp] theorem State.beginUpdate_buffersOk (code : Word16) (stage : UpdateStage) (body : Card → State → State)
    (hbody : ∀ x (t : State), t.buffersOk → (body x t).buffersOk) (h : s.buffersOk) : (s.beginUpdate code stage body).buffersOk := by
  unfold State.beginUpdate
  (repeat' split) <;> simp [h, hbody]

@[simp] theorem State.updateStage_buffersOk (stage : UpdateStage) : (s.updateStage stage).buffersOk ↔ s.buffersOk := ⟨id, id⟩

@[simp] theorem State.updateCommit_buffersOk : s.updateCommit.buffersOk ↔ s.buffersOk := ⟨id, id⟩

@[simp] theorem State.updateBad_buffersOk (n : Nat) (h : s.buffersOk) : (s.updateBad n).buffersOk := by
  simp [State.updateBad, h]

@[simp] theorem State.updateRefuse_buffersOk (o : CardOutcome) (h : s.buffersOk) : (s.updateRefuse o).buffersOk := by
  simp [State.updateRefuse, h]

@[simp] theorem State.updateWrite_buffersOk (w : Write) (stage : UpdateStage) (h : s.buffersOk) : (s.updateWrite w stage).buffersOk := by
  simp [State.updateWrite, h]

@[simp] theorem State.askCustody_buffersOk (r : CustodyRequest) : (s.askCustody r).buffersOk ↔ s.buffersOk := ⟨id, id⟩

@[simp] theorem State.verifySigned_buffersOk (pub : PublicKey) (bytes : List Byte) :
    (s.verifySigned pub bytes).buffersOk ↔ s.buffersOk := ⟨id, id⟩

@[simp] theorem State.anchorInstallDelegate_buffersOk (c : Card) (h : s.buffersOk) : (s.anchorInstallDelegate c).buffersOk := by
  unfold State.anchorInstallDelegate
  dsimp only
  (repeat' split) <;> simp [h]

@[simp] theorem State.anchorInstallOwner_buffersOk (c : Card) (h : s.buffersOk) : (s.anchorInstallOwner c).buffersOk := by
  unfold State.anchorInstallOwner
  (repeat' split) <;> simp [h]

@[simp] theorem State.anchorInstall_buffersOk (c : Card) (h : s.buffersOk) : (s.anchorInstall c).buffersOk := by
  unfold State.anchorInstall
  (repeat' split) <;> simp [h]

@[simp] theorem State.anchorRemoveDelegate_buffersOk (c : Card) (h : s.buffersOk) : (s.anchorRemoveDelegate c).buffersOk := by
  unfold State.anchorRemoveDelegate
  dsimp only
  (repeat' split) <;> simp [h]

@[simp] theorem State.anchorRemoveOwner_buffersOk (h : s.buffersOk) : s.anchorRemoveOwner.buffersOk := by
  unfold State.anchorRemoveOwner
  (repeat' split) <;> simp [h]

@[simp] theorem State.anchorRemove_buffersOk (c : Card) (h : s.buffersOk) : (s.anchorRemove c).buffersOk := by
  unfold State.anchorRemove
  (repeat' split) <;> simp [h]

@[simp] theorem State.delegateVerified_buffersOk (c : Card) (h : s.buffersOk) : (s.delegateVerified c).buffersOk := by
  unfold State.delegateVerified
  dsimp only
  (repeat' split) <;> simp [h]

@[simp] theorem State.delegateRemoval_buffersOk (c : Card) : (s.delegateRemoval c).buffersOk ↔ s.buffersOk := ⟨id, id⟩

@[simp] theorem State.removalVerified_buffersOk (c : Card) (h : s.buffersOk) : (s.removalVerified c).buffersOk := by
  unfold State.removalVerified
  dsimp only
  (repeat' split) <;> simp [h]

@[simp] theorem State.updateOpen_buffersOk (c : Card) (h : s.buffersOk) : (s.updateOpen c).buffersOk := by
  unfold State.updateOpen
  dsimp only
  (repeat' split) <;> simp [h]

@[simp] theorem State.manifestVerified_buffersOk (c : Card) (h : s.buffersOk) : (s.manifestVerified c).buffersOk := by
  unfold State.manifestVerified
  dsimp only
  (repeat' split) <;> simp [h]

@[simp] theorem State.updateFeed_buffersOk (c : Card) (h : s.buffersOk) : (s.updateFeed c).buffersOk := by
  unfold State.updateFeed
  (repeat' split) <;> simp [h]

@[simp] theorem State.feedPiece_buffersOk (n : Nat) (bytes : List Byte) (h : s.buffersOk) : (s.feedPiece n bytes).buffersOk := by
  unfold State.feedPiece
  (repeat' split) <;> simp [h]

@[simp] theorem State.feedMore_buffersOk (h : s.buffersOk) : s.feedMore.buffersOk := by
  unfold State.feedMore
  (repeat' split) <;> simp [h]

@[simp] theorem State.feedEnd_buffersOk (v : Digest) (h : s.buffersOk) : (s.feedEnd v).buffersOk := by
  unfold State.feedEnd
  (repeat' split) <;> simp [h]

@[simp] theorem State.feedFault_buffersOk (h : s.buffersOk) : s.feedFault.buffersOk := by
  unfold State.feedFault
  (repeat' split) <;> simp [h]

@[simp] theorem State.updateCancel_buffersOk (c : Card) (h : s.buffersOk) : (s.updateCancel c).buffersOk := by
  unfold State.updateCancel
  (repeat' split) <;> simp [h]

@[simp] theorem State.updateCommitCard_buffersOk (c : Card) (h : s.buffersOk) : (s.updateCommitCard c).buffersOk := by
  unfold State.updateCommitCard
  (repeat' split) <;> simp [h]

@[simp] theorem State.commitDone_buffersOk (k : Fin 8) (r : KindRecord) (h : s.buffersOk) : (s.commitDone k r).buffersOk := by
  simp [State.commitDone, h]

@[simp] theorem State.updateConfirm_buffersOk (c : Card) (h : s.buffersOk) : (s.updateConfirm c).buffersOk := by
  unfold State.updateConfirm
  (repeat' split) <;> simp [h]

@[simp] theorem State.confirmExpect_buffersOk (c : Card) (v : Digest) (h : s.buffersOk) : (s.confirmExpect c v).buffersOk := by
  simp [State.confirmExpect, h]

@[simp] theorem State.confirmChain_buffersOk (c : Card) (v v2 : Digest) (h : s.buffersOk) : (s.confirmChain c v v2).buffersOk := by
  unfold State.confirmChain
  dsimp only
  (repeat' split) <;> simp [h]

@[simp] theorem State.confirmDone_buffersOk (k : Fin 8) (r : KindRecord) (n : Nat) (x : SignerClass) (ok : Bool) (h : s.buffersOk) :
    (s.confirmDone k r n x ok).buffersOk := by
  simp [State.confirmDone, h]

@[simp] theorem State.updateRevert_buffersOk (c : Card) (h : s.buffersOk) : (s.updateRevert c).buffersOk := by
  unfold State.updateRevert
  dsimp only
  (repeat' split) <;> simp [h]

@[simp] theorem State.bootAdvice_buffersOk (c : Card) (h : s.buffersOk) : (s.bootAdvice c).buffersOk := by
  unfold State.bootAdvice
  (repeat' split) <;> simp [h]

@[simp] theorem State.updateHashEnd_buffersOk (v : Digest) (h : s.buffersOk) : (s.updateHashEnd v).buffersOk := by
  unfold State.updateHashEnd
  cases s.update.work with
  | none => exact h
  | some w =>
    cases hstage : w.stage <;> simp only [hstage]
    case verifyHash pub => exact (State.curveSubmit_buffersOk _ _).mpr ((State.updateStage_buffersOk _).mpr h)
    all_goals simp [h]

@[simp] theorem State.updateHashContinued_buffersOk (h : s.buffersOk) : s.updateHashContinued.buffersOk := by
  unfold State.updateHashContinued
  (repeat' split) <;> simp [h]

@[simp] theorem State.updateHashPiece_buffersOk (n : Nat) (bytes : List Byte) (h : s.buffersOk) :
    (s.updateHashPiece n bytes).buffersOk := by
  unfold State.updateHashPiece
  (repeat' split) <;> simp [h]

@[simp] theorem State.updateHashFault_buffersOk (n : Nat) (h : s.buffersOk) : (s.updateHashFault n).buffersOk := by
  unfold State.updateHashFault
  (repeat' split) <;> simp [h]

@[simp] theorem State.updateHashWithdrawn_buffersOk (h : s.buffersOk) : s.updateHashWithdrawn.buffersOk := by
  unfold State.updateHashWithdrawn
  (repeat' split) <;> simp [h]

@[simp] theorem State.updateCurveEnd_buffersOk (ok : Bool) (h : s.buffersOk) : (s.updateCurveEnd ok).buffersOk := by
  unfold State.updateCurveEnd
  (repeat' split) <;> simp [h]

@[simp] theorem State.updateChainAnswer_buffersOk (v : Digest) (h : s.buffersOk) : (s.updateChainAnswer v).buffersOk := by
  unfold State.updateChainAnswer
  (repeat' split) <;> simp [h]

@[simp] theorem State.updateCustodyAnswer_buffersOk (ok : Bool) (h : s.buffersOk) : (s.updateCustodyAnswer ok).buffersOk := by
  unfold State.updateCustodyAnswer
  (repeat' split) <;> simp [h]

@[simp] theorem State.guardExpiry_buffersOk (h : s.buffersOk) : s.guardExpiry.buffersOk := by
  unfold State.guardExpiry
  (repeat' split) <;> simp [h]

@[simp] theorem State.updateWriteEnd_buffersOk (w : Write) (ok : Bool) (h : s.buffersOk) : (s.updateWriteEnd w ok).buffersOk := by
  unfold State.updateWriteEnd
  (repeat' split) <;> simp [h]

@[simp] theorem State.updateWipeEnd_buffersOk (ok : Bool) (h : s.buffersOk) : (s.updateWipeEnd ok).buffersOk := by
  unfold State.updateWipeEnd
  dsimp only
  (repeat' split) <;> simp [h]

@[simp] theorem State.updateWipeOrder_buffersOk (h : s.buffersOk) : s.updateWipeOrder.buffersOk := by
  unfold State.updateWipeOrder
  (repeat' split) <;> simp [h]

@[simp] theorem State.idleExpiry_buffersOk (h : s.buffersOk) : s.idleExpiry.buffersOk := by
  unfold State.idleExpiry
  (repeat' split) <;> simp [h]

@[simp] theorem State.updateAbandon_buffersOk (h : s.buffersOk) : s.updateAbandon.buffersOk := by
  unfold State.updateAbandon
  (repeat' split) <;> simp [h]

/-! ### The lifecycle unit -/

@[simp] theorem State.beginLife_buffersOk (code : Word16) (stage : LifeStage) (body : Card → State → State)
    (hbody : ∀ x (t : State), t.buffersOk → (body x t).buffersOk) (h : s.buffersOk) : (s.beginLife code stage body).buffersOk := by
  unfold State.beginLife
  (repeat' split) <;> simp [h, hbody]

@[simp] theorem State.lifeStage_buffersOk (stage : LifeStage) : (s.lifeStage stage).buffersOk ↔ s.buffersOk := ⟨id, id⟩

@[simp] theorem State.lifeCommit_buffersOk : s.lifeCommit.buffersOk ↔ s.buffersOk := ⟨id, id⟩

@[simp] theorem State.lifeHandBack_buffersOk (o : CardOutcome) (d : Option Word32) (b : List OutByte) (h : s.buffersOk) :
    (s.lifeHandBack o d b).buffersOk := by
  unfold State.lifeHandBack
  (repeat' split) <;> simp [h]

@[simp] theorem State.lifeBad_buffersOk (n : Nat) (h : s.buffersOk) : (s.lifeBad n).buffersOk := by
  simp [State.lifeBad, h]

@[simp] theorem State.lifeRefuse_buffersOk (o : CardOutcome) (h : s.buffersOk) : (s.lifeRefuse o).buffersOk := by
  simp [State.lifeRefuse, h]

@[simp] theorem State.factory_buffersOk (form : Card → Option Nat) (body : Card → State → State) (c : Card)
    (hbody : ∀ x (t : State), t.buffersOk → (body x t).buffersOk) (h : s.buffersOk) : (s.factory form body c).buffersOk := by
  unfold State.factory
  (repeat' split) <;> simp [h, hbody]

@[simp] theorem State.identityDraw_buffersOk : s.identityDraw.buffersOk ↔ s.buffersOk := ⟨id, id⟩

@[simp] theorem State.factoryIdentity_buffersOk (h : s.buffersOk) : s.factoryIdentity.buffersOk := by
  unfold State.factoryIdentity
  (repeat' split) <;> simp [h]

@[simp] theorem State.identityGenerated_buffersOk (k : Scalar) (pub : PublicKey) :
    (s.identityGenerated k pub).buffersOk ↔ s.buffersOk := ⟨id, id⟩

@[simp] theorem State.factoryRoot_buffersOk (c : Card) : (s.factoryRoot c).buffersOk ↔ s.buffersOk := ⟨id, id⟩

@[simp] theorem State.factoryPairing_buffersOk (c : Card) : (s.factoryPairing c).buffersOk ↔ s.buffersOk := ⟨id, id⟩

@[simp] theorem State.factoryFinish_buffersOk (h : s.buffersOk) : s.factoryFinish.buffersOk := by
  unfold State.factoryFinish
  (repeat' split) <;> simp [h]

@[simp] theorem State.takeRelease_buffersOk (h : s.buffersOk) : s.takeRelease.buffersOk := by
  unfold State.takeRelease
  simp [h]

@[simp] theorem State.ownershipRelease_buffersOk (c : Card) (h : s.buffersOk) : (s.ownershipRelease c).buffersOk := by
  unfold State.ownershipRelease
  (repeat' split) <;> simp [h]

@[simp] theorem State.settleRelease_buffersOk (o : CardOutcome) (d : Option Word32) (h : s.buffersOk) :
    (s.settleRelease o d).buffersOk := by
  unfold State.settleRelease
  (repeat' split) <;> simp [h]

@[simp] theorem State.markerEnd_buffersOk (ok : Bool) (h : s.buffersOk) : (s.markerEnd ok).buffersOk := by
  unfold State.markerEnd
  dsimp only
  (repeat' split) <;> simp [h]

@[simp] theorem State.closingEnd_buffersOk (ok : Bool) (h : s.buffersOk) : (s.closingEnd ok).buffersOk := by
  unfold State.closingEnd
  (repeat' split) <;> simp [h]

@[simp] theorem State.answersComplete_buffersOk (counts : WipeCounts) (h : s.buffersOk) : (s.answersComplete counts).buffersOk := by
  unfold State.answersComplete
  (repeat' split) <;> simp [h]

@[simp] theorem State.wipeAnswer_buffersOk (unit : WipeUnit) (h : s.buffersOk) : (s.wipeAnswer unit).buffersOk := by
  unfold State.wipeAnswer
  dsimp only
  (repeat' split) <;> simp [h]

@[simp] theorem State.sessionLeftChecked_buffersOk (h : s.buffersOk) : s.sessionLeftChecked.buffersOk := by
  unfold State.sessionLeftChecked
  dsimp only
  (repeat' split) <;> simp [h]

@[simp] theorem State.afterWithdrawDetail_buffersOk : s.afterWithdrawDetail.buffersOk ↔ s.buffersOk := ⟨id, id⟩

@[simp] theorem State.ownerWithdraw_buffersOk (c : Card) (h : s.buffersOk) : (s.ownerWithdraw c).buffersOk := by
  unfold State.ownerWithdraw
  (repeat' split) <;> simp [h]

@[simp] theorem State.censusFailedReport_buffersOk (h : s.buffersOk) : s.censusFailedReport.buffersOk := by
  unfold State.censusFailedReport
  (repeat' split) <;> simp [h]

@[simp] theorem State.presenceExpiry_buffersOk (h : s.buffersOk) : s.presenceExpiry.buffersOk := by
  unfold State.presenceExpiry
  (repeat' split) <;> simp [h]

@[simp] theorem State.ownerReleaseHold_buffersOk (h : s.buffersOk) : s.ownerReleaseHold.buffersOk := by
  unfold State.ownerReleaseHold
  dsimp only
  (repeat' split) <;> simp [h]

@[simp] theorem State.sampleLine_buffersOk (ok : Bool) : (s.sampleLine ok).buffersOk ↔ s.buffersOk := ⟨id, id⟩

@[simp] theorem State.lifecycleDescribe_buffersOk (c : Card) (h : s.buffersOk) : (s.lifecycleDescribe c).buffersOk := by
  unfold State.lifecycleDescribe
  (repeat' split) <;> simp [h]

@[simp] theorem State.identityDescribe_buffersOk (c : Card) (h : s.buffersOk) : (s.identityDescribe c).buffersOk := by
  unfold State.identityDescribe
  dsimp only
  (repeat' split) <;> simp [h]

@[simp] theorem State.lifeGate_buffersOk (ok : Bool) (h : s.buffersOk) : (s.lifeGate ok).buffersOk := by
  unfold State.lifeGate
  (repeat' split) <;> simp [h]

@[simp] theorem State.lifeCurveEnd_buffersOk (k : Scalar) (pub : PublicKey) (h : s.buffersOk) : (s.lifeCurveEnd k pub).buffersOk := by
  unfold State.lifeCurveEnd
  (repeat' split) <;> simp [h]

@[simp] theorem State.lifeInstallAnswer_buffersOk (ok : Bool) (h : s.buffersOk) : (s.lifeInstallAnswer ok).buffersOk := by
  unfold State.lifeInstallAnswer
  (repeat' split) <;> simp [h]

@[simp] theorem State.lifePairingAnswer_buffersOk (o : CardOutcome) (b : List OutByte) (h : s.buffersOk) :
    (s.lifePairingAnswer o b).buffersOk := by
  unfold State.lifePairingAnswer
  (repeat' split) <;> simp [h]

@[simp] theorem State.lifeWriteEnd_buffersOk (ok : Bool) (h : s.buffersOk) : (s.lifeWriteEnd ok).buffersOk := by
  unfold State.lifeWriteEnd
  (repeat' split) <;> simp [h]

@[simp] theorem State.lifeAbandon_buffersOk (h : s.buffersOk) : s.lifeAbandon.buffersOk := by
  unfold State.lifeAbandon
  (repeat' split) <;> simp [h]

/-! ### The custody unit -/

@[simp] theorem State.beginCustody_buffersOk (code : Word16) (body : Card → State → State)
    (hbody : ∀ x (t : State), t.buffersOk → (body x t).buffersOk) (h : s.buffersOk) : (s.beginCustody code body).buffersOk := by
  unfold State.beginCustody
  (repeat' split) <;> simp [h, hbody]

@[simp] theorem State.custodyStage_buffersOk (stage : CustodyStage) : (s.custodyStage stage).buffersOk ↔ s.buffersOk := ⟨id, id⟩

@[simp] theorem State.custodyCommit_buffersOk : s.custodyCommit.buffersOk ↔ s.buffersOk := ⟨id, id⟩

@[simp] theorem State.custodyHandBack_buffersOk (o : CardOutcome) (d : Option Word32) (b : List OutByte) (h : s.buffersOk) :
    (s.custodyHandBack o d b).buffersOk := by
  unfold State.custodyHandBack
  (repeat' split) <;> simp [h]

@[simp] theorem State.takeBackUse_buffersOk : s.takeBackUse.buffersOk ↔ s.buffersOk := ⟨id, id⟩

@[simp] theorem State.custodyGiveUp_buffersOk (h : s.buffersOk) : s.custodyGiveUp.buffersOk := by
  simp [State.custodyGiveUp, h]

@[simp] theorem State.custodyBad_buffersOk (n : Nat) (h : s.buffersOk) : (s.custodyBad n).buffersOk := by
  simp [State.custodyBad, h]

@[simp] theorem State.custodyRefuse_buffersOk (o : CardOutcome) (h : s.buffersOk) : (s.custodyRefuse o).buffersOk := by
  simp [State.custodyRefuse, h]

@[simp] theorem State.custodyRefuseSlot_buffersOk (o : CardOutcome) (i : Fin 48) (h : s.buffersOk) :
    (s.custodyRefuseSlot o i).buffersOk := by
  simp [State.custodyRefuseSlot, h]

@[simp] theorem State.custodyPlace_buffersOk (i : Fin 48) (r : Option KeyRecord) (d d2 : Option Word32) (b : List OutByte)
    (h : s.buffersOk) : (s.custodyPlace i r d d2 b).buffersOk := by
  unfold State.custodyPlace
  (repeat' split) <;> simp [h]

@[simp] theorem State.custodyThen_buffersOk (next : CustodyThen) (h : s.buffersOk) : (s.custodyThen next).buffersOk := by
  unfold State.custodyThen
  (repeat' split) <;> simp [h]

@[simp] theorem State.custodyCommitCounted_buffersOk (i : Fin 48) (h : s.buffersOk) : (s.custodyCommitCounted i).buffersOk := by
  unfold State.custodyCommitCounted
  (repeat' split) <;> simp [h]

@[simp] theorem State.completeUse_buffersOk (i : Fin 48) (d : Option Word32) (next : CustodyThen) (h : s.buffersOk) :
    (s.completeUse i d next).buffersOk := by
  unfold State.completeUse
  (repeat' split) <;> simp [h]

@[simp] theorem State.useCheck_buffersOk (use : KeyUse) (i : Fin 48) (next : State → State)
    (hbody : ∀ (t : State), t.buffersOk → (next t).buffersOk) (h : s.buffersOk) : (s.useCheck use i next).buffersOk := by
  unfold State.useCheck
  (repeat' split) <;> simp [h, hbody]

@[simp] theorem State.custodyGate_buffersOk (next : State → State) (hbody : ∀ (t : State), t.buffersOk → (next t).buffersOk)
    (h : s.buffersOk) : (s.custodyGate next).buffersOk := by
  unfold State.custodyGate
  (repeat' split) <;> simp [h, hbody]

@[simp] theorem State.generated_buffersOk (c : Card) (m : KeyMaterial) (b : List OutByte) (h : s.buffersOk) :
    (s.generated c m b).buffersOk := by
  simp [State.generated, h]

@[simp] theorem State.generateAfterGate_buffersOk (c : Card) (h : s.buffersOk) : (s.generateAfterGate c).buffersOk := by
  unfold State.generateAfterGate
  (repeat' split) <;> simp [h]

@[simp] theorem State.creationChecks_buffersOk (fields : CreateFields) (n : Nat) (next : State → State)
    (hbody : ∀ (t : State), t.buffersOk → (next t).buffersOk) (h : s.buffersOk) : (s.creationChecks fields n next).buffersOk := by
  unfold State.creationChecks
  (repeat' split) <;> simp [h, hbody]

@[simp] theorem State.keyGenerate_buffersOk (c : Card) (h : s.buffersOk) : (s.keyGenerate c).buffersOk := by
  unfold State.keyGenerate
  split
  · simp [h]
  · exact State.creationChecks_buffersOk _ _ _ (fun _ => State.custodyGate_buffersOk _ fun _ => State.generateAfterGate_buffersOk c) h

@[simp] theorem State.importRead_buffersOk (c : Card) (h : s.buffersOk) : (s.importRead c).buffersOk := by
  unfold State.importRead
  (repeat' split) <;> simp [h]

@[simp] theorem State.keyImport_buffersOk (c : Card) (h : s.buffersOk) : (s.keyImport c).buffersOk := by
  unfold State.keyImport
  split
  · simp [h]
  · refine State.creationChecks_buffersOk _ _ _ (fun t ht => ?_) h
    split
    · simp [ht]
    · exact State.useCheck_buffersOk _ _ _ (fun _ => State.importRead_buffersOk c) ht

@[simp] theorem State.importBlob_buffersOk (c : Card) (bytes : List Byte) (h : s.buffersOk) : (s.importBlob c bytes).buffersOk := by
  unfold State.importBlob
  (repeat' split) <;> simp [h]

@[simp] theorem State.signStart_buffersOk (c : Card) : (s.signStart c).buffersOk ↔ s.buffersOk := ⟨id, id⟩

@[simp] theorem State.keySign_buffersOk (c : Card) (h : s.buffersOk) : (s.keySign c).buffersOk := by
  unfold State.keySign
  (repeat' split) <;> simp [h]

@[simp] theorem State.macStart_buffersOk (c : Card) : (s.macStart c).buffersOk ↔ s.buffersOk := ⟨id, id⟩

@[simp] theorem State.keyMac_buffersOk (c : Card) (h : s.buffersOk) : (s.keyMac c).buffersOk := by
  unfold State.keyMac
  (repeat' split) <;> simp [h]

@[simp] theorem State.wrapSeal_buffersOk (c : Card) (h : s.buffersOk) : (s.wrapSeal c).buffersOk := by
  simp [State.wrapSeal, h]

@[simp] theorem State.wrapSource_buffersOk (c : Card) (h : s.buffersOk) : (s.wrapSource c).buffersOk := by
  unfold State.wrapSource
  (repeat' split) <;> simp +contextual [h]

@[simp] theorem State.wrapWrapping_buffersOk (c : Card) (h : s.buffersOk) : (s.wrapWrapping c).buffersOk :=
  State.useCheck_buffersOk _ _ _ (fun _ => State.wrapSource_buffersOk c) h

@[simp] theorem State.keyWrapOut_buffersOk (c : Card) (h : s.buffersOk) : (s.keyWrapOut c).buffersOk := by
  unfold State.keyWrapOut
  (repeat' split) <;> simp +contextual [h]

@[simp] theorem State.drawAfterGate_buffersOk (c : Card) (h : s.buffersOk) : (s.drawAfterGate c).buffersOk := by
  simp [State.drawAfterGate, h]

@[simp] theorem State.drawRandom_buffersOk (c : Card) (h : s.buffersOk) : (s.drawRandom c).buffersOk := by
  unfold State.drawRandom
  (repeat' split) <;> simp +contextual [h]

@[simp] theorem State.keySetAttributes_buffersOk (c : Card) (h : s.buffersOk) : (s.keySetAttributes c).buffersOk := by
  unfold State.keySetAttributes
  dsimp only
  (repeat' split) <;> simp [h]

@[simp] theorem State.keyFinalize_buffersOk (c : Card) (h : s.buffersOk) : (s.keyFinalize c).buffersOk := by
  unfold State.keyFinalize
  (repeat' split) <;> simp [h]

@[simp] theorem State.keyErase_buffersOk (c : Card) (h : s.buffersOk) : (s.keyErase c).buffersOk := by
  unfold State.keyErase
  (repeat' split) <;> simp [h]

@[simp] theorem State.keyDescribe_buffersOk (c : Card) (h : s.buffersOk) : (s.keyDescribe c).buffersOk := by
  unfold State.keyDescribe
  (repeat' split) <;> simp [h]

@[simp] theorem State.custodyGateAnswer_buffersOk (ok : Bool) (h : s.buffersOk) : (s.custodyGateAnswer ok).buffersOk := by
  unfold State.custodyGateAnswer
  (repeat' split) <;> simp [h]

@[simp] theorem State.custodyBindingAnswer_buffersOk (ok : Bool) (h : s.buffersOk) : (s.custodyBindingAnswer ok).buffersOk := by
  unfold State.custodyBindingAnswer
  (repeat' split) <;> simp [h]

@[simp] theorem State.custodySigned_buffersOk (sig : Signature) (h : s.buffersOk) : (s.custodySigned sig).buffersOk := by
  unfold State.custodySigned
  (repeat' split) <;> simp [h]

@[simp] theorem State.custodyKeyPair_buffersOk (k : Scalar) (pub : PublicKey) (h : s.buffersOk) : (s.custodyKeyPair k pub).buffersOk := by
  unfold State.custodyKeyPair
  (repeat' split) <;> simp [h]

@[simp] theorem State.custodyHashEnd_buffersOk (v : Digest) (h : s.buffersOk) : (s.custodyHashEnd v).buffersOk := by
  unfold State.custodyHashEnd
  (repeat' split) <;> simp [h]

@[simp] theorem State.custodyHashFault_buffersOk (n : Nat) (h : s.buffersOk) : (s.custodyHashFault n).buffersOk := by
  unfold State.custodyHashFault
  (repeat' split) <;> simp [h]

@[simp] theorem State.custodyHashWithdrawn_buffersOk (h : s.buffersOk) : s.custodyHashWithdrawn.buffersOk := by
  unfold State.custodyHashWithdrawn
  (repeat' split) <;> simp [h]

@[simp] theorem State.custodyWriteEnd_buffersOk (ok : Bool) (h : s.buffersOk) : (s.custodyWriteEnd ok).buffersOk := by
  unfold State.custodyWriteEnd
  (repeat' split) <;> simp [h]

@[simp] theorem State.installationRequest_buffersOk (h : s.buffersOk) : s.installationRequest.buffersOk := by
  unfold State.installationRequest
  (repeat' split) <;> simp [h]

@[simp] theorem State.removalRequest_buffersOk (h : s.buffersOk) : s.removalRequest.buffersOk := by
  unfold State.removalRequest
  (repeat' split) <;> simp [h]

@[simp] theorem State.eraseSlots_buffersOk (places : List (Fin 32)) : (s.eraseSlots places).buffersOk ↔ s.buffersOk := by
  unfold State.eraseSlots
  induction places generalizing s with
  | nil => rfl
  | cons i places ih => exact ih.trans (State.setSlot_buffersOk _ none)

@[simp] theorem State.answerCustodyWipe_buffersOk (tally : WipeTally) : (s.answerCustodyWipe tally).buffersOk ↔ s.buffersOk := ⟨id, id⟩

@[simp] theorem State.custodyWipeOrder_buffersOk (h : s.buffersOk) : s.custodyWipeOrder.buffersOk := by
  unfold State.custodyWipeOrder
  dsimp only
  (repeat' split) <;> simp [h]

@[simp] theorem State.custodyRequestEnd_buffersOk (ok : Bool) (h : s.buffersOk) : (s.custodyRequestEnd ok).buffersOk := by
  unfold State.custodyRequestEnd
  (repeat' split) <;> simp [h]

@[simp] theorem State.custodyWipeEnd_buffersOk (ok : Bool) (h : s.buffersOk) : (s.custodyWipeEnd ok).buffersOk := by
  unfold State.custodyWipeEnd
  (repeat' split) <;> simp [h]

@[simp] theorem State.custodyAbandon_buffersOk (h : s.buffersOk) : s.custodyAbandon.buffersOk := by
  unfold State.custodyAbandon
  (repeat' split) <;> simp [h]

/-! ### The credential unit -/

@[simp] theorem State.beginCred_buffersOk (code : Word16) (body : Card → State → State)
    (hbody : ∀ x (t : State), t.buffersOk → (body x t).buffersOk) (h : s.buffersOk) : (s.beginCred code body).buffersOk := by
  unfold State.beginCred
  (repeat' split) <;> simp [h, hbody]

@[simp] theorem State.credStage_buffersOk (stage : CredStage) : (s.credStage stage).buffersOk ↔ s.buffersOk := ⟨id, id⟩

@[simp] theorem State.credCommit_buffersOk : s.credCommit.buffersOk ↔ s.buffersOk := ⟨id, id⟩

@[simp] theorem State.credBad_buffersOk (n : Nat) (h : s.buffersOk) : (s.credBad n).buffersOk := by
  simp [State.credBad, h]

@[simp] theorem State.credRefuse_buffersOk (o : CardOutcome) (h : s.buffersOk) : (s.credRefuse o).buffersOk := by
  simp [State.credRefuse, h]

@[simp] theorem State.credWrite_buffersOk (i : Fin 32) (r : Option CredRecord) (a : WriteTo) (stage : CredStage) (h : s.buffersOk) :
    (s.credWrite i r a stage).buffersOk := by
  simp [State.credWrite, h]

@[simp] theorem State.onRecord_buffersOk (c : Card) (body : CredEntry → State → State)
    (hbody : ∀ x (t : State), t.buffersOk → (body x t).buffersOk) (h : s.buffersOk) : (s.onRecord c body).buffersOk := by
  unfold State.onRecord
  (repeat' split) <;> simp [h, hbody]

@[simp] theorem State.startAttempt_buffersOk (c : Card) (i : Fin 32) (e : CredEntry) (salt : Option Salt) :
    (s.startAttempt c i e salt).buffersOk ↔ s.buffersOk := ⟨id, id⟩

@[simp] theorem State.attempt_buffersOk (c : Card) (i : Fin 32) (salt : Option Salt) (h : s.buffersOk) :
    (s.attempt c i salt).buffersOk := by
  unfold State.attempt
  (repeat' split) <;> simp [h]

@[simp] theorem State.replaceDraw_buffersOk (c : Card) (e : CredEntry) (attempt : Option (Nat × Word32)) :
    (s.replaceDraw c e attempt).buffersOk ↔ s.buffersOk := ⟨id, id⟩

@[simp] theorem State.compared_buffersOk (c : Card) (i : Fin 32) (n : Nat) (tick : Word32) (salt : Option Salt) (v : Digest)
    (h : s.buffersOk) : (s.compared c i n tick salt v).buffersOk := by
  unfold State.compared
  dsimp only
  (repeat' split) <;> simp [h]

@[simp] theorem State.claimHash_buffersOk (c : Card) (salt : Salt) (n : Nat) : (s.claimHash c salt n).buffersOk ↔ s.buffersOk := ⟨id, id⟩

@[simp] theorem State.attemptWritten_buffersOk (c : Card) (i : Fin 32) (r : CredRecord) (ok : Bool) (salt : Option Salt) (ok2 : Bool)
    (h : s.buffersOk) : (s.attemptWritten c i r ok salt ok2).buffersOk := by
  unfold State.attemptWritten
  (repeat' split) <;> simp [h]

@[simp] theorem State.credVerify_buffersOk (c : Card) (h : s.buffersOk) : (s.credVerify c).buffersOk := by
  unfold State.credVerify
  (repeat' split) <;> simp +contextual [h]

@[simp] theorem State.enrolAfterGate_buffersOk (c : Card) (h : s.buffersOk) : (s.enrolAfterGate c).buffersOk := by
  unfold State.enrolAfterGate
  dsimp only
  (repeat' split) <;> simp [h]

@[simp] theorem State.credGate_buffersOk (next : State → State) (hbody : ∀ (t : State), t.buffersOk → (next t).buffersOk)
    (h : s.buffersOk) : (s.credGate next).buffersOk := by
  unfold State.credGate
  (repeat' split) <;> simp [h, hbody]

@[simp] theorem State.credEnroll_buffersOk (c : Card) (h : s.buffersOk) : (s.credEnroll c).buffersOk := by
  unfold State.credEnroll
  dsimp only
  (repeat' split) <;> simp +contextual [h]

@[simp] theorem State.enrolHashed_buffersOk (c : Card) (salt : Salt) (secret : Option SealedSecret) (v : Digest) (h : s.buffersOk) :
    (s.enrolHashed c salt secret v).buffersOk := by
  unfold State.enrolHashed
  (repeat' split) <;> simp [h]

@[simp] theorem State.claimHashed_buffersOk (c : Card) (salt : Salt) (n : Nat) (v : Digest) (h : s.buffersOk) :
    (s.claimHashed c salt n v).buffersOk := by
  unfold State.claimHashed
  (repeat' split) <;> simp [h]

@[simp] theorem State.releaseSecret_buffersOk (e : CredEntry) (h : s.buffersOk) : (s.releaseSecret e).buffersOk := by
  simp [State.releaseSecret, h]

@[simp] theorem State.credRelease_buffersOk (c : Card) (h : s.buffersOk) : (s.credRelease c).buffersOk := by
  unfold State.credRelease
  split
  · simp [h]
  · refine State.onRecord_buffersOk _ _ (fun e t ht => ?_) h
    (repeat' split) <;> simp [ht]

@[simp] theorem State.replaceAfterGate_buffersOk (c : Card) (h : s.buffersOk) : (s.replaceAfterGate c).buffersOk := by
  unfold State.replaceAfterGate
  (repeat' split) <;> simp [h]

@[simp] theorem State.credReplace_buffersOk (c : Card) (h : s.buffersOk) : (s.credReplace c).buffersOk := by
  unfold State.credReplace
  split
  · simp [h]
  · refine State.onRecord_buffersOk _ _ (fun e t ht => ?_) h
    split
    · simp [ht]
    · exact State.credGate_buffersOk _ (fun _ => State.replaceAfterGate_buffersOk c) ht

@[simp] theorem State.replaceHashed_buffersOk (i : Fin 32) (salt : Salt) (secret : Option SealedSecret)
    (attempt : Option (Nat × Word32)) (v : Digest) (h : s.buffersOk) : (s.replaceHashed i salt secret attempt v).buffersOk := by
  unfold State.replaceHashed
  (repeat' split) <;> simp [h]

@[simp] theorem State.credRemove_buffersOk (c : Card) (h : s.buffersOk) : (s.credRemove c).buffersOk := by
  unfold State.credRemove
  split
  · simp [h]
  · refine State.onRecord_buffersOk _ _ (fun e t ht => ?_) h
    (repeat' split) <;> simp [ht]

@[simp] theorem State.credDescribe_buffersOk (c : Card) (h : s.buffersOk) : (s.credDescribe c).buffersOk := by
  unfold State.credDescribe
  (repeat' split) <;> simp [h]

@[simp] theorem State.decayAll_buffersOk : s.decayAll.buffersOk ↔ s.buffersOk := by
  unfold State.decayAll
  (repeat' split) <;> simp

@[simp] theorem State.emptyPlaces_buffersOk (places : List (Fin 32)) : (s.emptyPlaces places).buffersOk ↔ s.buffersOk := by
  unfold State.emptyPlaces
  induction places generalizing s with
  | nil => rfl
  | cons i places ih => exact ih.trans (State.setCred_buffersOk i none)

@[simp] theorem State.answerCredWipe_buffersOk (tally : WipeTally) : (s.answerCredWipe tally).buffersOk ↔ s.buffersOk := ⟨id, id⟩

@[simp] theorem State.credentialWipeOrder_buffersOk (h : s.buffersOk) : s.credentialWipeOrder.buffersOk := by
  unfold State.credentialWipeOrder
  dsimp only
  (repeat' split) <;> simp [h]

@[simp] theorem State.credWipeEnd_buffersOk (ok : Bool) (h : s.buffersOk) : (s.credWipeEnd ok).buffersOk := by
  unfold State.credWipeEnd
  (repeat' split) <;> simp [h]

@[simp] theorem State.credService_buffersOk (x : Option CredService) : (s.credService x).buffersOk ↔ s.buffersOk := ⟨id, id⟩

@[simp] theorem State.pairingDraw_buffersOk (bytes bytes2 : List Byte) (policy : Policy) :
    (s.pairingDraw bytes bytes2 policy).buffersOk ↔ s.buffersOk := ⟨id, id⟩

@[simp] theorem State.pairingRequest_buffersOk (h : s.buffersOk) : s.pairingRequest.buffersOk := by
  unfold State.pairingRequest
  dsimp only
  (repeat' split) <;> simp [h]

@[simp] theorem State.pairingHashed_buffersOk (salt : Salt) (bytes : List Byte) (policy : Policy) (v : Digest) (h : s.buffersOk) :
    (s.pairingHashed salt bytes policy v).buffersOk := by
  simp [State.pairingHashed, h]

@[simp] theorem State.pairingEnd_buffersOk (ok : Bool) (h : s.buffersOk) : (s.pairingEnd ok).buffersOk := by
  unfold State.pairingEnd
  (repeat' split) <;> simp [h]

@[simp] theorem State.credGateAnswer_buffersOk (ok : Bool) (h : s.buffersOk) : (s.credGateAnswer ok).buffersOk := by
  unfold State.credGateAnswer
  (repeat' split) <;> simp [h]

@[simp] theorem State.credBindingAnswer_buffersOk (ok : Bool) (h : s.buffersOk) : (s.credBindingAnswer ok).buffersOk := by
  unfold State.credBindingAnswer
  (repeat' split) <;> simp [h]

@[simp] theorem State.credHashEnd_buffersOk (v : Digest) (h : s.buffersOk) : (s.credHashEnd v).buffersOk := by
  unfold State.credHashEnd
  (repeat' split) <;> simp [h]

@[simp] theorem State.credHashWithdrawn_buffersOk (h : s.buffersOk) : s.credHashWithdrawn.buffersOk := by
  unfold State.credHashWithdrawn
  (repeat' split) <;> simp [h]

@[simp] theorem State.credWriteEnd_buffersOk (w : Write) (ok : Bool) (h : s.buffersOk) : (s.credWriteEnd w ok).buffersOk := by
  unfold State.credWriteEnd
  (repeat' split) <;> simp [h]

@[simp] theorem State.refreshEnd_buffersOk (w : Write) (ok : Bool) (h : s.buffersOk) : (s.refreshEnd w ok).buffersOk := by
  unfold State.refreshEnd
  (repeat' split) <;> simp [h]

@[simp] theorem State.credWriteOver_buffersOk (w : Write) (h : s.buffersOk) : (s.credWriteOver w).buffersOk := by
  unfold State.credWriteOver
  (repeat' split) <;> simp [h]

@[simp] theorem State.resumeAttempt_buffersOk (h : s.buffersOk) : s.resumeAttempt.buffersOk := by
  unfold State.resumeAttempt
  (repeat' split) <;> simp [h]

@[simp] theorem State.presenceRequest_buffersOk (h : s.buffersOk) : s.presenceRequest.buffersOk := by
  unfold State.presenceRequest
  (repeat' split) <;> simp [h]

@[simp] theorem State.claimRequest_buffersOk (h : s.buffersOk) : s.claimRequest.buffersOk := by
  unfold State.claimRequest
  (repeat' split) <;> simp [h]

@[simp] theorem State.claimEnd_buffersOk (ok : Bool) (h : s.buffersOk) : (s.claimEnd ok).buffersOk := by
  unfold State.claimEnd
  dsimp only
  (repeat' split) <;> simp [h]

@[simp] theorem State.credAbandon_buffersOk (h : s.buffersOk) : s.credAbandon.buffersOk := by
  unfold State.credAbandon
  (repeat' split) <;> simp [h]

/-! ### The measure unit -/

@[simp] theorem State.beginMeasure_buffersOk (code : Word16) (body : Card → State → State)
    (hbody : ∀ x (t : State), t.buffersOk → (body x t).buffersOk) (h : s.buffersOk) : (s.beginMeasure code body).buffersOk := by
  unfold State.beginMeasure
  (repeat' split) <;> simp [h, hbody]

@[simp] theorem State.measureStage_buffersOk (stage : MeasureStage) : (s.measureStage stage).buffersOk ↔ s.buffersOk := ⟨id, id⟩

@[simp] theorem State.measureHandBack_buffersOk (o : CardOutcome) (d : Option Word32) (b : List OutByte) (h : s.buffersOk) :
    (s.measureHandBack o d b).buffersOk := by
  unfold State.measureHandBack
  (repeat' split) <;> simp [h]

@[simp] theorem State.measureBad_buffersOk (n : Nat) (h : s.buffersOk) : (s.measureBad n).buffersOk := by
  simp [State.measureBad, h]

@[simp] theorem State.measureRefuse_buffersOk (o : CardOutcome) (h : s.buffersOk) : (s.measureRefuse o).buffersOk := by
  simp [State.measureRefuse, h]

@[simp] theorem State.extend_buffersOk (c : Card) (h : s.buffersOk) : (s.extend c).buffersOk := by
  unfold State.extend
  (repeat' split) <;> simp [h]

@[simp] theorem State.readChains_buffersOk (c : Card) (h : s.buffersOk) : (s.readChains c).buffersOk := by
  unfold State.readChains
  (repeat' split) <;> simp [h]

@[simp] theorem State.readRecords_buffersOk (c : Card) (h : s.buffersOk) : (s.readRecords c).buffersOk := by
  unfold State.readRecords
  dsimp only
  (repeat' split) <;> simp [h]

@[simp] theorem State.quoteSigned_buffersOk (bytes : List Byte) (n : Nat) (sig : Signature) :
    (s.quoteSigned bytes n sig).buffersOk ↔ s.buffersOk := ⟨id, id⟩

@[simp] theorem State.resumeMeasure_buffersOk (h : s.buffersOk) : s.resumeMeasure.buffersOk := by
  unfold State.resumeMeasure
  (repeat' split) <;> simp [h]

@[simp] theorem State.holdWaitingJob_buffersOk : s.holdWaitingJob.buffersOk ↔ s.buffersOk := by
  unfold State.holdWaitingJob
  (repeat' split) <;> simp

@[simp] theorem State.requestsArrive_buffersOk (h : s.buffersOk) : s.requestsArrive.buffersOk := by
  simp [State.requestsArrive, h]

@[simp] theorem State.endService_buffersOk (h : s.buffersOk) : s.endService.buffersOk := by
  unfold State.endService
  simp [h]

@[simp] theorem State.answerCheck_buffersOk (asker : Checker) (ok : Bool) (h : s.buffersOk) : (s.answerCheck asker ok).buffersOk := by
  unfold State.answerCheck
  dsimp only
  (repeat' split) <;> simp (disch := simp [h])

@[simp] theorem State.measureService_buffersOk (x : MeasureService) : (s.measureService x).buffersOk ↔ s.buffersOk := ⟨id, id⟩

@[simp] theorem State.serveEvent_buffersOk (h : s.buffersOk) : s.serveEvent.buffersOk := by
  unfold State.serveEvent
  (repeat' split) <;> simp [h]

@[simp] theorem State.serveCheck_buffersOk (h : s.buffersOk) : s.serveCheck.buffersOk := by
  unfold State.serveCheck
  dsimp only
  (repeat' split) <;> simp [h]

@[simp] theorem State.serveChainRead_buffersOk (h : s.buffersOk) : s.serveChainRead.buffersOk := by
  unfold State.serveChainRead
  dsimp only
  (repeat' split) <;> simp (disch := simp [h]) [h]

@[simp] theorem State.pauseOr_buffersOk (x : MeasureResume) (next : State → State)
    (hbody : ∀ (t : State), t.buffersOk → (next t).buffersOk) (h : s.buffersOk) : (s.pauseOr x next).buffersOk := by
  unfold State.pauseOr
  (repeat' split) <;> simp [h, hbody]

@[simp] theorem State.measureHashPiece_buffersOk (j : HashJob) (h : s.buffersOk) : (s.measureHashPiece j).buffersOk := by
  unfold State.measureHashPiece
  (repeat' split) <;> simp [h]

@[simp] theorem State.measureHashWithdrawn_buffersOk (h : s.buffersOk) : s.measureHashWithdrawn.buffersOk := by
  unfold State.measureHashWithdrawn
  (repeat' split) <;> simp [h]

@[simp] theorem State.measureCurveEnd_buffersOk (sig : Signature) (h : s.buffersOk) : (s.measureCurveEnd sig).buffersOk := by
  unfold State.measureCurveEnd
  (repeat' split) <;> simp [h]

@[simp] theorem State.measureAbandon_buffersOk (h : s.buffersOk) : s.measureAbandon.buffersOk := by
  unfold State.measureAbandon
  (repeat' split) <;> simp [h]

/-! ### Start-up -/

@[simp] theorem State.startStep1_buffersOk : s.startStep1.buffersOk ↔ s.buffersOk := ⟨id, id⟩

@[simp] theorem State.startStep2_buffersOk (h : s.buffersOk) : s.startStep2.buffersOk := by
  simp [State.startStep2, h]

@[simp] theorem State.startStep3_buffersOk : s.startStep3.buffersOk ↔ s.buffersOk := ⟨id, id⟩

@[simp] theorem State.startStep4_buffersOk : s.startStep4.buffersOk ↔ s.buffersOk := ⟨id, id⟩

@[simp] theorem State.atStep_buffersOk (x : StartUp) : (s.atStep x).buffersOk ↔ s.buffersOk := ⟨id, id⟩

@[simp] theorem State.startStep8_buffersOk (h : s.buffersOk) : s.startStep8.buffersOk := by
  rw [State.startStep8_eq]
  exact h

@[simp] theorem State.startStep7_buffersOk (h : s.buffersOk) : s.startStep7.buffersOk := by
  unfold State.startStep7
  (repeat' split) <;> simp [h]

@[simp] theorem State.startStep6_buffersOk : s.startStep6.buffersOk ↔ s.buffersOk := ⟨id, id⟩

@[simp] theorem State.startUpGoesOn_buffersOk (h : s.buffersOk) : s.startUpGoesOn.buffersOk := by
  unfold State.startUpGoesOn
  (repeat' split) <;> simp [h]

/-! ### Host memory -/

@[simp] theorem State.hostStores_buffersOk (stores : HostWrites) : (s.hostStores stores).buffersOk ↔ s.buffersOk := ⟨id, id⟩

@[simp] theorem State.writePage_buffersOk (page off : Nat) (bytes : List Byte) :
    (s.writePage page off bytes).buffersOk ↔ s.buffersOk := ⟨id, id⟩

@[simp] theorem State.writeOutput_buffersOk (c : Card) (ok : Bool) (n : Nat) (bytes : List Byte) :
    (s.writeOutput c ok n bytes).buffersOk ↔ s.buffersOk := ⟨id, id⟩

/-! ### The measure unit's extensions and cards -/

@[simp] theorem State.applyExtension_buffersOk (i : Fin 12) (event : Word16) (digest value : Digest) :
    (s.applyExtension i event digest value).buffersOk ↔ s.buffersOk := by
  unfold State.applyExtension State.addRecord
  dsimp only
  (repeat' split) <;> simp

@[simp] theorem State.closeChain_buffersOk (c : Card) (h : s.buffersOk) : (s.closeChain c).buffersOk := by
  unfold State.closeChain
  (repeat' split) <;> simp [h]

@[simp] theorem State.quote_buffersOk (c : Card) (h : s.buffersOk) : (s.quote c).buffersOk := by
  unfold State.quote
  (repeat' split) <;> simp [h]

@[simp] theorem State.serviceHashEnd_buffersOk (x : MeasureService) (result : Digest) (h : s.buffersOk) :
    (s.serviceHashEnd x result).buffersOk := by
  unfold State.serviceHashEnd
  dsimp only
  (repeat' split) <;> simp [h]

@[simp] theorem State.cardHashEnd_buffersOk (w : Work MeasureStage) (result : Digest) (h : s.buffersOk) :
    (s.cardHashEnd w result).buffersOk := by
  unfold State.cardHashEnd
  dsimp only
  (repeat' split) <;> simp [h]

@[simp] theorem State.measureHashEnd_buffersOk (result : Digest) (h : s.buffersOk) : (s.measureHashEnd result).buffersOk := by
  unfold State.measureHashEnd
  (repeat' split) <;> simp [h]

/-! ### The engines, the store, the census and start-up -/

@[simp] theorem State.pieceNotice_buffersOk (client : HashClient) (n : Nat) (j : HashJob) (h : s.buffersOk) :
    (s.pieceNotice client n j).buffersOk := by
  unfold State.pieceNotice
  split <;> simp [h]

@[simp] theorem State.pieceGoesOn_buffersOk (client : HashClient) (j : HashJob) (h : s.buffersOk) :
    (s.pieceGoesOn client j).buffersOk := by
  unfold State.pieceGoesOn
  dsimp only
  split <;> simp [h]

@[simp] theorem State.hashWithdrawn_buffersOk (client : HashClient) (h : s.buffersOk) : (s.hashWithdrawn client).buffersOk := by
  unfold State.hashWithdrawn
  split <;> simp [h]

@[simp] theorem State.hashFault_buffersOk (client : HashClient) (n : Nat) (h : s.buffersOk) : (s.hashFault client n).buffersOk := by
  unfold State.hashFault
  split <;> simp [h]

@[simp] theorem State.jobEnded_buffersOk (client : HashClient) (j : HashJob) (h : s.buffersOk) : (s.jobEnded client j).buffersOk := by
  unfold State.jobEnded State.hashEnded State.hashContinued
  (repeat' split) <;> simp [h]

@[simp] theorem State.pieceEnded_buffersOk (run : HashRun) (ok : Bool) (h : s.buffersOk) : (s.pieceEnded run ok).buffersOk := by
  unfold State.pieceEnded
  dsimp only
  (repeat' split) <;> simp [h]

@[simp] theorem State.hashPieceEnd_buffersOk (stores : HostWrites) (ok : Bool) (h : s.buffersOk) :
    (s.hashPieceEnd stores ok).buffersOk := by
  unfold State.hashPieceEnd
  dsimp only
  split <;> simp [h]

@[simp] theorem State.curveEnded_buffersOk (run : CurveRun) (h : s.buffersOk) : (s.curveEnded run).buffersOk := by
  unfold State.curveEnded
  dsimp only
  (repeat' split) <;> simp [h]

@[simp] theorem State.curveComplete_buffersOk (h : s.buffersOk) : s.curveComplete.buffersOk := by
  unfold State.curveComplete
  dsimp only
  split <;> simp [h]

@[simp] theorem State.answerWaiters_buffersOk (h : s.buffersOk) : s.answerWaiters.buffersOk := by
  have hone (ok : Bool) (waiter : Waiter) (t : State) (ht : t.buffersOk) : (t.answerWaiter ok waiter).buffersOk := by
    cases waiter <;> simp [State.answerWaiter, ht]
  unfold State.answerWaiters
  split
  · exact h
  · exact foldl_buffersOk (hone true) _ h
  · exact foldl_buffersOk (hone false) _ h

@[simp] theorem State.censusEnd_buffersOk (a b r : Byte) (bounded : Bool) (jitter : List Byte) (h : s.buffersOk) :
    (s.censusEnd a b r bounded jitter).buffersOk := by
  unfold State.censusEnd State.censusFails
  dsimp only
  (repeat' split) <;> simp (disch := simp [h]) [h]

@[simp] theorem State.startStep5_buffersOk (h : s.buffersOk) : s.startStep5.buffersOk := by
  simp [State.startStep5, h]

@[simp] theorem State.beginStep4_buffersOk (h : s.buffersOk) : s.beginStep4.buffersOk := by
  unfold State.beginStep4
  dsimp only
  split <;> simp [h]

@[simp] theorem State.beginStartUp_buffersOk (h : s.buffersOk) : s.beginStartUp.buffersOk := by
  have hplaced : s.recordsPlaced.buffersOk := by
    unfold State.buffersOk
    rw [s.recordsPlaced_frame.1]
    exact h
  rw [State.beginStartUp_placed]
  split <;> simp [hplaced]

@[simp] theorem State.startRemovalEnd_buffersOk (h : s.buffersOk) : s.startRemovalEnd.buffersOk := by
  unfold State.startRemovalEnd
  (repeat' split) <;> simp [h]

@[simp] theorem State.takeBoot_buffersOk (k : Fin 8) (r : KindRecord) (h : s.buffersOk) : (s.takeBoot k r).buffersOk := by
  unfold State.takeBoot State.trialLapse
  split <;> simp [h]

@[simp] theorem State.startKindEnd_buffersOk (w : Write) (ok : Bool) (h : s.buffersOk) : (s.startKindEnd w ok).buffersOk := by
  have hwritten : (s.bootWritten w ok).buffersOk := by
    unfold State.bootWritten
    (repeat' split) <;> simp [h]
  by_cases hstep : ∃ n, s.startUp = .step4 n
  · obtain ⟨n, hn⟩ := hstep
    rw [State.startKindEnd_step4 w ok hn]
    split <;> simp [hwritten]
  · rwa [State.startKindEnd_other w ok fun n hn => hstep ⟨n, hn⟩]

@[simp] theorem State.answerWrite_buffersOk (r : WriteRequest) (ok : Bool) (h : s.buffersOk) : (s.answerWrite r ok).buffersOk := by
  unfold State.answerWrite
  split <;> simp [h]

@[simp] theorem State.leaveQueue_buffersOk (h : s.buffersOk) : s.leaveQueue.buffersOk := by
  simp [State.leaveQueue, h]

@[simp] theorem State.storeWriteEnd_buffersOk (first second : Bool) (h : s.buffersOk) : (s.storeWriteEnd first second).buffersOk := by
  unfold State.storeWriteEnd
  dsimp only
  (repeat' split) <;> simp (disch := simp [h]) [h]

@[simp] theorem State.dmaEnded_buffersOk (unit : DmaUnit) (ok : Bool) (n : Nat) (h : s.buffersOk) : (s.dmaEnded unit ok n).buffersOk := by
  cases unit with
  | custody =>
    show (s.custodyDmaEnd ok n).buffersOk
    unfold State.custodyDmaEnd
    (repeat' split) <;> simp [h]
  | measure =>
    show (s.measureDmaEnd ok n).buffersOk
    unfold State.measureDmaEnd
    (repeat' split) <;> simp [h]
  | update =>
    show (s.updateDmaEnd ok n).buffersOk
    unfold State.updateDmaEnd
    (repeat' split) <;> simp [h]
  | lifecycle =>
    show (s.lifeDmaEnd ok n).buffersOk
    unfold State.lifeDmaEnd
    (repeat' split) <;> simp [h]

@[simp] theorem State.extentDmaEnd_buffersOk (unit : DmaUnit) (stores : HostWrites) (r : DmaResult) (h : s.buffersOk) :
    (s.extentDmaEnd unit stores r).buffersOk := by
  unfold State.extentDmaEnd
  split <;> simp [h]

@[simp] theorem State.storedDebtRefresh_buffersOk (h : s.buffersOk) : s.storedDebtRefresh.buffersOk := by
  unfold State.storedDebtRefresh
  split <;> simp [h]

@[simp] theorem State.decayStep_buffersOk : s.decayStep.buffersOk ↔ s.buffersOk := by
  unfold State.decayStep
  split <;> simp

@[simp] theorem State.periodExpiry_buffersOk : s.periodExpiry.buffersOk ↔ s.buffersOk := by
  unfold State.periodExpiry
  split <;> simp

@[simp] theorem State.paceTick_buffersOk (low : Bool) (h : s.buffersOk) : (s.paceTick low).buffersOk := by
  have hdebts : s.presenceExpiry.decayStep.storedDebtRefresh.buffersOk := by simp [h]
  have htimers : s.presenceExpiry.decayStep.storedDebtRefresh.idleExpiry.guardExpiry.buffersOk := by simp [hdebts]
  have hflush : s.flushTick.buffersOk := by simp [State.flushTick, htimers]
  unfold State.paceTick
  dsimp only
  split <;> simp [hflush]

/-! ### The exchange -/

@[simp] theorem State.setEnable_buffersOk (b : Bool) : (s.setEnable b).buffersOk ↔ s.buffersOk := by
  unfold State.setEnable
  dsimp only
  split <;> simp

@[simp] theorem State.writeAck_buffersOk (v : Word32) : (s.writeAck v).buffersOk ↔ s.buffersOk := by
  unfold State.writeAck
  dsimp only
  split <;> simp

@[simp] theorem State.clearAttention_buffersOk (v : Word32) : (s.clearAttention v).buffersOk ↔ s.buffersOk := ⟨id, id⟩

@[simp] theorem State.nudge_buffersOk : s.nudge.buffersOk ↔ s.buffersOk := by
  unfold State.nudge
  (repeat' split) <;> simp

@[simp] theorem State.stopFetcher_buffersOk (h : s.buffersOk) : s.stopFetcher.buffersOk := buffersSound_noCandidate h

@[simp] theorem State.enterFaulted_buffersOk (f : FaultCode) (n : Nat) (b : Bool) (h : s.buffersOk) :
    (s.enterFaulted f n b).buffersOk := by
  cases ha : s.exch.area.isActive with
  | false => rwa [State.enterFaulted_inactive f n b ha]
  | true =>
    rw [State.enterFaulted_active f n b ha]
    exact foldl_buffersOk (fun c _ => State.freeBuffer_buffersOk c) _ (buffersSound_noCandidate h)

@[simp] theorem State.closeWhenEmpty_buffersOk : s.closeWhenEmpty.buffersOk ↔ s.buffersOk := by
  unfold State.closeWhenEmpty
  split <;> simp

@[simp] theorem State.finishOpening_buffersOk : s.finishOpening.buffersOk ↔ s.buffersOk := ⟨id, id⟩

@[simp] theorem State.openArea_buffersOk (stores : HostWrites) (answer : OpenAnswer) (h : s.buffersOk) :
    (s.openArea stores answer).buffersOk := by
  unfold State.openArea
  split
  · cases answer with
    | readAwaited => exact h
    | writeAwaited =>
      dsimp only
      split
      · exact buffersSound_noCandidate h
      · exact State.enterFaulted_buffersOk _ _ _ h
    | both =>
      dsimp only
      split
      · exact State.finishOpening_buffersOk.mpr (buffersSound_noCandidate h)
      · exact State.enterFaulted_buffersOk _ _ _ h
  · simp [State.controlIgnored, h]

@[simp] theorem State.closeCommand_buffersOk (h : s.buffersOk) : s.closeCommand.buffersOk := by
  unfold State.closeCommand State.controlIgnored
  split
  · exact State.closeWhenEmpty_buffersOk.mpr (s.stopFetcher_buffersOk h)
  all_goals (repeat' split) <;> simp [h]

@[simp] theorem State.abandonUnbegun_buffersOk (b : Buffer) (h : s.buffersOk) : (s.abandonUnbegun b).buffersOk := by
  have hback := State.handBack_buffersOk b.card .abandoned none [] h
  unfold State.abandonUnbegun
  dsimp only
  split
  · rw [State.restartIdle_buffersOk]
    exact (buffersSound_map fun x => by split <;> rfl).mpr hback
  · exact (buffersSound_map fun x => by split <;> rfl).mpr hback

@[simp] theorem State.abandonNotices_buffersOk (h : s.buffersOk) : s.abandonNotices.buffersOk := by
  have hfirst : s.custodyAbandon.measureAbandon.buffersOk := by simp [h]
  have hsecond : s.custodyAbandon.measureAbandon.updateAbandon.credAbandon.buffersOk := by simp [hfirst]
  exact State.lifeAbandon_buffersOk hsecond

@[simp] theorem State.abandonCommand_buffersOk (h : s.buffersOk) : s.abandonCommand.buffersOk := by
  have hall : s.abandonArea.buffersOk := by
    unfold State.abandonArea
    rw [State.closeWhenEmpty_buffersOk]
    exact State.abandonNotices_buffersOk (foldl_buffersOk (fun b _ => State.abandonUnbegun_buffersOk b) _ (s.stopFetcher_buffersOk h))
  unfold State.abandonCommand State.controlIgnored
  split <;> simp [h, hall]

@[simp] theorem State.writeRegister_buffersOk (o : BitVec 5) (v : Word32) (h : s.buffersOk) : (s.writeRegister o v).buffersOk := by
  unfold State.writeRegister State.writeBase State.writeControl
  (repeat' split) <;> simp [h]

theorem State.hasRoom_buffers {code : Word16} (h : s.hasRoom code = true) : s.exch.buffers.length < 24 := by
  simp only [State.hasRoom, Bool.and_eq_true, decide_eq_true_eq] at h
  exact h.1

@[simp] theorem State.noCard_buffersOk : s.noCard.buffersOk ↔ s.buffersOk := by
  unfold State.noCard
  split <;> simp

/-- A candidate is taken on only with a free buffer (R174). -/
@[simp] theorem State.candidateFound_buffersOk (n : Nat) (c : Card) (h : s.buffersOk) : (s.candidateFound n c).buffersOk := by
  unfold State.candidateFound
  split
  · exact h
  · split
    · next hroom => exact ⟨h.1, fun _ => State.hasRoom_buffers hroom, h.2.2⟩
    · exact h

@[simp] theorem State.readChain_buffersOk (h : s.buffersOk) : s.readChain.buffersOk := by
  unfold State.readChain State.wrongTicket
  dsimp only
  (repeat' split) <;> simp [h]

@[simp] theorem State.completeOpening_buffersOk (h : s.buffersOk) : s.completeOpening.buffersOk := by
  unfold State.completeOpening
  repeat' split
  · exact State.finishOpening_buffersOk.mpr (buffersSound_noCandidate h)
  all_goals simp [h]

@[simp] theorem State.readingPass_buffersOk (stores : HostWrites) (h : s.buffersOk) : (s.readingPass stores).buffersOk := by
  unfold State.readingPass
  (repeat' split) <;> simp [h]

/-- The buffers with one more, for a card of the next take. -/
theorem buffersSound_take {b : Buffer} (hb : b.card.take = takes) (h : buffersSound bs candidate takes) (hroom : bs.length < 24) :
    buffersSound (bs ++ [b]) none (takes + 1) := by
  obtain ⟨-, -, hnodup, hold⟩ := h
  refine ⟨by simpa using hroom, by simp, ?_, ?_⟩
  · rw [List.map_append, List.nodup_append]
    refine ⟨hnodup, by simp, fun x hx y hy => ?_⟩
    obtain ⟨d, hd, rfl⟩ := List.mem_map.mp hx
    obtain rfl : y = takes := by simpa [hb] using hy
    exact (hold d hd).ne
  · intro d hd
    obtain hd | hd := List.mem_append.mp hd
    · exact (hold d hd).trans (Nat.lt_succ_self _)
    · obtain rfl : d = b := by simpa using hd
      omega

/-- A take finds the buffer that its candidate was promised, and its card is the only one of its count (R174, R178). -/
@[simp] theorem State.cardTake_buffersOk (stores : HostWrites) (h : s.buffersOk) : (s.cardTake stores).buffersOk := by
  unfold State.cardTake
  split
  · split
    · next n ticket code hc =>
      have hroom : s.exch.buffers.length < 24 := h.2.1 (by simp [hc])
      unfold State.takeCard State.routeCard
      dsimp only
      repeat' split
      · exact State.handBack_buffersOk _ _ _ _ (buffersSound_take rfl h hroom)
      · exact State.handBack_buffersOk _ _ _ _ (buffersSound_take rfl h hroom)
      · exact buffersSound_take rfl h hroom
    · exact h
  · exact h

@[simp] theorem State.writeReply_buffersOk (e : Settlement) : (s.writeReply e).buffersOk ↔ s.buffersOk := by
  simp [State.writeReply]

@[simp] theorem State.writeSettled_buffersOk (e : Settlement) : (s.writeSettled e).buffersOk ↔ s.buffersOk :=
  State.writePage_buffersOk _ _ _

@[simp] theorem State.settleCard_buffersOk (h : s.buffersOk) : s.settleCard.buffersOk := by
  have hunhold (t : State) : t.unhold.buffersOk ↔ t.buffersOk := by
    unfold State.unhold
    split <;> simp
  have hclose (t : State) : t.closeIfDone.buffersOk ↔ t.buffersOk := by
    unfold State.closeIfDone
    split <;> simp
  unfold State.settleCard
  repeat' split
  · exact h
  · unfold State.tallySettle
    dsimp only
    split <;> simp [hunhold, hclose, h]
  · exact h

@[simp] theorem State.accessFails_buffersOk (x : FailedAccess) (stores : HostWrites) (b : Bool) (h : s.buffersOk) :
    (s.accessFails x stores b).buffersOk := by
  unfold State.accessFails State.openingFault State.passFault State.takeFault State.settleFault
  dsimp only
  (repeat' split) <;> simp [h]

@[simp] theorem State.linkLoss_buffersOk (h : s.buffersOk) : s.linkLoss.buffersOk := by
  unfold State.linkLoss
  split <;> simp [h]

@[simp] theorem State.linkReturn_buffersOk : s.linkReturn.buffersOk ↔ s.buffersOk := by
  unfold State.linkReturn
  split <;> simp

/-! ### Supply and reset -/

theorem buffersSound_reset : buffersSound Exchange.reset.buffers Exchange.reset.candidate Exchange.reset.takes := by
  simp [buffersSound, Exchange.reset]

@[simp] theorem State.powerUp_buffersOk (h : s.buffersOk) : s.powerUp.buffersOk := by
  unfold State.powerUp
  split
  · exact h
  · exact buffersSound_reset

@[simp] theorem State.powerLoss_buffersOk (cut : WriteCut) : (s.powerLoss cut).buffersOk := buffersSound_reset

@[simp] theorem State.resetLineSet_buffersOk (b : Bool) (h : s.buffersOk) : (s.resetLineSet b).buffersOk := by
  unfold State.resetLineSet
  repeat' split
  · exact h
  · exact buffersSound_reset
  · exact h

/-! ### Every row -/

theorem State.buffersOk_pending (rest : List Instr) : ({ s with pending := rest } : State).buffersOk ↔ s.buffersOk := ⟨id, id⟩

@[simp] theorem State.whenReachable_buffersOk (next : State → State) (hnext : ∀ t : State, t.buffersOk → (next t).buffersOk)
    (h : s.buffersOk) : 
    (s.whenReachable next).buffersOk := by
  unfold State.whenReachable
  split <;> simp [h, hnext]

end

theorem buffersOk_of_exec {c : Instr} {s t u : State} (h : exec c s = .next t) (e : exec c s = .next u) (hu : u.buffersOk) :
    t.buffersOk := by
  cases h.symm.trans e
  exact hu

/-- Every row keeps the invariant of the buffers. -/
theorem exec_buffersOk {c : Instr} {s t : State} (hs : s.buffersOk) (h : exec c s = .next t) : t.buffersOk := by
  have hpowered {next : State → State} (e : exec c s = .next (s.whenPowered next)) (hn : (next s).buffersOk) : t.buffersOk := by
    refine buffersOk_of_exec h e ?_
    unfold State.whenPowered
    split
    · exact hn
    · exact hs
  have hfactory {code : Word16} {stage : LifeStage} {form : Card → Option Nat} {body : Card → State → State}
      (e : exec c s = .next (s.beginLife code stage (State.factory form body)))
      (hb : ∀ c (t : State), t.buffersOk → (body c t).buffersOk) : t.buffersOk :=
    buffersOk_of_exec h e (State.beginLife_buffersOk _ _ _ (fun c _ => State.factory_buffersOk _ _ c hb) hs)
  cases c with
  | factoryIdentity => exact hfactory rfl fun _ _ => State.factoryIdentity_buffersOk
  | factoryFinish => exact hfactory rfl fun _ _ => State.factoryFinish_buffersOk
  | startUp =>
    refine buffersOk_of_exec h rfl ?_
    split
    · exact State.beginStartUp_buffersOk hs
    · exact hs
  | hashPieceEnd stores answered => exact hpowered rfl (by simp [hs])
  | partEvent =>
    exact hpowered rfl (State.serveEvent_buffersOk (State.startUpGoesOn_buffersOk (State.requestsArrive_buffersOk hs)))
  | wipeAnswer unit => exact hpowered rfl (by simp [hs])
  | _ => exact buffersOk_of_exec h rfl (by simp +contextual [hs])

/-- Settles O7: every row keeps the invariant, and a step that finds no command changes nothing. -/
theorem stepsKeepTheBuffers : Obligations.StepsKeepTheBuffers := by
  intro s t hs h
  unfold step at h
  split at h
  · cases h
    exact hs
  · exact exec_buffersOk ((State.buffersOk_pending _).mpr hs) h

end Sys2Proof.Machine
end

