-- ==== Sys2Proof/Proofs/RegisterWindow.lean ====
section
/-! SUPPORT. The register window: what a write does and where it reaches nothing, and what a read returns: O12 and O3 (R162, R167, R169,
R170, R172, R180, R181, R186, R189). -/
namespace Sys2Proof.Machine

/-! ### Reachability (R169, R186) -/

theorem State.reachable_linkUp {s : State} (h : s.reachable = true) : s.linkUp = true := by
  simp only [State.reachable, Bool.and_eq_true] at h
  exact h.1.2

theorem State.whenReachable_on {s : State} (next : State → State) (h : s.reachable = true) : s.whenReachable next = next s := if_pos h

theorem State.whenReachable_off {s : State} (next : State → State) (h : s.reachable = false) : s.whenReachable next = s :=
  if_neg (by simp [h])

/-- The enable that a write to AREA CONTROL carries, in the part it has reached (R180). -/
theorem State.setEnable_reached {s : State} (b : Bool) (h : s.reachable = true) : s.setEnable b = { s with
    exch := { s.exch with enable := b }, messages := s.messages + s.enableMessages b } :=
  State.setEnable_eq b (State.reachable_linkUp h)

/-! ### The base halves (R169) -/

theorem highHalf_getLsbD (i : Nat) (h : i < 64) : (0xFFFFFFFF00000000#64).getLsbD i = decide (32 ≤ i) := by
  have : ∀ j : Fin 64, (0xFFFFFFFF00000000#64).getLsbD j = decide (32 ≤ j.val) := by decide
  exact this ⟨i, h⟩

theorem lowHalf_getLsbD (i : Nat) (h : i < 64) : (0x00000000FFFFFFFF#64).getLsbD i = decide (i < 32) := by
  have : ∀ j : Fin 64, (0x00000000FFFFFFFF#64).getLsbD j = decide (j.val < 32) := by decide
  exact this ⟨i, h⟩

theorem baseWithLow_low (base : Word64) (v : Word32) : (baseWithLow base v).extractLsb' 0 32 = v &&& 0xFFFFFF00#32 := by
  refine BitVec.eq_of_getLsbD_eq fun i hi => ?_
  have hmask := highHalf_getLsbD i (by omega)
  have hnot : ¬32 ≤ i := by omega
  simp only [baseWithLow, BitVec.getLsbD_extractLsb', BitVec.getLsbD_or, BitVec.getLsbD_and, BitVec.getLsbD_setWidth, Nat.zero_add,
    hmask]
  simp [hnot, hi, show i < 64 by omega]

theorem baseWithLow_high (base : Word64) (v : Word32) : (baseWithLow base v).extractLsb' 32 32 = base.extractLsb' 32 32 := by
  refine BitVec.eq_of_getLsbD_eq fun i hi => ?_
  have hmask := highHalf_getLsbD (32 + i) (by omega)
  have hv : v.getLsbD (32 + i) = false := BitVec.getLsbD_of_ge v _ (by omega)
  simp only [baseWithLow, BitVec.getLsbD_extractLsb', BitVec.getLsbD_or, BitVec.getLsbD_and, BitVec.getLsbD_setWidth,
    hmask, hv]
  simp [hi]

theorem baseWithHigh_low (base : Word64) (v : Word32) : (baseWithHigh base v).extractLsb' 0 32 = base.extractLsb' 0 32 := by
  refine BitVec.eq_of_getLsbD_eq fun i hi => ?_
  have hmask := lowHalf_getLsbD i (by omega)
  simp only [baseWithHigh, BitVec.getLsbD_extractLsb', BitVec.getLsbD_or, BitVec.getLsbD_and, BitVec.getLsbD_shiftLeft, Nat.zero_add,
    hmask]
  simp [hi]

theorem baseWithHigh_high (base : Word64) (v : Word32) : (baseWithHigh base v).extractLsb' 32 32 = v := by
  refine BitVec.eq_of_getLsbD_eq fun i hi => ?_
  have hmask := lowHalf_getLsbD (32 + i) (by omega)
  simp only [baseWithHigh, BitVec.getLsbD_extractLsb', BitVec.getLsbD_or, BitVec.getLsbD_and, BitVec.getLsbD_shiftLeft,
    BitVec.getLsbD_setWidth, hmask]
  simp [hi, show 32 + i < 64 by omega, show i < 64 by omega]

/-! ### A word written to AREA CONTROL (R169, R189) -/

/-- The command that bits 1:0 of a word name. -/
theorem State.writeControl_command (v : Word32) (s : State) :
    (v.extractLsb' 0 2 = 0#2 → s.writeControl v = s.setEnable (v.getLsbD 8))
      ∧ (v.extractLsb' 0 2 = 1#2 → s.writeControl v = (s.setEnable (v.getLsbD 8)).openArea [] .both)
      ∧ (v.extractLsb' 0 2 = 2#2 → s.writeControl v = (s.setEnable (v.getLsbD 8)).closeCommand)
      ∧ (v.extractLsb' 0 2 = 3#2 → s.writeControl v = (s.setEnable (v.getLsbD 8)).abandonCommand) := by
  have hcommand : (v &&& 3#32).toNat = (v.extractLsb' 0 2).toNat := by
    rw [BitVec.toNat_and, BitVec.extractLsb'_toNat]
    exact Nat.and_two_pow_sub_one_eq_mod v.toNat 2
  unfold State.writeControl
  rw [hcommand]
  refine ⟨fun h => ?_, fun h => ?_, fun h => ?_, fun h => ?_⟩ <;> rw [h] <;> rfl

/-! ### Writes with an effect (R172, R180, R181) -/

theorem State.writeAck_eq {s : State} (v : Word32) (hl : s.linkUp = true) : s.writeAck v = { s with
    exch := { s.exch with ack := v }, messages := s.messages + (s.exch.enable && decide (v ≠ s.exch.tally)).toNat } := by
  unfold State.writeAck State.sendMessage
  dsimp only
  by_cases hv : v = s.exch.tally <;> cases he : s.exch.enable <;> simp [hv, hl]

theorem State.writeBase_closed {s : State} (base : Word64) (h : s.exch.area = .closed) :
    s.writeBase base = { s with exch := { s.exch with base := base } } := if_pos h

theorem State.writeBase_other {s : State} (base : Word64) (h : s.exch.area ≠ .closed) : s.writeBase base = s := if_neg h

theorem State.nudge_sleeping {s : State} (ha : s.exch.area = .opened) (hf : s.exch.fetcher = .sleeping) :
    s.nudge = { s with exch := { s.exch with fetcher := .reading, reRead := true } } := by
  simp [State.nudge, ha, hf]

theorem State.nudge_awake {s : State} (ha : s.exch.area = .opened) (hf : s.exch.fetcher ≠ .sleeping) (hs : s.exch.fetcher ≠ .stopped) :
    s.nudge = { s with exch := { s.exch with nudge := true } } := by
  unfold State.nudge
  rw [if_pos ha]
  split
  · next h => exact absurd h hf
  · rfl
  · rfl
  · rfl
  · rfl
  · next h => exact absurd h hs

theorem State.nudge_ignored {s : State} (h : s.exch.area ≠ .opened ∨ s.exch.fetcher = .stopped) : s.nudge = s := by
  unfold State.nudge
  obtain ha | hf := h
  · exact if_neg ha
  · rw [hf]
    exact ite_self s

/-- A request for attention over a link that is up (R180). -/
theorem State.ask_linkUp {s : State} (a : Attention) (hl : s.linkUp = true) : s.ask a = { s with
    exch := { s.exch with attention := s.exch.attention ||| a.bit }, messages := s.messages + s.askMessages s.exch.enable } := by
  rw [State.ask_eq, if_pos hl]

/-! ### Ignored commands (R170) -/

/-- A write to AREA CONTROL whose command is ignored: the enable it carries, and a request for CONTROL IGNORED. -/
def State.ignored (s : State) (b : Bool) : State := { s with
  exch := { s.exch with enable := b, attention := s.exch.attention ||| 4#9 }
  messages := s.messages + s.enableMessages b + s.askMessages b }

theorem State.controlIgnored_setEnable {s : State} (b : Bool) (h : s.reachable = true) : (s.setEnable b).controlIgnored = s.ignored b := by
  rw [State.setEnable_reached b h]
  exact State.ask_linkUp .controlIgnored (State.reachable_linkUp h)

theorem State.openArea_ignored {s : State} (host : HostWrites) (answer : OpenAnswer) (h : s.exch.area ≠ .closed) :
    s.openArea host answer = s.controlIgnored := if_neg h

theorem State.closeCommand_ignored {s : State}
    (h : s.exch.area = .closed ∨ s.exch.area = .opening ∨ s.exch.area = .draining ∨ s.exch.area = .abandoning) :
    s.closeCommand = s.controlIgnored := by
  obtain h | h | h | h := h <;> simp [State.closeCommand, h]

theorem State.abandonCommand_ignored {s : State}
    (h : s.exch.area = .closed ∨ s.exch.area = .opening ∨ s.exch.area = .abandoning ∨ s.exch.area = .faulted) :
    s.abandonCommand = s.controlIgnored := by
  obtain h | h | h | h := h <;> simp [State.abandonCommand, h]

theorem State.closeCommand_requested {s : State} (ha : s.exch.area = .faulted) (hc : s.exch.closeRequested = true) :
    s.closeCommand = s := by
  simp [State.closeCommand, ha, hc]

/-! ### The statements -/

/-- A row of the register window, in a part it reaches. -/
theorem next_whenReachable {s t : State} {next : State → State} (h : s.reachable = true) (e : next s = t) :
    (.next (s.whenReachable next) : Host.Outcome State Fault Refusal) = .next t :=
  congrArg Host.Outcome.next ((State.whenReachable_on next h).trans e)

theorem exec_interruptEnableWrite {s : State} {b : Bool} (h : s.reachable = true) :
    exec (.interruptEnableWrite b) s = .next (s.setEnable b) := next_whenReachable h rfl

theorem exec_areaOpen {s : State} {b : Bool} {host : HostWrites} {answer : OpenAnswer} (h : s.reachable = true) :
    exec (.areaOpen b host answer) s = .next ((s.setEnable b).openArea host answer) := next_whenReachable h rfl

theorem exec_areaClose {s : State} {b : Bool} (h : s.reachable = true) :
    exec (.areaClose b) s = .next (s.setEnable b).closeCommand := next_whenReachable h rfl

theorem exec_areaAbandon_reached {s : State} {b : Bool} (h : s.reachable = true) :
    exec (.areaAbandon b) s = .next (s.setEnable b).abandonCommand := next_whenReachable h rfl

/-- Settles O12: each write by the rule of its register, and a word by the register at its offset. -/
theorem registerWritesTakeEffect : Obligations.RegisterWritesTakeEffect := by
  refine ⟨fun s h => ?_, fun s v h => ?_, fun s b h => ?_⟩
  · have hl := State.reachable_linkUp h
    have hword (v : Word32) : exec (.registerWrite 0x08#5 v) s = .next (s.writeControl v) := next_whenReachable h rfl
    refine ⟨fun b => next_whenReachable h (State.setEnable_reached b h), fun v => next_whenReachable h (State.writeAck_eq v hl),
      fun v => next_whenReachable h rfl, fun v ha => ?_, fun v ha => ?_, fun o v ha ho => ?_,
      fun v hv => ?_, fun v hv => ?_, fun v hv => ?_, fun v hv => ?_, fun v => ⟨rfl, rfl, rfl⟩, fun o v ho => ?_⟩
    · exact ⟨_, next_whenReachable h (State.writeBase_closed _ ha), baseWithLow_low _ v, baseWithLow_high _ v⟩
    · exact ⟨_, next_whenReachable h (State.writeBase_closed _ ha), baseWithHigh_low _ v, baseWithHigh_high _ v⟩
    · obtain rfl | rfl := ho <;> exact next_whenReachable h (State.writeBase_other _ ha)
    · obtain ⟨hnone, -, -, -⟩ := State.writeControl_command v s
      rw [hword, hnone hv, exec_interruptEnableWrite h]
    · obtain ⟨-, hopen, -, -⟩ := State.writeControl_command v s
      rw [hword, hopen hv, exec_areaOpen h]
    · obtain ⟨-, -, hclose, -⟩ := State.writeControl_command v s
      rw [hword, hclose hv, exec_areaClose h]
    · obtain ⟨-, -, -, habandon⟩ := State.writeControl_command v s
      rw [hword, habandon hv, exec_areaAbandon_reached h]
    · obtain rfl | rfl := ho <;> exact next_whenReachable h rfl
  · exact ⟨fun ha hf => next_whenReachable h (State.nudge_sleeping ha hf),
      fun ha hf hs => next_whenReachable h (State.nudge_awake ha hf hs),
      fun hi => next_whenReachable h (State.nudge_ignored hi)⟩
  · have harea : (s.setEnable b).exch.area = s.exch.area := by rw [State.setEnable_reached b h]
    have hignored := State.controlIgnored_setEnable b h
    refine ⟨fun host answer ha => next_whenReachable h ?_, fun ha => next_whenReachable h ?_, fun ha => next_whenReachable h ?_,
      fun ha hc => next_whenReachable h ?_⟩
    · exact (State.openArea_ignored host answer (harea ▸ ha)).trans hignored
    · exact (State.closeCommand_ignored (harea ▸ ha)).trans hignored
    · exact (State.abandonCommand_ignored (harea ▸ ha)).trans hignored
    · have hreq : (s.setEnable b).exch.closeRequested = true := by rw [State.setEnable_reached b h]; exact hc
      exact (State.closeCommand_requested (harea ▸ ha) hreq).trans (State.setEnable_reached b h)


/-! ### Without supply (R162, R167) -/

section
variable {s : State}

@[simp] theorem State.whenPowered_off (next : State → State) (h : s.powered = false) : s.whenPowered next = s := if_neg (by simp [h])

@[simp] theorem State.whenReachable_unpowered (next : State → State) (h : s.powered = false) : s.whenReachable next = s :=
  State.whenReachable_off next (by simp [State.reachable, h])

@[simp] theorem State.beginCustody_unpowered (code : Word16) (body : Card → State → State) (h : s.powered = false) :
    s.beginCustody code body = s := by
  simp [State.beginCustody, State.custodyReady, h]

@[simp] theorem State.beginMeasure_unpowered (code : Word16) (body : Card → State → State) (h : s.powered = false) :
    s.beginMeasure code body = s := by
  simp [State.beginMeasure, State.measureReady, h]

@[simp] theorem State.beginUpdate_unpowered (code : Word16) (stage : UpdateStage) (body : Card → State → State)
    (h : s.powered = false) : s.beginUpdate code stage body = s := by
  simp [State.beginUpdate, State.updateReady, h]

@[simp] theorem State.beginCred_unpowered (code : Word16) (body : Card → State → State) (h : s.powered = false) :
    s.beginCred code body = s := by
  simp [State.beginCred, State.credReady, h]

@[simp] theorem State.beginLife_unpowered (code : Word16) (stage : LifeStage) (body : Card → State → State) (h : s.powered = false) :
    s.beginLife code stage body = s := by
  simp [State.beginLife, State.lifeReady, h]

@[simp] theorem State.serving_unpowered (h : s.powered = false) : s.serving = none := by
  simp [State.serving, h]

@[simp] theorem State.mayStart_unpowered (h : s.powered = false) : s.mayStart = false := by
  simp [State.mayStart, h]

@[simp] theorem State.isReading_unpowered (h : s.powered = false) : s.isReading = false := by
  simp [State.isReading, h]

@[simp] theorem State.serveCheck_unpowered (h : s.powered = false) : s.serveCheck = s := by
  simp [State.serveCheck, h]

@[simp] theorem State.serveChainRead_unpowered (h : s.powered = false) : s.serveChainRead = s := by
  simp [State.serveChainRead, h]

@[simp] theorem State.readingPass_unpowered (stores : HostWrites) (h : s.powered = false) : s.readingPass stores = s := by
  simp [State.readingPass, h]

@[simp] theorem State.cardTake_unpowered (stores : HostWrites) (h : s.powered = false) : s.cardTake stores = s := by
  simp [State.cardTake, h]

@[simp] theorem State.settleCard_unpowered (h : s.powered = false) : s.settleCard = s := by
  simp [State.settleCard, h]

end

theorem stays_of_exec {c : Instr} {s t : State} (e : exec c s = .next t) (ht : t = s) : exec c s = .next s := ht ▸ e

/-- Every row but a power-up asks for the supply before it does anything. -/
theorem exec_unpowered {c : Instr} {s : State} (h : s.powered = false) (hc : c ≠ .powerUp) : exec c s = .next s := by
  cases c with
  | powerUp => exact absurd rfl hc
  | _ => exact stays_of_exec rfl (by simp [h])

/-! ### STATUS (R169, R189) -/

/-- The number that STATUS reads as. -/
def State.statusNumber (s : State) : Nat :=
  s.exch.area.code + 2 ^ 3 * s.exch.fetcher.isHeld.toNat + 2 ^ 4 * (decide (s.startUp ≠ .ended)).toNat
    + 2 ^ 5 * s.lifecycle.effective.code + 2 ^ 7 * s.lifecycle.requested.code + 2 ^ 9 * s.lifecycle.pending.toNat
    + 2 ^ 10 * s.census.state.code + 2 ^ 12 * s.lifecycle.presence.isSome.toNat + 2 ^ 31 * (decide (s.exch.attention ≠ 0#9)).toNat

theorem State.status_eq (s : State) : s.status = BitVec.ofNat 32 s.statusNumber := rfl

theorem AreaState.code_le (a : AreaState) : a.code ≤ 5 := by cases a <;> decide

theorem LifecycleState.code_le (l : LifecycleState) : l.code ≤ 2 := by cases l <;> decide

theorem CensusState.code_le (c : CensusState) : c.code ≤ 2 := by cases c <;> decide

theorem wordNumber_field (k w n v : Nat) (hn : n < 2 ^ 32) (h : n / 2 ^ k % 2 ^ w = v) :
    ((BitVec.ofNat 32 n).extractLsb' k w).toNat = v := by
  rw [BitVec.extractLsb'_toNat, BitVec.toNat_ofNat, Nat.mod_eq_of_lt hn, Nat.shiftRight_eq_div_pow, h]

theorem wordNumber_bit (k n : Nat) (b : Bool) (hk : k < 32) (h : n / 2 ^ k % 2 = b.toNat) : (BitVec.ofNat 32 n).getLsbD k = b := by
  rw [BitVec.getLsbD_ofNat, decide_eq_true hk, Bool.true_and, Nat.testBit_eq_decide_div_mod_eq, h]
  cases b <;> rfl

/-- Where STATUS holds its items. -/
theorem State.status_items (s : State) :
    (s.status.extractLsb' 0 3).toNat = s.exch.area.code ∧ s.status.getLsbD 3 = s.exch.fetcher.isHeld
      ∧ s.status.getLsbD 4 = decide (s.startUp ≠ .ended) ∧ (s.status.extractLsb' 5 2).toNat = s.lifecycle.effective.code
      ∧ (s.status.extractLsb' 7 2).toNat = s.lifecycle.requested.code ∧ s.status.getLsbD 9 = s.lifecycle.pending
      ∧ (s.status.extractLsb' 10 2).toNat = s.census.state.code ∧ s.status.getLsbD 12 = s.lifecycle.presence.isSome
      ∧ s.status.extractLsb' 13 18 = 0#18 ∧ s.status.getLsbD 31 = decide (s.exch.attention ≠ 0#9) := by
  have harea := AreaState.code_le s.exch.area
  have heffective := LifecycleState.code_le s.lifecycle.effective
  have hrequested := LifecycleState.code_le s.lifecycle.requested
  have hcensus := CensusState.code_le s.census.state
  have hheld := Bool.toNat_le s.exch.fetcher.isHeld
  have hstart := Bool.toNat_le (decide (s.startUp ≠ .ended))
  have hpending := Bool.toNat_le s.lifecycle.pending
  have hpresence := Bool.toNat_le s.lifecycle.presence.isSome
  have hattention := Bool.toNat_le (decide (s.exch.attention ≠ 0#9))
  have hn : s.statusNumber < 2 ^ 32 := by
    unfold State.statusNumber
    omega
  rw [State.status_eq]
  refine ⟨wordNumber_field 0 3 _ _ hn ?_, wordNumber_bit 3 _ _ (by decide) ?_, wordNumber_bit 4 _ _ (by decide) ?_,
    wordNumber_field 5 2 _ _ hn ?_, wordNumber_field 7 2 _ _ hn ?_, wordNumber_bit 9 _ _ (by decide) ?_,
    wordNumber_field 10 2 _ _ hn ?_, wordNumber_bit 12 _ _ (by decide) ?_,
    BitVec.eq_of_toNat_eq (wordNumber_field 13 18 _ 0 hn ?_), wordNumber_bit 31 _ _ (by decide) ?_⟩
  all_goals
    unfold State.statusNumber
    omega

theorem Fetcher.isHeld_of_held {f : Fetcher} (h : f = .heldByOrdered ∨ ∃ code, f = .heldForRoom code) : f.isHeld = true := by
  obtain rfl | ⟨_, rfl⟩ := h <;> rfl

theorem Fetcher.isHeld_of_free {f : Fetcher} (h : f ∈ [.stopped, .waitingStartUp, .reading, .sleeping]) : f.isHeld = false := by
  simp only [List.mem_cons, List.not_mem_nil, or_false] at h
  obtain rfl | rfl | rfl | rfl := h <;> rfl

/-! ### Reads (R169, R189) -/

theorem State.readRegister_reset {s : State} (o : BitVec 5) (h : s.resetLine = true) : s.readRegister o = 0#32 := if_pos h

theorem setWidth_eq_lowHalf (base : Word64) : base.setWidth 32 = base.extractLsb' 0 32 := by
  refine BitVec.eq_of_toNat_eq ?_
  rw [BitVec.toNat_setWidth, BitVec.extractLsb'_toNat, Nat.shiftRight_zero]

theorem setWidth_shift_eq_highHalf (base : Word64) : (base >>> 32).setWidth 32 = base.extractLsb' 32 32 := by
  refine BitVec.eq_of_toNat_eq ?_
  rw [BitVec.toNat_setWidth, BitVec.extractLsb'_toNat, BitVec.toNat_ushiftRight]

/-- Settles O3: a write asks that the part be reachable, every row but a power-up that it have its supply, and the registers read as
R189 lays them out. -/
theorem unreachablePartsStayAsTheyAre : Obligations.UnreachablePartsStayAsTheyAre := by
  refine ⟨⟨fun s o h => State.readRegister_reset o h, fun s h => ?_⟩, fun c s h hc => exec_unpowered h hc, fun s _ h => ?_⟩
  · have hstays (c : Instr) (next : State → State) (e : exec c s = .next (s.whenReachable next)) : exec c s = .next s :=
      stays_of_exec e (State.whenReachable_off next h)
    exact ⟨fun _ _ _ => hstays _ _ rfl, fun _ => hstays _ _ rfl, fun _ => hstays _ _ rfl, fun _ => hstays _ _ rfl,
      fun _ => hstays _ _ rfl, fun _ => hstays _ _ rfl, fun _ => hstays _ _ rfl, fun _ _ => hstays _ _ rfl⟩
  · have hread (o : BitVec 5) (v : Word32) (e : ({ s with resetLine := false } : State).readRegister o = v) : s.readRegister o = v := by
      rw [← e, ← h]
    obtain ⟨harea, hheld, hstart, heffective, hrequested, hpending, hcensus, hpresence, hzero, hattention⟩ := s.status_items
    have hstatus : s.readRegister 0x14#5 = s.status := hread _ _ rfl
    intro status
    rw [show status = s.status from hstatus]
    refine ⟨⟨?_, ?_, hread _ _ rfl, hread _ _ rfl, hread _ _ rfl, hread _ _ rfl, hread _ _ rfl⟩, harea, fun hf => ?_, fun hf => ?_,
      hstart, heffective, hrequested, hpending, hcensus, hpresence, hzero, hattention⟩
    · rw [← setWidth_eq_lowHalf]
      exact hread _ _ rfl
    · rw [← setWidth_shift_eq_highHalf]
      exact hread _ _ rfl
    · rw [hheld]
      exact Fetcher.isHeld_of_held hf
    · rw [hheld]
      exact Fetcher.isHeld_of_free hf

end Sys2Proof.Machine
end

