-- ==== Sys2Proof/Proofs/Opening.lean ====
section
/-! SUPPORT. Entry into FAULTED over a link that is up, and the opening of the area: O13 (R171, R184). -/
namespace Sys2Proof.Machine

/-! ### Entry into FAULTED over a link that is up (R184) -/

theorem State.enterFaulted_linkUp {s : State} {f : FaultCode} (n : Nat) (written : Bool) (ha : s.exch.area.isActive = true)
    (hl : s.linkUp = true) (hf : f ≠ .linkLost)
    (h : (∀ x, s.update.session ≠ .opened x) ∨ ∀ b ∈ s.exch.buffers, ∀ x ∈ s.exch.settleList,
      b.card.take = x.card.take → b.card.code ≠ feedCode) :
    s.enterFaulted f n written = { s with
      exch := s.exch.faultedWith (BitVec.ofNat 16 f.code) (byteOf n)
      messages := s.messages + s.askMessages s.exch.enable
      host := if written then Memory.writeBytes s.host (s.pageAddress 0 14) (faultBytes f.code n) else s.host } := by
  have hleave : (∀ x, s.update.session ≠ .opened x) ∨ ∀ b ∈ s.exch.buffers, ∀ c ∈ s.exch.settleList.map (·.card),
      b.card.take = c.take → b.card.code ≠ feedCode :=
    h.imp id fun h b hb c hc => by
      obtain ⟨x, hx, rfl⟩ := List.mem_map.mp hc
      exact h b hb x hx
  rw [State.enterFaulted_active _ _ _ ha, State.foldl_freeBuffer _ (s := s.faultRecorded f n written) hleave]
  unfold State.faultRecorded Exchange.faultedWith Exchange.kept faultBytes
  simp only [hl, List.any_map, decide_eq_true hf, Bool.and_true, if_true]
  rfl

/-! ### The header page (R171) -/

theorem State.headerCards_eq_some {s : State} {n : Nat} : s.headerCards = some n ↔ validHeader s n := by
  unfold State.headerCards validHeader
  dsimp only
  split
  · next h =>
    simp only [Option.some.injEq]
    constructor
    · rintro rfl
      exact ⟨h.1, rfl, h.2⟩
    · exact fun hv => hv.2.1
  · next h =>
    simp only [reduceCtorEq, false_iff]
    rintro ⟨hversion, rfl, hrange⟩
    exact h ⟨hversion, hrange⟩

theorem State.headerCards_eq_none {s : State} : s.headerCards = none ↔ ∀ n, ¬validHeader s n := by
  simp [Option.eq_none_iff_forall_ne_some, State.headerCards_eq_some]


/-! ### Opening (R171) -/

section
variable {s : State} {stores : HostWrites} {answer : OpenAnswer} {n : Nat}

/-- The part as an OPEN begins, with the host's stores in place. -/
def State.opening (s : State) (stores : HostWrites) : State :=
  ({ s with exch := { s.exch with area := .opening } } : State).hostStores stores

theorem State.openArea_readAwaited (ha : s.exch.area = .closed) : s.openArea stores .readAwaited =
    { s.opening stores with exch := { (s.opening stores).exch with openAwait := some .readAwaited } } := if_pos ha

theorem State.openArea_writeAwaited (ha : s.exch.area = .closed) (hv : validHeader (s.hostStores stores) n) :
    s.openArea stores .writeAwaited =
      { s.opening stores with exch := { (s.opening stores).exch.openedWith n with openAwait := some .writeAwaited } } := by
  have hcards : (s.opening stores).headerCards = some n := State.headerCards_eq_some.mpr hv
  unfold State.opening at hcards ⊢
  unfold State.openArea
  rw [if_pos ha]
  simp only [hcards]

theorem State.openArea_both (ha : s.exch.area = .closed) (hv : validHeader (s.hostStores stores) n) : s.openArea stores .both =
    ({ s.opening stores with exch := (s.opening stores).exch.openedWith n } : State).finishOpening := by
  have hcards : (s.opening stores).headerCards = some n := State.headerCards_eq_some.mpr hv
  unfold State.opening at hcards ⊢
  unfold State.openArea
  rw [if_pos ha]
  simp only [hcards]

theorem State.openArea_badHeader (ha : s.exch.area = .closed) (hv : ∀ n, ¬validHeader (s.hostStores stores) n)
    (hanswer : answer = .both ∨ answer = .writeAwaited) :
    s.openArea stores answer = (s.opening stores).enterFaulted .badHeader 0 true := by
  have hcards : (s.opening stores).headerCards = none := State.headerCards_eq_none.mpr hv
  obtain rfl | rfl := hanswer
  all_goals
    unfold State.opening at hcards ⊢
    unfold State.openArea
    rw [if_pos ha]
    simp only [hcards]

/-- The answer that an opening awaits (R171). -/
theorem exec_readingPass_opening (hp : s.powered = true) (hl : s.linkUp = true) (ha : s.exch.area = .opening) :
    exec (.readingPass stores) s = .next (s.hostStores stores).completeOpening :=
  congrArg Host.Outcome.next (if_pos (by simp [hp, hl, ha]))

theorem State.completeOpening_valid (hw : s.exch.openAwait = some .readAwaited) (hv : validHeader s n) :
    s.completeOpening = ({ s with exch := s.exch.openedWith n } : State).finishOpening := by
  simp [State.completeOpening, hw, State.headerCards_eq_some.mpr hv]

theorem State.completeOpening_invalid (hw : s.exch.openAwait = some .readAwaited) (hv : ∀ n, ¬validHeader s n) :
    s.completeOpening = s.enterFaulted .badHeader 0 true := by
  simp [State.completeOpening, hw, State.headerCards_eq_none.mpr hv]

theorem State.completeOpening_written (hw : s.exch.openAwait = some .writeAwaited) : s.completeOpening = s.finishOpening := by
  simp [State.completeOpening, hw]

/-- An invalid header faults an area with an empty settle list (R171, R184). -/
theorem State.enterFaulted_badHeader (ha : s.exch.area = .opening) (hl : s.linkUp = true) (hlist : s.exch.settleList = []) :
    s.enterFaulted .badHeader 0 true = { s with
      exch := s.exch.faultedWith 1#16 0#8
      messages := s.messages + s.askMessages s.exch.enable
      host := Memory.writeBytes s.host (s.pageAddress 0 14) [1#8, 0#8, 0#8] } :=
  State.enterFaulted_linkUp 0 true (by simp [ha, AreaState.isActive]) hl (by decide) (.inr (by simp [hlist]))

end

/-- The part with the enable of a write to AREA CONTROL taken (R180). -/
def State.enabled (s : State) (b : Bool) : State := { s with
  exch := { s.exch with enable := b }, messages := s.messages + s.enableMessages b }

theorem exec_areaOpen_enabled {s : State} {b : Bool} {stores : HostWrites} {answer : OpenAnswer} (h : s.reachable = true) :
    exec (.areaOpen b stores answer) s = .next ((s.enabled b).openArea stores answer) := by
  rw [exec_areaOpen h, State.setEnable_reached b h]
  rfl

/-- Settles O13: the header as the part finds it decides, at the OPEN or at the answer to its read. -/
theorem openingTheArea : Obligations.OpeningTheArea := by
  refine ⟨fun s b stores h ha => ?_, fun s stores hp hl ha => ?_⟩ <;> intro u
  · have hl := State.reachable_linkUp h
    simp only [exec_areaOpen_enabled h]
    refine ⟨fun n hv => ?_, fun hv hlist answer hanswer => ?_, fun n hv => ?_, ?_⟩
    · exact congrArg Host.Outcome.next (State.openArea_both (s := s.enabled b) ha hv)
    · exact congrArg Host.Outcome.next ((State.openArea_badHeader (s := s.enabled b) ha hv hanswer).trans
        (State.enterFaulted_badHeader rfl hl hlist))
    · exact congrArg Host.Outcome.next (State.openArea_writeAwaited (s := s.enabled b) ha hv)
    · exact congrArg Host.Outcome.next (State.openArea_readAwaited (s := s.enabled b) ha)
  · rw [exec_readingPass_opening hp hl ha]
    refine ⟨fun n hw hv => ?_, fun hw hv hlist => ?_, fun hw => ?_⟩
    · exact congrArg Host.Outcome.next (State.completeOpening_valid hw hv)
    · exact congrArg Host.Outcome.next ((State.completeOpening_invalid (s := u) hw hv).trans
        (State.enterFaulted_badHeader ha hl hlist))
    · exact congrArg Host.Outcome.next (State.completeOpening_written hw)

end Sys2Proof.Machine
end

