-- ==== Sys2Proof/Proofs/Fetching.lean ====
section
/-! SUPPORT. The fetcher's passes and takes: O16 and O17 (R172 to R176, R178). -/
namespace Sys2Proof.Machine

section
variable {s : State} {stores : HostWrites} {n : Nat}

/-! ### A fetcher that reads -/

theorem State.isReading_iff : s.isReading = true ↔
    s.powered = true ∧ s.linkUp = true ∧ s.exch.area = .opened ∧ s.exch.fetcher = .reading := by
  simp [State.isReading, and_assoc]

/-! ### One pass (R172, R173) -/

theorem exec_readingPass_reading (hr : s.isReading = true) (hc : s.exch.candidate = none) :
    exec (.readingPass stores) s = .next (s.hostStores stores).readChain := by
  obtain ⟨-, -, ha, -⟩ := State.isReading_iff.mp hr
  have hrow : s.readingPass stores = (s.hostStores stores).readChain := by
    unfold State.readingPass
    rw [if_neg (by simp [ha]), if_pos (by simp [hr, hc])]
  exact congrArg Host.Outcome.next hrow

theorem State.linkedCard_end (h : s.linkEntry = 0 ∨ s.exch.cards < s.linkEntry) : s.linkedCard = none := if_pos h

theorem State.linkedCard_card (he : s.linkEntry = n) (h1 : 1 ≤ n) (hn : n ≤ s.exch.cards) : s.linkedCard = some n := by
  unfold State.linkedCard
  rw [if_neg (by omega), he]

theorem State.noCard_eq : s.noCard = restsAfterPass s := rfl

theorem State.readChain_end (h : s.linkEntry = 0 ∨ s.exch.cards < s.linkEntry) : s.readChain = restsAfterPass s := by
  simp [State.readChain, State.linkedCard_end h, State.noCard_eq]

theorem State.readChain_notPosted (hl : s.linkedCard = some n) (hb : (s.cardAt n).byte 0 ≠ 1#8) : s.readChain = restsAfterPass s := by
  simp [State.readChain, hl, hb, State.noCard_eq]

theorem State.readChain_wrongTicket (hl : s.linkedCard = some n) (hb : (s.cardAt n).byte 0 = 1#8)
    (ht : (s.cardAt n).ticket ≠ s.exch.expected) : s.readChain = restsAfterPass (s.wrongTicket n) := by
  simp [State.readChain, hl, hb, ht, State.noCard_eq]

theorem State.readChain_found (hf : passFinds s n) : s.readChain = s.candidateFound n (s.cardAt n) := by
  obtain ⟨he, h1, hn, hb, ht⟩ := hf
  simp [State.readChain, State.linkedCard_card he h1 hn, hb, ht]

/-- A wrong ticket is not reported outside a nudge re-read, and not twice (R173). -/
theorem State.wrongTicket_silent (h : s.exch.reRead = false ∨ s.exch.mismatch = some n) : s.wrongTicket n = s := by
  refine if_neg ?_
  obtain h | h := h <;> simp [h]

/-- A nudge re-read remembers a wrong ticket, and asks for CHAIN MISMATCH (R173). -/
theorem State.wrongTicket_reported (hlink : s.linkUp = true) (hr : s.exch.reRead = true) (hm : s.exch.mismatch ≠ some n) :
    s.wrongTicket n = { s with
      exch := { s.exch with mismatch := some n, attention := s.exch.attention ||| 2#9 }
      messages := s.messages + s.askMessages s.exch.enable } :=
  (if_pos (by simp [hr, hm])).trans (State.ask_linkUp .chainMismatch hlink)

/-! ### A card to take (R174, R176) -/

theorem State.hasRoom_iff (code : Word16) : s.hasRoom code = true ↔ roomFor s code := by
  unfold State.hasRoom roomFor State.queueOf
  cases unitOf code <;> simp

theorem State.holdsBack_iff (c : Card) : (c.ordered && !selfSettled c && !s.exch.buffers.isEmpty) = true ↔
    c.ordered = true ∧ selfSettled c = false ∧ s.exch.buffers ≠ [] := by
  simp [and_assoc]

theorem State.candidateFound_ordered {c : Card} (h : c.ordered = true ∧ selfSettled c = false ∧ s.exch.buffers ≠ []) :
    s.candidateFound n c = s.holdFetcher .heldByOrdered := if_pos ((State.holdsBack_iff c).mpr h)

theorem State.candidateFound_full {c : Card} (h : ¬(c.ordered = true ∧ selfSettled c = false ∧ s.exch.buffers ≠ []))
    (hr : ¬roomFor s c.code) : s.candidateFound n c = s.holdFetcher (.heldForRoom c.code) := by
  unfold State.candidateFound
  rw [if_neg (mt (State.holdsBack_iff c).mp h), if_neg (mt (State.hasRoom_iff c.code).mp hr)]

theorem State.candidateFound_room {c : Card} (h : ¬(c.ordered = true ∧ selfSettled c = false ∧ s.exch.buffers ≠ []))
    (hr : roomFor s c.code) :
    s.candidateFound n c = { s with exch := { s.exch with candidate := some (n, c.ticket, c.code) } } := by
  unfold State.candidateFound
  rw [if_neg (mt (State.holdsBack_iff c).mp h), if_pos ((State.hasRoom_iff c.code).mpr hr)]

end

/-- Settles O16: the pass ends at the end of the chain, at the card's state, at its ticket, at ORDERED or at the room for it, in this
order. -/
theorem readingPasses : Obligations.ReadingPasses := by
  refine ⟨fun s stores hr hc => ?_, fun s stores n hr hc => ?_⟩
  · intro u
    obtain ⟨-, hlink, -, -⟩ := State.isReading_iff.mp hr
    rw [exec_readingPass_reading hr hc]
    refine ⟨fun h => ?_, fun n he h1 hn hb => ?_, fun n he h1 hn hb ht h => ?_, fun n he h1 hn hb ht hreRead hm => ?_⟩
    · exact congrArg Host.Outcome.next (State.readChain_end h)
    · exact congrArg Host.Outcome.next (State.readChain_notPosted (State.linkedCard_card he h1 hn) hb)
    · refine congrArg Host.Outcome.next ((State.readChain_wrongTicket (State.linkedCard_card he h1 hn) hb ht).trans ?_)
      exact congrArg restsAfterPass (State.wrongTicket_silent (s := u) h)
    · refine congrArg Host.Outcome.next ((State.readChain_wrongTicket (State.linkedCard_card he h1 hn) hb ht).trans ?_)
      exact congrArg restsAfterPass (State.wrongTicket_reported (s := u) hlink hreRead hm)
  · intro u c ordered hf
    rw [exec_readingPass_reading hr hc, State.readChain_found hf]
    exact ⟨fun h => congrArg Host.Outcome.next (State.candidateFound_ordered (s := u) h),
      fun h hroom => congrArg Host.Outcome.next (State.candidateFound_full (s := u) h hroom),
      fun h hroom => congrArg Host.Outcome.next (State.candidateFound_room (s := u) h hroom)⟩


/-! ### A take (R174, R175, R178) -/

theorem nextTicket_eq (t : Word16) : nextTicket t = ticketAfter t := by
  have hlast : t = 0xFFFF#16 ↔ t.toNat = 65535 := by
    rw [← BitVec.toNat_inj]
    rfl
  have hnext : t + 1#16 = BitVec.ofNat 16 (t.toNat + 1) := by
    rw [BitVec.ofNat_add, BitVec.ofNat_toNat, BitVec.setWidth_eq]
  unfold nextTicket ticketAfter
  simp only [hlast, hnext]

/-- A buffer for a card just taken (R178). -/
def Exchange.buffered (e : Exchange) (c : Card) (unit : Option UnitName) (phase : Phase) : Exchange :=
  { e with buffers := e.buffers ++ [{ card := c, unit := unit, phase := phase }] }

/-- The exchange as a take leaves it, before the card is routed (R174). -/
def Exchange.taken (e : Exchange) (n : Nat) (ticket : Word16) : Exchange := { e with
  takes := e.takes + 1, takenTicket := ticket, expected := ticketAfter e.expected, cursor := some n, mismatch := none, candidate := none }

/-- A card settled by the exchange at its take is handed back in the buffer it has just taken. -/
theorem Exchange.handed_buffered {e : Exchange} {x : Settlement} (h : ∀ b ∈ e.buffers, b.card.take ≠ x.card.take) :
    (e.buffered x.card none .handedBack).handed x =
      { e.buffered x.card none .handedBack with settleList := e.settleList ++ [x] } := by
  have hmap : e.buffers.map (fun b => if b.card.take = x.card.take then { b with phase := .handedBack } else b) = e.buffers := by
    refine (List.map_congr_left fun b hb => ?_).trans (List.map_id e.buffers)
    exact if_neg (h b hb)
  unfold Exchange.handed Exchange.buffered
  simp only [List.map_append, List.map_cons, List.map_nil, hmap, if_true]

section
variable {s : State} {c : Card} {unit : UnitName} {field : Nat}

theorem State.routeCard_unit (hu : unitOf c.code = some unit) (hf : exchangeForm c = none) :
    s.routeCard c = { s with exch := s.exch.buffered c (some unit) .waiting } := by
  simp only [State.routeCard, hu, hf, Exchange.buffered]

theorem State.routeCard_unknown (hu : unitOf c.code = none) : s.routeCard c =
    ({ s with exch := s.exch.buffered c none .handedBack } : State).handBack c .unknownCommand (some (c.code.setWidth 32)) [] := by
  simp only [State.routeCard, hu, Exchange.buffered]

theorem State.routeCard_badRequest (hu : unitOf c.code = some unit) (hf : exchangeForm c = some field) : s.routeCard c =
    ({ s with exch := s.exch.buffered c none .handedBack } : State).handBack c .badRequest (some (BitVec.ofNat 32 field)) [] := by
  simp only [State.routeCard, hu, hf, Exchange.buffered]

/-- What the exchange's own settlement of a card does, the area carrying outcomes (R175, R179). -/
theorem State.handBack_buffered (o : CardOutcome) (d : Word32) (ha : s.carries) (h : ∀ b ∈ s.exch.buffers, b.card.take ≠ c.take) :
    ({ s with exch := s.exch.buffered c none .handedBack } : State).handBack c o (some d) [] = { s with
      exch := { s.exch.buffered c none .handedBack with
        settleList := s.exch.settleList ++ [{ card := c, outcome := o, detail := d, body := [] }] } } := by
  rw [State.handBack_carries (s := { s with exch := s.exch.buffered c none .handedBack }) c o (some d) [] ha]
  exact congrArg (fun e : Exchange => ({ s with exch := e } : State))
    (Exchange.handed_buffered (x := { card := c, outcome := o, detail := d, body := [] }) h)

end

/-- The part after the two writes of a take, before the card is routed (R174). -/
def State.takenAt (s : State) (n : Nat) (ticket : Word16) : State := { s with
  host := Memory.writeBytes (Memory.writeBytes s.host (s.pageAddress n 0) [2#8]) (s.pageAddress 0 12) (leBytes 2 ticket.toNat)
  exch := s.exch.taken n ticket }

theorem exec_cardTake {s : State} {stores : HostWrites} {n : Nat} {ticket code : Word16} (hr : s.isReading = true)
    (hc : s.exch.candidate = some (n, ticket, code)) : exec (.cardTake stores) s = .next (((s.hostStores stores).takenAt n ticket).routeCard
      { take := s.exch.takes, num := n, ticket := ticket, code := code, bytes := (s.hostStores stores).readPage n 0 256 }) := by
  have hrow : s.cardTake stores = (s.hostStores stores).takeCard n ticket code := by
    simp only [State.cardTake, hr, hc, if_true]
  refine congrArg Host.Outcome.next (hrow.trans ?_)
  unfold State.takenAt Exchange.taken
  rw [← nextTicket_eq]
  rfl

/-- Settles O17: the two writes and the route of the card, to its unit's queue or back to the settle list. -/
theorem takingACard : Obligations.TakingACard := by
  intro s stores n ticket code hr hc u c host e
  obtain ⟨-, -, ha, -⟩ := State.isReading_iff.mp hr
  have hcarries : (u.takenAt n ticket).carries := by simp [State.carries, u, State.takenAt, Exchange.taken, State.hostStores, ha]
  rw [exec_cardTake hr hc]
  refine ⟨fun unit hu hf => ?_, fun hnew hu => ?_, fun unit field hnew hu hf => ?_⟩
  · exact congrArg Host.Outcome.next (State.routeCard_unit (s := u.takenAt n ticket) (c := c) hu hf)
  · exact congrArg Host.Outcome.next ((State.routeCard_unknown (s := u.takenAt n ticket) (c := c) hu).trans
      (State.handBack_buffered _ _ hcarries hnew))
  · exact congrArg Host.Outcome.next ((State.routeCard_badRequest (s := u.takenAt n ticket) (c := c) hu hf).trans
      (State.handBack_buffered _ _ hcarries hnew))

end Sys2Proof.Machine
end

