-- ==== Sys2Proof/Proofs/Settling.lean ====
section
/-! SUPPORT. A settle and the bytes it writes: O18 (R174, R178 to R180, R182, R190, R191). -/
namespace Sys2Proof.Machine

/-- A write to a page leaves every byte outside it. -/
theorem Memory.read_writePage_other (m : Memory) {s : State} {page off n a : Nat} {l : List Byte} (hn : l.length = n)
    (h : ¬s.inPage page off n a) : (m.writeBytes (s.pageAddress page off) l).read a = m.read a :=
  Memory.read_writeBytes_other _ _ _ _ fun i hi ha => h ⟨i, hn ▸ hi, ha⟩

/-! ### The reply region (R179, R190, R191) -/

/-- The 80 bytes of a reply region, with the value that its reserved byte takes. -/
@[irreducible] def Settlement.regionBytes (e : Settlement) (reserved : Byte) : List Byte :=
  leBytes 2 e.outcome.code ++ leBytes 1 e.body.length ++ [reserved] ++ leBytes 4 e.detail.toNat ++ sliceBytes e.body 0 72

theorem Settlement.regionBytes_length (e : Settlement) (reserved : Byte) : (e.regionBytes reserved).length = 80 := by
  unfold Settlement.regionBytes
  simp [sliceBytes]

theorem Settlement.fillOpen_region (e : Settlement) (n : Nat) : fillOpen n e.region = e.regionBytes (Config.freeByte n) := by
  unfold Settlement.regionBytes
  simp [Settlement.region, fillOpen_append, outOpen, fillOpen]

theorem Settlement.countOpen_region (e : Settlement) : countOpen e.region = 1 := by
  simp [Settlement.region, outOpen, countOpen]

theorem State.writeReply_eq (s : State) (e : Settlement) : s.writeReply e = { s with
    host := Memory.writeBytes s.host (s.pageAddress e.card.num 176) (e.regionBytes (Config.freeByte s.free)), free := s.free + 1 } := by
  unfold State.writeReply State.writePage State.afterFill State.filled
  rw [e.fillOpen_region, e.countOpen_region]

/-! ### What a settle does (R178, R179, R180, R182) -/

/-- The update unit as a card leaves its buffer: a feed that leaves the update queue restarts the idle timer (R79). -/
def Update.afterLeaving (u : Update) (bs : List Buffer) (tick : Word32) (c : Card) : Update :=
  match u.session with
  | .opened o =>
    if bs.any fun b => b.holds c && b.unit == some .update && b.card.code == feedCode then
      { u with session := .opened { o with idleStart := tick } }
    else u
  | .idle => u
  | .checked _ => u

/-- A freed buffer changes the buffers and, for a feed, the idle timer. -/
theorem State.freeBuffer_eq (s : State) (c : Card) : s.freeBuffer c = { s with
    exch := { s.exch with buffers := s.exch.buffers.filter fun b => !b.holds c }
    update := s.update.afterLeaving s.exch.buffers s.pace.tick c } := by
  unfold State.freeBuffer State.restartIdle Update.afterLeaving
  dsimp only
  cases s.update.session <;> simp only <;> split <;> rfl

theorem State.sendMessage_eq {s : State} (hl : s.linkUp = true) : s.sendMessage =
    { s with messages := s.messages + s.exch.enable.toNat } := by
  unfold State.sendMessage
  cases s.exch.enable with
  | false => rfl
  | true => exact if_pos hl

theorem State.unhold_eq (s : State) : s.unhold =
    { s with exch := { s.exch with fetcher := if s.holdClears then .reading else s.exch.fetcher } } := by
  unfold State.unhold
  split <;> rfl

theorem State.closeWhenEmpty_empty {s : State} (h : s.exch.buffers = []) : s.closeWhenEmpty = s.closeArea := if_pos (by simp [h])

theorem State.closeWhenEmpty_held {s : State} (h : s.exch.buffers ≠ []) : s.closeWhenEmpty = s := if_neg (by simpa using h)

theorem State.closeIfDone_leaving {s : State} (ha : s.exch.area = .draining ∨ s.exch.area = .abandoning) :
    s.closeIfDone = s.closeWhenEmpty := by
  obtain ha | ha := ha <;> simp only [State.closeIfDone, ha]

theorem State.closeIfDone_opened {s : State} (ha : s.exch.area = .opened) : s.closeIfDone = s := by
  simp only [State.closeIfDone, ha]

/-- An area that settles, after a settle: what leaves with its last card (R182, R183). -/
theorem State.closeIfDone_eq {s : State} (ha : s.exch.area = .opened ∨ s.exch.area = .draining ∨ s.exch.area = .abandoning) :
    s.closeIfDone = { s with exch := { s.exch with
      area := if s.exch.area ≠ .opened ∧ s.exch.buffers = [] then .closed else s.exch.area
      closeRequested := if s.exch.area ≠ .opened ∧ s.exch.buffers = [] then false else s.exch.closeRequested } } := by
  obtain hopen | hleave := ha
  · rw [State.closeIfDone_opened hopen, if_neg (fun h => h.1 hopen), if_neg (fun h => h.1 hopen)]
  · have hnot : s.exch.area ≠ .opened := by obtain h | h := hleave <;> simp [h]
    rw [State.closeIfDone_leaving hleave]
    by_cases hb : s.exch.buffers = []
    · rw [State.closeWhenEmpty_empty hb, if_pos ⟨hnot, hb⟩, if_pos ⟨hnot, hb⟩]
      rfl
    · rw [State.closeWhenEmpty_held hb, if_neg (fun h => hb h.2), if_neg (fun h => hb h.2)]

/-- The part after the three writes of a settle and the release of the buffer, before the fetcher and the area follow (R179, R180). -/
def State.tallied (s : State) (x : Settlement) (rest : List Settlement) : State := { s with
  host := Memory.writeBytes (Memory.writeBytes (Memory.writeBytes s.host (s.pageAddress x.card.num 176)
    (x.regionBytes (Config.freeByte s.free))) (s.pageAddress x.card.num 0) [3#8]) (s.pageAddress 0 8)
    (leBytes 4 (s.exch.tally + 1#32).toNat)
  free := s.free + 1
  messages := s.messages + (decide (s.exch.tally = s.exch.ack) && s.exch.enable).toNat
  update := s.update.afterLeaving s.exch.buffers s.pace.tick x.card
  exch := { s.exch with
    tally := s.exch.tally + 1#32, settleList := rest, buffers := s.exch.buffers.filter fun b => !b.holds x.card } }

section
variable {s : State} {x : Settlement} {rest : List Settlement}

theorem State.tallySettle_eq {t : State} (hl : t.linkUp = true) : t.tallySettle x rest =
    ({ t with
      host := Memory.writeBytes t.host (t.pageAddress 0 8) (leBytes 4 (t.exch.tally + 1#32).toNat)
      messages := t.messages + (decide (t.exch.tally = t.exch.ack) && t.exch.enable).toNat
      update := t.update.afterLeaving t.exch.buffers t.pace.tick x.card
      exch := { t.exch with
        tally := t.exch.tally + 1#32, settleList := rest
        buffers := t.exch.buffers.filter fun b => !b.holds x.card } } : State).unhold.closeIfDone := by
  unfold State.tallySettle
  dsimp only
  rw [State.freeBuffer_eq]
  by_cases hw : t.exch.tally = t.exch.ack
  · rw [if_pos (by simpa using hw), State.sendMessage_eq (by exact hl), decide_eq_true hw, Bool.true_and]
    rfl
  · rw [if_neg (by simpa using hw), decide_eq_false hw, Bool.false_and]
    rfl

theorem exec_settle (hp : s.powered = true) (hl : s.linkUp = true)
    (ha : s.exch.area = .opened ∨ s.exch.area = .draining ∨ s.exch.area = .abandoning) (hx : s.exch.settleList = x :: rest) :
    exec .settle s = .next (s.tallied x rest).unhold.closeIfDone := by
  have hsettles : s.exch.area.settles = true := by obtain ha | ha | ha := ha <;> simp [ha, AreaState.settles]
  have hrow : s.settleCard = ((s.writeReply x).writeSettled x).tallySettle x rest := by
    simp [State.settleCard, hp, hl, hsettles, hx]
  have hlink : ((s.writeReply x).writeSettled x).linkUp = true := by
    rw [State.writeReply_eq]
    exact hl
  refine congrArg Host.Outcome.next (hrow.trans ((State.tallySettle_eq hlink).trans ?_))
  rw [State.writeReply_eq]
  rfl

/-- A held fetcher reads again when what it waits for has come (R172, R174, R176, R179). -/
theorem State.unhold_wakesHeld {t : State} (hf : t.exch.fetcher = s.exch.fetcher) : wakesHeld s t.unhold := by
  rw [State.unhold_eq]
  refine ⟨fun code h => ?_, fun h => ?_, fun hroom hordered => ?_⟩
  · have hclears : t.holdClears = true ↔ roomFor t code := by
      rw [← State.hasRoom_iff]
      simp only [State.holdClears, hf, h]
    by_cases hr : roomFor t code
    · have hc := hclears.mpr hr
      exact ⟨⟨fun _ => hr, fun _ => if_pos hc⟩, fun hn => absurd hr hn⟩
    · have hc : ¬t.holdClears = true := mt hclears.mp hr
      have hstays : (if t.holdClears then Fetcher.reading else t.exch.fetcher) = .heldForRoom code := by rw [if_neg hc, hf, h]
      refine ⟨⟨fun hreads => ?_, fun hroom => absurd hroom hr⟩, fun _ => hstays⟩
      exact absurd (hreads.symm.trans hstays) (by simp)
  · have hclears : t.holdClears = t.exch.buffers.isEmpty := by simp only [State.holdClears, hf, h]
    dsimp only
    rw [hclears, hf, h]
    simp only [List.isEmpty_iff]
  · have hclears : t.holdClears = false := by
      unfold State.holdClears
      rw [hf]
      split
      · next code h => exact absurd h (hroom code)
      · next h => exact absurd h hordered
      all_goals rfl
    simp only [hclears, hf, Bool.false_eq_true, if_false]

/-- The part after a settle. -/
def State.settled (s : State) (x : Settlement) (rest : List Settlement) : State :=
  let t := s.tallied x rest
  { t with exch := { t.exch with
      fetcher := if t.holdClears then .reading else t.exch.fetcher
      area := if s.exch.area ≠ .opened ∧ t.exch.buffers = [] then .closed else s.exch.area
      closeRequested := if s.exch.area ≠ .opened ∧ t.exch.buffers = [] then false else s.exch.closeRequested } }

theorem exec_settle_eq (hp : s.powered = true) (hl : s.linkUp = true)
    (ha : s.exch.area = .opened ∨ s.exch.area = .draining ∨ s.exch.area = .abandoning) (hx : s.exch.settleList = x :: rest) :
    exec .settle s = .next (s.settled x rest) := by
  have harea : (s.tallied x rest).unhold.exch.area = s.exch.area := by rw [State.unhold_eq]; rfl
  rw [exec_settle hp hl ha hx, State.closeIfDone_eq (by rw [harea]; exact ha), State.unhold_eq]
  rfl

end

/-- Settles O18: the writes in their order, then the tally, the buffer, the fetcher and the area. -/
theorem settlingACard : Obligations.SettlingACard := by
  refine ⟨fun s x rest hp hl ha hx => ?_, fun s t x rest hp hl ha hx h => ?_⟩
  · have hwakes : wakesHeld s (s.tallied x rest).unhold := State.unhold_wakesHeld rfl
    rw [State.unhold_eq] at hwakes
    exact ⟨_, exec_settle_eq hp hl ha hx, rfl, rfl, rfl, rfl, rfl, hwakes, rfl, rfl, rfl, rfl, rfl, rfl, rfl, rfl, rfl, rfl, rfl, rfl, rfl,
      rfl, rfl⟩
  · cases (exec_settle_eq hp hl ha hx).symm.trans h
    have hlength := x.regionBytes_length (Config.freeByte s.free)
    have hframe (a : Nat) (hregion : ¬s.inPage x.card.num 176 80 a) (hstate : ¬s.inPage x.card.num 0 1 a)
        (htally : ¬s.inPage 0 8 4 a) : Memory.read (s.settled x rest).host a = Memory.read s.host a :=
      (Memory.read_writePage_other _ (leBytes_length _ _) htally).trans
        ((Memory.read_writePage_other _ rfl hstate).trans (Memory.read_writePage_other _ hlength hregion))
    unfold Settlement.regionBytes at hlength
    refine ⟨?_, hlength, hframe⟩
    simp only [State.settled, State.tallied]
    unfold Settlement.regionBytes
    rfl

end Sys2Proof.Machine
end

