-- ==== Sys2Proof/Proofs/AreaFaults.lean ====
section
/-! SUPPORT. The failed accesses to the header page and the cards: O19 (R171, R173, R174, R179, R184). -/
namespace Sys2Proof.Machine

/-! ### The rows of a failed access (R171, R173, R174, R179) -/

section
variable {s : State} {stores : HostWrites} {answered : Bool}

theorem exec_areaFaulted {access : FailedAccess} {t : State} (hp : s.powered = true) (e : s.accessFails access stores answered = t) :
    exec (.areaFaulted ⟨access, stores⟩ answered) s = .next t :=
  congrArg Host.Outcome.next ((State.whenPowered_on _ hp).trans e)

theorem State.openingFault_awaited {await : OpenAnswer} {fails : State → State} (ha : s.exch.area = .opening)
    (hw : s.exch.openAwait = some await) : s.openingFault await fails stores = fails (s.hostStores stores) := if_pos ⟨ha, hw⟩

theorem State.passFault_reading {fails : State → State} (hr : s.isReading = true) (hc : s.exch.candidate = none) :
    s.passFault fails stores = fails (s.hostStores stores) := if_pos (by simp [hr, hc])

theorem State.takeFault_taking {code : FaultCode} {before : Nat → State → State} {n : Nat} {k c : Word16} (hr : s.isReading = true)
    (hc : s.exch.candidate = some (n, k, c)) :
    s.takeFault code before stores answered = (before n (s.hostStores stores)).enterFaulted code n answered := by
  simp only [State.takeFault, hr, hc, if_true]

theorem State.settleFault_settling {before : Settlement → State → State} {faultCard : Settlement → Nat} {x : Settlement}
    {rest : List Settlement} (ha : s.exch.area.settles = true) (hx : s.exch.settleList = x :: rest) :
    s.settleFault before faultCard stores answered
      = (before x (s.hostStores stores)).enterFaulted .cardWrite (faultCard x) answered := by
  simp only [State.settleFault, ha, hx, if_true]

theorem AreaState.isActive_of_settles {a : AreaState} (h : a.settles = true) : a.isActive = true := by
  cases a <;> simp_all [AreaState.settles, AreaState.isActive]

/-- Entry into FAULTED over a link that is up, with no session OPEN, from a part in which the accesses before the failed one have changed
host memory alone and taken free values (R184). -/
theorem State.enterFaulted_after {f : FaultCode} (m : Memory) (k n : Nat) (ha : s.exch.area.isActive = true) (hl : s.linkUp = true)
    (hf : f ≠ .linkLost) (hs : ∀ c, s.update.session ≠ .opened c) :
    ({ s with host := m, free := k } : State).enterFaulted f n answered = { s with
      exch := s.exch.faultedWith (BitVec.ofNat 16 f.code) (BitVec.ofNat 8 n)
      messages := s.messages + s.askMessages s.exch.enable
      host := if answered then Memory.writeBytes m (s.pageAddress 0 14) (faultBytes f.code n) else m
      free := k } :=
  State.enterFaulted_linkUp (s := { s with host := m, free := k }) n answered ha hl hf (.inl hs)

end

/-- Settles O19: each failed access enters FAULTED from the part as the accesses before it left it. -/
theorem failedAccessesFaultTheArea : Obligations.FailedAccessesFaultTheArea := by
  intro s stores answered hp hl hs found faulted
  have hopening (ha : s.exch.area = .opening) : s.exch.area.isActive = true := by simp [ha, AreaState.isActive]
  have hreading (hr : s.isReading = true) : s.exch.area.isActive = true := by
    obtain ⟨-, -, ha, -⟩ := State.isReading_iff.mp hr
    simp [ha, AreaState.isActive]
  have hfault (ha : s.exch.area.isActive = true) (f : FaultCode) (hf : f ≠ .linkLost) (n : Nat) (m : Memory) (k : Nat) :
      ({ s with host := m, free := k } : State).enterFaulted f n answered = { faulted f.code n m with free := k } :=
    State.enterFaulted_after m k n ha hl hf hs
  refine ⟨fun ha hw => exec_areaFaulted hp ?_, fun ha hw => exec_areaFaulted hp ?_, fun ha hw hv => exec_areaFaulted hp ?_,
    fun hr hc => exec_areaFaulted hp ?_, fun n hr hc he h1 hn => exec_areaFaulted hp ?_, fun n k code hr hc => ?_,
    fun x rest ha hx => ?_⟩
  · exact (State.openingFault_awaited ha hw).trans (hfault (hopening ha) .cardRead (by decide) 0 found s.free)
  · exact (State.openingFault_awaited ha hw).trans (hfault (hopening ha) .cardWrite (by decide) 0 found s.free)
  · have hnone : (s.hostStores stores).headerCards.isNone = true := by simp [State.headerCards_eq_none.mpr hv]
    exact (State.openingFault_awaited ha hw).trans ((if_pos hnone).trans
      (State.enterFaulted_after found s.free 0 (hopening ha) hl (by decide) hs))
  · exact (State.passFault_reading hr hc).trans (hfault (hreading hr) .cardRead (by decide) 0 found s.free)
  · simp only [State.accessFails, State.passFault_reading hr hc, State.linkedCard_card he h1 hn]
    exact hfault (hreading hr) .cardRead (by decide) n found s.free
  · refine ⟨exec_areaFaulted hp ?_, exec_areaFaulted hp ?_, exec_areaFaulted hp ?_⟩ <;>
      simp only [State.accessFails, State.takeFault_taking hr hc]
    · exact hfault (hreading hr) .cardRead (by decide) n found s.free
    · exact hfault (hreading hr) .cardWrite (by decide) n found s.free
    · exact hfault (hreading hr) .cardWrite (by decide) n (Memory.writeBytes found (s.pageAddress n 0) [2#8]) s.free
  · intro region replied
    have hactive := AreaState.isActive_of_settles ha
    have hregion : region = x.regionBytes (Config.freeByte s.free) := by
      unfold Settlement.regionBytes
      rfl
    clear_value region
    subst hregion
    refine ⟨exec_areaFaulted hp ?_, exec_areaFaulted hp ?_, exec_areaFaulted hp ?_⟩ <;>
      simp only [State.accessFails, State.settleFault_settling ha hx]
    · exact hfault hactive .cardWrite (by decide) x.card.num found s.free
    · rw [State.writeReply_eq]
      exact hfault hactive .cardWrite (by decide) x.card.num replied (s.free + 1)
    · rw [State.writeReply_eq]
      exact hfault hactive .cardWrite (by decide) 0 (Memory.writeBytes replied (s.pageAddress x.card.num 0) [3#8]) (s.free + 1)

end Sys2Proof.Machine
end

