-- ==== Sys2Proof/Proofs/ClosingAndAbandoning.lean ====
section
/-! SUPPORT. CLOSE, and ABANDON with no card in work: O14 (R182, R183, R185). -/
namespace Sys2Proof.Machine

/-! ### CLOSE (R182, R185) -/

section
variable {s : State}

/-- A CLOSE that finds the area OPEN: the fetcher stops and the area drains, or closes with no card taken. -/
theorem State.closeCommand_opened (ha : s.exch.area = .opened) : s.closeCommand = { s with exch := { s.exch.halted with
    area := if s.exch.buffers = [] then .closed else .draining
    closeRequested := if s.exch.buffers = [] then false else s.exch.closeRequested } } := by
  have hclose : s.closeCommand = ({ s with exch := { s.exch.halted with area := .draining } } : State).closeWhenEmpty := by
    simp only [State.closeCommand, ha]
    rfl
  rw [hclose]
  by_cases hb : s.exch.buffers = []
  · rw [State.closeWhenEmpty_empty (by exact hb), if_pos hb, if_pos hb]
    rfl
  · rw [State.closeWhenEmpty_held (by exact hb), if_neg hb, if_neg hb]
    rfl

/-- A CLOSE that finds the area FAULTED: the close is requested, or carried out with no card held. -/
theorem State.closeCommand_faulted (ha : s.exch.area = .faulted) (hr : s.exch.closeRequested = false) :
    s.closeCommand = { s with exch := { s.exch with
      area := if s.exch.buffers = [] then .closed else .faulted, closeRequested := decide (s.exch.buffers ≠ []) } } := by
  have hclose : s.closeCommand = ({ s with exch := { s.exch with closeRequested := true } } : State).closeWhenEmpty := by
    simp [State.closeCommand, ha, hr]
  rw [hclose]
  by_cases hb : s.exch.buffers = []
  · rw [State.closeWhenEmpty_empty (by exact hb), if_pos hb, decide_eq_false (not_not.mpr hb)]
    rfl
  · rw [State.closeWhenEmpty_held (by exact hb), if_neg hb, decide_eq_true hb, ← ha]

end

/-! ### ABANDON and the cards that have not begun (R183) -/

/-- A buffer whose card, if it is one of those given, has left its queue and is handed back. -/
def Buffer.leftQueue (l : List Buffer) (y : Buffer) : Buffer :=
  if l.any fun x => x.card.take == y.card.take then { y with unit := none, phase := .handedBack } else y

theorem Buffer.leftQueue_card (l : List Buffer) (y : Buffer) : (y.leftQueue l).card = y.card := by
  unfold Buffer.leftQueue
  split <;> rfl

theorem Buffer.leftQueue_cons (x : Buffer) (l : List Buffer) (y : Buffer) : (y.leftQueue [x]).leftQueue l = y.leftQueue (x :: l) := by
  have hcard := Buffer.leftQueue_card [x] y
  unfold Buffer.leftQueue at hcard ⊢
  rw [hcard]
  cases hx : x.card.take == y.card.take <;> simp [hx]

/-- A buffer left in a queue is not one of those that have not begun. -/
theorem Buffer.leftQueue_begun {bs : List Buffer} {y : Buffer} (hy : y ∈ bs)
    (hu : (y.leftQueue (bs.filter Buffer.unbegun)).unit.isSome = true) : (y.leftQueue (bs.filter Buffer.unbegun)).phase ≠ .waiting := by
  unfold Buffer.leftQueue at hu ⊢
  split
  · simp
  · next hnot =>
    rw [if_neg hnot] at hu
    intro hw
    refine hnot (List.any_eq_true.mpr ⟨y, List.mem_filter.mpr ⟨hy, ?_⟩, beq_self_eq_true _⟩)
    simp [Buffer.unbegun, hu, hw]

/-- What an ABANDON does with one card that has not begun. -/
theorem State.abandonUnbegun_eq {s : State} (x : Buffer) (hc : s.carries) : ∃ (d : Word32) (k : Nat) (u : Update),
    s.abandonUnbegun x = { s with
      exch := { s.exch with
        buffers := s.exch.buffers.map (Buffer.leftQueue [x])
        settleList := s.exch.settleList ++ [{ card := x.card, outcome := .abandoned, detail := d, body := [] }] }
      free := k, update := u } ∧ u.work = s.update.work := by
  have hbuffers : (s.exch.buffers.map fun b => if b.card.take = x.card.take then { b with phase := .handedBack } else b).map
      (fun b => if b.card.take = x.card.take then { b with unit := none } else b) = s.exch.buffers.map (Buffer.leftQueue [x]) := by
    rw [List.map_map]
    refine List.map_congr_left fun y _ => ?_
    by_cases h : y.card.take = x.card.take
    · simp [Buffer.leftQueue, h]
    · simp [Buffer.leftQueue, h, Ne.symm h]
  unfold State.abandonUnbegun
  rw [State.handBack_carries _ _ _ _ hc]
  simp only [Exchange.handed, hbuffers]
  split
  · unfold State.restartIdle
    split
    · exact ⟨_, _, _, rfl, rfl⟩
    all_goals exact ⟨_, _, _, rfl, rfl⟩
  · exact ⟨_, _, _, rfl, rfl⟩

/-- What an ABANDON does with the cards that have not begun. -/
theorem State.foldl_abandonUnbegun (l : List Buffer) {s : State} (hc : s.carries) : ∃ (es : List Settlement) (k : Nat) (u : Update),
    l.foldl State.abandonUnbegun s = { s with
      exch := { s.exch with buffers := s.exch.buffers.map (Buffer.leftQueue l), settleList := s.exch.settleList ++ es }
      free := k, update := u } ∧ u.work = s.update.work
      ∧ es.map (fun e => (e.card, e.outcome, e.body)) = l.map fun x => (x.card, CardOutcome.abandoned, ([] : List Byte)) := by
  induction l generalizing s with
  | nil =>
    have hnone : s.exch.buffers.map (Buffer.leftQueue []) = s.exch.buffers := List.map_id _
    refine ⟨[], s.free, s.update, ?_, rfl, rfl⟩
    rw [hnone, List.append_nil]
    rfl
  | cons x l ih =>
    obtain ⟨d, k, u, hx, hu⟩ := State.abandonUnbegun_eq x hc
    obtain ⟨es, k', u', hl, hu', hes⟩ := ih (s := s.abandonUnbegun x) (by rw [hx]; exact hc)
    refine ⟨{ card := x.card, outcome := .abandoned, detail := d, body := [] } :: es, k', u', ?_, ?_, ?_⟩
    · rw [List.foldl_cons, hl, hx]
      have hcons : (s.exch.buffers.map (Buffer.leftQueue [x])).map (Buffer.leftQueue l)
          = s.exch.buffers.map (Buffer.leftQueue (x :: l)) := by
        rw [List.map_map]
        exact List.map_congr_left fun y _ => Buffer.leftQueue_cons x l y
      simp only [hcons, List.append_assoc, List.singleton_append]
    · rw [hu', hx, hu]
    · rw [List.map_cons, List.map_cons, hes]

/-- The notices of an ABANDON that finds no card in work. -/
theorem State.abandonNotices_none {s : State} (hk : s.custody.work = none) (hm : s.measure.work = none) (hu : s.update.work = none)
    (hc : s.credential.work = none) (hl : s.lifecycle.work = none) : s.abandonNotices = s := by
  unfold State.abandonNotices
  rw [State.custodyAbandon_none hk, State.measureAbandon_none hm, State.updateAbandon_none hu, State.credAbandon_none hc,
    State.lifeAbandon_none hl]

/-- An ABANDON with no card in work, in OPEN or DRAINING. -/
theorem exec_areaAbandon_idle {s : State} {b : Bool} (h : s.reachable = true) (ha : s.exch.area = .opened ∨ s.exch.area = .draining)
    (hk : s.custody.work = none) (hm : s.measure.work = none) (hu : s.update.work = none) (hc : s.credential.work = none)
    (hl : s.lifecycle.work = none) : exec (.areaAbandon b) s = .next
      ((s.exch.buffers.filter Buffer.unbegun).foldl State.abandonUnbegun (s.abandoning b)).closeWhenEmpty := by
  have hcommand : (s.enabled b).abandonCommand = (s.enabled b).abandonArea := by
    have harea : (s.enabled b).exch.area = s.exch.area := rfl
    obtain ha | ha := ha <;> simp only [State.abandonCommand, harea, ha]
  have hnotices : ((s.exch.buffers.filter Buffer.unbegun).foldl State.abandonUnbegun (s.abandoning b)).abandonNotices
      = (s.exch.buffers.filter Buffer.unbegun).foldl State.abandonUnbegun (s.abandoning b) := by
    obtain ⟨es, k, u, hfold, hwork, -⟩ := State.foldl_abandonUnbegun (s.exch.buffers.filter Buffer.unbegun) (s := s.abandoning b)
      (by simp [State.carries, State.abandoning])
    rw [hfold]
    exact State.abandonNotices_none hk hm (hwork.trans hu) hc hl
  rw [exec_areaAbandon_reached h, State.setEnable_reached b h]
  exact congrArg Host.Outcome.next (hcommand.trans (congrArg State.closeWhenEmpty hnotices))

/-- Settles O14: the commands by the state of the area, and the cards that have not begun one after another. -/
theorem closingAndAbandoningTheArea : Obligations.ClosingAndAbandoningTheArea := by
  refine ⟨fun s b h => ⟨fun ha => ?_, fun ha hr => ?_⟩, fun s b h ha => ⟨fun hb hk hm hu hc hl => ?_, fun hb hk hm hu hc hl _ => ?_⟩⟩
  · rw [exec_areaClose h, State.setEnable_reached b h]
    exact congrArg Host.Outcome.next (State.closeCommand_opened (s := s.enabled b) ha)
  · rw [exec_areaClose h, State.setEnable_reached b h]
    exact congrArg Host.Outcome.next (State.closeCommand_faulted (s := s.enabled b) ha hr)
  · rw [exec_areaAbandon_idle h ha hk hm hu hc hl, hb]
    exact congrArg Host.Outcome.next (State.closeWhenEmpty_empty (s := s.abandoning b) hb)
  · obtain ⟨es, k, u, hfold, -, hes⟩ := State.foldl_abandonUnbegun (s.exch.buffers.filter Buffer.unbegun) (s := s.abandoning b)
      (by simp [State.carries, State.abandoning])
    rw [exec_areaAbandon_idle h ha hk hm hu hc hl, hfold, State.closeWhenEmpty_held fun he => hb (List.map_eq_nil_iff.mp he)]
    refine ⟨_, rfl, rfl, rfl, rfl, ?_, fun x hx hsome => ?_, ?_, rfl, rfl, fun _ => rfl⟩
    · exact (List.map_append).trans (congrArg _ hes)
    · obtain ⟨y, hy, rfl⟩ := List.mem_map.mp hx
      exact Buffer.leftQueue_begun hy hsome
    · refine (List.map_map).trans (List.map_congr_left fun y _ => ?_)
      exact Buffer.leftQueue_card _ y

end Sys2Proof.Machine
end

