-- ==== Sys2Proof/Proofs/ExtentAccesses.lean ====
section
/-! SUPPORT. The ends of the units' own accesses to their extents: O60 (R9, R15, R20, R25, R47, R50, R58, R87, R91, R123, R186). -/
namespace Sys2Proof.Machine

/-! ### The ends at the units (R25, R47, R50, R58, R87, R123) -/

section
variable {s : State} {c : Card} {bytes : List Byte} {d : Option Word32} {body : List OutByte} {committed cut : Bool} (ok : Bool) (n : Nat)

theorem State.custodyDmaEnd_output (hw : s.custody.work = accessing c (.writeOut bytes d body) committed cut) :
    s.custodyDmaEnd ok n = if ok then (s.writeOutput c ok n bytes).custodyHandBack .done d body
      else (s.writeOutput c ok n bytes).takeBackUse.custodyRefuse .linkFault := by
  unfold State.custodyDmaEnd
  simp only [hw, accessing, Bool.false_eq_true, if_false]

theorem State.measureDmaEnd_output (hw : s.measure.work = accessing c (.writeOut bytes d body) committed cut)
    (hp : s.measure.paused = none) :
    s.measureDmaEnd ok n = if ok then (s.writeOutput c ok n bytes).measureHandBack .done d body
      else (s.writeOutput c ok n bytes).measureRefuse .linkFault := by
  unfold State.measureDmaEnd
  simp only [hw, hp, accessing, Bool.false_eq_true, if_false]

theorem State.updateDmaEnd_output (hw : s.update.work = accessing c (.writeOut bytes d body) committed cut) :
    s.updateDmaEnd ok n = if ok then (s.writeOutput c ok n bytes).updateHandBack .done d body
      else (s.writeOutput c ok n bytes).updateRefuse .linkFault := by
  unfold State.updateDmaEnd
  simp only [hw, accessing, Bool.false_eq_true, if_false]

theorem State.lifeDmaEnd_output (hw : s.lifecycle.work = accessing c (.writeOut bytes d body) committed cut) :
    s.lifeDmaEnd ok n = if ok then (s.writeOutput c ok n bytes).lifeHandBack .done d body
      else (s.writeOutput c ok n bytes).lifeRefuse .linkFault := by
  unfold State.lifeDmaEnd
  simp only [hw, accessing, Bool.false_eq_true, if_false]

theorem State.lifeDmaEnd_certificate (hw : s.lifecycle.work = accessing c .readCertificate committed cut) :
    s.lifeDmaEnd ok n = if ok then
        (s.lifeStage (.certificateWrite (Memory.readBytes s.host (c.extentAddress 0) (c.extentLength 0)))).send .lifecycle
          [.write (.certificate (Memory.readBytes s.host (c.extentAddress 0) (c.extentLength 0))) .lifeCard]
      else s.lifeRefuse .linkFault := by
  unfold State.lifeDmaEnd
  simp only [hw, accessing, Bool.false_eq_true, if_false]

theorem State.custodyDmaEnd_blobFault (hw : s.custody.work = accessing c .readBlob committed cut) :
    s.custodyDmaEnd false n = s.custodyRefuse .linkFault := by
  unfold State.custodyDmaEnd
  simp only [hw, accessing, Bool.false_eq_true, if_false]

end

/-! ### The rows -/

/-- What the end of a DMA write leaves in host memory. -/
theorem Memory.read_output_other (m : Memory) (c : Card) (bytes : List Byte) (ok : Bool) (n a : Nat)
    (h : ∀ i, i < bytes.length → a ≠ (c.extentAddress 0 + i) % Memory.size) :
    (m.writeBytes (c.extentAddress 0) (if ok then bytes else bytes.take n)).read a = m.read a := by
  refine Memory.read_writeBytes_other _ _ _ _ fun i hi => h i (hi.trans_le ?_)
  split
  · exact le_rfl
  · exact List.length_take_le' _ _

/-- The end of a unit's own DMA access, answered or not. -/
theorem exec_extentDmaEnd_accessing {s : State} {unit : DmaUnit} {cut ok : Bool} {t : State} (h : HostWrites) (r : DmaResult)
    (hp : s.powered = true) (hpending : s.dmaPending unit = true) (hcut : s.isCut unit = cut)
    (hok : (dmaAnswered r && s.linkUp && !cut) = ok) (ht : (s.hostStores h).dmaEnded unit ok (dmaWritten r) = t) :
    exec (.extentDmaEnd unit h r) s = .next t := by
  rw [exec_extentDmaEnd h r hp hpending (by rw [hcut, hok]), ht]

section
variable {s : State} {c : Card} {cut : Bool}

theorem State.isCut_custody {stage : CustodyStage} {committed : Bool} (hw : s.custody.work = accessing c stage committed cut) :
    s.isCut .custody = cut := by
  simp [State.isCut, hw, accessing]

theorem State.isCut_measure {stage : MeasureStage} {committed : Bool} (hw : s.measure.work = accessing c stage committed cut) :
    s.isCut .measure = cut := by
  simp [State.isCut, hw, accessing]

theorem State.isCut_update {stage : UpdateStage} {committed : Bool} (hw : s.update.work = accessing c stage committed cut) :
    s.isCut .update = cut := by
  simp [State.isCut, hw, accessing]

theorem State.isCut_lifecycle {stage : LifeStage} {committed : Bool} (hw : s.lifecycle.work = accessing c stage committed cut) :
    s.isCut .lifecycle = cut := by
  simp [State.isCut, hw, accessing]

/-- The custody card's outcome, with what LINK FAULT takes back in the table (log entry 25). -/
theorem State.custodyDmaEnd_outcome {u : State} {table : Vector (Option KeyRecord) 48} {bytes : List Byte} {d : Option Word32}
    {body : List OutByte} {committed : Bool} (ok : Bool) (n : Nat)
    (hw : s.custody.work = accessing c (.writeOut bytes d body) committed cut) (hc : s.carries) (hu : s.writeOutput c ok n bytes = u)
    (ht : table = if ok then s.custody.table else s.custody.takenBack) :
    s.custodyDmaEnd ok n = { (if ok then u.givesBack c .done d body else u.givesBack c .linkFault none []) with
      custody := { s.custody with table := table, work := none, undo := none } } := by
  subst hu ht
  rw [State.custodyDmaEnd_output ok n hw]
  cases ok with
  | true => exact State.custodyHandBack_eq (s := s.writeOutput c true n bytes) .done d body hw hc
  | false => exact State.custodyRefuse_eq (s := (s.writeOutput c false n bytes).takeBackUse) .linkFault hw hc

end

/-- Settles O60: each unit's access ends at its card, answered or not. -/
theorem unitsWriteTheirExtents : Obligations.UnitsWriteTheirExtents := by
  intro s h r c bytes d body committed cut hp hc ok
  have hok : (dmaAnswered r && s.linkUp && !cut) = ok := rfl
  clear_value ok
  intro u t
  have hu : (s.hostStores h).writeOutput c ok (dmaWritten r) bytes = u := rfl
  have hframe (a : Nat) (ha : ∀ i, i < bytes.length → a ≠ (c.extentAddress 0 + i) % Memory.size) :
      Memory.read u.host a = Memory.read (Memory.hostStores s.host h) a :=
    Memory.read_output_other (Memory.hostStores s.host h) c bytes ok (dmaWritten r) a ha
  refine ⟨fun hw => ?_, fun hw hpaused => ?_, fun hw hheld => ?_, fun hw => ?_, fun a ha => ?_, fun hw hanswered hroom => ?_,
    fun hfailed => ⟨fun hw => ?_, fun hw => ?_⟩⟩
  · intro table
    have hpending : s.dmaPending .custody = true := (State.dmaPending_custody hw).mpr (.inr ⟨_, _, _, rfl⟩)
    refine exec_extentDmaEnd_accessing h r hp hpending (State.isCut_custody hw) hok ?_
    have htable : table = if ok then s.custody.table else s.custody.takenBack := by
      unfold Custody.takenBack
      dsimp only [table]
      cases s.custody.undo <;> cases ok <;> rfl
    exact State.custodyDmaEnd_outcome (s := s.hostStores h) ok _ hw hc hu htable
  · have hpending : s.dmaPending .measure = true := (State.dmaPending_measure hw).mpr ⟨hpaused, _, _, _, rfl⟩
    refine exec_extentDmaEnd_accessing h r hp hpending (State.isCut_measure hw) hok ?_
    refine (State.measureDmaEnd_output (s := s.hostStores h) ok _ hw hpaused).trans ?_
    cases ok with
    | true => exact (State.measureHandBack_eq (s := u) .done d body hw hc).trans (by rw [← hpaused]; rfl)
    | false => exact (State.measureRefuse_eq (s := u) .linkFault hw hc).trans (by rw [← hpaused]; rfl)
  · have hpending : s.dmaPending .update = true := (State.dmaPending_update hw).mpr ⟨_, _, _, rfl⟩
    refine exec_extentDmaEnd_accessing h r hp hpending (State.isCut_update hw) hok ?_
    refine (State.updateDmaEnd_output (s := s.hostStores h) ok _ hw).trans ?_
    cases ok with
    | true => exact State.updateHandBack_eq (s := u) .done d body hw hc hheld
    | false => exact State.updateRefuse_eq (s := u) .linkFault hw hc hheld
  · have hpending : s.dmaPending .lifecycle = true := (State.dmaPending_lifecycle hw).mpr (.inr ⟨_, _, _, rfl⟩)
    refine exec_extentDmaEnd_accessing h r hp hpending (State.isCut_lifecycle hw) hok ?_
    refine (State.lifeDmaEnd_output (s := s.hostStores h) ok _ hw).trans ?_
    cases ok with
    | true => exact State.lifeHandBack_eq (s := u) .done d body hw hc
    | false => exact State.lifeRefuse_eq (s := u) .linkFault hw hc
  · cases ok with
    | true => exact hframe a ha
    | false => exact hframe a ha
  · intro certificate
    subst hanswered
    have hcut : cut = false := by simpa using (Bool.and_eq_true_iff.mp hok).2
    subst hcut
    have hpending : s.dmaPending .lifecycle = true := (State.dmaPending_lifecycle hw).mpr (.inl rfl)
    refine exec_extentDmaEnd_accessing h r hp hpending (State.isCut_lifecycle hw) hok ?_
    refine (State.lifeDmaEnd_certificate (s := s.hostStores h) true _ hw).trans ?_
    refine (State.send_plainWrite (s := (s.hostStores h).lifeStage (.certificateWrite certificate)) hroom (by decide) (by simp)).trans ?_
    unfold State.lifeStage State.commitCard
    simp only [State.hostStores, hw, accessing, working, Option.map_some, Work.commit]
    rfl
  · subst hfailed
    have hpending : s.dmaPending .lifecycle = true := (State.dmaPending_lifecycle hw).mpr (.inl rfl)
    refine exec_extentDmaEnd_accessing h r hp hpending (State.isCut_lifecycle hw) hok ?_
    exact (State.lifeDmaEnd_certificate (s := s.hostStores h) false _ hw).trans
      (State.lifeRefuse_eq (s := s.hostStores h) .linkFault hw hc)
  · subst hfailed
    have hpending : s.dmaPending .custody = true := (State.dmaPending_custody hw).mpr (.inl rfl)
    refine exec_extentDmaEnd_accessing h r hp hpending (State.isCut_custody hw) hok ?_
    exact (State.custodyDmaEnd_blobFault (s := s.hostStores h) _ hw).trans
      (State.custodyRefuse_eq (s := s.hostStores h) .linkFault hw hc)

end Sys2Proof.Machine
end

