-- ==== Sys2Proof/Proofs/HostMemory.lean ====
section
/-! SUPPORT. What every row leaves of host memory: O9 (R171, R174, R190). -/
namespace Sys2Proof.Machine

/-! ### What leaves host memory as it is -/

/-- Host memory is a part of what the units leave still. -/
theorem host_of_still {s t : State} (h : t.still = s.still) : t.host = s.host := congrArg Still.host h

section
variable (s : State)

theorem State.whenPowered_host {next : State → State} (h : (next s).host = s.host) : (s.whenPowered next).host = s.host := by
  unfold State.whenPowered
  split
  · exact h
  · rfl

theorem State.whenReachable_host {next : State → State} (h : (next s).host = s.host) : (s.whenReachable next).host = s.host := by
  unfold State.whenReachable
  split
  · exact h
  · rfl

@[simp] theorem State.ask_host (a : Attention) : (s.ask a).host = s.host := host_of_still (State.ask_still a s)

@[simp] theorem State.handBack_host (c : Card) (o : CardOutcome) (d : Option Word32) (b : List OutByte) :
    (s.handBack c o d b).host = s.host := host_of_still (State.handBack_still c o d b s)

theorem foldl_host {α : Type} {f : State → α → State} (h : ∀ t x, (f t x).host = t.host) (l : List α) (s : State) :
    (l.foldl f s).host = s.host := by
  induction l generalizing s with
  | nil => rfl
  | cons x l ih => exact (ih (f s x)).trans (h s x)

/-! ### The exchange -/

@[simp] theorem State.setEnable_host (b : Bool) : (s.setEnable b).host = s.host := by
  unfold State.setEnable
  dsimp only
  split
  · exact (host_of_still (State.sendMessage_still _)).trans rfl
  · rfl

@[simp] theorem State.writeAck_host (v : Word32) : (s.writeAck v).host = s.host := by
  unfold State.writeAck
  dsimp only
  split
  · exact (host_of_still (State.sendMessage_still _)).trans rfl
  · rfl

@[simp] theorem State.nudge_host : s.nudge.host = s.host := by
  unfold State.nudge
  repeat' split
  all_goals rfl

@[simp] theorem State.closeWhenEmpty_host : s.closeWhenEmpty.host = s.host := by
  unfold State.closeWhenEmpty
  split <;> rfl

@[simp] theorem State.closeCommand_host : s.closeCommand.host = s.host := by
  unfold State.closeCommand
  split
  · exact State.closeWhenEmpty_host _
  · split
    · rfl
    · exact State.closeWhenEmpty_host _
  all_goals exact s.ask_host .controlIgnored

@[simp] theorem State.abandonUnbegun_host (b : Buffer) : (s.abandonUnbegun b).host = s.host := by
  unfold State.abandonUnbegun
  dsimp only
  split
  · exact (host_of_still (State.restartIdle_still _)).trans (s.handBack_host b.card .abandoned none [])
  · exact s.handBack_host b.card .abandoned none []

@[simp] theorem State.abandonCommand_host : s.abandonCommand.host = s.host := by
  have harea : s.abandonArea.host = s.host := by
    refine (State.closeWhenEmpty_host _).trans ((host_of_still (State.abandonNotices_still _)).trans ?_)
    exact foldl_host (fun t b => t.abandonUnbegun_host b) _ _
  unfold State.abandonCommand
  split
  · exact harea
  · exact harea
  all_goals exact s.ask_host .controlIgnored

/-- A word written to a register is an access to the area only where it carries an OPEN (R169, R189). -/
theorem State.writeRegister_host (o : BitVec 5) (v : Word32) (h : ¬(o = 0x08#5 ∧ v.extractLsb' 0 2 = 1#2)) :
    (s.writeRegister o v).host = s.host := by
  have hbase (b : Word64) : (s.writeBase b).host = s.host := by
    unfold State.writeBase
    split <;> rfl
  have hcontrol (hv : v.extractLsb' 0 2 ≠ 1#2) : (s.writeControl v).host = s.host := by
    obtain ⟨hnone, -, hclose, habandon⟩ := State.writeControl_command v s
    have hcommand : ∀ x : BitVec 2, x = 0#2 ∨ x = 1#2 ∨ x = 2#2 ∨ x = 3#2 := by decide
    obtain h0 | h1 | h2 | h3 := hcommand (v.extractLsb' 0 2)
    · rw [hnone h0, State.setEnable_host]
    · exact absurd h1 hv
    · rw [hclose h2, State.closeCommand_host, State.setEnable_host]
    · rw [habandon h3, State.abandonCommand_host, State.setEnable_host]
  unfold State.writeRegister
  repeat' split
  · exact hbase _
  · exact hbase _
  · next ho => exact hcontrol fun hv => h ⟨ho, hv⟩
  · exact s.nudge_host
  · exact s.writeAck_host v
  all_goals rfl

/-- An entry into FAULTED whose code and card do not reach the header page (R184). -/
theorem State.enterFaulted_host (f : FaultCode) (n : Nat) : (s.enterFaulted f n false).host = s.host := by
  cases h : s.exch.area.isActive with
  | false => rw [State.enterFaulted_inactive f n false h]
  | true =>
    rw [State.enterFaulted_active f n false h]
    exact foldl_host (fun t c => host_of_still (State.freeBuffer_still c t)) _ (s.faultRecorded f n false)

@[simp] theorem State.routeCard_host (c : Card) : (s.routeCard c).host = s.host := by
  unfold State.routeCard
  dsimp only
  repeat' split
  · exact State.handBack_host _ _ _ _ _
  · exact State.handBack_host _ _ _ _ _
  · rfl

/-! ### The link, supply and reset -/

@[simp] theorem State.linkLoss_host : s.linkLoss.host = s.host := by
  unfold State.linkLoss
  split
  · exact State.enterFaulted_host _ _ _
  · rfl

@[simp] theorem State.linkReturn_host : s.linkReturn.host = s.host := by
  unfold State.linkReturn
  split <;> rfl

@[simp] theorem State.powerUp_host : s.powerUp.host = s.host := by
  unfold State.powerUp
  split <;> rfl

@[simp] theorem State.powerLoss_host (cut : WriteCut) : (s.powerLoss cut).host = s.host := rfl

@[simp] theorem State.resetLineSet_host (b : Bool) : (s.resetLineSet b).host = s.host := by
  unfold State.resetLineSet
  repeat' split
  all_goals rfl

/-! ### The pace clock -/

@[simp] theorem State.storedDebtRefresh_host : s.storedDebtRefresh.host = s.host := by
  unfold State.storedDebtRefresh
  split
  · exact (host_of_still (State.send_still _ _ _)).trans rfl
  · rfl

@[simp] theorem State.decayStep_host : s.decayStep.host = s.host := by
  unfold State.decayStep
  split
  · exact (host_of_still (State.decayAll_still _)).trans rfl
  · rfl

@[simp] theorem State.periodExpiry_host : s.periodExpiry.host = s.host := by
  unfold State.periodExpiry
  split <;> rfl

@[simp] theorem State.flushTick_host : s.flushTick.host = s.host := by
  have htimers (t : State) : t.idleExpiry.guardExpiry.host = t.host :=
    host_of_still ((State.guardExpiry_still _).trans (State.idleExpiry_still t))
  unfold State.flushTick
  rw [host_of_still (State.ownerReleaseHold_still _), State.periodExpiry_host, htimers, State.storedDebtRefresh_host,
    State.decayStep_host, host_of_still (State.presenceExpiry_still s)]

@[simp] theorem State.paceTick_host (low : Bool) : (s.paceTick low).host = s.host := by
  unfold State.paceTick
  dsimp only
  split <;> exact s.flushTick_host

/-! ### The measure unit, the engines and the census -/

theorem State.beginMeasure_host (code : Word16) {body : Card → State → State} (hb : ∀ c (t : State), (body c t).host = t.host) :
    (s.beginMeasure code body).host = s.host := by
  unfold State.beginMeasure
  split
  · exact hb _ _
  · rfl

theorem State.closeChain_hostMemory (c : Card) : (s.closeChain c).host = s.host := by
  unfold State.closeChain
  repeat' split
  · exact host_of_still (State.measureBad_still _ _)
  · exact host_of_still (State.measureRefuse_still _ _)
  · exact (host_of_still (State.measureHandBack_still _ _ _ _)).trans rfl

theorem State.quote_host (c : Card) : (s.quote c).host = s.host := by
  unfold State.quote
  repeat' split
  · exact host_of_still (State.measureBad_still _ _)
  · exact host_of_still (State.measureRefuse_still _ _)
  · exact host_of_still (State.measureBad_still _ _)
  · simp

@[simp] theorem State.curveComplete_host : s.curveComplete.host = s.host := by
  unfold State.curveComplete
  split
  · rfl
  · next run _ => exact (host_of_still (State.curveEnded_still run _)).trans rfl

@[simp] theorem State.censusEnd_host (a b r : Byte) (bounded : Bool) (jitter : List Byte) :
    (s.censusEnd a b r bounded jitter).host = s.host := by
  unfold State.censusEnd
  split
  · refine (host_of_still ((State.startUpGoesOn_still _).trans (State.answerWaiters_still _))).trans ?_
    split
    · exact (host_of_still (State.censusFails_still _)).trans rfl
    · rfl
  · rfl

/-! ### The store and start-up -/

@[simp] theorem State.startStep5_host : s.startStep5.host = s.host := by
  rw [State.startStep5_eq]

@[simp] theorem State.beginStep4_host : s.beginStep4.host = s.host := by
  unfold State.beginStep4
  dsimp only
  split
  · exact (State.startStep5_host _).trans rfl
  · exact host_of_still ((State.send_still _ _ _).trans ((State.atStep_still _ _).trans (State.startStep4_still s)))

@[simp] theorem State.beginStartUp_host : s.beginStartUp.host = s.host := by
  obtain ⟨-, -, -, -, -, -, hhost, -⟩ := s.recordsPlaced_frame
  rw [State.beginStartUp_placed]
  split
  · exact (State.beginStep4_host _).trans hhost
  · exact (host_of_still ((State.send_still _ _ _).trans (State.atStep_still _ _))).trans hhost

@[simp] theorem State.startRemovalEnd_host : s.startRemovalEnd.host = s.host := by
  unfold State.startRemovalEnd
  repeat' split
  · exact s.beginStep4_host
  all_goals rfl

@[simp] theorem State.startKindEnd_host (w : Write) (ok : Bool) : (s.startKindEnd w ok).host = s.host := by
  have hwritten := host_of_still (State.bootWritten_still w ok s)
  by_cases hstep : ∃ n, s.startUp = .step4 n
  · obtain ⟨n, hn⟩ := hstep
    rw [State.startKindEnd_step4 w ok hn]
    split
    · exact (State.startStep5_host _).trans hwritten
    · exact (host_of_still (State.atStep_still _ _)).trans hwritten
  · rw [State.startKindEnd_other w ok fun n hn => hstep ⟨n, hn⟩]
    exact hwritten

@[simp] theorem State.answerWrite_host (r : WriteRequest) (ok : Bool) : (s.answerWrite r ok).host = s.host := by
  obtain ⟨w, a⟩ := r
  cases a with
  | credStartUp => exact s.startRemovalEnd_host
  | updateStartUp => exact s.startKindEnd_host w ok
  | nobody => rfl
  | lifeClosing => exact host_of_still ((State.startUpGoesOn_still _).trans (State.closingEnd_still _ s))
  | _ => exact host_of_still (by simp [State.answerWrite])

@[simp] theorem State.programmed_host (w : Write) (first second : Bool) : (s.programmed w first second).host = s.host := by
  unfold State.programmed
  dsimp only
  split
  · rfl
  · exact (host_of_still (State.askStoreFault_still _)).trans rfl

@[simp] theorem State.leaveQueue_host : s.leaveQueue.host = s.host :=
  (host_of_still ((State.resumeAttempt_still _).trans (State.pumpStore_still _ _))).trans rfl

@[simp] theorem State.storeWriteEnd_host (first second : Bool) : (s.storeWriteEnd first second).host = s.host := by
  unfold State.storeWriteEnd
  split
  · rfl
  · refine (State.leaveQueue_host _).trans ((State.answerWrite_host _ _ _).trans ?_)
    exact (host_of_still (State.credWriteOver_still _ _)).trans (State.programmed_host _ _ _ _)

end

/-! ### Every row -/

theorem host_of_exec {c : Instr} {s t u : State} (h : exec c s = .next t) (e : exec c s = .next u) (hu : u.host = s.host) :
    t.host = s.host := by
  cases h.symm.trans e
  exact hu

/-- A row that is no access to the area or to an extent leaves host memory. -/
theorem exec_host {c : Instr} {s t : State} (hc : touchesHost c = false) (h : exec c s = .next t) : t.host = s.host := by
  have hreach {next : State → State} (e : exec c s = .next (s.whenReachable next)) (hn : (next s).host = s.host) : t.host = s.host :=
    host_of_exec h e (s.whenReachable_host hn)
  have hpowered {next : State → State} (e : exec c s = .next (s.whenPowered next)) (hn : (next s).host = s.host) : t.host = s.host :=
    host_of_exec h e (s.whenPowered_host hn)
  cases c with
  | areaOpen | readingPass | cardTake | settle | areaFaulted | hashPieceEnd | extentDmaEnd => cases hc
  | areaClose b => exact hreach rfl (by simp)
  | areaAbandon b => exact hreach rfl (by simp)
  | interruptEnableWrite b => exact hreach rfl (s.setEnable_host b)
  | nudge v => exact hreach rfl s.nudge_host
  | settleAck v => exact hreach rfl (s.writeAck_host v)
  | attentionClear v => exact hreach rfl rfl
  | registerWrite o v =>
    have hword : (decide (o = 0x08#5) && decide (v.extractLsb' 0 2 = 1#2)) = false := hc
    exact hreach rfl (s.writeRegister_host o v (by simpa using hword))
  | linkLoss => exact hpowered rfl s.linkLoss_host
  | linkReturn => exact hpowered rfl s.linkReturn_host
  | powerUp => exact host_of_exec h rfl s.powerUp_host
  | powerLoss cut => exact hpowered rfl (s.powerLoss_host cut)
  | platformReset b => exact hpowered rfl (s.resetLineSet_host b)
  | startUp =>
    refine host_of_exec h rfl ?_
    split
    · exact s.beginStartUp_host
    · rfl
  | paceTick low => exact hpowered rfl (s.paceTick_host low)
  | decayStep => exact hpowered rfl s.decayStep_host
  | storedDebtRefresh => exact hpowered rfl s.storedDebtRefresh_host
  | periodTimerExpiry => exact hpowered rfl s.periodExpiry_host
  | censusRunEnd a b r bounded jitter => exact hpowered rfl (s.censusEnd_host a b r bounded jitter)
  | curveOperationComplete => exact hpowered rfl s.curveComplete_host
  | storeWriteEnd first second => exact hpowered rfl (s.storeWriteEnd_host first second)
  | closeChain => exact host_of_exec h rfl (s.beginMeasure_host _ fun c t => t.closeChain_hostMemory c)
  | quote => exact host_of_exec h rfl (s.beginMeasure_host _ fun c t => t.quote_host c)
  | factoryRoot =>
    exact host_of_exec h rfl
      (host_of_still (State.beginLife_still _ _ _ s fun c t => State.factory_still _ _ c t State.factoryRoot_still))
  | factoryPairing =>
    exact host_of_exec h rfl
      (host_of_still (State.beginLife_still _ _ _ s fun c t => State.factory_still _ _ c t State.factoryPairing_still))
  | _ => exact host_of_exec h rfl (host_of_still (by simp))

/-- Settles O9: the rows that are no access, one by one, and the writes of an opening and of a take. -/
theorem onlyAccessesChangeHostMemory : Obligations.OnlyAccessesChangeHostMemory := by
  refine ⟨fun c s t hc h a => by rw [exec_host hc h], fun s t b stores a hr ha ⟨n, hv⟩ h hout => ?_,
    fun s t stores n ticket code a hr hc h hstate hticket => ?_⟩
  · rw [exec_areaOpen_enabled hr, State.openArea_both (s := s.enabled b) ha hv] at h
    cases h
    exact Memory.read_writePage_other _ (by simp) hout
  · cases (exec_cardTake hr hc).symm.trans h
    rw [State.routeCard_host]
    exact (Memory.read_writePage_other _ (leBytes_length _ _) hticket).trans (Memory.read_writePage_other _ rfl hstate)

end Sys2Proof.Machine
end

