-- ==== Sys2Proof/Proofs/KeyDescriptions.lean ====
section
/-! SUPPORT. KEY DESCRIBE, the layout of its reply, and DRAW RANDOM; O25 is settled here (R16, R20, R193, R194). -/
namespace Sys2Proof.Machine

/-! ### The layout of the reply (R20, R193, R194) -/

theorem bindingField_layout (b : Option Binding) : bindingField b = match b with
    | none => replyNum 1 0 ++ replyOpen 35
    | some (.exactly mask composite) => replyNum 1 1 ++ replyOpen 1 ++ replyNum 2 mask.toNat ++ replyNum 32 composite.toNat
    | some (.acceptedImage kind chain) => replyNum 1 2 ++ replyNum 1 kind.val ++ replyNum 1 chain.val ++ replyOpen 33 := by
  simp only [replyNum_eq]
  obtain _ | ⟨mask, composite⟩ | ⟨kind, chain⟩ := b
  all_goals rfl

theorem limitField_layout (l : Option UseLimit) :
    outNum 1 l.isSome.toNat ++ outOption 2 (l.map (·.limit)) ++ outOption 2 (l.map (·.remaining)) = match l with
      | none => replyNum 1 0 ++ replyOpen 4
      | some x => replyNum 1 1 ++ replyNum 2 x.limit ++ replyNum 2 x.remaining := by
  simp only [replyNum_eq]
  cases l <;> rfl

theorem anchorField_layout (a : Option Anchor) :
    outOption 1 (a.map fun x => x.kinds.toNat) ++ outOption 4 (a.bind fun x => x.serial.map BitVec.toNat) = match a with
      | none => replyOpen 5
      | some x => replyNum 1 x.kinds.toNat ++ match x.serial with
        | none => replyOpen 4
        | some serial => replyNum 4 serial.toNat := by
  simp only [replyNum_eq]
  obtain _ | ⟨kinds, _ | serial⟩ := a
  all_goals rfl

/-- The description of an EMPTY slot is its number, and zeros. -/
theorem describeReply_empty (i : Fin 48) : describeReply i none = outBytes (BitVec.ofNat 8 i.val :: List.replicate 71 0#8) := rfl

/-- The description of a slot in use, field by field. -/
theorem describeReply_layout (i : Fin 48) (r : KeyRecord) : describeReply i (some r) =
    replyNum 1 i.val ++ replyNum 1 r.state.code ++ replyNum 1 r.cls.code ++ replyNum 1 r.material.algorithm.code
      ++ replyNum 1 r.flags.toNat ++ bindingField r.binding
      ++ (outNum 1 r.limit.isSome.toNat ++ outOption 2 (r.limit.map (·.limit)) ++ outOption 2 (r.limit.map (·.remaining)))
      ++ replyNum 4 r.total ++ replyNum 1 r.label.length ++ r.label.map some ++ replyOpen (16 - r.label.length)
      ++ (outOption 1 (r.anchor.map fun a => a.kinds.toNat)
        ++ outOption 4 (r.anchor.bind fun a => a.serial.map BitVec.toNat)) := by
  simp only [replyNum_eq, describeReply, outPadded, outNum_eq, List.append_assoc]
  rfl

/-! ### KEY DESCRIBE (R20) -/

/-- The public key that a KEY DESCRIBE writes to its extent, if it names one and the slot holds a public key. -/
def State.describedKey (s : State) (c : Card) : Option PublicKey := if c.extentCount = 0 then none else s.publicKeyOf (c.slot 0)

theorem State.describedKey_none {s : State} {c : Card}
    (h : c.extentCount = 0 ∨ ∀ r, s.slot (c.slot 0) = some r → r.material.publicKey = none) : s.describedKey c = none := by
  unfold State.describedKey State.publicKeyOf
  obtain hx | hslot := h
  · exact if_pos hx
  · rw [Option.bind_eq_none_iff.mpr hslot, ite_self]

theorem State.describedKey_some {s : State} {c : Card} {r : KeyRecord} {pub : PublicKey} (hx : c.extentCount ≠ 0)
    (hr : s.slot (c.slot 0) = some r) (hpub : r.material.publicKey = some pub) : s.describedKey c = some pub := by
  unfold State.describedKey State.publicKeyOf
  rw [if_neg hx, hr]
  exact hpub

theorem State.keyDescribe_replies {s : State} {c : Card} (hf : keyDescribeForm c = none) (hk : s.describedKey c = none) :
    s.keyDescribe c = s.custodyHandBack .done none (describeReply (c.slot 0) (s.slot (c.slot 0))) := by
  unfold State.describedKey at hk
  simp only [State.keyDescribe, hf, hk]

theorem State.keyDescribe_writes {s : State} {c : Card} {pub : PublicKey} (hf : keyDescribeForm c = none)
    (hk : s.describedKey c = some pub) :
    s.keyDescribe c = s.custodyStage (.writeOut (strBytes pub) none (describeReply (c.slot 0) (s.slot (c.slot 0)))) := by
  unfold State.describedKey at hk
  simp only [State.keyDescribe, hf, hk]

/-- KEY DESCRIBE begun, before its form check. -/
theorem exec_keyDescribe {s : State} {c : Card} (h : s.custodyReady 0x0109#16 = some c) :
    exec .keyDescribe s = .next ((s.custodyBegun c).keyDescribe c) :=
  congrArg Host.Outcome.next (State.beginCustody_eq _ h)

/-! ### DRAW RANDOM (R16) -/

/-- DRAW RANDOM of a good form is past its gate with the census HEALTHY. -/
theorem exec_drawRandom {s : State} {c : Card} (h : s.custodyReady 0x010A#16 = some c) (hf : drawRandomForm c = none)
    (hc : s.census.state = .healthy) : exec .drawRandom s = .next ((s.custodyBegun c).drawAfterGate c) := by
  have hdraw : (s.custodyBegun c).drawRandom c = (s.custodyBegun c).custodyGate (State.drawAfterGate c) := by
    unfold State.drawRandom
    rw [hf]
  show Host.Outcome.next (s.beginCustody _ _) = _
  rw [State.beginCustody_eq _ h, hdraw, State.custodyGate_healthy (s := s.custodyBegun c) _ hc]

/-- Settles O25: a description settled at once or written out first, its layout, and the draw. -/
theorem keyDescribeAndDrawRandom : Obligations.KeyDescribeAndDrawRandom := by
  refine ⟨fun s c h hf => ?describe, fun s c h hf hc hcarry => ?draw⟩
  case describe =>
    intro reply
    refine ⟨fun hk hcarry => ?replies, fun r pub hx hr hpub => ?writes, fun hr => ?empty, fun r hr => ?layout⟩
    case replies =>
      rw [exec_keyDescribe h, State.keyDescribe_replies (s := s.custodyBegun c) hf (State.describedKey_none (s := s) hk)]
      exact congrArg Host.Outcome.next (State.custodyHandBack_eq (s := s.custodyBegun c) .done none reply (s.custodyBegun_work c) hcarry)
    case writes =>
      rw [exec_keyDescribe h, State.keyDescribe_writes (s := s.custodyBegun c) hf (State.describedKey_some (s := s) hx hr hpub)]
      rfl
    case empty => exact (congrArg (describeReply (c.slot 0)) hr).trans (describeReply_empty _)
    case layout =>
      intro state class_ algorithm flags binding limit anchor
      have hstate : r.state.code = state := by cases hr : r.state <;> simp [state, hr, KeyState.code]
      have hclass : r.cls.code = class_ := by cases hr : r.cls <;> simp [class_, hr, KeyClass.code]
      have halgorithm : r.material.algorithm.code = algorithm := by
        cases hr : r.material <;> simp [algorithm, hr, KeyMaterial.algorithm, Algorithm.code]
      have hlayout := describeReply_layout (c.slot 0) r
      rw [limitField_layout, anchorField_layout, bindingField_layout, hstate, hclass, halgorithm] at hlayout
      exact (congrArg (describeReply (c.slot 0)) hr).trans hlayout
  case draw =>
    rw [exec_drawRandom h hf hc, State.drawAfterGate_eq (s := s.custodyBegun c) c (s.custodyBegun_work c) hcarry]
    rfl

end Sys2Proof.Machine
end

