-- ==== Sys2Proof/Proofs/CredentialCards.lean ====
section
/-! SUPPORT. CRED RELEASE, CRED REPLACE, CRED REMOVE and CRED DESCRIBE as they begin, the layout of the last one's reply, and the write of
a replacement when its verifier has come; O44 is settled here (R110 to R114, R194). -/
namespace Sys2Proof.Machine

/-! ### Cards handed back as they begin (R95) -/

/-- A card of the credential unit that is begun and handed back in one act. -/
theorem State.credBegun_handBack {s : State} (c : Card) (o : CardOutcome) (d : Option Word32) (b : List OutByte) (h : s.carries) :
    (s.credBegun c).credHandBack o d b =
      { (s.begins c).givesBack c o d b with credential := { s.credential with work := none } } :=
  State.credHandBack_eq (s := s.credBegun c) (w := { card := c, stage := .gate, abandoned := false, committed := false }) o d b rfl h

/-! ### The occupied places (R114) -/

/-- The number with the bits that a predicate names is below the power behind the last of them, and has those bits alone. -/
theorem sum_bits {n : Nat} (p : Fin n → Bool) : (∑ i, if p i then 2 ^ i.val else 0) < 2 ^ n
    ∧ ∀ j : Fin n, (∑ i, if p i then 2 ^ i.val else 0).testBit j.val = p j := by
  induction n with
  | zero => exact ⟨by simp, fun j => j.elim0⟩
  | succ n ih =>
    obtain ⟨hlt, hbits⟩ := ih fun i => p i.castSucc
    rw [Fin.sum_univ_castSucc]
    simp only [Fin.val_castSucc, Fin.val_last]
    generalize (∑ i : Fin n, if p i.castSucc then 2 ^ i.val else 0) = low at hlt hbits
    cases hp : p (Fin.last n) with
    | false =>
      refine ⟨by simp [Nat.pow_succ]; omega, fun j => ?_⟩
      cases j using Fin.lastCases with
      | last => simpa [hp] using Nat.testBit_lt_two_pow hlt
      | cast j => simpa using hbits j
    | true =>
      refine ⟨by simp [Nat.pow_succ]; omega, fun j => ?_⟩
      rw [if_pos rfl, Nat.add_comm]
      cases j using Fin.lastCases with
      | last => simp [hp, Nat.testBit_two_pow_add_eq, Nat.testBit_lt_two_pow hlt]
      | cast j => simpa [Nat.testBit_two_pow_add_gt j.isLt] using hbits j

/-- A bit of the occupied places is set exactly where its place holds a record. -/
theorem State.occupied_getLsbD (s : State) (i : Fin 32) : s.occupied.getLsbD i.val = (s.cred i).isSome := by
  obtain ⟨-, hbits⟩ := sum_bits fun i => (s.cred i).isSome
  unfold State.occupied
  rw [BitVec.getLsbD_ofNat, decide_eq_true i.isLt, Bool.true_and, ← List.ofFn_eq_map, List.sum_ofFn, hbits i]

/-! ### The reply of CRED DESCRIBE (R114, R194) -/

theorem State.credReply_empty {s : State} {i : Fin 32} (h : s.cred i = none) : s.credReply i = [none] := by
  unfold State.credReply
  rw [h]
  rfl

/-- The description of a record, field by field. -/
theorem State.credReply_layout {s : State} {i : Fin 32} {e : CredEntry} (h : s.cred i = some e) : s.credReply i =
    replyNum 1 (i.val + 1) ++ replyNum 1 e.record.kind.code ++ replyNum 1 e.record.cls.code ++ replyNum 1 e.record.label.length
      ++ e.record.label.map some ++ replyOpen (24 - e.record.label.length) ++ replyNum 1 e.record.binding.isSome.toNat
      ++ replyNum 2 e.record.policy.charge ++ replyNum 2 e.record.policy.decay ++ replyNum 2 e.record.policy.lock
      ++ replyNum 2 e.working ++ replyNum 1 (e.working / 512)
      ++ replyNum 1 (e.working / 512 - (s.pace.tick - e.record.lastTick).toNat) ++ replyNum 1 e.record.saturated.toNat
      ++ replyNum 2 e.record.failures := by
  unfold State.credReply
  rw [h]
  simp only [replyNum_eq, outPadded, policyBody, debtBody, outNum_eq, List.append_assoc]
  rfl

/-! ### CRED RELEASE (R110) -/

/-- CRED RELEASE begun, before its form check. -/
theorem exec_credRelease {s : State} {c : Card} (h : s.credReady 0x0403#16 = some c) :
    exec .credRelease s = .next ((s.credBegun c).credRelease c) := congrArg Host.Outcome.next (State.beginCred_eq _ h)

section
variable {s : State} {c : Card} {e : CredEntry} (hf : credIdForm c = none) (hp : s.lifecycle.pending = false)
  (he : s.cred c.place = some e)
include hf hp he

/-- A record of another kind has no secret to release. -/
theorem State.credRelease_otherKind (hk : e.record.kind ≠ .releasable) : s.credRelease c = s.credRefuse .notPermitted := by
  simp only [State.credRelease, hf, State.onRecord_eq _ hp he]
  exact if_pos hk

/-- An unbound secret is released with presence open. -/
theorem State.credRelease_unbound (hk : e.record.kind = .releasable) (hb : e.record.binding = none)
    (ho : s.lifecycle.presence.isSome = true) : s.credRelease c = s.releaseSecret e := by
  simp only [State.credRelease, hf, State.onRecord_eq _ hp he, hb]
  exact (if_neg (not_not.mpr hk)).trans (if_pos ho)

/-- A bound secret asks for a binding check, and the card waits for its answer. -/
theorem State.credRelease_bound {b : Binding} (hk : e.record.kind = .releasable) (hb : e.record.binding = some b)
    (hroom : s.measureRoom .credentialAsk) : s.credRelease c =
      { s.credStage (.binding c.place) with measure := s.measure.asked (.check .credential b true) } := by
  simp only [State.credRelease, hf, State.onRecord_eq _ hp he, hb]
  exact (if_neg (not_not.mpr hk)).trans
    (State.send_check (s := s.credStage (.binding c.place)) .credential b true hroom (by decide))

end

/-! ### CRED REPLACE (R111, R112) -/

/-- CRED REPLACE begun, before its form check. -/
theorem exec_credReplace {s : State} {c : Card} (h : s.credReady 0x0404#16 = some c) :
    exec .credReplace s = .next ((s.credBegun c).credReplace c) := congrArg Host.Outcome.next (State.beginCred_eq _ h)

section
variable {s : State} {c : Card} {e : CredEntry} (hf : credReplaceForm c = none) (hp : s.lifecycle.pending = false)
  (he : s.cred c.place = some e)
include hf hp he

theorem State.credReplace_factory (hcls : e.record.cls = .factory) : s.credReplace c = s.credRefuse .notPermitted := by
  simp only [State.credReplace, hf, State.onRecord_eq _ hp he]
  exact if_pos hcls

/-- With the census HEALTHY and presence open, a replacement without the old secret draws as it begins. -/
theorem State.credReplace_presence (hcls : e.record.cls = .owner) (hc : s.census.state = .healthy) (hold : c.field 2 1 = 0)
    (ho : s.lifecycle.presence.isSome = true) : s.credReplace c = s.replaceDraw c e none := by
  have hafter : s.replaceAfterGate c = s.replaceDraw c e none := by
    simp only [State.replaceAfterGate, he, hold, Nat.lt_irrefl, if_false]
    exact if_pos ho
  simp only [State.credReplace, hf, State.onRecord_eq _ hp he]
  rw [if_neg (by rw [hcls]; decide), State.credGate_healthy _ hc, hafter]

end

/-! ### CRED REMOVE (R113) -/

/-- CRED REMOVE begun, before its form check. -/
theorem exec_credRemove {s : State} {c : Card} (h : s.credReady 0x0405#16 = some c) :
    exec .credRemove s = .next ((s.credBegun c).credRemove c) := congrArg Host.Outcome.next (State.beginCred_eq _ h)

section
variable {s : State} {c : Card} {e : CredEntry} (hf : credIdForm c = none) (hp : s.lifecycle.pending = false)
  (he : s.cred c.place = some e)
include hf hp he

theorem State.credRemove_factory (hcls : e.record.cls = .factory) : s.credRemove c = s.credRefuse .notPermitted := by
  simp only [State.credRemove, hf, State.onRecord_eq _ hp he]
  exact if_pos hcls

/-- With presence open, the removal of an OWNER record is written first. -/
theorem State.credRemove_writes (hcls : e.record.cls = .owner) (ho : s.lifecycle.presence.isSome = true) :
    s.credRemove c = s.credWrite c.place none .credCard (.removeWrite c.place) := by
  have hopen : s.presenceOpen ≠ false := by simp [State.presenceOpen, ho]
  simp only [State.credRemove, hf, State.onRecord_eq _ hp he]
  rw [if_neg (by rw [hcls]; decide), if_neg hopen]

end

/-! ### CRED DESCRIBE (R114) -/

/-- A description of a good form is handed back as the card begins, whatever its place holds. -/
theorem exec_credDescribe {s : State} {c : Card} (h : s.credReady 0x0406#16 = some c) (hf : credIdForm c = none) (hc : s.carries) :
    exec .credDescribe s = .next { (s.begins c).givesBack c .done (some s.occupied) (s.credReply c.place) with
      credential := { s.credential with work := none } } := by
  have hdone : (s.credBegun c).credDescribe c
      = (s.credBegun c).credHandBack .done (some s.occupied) (s.credReply c.place) := by
    unfold State.credDescribe
    rw [hf]
    rfl
  show Host.Outcome.next (s.beginCred 0x0406#16 State.credDescribe) = _
  rw [State.beginCred_eq _ h, hdone, State.credBegun_handBack c _ _ _ hc]

/-! ### The verifier of a replacement has come (R112) -/

/-- A replacement without the old secret is sent with the working debt and the last tick of its record as they stand (R100, R112). -/
theorem State.enqueue_replace {s : State} {i : Fin 32} {e : CredEntry} (r : CredRecord) (he : s.cred i = some e)
    (hf : s.outboxes.refresh = []) : s.enqueue (.cred i (some r)) .credReplace = { s.commitCard .credReplace with
      credential := { (s.commitCard .credReplace).credential with
        table := tableSet s.credential.table i (some { e with writes := e.writes + 1 }) }
      store := s.store.queued (.cred i (some { r with debt := e.working, lastTick := e.record.lastTick })) .credReplace } := by
  let sent : CredRecord := { r with debt := e.working, lastTick := e.record.lastTick }
  have hsent : s.asSent (.cred i (some r)) .credReplace = .cred i (some sent) := by
    unfold State.asSent
    simp only [he]
    rfl
  have hcard : s.enqueue (.cred i (some r)) .credReplace = { s.enqueue (.cred i (some sent)) .credCard with
      store := s.store.queued (.cred i (some sent)) .credReplace } := by
    unfold State.enqueue
    rw [hsent]
    rfl
  rw [hcard, State.enqueue_cred i (some sent) (t := .credCard) (by decide) hf, he]
  rfl

/-- The write of such a replacement commits its card. -/
theorem State.credWrite_replace {s : State} {c : Card} {before : CredStage} {m : Bool} {i : Fin 32} {e : CredEntry} (r : CredRecord)
    (x : CredStage) (hw : s.credential.work = working c before m) (he : s.cred i = some e) (h : s.storeRoom .credential)
    (hf : s.outboxes.refresh = []) : s.credWrite i (some r) .credReplace x = { s with
      credential := { s.credential with
        table := tableSet s.credential.table i (some { e with writes := e.writes + 1 }), work := working c x true }
      store := s.store.queued (.cred i (some { r with debt := e.working, lastTick := e.record.lastTick })) .credReplace } := by
  have henqueue := State.enqueue_replace (s := s.credStage x) r he hf
  refine (State.send_write (s := s.credStage x) _ _ h (by decide) (by rw [henqueue]; exact h.1.1)).trans (henqueue.trans ?_)
  unfold State.commitCard State.credStage
  rw [hw]
  rfl

theorem State.credHashEnd_replace {s : State} {c : Card} {i : Fin 32} {e : CredEntry} {salt : Salt} {copy : Option SealedSecret}
    {att : Option (Nat × Word32)} {m : Bool} (d : Digest) (hs : s.credential.service = none)
    (hw : s.credential.work = working c (.replaceHash i salt copy att) m) (he : s.cred i = some e) :
    s.credHashEnd d = s.credWrite i (some (e.record.replaced salt d copy att)) (if att.isSome then .credCard else .credReplace)
      (.replaceWrite i (e.record.replaced salt d copy att) att.isSome) := by
  unfold State.credHashEnd State.replaceHashed
  simp only [hs, hw, working, he]

/-- Settles O44: the four cards as they begin, the two refusals, the reply's layout, and the write of the changed record. -/
theorem credentialCardsBegin : Obligations.CredentialCardsBegin := by
  refine ⟨fun s c e he hp hcls => ⟨fun h hf hk => ⟨fun hb ho hc => ?released, fun b hb hroom => ?asks⟩,
      fun n h hf hc hold ho hn => ?replaces, fun h hf ho hroom hout => ?removes⟩,
    fun i code form s c e hcard he hp h hf hc => ?refused, fun s c e he h hf hc => exec_credDescribe h hf hc,
    fun s c h hf he hc => ?empty, fun s i e he => ?layout,
    fun s h answered c i e salt copy secret hp hend hl hs hr he hroom hout => ?verifier, State.occupied_getLsbD⟩
  case released =>
    rw [exec_credRelease h, State.credRelease_unbound (s := s.credBegun c) hf hp he hk hb ho]
    exact congrArg Host.Outcome.next (State.credBegun_handBack c _ _ _ hc)
  case asks =>
    rw [exec_credRelease h, State.credRelease_bound (s := s.credBegun c) hf hp he hk hb hroom]
    rfl
  case replaces =>
    intro drawn salt secret copy
    rw [exec_credReplace h, State.credReplace_presence (s := s.credBegun c) hf hp he hcls hc hold ho,
      State.replaceDraw_eq (s := s.credBegun c) none rfl hn]
    rfl
  case removes =>
    rw [exec_credRemove h, State.credRemove_writes (s := s.credBegun c) hf hp he hcls ho,
      State.credWrite_eq (s := s.credBegun c) c.place none _ rfl hroom hout, show (s.credBegun c).cred c.place = some e from he]
    rfl
  case refused =>
    have hback : (s.credBegun c).credRefuse .notPermitted =
        { (s.begins c).givesBack c .notPermitted none [] with credential := { s.credential with work := none } } :=
      State.credBegun_handBack c .notPermitted none [] hc
    rw [← hback]
    obtain ⟨rfl, rfl, rfl, hk⟩ | ⟨rfl, rfl, rfl, hk⟩ | ⟨rfl, rfl, rfl, hk⟩ := hcard
    · rw [exec_credRelease h, State.credRelease_otherKind (s := s.credBegun c) hf hp he hk]
    · rw [exec_credReplace h, State.credReplace_factory (s := s.credBegun c) hf hp he hk]
    · rw [exec_credRemove h, State.credRemove_factory (s := s.credBegun c) hf hp he hk]
  case empty => rw [exec_credDescribe h hf hc, State.credReply_empty he]
  case layout =>
    intro r kind class_
    have hkind : e.record.kind.code = kind := by cases hr : e.record.kind <;> simp [kind, r, hr, CredKind.code]
    have hclass : e.record.cls.code = class_ := by cases hr : e.record.cls <;> simp [class_, r, hr, CredClass.code]
    have hlayout := State.credReply_layout he
    rw [hkind, hclass] at hlayout
    exact hlayout
  case verifier =>
    intro record writes
    let t : State := s.atPieceEnd h .credential
    let d : Digest := Config.hmacSha256 Config.credentialKey (strBytes salt ++ secret)
    refine ⟨fun debt tick hw => ?oldSecret, fun hw => ?presence⟩
    case oldSecret =>
      intro r
      have hwritten := (State.credHashEnd_replace (s := t) d hs hw he).trans (State.credWrite_eq (s := t) i (some r) _ hw hroom hout)
      rw [show t.cred i = some e from he] at hwritten
      exact exec_hashPieceEnd_verifier h answered hp hl hr hwritten hend
    case presence =>
      have hwritten := (State.credHashEnd_replace (s := t) d hs hw he).trans (State.credWrite_replace (s := t) _ _ hw he hroom hout)
      exact exec_hashPieceEnd_verifier h answered hp hl hr hwritten hend

end Sys2Proof.Machine
end

