-- ==== Sys2Proof/Proofs/OwnerCards.lean ====
section
/-! SUPPORT. OWNERSHIP RELEASE, LIFECYCLE DESCRIBE and IDENTITY DESCRIBE as they begin, and the layouts of the two descriptions; O49 is
settled here (R50, R129 to R131, R136, R194). -/
namespace Sys2Proof.Machine

/-! ### OWNERSHIP RELEASE (R130, R131) -/

/-- OWNERSHIP RELEASE begun, before its form check. -/
theorem exec_ownershipRelease {s : State} {c : Card} (h : s.lifeReady 0x0506#16 = some c) :
    exec .ownershipRelease s = .next ((s.lifeBegun c .release).ownershipRelease c) :=
  congrArg Host.Outcome.next (State.beginLife_eq _ _ h)

/-- Past its checks the card is committed, and takes its release request in the same act. -/
theorem State.ownershipRelease_takes {s : State} {c : Card} (hf : noFieldsForm c = none) (he : s.lifecycle.effective = .claimed)
    (hp : s.lifecycle.pending = false) (ho : s.lifecycle.presence.isSome = true) :
    s.ownershipRelease c = ((s.lifeStage .release).lifeCommit).takeRelease := by
  have hopen : s.presenceOpen = true := ho
  simp only [State.ownershipRelease, hf, he, hp, hopen, ne_eq, not_true_eq_false, Bool.false_eq_true, Bool.true_eq_false, if_false]

/-! ### LIFECYCLE DESCRIBE (R31, R136) -/

/-- LIFECYCLE DESCRIBE begun, before its form check. -/
theorem exec_lifecycleDescribe {s : State} {c : Card} (h : s.lifeReady 0x0508#16 = some c) :
    exec .lifecycleDescribe s = .next ((s.lifeBegun c .pairing).lifecycleDescribe c) :=
  congrArg Host.Outcome.next (State.beginLife_eq _ _ h)

theorem State.lifecycleDescribe_replies {s : State} {c : Card} (hf : noFieldsForm c = none) : s.lifecycleDescribe c =
    s.lifeHandBack .done (some (Config.recordReport s.measure.records.length s.measure.truncated)) s.lifecycleReply := by
  simp only [State.lifecycleDescribe, hf]

theorem State.presenceReply_layout (s : State) : s.presenceReply = match s.lifecycle.presence with
    | none => replyNum 1 0 ++ replyOpen 2
    | some expiry => replyNum 1 1 ++ replyNum 2 (expiry - s.pace.tick).toNat := by
  obtain hp | ⟨expiry, hp⟩ := s.lifecycle.presence.eq_none_or_eq_some
  · have hclosed : s.presenceOpen = false := by simp [State.presenceOpen, hp]
    rw [hp, State.presenceReply, hclosed]
    rfl
  · have hopen : s.presenceOpen = true := by simp [State.presenceOpen, hp]
    have hleft : s.presenceLeft = (expiry - s.pace.tick).toNat := by simp [State.presenceLeft, elapsed, hp]
    rw [hp, State.presenceReply, hopen, hleft, if_pos rfl]
    simp only [replyNum_eq, outNum_eq]

/-- The description of the lifecycle, field by field. -/
theorem State.lifecycleReply_layout (s : State) : s.lifecycleReply =
    replyNum 1 s.lifecycle.effective.code ++ replyNum 1 s.lifecycle.requested.code ++ replyNum 1 s.lifecycle.pending.toNat
      ++ replyNum 1 s.lifecycle.progress.code ++ replyNum 1 s.lifecycle.counts.slots ++ replyNum 1 s.lifecycle.counts.records
      ++ replyNum 1 s.lifecycle.counts.trials ++ replyNum 1 s.lifecycle.counts.slotsFailed
      ++ replyNum 1 s.lifecycle.counts.recordsFailed ++ replyNum 1 s.lifecycle.counts.trialsFailed ++ s.presenceReply
      ++ replyNum 1 s.lifecycle.hold ++ replyNum 1 s.census.state.code ++ replyNum 1 s.census.a.toNat ++ replyNum 1 s.census.b.toNat
      ++ replyNum 1 s.census.r.toNat ++ replyNum 4 s.pace.tick.toNat ++ replyNum 1 s.store.map.spares
      ++ replyNum 2 s.measure.missed := by
  simp only [replyNum_eq, State.lifecycleReply, WipeCounts.body, outNum_eq, ← List.append_assoc]

/-! ### IDENTITY DESCRIBE (R50) -/

/-- IDENTITY DESCRIBE begun, before its form check. -/
theorem exec_identityDescribe {s : State} {c : Card} (h : s.lifeReady 0x0509#16 = some c) :
    exec .identityDescribe s = .next ((s.lifeBegun c .pairing).identityDescribe c) :=
  congrArg Host.Outcome.next (State.beginLife_eq _ _ h)

/-- An output that fits the card's extent is written there first. -/
theorem State.identityDescribe_writes {s : State} {c : Card} (hf : oneExtentForm c = none) (hout : s.identityOutput ≠ [])
    (hfit : s.identityOutput.length ≤ c.extentLength 0) : s.identityDescribe c =
      s.lifeStage (.writeOut s.identityOutput (some (BitVec.ofNat 32 s.identityOutput.length)) s.identityReply) := by
  have hlong : ¬c.extentLength 0 < s.identityOutput.length := Nat.not_lt.mpr hfit
  simp only [State.identityDescribe, hf, hlong, List.isEmpty_eq_false_iff.mpr hout, Bool.false_eq_true, if_false]

/-- With nothing to write, the card is handed back as it begins. -/
theorem State.identityDescribe_replies {s : State} {c : Card} (hf : oneExtentForm c = none) (hout : s.identityOutput = []) :
    s.identityDescribe c = s.lifeHandBack .done (some 0#32) s.identityReply := by
  simp [State.identityDescribe, hf, hout]

/-- The description of the identity, field by field. -/
theorem State.identityReply_layout (s : State) : s.identityReply =
    replyNum 1 (s.slot 1).isSome.toNat ++ replyNum 1 s.lifecycle.certificate.isSome.toNat
      ++ replyNum 2 (s.lifecycle.certificate.getD []).length ++ replyNum 1 s.lifecycle.effective.code := by
  simp only [replyNum_eq, State.identityReply, outNum_eq]

/-- The output: the public key in slot 1, when it is there, and the certificate's bytes behind it. -/
theorem State.identityOutput_layout (s : State) : outBytes s.identityOutput =
    (match s.slot 1 with
      | some r => match r.material with
        | .p256 _ pub => replyNum 64 pub.toNat
        | .hmac256 _ => []
        | .wrap256 _ => []
      | none => []) ++ outBytes (s.lifecycle.certificate.getD []) := by
  unfold State.identityOutput State.publicKeyOf
  rw [← outBytes_append]
  refine congrArg (· ++ _) ?_
  cases s.slot 1 with
  | none => rfl
  | some r =>
    obtain ⟨state, cls, material, flags, binding, limit, total, label, anchor⟩ := r
    cases material with
    | p256 scalar pub => exact outBytes_strBytes pub
    | hmac256 _ => rfl
    | wrap256 _ => rfl

/-- Settles O49: the release request, the two withdraws, the descriptions as they begin, and their layouts. -/
theorem ownerCardsBegin : Obligations.OwnerCardsBegin := by
  refine ⟨fun s c => ⟨fun h hf he hp ho hroom => ?release, fun expiry h hf hp hc => exec_ownerWithdraw_open h hc hf hp,
    fun h hf hp hc => exec_ownerWithdraw_closed h hc hf hp, fun h hf hc => ?lifecycle, fun h hf => ?identity⟩, fun s => ?layouts⟩
  case release =>
    rw [exec_ownershipRelease h, State.ownershipRelease_takes (s := s.lifeBegun c .release) hf he hp ho,
      State.takeRelease_eq (s := ((s.lifeBegun c .release).lifeStage .release).lifeCommit) hroom]
    rfl
  case lifecycle =>
    rw [exec_lifecycleDescribe h, State.lifecycleDescribe_replies hf]
    exact congrArg Host.Outcome.next (State.lifeBegun_handBack c _ _ _ _ hc)
  case identity =>
    intro out
    refine ⟨fun hout hfit => ?writes, fun hout hc => ?replies⟩
    case writes =>
      rw [exec_identityDescribe h, State.identityDescribe_writes (s := s.lifeBegun c .pairing) hf hout hfit]
      rfl
    case replies =>
      rw [exec_identityDescribe h, State.identityDescribe_replies (s := s.lifeBegun c .pairing) hf hout]
      exact congrArg Host.Outcome.next (State.lifeBegun_handBack c _ _ _ _ hc)
  case layouts =>
    intro life progress census counts presence
    have hlife : ∀ x : LifecycleState, x.code = life x := fun x => by cases x <;> rfl
    have hprogress : s.lifecycle.progress.code = progress := by cases hr : s.lifecycle.progress <;> simp [progress, hr, Progress.code]
    have hcensus : s.census.state.code = census := by cases hr : s.census.state <;> simp [census, hr, CensusState.code]
    have hlifecycle := s.lifecycleReply_layout
    have hidentity := s.identityReply_layout
    rw [hlife, hlife, hprogress, hcensus, State.presenceReply_layout] at hlifecycle
    rw [hlife] at hidentity
    exact ⟨hlifecycle, hidentity, s.identityOutput_layout⟩

end Sys2Proof.Machine
end

