-- ==== Sys2Proof/Proofs/FrontCommand.lean ====
section
/-! SUPPORT. What a step does by the form of the queue of commands; O1 is settled here (log entry 2). -/
namespace Sys2Proof.Machine

/-- The front command leaves the queue before it is carried out, so what it does cannot hang on its own place there. -/
theorem step_of_pending_cons {s : State} {c : Instr} {rest : List Instr} (h : s.pending = c :: rest) :
    step s = exec c { s with pending := rest } := by
  simp only [step, h]

theorem step_of_pending_nil {s : State} (h : s.pending = []) : step s = .next s := by
  simp only [step, h]

/-- Settles O1, by the two forms of the queue. -/
theorem stepRunsTheFrontCommand : Obligations.StepRunsTheFrontCommand := by
  refine ⟨fun c rest s h => ?front, fun s h => ?idle⟩
  case front => exact step_of_pending_cons h
  case idle => exact step_of_pending_nil h

end Sys2Proof.Machine
end
